-- ==== Sys2Proof/Word.lean ====
section
/-! DEFINITION. The word types of the shared page memory (R154): bytes and 16-bit words, the high byte
of a word at its even address. -/

namespace Sys2Proof

/-- One byte of the shared page memory. -/
abbrev Byte := BitVec 8

/-- One word of the shared page memory (R154: the memory is organised in 16-bit words). -/
abbrev Word := BitVec 16

/-- A byte address of the shared page memory, 0x0000 to 0x7FFF (R154). -/
abbrev Addr := BitVec 15

/-- An optical port, 0 to 63. -/
abbrev Port := Fin 64

/-- A card slot, 0 to 15. -/
abbrev Card := Fin 16

/-- A protection group, 0 to 15. -/
abbrev GroupIx := Fin 16

/-- A timing reference: BC1, BC2, LR1, LR2, LR3, LR4 are 0 to 5. -/
abbrev RefIx := Fin 6

/-- A work order table entry, 0 to 15. -/
abbrev OrderIx := Fin 16

/-- A request slot, 0 to 7. -/
abbrev SlotIx := Fin 8

/-- A contact input, CI0 to CI7. -/
abbrev InputIx := Fin 8

/-- An alarm table entry, 0 to 127. -/
abbrev EntryIx := Fin 128

end Sys2Proof
end

