-- ==== Sys2Proof/Syntax.lean ====
section
/-! DEFINITION. The commands of the H3: one constructor per row of spec/opcode_table.json. The table
gives its rows no operand fields; each constructor carries what the row's rule needs to name its event
(the port and the sample, the timer's object, the host's address and byte, the slot of a request). -/

namespace Sys2Proof

/-- One port's entry in a scan of the monitor multiplexer (section 1.1): port number, 12-bit power
code, one tag bit, the card-present and card-fault flags and the valid mark. -/
structure Sample where
  port    : Port
  code    : BitVec 12
  tagBit  : Bool
  present : Bool
  fault   : Bool
  valid   : Bool
deriving DecidableEq, Repr

/-- R155, R169: the two host ports, of which the HIF strap selects the one HPI listens on. -/
inductive HostPort where
  | serial | parallel
deriving DecidableEq, Repr

/-- R155: a byte access as the pins of a host port show it. A strobe of the parallel port carries its byte address. The
serial port carries a command, a start address and a run of bytes: `start` is the first byte of a run, of the command that
the row names, and `next` a later one, whose address the port itself keeps. -/
inductive HostAddr where
  | strobe (addr : Addr)
  | start (addr : Addr)
  | next
deriving DecidableEq, Repr

/-- The commands, in the order of the opcode table. A request row names the slot whose request the
request unit executes; its parameters stand in the slot's memory (R160, R161). -/
inductive Instr where
  /-- R1. One monitor sample arrives. -/
  | sample (x : Sample)
  /-- R2. The missed sample with which the port's run of missed samples reaches 64. -/
  | monLost (x : Sample)
  /-- R12. The valid sample at which the port's tracking counter reaches 2^k. -/
  | trackingPoint (x : Sample)
  /-- R19. The reading with which a card's candidate count reaches 8. -/
  | cardStateAccepted (x : Sample)
  /-- R14. The valid sample with which a collecting port's count reaches 64. -/
  | portCalibrated (x : Sample)
  /-- R163. PMON hands RQU the outcomes of the job in the slot. -/
  | calbJobDone (slot : SlotIx)
  /-- R31. The sample with which the loss counter reaches 168 without a valid frame. -/
  | decoderLoss (x : Sample)
  /-- R92. LCP sends a line control frame. -/
  | lcpFrame
  /-- R42. A port's tag wait timer runs out. -/
  | tagWaitExpiry (port : Port)
  /-- R52. An OPEN order's window timer runs out. -/
  | windowExpiry (entry : OrderIx)
  /-- R55. A VERIFYING order's verify timer runs out. -/
  | verifyTimerExpiry (entry : OrderIx)
  /-- R67. A member's hold-off timer runs out. -/
  | holdOffExpiry (group : GroupIx) (member : Nat)
  /-- R76. A RESTORE-WAIT's WTR timer runs out. -/
  | wtrExpiry (group : GroupIx)
  /-- R88. A 1TN group's bridge confirmation timer runs out. -/
  | bridgeConfirmationExpiry (group : GroupIx)
  /-- R102. 0.5 ms pass without an edge at a reference's 8 kHz point. -/
  | activityLost (ref : RefIx)
  /-- R102. The eighth consecutive timely edge, `gap` count-clock ticks after the edge before it. -/
  | activityRegained (ref : RefIx) (gap : Nat)
  /-- R104. The 8192nd edge of a window, `gap` count-clock ticks after the edge before it. -/
  | windowComplete (ref : RefIx) (gap : Nat)
  /-- R106. The warm-up timer runs out. -/
  | warmUpEnd
  /-- R118. The steering timer runs out. -/
  | steeringTimerExpiry
  /-- R120. The holdover age reaches the holdover limit. -/
  | holdoverAged
  /-- R133. A PENDING entry's raise soak runs out. -/
  | raiseSoakExpiry (entry : EntryIx)
  /-- R134. A CLEARING entry's clear soak runs out. -/
  | clearSoakExpiry (entry : EntryIx)
  /-- R146. The level at a contact input's pin changes. -/
  | contactPinChange (input : InputIx) (high : Bool)
  /-- R146. A contact input's debounce timer runs out. -/
  | debounceExpiry (input : InputIx)
  /-- R155, R169. One byte written at the pins of a host port. -/
  | hostByteWrite (addr : HostAddr) (byte : Byte)
  /-- R155, R169. One byte read at the pins of a host port. -/
  | hostByteRead (addr : HostAddr)
  /-- R158. A completed host write to ATTN-CLR. HPI has completed it, so that it came over the port that the HIF strap
  selects, as every completed write of a register does (DEDUCED, log 53). -/
  | attnClr (value : Word)
  /-- R158. A completed host write to ATTN-MASK. -/
  | attnMask (value : Word)
  /-- R156. A completed host write to IDENT, STATE, ATTN or a reserved register word. -/
  | registerWriteOther (addr : Addr) (value : Word)
  /-- R161. The taken slot's code is no request code. -/
  | unknownCode (slot : SlotIx)
  /-- R166. -/
  | ldsh (slot : SlotIx)
  /-- R18. -/
  | ldpf (slot : SlotIx)
  /-- R167. -/
  | ldpt (slot : SlotIx)
  /-- R40. -/
  | ldcr (slot : SlotIx)
  /-- R62. -/
  | ldpg (slot : SlotIx)
  /-- R99. -/
  | ldtr (slot : SlotIx)
  /-- R128. -/
  | ldap (slot : SlotIx)
  /-- R145. -/
  | ldci (slot : SlotIx)
  /-- R168. -/
  | rdtb (slot : SlotIx)
  /-- R41. -/
  | adpt (slot : SlotIx)
  /-- R163. -/
  | calb (slot : SlotIx)
  /-- R48. -/
  | wkop (slot : SlotIx)
  /-- R51. -/
  | wken (slot : SlotIx)
  /-- R56. -/
  | wkcn (slot : SlotIx)
  /-- R57. -/
  | wkdr (slot : SlotIx)
  /-- R71. -/
  | pslo (slot : SlotIx)
  /-- R72. -/
  | psfs (slot : SlotIx)
  /-- R73. -/
  | psms (slot : SlotIx)
  /-- R74. -/
  | pscl (slot : SlotIx)
  /-- R114. -/
  | tmlk (slot : SlotIx)
  /-- R114. -/
  | tmfs (slot : SlotIx)
  /-- R114. -/
  | tmcl (slot : SlotIx)
  /-- R139. -/
  | alak (slot : SlotIx)
  /-- R144. -/
  | alco (slot : SlotIx)
  /-- R164. -/
  | abrt (slot : SlotIx)
  /-- R170. Power-on or the reset pin; the straps as the pins then stand (R169): POP at 64, SHID, HIF
  parallel. -/
  | coldReset (pop64 : Bool) (shid : BitVec 6) (parallel : Bool)
  /-- R171. A host write of 1 to CONTROL. -/
  | warmRestart
  /-- R170. The H3 enters READY. -/
  | enterReady
  /-- R102, R104. A rising edge, `gap` count-clock ticks after the edge before it. -/
  | referenceRisingEdge (ref : RefIx) (gap : Nat)
deriving DecidableEq, Repr

/-- The row of spec/opcode_table.json a command belongs to, as the table spells its mnemonic. -/
def Instr.mnemonic : Instr → String
  | .sample _ => "SAMPLE"
  | .monLost _ => "MON_LOST"
  | .trackingPoint _ => "TRACKING_POINT"
  | .cardStateAccepted _ => "CARD_STATE_ACCEPTED"
  | .portCalibrated _ => "PORT_CALIBRATED"
  | .calbJobDone _ => "CALB_JOB_DONE"
  | .decoderLoss _ => "DECODER_LOSS"
  | .lcpFrame => "LCP_FRAME"
  | .tagWaitExpiry _ => "TAG_WAIT_EXPIRY"
  | .windowExpiry _ => "WINDOW_EXPIRY"
  | .verifyTimerExpiry _ => "VERIFY_TIMER_EXPIRY"
  | .holdOffExpiry _ _ => "HOLD_OFF_EXPIRY"
  | .wtrExpiry _ => "WTR_EXPIRY"
  | .bridgeConfirmationExpiry _ => "BRIDGE_CONFIRMATION_EXPIRY"
  | .activityLost _ => "ACTIVITY_LOST"
  | .activityRegained _ _ => "ACTIVITY_REGAINED"
  | .windowComplete _ _ => "WINDOW_COMPLETE"
  | .warmUpEnd => "WARM_UP_END"
  | .steeringTimerExpiry => "STEERING_TIMER_EXPIRY"
  | .holdoverAged => "HOLDOVER_AGED"
  | .raiseSoakExpiry _ => "RAISE_SOAK_EXPIRY"
  | .clearSoakExpiry _ => "CLEAR_SOAK_EXPIRY"
  | .contactPinChange _ _ => "CONTACT_PIN_CHANGE"
  | .debounceExpiry _ => "DEBOUNCE_EXPIRY"
  | .hostByteWrite _ _ => "HOST_BYTE_WRITE"
  | .hostByteRead _ => "HOST_BYTE_READ"
  | .attnClr _ => "ATTN_CLR"
  | .attnMask _ => "ATTN_MASK"
  | .registerWriteOther _ _ => "REGISTER_WRITE_OTHER"
  | .unknownCode _ => "UNKNOWN_CODE"
  | .ldsh _ => "LDSH"
  | .ldpf _ => "LDPF"
  | .ldpt _ => "LDPT"
  | .ldcr _ => "LDCR"
  | .ldpg _ => "LDPG"
  | .ldtr _ => "LDTR"
  | .ldap _ => "LDAP"
  | .ldci _ => "LDCI"
  | .rdtb _ => "RDTB"
  | .adpt _ => "ADPT"
  | .calb _ => "CALB"
  | .wkop _ => "WKOP"
  | .wken _ => "WKEN"
  | .wkcn _ => "WKCN"
  | .wkdr _ => "WKDR"
  | .pslo _ => "PSLO"
  | .psfs _ => "PSFS"
  | .psms _ => "PSMS"
  | .pscl _ => "PSCL"
  | .tmlk _ => "TMLK"
  | .tmfs _ => "TMFS"
  | .tmcl _ => "TMCL"
  | .alak _ => "ALAK"
  | .alco _ => "ALCO"
  | .abrt _ => "ABRT"
  | .coldReset _ _ _ => "COLD_RESET"
  | .warmRestart => "WARM_RESTART"
  | .enterReady => "ENTER_READY"
  | .referenceRisingEdge _ _ => "REFERENCE_RISING_EDGE"

end Sys2Proof
end

