-- ==== Sys2Proof/Config.lean ====
section
/-! DEFINITION. What the spec leaves to each implementation, and the free values: constants without a
body, so that no proof can see what they are. -/

namespace Sys2Proof.Config

/-- R158 (IDENT), R154 (header): the revision in the low byte. The manual gives no number. -/
opaque revision : Byte

/-- The order in which the readers of one hand-on take it, and in which timers that run out together
are taken ("The readers take the change independently of each other", R46): the permutation used at the
`k`-th free choice, as a number (see `Machine.permute`). -/
opaque freeOrder : Nat → Nat

/-- R170, R171: how many 250 µs periods INIT lasts; the manual gives upper bounds only (5 ms, 2 ms). -/
opaque initPeriods : Nat → Nat

/-- R48: what a WKOP's override byte other than 0 or 1 means; the manual names only 0 and 1. -/
opaque oddOverride : Byte → Bool

/-- R155: whether reading again the byte that took the current snapshot takes a new snapshot; the manual
speaks of the other byte only. -/
opaque rereadTakesNew : Bool

end Sys2Proof.Config
end

