-- ==== Sys2Proof/Machine/State.lean ====
section
/-! DEFINITION. The state of the H3, block by block (00_scope, Block overview), as plain data, and the state
right after a cold reset. A running timer is `some r`, `r` being the number of 250 µs periods left; a timer
that is not running is `none`. -/

namespace Sys2Proof.Machine

/-! ### PMON (chapter 1) -/

/-- R10: the role the port table gives a port. -/
inductive Role | spare | line | trib
deriving DecidableEq, Repr

/-- R20: the port state. -/
inductive PortState | clear | degrade | fail | dark | monLost | equipOut
deriving DecidableEq, Repr

/-- R7: the spike memory. -/
inductive Spike | clear | rising | falling
deriving DecidableEq, Repr

/-- R19: a card's accepted state. -/
inductive CardState | unknown | inService | out | faulty
deriving DecidableEq, Repr

/-- R14, R15: how a port's calibration ended. -/
inductive CalOutcome | calibrated | failedLos | failedMonlost | failedEquip | held | overridden | aborted
deriving DecidableEq, Repr

/-- R18: a port profile's ten tuning fields. -/
structure Profile where
  alpha   : Int
  beta    : Int
  k       : Nat
  limit   : Int
  losThr  : Int
  losN    : Nat
  degThr  : Int
  failThr : Int
  hyst    : Int
  defN    : Nat
deriving DecidableEq, Repr

/-- R13: the calibration record of a collecting port: the job's slot, the count and the running sum. -/
structure CalRec where
  slot  : SlotIx
  count : Nat
  sum   : Int
deriving DecidableEq, Repr

/-- PMON's record of one port (chapter 1, opening list). `smoothed = none` is the empty filter (R8). -/
structure PortRec where
  role      : Role
  profile   : Fin 8
  power     : Int
  overRange : Bool
  smoothed  : Option Int
  baseline  : Option Int
  spike     : Spike
  los       : Bool
  losCnt    : Nat
  overload  : Bool
  ovlCnt    : Nat
  fail      : Bool
  failCnt   : Nat
  degrade   : Bool
  degCnt    : Nat
  run       : Nat
  monLost   : Bool
  track     : Nat
  spikes    : Nat
  missed    : Nat
  cal       : Option CalRec
  /-- R20: the port state last handed on. -/
  handed    : PortState
deriving DecidableEq, Repr

/-- R19: a card's equipment record; `scan` is the scan of the card's last reading. -/
structure CardRec where
  accepted : CardState
  cand     : Bool × Bool
  count    : Nat
  scan     : Option Nat
deriving DecidableEq, Repr

/-- PMON: profiles, port and card records, and the outcomes of the calibrations that have ended in jobs
still running (R14, R15). -/
structure Pmon where
  profiles : Vector Profile 8
  ports    : Vector PortRec 64
  cards    : Vector CardRec 16
  outcomes : Vector (Option CalOutcome) 64
deriving DecidableEq, Repr

/-- MBP: the last sample received for each port, the port of the last entry and the number of the scan in
progress (section 1.1, R19). -/
structure Mbp where
  last     : Vector Sample 64
  scanPort : Option Port
  scan     : Nat
deriving DecidableEq, Repr

/-! ### TCD (chapter 2) -/

/-- R24: the fields of a tag frame between sync and check. -/
structure TagFrame where
  shelf   : BitVec 16
  port    : BitVec 6
  cls     : BitVec 4
  feLos   : Bool
  test    : Bool
  kind    : BitVec 2
  request : BitVec 4
  member  : BitVec 3
  bridged : BitVec 3
deriving DecidableEq, Repr

/-- R33: the fields of the received tag record that are present while LOCKED; `signalling` is kind 1. -/
structure Tag where
  shelf      : BitVec 16
  port       : BitVec 6
  cls        : BitVec 4
  feLos      : Bool
  test       : Bool
  signalling : Bool
  request    : BitVec 4
  member     : BitVec 3
  bridged    : BitVec 3
deriving DecidableEq, Repr

/-- Section 2.3: the decoder states, with the candidate frame in CANDIDATE, and the locked tag and the
pending frame in LOCKED. -/
inductive DecState
  | hunt
  | candidate (f : TagFrame)
  | locked (tag : Tag) (pending : Option TagFrame)
deriving DecidableEq, Repr

/-- A port's decoder. `bits` holds the last `count` collected bits, newest least significant; `nextEnd` is
absent while unaligned, else the number of bits to the next expected frame end (R27); `los` is PMON's LOS
as last handed to TCD (R26). -/
structure Decoder where
  st      : DecState
  bits    : BitVec 56
  count   : Nat
  nextEnd : Option Nat
  loss    : Nat
  los     : Bool
  glitch  : Nat
  change  : Nat
  badSig  : Nat
deriving DecidableEq, Repr

/-- TCD: the decoders, the common frame position and the latched transmit frames (R36). -/
structure Tcd where
  decs    : Vector Decoder 64
  pos     : Nat
  latched : Vector (BitVec 56) 64
deriving DecidableEq, Repr

/-! ### CBC (chapter 3) -/

/-- R40: the kinds of expectation. -/
inductive ExpKind | any | tag | dark
deriving DecidableEq, Repr

/-- R40: an expectation as written; shelf and port have a meaning with TAG only. -/
structure Expectation where
  kind  : ExpKind
  port  : Byte
  shelf : Word
deriving DecidableEq, Repr

/-- R43: the cabling states. -/
inductive CabState | unchecked | noLight | awaiting | matched | mismatch | untagged | litUnexpected | held
deriving DecidableEq, Repr

/-- CBC's record of one port. `tagWait = none` is elapsed (R42). -/
structure CabRec where
  expect  : Expectation
  state   : CabState
  tagWait : Option Nat
  hold    : Option OrderIx
deriving DecidableEq, Repr

/-- R47: a work order's state. -/
inductive OrderState | opened | verifying | closedGood | closedFault | cancelled
deriving DecidableEq, Repr

/-- R47: what ended OPEN. -/
inductive Reason | host | frame | expired
deriving DecidableEq, Repr

/-- R47: an item's verification outcome. -/
inductive ItemOutcome | pending | ok | failed
deriving DecidableEq, Repr

/-- R47: one item of a port list. -/
structure Item where
  port    : Port
  expect  : Expectation
  prev    : Option Expectation
  outcome : ItemOutcome
deriving DecidableEq, Repr

/-- R47: a work order; `timer` is the window timer in OPEN and the verify timer in VERIFYING. -/
structure Order where
  number       : Nat
  state        : OrderState
  window       : Nat
  frameSection : Option (Fin 8)
  items        : List Item
  reason       : Option Reason
  openedAt     : Nat
  overrun      : Bool
  fault        : Bool
  timer        : Option Nat
deriving DecidableEq, Repr

/-- CBC: the port records and the work order table (a FREE entry is `none`). -/
structure Cbc where
  ports  : Vector CabRec 64
  orders : Vector (Option Order) 16
deriving DecidableEq, Repr

/-! ### PRC (chapters 4 and 5) -/

/-- R61: the kinds of a defined group. -/
inductive GroupKind | uni | bi | oneToN
deriving DecidableEq, Repr

/-- R67, R68: a raised request: FAIL (FAIL-P at member 0) or DEGRADE. -/
inductive Raised | fail | degrade
deriving DecidableEq, Repr

/-- A member's monitor record, with PRC's view of the work hold (R69). -/
structure Mon where
  timer  : Option Nat
  raised : Option Raised
  held   : Bool
deriving DecidableEq, Repr

/-- R75: the wait of a group; a RESTORE-WAIT's timer is absent while suspended (R76). -/
inductive Wait
  | restore (m : Nat) (timer : Option Nat)
  | stay (m : Nat)
deriving DecidableEq, Repr

/-- A switch request: its ordinal 0 to 11 and its member (section 4.2). -/
structure Req where
  ord : Nat
  mem : Nat
deriving DecidableEq, Repr

/-- R83: the side a winning request came from. -/
inductive Side | localEnd | farEnd | both
deriving DecidableEq, Repr

/-- R88: the bridge confirmation timer. -/
inductive Confirm
  | idle
  | running (left : Nat)
  | expired
deriving DecidableEq, Repr

/-- R84: the transmitted switch fields. -/
structure SwitchFields where
  request : Nat
  member  : Nat
  bridged : Nat
deriving DecidableEq, Repr

/-- A defined protection group. Members are numbers, 0 the protection port; a bridged or selected member
of 0 is none. `farReq` and `farBridged` are the record's fields as received while the signalling is trusted
(R81, R95), and 0 in a 1P1-UNI group, which has none (DESIGN CHOICE, log 65). -/
structure Group where
  kind       : GroupKind
  prot       : Port
  work       : List Port
  revertive  : Bool
  degSwitch  : Bool
  holdOff    : Nat
  wtr        : Nat
  lockout    : Bool
  force      : Option Nat
  manual     : Option Nat
  mons       : Vector Mon 7
  wait       : Option Wait
  order      : List Nat
  top        : Req
  farReq     : Req
  farBridged : Nat
  sigLost    : Bool
  win        : Req
  side       : Side
  bridged    : Nat
  selected   : Nat
  confirm    : Confirm
  sent       : SwitchFields
  switches   : Nat
  svcLoss    : Bool
  protUnavail : Bool
  sigFail    : Bool
  bridgeMis  : Bool
deriving DecidableEq, Repr

/-- R92: a port's three protection outputs. -/
structure ProtOut where
  partner : Option Port
  bridge  : Bool
  select  : Bool
deriving DecidableEq, Repr

/-- PRC: the groups (`none` is undefined) and the frozen outputs (R96; `none` is not frozen). -/
structure Prc where
  groups : Vector (Option Group) 16
  frozen : Vector (Option ProtOut) 64
deriving DecidableEq, Repr

/-! ### TSEL and TSP (chapters 6 and 7) -/

/-- R98: the kinds of a binding. -/
inductive BindKind | none | port | group
deriving DecidableEq, Repr

/-- R98: a reference table entry; the binding number has a meaning with a port or group binding. -/
structure RefEntry where
  enable   : Bool
  priority : Nat
  fromTag  : Bool
  fixedCls : Nat
  accept   : Nat
  hyst     : Nat
  stab     : Nat
  bindKind : BindKind
  bindNum  : Nat
deriving DecidableEq, Repr

/-- R103: the reference states. -/
inductive RefState | disabled | unavailable | measuring | qualified | offsetOut
deriving DecidableEq, Repr

/-- R102: the unavailable causes. -/
inductive Cause | noActivity | noTap | portFail | held | noClass
deriving DecidableEq, Repr

/-- R104: a window in progress: reference edges and count-clock ticks since its start. -/
structure Window where
  edges : Nat
  ticks : Nat
deriving DecidableEq, Repr

/-- A timing reference. `silence` is the time left of the 0.5 ms since the last edge (R102). -/
structure RefRec where
  entry     : RefEntry
  state     : RefState
  cause     : Option Cause
  active    : Bool
  silence   : Option Nat
  edges     : Nat
  tap       : Option Port
  cls       : Option Nat
  window    : Option Window
  run       : Nat
  last      : Option Int
  refLos    : Bool
  refOffset : Bool
deriving DecidableEq, Repr

/-- R115: the timing states. -/
inductive TimingState | freeRun | acquiring | locked | holdover
deriving DecidableEq, Repr

/-- TSEL. `age` is the holdover age in 250 µs periods. -/
structure Tsel where
  refs      : Vector RefRec 6
  warmUp    : Option Nat
  force     : Option RefIx
  lockout   : Vector Bool 6
  selected  : Option RefIx
  state     : TimingState
  steering  : Int
  target    : Option Int
  limited   : Bool
  unlimited : Nat
  history   : List Int
  holdValue : Option Int
  age       : Nat
  aged      : Bool
  steer     : Option Nat
  outClass  : Nat
  doNotUse  : List Port
  holdover  : Bool
  freeRun   : Bool
deriving DecidableEq, Repr

/-! ### ALM and JRN (chapters 8 and 9) -/

/-- R125: the condition types, in the order of the table. -/
inductive CondType
  | los | fail | degrade | overload | monLost | misconn | untagged | unexpLight | feLos
  | cardOut | cardFault | svcLoss | protUnavail | sigFail | bridgeMismatch | switch
  | refLos | refOffset | holdover | freeRun | refSwitch | workOverrun | workFault | contact
deriving DecidableEq, Repr

/-- R127: severities. -/
inductive Severity | crit | maj | min | event | off
deriving DecidableEq, Repr

/-- R127: an alarm profile entry, soaks in ms. -/
structure AlarmProfile where
  severity : Severity
  raise    : Nat
  clear    : Nat
deriving DecidableEq, Repr

/-- R131: the state of a non-FREE entry, with its one soak timer. -/
inductive AlarmState
  | pending (left : Nat)
  | active
  | clearing (left : Nat)
deriving DecidableEq, Repr

/-- R131: an alarm. -/
structure Alarm where
  type       : CondType
  obj        : Nat
  state      : AlarmState
  severity   : Severity
  ack        : Bool
  nsa        : Bool
  audible    : Bool
  raiseTime  : Nat
  activeTime : Option Nat
deriving DecidableEq, Repr

/-- R131: an alarm table entry: its generation word and its alarm (`none` is FREE). -/
structure Entry where
  gen   : Word
  alarm : Option Alarm
deriving DecidableEq, Repr

/-- ALM's copy of a group's definition and selected member (chapter 8, opening list). -/
structure GroupCopy where
  prot     : Port
  work     : List Port
  selected : Nat
deriving DecidableEq, Repr

/-- R142: the four bay outputs. -/
structure BayOutputs where
  crit    : Bool
  maj     : Bool
  min     : Bool
  audible : Bool
deriving DecidableEq, Repr

/-- ALM. The present set is kept in the order of the types, then of the objects. -/
structure Alm where
  present   : List (CondType × Nat)
  portState : Vector PortState 64
  held      : Vector Bool 64
  taps      : Vector (Option Port) 6
  groups    : Vector (Option GroupCopy) 16
  profile   : Vector AlarmProfile 24
  entries   : Vector Entry 128
  overflows : Nat
  overflow  : Bool
  outputs   : BayOutputs
deriving DecidableEq, Repr

/-- R134: the reasons of an ALARM-OFF record. -/
inductive OffReason | cleared | suppressed | profile | dropped
deriving DecidableEq, Repr

/-- R153: the codes of a RESTART record. -/
inductive RestartCode | cold | warm | mode
deriving DecidableEq, Repr

/-- R145: the roles of a contact input. -/
inductive ContactRole | none | aco | frame | generic
deriving DecidableEq, Repr

/-- R149: what a journal record says. -/
inductive JBody
  | alarmOn (entry : Nat) (type : CondType) (obj : Nat) (severity : Severity) (nsa : Bool)
  | alarmOff (entry : Nat) (type : CondType) (obj : Nat) (severity : Severity) (reason : OffReason)
  | severity (entry : Nat) (type : CondType) (obj : Nat) (old new : Severity) (nsa : Bool)
  | event (type : CondType) (obj : Nat) (data : Option (Option Nat × Option Nat))
  | switch (group : GroupIx) (oldSel newSel oldBr newBr : Nat) (win : Req) (side : Side)
  | timing (state : TimingState) (old new : Option RefIx) (steering : Int) (hold : Option Int) (aged : Bool)
  | work (entry : OrderIx) (number : Nat) (state : Option OrderState) (reason : Option Reason) (failed : Nat)
  | contact (input : InputIx) (active : Bool) (role : ContactRole) (frameSection : Nat)
  | restart (code : RestartCode)
  | lost (count : Nat)
  | manualDropped (group : GroupIx) (member : Nat) (by_ : Req)
deriving DecidableEq, Repr

/-- R148: a journal record; sequence number 0 marks a position never written. -/
structure JRecord where
  seq  : Nat
  body : Option JBody
  time : Nat
deriving DecidableEq, Repr

/-- JRN (section 9.3, opening list), the ring, and the newest position and sequence number of the shelf
header. `stop` is the mode STOP. -/
structure Jrn where
  ring      : Vector JRecord 256
  pos       : Nat
  seq       : Nat
  stop      : Bool
  unrel     : Nat
  full      : Bool
  lost      : Nat
  badRel    : Nat
  newestPos : Nat
  newestSeq : Nat
  gen       : Word
deriving DecidableEq, Repr

/-! ### CIU (section 9.2) -/

/-- A contact input: its table entry (R145), the level at the pin (`true` is high), the stable level
(`none` is undetermined) and the debounce timer. -/
structure ContactIn where
  role         : ContactRole
  frameSection : Nat
  activeHigh   : Bool
  debounce     : Nat
  pin          : Bool
  stable       : Option Bool
  timer        : Option Nat
deriving DecidableEq, Repr

/-! ### LCP (R92, R101), RQU and HPI (chapter 10), start-up (chapter 11) -/

/-- One port's part of a line control frame. -/
structure LcpPort where
  tagBit  : Bool
  partner : Option Port
  bridge  : Bool
  select  : Bool
  taps    : BitVec 4
deriving DecidableEq, Repr

/-- R160: a request slot's state. -/
inductive SlotState | free | queued | busy | done | refused
deriving DecidableEq, Repr

/-- R163: a running calibration job. -/
structure Job where
  slot   : SlotIx
  ports  : List Port
  offset : Nat
deriving DecidableEq, Repr

/-- R166: the shelf record in use. -/
structure ShelfRec where
  identity  : Word
  stop      : Bool
  quality   : Bool
  tagWait   : Nat
  verify    : Nat
  warmUp    : Nat
  slew      : Nat
  trim      : Int
  holdLimit : Nat
  holdClass : Nat
  freeClass : Nat
deriving DecidableEq, Repr

/-- R160: the result code and the detail RQU last gave a slot. -/
structure SlotResult where
  result : Byte
  detail : Word
deriving DecidableEq, Repr

/-- RQU: the slots' states, the results RQU last gave them (R160), the request being executed, the calibration jobs, the
shelf record in use and whether one has been loaded since the last reset. -/
structure Rqu where
  slots  : Vector SlotState 8
  last   : Vector SlotResult 8
  exec   : Option SlotIx
  jobs   : List Job
  shelf  : ShelfRec
  loaded : Bool
deriving DecidableEq, Repr

/-- R155: the run of bytes in progress at the serial host port: whether its command is a write, and the address of its
next byte. -/
structure SerialRun where
  write : Bool
  next  : Addr
deriving DecidableEq, Repr

/-- HPI: the run of the serial port, the held byte, the read snapshot (its word's address, its value and the byte that took
it), the byte last returned to the host, the attention register and mask and the foreign-write count. -/
structure Hpi where
  run     : Option SerialRun
  held    : Option (Addr × Byte)
  snap    : Option (Addr × Word)
  dataOut : Byte
  attn    : BitVec 6
  mask    : BitVec 6
  foreign : Nat
deriving DecidableEq, Repr

/-- R169: the straps as sampled at the last cold reset. -/
structure Straps where
  pop64    : Bool
  shid     : BitVec 6
  parallel : Bool
deriving DecidableEq, Repr

/-- R170, R171: STATE, whether the reset in progress (or the last one) was cold, the periods INIT has
lasted, and the 250 µs periods since READY. `frameDue` says that the line control frame of the period in
progress is still to be sent (the model's own field, log 1). -/
structure Start where
  ready       : Bool
  cold        : Bool
  initPeriods : Nat
  periods     : Nat
  frameDue    : Bool
deriving DecidableEq, Repr

/-- R157: the generation words that stand outside the alarm table and the journal. -/
structure Gens where
  ports  : Vector Word 64
  groups : Vector Word 16
  orders : Vector Word 16
  timing : Word
  refs   : Vector Word 6
deriving DecidableEq, Repr

/-- The H3. `mem` holds the shared page memory's slots, staging area and release word (the other regions
are views of the blocks, see Machine/Mirror.lean) as address and byte pairs in strictly rising order, no
byte zero. `tsp` is TSP's steering word. `choices` counts the free choices taken (the model's own field).
`pending` holds the commands that wait, oldest first. -/
structure State where
  start   : Start
  straps  : Straps
  mbp     : Mbp
  pmon    : Pmon
  tcd     : Tcd
  cbc     : Cbc
  prc     : Prc
  tsel    : Tsel
  tsp     : Int
  alm     : Alm
  jrn     : Jrn
  ciu     : Vector ContactIn 8
  lcp     : Vector LcpPort 64
  rqu     : Rqu
  hpi     : Hpi
  gens    : Gens
  mem     : List Host.Cell
  choices : Nat
  pending : List Instr
deriving DecidableEq, Repr

/-- No command raises a fault: the spec gives every command its effect and no behaviour that stops the
part. The type has this one constructor only so that it is a closed inductive with a name; nothing
answers with it (safe). -/
inductive Fault
  /-- Raised by no command. Safe. -/
  | halted
deriving DecidableEq, Repr

/-- Refusals. -/
inductive Refusal
  /-- Raised by an arm of `exec` whose command has no meaning yet; no arm is left so. Safe. -/
  | notModelled (mnemonic : String)
deriving DecidableEq, Repr

/-! ### Reset values -/

/-- R18: the default profile. -/
def Profile.default : Profile :=
  { alpha := 4, beta := 2, k := 12, limit := 400, losThr := -3500, losN := 3, degThr := 300,
    failThr := 600, hyst := 50, defN := 8 }

/-- R23. -/
def PortRec.reset : PortRec :=
  { role := .spare, profile := 0, power := -5000, overRange := false, smoothed := none, baseline := none,
    spike := .clear, los := false, losCnt := 0, overload := false, ovlCnt := 0, fail := false, failCnt := 0,
    degrade := false, degCnt := 0, run := 0, monLost := false, track := 0, spikes := 0, missed := 0,
    cal := none, handed := .clear }

/-- R23; the candidate pair has no stated value (DESIGN CHOICE, log 25). -/
def CardRec.reset : CardRec := { accepted := .unknown, cand := (false, false), count := 0, scan := none }

/-- R23. -/
def Pmon.reset : Pmon :=
  { profiles := Vector.replicate 8 Profile.default
    ports := Vector.replicate 64 PortRec.reset
    cards := Vector.replicate 16 CardRec.reset
    outcomes := Vector.replicate 64 none }

/-- MBP's last samples have no stated reset value (DESIGN CHOICE, log 25). -/
def Mbp.reset : Mbp :=
  { last := Vector.ofFn fun p =>
      { port := p, code := 0, tagBit := false, present := false, fault := false, valid := false }
    scanPort := none
    scan := 0 }

/-- R39. -/
def Decoder.reset : Decoder :=
  { st := .hunt, bits := 0, count := 0, nextEnd := none, loss := 0, los := false, glitch := 0, change := 0,
    badSig := 0 }

/-- R39; the latched frames have no stated value before the first latch, and no frame of READY sends them (DESIGN CHOICE,
log 25). -/
def Tcd.reset : Tcd :=
  { decs := Vector.replicate 64 Decoder.reset, pos := 0, latched := Vector.replicate 64 0 }

/-- R40, R60. -/
def Expectation.any : Expectation := { kind := .any, port := 0, shelf := 0 }

/-- R60: a port's record; the tag wait timer starts at READY only. -/
def CabRec.reset : CabRec := { expect := .any, state := .unchecked, tagWait := none, hold := none }

/-- R60. -/
def Cbc.reset : Cbc := { ports := Vector.replicate 64 CabRec.reset, orders := Vector.replicate 16 none }

/-- R80, R96: no group; outputs frozen as given (none after a cold reset). -/
def Prc.reset (frozen : Vector (Option ProtOut) 64) : Prc :=
  { groups := Vector.replicate 16 none, frozen := frozen }

/-- R98: the default reference table entry. -/
def RefEntry.default : RefEntry :=
  { enable := false, priority := 0, fromTag := false, fixedCls := 3, accept := 15000, hyst := 2000, stab := 4,
    bindKind := .none, bindNum := 0 }

/-- R110. -/
def RefRec.reset : RefRec :=
  { entry := .default, state := .disabled, cause := none, active := false, silence := none, edges := 0,
    tap := none, cls := none, window := none, run := 0, last := none, refLos := false, refOffset := false }

/-- R124: after a cold reset. -/
def Tsel.reset : Tsel :=
  { refs := Vector.replicate 6 RefRec.reset, warmUp := none, force := none, lockout := Vector.replicate 6 false,
    selected := none, state := .freeRun, steering := 0, target := none, limited := false, unlimited := 0,
    history := [], holdValue := none, age := 0, aged := false, steer := none, outClass := 6, doNotUse := [],
    holdover := false, freeRun := false }

/-- R125: the defaults of the alarm profile, in the order of the types. -/
def AlarmProfile.defaults : Vector AlarmProfile 24 :=
  #v[⟨.maj, 1000, 2000⟩, ⟨.maj, 1000, 2000⟩, ⟨.min, 1000, 2000⟩, ⟨.min, 1000, 2000⟩, ⟨.maj, 1000, 2000⟩,
     ⟨.maj, 1000, 2000⟩, ⟨.min, 1000, 2000⟩, ⟨.min, 1000, 2000⟩, ⟨.min, 1000, 2000⟩,
     ⟨.maj, 0, 0⟩, ⟨.maj, 0, 0⟩, ⟨.crit, 0, 0⟩, ⟨.min, 0, 0⟩, ⟨.min, 0, 0⟩, ⟨.maj, 0, 0⟩, ⟨.event, 0, 0⟩,
     ⟨.min, 0, 0⟩, ⟨.min, 0, 0⟩, ⟨.maj, 0, 0⟩, ⟨.maj, 0, 0⟩, ⟨.event, 0, 0⟩, ⟨.min, 0, 0⟩, ⟨.maj, 0, 0⟩,
     ⟨.maj, 0, 0⟩]

/-- R141, R142. -/
def Alm.reset : Alm :=
  { present := [], portState := Vector.replicate 64 .clear, held := Vector.replicate 64 false,
    taps := Vector.replicate 6 none, groups := Vector.replicate 16 none, profile := AlarmProfile.defaults,
    entries := Vector.replicate 128 { gen := 0, alarm := none }, overflows := 0, overflow := false,
    outputs := { crit := false, maj := false, min := false, audible := false } }

/-- R153: a position that holds no record. -/
def JRecord.empty : JRecord := { seq := 0, body := none, time := 0 }

/-- R153. -/
def Jrn.reset : Jrn :=
  { ring := Vector.replicate 256 JRecord.empty, pos := 0, seq := 1, stop := false, unrel := 0, full := false,
    lost := 0, badRel := 0, newestPos := 0, newestSeq := 0, gen := 0 }

/-- R145, R147: an input whose pin stands at `pin`. R145 gives the default role NONE no frame section: 0 here (DESIGN
CHOICE, log 25). -/
def ContactIn.reset (pin : Bool) : ContactIn :=
  { role := .none, frameSection := 0, activeHigh := false, debounce := 20, pin := pin, stable := none,
    timer := none }

/-- R170: what LCP sends for a port with no outputs. -/
def LcpPort.off : LcpPort := { tagBit := false, partner := none, bridge := false, select := false, taps := 0 }

/-- R42, R50, R106, R111, R153, R168: the shelf record's defaults in use, with the SHID strap as
identity. -/
def ShelfRec.default (shid : BitVec 6) : ShelfRec :=
  { identity := shid.setWidth 16, stop := false, quality := true, tagWait := 500, verify := 5, warmUp := 8,
    slew := 1000, trim := 0, holdLimit := 24, holdClass := 4, freeClass := 6 }

/-- R160. -/
def Rqu.reset (shid : BitVec 6) : Rqu :=
  { slots := Vector.replicate 8 .free, last := Vector.replicate 8 { result := 0, detail := 0 }, exec := none, jobs := [], shelf := .default shid, loaded := false }

/-- R155, R156, R158: ATTN 0, ATTN-MASK RST alone; the byte on the host port has no stated value
(DESIGN CHOICE, log 25), and no run is in progress at the serial port (DESIGN CHOICE, log 57). -/
def Hpi.reset : Hpi :=
  { run := none, held := none, snap := none, dataOut := 0, attn := 0, mask := 0x20, foreign := 0 }

/-- R157. -/
def Gens.reset : Gens :=
  { ports := Vector.replicate 64 0, groups := Vector.replicate 16 0, orders := Vector.replicate 16 0, timing := 0,
    refs := Vector.replicate 6 0 }

/-- R170: the state a cold reset leaves, with the straps as sampled, the contact pins as they stand, the
free choices taken so far and the commands that wait. -/
def State.cold (straps : Straps) (pins : Vector Bool 8) (choices : Nat) (pending : List Instr) : State :=
  { start := { ready := false, cold := true, initPeriods := 0, periods := 0, frameDue := false }
    straps := straps
    mbp := .reset
    pmon := .reset
    tcd := .reset
    cbc := .reset
    prc := .reset (Vector.replicate 64 none)
    tsel := .reset
    tsp := 0
    alm := .reset
    jrn := .reset
    ciu := Vector.ofFn fun i => .reset pins[i]
    lcp := Vector.replicate 64 .off
    rqu := .reset straps.shid
    hpi := .reset
    gens := .reset
    mem := []
    choices := choices
    pending := pending }

/-- The machine right after a cold reset, still in INIT (R170). The pins' levels, straps and contact
inputs, are the shelf's: here POP at 64, SHID 0, the parallel port, every contact pin low (DESIGN CHOICE,
log 5); COLD_RESET and CONTACT_PIN_CHANGE bring every other case. -/
def State.reset : State :=
  State.cold { pop64 := true, shid := 0, parallel := true } (Vector.replicate 8 false) 0 []

end Sys2Proof.Machine
end

