-- ==== Sys2Proof/Machine/Ops.lean ====
section
/-! DEFINITION. The named operations every block uses: the shared page memory's host-written bytes, the
two roundings, counts, timers, the clock and the free order of hand-ons. -/

namespace Sys2Proof.Machine

/-! ### Shared page memory: the cells that are kept as memory

An unlisted address reads 0: a cold reset zeroes the whole of SPM (R154, R170). -/

/-- The byte at an address. -/
def memRead : List Host.Cell → Nat → Byte
  | [], _ => 0
  | (b, v) :: m, a => if a = b then v else memRead m a

/-- Put a byte at an address, keeping the addresses rising and listing no zero. -/
def memWrite : List Host.Cell → Nat → Byte → List Host.Cell
  | [], a, v => if v = 0 then [] else [(a, v)]
  | (b, w) :: m, a, v =>
    if a < b then (if v = 0 then (b, w) :: m else (a, v) :: (b, w) :: m)
    else if a = b then (if v = 0 then m else (a, v) :: m)
    else (b, w) :: memWrite m a v

/-- The canonical form: addresses strictly rising, no zero listed. -/
def memWf : List Host.Cell → Bool
  | [] => true
  | [(_, v)] => v != 0
  | (a, v) :: (b, w) :: m => v != 0 && decide (a < b) && memWf ((b, w) :: m)

/-- Put bytes at successive addresses. -/
def memWriteAll (m : List Host.Cell) (a : Nat) : List Byte → List Host.Cell
  | [] => m
  | v :: vs => memWriteAll (memWrite m a v) (a + 1) vs

/-- The bytes at `n` successive addresses. -/
def memBytes (m : List Host.Cell) (a : Nat) : Nat → List Byte
  | 0 => []
  | n + 1 => memRead m a :: memBytes m (a + 1) n

/-- R154: the byte at the even address is the high byte of its word. -/
def wordOf (hi lo : Byte) : Word := hi ++ lo

/-- The high byte of a word. -/
def hiByte (w : Word) : Byte := w.extractLsb' 8 8

/-- The low byte of a word. -/
def loByte (w : Word) : Byte := w.extractLsb' 0 8

/-- The word at an even address. -/
def memWord (m : List Host.Cell) (a : Nat) : Word := wordOf (memRead m a) (memRead m (a + 1))

/-- Put a word at an even address. -/
def memPutWord (m : List Host.Cell) (a : Nat) (w : Word) : List Host.Cell :=
  memWrite (memWrite m a (hiByte w)) (a + 1) (loByte w)

/-! ### Bytes of numbers (R154: high byte first, a 32-bit value high word first) -/

/-- A byte from a number. -/
def byte8 (n : Nat) : Byte := BitVec.ofNat 8 n

/-- Two bytes, high byte first. -/
def bytes16 (n : Nat) : List Byte := [byte8 (n / 256), byte8 n]

/-- Four bytes, high word first. -/
def bytes32 (n : Nat) : List Byte := bytes16 (n / 65536) ++ bytes16 n

/-- A signed value in two's complement, as a number below `2 ^ bits`. -/
def twos (bits : Nat) (x : Int) : Nat := (x % (2 ^ bits : Nat)).toNat

/-- The number two bytes spell. -/
def nat16 (hi lo : Byte) : Nat := hi.toNat * 256 + lo.toNat

/-- The signed number two bytes spell in two's complement. -/
def int16 (hi lo : Byte) : Int := (wordOf hi lo).toInt

/-- The number a list of bits spells, least significant first. -/
def bitsNat : List Bool → Nat
  | [] => 0
  | b :: bs => b.toNat + 2 * bitsNat bs

/-! ### Roundings (00_scope, Rounding) -/

/-- Truncated toward zero, at least one: the exact quotient truncated toward zero; when that is zero and the
dividend is not, +1 or −1 with the dividend's sign. -/
def truncAtLeastOne (a b : Int) : Int :=
  if a.tdiv b = 0 then a.sign else a.tdiv b

/-- Nearest, halves away from zero, for a positive divisor. -/
def roundNearest (a : Int) (b : Nat) : Int :=
  a.sign * ((2 * a.natAbs + b) / (2 * b) : Nat)

/-- The nearer bound for a value outside a range. -/
def clampInt (lo hi x : Int) : Int := if x < lo then lo else if hi < x then hi else x

/-- The nearer bound for a value outside a range. -/
def clampNat (lo hi x : Nat) : Nat := if x < lo then lo else if hi < x then hi else x

/-- A 16-bit count that stops at 65535. -/
def count16 (n : Nat) : Nat := if n < 65535 then n + 1 else 65535

/-! ### Time -/

/-- The 250 µs periods of a millisecond. -/
def perMs : Nat := 4

/-- The 250 µs periods of a second. -/
def perSecond : Nat := 4000

/-- The periods of 1.024 s, the steering timer's length and the warm-up's unit (R106, R118). -/
def per1024 : Nat := 4096

/-- Seconds, rounded up, of a number of periods (R59, R95). -/
def secondsUp (n : Nat) : Nat := (n + (perSecond - 1)) / perSecond

/-- R148: the time since reset in ms, in 32 bits. -/
def State.now (s : State) : Nat := s.start.periods / perMs % 2 ^ 32

/-! ### The free order of hand-ons -/

/-- The permutation of a list that a number names: every permutation is named by some number. -/
def permute {α : Type} : Nat → List α → List α
  | _, [] => []
  | _, [x] => [x]
  | c, x :: y :: xs => (permute (c / (xs.length + 2)) (y :: xs)).insertIdx (c % (xs.length + 2)) x

/-- Take the next free order (Config.freeOrder): the list in that order, and the state with the choice
counted. A list of one or none leaves no choice. -/
def freely {α : Type} (l : List α) (s : State) : List α × State :=
  match l with
  | [] => ([], s)
  | [x] => ([x], s)
  | l => (permute (Config.freeOrder s.choices) l, { s with choices := s.choices + 1 })

/-! ### Population (R1) -/

/-- R1: whether a port is populated under the POP strap. -/
def State.populated (s : State) (p : Port) : Bool := s.straps.pop64 || decide (p.val < 32)

/-- The card slot a port sits on (00_scope, Numbering). -/
def cardOf (p : Port) : Card := ⟨p.val / 4, by omega⟩

/-- The four ports of a card slot. -/
def portsOfCard (c : Card) : List Port :=
  [⟨4 * c.val, by omega⟩, ⟨4 * c.val + 1, by omega⟩, ⟨4 * c.val + 2, by omega⟩, ⟨4 * c.val + 3, by omega⟩]

/-- All ports, ascending. -/
def allPorts : List Port := List.finRange 64

/-- The port a number names. -/
def portOfNat (n : Nat) : Option Port := if h : n < 64 then some ⟨n, h⟩ else none

/-- The next value of a generation word after one update: odd while the words change, then even (R157). -/
def genNext (g : Word) : Word := g + 2

end Sys2Proof.Machine
end

