-- ==== Sys2Proof/Machine/Msg.lean ====
section
/-! DEFINITION. What one block hands another within a step: the hand-ons of the shared records (00_scope,
Shared records), the batches ALM takes (R126), the records JRN takes (R148) and the events of the attention
sources (R159). -/

namespace Sys2Proof.Machine

/-- R20: a port whose state changed, with the state before and after. -/
structure PortChange where
  port : Port
  old  : PortState
  new  : PortState
deriving DecidableEq, Repr

/-- R126: one change of a batch. -/
inductive AlmChange
  /-- R125: a condition offered. -/
  | offer (type : CondType) (obj : Nat)
  /-- R125: a condition withdrawn. -/
  | withdraw (type : CondType) (obj : Nat)
  /-- R57, R134: a work order condition withdrawn at the drop of its entry. -/
  | drop (type : CondType) (obj : Nat)
  /-- R125: an event with the data it carries (SWITCH, REFSWITCH). -/
  | event (type : CondType) (obj : Nat) (old new : Option Nat)
  /-- R20: a port state handed on. -/
  | portState (port : Port) (state : PortState)
  /-- R46: a work hold set or released. -/
  | hold (port : Port) (held : Bool)
  /-- R108: a line reference's tap port. -/
  | tap (ref : RefIx) (port : Option Port)
  /-- R91: a group's definition and selected member, or that it is undefined. -/
  | group (g : GroupIx) (copy : Option GroupCopy)
  /-- R167: a port's role changed. -/
  | role (port : Port)
deriving DecidableEq, Repr

/-- R159: the attention sources, in the order of the ATTN bits. -/
inductive Source | req | jrn | alm | bay | jfull | rst
deriving DecidableEq, Repr

/-- A hand-on to one block. -/
inductive Msg
  /-- MBP to PMON: the power code and valid mark of a sample (R1). -/
  | pmonPower (port : Port) (code : BitVec 12) (valid : Bool)
  /-- MBP to PMON: a valid sample's card flags (R19). -/
  | pmonCard (port : Port) (present fault : Bool)
  /-- CBC to PMON: ports that came under work hold, or left it (R46). -/
  | pmonHold (ports : List Port) (held : Bool)
  /-- MBP to TCD: the tag bit and valid mark of a sample (R26). -/
  | tcdBit (port : Port) (bit valid : Bool)
  /-- PMON to TCD: LOS declared or cleared (R26, R32). -/
  | tcdLos (port : Port) (declared : Bool)
  /-- PRC to TCD: one report of a faulty record on each port named (R82). -/
  | tcdReport (ports : List Port)
  /-- PMON to CBC: new port states (R44). -/
  | cbcPorts (changes : List PortChange)
  /-- TCD to CBC: a received tag record (R34). -/
  | cbcTag (port : Port)
  /-- The port table to CBC: a changed role, and the role before (R167). -/
  | cbcRole (port : Port) (old : Role)
  /-- CIU to CBC: an inactive edge of FRAME(f) (R53). -/
  | cbcFrame (f : Nat)
  /-- PMON to PRC: new port states (R66). -/
  | prcPorts (changes : List PortChange)
  /-- TCD to PRC: a received tag record (R81). -/
  | prcTag (port : Port)
  /-- CBC to PRC: work holds set or released (R69). -/
  | prcHold (ports : List Port) (held : Bool)
  /-- CBC to PRC: new cabling expectations (R40, R81). -/
  | prcExpect (ports : List Port)
  /-- PMON to TSEL: new port states (R102). -/
  | tselPorts (ports : List Port)
  /-- TCD to TSEL: a received tag record (R102). -/
  | tselTag (port : Port)
  /-- CBC to TSEL: work holds set or released (R102). -/
  | tselHold (ports : List Port)
  /-- PRC to TSEL: the port the selector of each group takes traffic from, none when it is not defined
  (R100). -/
  | tselGroups (taps : List (GroupIx × Option Port))
  /-- One of them (R100). -/
  | tselGroup (g : GroupIx) (tap : Option Port)
  /-- The shelf record to TSEL, with the record in use before (R111). -/
  | tselShelf (old : ShelfRec)
  /-- To ALM: one event's batch (R126). -/
  | alm (batch : List AlmChange)
  /-- CIU to ALM: the active edge of an ACO input (R144). -/
  | almCutOff
  /-- To JRN: one event's records (R148). -/
  | jrn (records : List JBody)
  /-- The shelf record to JRN: the journal mode (R153). -/
  | jrnMode (stop : Bool)
  /-- To HPI: an event of an attention source (R159). -/
  | attn (source : Source)
deriving DecidableEq, Repr

/-- A batch for ALM, if it holds anything. -/
def toAlm (batch : List AlmChange) : List Msg := if batch.isEmpty then [] else [.alm batch]

/-- Records for JRN, if there are any. -/
def toJrn (records : List JBody) : List Msg := if records.isEmpty then [] else [.jrn records]

end Sys2Proof.Machine
end

