-- ==== Sys2Proof/Machine/Flags.lean ====
section
/-! DEFINITION. The flags the rules form from other state: confirmed flags with their counters (R4, R5,
R16, R17), the port state and its classes (R20), lit ports (section 3.2), attention (R159) and how a flag
that changes becomes an offer or a withdrawal (R125). -/

namespace Sys2Proof.Machine

/-- A confirmed flag and its counter after a sample that takes part (R4, R5, R16, R17): while clear,
`raises` extends the run and its absence resets it; while declared, `clears` does; a run that reaches `n`, at or
above it, turns the flag and resets the counter. -/
def confirm (declared : Bool) (cnt n : Nat) (raises clears : Bool) : Bool × Nat :=
  if if declared then clears else raises then
    if n ≤ cnt + 1 then (!declared, 0) else (declared, cnt + 1)
  else (declared, 0)

/-- R20: the port state, by the first line of the table that applies. -/
def portStateOf (card : CardState) (r : PortRec) : PortState :=
  if card = .out ∨ card = .faulty then .equipOut
  else if r.monLost then .monLost
  else if r.los then .dark
  else if r.fail then .fail
  else if r.degrade then .degrade
  else .clear

/-- R20: signal fail. -/
def PortState.sf : PortState → Bool
  | .equipOut | .monLost | .dark | .fail => true
  | .degrade | .clear => false

/-- R20: signal degrade. -/
def PortState.sd : PortState → Bool
  | .degrade => true
  | .equipOut | .monLost | .dark | .fail | .clear => false

/-- Section 3.2: CBC calls a port lit in CLEAR, DEGRADE and FAIL. -/
def PortState.lit : PortState → Bool
  | .clear | .degrade | .fail => true
  | .dark | .equipOut | .monLost => false

/-- R125: what a flag's move from `old` to `new` hands ALM. -/
def flagChange (t : CondType) (obj : Nat) (old new : Bool) : List AlmChange :=
  match old, new with
  | false, true => [.offer t obj]
  | true, false => [.withdraw t obj]
  | _, _ => []

/-- R158: a source's bit of ATTN. -/
def Source.bit : Source → BitVec 6
  | .req => 1
  | .jrn => 2
  | .alm => 4
  | .bay => 8
  | .jfull => 16
  | .rst => 32

/-- R159: an attention event: its bit is set if the mask bit is 1, else the event is dropped. -/
def Hpi.event (h : Hpi) (src : Source) : Hpi :=
  { h with attn := h.attn ||| (src.bit &&& h.mask) }

/-- R159: the attention line is asserted while ATTN is not 0. -/
def Hpi.line (h : Hpi) : Bool := h.attn != 0

end Sys2Proof.Machine
end

