-- ==== Sys2Proof/Machine/Alm.lean ====
section
/-! DEFINITION. ALM, the alarm unit (chapter 8), with the audible set and the bay outputs (section 9.1). -/

namespace Sys2Proof.Machine

/-! ### Types (R125) -/

/-- R125: a type's place in the table, which is also its number in the formats of section 10.5. -/
def CondType.index : CondType → Fin 24
  | .los => 0 | .fail => 1 | .degrade => 2 | .overload => 3 | .monLost => 4 | .misconn => 5 | .untagged => 6
  | .unexpLight => 7 | .feLos => 8 | .cardOut => 9 | .cardFault => 10 | .svcLoss => 11 | .protUnavail => 12
  | .sigFail => 13 | .bridgeMismatch => 14 | .switch => 15 | .refLos => 16 | .refOffset => 17 | .holdover => 18
  | .freeRun => 19 | .refSwitch => 20 | .workOverrun => 21 | .workFault => 22 | .contact => 23

/-- R125: the nine port types. -/
def CondType.isPort : CondType → Bool
  | .los | .fail | .degrade | .overload | .monLost | .misconn | .untagged | .unexpLight | .feLos => true
  | .cardOut | .cardFault | .svcLoss | .protUnavail | .sigFail | .bridgeMismatch | .switch | .refLos | .refOffset
  | .holdover | .freeRun | .refSwitch | .workOverrun | .workFault | .contact => false

/-- R125: the two card types. -/
def CondType.isCard : CondType → Bool
  | .cardOut | .cardFault => true
  | .los | .fail | .degrade | .overload | .monLost | .misconn | .untagged | .unexpLight | .feLos | .svcLoss
  | .protUnavail | .sigFail | .bridgeMismatch | .switch | .refLos | .refOffset | .holdover | .freeRun | .refSwitch
  | .workOverrun | .workFault | .contact => false

/-- R136: the types graded down under protection. -/
def CondType.graded : CondType → Bool
  | .los | .fail | .degrade | .monLost | .cardOut | .cardFault => true
  | .overload | .misconn | .untagged | .unexpLight | .feLos | .svcLoss | .protUnavail | .sigFail | .bridgeMismatch
  | .switch | .refLos | .refOffset | .holdover | .freeRun | .refSwitch | .workOverrun | .workFault | .contact => false

/-- R127: the tabled severities. -/
def Severity.tabled : Severity → Bool
  | .crit | .maj | .min => true
  | .event | .off => false

/-- A severity's rank, CRIT highest. -/
def Severity.rank : Severity → Nat
  | .crit => 3
  | .maj => 2
  | .min => 1
  | .event | .off => 0

/-- R143: the severities that ring the bell. -/
def Severity.rings (s : Severity) : Bool := decide (2 ≤ s.rank)

/-- The profile entry of a type (R127). -/
def Alm.profileOf (a : Alm) (t : CondType) : AlarmProfile := a.profile[t.index]

/-! ### The present set (R125) -/

/-- A condition's place in the order of the present set: type, then object. -/
def condKey (c : CondType × Nat) : Nat := c.1.index.val * 64 + c.2

/-- R125: a condition becomes present. -/
def insertCond (c : CondType × Nat) : List (CondType × Nat) → List (CondType × Nat)
  | [] => [c]
  | d :: ds => if condKey c < condKey d then c :: d :: ds else if c = d then d :: ds else d :: insertCond c ds

/-- R125: whether a condition is present. -/
def Alm.isPresent (a : Alm) (t : CondType) (o : Nat) : Bool := decide ((t, o) ∈ a.present)

/-- R126, first step: one change brings the present set and the copies up to date. -/
def applyChange (a : Alm) : AlmChange → Alm
  | .offer t o => { a with present := insertCond (t, o) a.present }
  | .withdraw t o => { a with present := a.present.erase (t, o) }
  | .drop t o => { a with present := a.present.erase (t, o) }
  | .event _ _ _ _ => a
  | .portState p st => { a with portState := a.portState.set p st }
  | .hold p h => { a with held := a.held.set p h }
  | .tap r p => { a with taps := a.taps.set r p }
  | .group g c => { a with groups := a.groups.set g c }
  | .role _ => a

/-! ### Suppression (R129) -/

/-- R129: whether a condition is suppressed. -/
def Alm.suppressed (a : Alm) (t : CondType) (o : Nat) : Bool :=
  if t.isPort then
    match portOfNat o with
    | none => false
    | some p =>
      a.held[p] || decide (a.portState[p] = .equipOut) ||
      (match t with
        | .fail | .untagged | .misconn | .feLos => a.isPresent .los o
        | .degrade => a.isPresent .los o || a.isPresent .fail o
        | _ => false)
  else if t = .refLos then
    if h : o < 6 then
      match a.taps[(⟨o, h⟩ : RefIx)] with
      | some p => decide (2 ≤ o) && decide (a.portState[p] = .dark ∨ a.portState[p] = .equipOut)
      | none => false
    else false
  else false

/-! ### Coverage and effective severity (R136) -/

/-- R136: whether a group's copy covers a port. -/
def copyCovers (a : Alm) (c : GroupCopy) (p : Port) : Bool :=
  (decide (c.prot = p) && c.selected == 0) ||
  (decide (0 < c.selected) && c.work[c.selected - 1]? == some p && !(a.portState[c.prot]).sf)

/-- R136: whether a group's copy has the port as a member. -/
def copyHas (c : GroupCopy) (p : Port) : Bool := decide (c.prot = p) || c.work.contains p

/-- The defined groups' copies. -/
def Alm.copies (a : Alm) : List GroupCopy := (List.finRange 16).filterMap fun g => a.groups[g]

/-- R136: a covered port. -/
def Alm.covers (a : Alm) (p : Port) : Bool := a.copies.any fun c => copyCovers a c p

/-- R136: a covered card slot. ALM has no copy of the port roles: PMON's are read as they stand (DESIGN CHOICE, log 62). -/
def cardCovered (s : State) (a : Alm) (c : Card) : Bool :=
  let ps := (portsOfCard c).filter s.populated
  ps.any (fun p => a.copies.any fun g => copyHas g p) &&
  ps.all fun p => decide (s.pmon.ports[p].role = .spare) || a.covers p

/-- R136: whether a condition's object is covered. -/
def objCovered (s : State) (a : Alm) (t : CondType) (o : Nat) : Bool :=
  if t.isPort then (match portOfNat o with | some p => a.covers p | none => false)
  else if t.isCard then (if h : o < 16 then cardCovered s a ⟨o, h⟩ else false)
  else false

/-- R136: the effective severity and the NSA mark. -/
def gradeOf (s : State) (a : Alm) (t : CondType) (o : Nat) : Severity × Bool :=
  if t.graded && objCovered s a t o then (.min, true) else ((a.profileOf t).severity, false)

/-! ### Moving the entries -/

/-- What a batch has done so far: the entries, the records, and the entries freed in it (R140). -/
structure AlmWork where
  alm   : Alm
  recs  : List JBody
  freed : List EntryIx
deriving DecidableEq, Repr

/-- Whether an entry is ACTIVE or CLEARING. -/
def Alarm.shown (x : Alarm) : Bool :=
  match x.state with
  | .pending _ => false
  | .active | .clearing _ => true

/-- Free an entry, with the ALARM-OFF an ACTIVE or CLEARING one writes (R128, R130, R134). -/
def freeEntry (w : AlmWork) (i : EntryIx) (x : Alarm) (reason : OffReason) : AlmWork :=
  { alm := { w.alm with entries := w.alm.entries.set i { w.alm.entries[i] with alarm := none } }
    recs := w.recs ++ (if x.shown then [.alarmOff i x.type x.obj x.severity reason] else [])
    freed := i :: w.freed }

/-- Replace an entry's alarm. -/
def putAlarm (w : AlmWork) (i : EntryIx) (x : Alarm) : AlmWork :=
  { w with alm := { w.alm with entries := w.alm.entries.set i { w.alm.entries[i] with alarm := some x } } }

/-- R128, R130, R133, R134: what a batch does to one entry but for severity: a type no longer tabled, a
suppression, a drop, a withdrawal, a return. -/
def moveEntry (dropped : List (CondType × Nat)) (w : AlmWork) (i : EntryIx) : AlmWork :=
  match w.alm.entries[i].alarm with
  | none => w
  | some x =>
    let pf := w.alm.profileOf x.type
    if !pf.severity.tabled then freeEntry w i x .profile
    else if w.alm.suppressed x.type x.obj then freeEntry w i x .suppressed
    else if w.alm.isPresent x.type x.obj then
      match x.state with
      | .clearing _ => putAlarm w i { x with state := .active }
      | .pending _ | .active => w
    else if dropped.contains (x.type, x.obj) then freeEntry w i x .dropped
    else
      match x.state with
      | .pending _ => freeEntry w i x .cleared
      | .active =>
        if pf.clear = 0 then freeEntry w i x .cleared
        else putAlarm w i { x with state := .clearing (pf.clear * perMs) }
      | .clearing _ => w

/-- R143: the AUDIBLE flag after a severity change of a shown entry. -/
def audibleAfter (x : Alarm) (new : Severity) : Bool :=
  if new.rings then (if x.shown && !x.severity.rings && !x.ack then true else x.audible) else false

/-- R137, R143: an entry's effective severity formed again. -/
def gradeEntry (s : State) (w : AlmWork) (i : EntryIx) : AlmWork :=
  match w.alm.entries[i].alarm with
  | none => w
  | some x =>
    let g := gradeOf s w.alm x.type x.obj
    if g.1 = x.severity ∧ g.2 = x.nsa then w
    else
      let w' := putAlarm w i { x with severity := g.1, nsa := g.2, audible := audibleAfter x g.1 }
      { w' with
        recs := w.recs ++ (if x.shown then [.severity i x.type x.obj x.severity g.1 g.2] else []) }

/-- R133, R143: an entry enters ACTIVE. -/
def activate (now : Nat) (w : AlmWork) (i : EntryIx) (x : Alarm) : AlmWork :=
  let w' := putAlarm w i { x with
    state := .active, activeTime := some now, audible := x.severity.rings && !x.ack }
  { w' with recs := w.recs ++ [.alarmOn i x.type x.obj x.severity x.nsa] }

/-- R132: a candidate takes an entry. -/
def takeEntry (s : State) (w : AlmWork) (i : EntryIx) (t : CondType) (o : Nat) : AlmWork :=
  let g := gradeOf s w.alm t o
  let raise := (w.alm.profileOf t).raise
  let x : Alarm := { type := t, obj := o, state := .pending (raise * perMs), severity := g.1, ack := false, nsa := g.2,
                     audible := false, raiseTime := s.now, activeTime := none }
  if raise = 0 then activate s.now w i x else putAlarm w i x

/-- The FREE entry of lowest index. -/
def Alm.lowestFree (a : Alm) : Option EntryIx :=
  (List.finRange 128).find? fun i => a.entries[i].alarm.isNone

/-- The severity of a PENDING entry. -/
def pendingSeverity (a : Alm) (i : EntryIx) : Option Severity :=
  match a.entries[i].alarm with
  | some x => if x.shown then none else some x.severity
  | none => none

/-- How long ago, on the 32-bit clock, an entry was taken. -/
def entryAge (now : Nat) (a : Alm) (i : EntryIx) : Nat :=
  match a.entries[i].alarm with
  | some x => (now + 2 ^ 32 - x.raiseTime) % 2 ^ 32
  | none => 0

/-- R138: whether the PENDING entry `i` is displaced before the PENDING entry `j` (a later index): lower
severity, then older. -/
def displacedBefore (now : Nat) (a : Alm) (i j : EntryIx) : Bool :=
  match pendingSeverity a i, pendingSeverity a j with
  | some x, some y => decide (x.rank < y.rank) || (x.rank == y.rank && decide (entryAge now a j ≤ entryAge now a i))
  | _, _ => false

/-- R138: the PENDING entry to be displaced first, if any is PENDING. -/
def firstDisplaced (now : Nat) (a : Alm) : Option EntryIx :=
  ((List.finRange 128).filter fun i => (pendingSeverity a i).isSome).foldl
    (fun best j =>
      match best with
      | none => some j
      | some i => if displacedBefore now a i j then some i else some j)
    none

/-- R138: the overflow count and flag after a candidate that found no FREE entry. -/
def overflowed (w : AlmWork) : AlmWork :=
  { w with alm := { w.alm with overflows := count16 w.alm.overflows, overflow := true } }

/-- R132, R138: a candidate. -/
def takeCandidate (s : State) (w : AlmWork) (c : CondType × Nat) : AlmWork :=
  match w.alm.lowestFree with
  | some i => takeEntry s w i c.1 c.2
  | none =>
    match firstDisplaced s.now w.alm with
    | none => overflowed w
    | some i =>
      match w.alm.entries[i].alarm with
      | none => overflowed w
      | some x =>
        if x.severity.rank < (gradeOf s w.alm c.1 c.2).1.rank then
          takeEntry s (overflowed (freeEntry w i x .cleared)) i c.1 c.2
        else overflowed w

/-- Whether a condition has a non-FREE entry. -/
def Alm.hasEntry (a : Alm) (t : CondType) (o : Nat) : Bool :=
  (List.finRange 128).any fun i =>
    match a.entries[i].alarm with
    | some x => decide (x.type = t ∧ x.obj = o)
    | none => false

/-- R132: the conditions a batch makes candidates, in the order of R126: present, not suppressed, tabled,
without an entry, and newly offered, or suppressed before, or of a type not tabled before. -/
def candidates (before a : Alm) (offered : List (CondType × Nat)) : List (CondType × Nat) :=
  a.present.filter fun c =>
    !a.suppressed c.1 c.2 && (a.profileOf c.1).severity.tabled && !a.hasEntry c.1 c.2 &&
    (offered.contains c || before.suppressed c.1 c.2 || !(before.profileOf c.1).severity.tabled)

/-! ### The end of a batch: overflow flag, bay outputs, writes (R138, R140, R142) -/

/-- R138: the flag is cleared when at least one entry is FREE. -/
def settleOverflow (a : Alm) : Alm := if a.lowestFree.isSome then { a with overflow := false } else a

/-- Whether some ACTIVE or CLEARING entry has the severity. -/
def Alm.shows (a : Alm) (sv : Severity) : Bool :=
  (List.finRange 128).any fun i =>
    match a.entries[i].alarm with
    | some x => x.shown && decide (x.severity = sv)
    | none => false

/-- R143: whether the audible set is not empty. -/
def Alm.rings (a : Alm) : Bool :=
  (List.finRange 128).any fun i =>
    match a.entries[i].alarm with
    | some x => x.audible
    | none => false

/-- R142: the bay outputs. -/
def formOutputs (a : Alm) : BayOutputs :=
  { crit := a.shows .crit, maj := a.shows .maj || a.overflow, min := a.shows .min, audible := a.rings }

/-- R140, R157: one entry's generation word after the batch: an entry freed and taken again in it moves by
four, another changed entry by two. -/
def stampEntry (before : Alm) (freed : List EntryIx) (a : Alm) (i : EntryIx) : Alm :=
  let o := before.entries[i]
  let n := a.entries[i]
  if freed.contains i && n.alarm.isSome then
    { a with entries := a.entries.set i { n with gen := genNext (genNext o.gen) } }
  else if o.alarm = n.alarm then a
  else { a with entries := a.entries.set i { n with gen := genNext o.gen } }

/-- R140: the generation words of all entries. -/
def stampEntries (before : Alm) (freed : List EntryIx) (a : Alm) : Alm :=
  (List.finRange 128).foldl (stampEntry before freed) a

/-- Whether an event wrote an entry. -/
def wroteEntry (before a : Alm) : Bool :=
  (List.finRange 128).any fun i => decide (before.entries[i] ≠ a.entries[i])

/-- R138, R140, R142: the end of a batch or timer event, with the attention it raises and the records it
hands JRN. -/
def almFinish (before : Alm) (w : AlmWork) : Alm × List Msg :=
  let a := settleOverflow (stampEntries before w.freed w.alm)
  let a' := { a with outputs := formOutputs a }
  (a', toJrn w.recs ++ (if wroteEntry before a' then [.attn .alm] else []) ++
    (if a'.outputs = before.outputs then [] else [.attn .bay]))

/-! ### Batches -/

/-- R125: the changes of a batch that change something, in hand-on order: an offer counts when the condition is absent
as the changes before it leave the present set, so that a condition withdrawn earlier in the batch is offered anew. -/
def freshOffers (a : Alm) : List AlmChange → List AlmChange
  | [] => []
  | c :: cs =>
    (match c with
      | .offer t o => if a.isPresent t o then [] else [c]
      | .event _ _ _ _ => [c]
      | _ => []) ++ freshOffers (applyChange a c) cs

/-- R132: the conditions a batch offers (R125). A condition withdrawn and offered anew in one batch is offered; the entry
it has stays, since the batch leaves the condition present (DEDUCED, log 29). -/
def newlyOffered (before : Alm) (batch : List AlmChange) : List (CondType × Nat) :=
  (freshOffers before batch).filterMap fun c =>
    match c with
    | .offer t o => some (t, o)
    | _ => none

/-- The work order conditions a batch withdraws at a drop (R57). -/
def droppedConds (batch : List AlmChange) : List (CondType × Nat) :=
  batch.filterMap fun c =>
    match c with
    | .drop t o => some (t, o)
    | _ => none

/-- R135: the EVENT records of a batch's offers and events, in hand-on order, suppression being judged once the batch
has brought the set and the copies up to date (R126). They are written before the batch's other records (DESIGN CHOICE,
log 21). -/
def eventRecords (before a : Alm) (batch : List AlmChange) : List JBody :=
  (freshOffers before batch).filterMap fun c =>
    match c with
    | .offer t o =>
      if decide ((a.profileOf t).severity = .event) && !a.suppressed t o then some (.event t o none) else none
    | .event t o old new => if (a.profileOf t).severity = .event then some (.event t o (some (old, new))) else none
    | _ => none

/-- R126, second and third step: the entries moved, graded and taken after the present set, the copies or
the profile changed from `before` to `a`. The records stand in this order: EVENT, entries moved, SEVERITY, ALARM-ON of
candidates (DESIGN CHOICE, log 21). -/
def almMove (s : State) (before a : Alm) (events : List JBody) (offered dropped : List (CondType × Nat)) :
    Alm × List Msg :=
  let w0 : AlmWork := { alm := a, recs := events, freed := [] }
  let w1 := (List.finRange 128).foldl (moveEntry dropped) w0
  let w2 := (List.finRange 128).foldl (gradeEntry s) w1
  let w3 := (candidates before w2.alm offered).foldl (takeCandidate s) w2
  almFinish before w3

/-- R126: a batch. -/
def almBatch (s : State) (batch : List AlmChange) : Alm × List Msg :=
  let before := s.alm
  let a := batch.foldl applyChange before
  almMove s before a (eventRecords before a batch) (newlyOffered before batch) (droppedConds batch)

/-- R128: an applied profile entry. The rows act in the order of the table: the severity first, with the soaks that
the candidates it makes start at the load, then the new soaks. R138 clears the overflow flag at the end of a batch or timer
event that leaves an entry FREE; the end of a profile load that leaves one clears it too (DESIGN CHOICE, log 52). -/
def almProfile (s : State) (t : Fin 24) (pf : AlarmProfile) : Alm × List Msg :=
  let r := almMove s s.alm { s.alm with
    profile := s.alm.profile.set t { s.alm.profile[t] with severity := pf.severity } } [] [] []
  ({ r.1 with profile := r.1.profile.set t pf }, r.2)

/-! ### Timer events, acknowledgement, cut-off -/

/-- R133: a PENDING entry's raise soak runs out. -/
def almRaise (s : State) (i : EntryIx) : Alm × List Msg :=
  match s.alm.entries[i].alarm with
  | some x =>
    match x.state with
    | .pending _ => almFinish s.alm (activate s.now { alm := s.alm, recs := [], freed := [] } i x)
    | .active | .clearing _ => (s.alm, [])
  | none => (s.alm, [])

/-- R134: a CLEARING entry's clear soak runs out. -/
def almClear (s : State) (i : EntryIx) : Alm × List Msg :=
  match s.alm.entries[i].alarm with
  | some x =>
    match x.state with
    | .clearing _ => almFinish s.alm (freeEntry { alm := s.alm, recs := [], freed := [] } i x .cleared)
    | .pending _ | .active => (s.alm, [])
  | none => (s.alm, [])

/-- R139, R143: one entry acknowledged; it leaves the audible set. -/
def ackEntry (w : AlmWork) (i : EntryIx) : AlmWork :=
  match w.alm.entries[i].alarm with
  | some x => putAlarm w i { x with ack := true, audible := false }
  | none => w

/-- R139: the entries named acknowledged. -/
def almAck (s : State) (is : List EntryIx) : Alm × List Msg :=
  almFinish s.alm (is.foldl ackEntry { alm := s.alm, recs := [], freed := [] })

/-- R144: one entry leaves the audible set. -/
def silenceEntry (w : AlmWork) (i : EntryIx) : AlmWork :=
  match w.alm.entries[i].alarm with
  | some x => if x.audible then putAlarm w i { x with audible := false } else w
  | none => w

/-- R144: an alarm cut-off empties the audible set. -/
def almCutOff (s : State) : Alm × List Msg :=
  almFinish s.alm ((List.finRange 128).foldl silenceEntry { alm := s.alm, recs := [], freed := [] })

/-- R144: the number of entries in the audible set. -/
def Alm.audibleCount (a : Alm) : Nat :=
  ((List.finRange 128).filter fun i =>
    match a.entries[i].alarm with
    | some x => x.audible
    | none => false).length

end Sys2Proof.Machine
end

