-- ==== Sys2Proof/Machine/Pmon.lean ====
section
/-! DEFINITION. PMON, the port monitor (chapter 1): conversion, the six stages of a valid sample, missed
samples, card equipment, calibration and the port state it hands on. -/

namespace Sys2Proof.Machine

/-! ### The stages of one port's sample -/

/-- R3: raw power of a power code; a code above 4000 is taken as 4000. -/
def rawPower (code : BitVec 12) : Int := -5000 + (3 * min code.toNat 4000 / 2 : Nat)

/-- R3: the over-range mark. -/
def overRange (code : BitVec 12) : Bool := decide (4000 < code.toNat)

/-- R3, R4: stage 1. -/
def stageConvert (pf : Profile) (code : BitVec 12) (r : PortRec) : PortRec :=
  let high := overRange code
  let c := confirm r.overload r.ovlCnt pf.losN high (!high)
  { r with power := rawPower code, overRange := high, overload := c.1, ovlCnt := c.2 }

/-- R5, R6: stage 2. The declaring sample clears FAIL and DEGRADE and their counters; the clearing sample
sets S to its P and clears the spike memory. -/
def stageLos (pf : Profile) (r : PortRec) : PortRec :=
  let c := confirm r.los r.losCnt pf.losN (decide (r.power ≤ pf.losThr)) (decide (pf.losThr + 200 ≤ r.power))
  let r' := { r with los := c.1, losCnt := c.2 }
  if !r.los && c.1 then { r' with fail := false, failCnt := 0, degrade := false, degCnt := 0 }
  else if r.los && !c.1 then { r' with smoothed := some r.power, spike := .clear }
  else r'

/-- R8: stage 4. -/
def stageSmooth (pf : Profile) (r : PortRec) : PortRec :=
  match r.smoothed with
  | none => { r with smoothed := some r.power }
  | some s => { r with smoothed := some (s + truncAtLeastOne ((r.power - s) * pf.alpha) 16) }

/-- R7, R8: stages 3 and 4 of a sample that LOS has not stopped. -/
def stageFilter (pf : Profile) (r : PortRec) : PortRec :=
  match r.smoothed with
  | none => stageSmooth pf { r with spike := .clear }
  | some s =>
    let gap := r.power - s
    if pf.limit ≠ 0 ∧ pf.limit < gap.natAbs then
      let sign : Spike := if 0 < gap then .rising else .falling
      if r.spike = sign then { r with smoothed := some r.power, spike := .clear }
      else { r with spike := sign, spikes := count16 r.spikes }
    else stageSmooth pf { r with spike := .clear }

/-- R11, R12: stage 5, tracking, with the card's accepted state and the port's work hold. -/
def stageTrack (pf : Profile) (card : CardState) (held : Bool) (r : PortRec) : PortRec :=
  if 2 ^ pf.k ≤ r.track + 1 then
    let r' := { r with track := 0 }
    match r.baseline, r.smoothed with
    | some b, some s =>
      if 0 < pf.beta ∧ portStateOf card r = .clear ∧ held = false ∧ r.cal = none ∧
          ((s - b).natAbs : Int) < pf.degThr then
        { r' with baseline := some (b + truncAtLeastOne ((s - b) * pf.beta) 64) }
      else r'
    | _, _ => r'
  else { r with track := r.track + 1 }

/-- R14: stage 5, calibration collection; the 64th value sets the baseline. -/
def stageCollect (r : PortRec) : PortRec × Option CalOutcome :=
  match r.cal, r.smoothed with
  | some c, some s =>
    if r.los then (r, none)
    else if 64 ≤ c.count + 1 then
      ({ r with baseline := some (roundNearest (c.sum + s) 64), failCnt := 0, degCnt := 0, track := 0, cal := none },
        some .calibrated)
    else ({ r with cal := some { c with count := c.count + 1, sum := c.sum + s } }, none)
  | _, _ => (r, none)

/-- R16, R17: stage 6. -/
def stageDeficit (pf : Profile) (r : PortRec) : PortRec :=
  match r.baseline, r.smoothed with
  | some b, some s =>
    if r.los then r
    else
      let d := b - s
      let f := confirm r.fail r.failCnt pf.defN (decide (pf.failThr ≤ d)) (decide (d ≤ pf.failThr - pf.hyst))
      let g := confirm r.degrade r.degCnt pf.defN (decide (pf.degThr ≤ d)) (decide (d ≤ pf.degThr - pf.hyst))
      { r with fail := f.1, failCnt := f.2, degrade := g.1, degCnt := g.2 }
  | _, _ => r

/-- R15: an event that ends a port's calibration, if it is collecting. -/
def endCal (o : CalOutcome) (r : PortRec) : PortRec × Option CalOutcome :=
  if r.cal.isSome then ({ r with cal := none }, some o) else (r, none)

/-- R1: a valid sample through the stages, with the calibration outcome it brings, if any. Stages 3 and 4
are skipped on the sample that declares or clears LOS and while LOS stays declared (R6). -/
def portValid (pf : Profile) (card : CardState) (held : Bool) (code : BitVec 12) (r : PortRec) :
    PortRec × Option CalOutcome :=
  let r1 := stageConvert pf code { r with run := 0, monLost := false }
  let r2 := stageLos pf r1
  let e := if !r1.los && r2.los then endCal .failedLos r2 else (r2, none)
  let r3 := if r1.los || r2.los then e.1 else stageFilter pf e.1
  let c := stageCollect (stageTrack pf card held r3)
  (stageDeficit pf c.1, e.2 <|> c.2)

/-- R2, R15: a missed sample. -/
def portMissed (r : PortRec) : PortRec × Option CalOutcome :=
  let r1 := { r with missed := count16 r.missed, run := r.run + 1 }
  if 64 ≤ r1.run && !r1.monLost then endCal .failedMonlost { r1 with monLost := true } else (r1, none)

/-! ### Handing on -/

/-- R21: the port conditions that a change of the record offers or withdraws, in this order (DESIGN CHOICE, log 58). -/
def portConditions (p : Port) (old new : PortRec) : List AlmChange :=
  flagChange .los p old.los new.los ++ flagChange .fail p old.fail new.fail ++
  flagChange .degrade p old.degrade new.degrade ++ flagChange .overload p old.overload new.overload ++
  flagChange .monLost p old.monLost new.monLost

/-- R20: form a port's state again; the change to hand on, if it differs from the last handed on. -/
def reformPort (pm : Pmon) (p : Port) : Pmon × List PortChange :=
  let r := pm.ports[p]
  let st := portStateOf pm.cards[cardOf p].accepted r
  if st = r.handed then (pm, [])
  else ({ pm with ports := pm.ports.set p { r with handed := st } }, [⟨p, r.handed, st⟩])

/-- R20: the same for several ports. -/
def reformPorts : List Port → Pmon → Pmon × List PortChange
  | [], pm => (pm, [])
  | p :: ps, pm =>
    let a := reformPort pm p
    let b := reformPorts ps a.1
    (b.1, a.2 ++ b.2)

/-- R20: the readers of new port states; ALM takes the states and the event's conditions as one batch
(R126). -/
def handPorts (changes : List PortChange) (conds : List AlmChange) : List Msg :=
  (if changes.isEmpty then []
    else [.cbcPorts changes, .prcPorts changes, .tselPorts (changes.map (·.port))]) ++
  toAlm (conds ++ changes.map fun c => .portState c.port c.new)

/-- Keep a port's record and, if its calibration ended, its outcome. -/
def Pmon.put (pm : Pmon) (p : Port) (r : PortRec) (o : Option CalOutcome) : Pmon :=
  { pm with
    ports := pm.ports.set p r
    outcomes := if o.isSome then pm.outcomes.set p o else pm.outcomes }

/-- R1, R2: the power part of a sample of a populated port, an event of PMON with an ALM batch of its own (DESIGN CHOICE,
log 61). -/
def pmonPower (s : State) (p : Port) (code : BitVec 12) (valid : Bool) : Pmon × List Msg :=
  let pm := s.pmon
  let r := pm.ports[p]
  let x :=
    if valid then
      portValid pm.profiles[r.profile] pm.cards[cardOf p].accepted s.cbc.ports[p].hold.isSome code r
    else portMissed r
  let h := reformPort (pm.put p x.1 x.2) p
  (h.1, (if r.los = x.1.los then [] else [.tcdLos p x.1.los]) ++ handPorts h.2 (portConditions p r x.1))

/-! ### Card equipment -/

/-- R19: the accepted state a pair of flags gives. -/
def cardStateOf (present fault : Bool) : CardState :=
  if present then (if fault then .faulty else .inService) else .out

/-- R19: one reading of a card: its record after it. A reading that matches the accepted state ends the
candidate run; the eighth agreeing reading is accepted. -/
def cardReading (present fault : Bool) (scan : Nat) (c : CardRec) : CardRec :=
  let c := { c with scan := some scan }
  if cardStateOf present fault = c.accepted then { c with count := 0 }
  else
    let n := if c.cand = (present, fault) then c.count + 1 else 1
    if 8 ≤ n then { c with accepted := cardStateOf present fault, cand := (present, fault), count := 0 }
    else { c with cand := (present, fault), count := n }

/-- R19: what acceptance does to each port of the card: an insertion empties the filter; a card that is out
or faulty ends a calibration. -/
def cardPort (old new : CardState) (r : PortRec) : PortRec × Option CalOutcome :=
  let r := if old = .out ∧ (new = .inService ∨ new = .faulty) then { r with smoothed := none, spike := .clear } else r
  if new = .out ∨ new = .faulty then endCal .failedEquip r else (r, none)

/-- R19: the same for all four ports. -/
def cardPorts (old new : CardState) : List Port → Pmon → Pmon
  | [], pm => pm
  | p :: ps, pm =>
    let x := cardPort old new pm.ports[p]
    cardPorts old new ps (pm.put p x.1 x.2)

/-- R19, R21: a card's conditions. -/
def cardConditions (c : Card) (old new : CardState) : List AlmChange :=
  flagChange .cardOut c (decide (old = .out)) (decide (new = .out)) ++
  flagChange .cardFault c (decide (old = .faulty)) (decide (new = .faulty))

/-- R19: a valid sample's card flags: the card's reading if it is the scan's first; an event of PMON with an ALM batch of
its own (DESIGN CHOICE, log 61). -/
def pmonCard (s : State) (p : Port) (present fault : Bool) : Pmon × List Msg :=
  let c := cardOf p
  let rec0 := s.pmon.cards[c]
  if rec0.scan = some s.mbp.scan then (s.pmon, [])
  else
    let rec1 := cardReading present fault s.mbp.scan rec0
    let pm := { s.pmon with cards := s.pmon.cards.set c rec1 }
    if rec1.accepted = rec0.accepted then (pm, [])
    else
      let h := reformPorts (portsOfCard c) (cardPorts rec0.accepted rec1.accepted (portsOfCard c) pm)
      (h.1, handPorts h.2 (cardConditions c rec0.accepted rec1.accepted))

/-! ### Work holds, calibration jobs -/

/-- R15: end the calibration of each port named. -/
def endCals (o : CalOutcome) : List Port → Pmon → Pmon
  | [], pm => pm
  | p :: ps, pm =>
    let x := endCal o pm.ports[p]
    endCals o ps (pm.put p x.1 x.2)

/-- R15, R46: work holds as PMON takes them; a hold ends the port's calibration. -/
def pmonHold (s : State) (ports : List Port) (held : Bool) : Pmon × List Msg :=
  (if held then endCals .held ports s.pmon else s.pmon, [])

/-- R13: a job's ports start their calibration. -/
def startCals (slot : SlotIx) : List Port → Pmon → Pmon
  | [], pm => pm
  | p :: ps, pm =>
    let r := pm.ports[p]
    let pm' :=
      match r.handed with
      | .dark => pm.put p r (some .failedLos)
      | .monLost => pm.put p r (some .failedMonlost)
      | .equipOut => pm.put p r (some .failedEquip)
      | _ => { pm with
          ports := pm.ports.set p { r with cal := some { slot := slot, count := 0, sum := 0 } }
          outcomes := pm.outcomes.set p none }
    startCals slot ps pm'

/-- R14: whether every port of a job has an outcome. -/
def jobFinished (pm : Pmon) (j : Job) : Bool := j.ports.all fun p => pm.outcomes[p].isSome

/-- R163: the number of a job's ports with outcome CALIBRATED. -/
def jobCalibrated (pm : Pmon) (j : Job) : Nat :=
  (j.ports.filter fun p => decide (pm.outcomes[p] = some .calibrated)).length

/-- Forget the outcomes of a job that has been answered. -/
def clearOutcomes : List Port → Pmon → Pmon
  | [], pm => pm
  | p :: ps, pm => clearOutcomes ps { pm with outcomes := pm.outcomes.set p none }

end Sys2Proof.Machine
end

