-- ==== Sys2Proof/Machine/Tcd.lean ====
section
/-! DEFINITION. TCD, the tag codec (chapter 2): frames, the decoder of each port, the received tag record
and the transmit frames. -/

namespace Sys2Proof.Machine

/-! ### Frames (R24, R25, section 10.5)

A frame is 56 bits, the first-sent most significant: sending position `k` is bit `55 - k`. -/

/-- R24: the sync pattern 1110 0101. -/
def syncPattern : Byte := 0xE5

/-- R25: the sum of the five body bytes and the check byte is 255 modulo 256. -/
def checkRight (b : BitVec 56) : Bool :=
  b.extractLsb' 40 8 + b.extractLsb' 32 8 + b.extractLsb' 24 8 + b.extractLsb' 16 8 + b.extractLsb' 8 8 +
    b.extractLsb' 0 8 == 255

/-- R25: sync and check alone make a frame valid. -/
def frameValid (b : BitVec 56) : Bool := b.extractLsb' 48 8 == syncPattern && checkRight b

/-- R24: the fields of 56 bits. -/
def frameOf (b : BitVec 56) : TagFrame :=
  { shelf := b.extractLsb' 32 16
    port := b.extractLsb' 26 6
    cls := b.extractLsb' 22 4
    feLos := b.getLsbD 21
    test := b.getLsbD 20
    kind := b.extractLsb' 18 2
    request := b.extractLsb' 14 4
    member := b.extractLsb' 11 3
    bridged := b.extractLsb' 8 3 }

/-- R24: the 40 bits of the body, in the order sent. -/
def bodyOf (f : TagFrame) : BitVec 40 :=
  f.shelf ++ f.port ++ f.cls ++ BitVec.ofBool f.feLos ++ BitVec.ofBool f.test ++ f.kind ++ f.request ++ f.member ++
    f.bridged

/-- R24: the check of a body: 255 minus the sum of its bytes, modulo 256. -/
def checkOf (b : BitVec 40) : Byte :=
  255 - (b.extractLsb' 32 8 + b.extractLsb' 24 8 + b.extractLsb' 16 8 + b.extractLsb' 8 8 + b.extractLsb' 0 8)

/-- R24: the 56 bits of a frame. -/
def frameBits (f : TagFrame) : BitVec 56 := syncPattern ++ bodyOf f ++ checkOf (bodyOf f)

/-- R24: whether two frames carry the same identity. -/
def sameId (f g : TagFrame) : Bool := f.shelf == g.shelf && f.port == g.port

/-! ### Decoder (R26 to R32) -/

/-- R29: the record a refreshing frame leaves, with the switch fields of the record before, if it had any,
and how many bad-signalling counts it adds. -/
def tagOf (before : Option Tag) (f : TagFrame) : Tag × Nat :=
  let base : Tag :=
    { shelf := f.shelf, port := f.port, cls := f.cls, feLos := f.feLos, test := f.test, signalling := false,
      request := 0, member := 0, bridged := 0 }
  if f.kind = 1 then
    if f.request.toNat ≤ 11 then
      ({ base with signalling := true, request := f.request, member := f.member, bridged := f.bridged }, 0)
    else
      match before with
      | some t =>
        ({ base with signalling := t.signalling, request := t.request, member := t.member, bridged := t.bridged }, 1)
      | none => (base, 1)
  else (base, 0)

/-- A 16-bit count that goes up `n` times and stops at 65535. -/
def countUp (c n : Nat) : Nat := if n = 0 then c else count16 c

/-- R28 to R30: a valid frame found. It sets the loss counter to zero and aligns the decoder (R27). -/
def frameFound (d : Decoder) (f : TagFrame) : Decoder :=
  let d := { d with loss := 0, nextEnd := some 56 }
  match d.st with
  | .hunt => { d with st := .candidate f }
  | .candidate c =>
    if sameId c f then
      let t := tagOf none f
      { d with st := .locked t.1 none, badSig := countUp d.badSig t.2 }
    else { d with st := .candidate f }
  | .locked tag pend =>
    if tag.shelf = f.shelf ∧ tag.port = f.port then
      let t := tagOf (some tag) f
      { d with
        st := .locked t.1 none
        badSig := countUp d.badSig t.2
        glitch := if pend.isSome then count16 d.glitch else d.glitch }
    else
      match pend with
      | none => { d with st := .locked tag (some f) }
      | some g =>
        if sameId g f then
          let t := tagOf none f
          { d with st := .locked t.1 none, badSig := countUp d.badSig t.2, change := count16 d.change }
        else { d with st := .locked tag (some f), glitch := count16 d.glitch }

/-- R31: the loss counter after one more sample period without a valid frame: at 168, in CANDIDATE and
LOCKED, the decoder returns to HUNT, unaligned, the collected bits kept. -/
def lossPeriod (d : Decoder) : Decoder :=
  let d := { d with loss := d.loss + 1 }
  if 168 ≤ d.loss ∧ d.st ≠ .hunt then { d with st := .hunt, nextEnd := none } else d

/-- R26: a bit joins the collected bits at the newest end. -/
def collectBit (d : Decoder) (bit : Bool) : Decoder :=
  { d with
    bits := (d.bits <<< 1) ||| (BitVec.ofBool bit).setWidth 56
    count := min 56 (d.count + 1)
    nextEnd := d.nextEnd.map (· - 1) }

/-- R27: whether the decoder tests after this collected bit. -/
def testsNow (d : Decoder) : Bool :=
  match d.nextEnd with
  | none => decide (56 ≤ d.count)
  | some n => n == 0

/-- R26, R27, R31: a port's decoder after a sample: the tag bit of a valid one, or the discard a missed one
brings. While LOS is declared bits are discarded on arrival. -/
def decoderSample (d : Decoder) (bit valid : Bool) : Decoder :=
  if !valid then lossPeriod { d with bits := 0, count := 0, nextEnd := none }
  else if d.los then lossPeriod d
  else
    let d' := collectBit d bit
    if testsNow d' then
      if frameValid d'.bits then frameFound d' (frameOf d'.bits) else lossPeriod { d' with nextEnd := none }
    else lossPeriod d'

/-- R32: LOS declared: HUNT at once, everything collected discarded. R26: LOS cleared. -/
def decoderLos (d : Decoder) (declared : Bool) : Decoder :=
  if declared then { d with st := .hunt, bits := 0, count := 0, nextEnd := none, los := true }
  else { d with los := false }

/-- R33: the record's fields other than the counts, present while LOCKED. -/
def Decoder.tag (d : Decoder) : Option Tag :=
  match d.st with
  | .locked t _ => some t
  | .hunt | .candidate _ => none

/-- R35: whether FELOS is present. -/
def felos (t : Option Tag) : Bool := (t.map (·.feLos)).getD false

/-- R34, R35: what a change of a port's decoder hands on. -/
def tcdHandOn (p : Port) (old new : Decoder) : List Msg :=
  (if old.tag = new.tag then [] else [.cbcTag p, .prcTag p, .tselTag p]) ++
  toAlm (flagChange .feLos p (felos old.tag) (felos new.tag))

/-- Keep a port's decoder and hand on what changed. -/
def tcdPut (t : Tcd) (p : Port) (d : Decoder) : Tcd × List Msg :=
  ({ t with decs := t.decs.set p d }, tcdHandOn p t.decs[p] d)

/-- R26: a sample's tag bit. -/
def tcdBit (s : State) (p : Port) (bit valid : Bool) : Tcd × List Msg :=
  tcdPut s.tcd p (decoderSample s.tcd.decs[p] bit valid)

/-- R26, R32: LOS as PMON hands it. -/
def tcdLos (s : State) (p : Port) (declared : Bool) : Tcd × List Msg :=
  tcdPut s.tcd p (decoderLos s.tcd.decs[p] declared)

/-- R33, R82: one report from PRC on each port named. -/
def tcdReport (s : State) : List Port → Tcd
  | [] => s.tcd
  | p :: ps =>
    let t := tcdReport s ps
    { t with decs := t.decs.set p { t.decs[p] with badSig := count16 t.decs[p].badSig } }

/-! ### Encoder (R36 to R38) -/

/-- R38: the switch fields of the port's group, while the port is the protection port of a group of kind
1P1-BI or 1TN. -/
def switchFieldsOf (prc : Prc) (p : Port) : Option SwitchFields :=
  (List.finRange 16).findSome? fun g =>
    match prc.groups[g] with
    | some gr => if gr.prot = p ∧ gr.kind ≠ .uni then some gr.sent else none
    | none => none

/-- R37: the quality class a port transmits. -/
def sentClass (s : State) (p : Port) : Nat :=
  if !s.rqu.loaded then 7
  else if s.pmon.ports[p].role ≠ .line then 7
  else if s.tsel.doNotUse.contains p then 7
  else s.tsel.outClass

/-- R37, R38: the fields of the frame a populated port latches. -/
def latchFields (s : State) (p : Port) : TagFrame :=
  let sw := switchFieldsOf s.prc p
  { shelf := if s.rqu.loaded then s.rqu.shelf.identity else s.straps.shid.setWidth 16
    port := BitVec.ofNat 6 p.val
    cls := BitVec.ofNat 4 (sentClass s p)
    feLos := decide (s.pmon.ports[p].handed = .dark)
    test := s.cbc.ports[p].hold.isSome
    kind := if sw.isSome then 1 else 0
    request := BitVec.ofNat 4 ((sw.map (·.request)).getD 0)
    member := BitVec.ofNat 3 ((sw.map (·.member)).getD 0)
    bridged := BitVec.ofNat 3 ((sw.map (·.bridged)).getD 0) }

/-- R36: the frame a port latches; an unpopulated port sends 0 at every position. -/
def latchFrame (s : State) (p : Port) : BitVec 56 :=
  if s.populated p then frameBits (latchFields s p) else 0

/-- R36: position 0 latches every port's frame. -/
def tcdLatch (s : State) : Tcd :=
  if s.tcd.pos = 0 then { s.tcd with latched := Vector.ofFn (latchFrame s) } else s.tcd

/-- R36: the bit a port sends at the frame position, the first-sent most significant. -/
def sentBit (t : Tcd) (p : Port) : Bool := t.latched[p].getMsbD t.pos

/-- R36: the frame position after an LCP frame. -/
def nextPos (pos : Nat) : Nat := if pos < 55 then pos + 1 else 0

end Sys2Proof.Machine
end

