-- ==== Sys2Proof/Machine/Cbc.lean ====
section
/-! DEFINITION. CBC, the cabling controller (chapter 3): expectations, cabling states, work holds and the
work order table. -/

namespace Sys2Proof.Machine

/-! ### What one event of CBC builds up -/

/-- CBC during one event: its state, the changes for ALM's batch in the order in which they come about (DESIGN CHOICE,
log 58), the records for JRN, the ports whose new expectation goes to PRC, and the ports whose hold is released. -/
structure CbcWork where
  cbc      : Cbc
  alm      : List AlmChange
  recs     : List JBody
  expected : List Port
  released : List Port
deriving DecidableEq, Repr

/-- The start of an event. -/
def cbcBegin (s : State) : CbcWork := { cbc := s.cbc, alm := [], recs := [], expected := [], released := [] }

/-- The hand-ons of a work hold set or released on ports (R46), but for ALM's. -/
def handHolds (ports : List Port) (held : Bool) : List Msg :=
  if ports.isEmpty then [] else [.pmonHold ports held, .prcHold ports held, .tselHold ports]

/-- The end of an event. -/
def cbcEnd (w : CbcWork) : Cbc × List Msg :=
  (w.cbc, handHolds w.released false ++ (if w.expected.isEmpty then [] else [.prcExpect w.expected]) ++
    toAlm w.alm ++ toJrn w.recs)

/-- Change one port's record. -/
def CbcWork.put (w : CbcWork) (p : Port) (r : CabRec) : CbcWork :=
  { w with cbc := { w.cbc with ports := w.cbc.ports.set p r } }

/-! ### Expectations and cabling states (R40 to R44) -/

/-- R40: whether two expectations are the same value: shelf and port count with TAG only. -/
def Expectation.same (a b : Expectation) : Bool :=
  a.kind == b.kind && (a.kind != .tag || (a.port == b.port && a.shelf == b.shelf))

/-- R43: whether a locked tag is the identity a TAG expectation names. -/
def tagMatches (e : Expectation) (t : Tag) : Bool := t.shelf == e.shelf && t.port.toNat == e.port.toNat

/-- R43: the cabling state, by the first line of the table that applies; PMON's and TCD's records are read as they stand
(DESIGN CHOICE, log 63). -/
def cablingState (s : State) (r : CabRec) (p : Port) : CabState :=
  let pr := s.pmon.ports[p]
  let st := pr.handed
  if r.hold.isSome then .held
  else if !s.populated p || decide (pr.role = .spare) || decide (r.expect.kind = .any) ||
      decide (st = .equipOut ∨ st = .monLost) then .unchecked
  else if r.expect.kind = .dark then (if st = .dark then .matched else .litUnexpected)
  else if st = .dark then .noLight
  else
    match s.tcd.decs[p].tag with
    | some t => if tagMatches r.expect t then .matched else .mismatch
    | none => if r.tagWait.isSome then .awaiting else .untagged

/-- R43: the condition a cabling state offers. -/
def cabCondition : CabState → Option CondType
  | .litUnexpected => some .unexpLight
  | .mismatch => some .misconn
  | .untagged => some .untagged
  | .held | .unchecked | .matched | .noLight | .awaiting => none

/-- R44: what a change of cabling state hands ALM. -/
def cabChange (p : Port) (old new : CabState) : List AlmChange :=
  if cabCondition old = cabCondition new then []
  else (match cabCondition old with | some t => [.withdraw t p] | none => []) ++
       (match cabCondition new with | some t => [.offer t p] | none => [])

/-- R44: re-evaluate a port. -/
def reevaluate (s : State) (w : CbcWork) (p : Port) : CbcWork :=
  let r := w.cbc.ports[p]
  let st := cablingState s r p
  let w' := w.put p { r with state := st }
  { w' with alm := w.alm ++ cabChange p r.state st }

/-- R42: the tag wait's length in periods, from the shelf record in use. -/
def tagWaitLength (s : State) : Nat := s.rqu.shelf.tagWait * perMs

/-- R42: start or restart a port's tag wait timer. -/
def startTagWait (s : State) (w : CbcWork) (p : Port) : CbcWork :=
  w.put p { w.cbc.ports[p] with tagWait := some (tagWaitLength s) }

/-- R40: set a port's expectation: a TAG restarts the tag wait; a change re-evaluates the port and goes to
PRC. -/
def setExpectation (s : State) (w : CbcWork) (p : Port) (e : Expectation) : CbcWork :=
  let r := w.cbc.ports[p]
  let w1 := w.put p { r with expect := e }
  let w2 := if e.kind = .tag then startTagWait s w1 p else w1
  if r.expect.same e then w2
  else
    let w3 := reevaluate s w2 p
    { w3 with expected := w3.expected ++ [p] }

/-! ### Work orders (R46 to R58) -/

/-- R58: an order's WORK record. -/
def workRecord (i : OrderIx) (o : Order) : JBody :=
  .work i o.number (some o.state) o.reason ((o.items.filter fun x => decide (x.outcome = .failed)).length)

/-- Write an order back, with its WORK record. -/
def putOrder (w : CbcWork) (i : OrderIx) (o : Order) : CbcWork :=
  { w with cbc := { w.cbc with orders := w.cbc.orders.set i (some o) }, recs := w.recs ++ [workRecord i o] }

/-- R46: the ports of an order. -/
def Order.ports (o : Order) : List Port := o.items.map (·.port)

/-- R46: release one port's mark and restart its tag wait (R42). -/
def unholdPort (s : State) (w : CbcWork) (p : Port) : CbcWork :=
  w.put p { w.cbc.ports[p] with hold := none, tagWait := some (tagWaitLength s) }

/-- R46: release the work hold on all the ports together, then judge each. -/
def releaseHolds (s : State) (w : CbcWork) (ports : List Port) : CbcWork :=
  let w1 := ports.foldl (unholdPort s) w
  let w2 := ports.foldl (reevaluate s) { w1 with alm := w1.alm ++ ports.map fun p => .hold p false }
  { w2 with released := w2.released ++ ports }

/-- R54: whether an item's port shows its new expectation. -/
def itemShown (s : State) (x : Item) : Bool :=
  match x.expect.kind with
  | .tag => match s.tcd.decs[x.port].tag with | some t => tagMatches x.expect t | none => false
  | .dark => decide (s.pmon.ports[x.port].handed = .dark)
  | .any => true

/-- R54: judge an item that is PENDING. -/
def judgeItem (s : State) (x : Item) : Item :=
  if x.outcome = .pending ∧ itemShown s x then { x with outcome := .ok } else x

/-- Whether every item is OK. -/
def allOk (xs : List Item) : Bool := xs.all fun x => decide (x.outcome = .ok)

/-- R54: close an entry good. -/
def closeGood (s : State) (w : CbcWork) (i : OrderIx) (o : Order) : CbcWork :=
  putOrder (releaseHolds s w o.ports) i { o with state := .closedGood, timer := none }

/-- R54: judge the items of a VERIFYING entry that stand on the ports named. -/
def judgeOrder (s : State) (ports : List Port) (w : CbcWork) (i : OrderIx) : CbcWork :=
  match w.cbc.orders[i] with
  | none => w
  | some o =>
    if o.state ≠ .verifying then w
    else
      let o' := { o with items := o.items.map fun x => if ports.contains x.port then judgeItem s x else x }
      if o' = o then w
      else if allOk o'.items then closeGood s w i o'
      else { w with cbc := { w.cbc with orders := w.cbc.orders.set i (some o') } }

/-- All entries of the work order table, ascending. -/
def allOrders : List OrderIx := List.finRange 16

/-- R50: replace the expectations of an order's items in list order, saving the previous ones. -/
def installItems (s : State) : CbcWork → List Item → CbcWork × List Item
  | w, [] => (w, [])
  | w, x :: xs =>
    let prev := w.cbc.ports[x.port].expect
    let w1 := setExpectation s w x.port x.expect
    let rest := installItems s w1 xs
    (rest.1, { x with prev := some prev, outcome := if x.expect.kind = .any then .ok else x.outcome } :: rest.2)

/-- R50: enter VERIFYING. -/
def enterVerifying (s : State) (w : CbcWork) (i : OrderIx) (o : Order) (why : Reason) : CbcWork :=
  let b := installItems s w o.items
  let o' := { o with
    state := .verifying, reason := some why, items := b.2.map (judgeItem s)
    timer := some (s.rqu.shelf.verify * perSecond) }
  let w' := putOrder b.1 i o'
  if allOk o'.items then closeGood s w' i o' else w'

/-- R52: an OPEN entry's window runs out. -/
def cbcWindow (s : State) (i : OrderIx) : Cbc × List Msg :=
  match s.cbc.orders[i] with
  | none => (s.cbc, [])
  | some o =>
    if o.state ≠ .opened then (s.cbc, [])
    else
      let w := { cbcBegin s with alm := [.offer .workOverrun i] }
      cbcEnd (enterVerifying s w i { o with overrun := true } .expired)

/-- R55: a VERIFYING entry's verify timer runs out. -/
def cbcVerify (s : State) (i : OrderIx) : Cbc × List Msg :=
  match s.cbc.orders[i] with
  | none => (s.cbc, [])
  | some o =>
    if o.state ≠ .verifying then (s.cbc, [])
    else
      let o' := { o with
        state := .closedFault, fault := true, timer := none
        items := o.items.map fun x => if x.outcome = .pending then { x with outcome := .failed } else x }
      let w := { cbcBegin s with alm := [.offer .workFault i] }
      cbcEnd (putOrder (releaseHolds s w o.ports) i o')

/-- R53: one entry at an inactive edge of FRAME(f). -/
def frameOrder (s : State) (f : Nat) (w : CbcWork) (i : OrderIx) : CbcWork :=
  match w.cbc.orders[i] with
  | none => w
  | some o =>
    if o.state = .opened ∧ o.frameSection.map (·.val) = some f then enterVerifying s w i o .frame else w

/-- R53: an inactive edge of FRAME(f). R46 speaks of one order's ports: the holds that several orders closing good at one
edge release are handed on together, in the order of the entries (DESIGN CHOICE, log 50). -/
def cbcFrame (s : State) (f : Nat) : Cbc × List Msg := cbcEnd (allOrders.foldl (frameOrder s f) (cbcBegin s))

/-- R42, R44: one new port state. -/
def cbcPort (s : State) (w : CbcWork) (c : PortChange) : CbcWork :=
  let w' := if !c.old.lit && c.new.lit then startTagWait s w c.port else w
  reevaluate s w' c.port

/-- R44, R54: new port states. Orders that one event closes good are taken in ascending entry index, which orders their
WORK records, and the holds they release are handed on together (DESIGN CHOICE, log 50). -/
def cbcPorts (s : State) (cs : List PortChange) : Cbc × List Msg :=
  let w := cs.foldl (cbcPort s) (cbcBegin s)
  cbcEnd (allOrders.foldl (judgeOrder s (cs.map (·.port))) w)

/-- R44, R54: a received tag record. -/
def cbcTag (s : State) (p : Port) : Cbc × List Msg :=
  cbcEnd (allOrders.foldl (judgeOrder s [p]) (reevaluate s (cbcBegin s) p))

/-- R42, R44: a changed role; a change from SPARE restarts the tag wait. -/
def cbcRole (s : State) (p : Port) (old : Role) : Cbc × List Msg :=
  let w := cbcBegin s
  cbcEnd (reevaluate s (if old = .spare then startTagWait s w p else w) p)

/-- R42: a port's tag wait timer runs out. -/
def cbcTagWait (s : State) (p : Port) : Cbc × List Msg :=
  let w := cbcBegin s
  cbcEnd (reevaluate s (w.put p { w.cbc.ports[p] with tagWait := none }) p)

/-! ### Requests of the host -/

/-- The entry that holds an order number. -/
def findOrder (c : Cbc) (n : Nat) : Option OrderIx :=
  allOrders.find? fun i =>
    match c.orders[i] with
    | some o => o.number == n
    | none => false

/-- The FREE entry of lowest index. -/
def freeOrder (c : Cbc) : Option OrderIx := allOrders.find? fun i => c.orders[i].isNone

/-- R46: set one port's mark. -/
def holdPort (i : OrderIx) (w : CbcWork) (p : Port) : CbcWork :=
  w.put p { w.cbc.ports[p] with hold := some i }

/-- R49: an accepted WKOP: the order in its entry, its ports held, its WORK record. -/
def openOrder (s : State) (i : OrderIx) (number window : Nat) (fs : Option (Fin 8))
    (items : List (Port × Expectation)) : Cbc × List Msg :=
  let o : Order :=
    { number := number, state := .opened, window := window, frameSection := fs
      items := items.map fun x => { port := x.1, expect := x.2, prev := none, outcome := .pending }
      reason := none, openedAt := s.now, overrun := false, fault := false
      timer := some (window * 60 * perSecond) }
  let ps := o.ports
  let w1 := ps.foldl (holdPort i) (putOrder (cbcBegin s) i o)
  let w2 := ps.foldl (reevaluate s) { w1 with alm := w1.alm ++ ps.map fun p => .hold p true }
  let e := cbcEnd w2
  (e.1, handHolds ps true ++ e.2)

/-- R51: the entry that WKEN ends. -/
def endOrder (s : State) (i : OrderIx) (o : Order) : Cbc × List Msg :=
  cbcEnd (enterVerifying s (cbcBegin s) i o .host)

/-- R56: give each port back the expectation saved for it, in list order. -/
def restoreItem (s : State) (w : CbcWork) (x : Item) : CbcWork :=
  match x.prev with
  | some e => setExpectation s w x.port e
  | none => w

/-- R56: cancel an order in OPEN or VERIFYING. -/
def cancelOrder (s : State) (i : OrderIx) (o : Order) : Cbc × List Msg :=
  let w := cbcBegin s
  let w1 := if o.state = .verifying then o.items.foldl (restoreItem s) w else w
  let o' := { o with
    state := .cancelled, timer := none
    reason := if o.state = .opened then some .host else o.reason }
  cbcEnd (putOrder (releaseHolds s w1 o.ports) i o')

/-- R57: drop a closed or cancelled order. -/
def dropOrder (s : State) (i : OrderIx) (o : Order) : Cbc × List Msg :=
  let w := cbcBegin s
  cbcEnd { w with
    cbc := { w.cbc with orders := w.cbc.orders.set i none }
    alm := (if o.overrun then [.drop .workOverrun i] else []) ++ (if o.fault then [.drop .workFault i] else [])
    recs := [.work i o.number none none 0] }

/-- R41: adopt one port: TAG with its locked identity, where it is populated and LOCKED. -/
def adoptPort (s : State) (w : CbcWork) (p : Port) : CbcWork :=
  if s.populated p then
    match s.tcd.decs[p].tag with
    | some t => setExpectation s w p { kind := .tag, port := t.port.setWidth 8, shelf := t.shelf }
    | none => w
  else w

/-- R41: whether a port would be adopted. -/
def adoptable (s : State) (p : Port) : Bool := s.populated p && s.tcd.decs[p].tag.isSome

/-- R41: adopt the ports of a set, ascending. -/
def adoptPorts (s : State) (ps : List Port) : Cbc × List Msg := cbcEnd (ps.foldl (adoptPort s) (cbcBegin s))

/-- R40: an applied cabling record entry. -/
def cbcLoad (s : State) (p : Port) (e : Expectation) : Cbc × List Msg :=
  cbcEnd (setExpectation s (cbcBegin s) p e)

end Sys2Proof.Machine
end

