-- ==== Sys2Proof/Machine/Ciu.lean ====
section
/-! DEFINITION. CIU, the contact input unit (section 9.2). -/

namespace Sys2Proof.Machine

/-- R145: whether a level is the input's active level. -/
def ContactIn.isActive (c : ContactIn) (high : Bool) : Bool := high == c.activeHigh

/-- R145, R146: whether CONTACT is present on an input: GENERIC with the stable level active. -/
def ContactIn.condition (c : ContactIn) : Bool :=
  match c.role, c.stable with
  | .generic, some l => c.isActive l
  | _, _ => false

/-- R146, R147: a change of level at the pin. Before the first stable level the timer restarts. -/
def contactChange (c : ContactIn) (high : Bool) : ContactIn :=
  if c.stable = some high then { c with pin := high, timer := none }
  else { c with pin := high, timer := some (c.debounce * perMs) }

/-- R146, R147: the debounce timer runs out: the pin's level becomes the stable level. -/
def contactAccept (c : ContactIn) : ContactIn := { c with stable := some c.pin, timer := none }

/-- R146, R147: whether an acceptance is an edge, a change from one determined level to the other. -/
def ContactIn.edge (c : ContactIn) : Bool := c.stable.isSome && decide (c.stable ≠ some c.pin)

/-- R146: the debounce timer of an input runs out: the change is accepted, and an edge hands JRN its CONTACT record,
whatever the role. The record's frame section byte (section 10.5) is the entry's field as loaded, also for a role other
than FRAME (DESIGN CHOICE, log 55). -/
def ciuAccept (s : State) (i : InputIx) : Vector ContactIn 8 × List Msg :=
  let c := s.ciu[i]
  (s.ciu.set i (contactAccept c), if c.edge then [.jrn [.contact i (c.isActive c.pin) c.role c.frameSection]] else [])

/-- R146, R147: what the role of the input `c` does at the acceptance, once the record is written: the cut-off, the end of
the section's work, CONTACT by the stable level. -/
def contactActs (i : InputIx) (c : ContactIn) : List Msg :=
  (match c.role with
    | .aco => if c.edge && c.isActive c.pin then [.almCutOff] else []
    | .frame => if c.edge && !c.isActive c.pin then [.cbcFrame c.frameSection] else []
    | .none | .generic => []) ++ toAlm (flagChange .contact i c.condition (contactAccept c).condition)

/-- R145: an applied contact input entry: never an edge; CONTACT judged again, offered where it stands under the new entry
and withdrawn in every other case. -/
def ciuLoad (s : State) (i : InputIx) (role : ContactRole) (frameSection : Nat) (activeHigh : Bool) (debounce : Nat) :
    Vector ContactIn 8 × List Msg :=
  let c := s.ciu[i]
  let c' := { c with role := role, frameSection := frameSection, activeHigh := activeHigh, debounce := debounce }
  (s.ciu.set i c', toAlm [if c'.condition then .offer .contact i else .withdraw .contact i])

end Sys2Proof.Machine
end

