-- ==== Sys2Proof/Machine/Jrn.lean ====
section
/-! DEFINITION. JRN, the journal writer (section 9.3): writing, the two modes, release, a change of mode. -/

namespace Sys2Proof.Machine

/-- R148: the sequence number after one used: 65535 is followed by 1. -/
def nextSeq (n : Nat) : Nat := if n < 65535 then n + 1 else 1

/-- R148: the position after one written: 255 is followed by 0. -/
def nextPosition (n : Nat) : Nat := if n < 255 then n + 1 else 0

/-- R148, R150: one record handed at time `now`, with the attention events it causes. In STOP mode, with
256 unreleased records, it is dropped and counted lost. -/
def jrnWrite (now : Nat) (j : Jrn) (b : JBody) : Jrn × List Msg :=
  if j.stop ∧ 256 ≤ j.unrel then ({ j with lost := count16 j.lost }, [])
  else
    let j' := { j with
      ring := j.ring.set (j.pos % 256) { seq := j.seq, body := some b, time := now } (Nat.mod_lt _ (by decide))
      pos := nextPosition j.pos
      seq := nextSeq j.seq
      newestPos := j.pos
      newestSeq := j.seq }
    if j.stop then
      if j.unrel + 1 = 256 then ({ j' with unrel := 256, full := true }, [.attn .jrn, .attn .jfull])
      else ({ j' with unrel := j.unrel + 1 }, [.attn .jrn])
    else (j', [.attn .jrn])

/-- R148: records handed for one event, in order. -/
def jrnWriteAll (now : Nat) : Jrn → List JBody → Jrn × List Msg
  | j, [] => (j, [])
  | j, b :: bs =>
    let a := jrnWrite now j b
    let c := jrnWriteAll now a.1 bs
    (c.1, a.2 ++ c.2)

/-- The journal part of the shelf header (section 10.5), but for its generation word. -/
def Jrn.headerPart (j : Jrn) : List Nat :=
  [j.newestPos, j.newestSeq, j.unrel, j.lost, j.badRel, j.stop.toNat, j.full.toNat]

/-- R157: the journal part's generation word after an event that may have changed it. -/
def jrnStamp (old new : Jrn) : Jrn :=
  if old.headerPart = new.headerPart then new else { new with gen := genNext old.gen }

/-- Each attention source named once. -/
def attnOnce (ms : List Msg) : List Msg := ms.dedup

/-- R148: an event's records. -/
def jrnRecords (s : State) (bs : List JBody) : Jrn × List Msg :=
  let w := jrnWriteAll s.now s.jrn bs
  (jrnStamp s.jrn w.1, attnOnce w.2)

/-- The position `k` records behind the next position, the newest record at `k = 0`. -/
def ringBack (j : Jrn) (k : Nat) : JRecord := j.ring[(j.pos + 255 - k) % 256]'(Nat.mod_lt _ (by decide))

/-- R151: how many unreleased records are newer than the one with sequence number `v`. -/
def releasePoint (j : Jrn) (v : Nat) : Option Nat :=
  if v = 0 then none else (List.range j.unrel).find? fun k => (ringBack j k).seq == v

/-- R151, R152: a completed host write of `v` to the release word. -/
def jrnRelease (s : State) (v : Nat) : Jrn × List Msg :=
  let j := s.jrn
  if !j.stop then (j, [])
  else
    match releasePoint j v with
    | none => (jrnStamp j { j with badRel := count16 j.badRel }, [])
    | some k =>
      let j1 := { j with unrel := k, full := if k < 256 then false else j.full }
      if j.full && decide (k < 256) && decide (0 < j.lost) then
        let w := jrnWrite s.now j1 (.lost j.lost)
        (jrnStamp j { w.1 with lost := 0 }, w.2)
      else (jrnStamp j j1, [])

/-- R153: the journal discarded: every position empty, the counters at their start, the bad release count
kept. -/
def jrnDiscard (j : Jrn) (stop : Bool) : Jrn :=
  { Jrn.reset with stop := stop, badRel := j.badRel, gen := j.gen }

/-- R153: the mode a shelf record gives. -/
def jrnMode (s : State) (stop : Bool) : Jrn × List Msg :=
  if s.jrn.stop = stop then (s.jrn, [])
  else
    let w := jrnWrite s.now (jrnDiscard s.jrn stop) (.restart .mode)
    (jrnStamp s.jrn w.1, w.2)

end Sys2Proof.Machine
end

