-- ==== Sys2Proof/Machine/Prc.lean ====
section
/-! DEFINITION. PRC, the protection controller (chapters 4 and 5): groups, local requests, the wait, the
request order list, arbitration, selectors and bridges, group conditions. -/

namespace Sys2Proof.Machine

/-! ### Ordinals (section 4.2) -/

/-- The request ordinals. -/
def ordIdle : Nat := 0
/-- See `ordIdle`. -/
def ordEcho : Nat := 1
/-- See `ordIdle`. -/
def ordStay : Nat := 2
/-- See `ordIdle`. -/
def ordRestoreWait : Nat := 3
/-- See `ordIdle`. -/
def ordManual : Nat := 4
/-- See `ordIdle`. -/
def ordDegrade : Nat := 5
/-- See `ordIdle`. -/
def ordFail : Nat := 6
/-- See `ordIdle`. -/
def ordWorkW : Nat := 7
/-- See `ordIdle`. -/
def ordForce : Nat := 8
/-- See `ordIdle`. -/
def ordFailP : Nat := 9
/-- See `ordIdle`. -/
def ordHoldP : Nat := 10
/-- See `ordIdle`. -/
def ordLockout : Nat := 11

/-! ### Members -/

/-- The number of a group's working members, N. -/
def Group.n (g : Group) : Nat := g.work.length

/-- The idle monitor record. -/
def Mon.idle : Mon := { timer := none, raised := none, held := false }

/-- The monitor record of a member. -/
def Group.mon (g : Group) (m : Nat) : Mon := if h : m < 7 then g.mons[m] else .idle

/-- Replace the monitor record of a member. -/
def Group.putMon (g : Group) (m : Nat) (x : Mon) : Group :=
  if h : m < 7 then { g with mons := g.mons.set m x } else g

/-- The port of a member: member 0 is the protection port (R61). -/
def Group.portOf (g : Group) (m : Nat) : Option Port := if m = 0 then some g.prot else g.work[m - 1]?

/-- The member a port is (R61). -/
def Group.memberOf (g : Group) (p : Port) : Option Nat :=
  if g.prot = p then some 0 else (g.work.findIdx? (· == p)).map (· + 1)

/-- Whether a port is a member (R61). -/
def Group.has (g : Group) (p : Port) : Bool := (g.memberOf p).isSome

/-- All member numbers of a group. -/
def Group.members (g : Group) : List Nat := List.range (g.n + 1)

/-- The port state PRC and TSEL read: the one PMON last formed and handed on (R20), also where the hand-on has not reached
the reader yet (DESIGN CHOICE, log 63). -/
def portStateNow (s : State) (p : Port) : PortState := s.pmon.ports[p].handed

/-- The state of a member's port. -/
def Group.stateOf (s : State) (g : Group) (m : Nat) : PortState :=
  match g.portOf m with
  | some p => portStateNow s p
  | none => .clear

/-- R66: a state PRC takes into account for a member. -/
def Group.applicable (g : Group) (m : Nat) (st : PortState) : Bool := st.sf || (decide (m ≠ 0) && g.degSwitch && st.sd)

/-! ### Local requests (section 4.2) -/

/-- The member a wait stands for. -/
def Wait.mem : Wait → Nat
  | .restore m _ => m
  | .stay m => m

/-- The ordinal of a wait. -/
def Wait.ord : Wait → Nat
  | .restore _ _ => ordRestoreWait
  | .stay _ => ordStay

/-- The requests of member 0 present at the group: lockout mark, HOLD-P, raised FAIL-P. -/
def Group.protRequests (g : Group) : List Req :=
  (if g.lockout then [⟨ordLockout, 0⟩] else []) ++ (if (g.mon 0).held then [⟨ordHoldP, 0⟩] else []) ++
  (if (g.mon 0).raised = some .fail then [⟨ordFailP, 0⟩] else [])

/-- The requests of working member `m`, highest first. -/
def Group.memberRequests (g : Group) (m : Nat) : List Req :=
  (if g.force = some m then [⟨ordForce, m⟩] else []) ++ (if (g.mon m).held then [⟨ordWorkW, m⟩] else []) ++
  (match (g.mon m).raised with
    | some .fail => [⟨ordFail, m⟩]
    | some .degrade => [⟨ordDegrade, m⟩]
    | none => []) ++
  (if g.manual = some m then [⟨ordManual, m⟩] else []) ++
  (match g.wait with
    | some w => if w.mem = m then [⟨w.ord, m⟩] else []
    | none => [])

/-- The working members, 1 to 6. -/
def workingMembers : List Nat := [1, 2, 3, 4, 5, 6]

/-- Every local request present. -/
def Group.localRequests (g : Group) : List Req := g.protRequests ++ workingMembers.flatMap g.memberRequests

/-- Whether a local request of ordinal above `n` is present. -/
def Group.above (g : Group) (n : Nat) : Bool := g.localRequests.any fun r => decide (n < r.ord)

/-- A member's own request: the highest of its requests; ordinal 0 when it has none. -/
def Group.ownRequest (g : Group) (m : Nat) : Req := (g.memberRequests m).headD ⟨ordIdle, m⟩

/-- R77: the list after a change of member `m`'s requests: it joins at the end, keeps its place, or
leaves. -/
def Group.relist (g : Group) (m : Nat) : Group :=
  if m = 0 then g
  else if (g.memberRequests m).isEmpty then { g with order := g.order.erase m }
  else if g.order.contains m then g
  else { g with order := g.order ++ [m] }

/-- R78: the top local request. -/
def Group.formTop (g : Group) : Req :=
  match g.protRequests with
  | r :: _ => r
  | [] => g.order.foldl (fun best m => let r := g.ownRequest m; if best.ord < r.ord then r else best) ⟨ordIdle, 0⟩

/-! ### Hold-off and the wait (R66 to R69, R75, R76) -/

/-- R76: the wait ends. -/
def Group.endWait (g : Group) : Group :=
  match g.wait with
  | some w => { g with wait := none }.relist w.mem
  | none => g

/-- R76: the wait of member `m` ends, if it has one. -/
def Group.endWaitOf (g : Group) (m : Nat) : Group :=
  match g.wait with
  | some w => if w.mem = m then { g with wait := none } else g
  | none => g

/-- A hold-off in periods. -/
def Group.holdOffLength (g : Group) : Nat := g.holdOff * perMs

/-- A WTR in periods. -/
def Group.wtrLength (g : Group) : Nat := g.wtr * perSecond

/-- R67, R76: a member's hold-off timer runs out, its port at `st`. -/
def Group.holdOffOut (g : Group) (m : Nat) (st : PortState) : Group :=
  let g0 := g.putMon m { g.mon m with timer := none }
  let raise : Option Raised := if st.sf then some .fail else if g.applicable m st then some .degrade else none
  match raise with
  | some r => ((g0.putMon m { g0.mon m with raised := some r }).endWaitOf m).relist m
  | none =>
    match g0.wait with
    | some (.restore w none) => if w = m then { g0 with wait := some (.restore w (some g0.wtrLength)) } else g0
    | _ => g0

/-- R76: an appearance suspends the member's WTR timer. -/
def Group.suspend (g : Group) (m : Nat) : Group :=
  match g.wait with
  | some (.restore w _) => if w = m then { g with wait := some (.restore w none) } else g
  | _ => g

/-- R66: an appearance of an applicable state at a member whose port is at `st`; a hold-off of 0 runs out at
its own start. -/
def Group.appear (g : Group) (m : Nat) (st : PortState) : Group :=
  let x := g.mon m
  if x.raised.isSome || x.timer.isSome then g
  else
    let g' := (g.putMon m { x with timer := some g.holdOffLength }).suspend m
    if g.holdOff = 0 then g'.holdOffOut m st else g'

/-- R75: the wait the group would raise for member `m`. -/
def Group.waitFor (g : Group) (m : Nat) : Wait :=
  if g.revertive then .restore m (some g.wtrLength) else .stay m

/-- R75: the loss of member `m`'s request, which had the ordinal `lost`, against the top local request last
formed. -/
def Group.lose (g : Group) (m lost : Nat) : Group :=
  let w := g.waitFor m
  (if g.top = ⟨lost, m⟩ ∧ g.above w.ord = false then { g with wait := some w } else g).relist m

/-- The ordinal of a raised request of a working member. -/
def Raised.ord : Raised → Nat
  | .fail => ordFail
  | .degrade => ordDegrade

/-- R68: the raised request a port's state keeps up, if any. -/
def Group.follow (g : Group) (m : Nat) (st : PortState) : Option Raised :=
  if st.sf then some .fail else if g.applicable m st then some .degrade else none

/-- R68: a raised request follows its port's new state; a loss is noted as member and ordinal. -/
def Group.followRaised (g : Group) (m : Nat) (st : PortState) : Group × List (Nat × Nat) :=
  let x := g.mon m
  match x.raised with
  | none => (g, [])
  | some r =>
    if x.held then (g, [])
    else
      let r' := g.follow m st
      (g.putMon m { x with raised := r' }, if r' = none ∧ m ≠ 0 then [(m, r.ord)] else [])

/-- Apply noted losses in order (R75). Where requests of several members end in one event, all of them have ended before the
first loss is judged (DESIGN CHOICE, log 54; of work holds, which end together, log 20). -/
def Group.loseAll (g : Group) (ls : List (Nat × Nat)) : Group := ls.foldl (fun g l => g.lose l.1 l.2) g

/-- R66: one port change as an appearance: not applicable before, applicable after, not held. -/
def Group.appearOn (g : Group) (m : Nat) (old new : PortState) : Group :=
  if !(g.mon m).held && !g.applicable m old && g.applicable m new then g.appear m new else g

/-- The member changes a list of port changes brings a group. -/
def Group.memberChanges (g : Group) (cs : List PortChange) : List (Nat × PortState × PortState) :=
  cs.filterMap fun c => (g.memberOf c.port).map fun m => (m, c.old, c.new)

/-- R66, R68: new port states at a group. The requests that follow their ports change first, then the losses
act, then the appearances. Members whose ports change in one event are taken, and so join the list (R77), in the order of
the ports PMON hands, ascending for a card (DESIGN CHOICE, log 44). Each loss is judged with all the requests that the event
ends gone (DESIGN CHOICE, log 54). -/
def Group.takePorts (g : Group) (cs : List (Nat × PortState × PortState)) : Group :=
  let a := cs.foldl
    (fun (x : Group × List (Nat × Nat)) c => let b := x.1.followRaised c.1 c.2.2; (b.1, x.2 ++ b.2)) (g, [])
  -- an appearance needs a member without a raised request before the event
  cs.foldl (fun g' c => if (g.mon c.1).raised.isSome then g' else g'.appearOn c.1 c.2.1 c.2.2) (a.1.loseAll a.2)

/-- R69: a hold's onset at a member. -/
def Group.holdOn (g : Group) (m : Nat) : Group :=
  ((g.putMon m { timer := none, raised := none, held := true }).endWaitOf m).relist m

/-- R69: a hold's release at a member, but for the loss and the appearance it brings. -/
def Group.holdOff0 (g : Group) (m : Nat) : Group := g.putMon m { g.mon m with held := false }

/-- R69: the appearance at a release, if the port's state is applicable. -/
def Group.appearAtRelease (s : State) (g : Group) (m : Nat) : Group :=
  if g.applicable m (g.stateOf s m) then g.appear m (g.stateOf s m) else g

/-- R69: holds set or released on members of a group, together (R46). Members held together raise their requests, and so
join the list (R77), in the order of the ports handed, which is the order's port list (DESIGN CHOICE, log 44). -/
def Group.takeHolds (s : State) (g : Group) (ms : List Nat) (held : Bool) : Group :=
  if held then ms.foldl Group.holdOn g
  else
    let rel := ms.filter fun m => (g.mon m).held
    let g1 := rel.foldl Group.holdOff0 g
    let g2 := g1.loseAll ((rel.filter (· ≠ 0)).map fun m => (m, ordWorkW))
    rel.foldl (Group.appearAtRelease s) g2

/-! ### The far request (R81, R82) -/

/-- R81: whether the signalling on the group's protection port is trusted. -/
def trusted (s : State) (g : Group) : Bool :=
  match s.tcd.decs[g.prot].tag with
  | some t =>
    let e := s.cbc.ports[g.prot].expect
    t.signalling && (decide (e.kind ≠ .tag) || (t.shelf == e.shelf && t.port.toNat == e.port.toNat))
  | none => false

/-- R81: the far fields read from the protection port's record, as TCD holds it (DESIGN CHOICE, log 63). The absent
far fields of a 1P1-UNI group stand at 0 (DESIGN CHOICE, log 65). -/
def Group.readFar (s : State) (g : Group) : Group :=
  if g.kind = .uni then { g with farReq := ⟨0, 0⟩, farBridged := 0, sigLost := false }
  else
    match s.tcd.decs[g.prot].tag with
    | some t =>
      if trusted s g then
        { g with farReq := ⟨t.request.toNat, t.member.toNat⟩, farBridged := t.bridged.toNat, sigLost := false }
      else { g with farReq := ⟨0, 0⟩, farBridged := 0, sigLost := true }
    | none => { g with farReq := ⟨0, 0⟩, farBridged := 0, sigLost := true }

/-- R82: whether a far request's member fits its ordinal. -/
def farFits (n : Nat) (r : Req) : Bool :=
  if r.ord = 0 then decide (r.mem ≤ n)
  else if r.ord ≤ 8 then decide (1 ≤ r.mem ∧ r.mem ≤ n)
  else decide (r.ord ≤ 11 ∧ r.mem = 0)

/-- R82: the far request as the arbitration takes it. -/
def Group.farTaken (g : Group) : Req :=
  if farFits g.n g.farReq ∧ 2 ≤ g.farReq.ord then g.farReq else ⟨ordIdle, 0⟩

/-- R82: the far bridged member as taken. -/
def Group.farBridgedTaken (g : Group) : Nat := if g.farBridged ≤ g.n then g.farBridged else 0

/-- R82: whether the far fields carry a reported fault. -/
def Group.farFaulty (g : Group) : Bool := !farFits g.n g.farReq || decide (g.n < g.farBridged)

/-! ### Arbitration, bridge and selector (R83 to R89) -/

/-- R83: the winning request and its side. -/
def arbitrate (kind : GroupKind) (top far : Req) : Req × Side :=
  if kind = .uni then (top, .localEnd)
  else if top = far then (top, .both)
  else if far.ord < top.ord then (top, .localEnd)
  else if top.ord < far.ord then (far, .farEnd)
  else if top.mem < far.mem then (top, .localEnd)
  else (far, .farEnd)

/-- R83: form the winning request. -/
def Group.formWin (g : Group) : Group :=
  let w := arbitrate g.kind g.top g.farTaken
  { g with win := w.1, side := w.2 }

/-- R73: remove the manual, with its record. -/
def Group.dropManual (gi : GroupIx) (g : Group) (m : Nat) (by_ : Group → Req) : Group × List JBody :=
  let g' := { g with manual := none }.relist m
  (g', [.manualDropped gi m (by_ g')])

/-- R73: a local request of ordinal above MANUAL removes a standing manual. -/
def Group.dropManualLocal (gi : GroupIx) (g : Group) : Group × List JBody :=
  match g.manual with
  | some m => if g.above ordManual then g.dropManual gi m Group.formTop else (g, [])
  | none => (g, [])

/-- R73, R83: a far winning request above MANUAL removes a standing manual; top and winning request are formed
again. -/
def Group.dropManualFar (gi : GroupIx) (g : Group) : Group × List JBody :=
  match g.manual with
  | some m =>
    if g.side = .farEnd ∧ ordManual < g.win.ord then
      let a := g.dropManual gi m (fun _ => g.win)
      ({ a.1 with top := a.1.formTop }.formWin, a.2)
    else (g, [])
  | none => (g, [])

/-- R76: a wait ends when a local request above it is present. -/
def Group.normWait (g : Group) : Group :=
  match g.wait with
  | some w => if g.above w.ord then g.endWait else g
  | none => g

/-- R85, R86: the selector of a 1+1 group; its bridge is permanent. -/
def Group.select11 (g : Group) : Group :=
  { g with bridged := 1, selected := if g.win.mem = 0 ∨ g.win.ord = 0 then 0 else 1, confirm := .idle }

/-- The bridge confirmation timer's length, 200 ms (R88). -/
def confirmLength : Nat := 200 * perMs

/-- R87: the bridge of a 1TN group follows the winning request; a selected member is always the bridged
member. -/
def Group.bridgeMove (g : Group) : Group :=
  let b := if g.win.ord = 0 then 0 else g.win.mem
  if b = g.bridged then g
  else { g with bridged := b, selected := if g.selected = b then g.selected else 0, confirm := .idle }

/-- R88, R89: the selector of a 1TN group judged. -/
def Group.selectN (g : Group) : Group :=
  if g.bridged = 0 then { g with selected := 0, confirm := .idle }
  else if g.sigLost then { g with selected := g.bridged, confirm := .idle }
  else if g.farBridgedTaken = g.bridged then { g with selected := g.bridged, confirm := .idle }
  else
    match g.confirm with
    | .idle => { g with selected := 0, confirm := .running confirmLength }
    | .running _ | .expired => { g with selected := 0 }

/-- R85 to R89. -/
def Group.moveSelector (g : Group) : Group :=
  match g.kind with
  | .uni | .bi => g.select11
  | .oneToN => g.bridgeMove.selectN

/-- R84: the switch fields to send. -/
def Group.sentFields (g : Group) : SwitchFields :=
  if g.kind = .uni then { request := 0, member := 0, bridged := 0 }
  else if g.side = .farEnd ∧ g.win.mem ≠ 0 then { request := ordEcho, member := g.win.mem, bridged := g.bridged }
  else { request := g.top.ord, member := g.top.mem, bridged := g.bridged }

/-! ### Conditions (R93, R94) -/

/-- R93: the protection port is healthy. -/
def Group.healthy (s : State) (g : Group) : Bool := !(portStateNow s g.prot).sf && !(g.mon 0).held

/-- R93: a working member is served. -/
def Group.served (s : State) (g : Group) (m : Nat) : Bool :=
  g.healthy s &&
  (match g.kind with
    | .uni | .bi => g.selected == 1
    | .oneToN =>
      g.selected == m || (g.bridged == m && (match g.confirm with | .running _ => true | .idle | .expired => false)))

/-- R93: a working member is out of service. -/
def Group.outOfService (s : State) (g : Group) (m : Nat) : Bool := (g.stateOf s m).sf || (g.mon m).held

/-- The working members a group has. -/
def Group.workingNumbers (g : Group) : List Nat := workingMembers.filter fun m => decide (m ≤ g.n)

/-- R93: SVCLOSS. -/
def Group.judgeSvcLoss (s : State) (g : Group) : Bool :=
  g.workingNumbers.any fun m => g.outOfService s m && !g.served s m

/-- R93: PROTUNAVAIL. -/
def Group.judgeProtUnavail (s : State) (g : Group) : Bool :=
  (!g.healthy s || g.lockout) && g.workingNumbers.any fun m => (g.stateOf s m).sf || (g.stateOf s m).sd

/-- R93, R94: the conditions judged. -/
def Group.judge (s : State) (g : Group) : Group :=
  { g with
    svcLoss := g.judgeSvcLoss s
    protUnavail := g.judgeProtUnavail s
    sigFail := g.sigLost
    bridgeMis := decide (g.confirm = .expired) }

/-- R125: what a move of the group's conditions hands ALM, in this order (DESIGN CHOICE, log 58). -/
def groupConditions (gi : GroupIx) (old new : Group) : List AlmChange :=
  flagChange .svcLoss gi old.svcLoss new.svcLoss ++ flagChange .protUnavail gi old.protUnavail new.protUnavail ++
  flagChange .sigFail gi old.sigFail new.sigFail ++ flagChange .bridgeMismatch gi old.bridgeMis new.bridgeMis

/-! ### The end of an event at a group -/

/-- The requests settled: the wait and the manual normalised, the top local and the winning request formed,
bridge and selector moved, the conditions judged (R73, R76, R78, R83 to R89, R93, R94). -/
def Group.settle (s : State) (gi : GroupIx) (g : Group) : Group × List JBody :=
  let a := g.normWait.dropManualLocal gi
  let g1 := { a.1 with top := a.1.formTop }.formWin
  let b := g1.dropManualFar gi
  let g2 := b.1.moveSelector
  ({ g2 with sent := g2.sentFields }.judge s, a.2 ++ b.2)

/-- R91: the switch count after an event that found the group at `base`: one change of the selected member at most, from
the one before the event to the one after it, also where the member goes by none within the event (R87, R88; DEDUCED,
log 46). -/
def Group.countSwitch (base g : Group) : Group :=
  if base.selected = g.selected then g else { g with switches := count16 g.switches }

/-- R91, R149: the SWITCH record of an event, from the members before it to those after it (DEDUCED, log 46). -/
def switchRecord (gi : GroupIx) (base g : Group) : List JBody :=
  if base.selected = g.selected ∧ base.bridged = g.bridged then []
  else [.switch gi base.selected g.selected base.bridged g.bridged g.win g.side]

/-- R100: the port a 1+1 group's selector takes traffic from. -/
def Group.tapPort (g : Group) : Option Port :=
  match g.kind with
  | .uni | .bi => if g.selected = 0 then g.work.head? else some g.prot
  | .oneToN => none

/-- The copy ALM keeps of a group. -/
def Group.copy (g : Group) : GroupCopy := { prot := g.prot, work := g.work, selected := g.selected }

/-- A member number for ALM and the journal, 0 being none. -/
def memberOrNone (m : Nat) : Option Nat := if m = 0 then none else some m

/-- PRC during one event. -/
structure PrcWork where
  prc     : Prc
  alm     : List AlmChange
  recs    : List JBody
  taps    : List (GroupIx × Option Port)
  reports : List Port
deriving DecidableEq, Repr

/-- The start of an event. -/
def prcBegin (s : State) : PrcWork := { prc := s.prc, alm := [], recs := [], taps := [], reports := [] }

/-- The end of an event. -/
def prcEnd (w : PrcWork) : Prc × List Msg :=
  (w.prc, (if w.reports.isEmpty then [] else [.tcdReport w.reports]) ++
    (if w.taps.isEmpty then [] else [.tselGroups w.taps]) ++ toAlm w.alm ++ toJrn w.recs)

/-- The event's end at one group that was `base` before it and `g` after its own changes: settled, counted,
recorded and handed on (R78, R91), the selected member before and after the event alone counting (log 46). `fresh` hands
the group on although nothing moved (set-up). In ALM's batch the group's conditions stand before its SWITCH event, and its
MANUAL-DROPPED records before its SWITCH record (DESIGN CHOICE, log 58). -/
def prcSettle (s : State) (w : PrcWork) (gi : GroupIx) (base g : Group) (fresh : Bool) : PrcWork :=
  let a := g.settle s gi
  let g' := base.countSwitch a.1
  let moved := decide (base.selected ≠ g'.selected)
  { w with
    prc := { w.prc with groups := w.prc.groups.set gi (some g') }
    alm := w.alm ++ groupConditions gi base g' ++
      (if moved then [.event .switch gi (memberOrNone base.selected) (memberOrNone g'.selected)] else []) ++
      (if moved || fresh then [.group gi (some g'.copy)] else [])
    recs := w.recs ++ a.2 ++ switchRecord gi base g'
    taps := w.taps ++ (if moved || fresh then [(gi, g'.tapPort)] else []) }

/-- All groups, ascending. -/
def allGroups : List GroupIx := List.finRange 16

/-- One event at a group that `concerns` picks. The groups of one event are taken in ascending number, which orders the
records that PRC hands JRN (DESIGN CHOICE, log 51). -/
def prcEach (s : State) (concerns : Group → Bool) (change : Group → Group) (w : PrcWork) (gi : GroupIx) : PrcWork :=
  match w.prc.groups[gi] with
  | none => w
  | some g => if concerns g then prcSettle s w gi g (change g) false else w

/-- R66, R68: new port states. The SWITCH and MANUAL-DROPPED records, the SWITCH offers and the taps of several groups are
handed on in ascending group number (DESIGN CHOICE, log 51). -/
def prcPorts (s : State) (cs : List PortChange) : Prc × List Msg :=
  prcEnd (allGroups.foldl
    (prcEach s (fun g => !(g.memberChanges cs).isEmpty) (fun g => g.takePorts (g.memberChanges cs))) (prcBegin s))

/-- R69: work holds; the groups in ascending number (DESIGN CHOICE, log 51). -/
def prcHold (s : State) (ports : List Port) (held : Bool) : Prc × List Msg :=
  prcEnd (allGroups.foldl
    (prcEach s (fun g => !(ports.filterMap g.memberOf).isEmpty)
      (fun g => g.takeHolds s (ports.filterMap g.memberOf) held)) (prcBegin s))

/-- R81: whether a group reads its far request from one of the ports. -/
def readsFar (ports : List Port) (g : Group) : Bool := decide (g.kind ≠ .uni) && ports.contains g.prot

/-- R82: the ports a handed-on record brings a report on. A report is made at a hand-on of the record and at no other
moment (DESIGN CHOICE, log 45). -/
def farReports (s : State) (p : Port) : List Port :=
  (allGroups.filterMap fun gi => s.prc.groups[gi]).filterMap fun g =>
    if readsFar [p] g && trusted s g && (g.readFar s).farFaulty then some p else none

/-- R81, R82: a received tag record. -/
def prcTag (s : State) (p : Port) : Prc × List Msg :=
  prcEnd (allGroups.foldl (prcEach s (readsFar [p]) (Group.readFar s)) { prcBegin s with reports := farReports s p })

/-- R81: new cabling expectations: the trust judged again. A faulty record that is trusted from now on brings no report
before its next hand-on (DESIGN CHOICE, log 45). -/
def prcExpect (s : State) (ports : List Port) : Prc × List Msg :=
  prcEnd (allGroups.foldl (prcEach s (readsFar ports) (Group.readFar s)) (prcBegin s))

/-- One event at one group. -/
def prcOne (s : State) (gi : GroupIx) (change : Group → Group) : Prc × List Msg :=
  prcEnd (prcEach s (fun _ => true) change (prcBegin s) gi)

/-! ### Timer events -/

/-- R67: a member's hold-off timer runs out. -/
def prcHoldOff (s : State) (gi : GroupIx) (m : Nat) : Prc × List Msg :=
  prcOne s gi fun g => g.holdOffOut m (g.stateOf s m)

/-- R76: the WTR timer runs out. -/
def prcWtr (s : State) (gi : GroupIx) : Prc × List Msg := prcOne s gi Group.endWait

/-- R88: the bridge confirmation timer runs out. -/
def prcConfirm (s : State) (gi : GroupIx) : Prc × List Msg := prcOne s gi fun g => { g with confirm := .expired }

/-! ### Host commands (R70 to R74) -/

/-- R71: PSLO. -/
def Group.setLockout (g : Group) : Group := { g with lockout := true }

/-- R72: PSFS. -/
def Group.setForce (g : Group) (m : Nat) : Group :=
  match g.force with
  | some old => if old = m then g else ({ g with force := some m }.relist old).relist m
  | none => { g with force := some m }.relist m

/-- R73: PSMS. -/
def Group.setManual (g : Group) (m : Nat) : Group :=
  match g.manual with
  | some old => if old = m then g else ({ g with manual := some m }.relist old).relist m
  | none => { g with manual := some m }.relist m

/-- R74: how many items PSCL removes. -/
def Group.clearCount (g : Group) : Nat :=
  g.lockout.toNat + g.force.isSome.toNat + g.manual.isSome.toNat + g.wait.isSome.toNat

/-- R74: PSCL. -/
def Group.clearCommands (g : Group) : Group :=
  let g' := { g with lockout := false, force := none, manual := none, wait := none }
  workingMembers.foldl Group.relist g'

/-! ### Whether a working member can be taken (R79) -/

/-- R79: the working member of a defined group a port is. -/
def workingOf (prc : Prc) (p : Port) : Option (GroupIx × Group × Nat) :=
  allGroups.findSome? fun gi =>
    match prc.groups[gi] with
    | some g =>
      match g.memberOf p with
      | some m => if m = 0 then none else some (gi, g, m)
      | none => none
    | none => none

/-- R79: whether working member `m` of `g` can be taken by a request that lists `ports`, `earlier` being those
listed before it. -/
def canTake (s : State) (g : Group) (m : Nat) (ports earlier : List Port) : Bool :=
  g.protRequests.isEmpty && !(portStateNow s g.prot).sf && !ports.contains g.prot &&
  (workingMembers.filter (· ≠ m)).all fun k =>
    decide ((g.ownRequest k).ord < ordWorkW) &&
    (match g.portOf k with
      | some p => decide (g.n < k) || !earlier.contains p
      | none => true)

/-- R79: the list position, from 1, of the first listed port that cannot be taken. -/
def firstNotTaken (s : State) (all : List Port) : List Port → List Port → Nat → Option Nat
  | _, [], _ => none
  | earlier, p :: ps, k =>
    match workingOf s.prc p with
    | some (_, g, m) =>
      if canTake s g m all earlier then firstNotTaken s all (earlier ++ [p]) ps (k + 1) else some k
    | none => firstNotTaken s all (earlier ++ [p]) ps (k + 1)

/-! ### Loading, set-up, teardown, adoption (R62 to R65, R96, R97) -/

/-- A protection group entry as loaded, after clamping (R61, R62). -/
structure GroupDef where
  kind      : GroupKind
  prot      : Port
  work      : List Port
  revertive : Bool
  degSwitch : Bool
  holdOff   : Nat
  wtr       : Nat
deriving DecidableEq, Repr

/-- A group set up fresh, before its ports are taken (R63, R85, R86). -/
def GroupDef.fresh (d : GroupDef) : Group :=
  { kind := d.kind, prot := d.prot, work := d.work, revertive := d.revertive, degSwitch := d.degSwitch,
    holdOff := d.holdOff, wtr := d.wtr, lockout := false, force := none, manual := none,
    mons := Vector.replicate 7 .idle, wait := none, order := [], top := ⟨ordIdle, 0⟩, farReq := ⟨0, 0⟩,
    farBridged := 0, sigLost := false, win := ⟨ordIdle, 0⟩, side := .both,
    bridged := if d.kind = .oneToN then 0 else 1, selected := 0, confirm := .idle,
    sent := { request := 0, member := 0, bridged := 0 }, switches := 0, svcLoss := false, protUnavail := false,
    sigFail := false, bridgeMis := false }

/-- The ports of a group, the protection port first. -/
def GroupDef.ports (d : GroupDef) : List Port := d.prot :: d.work

/-- R97: whether the frozen outputs of a working port show it served by the protection port. -/
def frozenServed (frozen : Vector (Option ProtOut) 64) (d : GroupDef) (p : Port) : Bool :=
  match frozen[p] with
  | some o => o.partner == some d.prot && (if d.kind = .oneToN then o.bridge else o.select)
  | none => false

/-- R97: the member adopted: the lowest numbered that qualifies. -/
def adopted (frozen : Vector (Option ProtOut) 64) (d : GroupDef) : Option Nat :=
  (d.work.findIdx? (frozenServed frozen d)).map (· + 1)

/-- R97: whether a port's frozen outputs have its select on. -/
def frozenSelects (frozen : Vector (Option ProtOut) 64) (p : Option Port) : Bool :=
  match p with
  | some p => (match frozen[p] with | some o => o.select | none => false)
  | none => false

/-- R97: a group as it starts over the outputs of its ports. -/
def GroupDef.adopt (d : GroupDef) (frozen : Vector (Option ProtOut) 64) : Group :=
  let g := d.fresh
  match adopted frozen d with
  | none => g
  | some m =>
    let sel := frozenSelects frozen d.work[m - 1]?
    { g with
      bridged := if d.kind = .oneToN then m else 1
      selected := if d.kind = .oneToN then (if sel then m else 0) else 1
      wait := some (g.waitFor m)
      order := [m] }

/-- R97: the frozen mark cleared on the ports named. -/
def thaw (frozen : Vector (Option ProtOut) 64) (ps : List Port) : Vector (Option ProtOut) 64 :=
  ps.foldl (fun f (p : Port) => f.set p none) frozen

/-- R63: a member's port taken as it stands. -/
def Group.takeMember (s : State) (g : Group) (m : Nat) : Group :=
  match g.portOf m with
  | none => g
  | some p =>
    if s.cbc.ports[p].hold.isSome then g.holdOn m
    else if g.applicable m (portStateNow s p) then g.appear m (portStateNow s p)
    else g

/-- R63, R97: set-up. The members' ports are taken in ascending member number, which gives the order in which those with
a request join the list (DESIGN CHOICE, log 44). A faulty record read here brings TCD no report: a report belongs to a
record handed on (R82; DESIGN CHOICE, log 45). -/
def prcSetUp (s : State) (w : PrcWork) (gi : GroupIx) (d : GroupDef) : PrcWork :=
  let base := d.adopt w.prc.frozen
  let w' := { w with prc := { w.prc with frozen := thaw w.prc.frozen d.ports } }
  let g := (base.members.foldl (Group.takeMember s) base).readFar s
  prcSettle s w' gi base g true

/-- R65: teardown. -/
def prcTearDown (w : PrcWork) (gi : GroupIx) (g : Group) : PrcWork :=
  { w with
    prc := { w.prc with groups := w.prc.groups.set gi none }
    alm := w.alm ++
      (if g.svcLoss then [.withdraw .svcLoss gi] else []) ++
      (if g.protUnavail then [.withdraw .protUnavail gi] else []) ++
      (if g.sigFail then [.withdraw .sigFail gi] else []) ++
      (if g.bridgeMis then [.withdraw .bridgeMismatch gi] else []) ++ [.group gi none]
    taps := w.taps ++ [(gi, none)] }

/-- R64: the working members whose timers start because degrade switching is turned on, taken in ascending member number
(DESIGN CHOICE, log 44). -/
def Group.degradeOn (s : State) (g : Group) : Group :=
  g.workingNumbers.foldl
    (fun g' m => if (g'.stateOf s m).sd && !(g'.mon m).held then g'.appear m (g'.stateOf s m) else g') g

/-- R64: the raised DEGRADE requests that end because degrade switching is turned off. Each loss is judged with all of them
gone (DESIGN CHOICE, log 54). -/
def Group.degradeOff (g : Group) : Group :=
  let ms := g.workingNumbers.filter fun m => decide ((g.mon m).raised = some .degrade)
  (ms.foldl (fun g' m => g'.putMon m { g'.mon m with raised := none }) g).loseAll (ms.map fun m => (m, ordDegrade))

/-- R64: the revertive flag as loaded; a change of it changes the wait. -/
def Group.setRevertive (g : Group) (rev : Bool) : Group :=
  if g.revertive = rev then g else
  let g' := { g with revertive := rev }
  match g.wait with
  | some (.restore m _) => if rev then g' else { g' with wait := some (.stay m) }
  | some (.stay m) =>
    if rev then
      { g' with wait := some (.restore m (if (g.mon m).timer.isNone then some g'.wtrLength else none)) }
    else g'
  | none => g'

/-- R64: a change of degrade switching. -/
def Group.setDegrade (s : State) (g : Group) (deg : Bool) : Group :=
  let g' := { g with degSwitch := deg }
  if !g.degSwitch && deg then g'.degradeOn s else if g.degSwitch && !deg then g'.degradeOff else g'

/-- R64: a reload that keeps the kind and the membership. -/
def Group.reload (s : State) (g : Group) (d : GroupDef) : Group :=
  ({ g with holdOff := d.holdOff, wtr := d.wtr }.setRevertive d.revertive).setDegrade s d.degSwitch

/-- R64, R65: whether an entry keeps the defined group. -/
def GroupDef.keeps (d : GroupDef) (g : Group) : Bool :=
  decide (d.kind = g.kind ∧ d.prot = g.prot ∧ d.work = g.work)

/-- R63 to R65: an applied entry; `none` is kind NONE. -/
def prcLoad (s : State) (gi : GroupIx) (d : Option GroupDef) : Prc × List Msg :=
  let w := prcBegin s
  match s.prc.groups[gi], d with
  | none, none => (s.prc, [])
  | none, some d => prcEnd (prcSetUp s w gi d)
  | some g, none => prcEnd (prcTearDown w gi g)
  | some g, some d =>
    if d.keeps g then prcEnd (prcSettle s w gi g (g.reload s d) false)
    else prcEnd (prcSetUp s (prcTearDown w gi g) gi d)

/-- R92: a port's outputs: the frozen ones, else those of the group it is a working member of. -/
def protOut (prc : Prc) (p : Port) : ProtOut :=
  match prc.frozen[p] with
  | some o => o
  | none =>
    match workingOf prc p with
    | some (_, g, m) => { partner := some g.prot, bridge := g.bridged == m, select := g.selected == m }
    | none => { partner := none, bridge := false, select := false }

end Sys2Proof.Machine
end

