-- ==== Sys2Proof/Machine/Tsel.lean ====
section
/-! DEFINITION. TSEL, the timing selector (chapters 6 and 7): taps, activity, availability, windows,
qualification, selection, steering, holdover and output quality. -/

namespace Sys2Proof.Machine

/-! ### Taps, class, availability (R100, R102) -/

/-- R98: the line references are indices 2 to 5. -/
def isLine (r : RefIx) : Bool := decide (2 ≤ r.val)

/-- All references, ascending. -/
def allRefs : List RefIx := List.finRange 6

/-- The group an entry is bound to, if it is defined. -/
def boundGroup (prc : Prc) (e : RefEntry) : Option Group :=
  if e.bindKind = .group then (if h : e.bindNum < 16 then prc.groups[(⟨e.bindNum, h⟩ : GroupIx)] else none) else none

/-- R100: the tap port of a binding. -/
def tapOf (prc : Prc) (e : RefEntry) : Option Port :=
  match e.bindKind with
  | .none => none
  | .port => portOfNat e.bindNum
  | .group => (boundGroup prc e).bind Group.tapPort

/-- R102: a usable class, 1 to 6. -/
def usableClass (c : Nat) : Option Nat := if 1 ≤ c ∧ c ≤ 6 then some c else none

/-- R102: the effective class, by TCD's record as it stands (DESIGN CHOICE, log 63). -/
def effClass (s : State) (x : RefRec) : Option Nat :=
  if x.entry.fromTag then
    match x.tap with
    | some p => (s.tcd.decs[p].tag).bind fun t => usableClass t.cls.toNat
    | none => none
  else some x.entry.fixedCls

/-- R102: the first failing test of a line reference's tap, by PMON's and CBC's records as they stand (DESIGN CHOICE,
log 63). -/
def tapCause (s : State) (tap : Option Port) : Option Cause :=
  match tap with
  | none => some .noTap
  | some p =>
    if (portStateNow s p).sf then some .portFail else if s.cbc.ports[p].hold.isSome then some .held else none

/-- R102: the unavailable cause, none when the reference is available. -/
def causeOf (s : State) (r : RefIx) (x : RefRec) : Option Cause :=
  if !x.active then some .noActivity
  else
    match if isLine r then tapCause s x.tap else none with
    | some c => some c
    | none => if x.entry.fromTag && x.cls.isNone then some .noClass else none

/-- R102, R103, R108: an enabled reference's class and availability judged; a reference not enabled is left. -/
def judgeRef (s : State) (r : RefIx) (x : RefRec) : RefRec :=
  if !x.entry.enable then x
  else
    let x := { x with cls := effClass s x }
    match causeOf s r x with
    | some c =>
      { x with state := .unavailable, cause := some c, window := none, run := 0, refLos := decide (c = .noActivity),
               refOffset := false }
    | none =>
      match x.state with
      | .disabled | .unavailable =>
        { x with state := .measuring, cause := none, window := none, run := 0, refLos := false }
      | .measuring | .qualified | .offsetOut => { x with cause := none, refLos := false }

/-- R100: a reference's tap moves. -/
def moveTap (s : State) (r : RefIx) (tap : Option Port) (x : RefRec) : RefRec :=
  if x.tap = tap then x
  else
    let x1 := { x with tap := tap }
    judgeRef s r { x1 with cls := effClass s x1, window := if x.entry.enable then none else x.window }

/-- R103: a reference becomes DISABLED. -/
def disableRef (x : RefRec) : RefRec :=
  { x with state := .disabled, cause := none, window := none, run := 0, last := none, refLos := false,
           refOffset := false }

/-- R99: whether two entries have the same binding; the number counts with a port or group only. -/
def sameBinding (a b : RefEntry) : Bool :=
  decide (a.bindKind = b.bindKind) && (decide (a.bindKind = .none) || a.bindNum == b.bindNum)

/-- R99: an applied entry at its reference. -/
def loadRef (s : State) (r : RefIx) (e : RefEntry) (x : RefRec) : RefRec :=
  let old := x.entry
  let rebound := !sameBinding old e
  let reclassed := old.fromTag != e.fromTag || old.fixedCls != e.fixedCls
  let x1 := { x with entry := e }
  let x2 := if old.enable && !e.enable then disableRef x1 else x1
  let x3 := if rebound then { x2 with tap := tapOf s.prc e, window := none } else x2
  let x4 := if rebound || reclassed then { x3 with cls := effClass s x3 } else x3
  if !e.enable then x4
  else if rebound then
    judgeRef s r { x4 with state := .disabled, run := 0, last := none, refOffset := false }
  else if !old.enable || reclassed then judgeRef s r x4
  else x4

/-! ### Selection (R112 to R115) -/

/-- R112: whether a reference is eligible. -/
def Tsel.eligible (t : Tsel) (r : RefIx) : Bool :=
  let x := t.refs[r]
  decide (x.state = .qualified) && decide (1 ≤ x.entry.priority ∧ x.entry.priority ≤ 8) && !t.lockout[r] &&
  (x.cls.bind usableClass).isSome

/-- R113: whether a reference ranks before another of higher index. -/
def Tsel.ranksBefore (t : Tsel) (quality : Bool) (a b : RefIx) : Bool :=
  let ca := t.refs[a].cls.getD 0
  let cb := t.refs[b].cls.getD 0
  let pa := t.refs[a].entry.priority
  let pb := t.refs[b].entry.priority
  if quality && ca != cb then decide (ca < cb) else decide (pa ≤ pb)

/-- R113: the ranked choice. -/
def Tsel.ranked (t : Tsel) (quality : Bool) : Option RefIx :=
  (allRefs.filter t.eligible).foldl
    (fun best r =>
      match best with
      | none => some r
      | some b => if t.ranksBefore quality b r then some b else some r)
    none

/-- R113: the reference to be selected. -/
def Tsel.choose (t : Tsel) (quality : Bool) : Option RefIx :=
  match t.force with
  | some f => if t.eligible f then some f else t.ranked quality
  | none => t.ranked quality

/-- R119: the holdover value formed from the history, whatever the timing state that is left: with four values or more,
their mean, also in ACQUIRING entered from LOCKED by a limited update (DESIGN CHOICE, log 47). -/
def Tsel.formHold (t : Tsel) : Int :=
  if 4 ≤ t.history.length then roundNearest t.history.sum t.history.length else t.steering

/-- TSEL during one event: its state, the changes for ALM's batch, the records for JRN. -/
structure TselWork where
  tsel : Tsel
  alm  : List AlmChange
  recs : List JBody
deriving DecidableEq, Repr

/-- The start of an event. -/
def tselBegin (s : State) : TselWork := { tsel := s.tsel, alm := [], recs := [] }

/-- R122: the TIMING record. -/
def timingRecord (t : Tsel) (old : Option RefIx) : JBody :=
  .timing t.state old t.selected t.steering (if t.state = .holdover then t.holdValue else none) t.aged

/-- R115: the timing state, with its holdover value, age and steering timer, after the selected reference
becomes `sel`. -/
def Tsel.enter (t : Tsel) (sel : Option RefIx) : Tsel :=
  match sel with
  | some _ => { t with state := .acquiring, holdValue := none, age := 0, aged := false, steer := none }
  | none =>
    match t.state with
    | .acquiring | .locked =>
      { t with state := .holdover, holdValue := some t.formHold, age := 0, aged := false, steer := some per1024 }
    | .holdover | .freeRun => t

/-- R112, R113, R115: the selection formed again. -/
def reselect (s : State) (w : TselWork) : TselWork :=
  let t := w.tsel
  let sel := t.choose s.rqu.shelf.quality
  if sel = t.selected then w
  else
    let t' := { t.enter sel with selected := sel, history := [], unlimited := 0 }
    { tsel := t'
      alm := w.alm ++ [.event .refSwitch 0 (t.selected.map (·.val)) (sel.map (·.val))]
      recs := w.recs ++ [timingRecord t' t.selected] }

/-! ### Steering (R116 to R119) -/

/-- R116: a steering update toward a target. -/
def Tsel.steerTo (t : Tsel) (slew : Nat) (target : Int) : Tsel :=
  let d := target - t.steering
  let limited := decide (slew < d.natAbs)
  let step := if limited then d.sign * slew else d
  { t with steering := clampInt (-50000) 50000 (t.steering + step), target := some target, limited := limited }

/-- R119: a value joins the history at the newest end; when a 17th joins, the oldest leaves. -/
def joinHistory (h : List Int) (u : Int) : List Int := if h.length < 16 then h ++ [u] else h.drop (h.length - 15) ++ [u]

/-- R117: a steering update in ACQUIRING or LOCKED. A limited update keeps the history (R119 empties it at a change of the
selected reference and at reset alone; DESIGN CHOICE, log 47). -/
def Tsel.follow (t : Tsel) (slew : Nat) (offset : Int) : Tsel :=
  let u := t.steerTo slew offset
  if u.limited then { u with unlimited := 0, state := .acquiring }
  else if t.state = .locked ∨ 1 ≤ t.unlimited then
    { u with unlimited := 2, state := .locked, history := joinHistory u.history u.steering }
  else { u with unlimited := 1 }

/-- R117: a counted window's offset reaches steering. -/
def steerBy (s : State) (r : RefIx) (offset : Int) (w : TselWork) : TselWork :=
  if w.tsel.selected = some r ∧ (w.tsel.state = .acquiring ∨ w.tsel.state = .locked) then
    let t := w.tsel.follow s.rqu.shelf.slew offset
    { w with tsel := t, recs := w.recs ++ (if t.state = w.tsel.state then [] else [timingRecord t t.selected]) }
  else w

/-! ### Output quality, conditions, the end of an event (R121, R122) -/

/-- R121: the output quality class. -/
def Tsel.quality (t : Tsel) (shelf : ShelfRec) : Nat :=
  match t.state with
  | .acquiring | .locked =>
    match t.selected with
    | some r => t.refs[r].cls.getD shelf.freeClass
    | none => shelf.freeClass
  | .holdover => if t.aged then shelf.freeClass else shelf.holdClass
  | .freeRun => shelf.freeClass

/-- R121: the do-not-use ports, a group's protection port first, its working port second (DESIGN CHOICE, log 48). -/
def Tsel.avoid (t : Tsel) (prc : Prc) : List Port :=
  match t.selected with
  | none => []
  | some r =>
    let e := t.refs[r].entry
    match e.bindKind with
    | .none => []
    | .port => (portOfNat e.bindNum).toList
    | .group =>
      match boundGroup prc e with
      | some g => g.prot :: g.work.take 1
      | none => []

/-- R122: FREERUN's test. -/
def Tsel.runsFree (t : Tsel) : Bool :=
  decide (t.state = .freeRun) && allRefs.any fun r => t.refs[r].entry.enable

/-- What a reference's change hands ALM (R108), in this order (DESIGN CHOICE, log 58). -/
def refChanges (old new : Tsel) (r : RefIx) : List AlmChange :=
  flagChange .refLos r old.refs[r].refLos new.refs[r].refLos ++
  flagChange .refOffset r old.refs[r].refOffset new.refs[r].refOffset ++
  (if old.refs[r].tap = new.refs[r].tap then [] else [.tap r new.refs[r].tap])

/-- R121, R122: the outputs and conditions a state of TSEL gives. -/
def Tsel.form (t : Tsel) (s : State) : Tsel :=
  { t with
    outClass := t.quality s.rqu.shelf, doNotUse := t.avoid s.prc, holdover := decide (t.state = .holdover),
    freeRun := t.runsFree }

/-- The end of an event: R121, R122. A HOLDOVER or FREERUN that a change of the selected reference offers or withdraws
(R115, step 3) stands before its REFSWITCH (step 5) in ALM's batch; the references' conditions stand before both (DESIGN
CHOICE, log 58). -/
def tselEnd (s : State) (w : TselWork) : Tsel × List Msg :=
  let t := w.tsel.form s
  (t, toAlm (allRefs.flatMap (refChanges s.tsel t) ++ flagChange .holdover 0 s.tsel.holdover t.holdover ++
    flagChange .freeRun 0 s.tsel.freeRun t.freeRun ++ w.alm) ++ toJrn w.recs)

/-- Change one reference. -/
def changeRef (f : RefIx → RefRec → RefRec) (t : Tsel) (r : RefIx) : Tsel :=
  { t with refs := t.refs.set r (f r t.refs[r]) }

/-- One event at the references named, and the selection it brings. -/
def tselEach (s : State) (rs : List RefIx) (f : RefIx → RefRec → RefRec) : Tsel × List Msg :=
  let w := tselBegin s
  tselEnd s (reselect s { w with tsel := rs.foldl (changeRef f) w.tsel })

/-- The references whose tap is one of the ports. -/
def tappedBy (s : State) (ports : List Port) : List RefIx :=
  allRefs.filter fun r =>
    match s.tsel.refs[r].tap with
    | some p => ports.contains p
    | none => false

/-- R102: port states handed on, or work holds set or released. -/
def tselPorts (s : State) (ports : List Port) : Tsel × List Msg := tselEach s (tappedBy s ports) (judgeRef s)

/-- R102: a received tag record. -/
def tselTag (s : State) (p : Port) : Tsel × List Msg :=
  tselEach s (tappedBy s [p]) fun r x => judgeRef s r { x with cls := effClass s x }

/-- R100: the port a group's selector takes traffic from. -/
def tselGroup (s : State) (g : GroupIx) (tap : Option Port) : Tsel × List Msg :=
  tselEach s
    (allRefs.filter fun r =>
      let e := s.tsel.refs[r].entry
      decide (e.bindKind = .group) && e.bindNum == g.val)
    fun r x => moveTap s r tap x

/-- R99: an applied reference table entry. -/
def tselLoad (s : State) (r : RefIx) (e : RefEntry) : Tsel × List Msg := tselEach s [r] fun r x => loadRef s r e x

/-! ### Edges (R102, R104 to R107) -/

/-- 0.5 ms in ticks of the 160 MHz count clock. -/
def halfMs : Nat := 80000

/-- 0.5 ms in 250 µs periods. -/
def silenceLength : Nat := 2

/-- R104: the edges of a window. -/
def windowEdges : Nat := 8192

/-- R105: the nominal count. -/
def nominalCount : Int := 163840000

/-- R105: the offset of a count, in ppb. -/
def offsetOf (c : Nat) : Int := clampInt (-999999) 999999 (roundNearest ((nominalCount - c) * 3125) 512)

/-- R102: activity lost. -/
def loseActivity (s : State) (r : RefIx) (x : RefRec) : RefRec :=
  judgeRef s r { x with active := false, silence := none, edges := 0 }

/-- R102: an edge as the activity monitor takes it; the eighth timely edge regains activity. -/
def activityEdge (s : State) (r : RefIx) (gap : Nat) (x : RefRec) : RefRec :=
  if x.active then { x with silence := some silenceLength }
  else
    let n := if gap < halfMs then x.edges + 1 else 1
    if 8 ≤ n then judgeRef s r { x with active := true, silence := some silenceLength, edges := 8 }
    else { x with edges := n }

/-- R104: an edge as the measurement takes it: the window after it, and the count of a window it ends. -/
def windowEdge (gap : Nat) (x : RefRec) : RefRec × Option Nat :=
  match x.state with
  | .disabled | .unavailable => (x, none)
  | .measuring | .qualified | .offsetOut =>
    match x.window with
    | none => ({ x with window := some { edges := 0, ticks := 0 } }, none)
    | some w =>
      if windowEdges ≤ w.edges + 1 then ({ x with window := some { edges := 0, ticks := 0 } }, some (w.ticks + gap))
      else ({ x with window := some { edges := w.edges + 1, ticks := w.ticks + gap } }, none)

/-- R107: a counted window's judgement. -/
def judgeWindow (offset : Int) (x : RefRec) : RefRec :=
  let x := { x with last := some offset }
  let within : Bool := decide (offset.natAbs ≤ x.entry.accept)
  match x.state with
  | .measuring =>
    if within then
      { x with run := x.run + 1, state := if x.entry.stab ≤ x.run + 1 then .qualified else .measuring }
    else { x with run := 0 }
  | .qualified => if within then x else { x with state := .offsetOut, run := 0, refOffset := true }
  | .offsetOut =>
    if offset.natAbs ≤ x.entry.accept - x.entry.hyst then { x with state := .measuring, run := 0, refOffset := false }
    else x
  | .disabled | .unavailable => x

/-- R102: an edge so late that activity is lost before it. -/
def edgeIsLate (gap : Nat) (x : RefRec) : Bool := x.active && decide (halfMs ≤ gap)

/-- R102, R104 to R107, R112, R117: a rising edge at a reference. The state change of a window it completes
reaches selection, then its offset reaches steering. -/
def tselEdge (s : State) (r : RefIx) (gap : Nat) : Tsel × List Msg :=
  let w := tselBegin s
  let x0 := s.tsel.refs[r]
  let x1 := if edgeIsLate gap x0 then loseActivity s r x0 else x0
  let m := windowEdge gap x1
  let x2 := activityEdge s r gap m.1
  let offset : Option Int := if s.tsel.warmUp.isSome then none else m.2.map offsetOf
  let x3 := match offset with | some o => judgeWindow o x2 | none => x2
  let w1 := reselect s { w with tsel := { w.tsel with refs := w.tsel.refs.set r x3 } }
  tselEnd s (match offset with | some o => steerBy s r o w1 | none => w1)

/-- R102: 0.5 ms pass without an edge. -/
def tselLost (s : State) (r : RefIx) : Tsel × List Msg :=
  if s.tsel.refs[r].active then tselEach s [r] (loseActivity s) else (s.tsel, [])

/-! ### Timers, force and lockout, the shelf record -/

/-- R118: the steering timer runs out. -/
def tselSteer (s : State) : Tsel × List Msg :=
  let t := s.tsel
  if t.steer.isNone then (t, [])
  else
    match t.state with
    | .acquiring | .locked => (t, [])
    | .holdover =>
      tselEnd s { tselBegin s with
        tsel := { t.steerTo s.rqu.shelf.slew (t.holdValue.getD t.steering) with steer := some per1024 } }
    | .freeRun =>
      tselEnd s { tselBegin s with tsel := { t.steerTo s.rqu.shelf.slew s.rqu.shelf.trim with steer := some per1024 } }

/-- R120: a holdover limit in periods. -/
def holdLimitPeriods (h : Nat) : Nat := h * 3600 * perSecond

/-- R120: whether the holdover age has reached the limit and the flag is not set. An age kept over a warm restart at or
above the default limit, the flag clear, makes HOLDOVER_AGED due as soon as the H3 is in READY (DESIGN CHOICE, log 49). -/
def Tsel.agedNow (t : Tsel) (limit : Nat) : Bool :=
  decide (t.state = .holdover) && !t.aged && decide (holdLimitPeriods limit ≤ t.age)

/-- R120: the aged flag set, with its record. -/
def setAged (w : TselWork) : TselWork :=
  let t := { w.tsel with aged := true }
  { w with tsel := t, recs := w.recs ++ [timingRecord t t.selected] }

/-- R120: the holdover age reaches the limit. -/
def tselAged (s : State) : Tsel × List Msg :=
  if s.tsel.agedNow s.rqu.shelf.holdLimit then tselEnd s (setAged (tselBegin s)) else (s.tsel, [])

/-- R106: the warm-up ends. -/
def tselWarm (s : State) : Tsel × List Msg := ({ s.tsel with warmUp := none }, [])

/-- R106: the warm-up's length in periods. -/
def warmUpLength (w : Nat) : Nat := w * per1024

/-- R106: the warm-up after its count changes. -/
def rewarm (old : ShelfRec) (s : State) : Option Nat :=
  if s.tsel.warmUp.isNone ∨ old.warmUp = s.rqu.shelf.warmUp then s.tsel.warmUp
  else if warmUpLength s.rqu.shelf.warmUp ≤ s.start.periods then none
  else some (warmUpLength s.rqu.shelf.warmUp - s.start.periods)

/-- R106, R111, R120: a shelf record load. -/
def tselShelf (s : State) (old : ShelfRec) : Tsel × List Msg :=
  let w := tselBegin s
  let w1 := reselect s { w with tsel := { w.tsel with warmUp := rewarm old s } }
  tselEnd s (if w1.tsel.agedNow s.rqu.shelf.holdLimit then setAged w1 else w1)

/-- R114: TMLK. -/
def tselLock (s : State) (r : RefIx) : Tsel × List Msg :=
  let w := tselBegin s
  tselEnd s (reselect s { w with tsel := { w.tsel with lockout := w.tsel.lockout.set r true } })

/-- R114: TMFS. -/
def tselForce (s : State) (r : RefIx) : Tsel × List Msg :=
  let w := tselBegin s
  tselEnd s (reselect s { w with tsel := { w.tsel with force := some r } })

/-- R114: how many items TMCL removes. -/
def Tsel.clearCount (t : Tsel) : Nat := t.force.isSome.toNat + (allRefs.filter fun r => t.lockout[r]).length

/-- R114: TMCL. -/
def tselClear (s : State) : Tsel × List Msg :=
  let w := tselBegin s
  tselEnd s (reselect s { w with tsel := { w.tsel with force := none, lockout := Vector.replicate 6 false } })

/-- R106, R124: TSEL as the H3 enters READY: the warm-up after a cold reset, the steering timer, the conditions. The state
a warm restart has left brings no TIMING record (DESIGN CHOICE, log 60). -/
def tselReady (s : State) : Tsel × List Msg :=
  let w := tselBegin s
  let t := { w.tsel with
    warmUp := if s.start.cold then some (warmUpLength s.rqu.shelf.warmUp) else none
    steer := some per1024 }
  tselEnd s { w with tsel := t }

/-- R124: TSEL after a warm restart. The change of timing state and of selected reference writes no TIMING record and offers
no REFSWITCH (DESIGN CHOICE, log 60). -/
def Tsel.warm (t : Tsel) (shelf : ShelfRec) : Tsel :=
  let base := { Tsel.reset with steering := t.steering }
  let t' :=
    match t.state with
    | .freeRun => base
    | .acquiring | .locked => { base with state := .holdover, holdValue := some t.steering }
    | .holdover => { base with state := .holdover, holdValue := some t.steering, age := t.age, aged := t.aged }
  { t' with outClass := t'.quality shelf }

end Sys2Proof.Machine
end

