-- ==== Sys2Proof/Machine/Mirror.lean ====
section
/-! DEFINITION. The regions of the shared page memory that the H3 owns (R154), as views of the blocks'
state in the formats of section 10.5 (log 26), and the generation words (R157). -/

namespace Sys2Proof.Machine

/-! ### Numbers of the formats -/

/-- A flag as a number, at a bit position. -/
def flagAt (k : Nat) (b : Bool) : Nat := if b then 2 ^ k else 0

/-- A signed 16-bit word, 0x8000 absent. -/
def power16 (x : Option Int) : List Byte :=
  match x with
  | some v => bytes16 (twos 16 v)
  | none => [0x80, 0x00]

/-- A signed 32-bit value, 0x80000000 absent. -/
def value32 (x : Option Int) : List Byte :=
  match x with
  | some v => bytes32 (twos 32 v)
  | none => [0x80, 0x00, 0x00, 0x00]

/-- A number or a filler when absent. -/
def orElse (x : Option Nat) (filler : Nat) : Byte := byte8 (x.getD filler)

/-- Section 10.5: roles. -/
def Role.code : Role → Nat
  | .spare => 0 | .line => 1 | .trib => 2

/-- Section 10.5: port states. -/
def PortState.code : PortState → Nat
  | .clear => 0 | .degrade => 1 | .fail => 2 | .dark => 3 | .monLost => 4 | .equipOut => 5

/-- Section 10.5: card states. -/
def CardState.code : CardState → Nat
  | .unknown => 0 | .inService => 1 | .out => 2 | .faulty => 3

/-- Section 10.5: cabling states. -/
def CabState.code : CabState → Nat
  | .unchecked => 0 | .noLight => 1 | .awaiting => 2 | .matched => 3 | .mismatch => 4 | .untagged => 5
  | .litUnexpected => 6 | .held => 7

/-- Section 10.5: kinds of expectation. -/
def ExpKind.code : ExpKind → Nat
  | .any => 0 | .tag => 1 | .dark => 2

/-- Section 10.5: group kinds of defined groups. -/
def GroupKind.code : GroupKind → Nat
  | .uni => 1 | .bi => 2 | .oneToN => 3

/-- Section 10.5: winning sides. -/
def Side.code : Side → Nat
  | .localEnd => 0 | .farEnd => 1 | .both => 2

/-- Section 10.5: timing states. -/
def TimingState.code : TimingState → Nat
  | .freeRun => 0 | .acquiring => 1 | .locked => 2 | .holdover => 3

/-- Section 10.5: reference states. -/
def RefState.code : RefState → Nat
  | .disabled => 0 | .unavailable => 1 | .measuring => 2 | .qualified => 3 | .offsetOut => 4

/-- Section 10.5: unavailable causes, 0 absent. -/
def causeCode : Option Cause → Nat
  | none => 0 | some .noActivity => 1 | some .noTap => 2 | some .portFail => 3 | some .held => 4 | some .noClass => 5

/-- Section 10.5: binding kinds. -/
def BindKind.code : BindKind → Nat
  | .none => 0 | .port => 1 | .group => 2

/-- Section 10.5 and 11.1: severities. -/
def Severity.code : Severity → Nat
  | .crit => 1 | .maj => 2 | .min => 3 | .event => 4 | .off => 5

/-- Section 10.5: contact roles. -/
def ContactRole.code : ContactRole → Nat
  | .none => 0 | .aco => 1 | .frame => 2 | .generic => 3

/-- Section 10.5: reasons, in the order HOST, FRAME, EXPIRED. -/
def reasonCode : Option Reason → Nat
  | some .frame => 1
  | some .expired => 2
  | some .host | none => 0

/-- Section 10.5: the state and reason code of a work order; 0 FREE. -/
def orderCode (st : Option OrderState) (r : Option Reason) : Nat :=
  match st with
  | none => 0
  | some .opened => 1
  | some .verifying => 2 + reasonCode r
  | some .closedGood => 5 + reasonCode r
  | some .closedFault => 8 + reasonCode r
  | some .cancelled => 11 + reasonCode r

/-- Section 10.5: item outcomes. -/
def ItemOutcome.code : ItemOutcome → Nat
  | .pending => 0 | .ok => 1 | .failed => 2

/-- Section 10.5: object kinds. -/
def CondType.objectKind (t : CondType) : Nat :=
  if t.isPort then 0
  else if t.isCard then 1
  else
    match t with
    | .svcLoss | .protUnavail | .sigFail | .bridgeMismatch | .switch => 2
    | .refLos | .refOffset => 3
    | .workOverrun | .workFault => 5
    | .contact => 6
    | _ => 4

/-! ### Port mirror -/

/-- R101: a port's timing tap outputs, LR1 at bit 0. -/
def tapsOf (t : Tsel) (p : Port) : BitVec 4 :=
  BitVec.ofNat 4 (bitsNat ([(2 : RefIx), 3, 4, 5].map fun r => decide (t.refs[r].tap = some p)))

/-- R22: PMON's flags, bits 0 to 8 of the flags word. -/
def pmonFlags (s : State) (p : Port) : List Bool :=
  let r := s.pmon.ports[p]
  if s.populated p then
    [true, r.overRange, r.smoothed.isNone, r.cal.isSome, r.los, r.fail, r.degrade, r.overload, r.monLost]
  else List.replicate 9 false

/-- R22: PMON's part of a port mirror entry. -/
def pmonPart (s : State) (p : Port) : List Nat × List Byte :=
  let r := s.pmon.ports[p]
  if s.populated p then
    ([bitsNat (pmonFlags s p), r.role.code, r.profile.val, r.handed.code, s.pmon.cards[cardOf p].accepted.code],
      bytes16 (twos 16 r.power) ++ power16 r.smoothed ++ power16 r.baseline ++ bytes16 r.spikes ++ bytes16 r.missed)
  else ([0, 0, 0, 0, 0], [0, 0] ++ power16 none ++ power16 none ++ [0, 0, 0, 0])

/-- The decoder state's code. -/
def DecState.code : DecState → Nat
  | .hunt => 0 | .candidate _ => 1 | .locked _ _ => 2

/-- R33: TCD's part of a port mirror entry: FE_LOS, TEST, decoder state, kind, port, class, request, bridged,
member, then shelf and counts. -/
def tcdPart (s : State) (p : Port) : List Nat × List Byte :=
  let d := s.tcd.decs[p]
  let counts := bytes16 d.glitch ++ bytes16 d.change ++ bytes16 d.badSig
  match d.tag with
  | some t =>
    ([t.feLos.toNat, t.test.toNat, d.st.code, t.signalling.toNat, t.port.toNat, t.cls.toNat, t.request.toNat,
      t.bridged.toNat, t.member.toNat], bytes16 t.shelf.toNat ++ counts)
  | none => ([0, 0, d.st.code, 0, 0, 0, 0, 0, 0], [0, 0] ++ counts)

/-- R45: CBC's part of a port mirror entry: held, tag wait elapsed, cabling state, kind, expected port, holding
entry, then expected shelf. The expected port of an ANY or DARK expectation may be above 63 (log 14): its low six bits are
shown (DESIGN CHOICE, log 48). -/
def cbcPart (s : State) (p : Port) : List Nat × List Byte :=
  let r := s.cbc.ports[p]
  ([r.hold.isSome.toNat, r.tagWait.isNone.toNat, r.state.code, r.expect.kind.code, r.expect.port.toNat % 64,
    (r.hold.map (·.val)).getD 0], bytes16 r.expect.shelf.toNat)

/-- R92: PRC's part of a port mirror entry: frozen, select, bridge, partner present, partner port. -/
def prcPart (s : State) (p : Port) : List Nat × List Byte :=
  let o := protOut s.prc p
  ([s.prc.frozen[p].isSome.toNat, o.select.toNat, o.bridge.toNat, o.partner.isSome.toNat, (o.partner.map (·.val)).getD 0], [])

/-- R101: TSEL's part of a port mirror entry. -/
def tselPart (s : State) (p : Port) : List Nat × List Byte := ([(tapsOf s.tsel p).toNat], [])

/-- Section 10.5: a port mirror entry, 32 bytes. -/
def portEntry (s : State) (p : Port) : List Byte :=
  let a := pmonPart s p
  let b := tcdPart s p
  let c := cbcPart s p
  let d := prcPart s p
  let n (l : List Nat) (k : Nat) : Nat := l.getD k 0
  let flags := n a.1 0 + n c.1 0 * 512 + n c.1 1 * 1024 + n d.1 0 * 2048 + n d.1 1 * 4096 + n d.1 2 * 8192 +
    n b.1 0 * 16384 + n b.1 1 * 32768
  bytes16 s.gens.ports[p].toNat ++ bytes16 flags ++
  [byte8 (n a.1 1 * 64 + n a.1 2 * 8 + n a.1 3), byte8 (n a.1 4 * 64 + n c.1 2 * 8 + n c.1 3)] ++ a.2 ++ c.2 ++
  [byte8 (n b.1 2 * 64 + n c.1 4), byte8 (n b.1 3 * 64 + n b.1 4)] ++ b.2.take 2 ++
  [byte8 (n b.1 5 * 16 + n b.1 6), byte8 (n b.1 7 * 8 + n b.1 8), byte8 (n d.1 3 * 64 + n d.1 4),
    byte8 (n (tselPart s p).1 0 * 16 + n c.1 5)] ++ b.2.drop 2

/-! ### Group mirror (R95) -/

/-- R95: the state summary. -/
def Group.summary (g : Group) : Nat :=
  if g.top.ord = ordLockout then 3
  else if g.top.ord = ordHoldP then 4
  else if g.win.ord = ordRestoreWait ∨ g.win.ord = ordStay then 2
  else if g.selected ≠ 0 ∨ (g.kind = .oneToN ∧ g.bridged ≠ 0) then 1
  else 0

/-- The confirmation's code. -/
def Confirm.code : Confirm → Nat
  | .idle => 0 | .running _ => 1 | .expired => 2

/-- R95: the WTR remaining, in seconds rounded up. -/
def Group.wtrLeft (g : Group) : Option Nat :=
  match g.wait with
  | some (.restore _ (some r)) => some (secondsUp r)
  | _ => none

/-- The working port bytes, 0xFF for none. -/
def workBytes (work : List Port) : List Byte := (List.range 6).map fun k => orElse (work[k]?.map (·.val)) 0xFF

/-- R95: a group mirror entry but for its generation word, 30 bytes. The places of the request order list beyond its length
show 0 (DESIGN CHOICE, log 48). Of a 1P1-UNI group the far fields are absent: the mark at 0x11 is set, and the low bits there
and the far bridged bits at 0x12, which have no code for it, show 0 (DESIGN CHOICE, log 65); the group's own `farBridged` is 0,
as `Group.readFar` leaves it. -/
def groupPart (prc : Prc) (gi : GroupIx) : List Byte :=
  match prc.groups[gi] with
  | none => [0, 0] ++ workBytes [] ++ [0, 0, 0, 0, 0, 0, 0, 0x80, 0, 0, 0, 0, 0, 0, 0xFF, 0xFF, 0, 0, 0, 0, 0, 0]
  | some g =>
    let m (k : Nat) : Nat := g.order.getD k 0
    [byte8 (g.confirm.code * 64 + flagAt 5 g.sigLost + flagAt 4 g.lockout + flagAt 3 g.degSwitch + flagAt 2 g.revertive +
      g.kind.code), byte8 g.prot.val] ++ workBytes g.work ++ bytes16 g.holdOff ++ bytes16 g.wtr ++
    [byte8 (g.side.code * 8 + g.summary), byte8 (g.top.mem * 16 + g.top.ord), byte8 (g.win.mem * 16 + g.win.ord),
      if g.kind = .uni then 0x80 else byte8 (g.farReq.mem * 16 + g.farReq.ord), byte8 (g.bridged * 8 + g.farBridged),
      byte8 (g.force.getD 0 * 8 + g.selected), byte8 (g.order.length * 16 + g.manual.getD 0),
      byte8 (m 0 * 16 + m 1), byte8 (m 2 * 16 + m 3), byte8 (m 4 * 16 + m 5)] ++ bytes16 (g.wtrLeft.getD 0xFFFF) ++
    bytes16 (flagAt 0 g.svcLoss + flagAt 1 g.protUnavail + flagAt 2 g.sigFail + flagAt 3 g.bridgeMis) ++
    bytes16 g.switches ++ [0, 0]

/-! ### Timing mirror (R109, R123) -/

/-- R120, R123: the holdover age shown: whole seconds up to 72 h, 0 outside HOLDOVER. -/
def Tsel.ageSeconds (t : Tsel) : Nat := if t.state = .holdover then min (t.age / perSecond) 259200 else 0

/-- R123: the shelf part of the timing mirror but for its generation word, 94 bytes. The history's places beyond its length
show 0 (DESIGN CHOICE, log 48). -/
def timingPart (t : Tsel) (c : ShelfRec) : List Byte :=
  [byte8 (flagAt 7 t.warmUp.isSome + t.unlimited * 32 + flagAt 4 t.limited + flagAt 3 t.aged + flagAt 2 c.quality +
    t.state.code), orElse (t.selected.map (·.val)) 0xFF, orElse (t.force.map (·.val)) 0xFF,
    byte8 (flagAt 7 t.freeRun + flagAt 6 t.holdover + bitsNat (allRefs.map fun r => t.lockout[r]))] ++
  bytes16 c.slew ++ bytes16 (twos 16 c.trim) ++ [byte8 c.holdLimit, byte8 (c.freeClass * 16 + c.holdClass)] ++
  bytes32 (twos 32 t.steering) ++ value32 t.target ++
  value32 (if t.state = .holdover then t.holdValue else none) ++ bytes32 t.ageSeconds ++
  [byte8 t.outClass, byte8 t.history.length, orElse (t.doNotUse[0]?.map (·.val)) 0xFF,
    orElse (t.doNotUse[1]?.map (·.val)) 0xFF] ++
  (List.range 16).flatMap fun k => bytes32 (twos 32 (t.history.getD k 0))

/-- R109: a reference part of the timing mirror but for its generation word, 22 bytes. A fixed class above 15, which is kept
as written under FROM-TAG (log 14), shows its low four bits (DESIGN CHOICE, log 48). -/
def refPart (x : RefRec) : List Byte :=
  [byte8 (x.state.code * 32 + flagAt 4 x.refOffset + flagAt 3 x.refLos + flagAt 2 x.active + flagAt 1 x.entry.fromTag +
    flagAt 0 x.entry.enable), byte8 (x.entry.fixedCls * 16 + x.entry.priority),
    byte8 (x.cls.getD 0 * 16 + causeCode x.cause), byte8 x.run, byte8 x.entry.bindKind.code, byte8 x.entry.bindNum,
    orElse (x.tap.map (·.val)) 0xFF, byte8 x.entry.stab] ++ bytes16 x.entry.accept ++ bytes16 x.entry.hyst ++
  value32 x.last ++ [0, 0, 0, 0, 0, 0]

/-- Section 10.5: the timing mirror. -/
def timingBytes (s : State) : List Byte :=
  bytes16 s.gens.timing.toNat ++ timingPart s.tsel s.rqu.shelf ++
  allRefs.flatMap fun r => bytes16 s.gens.refs[r].toNat ++ refPart s.tsel.refs[r]

/-! ### Work order mirror (R59) -/

/-- Section 10.5: an item. Of an expected port above 63, which an ANY or DARK expectation may have (log 14), the low six
bits are shown (DESIGN CHOICE, log 48). -/
def itemBytes (x : Item) : List Byte :=
  let prevKind := (x.prev.map (·.kind.code)).getD 3
  let prevPort := (x.prev.map (·.port.toNat % 64)).getD 0
  let prevShelf := (x.prev.map (·.shelf.toNat)).getD 0
  [byte8 (x.outcome.code * 64 + x.port.val), byte8 (x.expect.port.toNat % 64 * 4 + x.expect.kind.code)] ++
  bytes16 x.expect.shelf.toNat ++ [byte8 (prevPort * 4 + prevKind)] ++ bytes16 prevShelf

/-- R59: the seconds left on an order's timer. -/
def orderLeft (o : Option Order) : Nat :=
  match o with
  | some o => (o.timer.map secondsUp).getD 0x7FFF
  | none => 0x7FFF

/-- R59: a work order mirror entry but for its generation word, 62 bytes. -/
def orderPart (o : Option Order) : List Byte :=
  let items := (o.map (·.items)).getD []
  let fs := (o.bind (·.frameSection)).map (·.val)
  let win := (o.map (·.window)).getD 0 * 32768 + orderLeft o
  bytes16 ((o.map (·.number)).getD 0) ++
  [byte8 (fs.getD 15 * 16 + orderCode (o.map (·.state)) (o.bind (·.reason)))] ++ [byte8 (win / 65536)] ++ bytes16 win ++
  (List.range 8).flatMap fun k => match items[k]? with | some x => itemBytes x | none => [0xC0, 0, 0, 0, 3, 0, 0]

/-! ### Alarm table and journal (R131, R148) -/

/-- Section 10.5: an alarm entry, 16 bytes. -/
def alarmBytes (e : Entry) : List Byte :=
  bytes16 e.gen.toNat ++
  match e.alarm with
  | none => List.replicate 14 0
  | some x =>
    let st := match x.state with | .pending _ => 1 | .active => 2 | .clearing _ => 3
    [byte8 (flagAt 7 x.activeTime.isSome + st * 16 + x.type.objectKind), byte8 x.obj, byte8 x.type.index.val,
      byte8 (flagAt 4 x.audible + flagAt 3 x.nsa + flagAt 2 x.ack + x.severity.code)] ++ bytes32 x.raiseTime ++
    bytes32 (x.activeTime.getD 0) ++ [0, 0]

/-- Section 10.5: a body's object kind, object index, record type and code bytes. -/
def bodyBytes : JBody → Nat × Nat × Nat × List Byte
  | .alarmOn e t o sv nsa => (t.objectKind, o, 1, [byte8 e, byte8 t.index.val, byte8 sv.code, byte8 nsa.toNat])
  | .alarmOff e t o sv r =>
    let rc := match r with | .cleared => 0 | .suppressed => 1 | .profile => 2 | .dropped => 3
    (t.objectKind, o, 2, [byte8 e, byte8 t.index.val, byte8 sv.code, byte8 rc])
  | .severity e t o a b nsa =>
    (t.objectKind, o, 3, [byte8 e, byte8 t.index.val, byte8 a.code, byte8 b.code, byte8 nsa.toNat])
  | .event t o none => (t.objectKind, o, 4, [byte8 t.index.val])
  | .event t o (some d) => (t.objectKind, o, 4, [byte8 t.index.val, orElse d.1 0xFF, orElse d.2 0xFF])
  | .switch g a b c d w sd =>
    (2, g.val, 5, [byte8 a, byte8 b, byte8 c, byte8 d, byte8 w.ord, byte8 w.mem, byte8 sd.code])
  | .timing st old new u h aged =>
    let r (x : Option RefIx) : Nat := (x.map (·.val)).getD 7
    let b24 (x : Int) : List Byte := [byte8 (twos 24 x / 65536), byte8 (twos 24 x / 256), byte8 (twos 24 x)]
    (4, 0, 6, [byte8 (st.code * 64 + r new * 8 + r old), byte8 aged.toNat] ++ b24 u ++ b24 (h.getD 0))
  | .work i n st r f => (5, i.val, 7, bytes16 n ++ [byte8 (orderCode st r), byte8 f])
  | .contact i act role f => (6, i.val, 8, [byte8 act.toNat, byte8 role.code, byte8 f])
  | .restart c => (4, 0, 9, [byte8 (match c with | .cold => 0 | .warm => 1 | .mode => 2)])
  | .lost n => (4, 0, 10, bytes16 n)
  | .manualDropped g m by_ => (2, g.val, 11, [byte8 m, byte8 by_.ord, byte8 by_.mem])

/-- Section 10.5: a journal record, 16 bytes. -/
def recordBytes (r : JRecord) : List Byte :=
  match r.body with
  | none => List.replicate 16 0
  | some b =>
    let x := bodyBytes b
    bytes16 r.seq ++ [byte8 (x.1 * 32 + x.2.2.1), byte8 x.2.1] ++ (x.2.2.2 ++ List.replicate 8 0).take 8 ++ bytes32 r.time

/-! ### Shelf header and registers -/

/-- R158: IDENT. -/
def identWord : Word := wordOf 0xA3 Config.revision

/-- The two bits of a contact input's stable level. -/
def levelCode : Option Bool → Nat
  | none => 0
  | some false => 1
  | some true => 2

/-- The contact levels word, CI0 lowest. -/
def levelsWord (ciu : Vector ContactIn 8) : Nat :=
  ((List.finRange 8).map fun i => levelCode (ciu[i].stable) * 4 ^ i.val).sum

/-- Section 10.5: the shelf header. -/
def headerBytes (s : State) : List Byte :=
  bytes16 identWord.toNat ++ [byte8 s.straps.shid.toNat, byte8 (flagAt 1 s.straps.parallel + flagAt 0 s.straps.pop64)] ++
  bytes16 s.start.ready.toNat ++ bytes16 s.rqu.shelf.identity.toNat ++ [byte8 (flagAt 7 s.rqu.loaded), 0] ++
  bytes16 s.hpi.foreign ++ bytes16 s.alm.overflows ++
  bytes16 (flagAt 0 s.alm.outputs.crit + flagAt 1 s.alm.outputs.maj + flagAt 2 s.alm.outputs.min +
    flagAt 3 s.alm.outputs.audible + flagAt 4 s.alm.overflow) ++
  bytes16 s.jrn.gen.toNat ++ bytes16 s.jrn.newestPos ++ bytes16 s.jrn.newestSeq ++ bytes16 s.jrn.unrel ++
  bytes16 s.jrn.lost ++ bytes16 s.jrn.badRel ++ bytes16 (flagAt 0 s.jrn.stop + flagAt 1 s.jrn.full) ++
  bytes16 (levelsWord s.ciu) ++ List.replicate 32 0 ++
  allOrders.flatMap (fun i => bytes32 (((s.cbc.orders[i]).map (·.openedAt)).getD 0)) ++ List.replicate 128 0

/-- R158: a register word, at offset 0, 2, .. 14 from 0x7FF0. -/
def registerWord (s : State) (off : Nat) : Word :=
  if off = 0 then identWord
  else if off = 2 then (if s.start.ready then 1 else 0)
  else if off = 4 then s.hpi.attn.setWidth 16
  else if off = 8 then s.hpi.mask.setWidth 16
  else 0

/-- R154: the regions. -/
inductive Region
  | header | slot (k : SlotIx) | staging | port (p : Port) | group (g : GroupIx) | timing | order (i : OrderIx)
  | alarm (i : EntryIx) | journal (n : Nat) | release | unassigned | register
deriving DecidableEq, Repr

/-- R154: the region of a byte address. -/
def regionOf (a : Nat) : Region :=
  if a < 0x100 then .header
  else if a < 0x300 then .slot (Fin.ofNat 8 ((a - 0x100) / 64))
  else if a < 0x1300 then .staging
  else if a < 0x1B00 then .port (Fin.ofNat 64 ((a - 0x1300) / 32))
  else if a < 0x1D00 then .group (Fin.ofNat 16 ((a - 0x1B00) / 32))
  else if a < 0x1E00 then .timing
  else if a < 0x2200 then .order (Fin.ofNat 16 ((a - 0x1E00) / 64))
  else if a < 0x2A00 then .alarm (Fin.ofNat 128 ((a - 0x2200) / 16))
  else if a < 0x3A00 then .journal ((a - 0x2A00) / 16)
  else if a < 0x3A02 then .release
  else if a < 0x7FF0 then .unassigned
  else .register

/-- R154: the byte the host reads at an address in READY, but for the registers. -/
def regionByte (s : State) (a : Nat) : Byte :=
  match regionOf a with
  | .header => (headerBytes s).getD a 0
  | .slot _ | .staging | .release => memRead s.mem a
  | .port p => (portEntry s p).getD ((a - 0x1300) % 32) 0
  | .group g => (bytes16 s.gens.groups[g].toNat ++ groupPart s.prc g).getD ((a - 0x1B00) % 32) 0
  | .timing => (timingBytes s).getD (a - 0x1D00) 0
  | .order i => (bytes16 s.gens.orders[i].toNat ++ orderPart s.cbc.orders[i]).getD ((a - 0x1E00) % 64) 0
  | .alarm i => (alarmBytes s.alm.entries[i]).getD ((a - 0x2200) % 16) 0
  | .journal n => (recordBytes (s.jrn.ring[n % 256]'(Nat.mod_lt _ (by decide)))).getD ((a - 0x2A00) % 16) 0
  | .unassigned | .register => 0

/-- R154, R158, R170: the word the host reads at an even address: during INIT the registers only. -/
def spmWord (s : State) (a : Nat) : Word :=
  if 0x7FF0 ≤ a then registerWord s (a - 0x7FF0)
  else if s.start.ready then wordOf (regionByte s a) (regionByte s (a + 1))
  else 0

/-! ### Generation words (R157): two for every block event that changes a block's part of an entry -/

/-- The port generation words after an event that took the state `s` to `t`, as the part shows. -/
def stampPorts (part : State → Port → List Nat × List Byte) (s t : State) : State :=
  { t with gens := { t.gens with
      ports := Vector.ofFn fun p => if part s p = part t p then t.gens.ports[p] else genNext t.gens.ports[p] } }

/-- The group generation words. -/
def stampGroups (s t : State) : State :=
  { t with gens := { t.gens with
      groups := Vector.ofFn fun g =>
        if groupPart s.prc g = groupPart t.prc g then t.gens.groups[g] else genNext t.gens.groups[g] } }

/-- The work order generation words, which guard the opened-at times too. -/
def stampOrders (s t : State) : State :=
  { t with gens := { t.gens with
      orders := Vector.ofFn fun i =>
        if orderPart s.cbc.orders[i] = orderPart t.cbc.orders[i] ∧
            (s.cbc.orders[i]).map (·.openedAt) = (t.cbc.orders[i]).map (·.openedAt) then t.gens.orders[i]
        else genNext t.gens.orders[i] } }

/-- The timing generation words, the shelf record in use having been `old` before the event. -/
def stampTiming (old : ShelfRec) (s t : State) : State :=
  { t with gens := { t.gens with
      timing := if timingPart s.tsel old = timingPart t.tsel t.rqu.shelf then t.gens.timing else genNext t.gens.timing
      refs := Vector.ofFn fun r =>
        if refPart s.tsel.refs[r] = refPart t.tsel.refs[r] then t.gens.refs[r] else genNext t.gens.refs[r] } }

end Sys2Proof.Machine
end

