-- ==== Sys2Proof/Machine/Settle.lean ====
section
/-! DEFINITION. How a step's hand-ons reach the blocks: a message delivered to its block, and the settling of
everything one event sets off (00_scope, Shared records; log 4). -/

namespace Sys2Proof.Machine

/-- Keep what an event made of PMON. -/
def putPmon (s : State) (r : Pmon × List Msg) : State × List Msg :=
  (stampPorts pmonPart s { s with pmon := r.1 }, r.2)

/-- R22: keep what a sample of port `p` made of PMON; the port's fields are rewritten after every sample. -/
def putSample (s : State) (p : Port) (r : Pmon × List Msg) : State × List Msg :=
  ({ s with pmon := r.1, gens := { s.gens with ports := s.gens.ports.set p (genNext s.gens.ports[p]) } }, r.2)

/-- Keep what an event made of TCD. -/
def putTcd (s : State) (r : Tcd × List Msg) : State × List Msg := (stampPorts tcdPart s { s with tcd := r.1 }, r.2)

/-- Keep what an event made of CBC. -/
def putCbc (s : State) (r : Cbc × List Msg) : State × List Msg :=
  (stampOrders s (stampPorts cbcPart s { s with cbc := r.1 }), r.2)

/-- Keep what an event made of PRC. -/
def putPrc (s : State) (r : Prc × List Msg) : State × List Msg :=
  (stampGroups s (stampPorts prcPart s { s with prc := r.1 }), r.2)

/-- Keep what an event made of TSEL, the shelf record in use having been `old` before it. TSP's word is the
steering value at all times (R116). -/
def putTselFrom (old : ShelfRec) (s : State) (r : Tsel × List Msg) : State × List Msg :=
  (stampTiming old s (stampPorts tselPart s { s with tsel := r.1, tsp := r.1.steering }), r.2)

/-- Keep what an event made of TSEL. -/
def putTsel (s : State) (r : Tsel × List Msg) : State × List Msg := putTselFrom s.rqu.shelf s r

/-- Keep what an event made of ALM. -/
def putAlm (s : State) (r : Alm × List Msg) : State × List Msg := ({ s with alm := r.1 }, r.2)

/-- Keep what an event made of JRN. -/
def putJrn (s : State) (r : Jrn × List Msg) : State × List Msg := ({ s with jrn := r.1 }, r.2)

/-- Keep what an event made of CIU. -/
def putCiu (s : State) (r : Vector ContactIn 8 × List Msg) : State × List Msg := ({ s with ciu := r.1 }, r.2)

/-- R100: a list of group taps is one TSEL event for each. -/
def Msg.expand : Msg → List Msg
  | .tselGroups taps => taps.map fun x => .tselGroup x.1 x.2
  | m => [m]

/-- One message taken by its block, with the messages that block hands on. -/
def deliver (m : Msg) (s : State) : State × List Msg :=
  match m with
  | .pmonPower p code valid => putSample s p (pmonPower s p code valid)
  | .pmonCard p present fault => putPmon s (pmonCard s p present fault)
  | .pmonHold ports held => putPmon s (pmonHold s ports held)
  | .tcdBit p bit valid => putTcd s (tcdBit s p bit valid)
  | .tcdLos p declared => putTcd s (tcdLos s p declared)
  | .tcdReport ports => putTcd s (tcdReport s ports, [])
  | .cbcPorts cs => putCbc s (cbcPorts s cs)
  | .cbcTag p => putCbc s (cbcTag s p)
  | .cbcRole p old => putCbc s (cbcRole s p old)
  | .cbcFrame f => putCbc s (cbcFrame s f)
  | .prcPorts cs => putPrc s (prcPorts s cs)
  | .prcTag p => putPrc s (prcTag s p)
  | .prcHold ports held => putPrc s (prcHold s ports held)
  | .prcExpect ports => putPrc s (prcExpect s ports)
  | .tselPorts ports => putTsel s (tselPorts s ports)
  | .tselTag p => putTsel s (tselTag s p)
  | .tselHold ports => putTsel s (tselPorts s ports)
  | .tselGroups _ => (s, [])
  | .tselGroup g tap => putTsel s (tselGroup s g tap)
  | .tselShelf old => putTselFrom old s (tselShelf s old)
  | .alm batch => putAlm s (almBatch s batch)
  | .almCutOff => putAlm s (almCutOff s)
  | .jrn records => putJrn s (jrnRecords s records)
  | .jrnMode stop => putJrn s (jrnMode s stop)
  | .attn src => ({ s with hpi := s.hpi.event src }, [])

/-- The readers of an event take it in some order, independently of each other (R46); what each of them hands
on is settled before the next reader's turn. The longest chain of blocks is MBP, PMON, TCD, CBC, PRC, TSEL, ALM,
JRN, HPI, so a depth of ten never runs out. -/
def settle : Nat → List Msg → State → State
  | 0, _, s => s
  | n + 1, ms, s =>
    let o := freely ms s
    (o.1.flatMap Msg.expand).foldl (fun t m => let r := deliver m t; settle n r.2 r.1) o.2

/-- Settle what an event handed on. -/
def settled (r : State × List Msg) : State := settle 10 r.2 r.1

end Sys2Proof.Machine
end

