-- ==== Sys2Proof/Machine/Lcp.lean ====
section
/-! DEFINITION. LCP, the line control port (R92, R101, R36), and MBP, the monitor bus port (section 1.1). -/

namespace Sys2Proof.Machine

/-- R92, R101: what a frame in READY carries for a port. -/
def lcpPort (s : State) (t : Tcd) (p : Port) : LcpPort :=
  let o := protOut s.prc p
  { tagBit := sentBit t p, partner := o.partner, bridge := o.bridge, select := o.select, taps := tapsOf s.tsel p }

/-- R170, R171: what a frame during INIT carries for a port. -/
def lcpInit (s : State) (p : Port) : LcpPort :=
  match s.prc.frozen[p] with
  | some o => { LcpPort.off with partner := o.partner, bridge := o.bridge, select := o.select }
  | none => .off

/-- R36, R92: one line control frame. -/
def sendFrame (s : State) : State :=
  let s := { s with start := { s.start with frameDue := false } }
  if s.start.ready then
    let t := tcdLatch s
    { s with lcp := Vector.ofFn (lcpPort s t), tcd := { t with pos := nextPos t.pos } }
  else { s with lcp := Vector.ofFn (lcpInit s) }

/-- R19: whether a sample of port `p` opens a new scan. -/
def opensScan (m : Mbp) (p : Port) : Bool :=
  match m.scanPort with
  | some q => decide (p ≤ q)
  | none => false

/-- Section 1.1, R19: MBP keeps the last sample of each port and counts the scans. -/
def mbpTake (m : Mbp) (x : Sample) : Mbp :=
  { last := m.last.set x.port x, scanPort := some x.port, scan := if opensScan m x.port then m.scan + 1 else m.scan }

/-- R1, R26: what MBP hands on of a sample of a populated port. The power part and the card flags are two events of PMON,
each with an ALM batch of its own (DESIGN CHOICE, log 61), in a free order (log 17). -/
def sampleMsgs (x : Sample) : List Msg :=
  [.pmonPower x.port x.code x.valid] ++ (if x.valid then [.pmonCard x.port x.present x.fault] else []) ++
  [.tcdBit x.port x.tagBit x.valid]

/-- R1: a sample in READY. -/
def takeSample (s : State) (x : Sample) : State :=
  settled ({ s with mbp := mbpTake s.mbp x }, if s.populated x.port then sampleMsgs x else [])

end Sys2Proof.Machine
end

