-- ==== Sys2Proof/Machine/Operands.lean ====
section
/-! DEFINITION. The operands of the requests: the slots' codes and parameters (section 10.4), the entries of
the loadable tables as the host writes them (section 11.1), their structural faults and clamps, and their
read-back form (R168). -/

namespace Sys2Proof.Machine

/-! ### Request slots -/

/-- R154: where a slot stands. -/
def slotBase (k : SlotIx) : Nat := 0x100 + 64 * k.val

/-- The parameter byte at an offset from 0x08 of the slot. Where the table gives a parameter no width, log 56 says which it
has (DESIGN CHOICE). -/
def param8 (s : State) (k : SlotIx) (off : Nat) : Byte := memRead s.mem (slotBase k + 8 + off)

/-- The parameter word at an offset. -/
def param16 (s : State) (k : SlotIx) (off : Nat) : Nat := nat16 (param8 s k off) (param8 s k (off + 1))

/-- The twenty-five requests (section 10.4). -/
inductive Request
  | ldsh | ldpf | ldpt | ldcr | ldpg | ldtr | ldap | ldci | rdtb | adpt | calb | wkop | wken | wkcn | wkdr
  | pslo | psfs | psms | pscl | tmlk | tmfs | tmcl | alak | alco | abrt
deriving DecidableEq, Repr

/-- The four characters of a request's code, in ASCII. -/
def Request.code : Request → List Byte
  | .ldsh => [0x4C, 0x44, 0x53, 0x48]
  | .ldpf => [0x4C, 0x44, 0x50, 0x46]
  | .ldpt => [0x4C, 0x44, 0x50, 0x54]
  | .ldcr => [0x4C, 0x44, 0x43, 0x52]
  | .ldpg => [0x4C, 0x44, 0x50, 0x47]
  | .ldtr => [0x4C, 0x44, 0x54, 0x52]
  | .ldap => [0x4C, 0x44, 0x41, 0x50]
  | .ldci => [0x4C, 0x44, 0x43, 0x49]
  | .rdtb => [0x52, 0x44, 0x54, 0x42]
  | .adpt => [0x41, 0x44, 0x50, 0x54]
  | .calb => [0x43, 0x41, 0x4C, 0x42]
  | .wkop => [0x57, 0x4B, 0x4F, 0x50]
  | .wken => [0x57, 0x4B, 0x45, 0x4E]
  | .wkcn => [0x57, 0x4B, 0x43, 0x4E]
  | .wkdr => [0x57, 0x4B, 0x44, 0x52]
  | .pslo => [0x50, 0x53, 0x4C, 0x4F]
  | .psfs => [0x50, 0x53, 0x46, 0x53]
  | .psms => [0x50, 0x53, 0x4D, 0x53]
  | .pscl => [0x50, 0x53, 0x43, 0x4C]
  | .tmlk => [0x54, 0x4D, 0x4C, 0x4B]
  | .tmfs => [0x54, 0x4D, 0x46, 0x53]
  | .tmcl => [0x54, 0x4D, 0x43, 0x4C]
  | .alak => [0x41, 0x4C, 0x41, 0x4B]
  | .alco => [0x41, 0x4C, 0x43, 0x4F]
  | .abrt => [0x41, 0x42, 0x52, 0x54]

/-- Every request. -/
def allRequests : List Request :=
  [.ldsh, .ldpf, .ldpt, .ldcr, .ldpg, .ldtr, .ldap, .ldci, .rdtb, .adpt, .calb, .wkop, .wken, .wkcn, .wkdr,
   .pslo, .psfs, .psms, .pscl, .tmlk, .tmfs, .tmcl, .alak, .alco, .abrt]

/-- The code words of a slot, as bytes. -/
def slotCode (s : State) (k : SlotIx) : List Byte := memBytes s.mem (slotBase k) 4

/-- R161: the request a slot's code names, none when it is no request code. -/
def slotRequest (s : State) (k : SlotIx) : Option Request := allRequests.find? fun r => r.code == slotCode s k

/-- The command that carries a request out. -/
def Request.command (k : SlotIx) : Request → Instr
  | .ldsh => .ldsh k | .ldpf => .ldpf k | .ldpt => .ldpt k | .ldcr => .ldcr k | .ldpg => .ldpg k | .ldtr => .ldtr k
  | .ldap => .ldap k | .ldci => .ldci k | .rdtb => .rdtb k | .adpt => .adpt k | .calb => .calb k | .wkop => .wkop k
  | .wken => .wken k | .wkcn => .wkcn k | .wkdr => .wkdr k | .pslo => .pslo k | .psfs => .psfs k | .psms => .psms k
  | .pscl => .pscl k | .tmlk => .tmlk k | .tmfs => .tmfs k | .tmcl => .tmcl k | .alak => .alak k | .alco => .alco k
  | .abrt => .abrt k

/-- Section 10.4: a port set of 64 bits, high byte first, port `p` at bit `p` (DEDUCED, log 12). -/
def portSet (s : State) (k : SlotIx) : List Port :=
  allPorts.filter fun p => (param8 s k (7 - p.val / 8)).getLsbD (p.val % 8)

/-! ### WKOP (R48) -/

/-- Section 10.4: an item of a WKOP, as bytes: port, kind, expected shelf, expected port. -/
structure RawItem where
  port  : Byte
  kind  : Byte
  shelf : Word
  exp   : Byte
deriving DecidableEq, Repr

/-- Section 10.4: the item at a list position from 0. -/
def rawItem (s : State) (k : SlotIx) (i : Nat) : RawItem :=
  let o := 8 + 5 * i
  { port := param8 s k o, kind := param8 s k (o + 1), shelf := wordOf (param8 s k (o + 2)) (param8 s k (o + 3)),
    exp := param8 s k (o + 4) }

/-- Section 10.4: kinds of expectation, 0 ANY, 1 TAG, 2 DARK. -/
def expKindOf (b : Byte) : Option ExpKind :=
  if b = 0 then some .any else if b = 1 then some .tag else if b = 2 then some .dark else none

/-- R40, R48: an expectation from its fields; none for a kind out of range or a TAG with a port above 63. -/
def expectationOf (kind port : Byte) (shelf : Word) : Option Expectation :=
  match expKindOf kind with
  | none => none
  | some k => if k = .tag ∧ 63 < port.toNat then none else some { kind := k, port := port, shelf := shelf }

/-- R48: an item's port and new expectation, none when the first check refuses it. -/
def RawItem.read (x : RawItem) : Option (Port × Expectation) :=
  match portOfNat x.port.toNat, expectationOf x.kind x.exp x.shelf with
  | some p, some e => some (p, e)
  | _, _ => none

/-- R48: the item count, the byte at +6; the byte at +7 is not read (DESIGN CHOICE, log 56). -/
def wkopCount (s : State) (k : SlotIx) : Nat := (param8 s k 6).toNat

/-- R48: the items of a WKOP, none when one of them is malformed. -/
def wkopItems (s : State) (k : SlotIx) : Option (List (Port × Expectation)) :=
  (List.range (wkopCount s k)).mapM fun i => (rawItem s k i).read

/-- R48: the frame section: `some none` is no section, `none` is neither none nor 0 to 7. -/
def wkopSection (s : State) (k : SlotIx) : Option (Option (Fin 8)) :=
  let b := (param8 s k 4).toNat
  if b = 0xFF then some none else if h : b < 8 then some (some ⟨b, h⟩) else none

/-- R48: the override flag; a byte other than 0 or 1 is Config's (log 8). -/
def wkopOverride (s : State) (k : SlotIx) : Bool :=
  let b := param8 s k 5
  if b = 0 then false else if b = 1 then true else Config.oddOverride b

/-! ### Clamps (R165) -/

/-- 1 when a field was changed by clamping. -/
def changed {α : Type} [DecidableEq α] (old new : α) : Nat := if old = new then 0 else 1

/-- A number taken down to the multiple of 100 below it, after the clamp to a top (R62, R127). -/
def hundreds (top x : Nat) : Nat := min x top / 100 * 100

/-! ### The tables (section 11.1) -/

/-- R168: the tables, in the order of the load codes. -/
inductive Table | shelf | profiles | ports | cabling | groups | refs | alarms | contacts
deriving DecidableEq, Repr

/-- R168: the table a number names. -/
def tableOf (n : Nat) : Option Table :=
  [Table.shelf, .profiles, .ports, .cabling, .groups, .refs, .alarms, .contacts][n]?

/-- Section 11.1: the number of entries. -/
def Table.entries : Table → Nat
  | .shelf => 1 | .profiles => 8 | .ports => 64 | .cabling => 64 | .groups => 16 | .refs => 6 | .alarms => 24
  | .contacts => 8

/-- Section 11.1: the size of an entry. -/
def Table.size : Table → Nat
  | .shelf => 16 | .profiles => 16 | .ports => 6 | .cabling => 4 | .groups => 14 | .refs => 12 | .alarms => 6
  | .contacts => 4

/-- The byte at an offset of an entry. -/
def at8 (e : List Byte) (k : Nat) : Nat := (e.getD k 0).toNat

/-- The word at an offset of an entry. -/
def at16 (e : List Byte) (k : Nat) : Nat := nat16 (e.getD k 0) (e.getD (k + 1) 0)

/-- The signed word at an offset of an entry. -/
def atInt (e : List Byte) (k : Nat) : Int := int16 (e.getD k 0) (e.getD (k + 1) 0)

/-- R111, R166: a shelf record entry and its clamp count. -/
def readShelf (e : List Byte) : Option (ShelfRec × Nat) :=
  if 1 < at8 e 2 ∨ 1 < at8 e 3 then none
  else
    let r : ShelfRec :=
      { identity := wordOf (e.getD 0 0) (e.getD 1 0), stop := at8 e 2 == 1, quality := at8 e 3 == 1
        tagWait := clampNat 100 5000 (at16 e 4), verify := clampNat 1 60 (at8 e 6), warmUp := clampNat 1 64 (at8 e 7)
        slew := clampNat 1 5000 (at16 e 8), trim := clampInt (-5000) 5000 (atInt e 10)
        holdLimit := clampNat 1 72 (at8 e 12), holdClass := clampNat 1 6 (at8 e 13)
        freeClass := clampNat 1 6 (at8 e 14) }
    some (r, changed (at16 e 4) r.tagWait + changed (at8 e 6) r.verify + changed (at8 e 7) r.warmUp +
      changed (at16 e 8) r.slew + changed (atInt e 10) r.trim + changed (at8 e 12) r.holdLimit +
      changed (at8 e 13) r.holdClass + changed (at8 e 14) r.freeClass)

/-- R18: the spike limit after its clamp. -/
def clampSpike (x : Int) : Int := if x ≤ 0 then 0 else clampInt 50 3000 x

/-- R18: a profile entry and its clamp count, each field counted once. -/
def readProfile (e : List Byte) : Profile × Nat :=
  let deg := clampInt 50 2000 (atInt e 8)
  let fail := max (clampInt 100 3000 (atInt e 10)) (deg + 50)
  let hyst := clampInt 10 (min 500 (deg - 10)) (clampInt 10 500 (atInt e 12))
  let p : Profile :=
    { alpha := clampInt 1 16 (at8 e 0), beta := clampInt 0 15 (at8 e 1), k := clampNat 4 12 (at8 e 2)
      limit := clampSpike (atInt e 3), losThr := clampInt (-5000) 0 (atInt e 5), losN := clampNat 1 8 (at8 e 7)
      degThr := deg, failThr := fail, hyst := hyst, defN := clampNat 1 255 (at8 e 14) }
  (p, changed (at8 e 0 : Int) p.alpha + changed (at8 e 1 : Int) p.beta + changed (at8 e 2) p.k +
    changed (atInt e 3) p.limit + changed (atInt e 5) p.losThr + changed (at8 e 7) p.losN +
    changed (atInt e 8) p.degThr + changed (atInt e 10) p.failThr + changed (atInt e 12) p.hyst +
    changed (at8 e 14) p.defN)

/-- R10: what a port table entry says of the baseline. -/
inductive BaseField
  | value (b : Int)
  | absent
  | keep
deriving DecidableEq, Repr

/-- R167: a port table entry. -/
structure PortEntry where
  role    : Role
  profile : Fin 8
  base    : BaseField
deriving DecidableEq, Repr

/-- Section 11.1: roles. -/
def roleOf (n : Nat) : Option Role :=
  match n with
  | 0 => some .spare
  | 1 => some .line
  | 2 => some .trib
  | _ => none

/-- R10, R167: the baseline field and its clamp count. -/
def baseOf (mode : Nat) (b : Int) : Option (BaseField × Nat) :=
  match mode with
  | 0 => some (.value (clampInt (-5000) 1000 b), changed b (clampInt (-5000) 1000 b))
  | 1 => some (.absent, 0)
  | 2 => some (.keep, 0)
  | _ => none

/-- R62, R99: whether a port is bound to a line reference directly. -/
def boundPort (s : State) (p : Port) : Bool :=
  allRefs.any fun r =>
    let e := s.tsel.refs[r].entry
    decide (e.bindKind = .port) && e.bindNum == p.val

/-- R62: whether a port is a member of a defined group other than the one named. -/
def otherMember (s : State) (not : Option GroupIx) (p : Port) : Bool :=
  allGroups.any fun gi =>
    decide (some gi ≠ not) && (match s.prc.groups[gi] with | some g => g.has p | none => false)

/-- R167: a port table entry for a port and its clamp count, none for a structural fault. -/
def readPort (s : State) (p : Port) (e : List Byte) : Option (PortEntry × Nat) :=
  match roleOf (at8 e 0), baseOf (at8 e 2) (atInt e 4) with
  | some role, some b =>
    if h : at8 e 1 < 8 then
      if !s.populated p then none
      else if role ≠ s.pmon.ports[p].role ∧ (otherMember s none p ∨ boundPort s p) then none
      else some ({ role := role, profile := ⟨at8 e 1, h⟩, base := b.1 }, b.2)
    else none
  | _, _ => none

/-- R40: a cabling record entry for a port, none for a structural fault. -/
def readCabling (s : State) (p : Port) (e : List Byte) : Option Expectation :=
  match expectationOf (e.getD 0 0) (e.getD 1 0) (wordOf (e.getD 2 0) (e.getD 3 0)) with
  | some x => if s.cbc.ports[p].hold.isSome then none else some x
  | none => none

/-- Section 11.1: kinds of a defined group. -/
def groupKindOf (n : Nat) : Option GroupKind :=
  match n with
  | 1 => some .uni
  | 2 => some .bi
  | 3 => some .oneToN
  | _ => none

/-- R62: whether a reference's binding names a group. -/
def boundGroupIx (s : State) (gi : GroupIx) : Bool :=
  allRefs.any fun r =>
    let e := s.tsel.refs[r].entry
    decide (e.bindKind = .group) && e.bindNum == gi.val

/-- R62: whether a member port may join group `gi`, of the kind named. -/
def joinable (s : State) (gi : GroupIx) (kind : GroupKind) (p : Port) : Bool :=
  s.populated p && decide (s.pmon.ports[p].role = .line) && !otherMember s (some gi) p &&
  (decide (kind ≠ .oneToN) || !boundPort s p)

/-- R62: whether the working list's length fits the kind. -/
def lengthFits (kind : GroupKind) (n : Nat) : Bool :=
  match kind with
  | .uni | .bi => n == 1
  | .oneToN => decide (1 ≤ n ∧ n ≤ 6)

/-- R62: a protection group entry and its clamp count, the definition absent for kind NONE; none for a structural
fault. R62 exempts kind NONE from the faults alone: its hold-off and WTR are clamped and counted as R165 says. -/
def readGroup (s : State) (gi : GroupIx) (e : List Byte) : Option (Option GroupDef × Nat) :=
  let holdOff := hundreds 10000 (at16 e 10)
  let wtr := clampNat 30 1800 (at16 e 12)
  let clamps := changed (at16 e 10) holdOff + changed (at16 e 12) wtr
  if at8 e 0 = 0 then some (none, clamps)
  else
    match groupKindOf (at8 e 0), portOfNat (at8 e 1),
        ((List.range (min (at8 e 2) 6)).mapM fun k => portOfNat (at8 e (3 + k))) with
    | some kind, some prot, some work =>
      if !lengthFits kind (at8 e 2) || !(prot :: work).all (joinable s gi kind) || !decide (prot :: work).Nodup ||
          (decide (kind = .oneToN) && boundGroupIx s gi) then none
      else
        let d : GroupDef :=
          { kind := kind, prot := prot, work := work, revertive := (at8 e 9).testBit 0, degSwitch := (at8 e 9).testBit 1,
            holdOff := holdOff, wtr := wtr }
        some (some d, clamps)
    | _, _, _ => none

/-- Section 11.1: binding kinds. -/
def bindKindOf (n : Nat) : Option BindKind :=
  match n with
  | 0 => some .none
  | 1 => some .port
  | 2 => some .group
  | _ => none

/-- R99: whether a port may be bound. -/
def bindablePort (s : State) (n : Nat) : Bool :=
  match portOfNat n with
  | none => false
  | some p =>
    s.populated p && decide (s.pmon.ports[p].role = .line) &&
    allGroups.all fun gi =>
      match s.prc.groups[gi] with
      | some g => decide (g.kind ≠ .oneToN) || !g.has p
      | none => true

/-- R99: whether a group may be bound. -/
def bindableGroup (s : State) (n : Nat) : Bool :=
  if h : n < 16 then
    match s.prc.groups[(⟨n, h⟩ : GroupIx)] with
    | some g => decide (g.kind ≠ .oneToN)
    | none => false
  else false

/-- R99: whether a binding may be taken. -/
def bindable (s : State) (kind : BindKind) (n : Nat) : Bool :=
  match kind with
  | .none => true
  | .port => bindablePort s n
  | .group => bindableGroup s n

/-- R98, R99: a reference table entry and its clamp count, none for a structural fault. -/
def readRef (s : State) (r : RefIx) (e : List Byte) : Option (RefEntry × Nat) :=
  match bindKindOf (at8 e 9) with
  | none => none
  | some kind =>
    if 1 < at8 e 0 ∨ 8 < at8 e 1 ∨ 1 < at8 e 2 ∨ (at8 e 2 = 0 ∧ (at8 e 3 < 1 ∨ 6 < at8 e 3)) ∨
        (r.val < 2 ∧ (at8 e 2 = 1 ∨ kind ≠ .none)) ∨ bindable s kind (at8 e 10) = false then none
    else
      let accept := clampNat 1000 50000 (at16 e 4)
      let x : RefEntry :=
        { enable := at8 e 0 == 1, priority := at8 e 1, fromTag := at8 e 2 == 1, fixedCls := at8 e 3, accept := accept
          hyst := min (clampNat 0 5000 (at16 e 6)) (accept - 500), stab := clampNat 1 16 (at8 e 8), bindKind := kind
          bindNum := at8 e 10 }
      some (x, changed (at16 e 4) x.accept + changed (at16 e 6) x.hyst + changed (at8 e 8) x.stab)

/-- Section 11.1: severities. -/
def severityOf (n : Nat) : Option Severity :=
  match n with
  | 1 => some .crit
  | 2 => some .maj
  | 3 => some .min
  | 4 => some .event
  | 5 => some .off
  | _ => none

/-- R127: an alarm profile entry for a type and its clamp count, none for a structural fault. -/
def readAlarm (t : Fin 24) (e : List Byte) : Option (AlarmProfile × Nat) :=
  match severityOf (at8 e 0) with
  | none => none
  | some sv =>
    if sv.tabled = true ∧ (t = CondType.switch.index ∨ t = CondType.refSwitch.index) then none
    else
      let p : AlarmProfile := { severity := sv, raise := hundreds 10000 (at16 e 2), clear := hundreds 30000 (at16 e 4) }
      some (p, changed (at16 e 2) p.raise + changed (at16 e 4) p.clear)

/-- R145: a contact input entry. -/
structure ContactEntry where
  role         : ContactRole
  frameSection : Nat
  activeHigh   : Bool
  debounce     : Nat
deriving DecidableEq, Repr

/-- Section 11.1: contact roles. -/
def contactRoleOf (n : Nat) : Option ContactRole :=
  match n with
  | 0 => some .none
  | 1 => some .aco
  | 2 => some .frame
  | 3 => some .generic
  | _ => none

/-- R145: a contact input entry and its clamp count, none for a structural fault. -/
def readContact (e : List Byte) : Option (ContactEntry × Nat) :=
  match contactRoleOf (at8 e 0) with
  | none => none
  | some role =>
    if 7 < at8 e 1 ∨ 1 < at8 e 2 then none
    else
      let c : ContactEntry :=
        { role := role, frameSection := at8 e 1, activeHigh := at8 e 2 == 1, debounce := clampNat 1 255 (at8 e 3) }
      some (c, changed (at8 e 3) c.debounce)

/-! ### Read-back (R168) -/

/-- R168: the shelf record. -/
def shelfBytes (c : ShelfRec) : List Byte :=
  [hiByte c.identity, loByte c.identity, byte8 c.stop.toNat, byte8 c.quality.toNat] ++ bytes16 c.tagWait ++
  [byte8 c.verify, byte8 c.warmUp] ++ bytes16 c.slew ++ bytes16 (twos 16 c.trim) ++
  [byte8 c.holdLimit, byte8 c.holdClass, byte8 c.freeClass, 0]

/-- R168: a port profile. -/
def profileBytes (p : Profile) : List Byte :=
  let w (x : Int) : List Byte := bytes16 (twos 16 x)
  [byte8 p.alpha.toNat, byte8 p.beta.toNat, byte8 p.k] ++ w p.limit ++ w p.losThr ++ [byte8 p.losN] ++ w p.degThr ++
  w p.failThr ++ w p.hyst ++ [byte8 p.defN, 0]

/-- R168: a port table entry: an unpopulated port reads SPARE, profile 0, ABSENT. -/
def portBytes (s : State) (p : Port) : List Byte :=
  let r := s.pmon.ports[p]
  if s.populated p then
    [byte8 r.role.code, byte8 r.profile.val] ++
    match r.baseline with
    | some b => [0, 0] ++ bytes16 (twos 16 b)
    | none => [1, 0, 0, 0]
  else [0, 0, 1, 0, 0, 0]

/-- R168: a cabling record entry. -/
def cablingBytes (e : Expectation) : List Byte := [byte8 e.kind.code, e.port, hiByte e.shelf, loByte e.shelf]

/-- R168: a protection group entry. -/
def groupBytes (g : Option Group) : List Byte :=
  match g with
  | none => [0, 0, 0] ++ workBytes [] ++ [0, 0, 0, 0, 0]
  | some g =>
    [byte8 g.kind.code, byte8 g.prot.val, byte8 g.n] ++ workBytes g.work ++
    [byte8 (flagAt 0 g.revertive + flagAt 1 g.degSwitch)] ++ bytes16 g.holdOff ++ bytes16 g.wtr

/-- R168: a reference table entry. -/
def refBytes (e : RefEntry) : List Byte :=
  [byte8 e.enable.toNat, byte8 e.priority, byte8 e.fromTag.toNat, byte8 e.fixedCls] ++ bytes16 e.accept ++
  bytes16 e.hyst ++ [byte8 e.stab, byte8 e.bindKind.code, byte8 e.bindNum, 0]

/-- R168: an alarm profile entry. -/
def alarmProfileBytes (p : AlarmProfile) : List Byte := [byte8 p.severity.code, 0] ++ bytes16 p.raise ++ bytes16 p.clear

/-- R168: a contact input entry. -/
def contactBytes (c : ContactIn) : List Byte :=
  [byte8 c.role.code, byte8 c.frameSection, byte8 c.activeHigh.toNat, byte8 c.debounce]

/-- R168: an entry of a table, in the load format. -/
def entryBytes (s : State) (t : Table) (i : Nat) : List Byte :=
  match t with
  | .shelf => shelfBytes s.rqu.shelf
  | .profiles => profileBytes (s.pmon.profiles[i % 8]'(Nat.mod_lt _ (by decide)))
  | .ports => portBytes s (Fin.ofNat 64 i)
  | .cabling => cablingBytes (s.cbc.ports[i % 64]'(Nat.mod_lt _ (by decide))).expect
  | .groups => groupBytes (s.prc.groups[i % 16]'(Nat.mod_lt _ (by decide)))
  | .refs => refBytes (s.tsel.refs[i % 6]'(Nat.mod_lt _ (by decide))).entry
  | .alarms => alarmProfileBytes (s.alm.profile[i % 24]'(Nat.mod_lt _ (by decide)))
  | .contacts => contactBytes (s.ciu[i % 8]'(Nat.mod_lt _ (by decide)))

end Sys2Proof.Machine
end

