-- ==== Sys2Proof/Machine/Rqu.lean ====
section
/-! DEFINITION. RQU, the request unit (R160 to R164): slots, answers, the calibration jobs. -/

namespace Sys2Proof.Machine

/-! ### Result codes (section 10.4) -/

/-- Section 10.4: the result codes. -/
inductive Result
  | ok | unknown | badArg | noObject | conflict | full | wrongState | superseded | aborted | partLoad | notReady
deriving DecidableEq, Repr

/-- Section 10.4: the code of a result. -/
def Result.code : Result → Nat
  | .ok => 0 | .unknown => 1 | .badArg => 2 | .noObject => 3 | .conflict => 4 | .full => 5 | .wrongState => 6
  | .superseded => 7 | .aborted => 8 | .partLoad => 9 | .notReady => 10

/-- R162: the state a slot takes with a result. -/
def Result.slotState : Result → SlotState
  | .ok | .partLoad => .done
  | .unknown | .badArg | .noObject | .conflict | .full | .wrongState | .superseded | .aborted | .notReady => .refused

/-- Section 10.5: the state byte. -/
def SlotState.code : SlotState → Nat
  | .free => 0 | .queued => 1 | .busy => 2 | .done => 3 | .refused => 4

/-- R160: whether the host owns a slot in this state. -/
def SlotState.hostOwned : SlotState → Bool
  | .free | .done | .refused => true
  | .queued | .busy => false

/-! ### Slots -/

/-- R160: what RQU shows of a slot: state byte, result code, detail. -/
def slotWords (st : SlotState) (x : SlotResult) : List Byte := [byte8 st.code, x.result, hiByte x.detail, loByte x.detail]

/-- R160: RQU shows a slot's state at each change of it, and writes the result code and the detail again as it last gave
them, whatever the host has written there (DEDUCED, log 43). -/
def showSlot (s : State) (k : SlotIx) (st : SlotState) : State :=
  { s with
    rqu := { s.rqu with slots := s.rqu.slots.set k st }
    mem := memWriteAll s.mem (slotBase k + 4) (slotWords st s.rqu.last[k]) }

/-- R162: the result and the detail of an answer. -/
def Result.given (r : Result) (detail : Nat) : SlotResult :=
  { result := byte8 r.code, detail := BitVec.ofNat 16 detail }

/-- R162: a slot's code words zeroed. -/
def zeroCode (m : List Host.Cell) (k : SlotIx) : List Host.Cell := memWriteAll m (slotBase k) [0, 0, 0, 0]

/-- R162: a slot answered: result and detail, code words zeroed, the new state shown, and the REQ event. -/
def answer (s : State) (k : SlotIx) (r : Result) (detail : Nat) : State :=
  let t := showSlot { s with rqu := { s.rqu with last := s.rqu.last.set k (r.given detail) }, mem := zeroCode s.mem k } k
    r.slotState
  { t with hpi := t.hpi.event .req }

/-- R161: the lowest-numbered QUEUED slot. -/
def lowestQueued (s : State) : Option SlotIx := (List.finRange 8).find? fun k => decide (s.rqu.slots[k] = .queued)

/-- R161: RQU, if it is idle, takes the lowest-numbered QUEUED slot. -/
def takeNext (s : State) : State :=
  if s.rqu.exec.isSome then s
  else
    match lowestQueued s with
    | some k =>
      let t := showSlot s k .busy
      { t with rqu := { t.rqu with exec := some k } }
    | none => s

/-- R160: an arrival. -/
def arrive (s : State) (k : SlotIx) : State := takeNext (showSlot s k .queued)

/-- R161: the end of an execution. -/
def endExec (s : State) : State := takeNext { s with rqu := { s.rqu with exec := none } }

/-- R161, R162: a request that has ended within its execution. -/
def finish (s : State) (k : SlotIx) (r : Result) (detail : Nat) : State := endExec (answer s k r detail)

/-- R161: whether RQU is executing the request `r` in the slot. -/
def executing (s : State) (k : SlotIx) (r : Option Request) : Bool :=
  s.start.ready && decide (s.rqu.exec = some k) && decide (slotRequest s k = r)

/-- The state, result and detail a request leaves; no result while it goes on as a job. -/
abbrev Reply := State × Option (Result × Nat)

/-- R161: RQU executes a request: its owner takes it as one event, then the slot is answered. A request that
goes on as a job leaves its slot BUSY. When RQU is not executing this request in this slot, nothing happens
(log 2). -/
def runRequest (s : State) (k : SlotIx) (r : Request) (owner : State → Reply) : State :=
  if executing s k (some r) then
    let a := owner s
    match a.2 with
    | some x => finish a.1 k x.1 x.2
    | none => endExec a.1
  else s

/-- A refusal with a detail: no state changes. -/
def refuse (s : State) (r : Result) (detail : Nat) : Reply := (s, some (r, detail))

/-- A request done. -/
def done (s : State) (detail : Nat) : Reply := (s, some (.ok, detail))

/-! ### Calibration jobs (R163, R164) -/

/-- R163: the outcome table's codes. -/
def CalOutcome.code : CalOutcome → Nat
  | .calibrated => 1 | .failedLos => 2 | .failedMonlost => 3 | .failedEquip => 4 | .held => 5 | .overridden => 6
  | .aborted => 7

/-- R163: the byte of the outcome table for a port. -/
def outcomeByte (pm : Pmon) (j : Job) (p : Port) : Byte :=
  if j.ports.contains p then byte8 ((pm.outcomes[p].map CalOutcome.code).getD 0) else 0

/-- R154: the staging area's address. -/
def stagingBase : Nat := 0x300

/-- R163: the outcome table written at the job's offset. -/
def writeOutcomes (s : State) (j : Job) : State :=
  { s with mem := memWriteAll s.mem (stagingBase + j.offset) (allPorts.map (outcomeByte s.pmon j)) }

/-- The running job in a slot. -/
def jobIn (s : State) (k : SlotIx) : Option Job := s.rqu.jobs.find? fun j => j.slot == k

/-- A job ends: its outcome table written, its slot answered, its outcomes forgotten. -/
def endJob (s : State) (j : Job) (r : Result) : State :=
  let t := answer (writeOutcomes s j) j.slot r (jobCalibrated s.pmon j)
  { t with rqu := { t.rqu with jobs := t.rqu.jobs.filter fun x => x.slot != j.slot }
           pmon := clearOutcomes j.ports t.pmon }

/-- R163: CALB. -/
def askCalb (k : SlotIx) (s : State) : Reply :=
  let ports := portSet s k
  let offset := param16 s k 8
  if ports = [] ∨ 4096 < offset + 64 then refuse s .badArg 0
  else
    match ports.find? fun p => !s.populated p with
    | some p => refuse s .noObject p.val
    | none =>
      if 2 ≤ s.rqu.jobs.length then refuse s .full 0
      else
        match ports.find? fun p => (s.rqu.jobs.any fun j => j.ports.contains p) || s.cbc.ports[p].hold.isSome with
        | some p => refuse s .conflict p.val
        | none =>
          let t := { s with rqu := { s.rqu with jobs := s.rqu.jobs ++ [{ slot := k, ports := ports, offset := offset }] } }
          (settled (putPmon t (startCals k ports t.pmon, [])), none)

/-- R163: PMON hands RQU a finished job's outcomes. -/
def jobDone (s : State) (k : SlotIx) : State :=
  match jobIn s k with
  | some j => if s.start.ready && jobFinished s.pmon j then endJob s j .ok else s
  | none => s

/-- R15, R164: the ports of a job without an outcome. -/
def unfinished (s : State) (j : Job) : List Port := j.ports.filter fun p => s.pmon.outcomes[p].isNone

/-- R164: ABRT; the slot is named by the byte at +0 (DESIGN CHOICE, log 56). -/
def askAbrt (k : SlotIx) (s : State) : Reply :=
  let n := param8 s k 0
  if 7 < n.toNat then refuse s .badArg 0
  else
    let named : SlotIx := Fin.ofNat 8 n.toNat
    match s.rqu.slots[named], jobIn s named with
    | .queued, _ => done (answer s named .aborted 0) 0
    | .busy, some j => done (endJob (settled (putPmon s (endCals .aborted (unfinished s j) s.pmon, []))) j .aborted) 0
    | _, _ => refuse s .wrongState 0

/-! ### RDTB (R168) and the range checks of a load (R165) -/

/-- R165: a load's staging offset, first index and entry count. -/
structure LoadRange where
  offset : Nat
  first  : Nat
  count  : Nat
deriving DecidableEq, Repr

/-- Section 10.4: the parameters of a load; index and count are bytes (DESIGN CHOICE, log 56). -/
def loadRange (s : State) (k : SlotIx) : LoadRange :=
  { offset := param16 s k 0, first := (param8 s k 2).toNat, count := (param8 s k 3).toNat }

/-- R165: whether the range fits the table and the staging area. -/
def LoadRange.fits (r : LoadRange) (t : Table) : Bool :=
  r.offset % 2 == 0 && decide (r.count ≠ 0) && decide (r.first + r.count ≤ t.entries) &&
  decide (r.offset + r.count * t.size ≤ 4096)

/-- R168: the bytes of the entries read back. -/
def readBack (s : State) (t : Table) (r : LoadRange) : List Byte :=
  (List.range r.count).flatMap fun i => entryBytes s t (r.first + i)

/-- R168: RDTB; the table number is the byte at +4 (DESIGN CHOICE, log 56). -/
def askRdtb (k : SlotIx) (s : State) : Reply :=
  let r := loadRange s k
  match tableOf (param8 s k 4).toNat with
  | none => refuse s .badArg 0
  | some t =>
    if r.fits t then done { s with mem := memWriteAll s.mem (stagingBase + r.offset) (readBack s t r) } r.count
    else refuse s .badArg 0

end Sys2Proof.Machine
end

