-- ==== Sys2Proof/Machine/Start.lean ====
section
/-! DEFINITION. Warm restart and the entry into READY (R170, R171). -/

namespace Sys2Proof.Machine

/-- R171: the slots a warm restart aborts. -/
def abortedSlots (s : State) : List SlotIx := (List.finRange 8).filter fun k => !(s.rqu.slots[k]).hostOwned

/-- R171: one slot REFUSED with ABORTED, detail 0, its code words zeroed; no REQ attention. -/
def abortSlot (m : List Host.Cell) (k : SlotIx) : List Host.Cell :=
  memWriteAll (zeroCode m k) (slotBase k + 4) (slotWords .refused (Result.aborted.given 0))

/-- R171: a slot's state after a warm restart. -/
def SlotState.restarted (x : SlotState) : SlotState := if x.hostOwned then x else .refused

/-- R171: the result a slot is left with by a warm restart. -/
def restartedResult (x : SlotState) (r : SlotResult) : SlotResult := if x.hostOwned then r else Result.aborted.given 0

/-- R96: the outputs a warm restart freezes on a port: those frozen already, else those being sent. -/
def freezePort (s : State) (p : Port) : ProtOut :=
  match s.prc.frozen[p] with
  | some o => o
  | none => { partner := s.lcp[p].partner, bridge := s.lcp[p].bridge, select := s.lcp[p].select }

/-- R171: a warm restart. Of the host port, R155 discards the held byte and the snapshot: the serial run is kept (DESIGN
CHOICE, log 57). -/
def warmRestart (s : State) : State :=
  let c := State.cold s.straps (Vector.ofFn fun i => s.ciu[i].pin) s.choices s.pending
  let prc := Prc.reset (Vector.ofFn fun p => some (freezePort s p))
  { c with
    start := { ready := false, cold := false, initPeriods := 0, periods := 0, frameDue := s.start.frameDue }
    prc := prc
    tsel := s.tsel.warm c.rqu.shelf
    tsp := s.tsp
    lcp := Vector.ofFn (lcpInit { c with prc := prc })
    hpi := { c.hpi with run := s.hpi.run }
    rqu := { c.rqu with
      slots := Vector.ofFn fun k => (s.rqu.slots[k]).restarted
      last := Vector.ofFn fun k => restartedResult s.rqu.slots[k] s.rqu.last[k] }
    mem := (abortedSlots s).foldl abortSlot s.mem }

/-- R42, R60: every tag wait timer starts. -/
def startTagWaits (s : State) (c : Cbc) : Cbc :=
  { c with ports := Vector.ofFn fun p => { c.ports[p] with tagWait := some (tagWaitLength s) } }

/-- R147: every debounce timer starts. -/
def startDebounce (ciu : Vector ContactIn 8) : Vector ContactIn 8 :=
  Vector.ofFn fun i => { ciu[i] with timer := some (ciu[i].debounce * perMs) }

/-- R153: the code of the RESTART record. -/
def restartCode (s : State) : RestartCode := if s.start.cold then .cold else .warm

/-- R170, R171: the H3 enters READY. The RESTART record is JRN's first; the timers that start here belong to
the reset content, so that every generation word is still 0 (log 39). -/
def enterReady (s : State) : State :=
  let s1 := { s with
    start := { s.start with ready := true, periods := 0 }
    tcd := { s.tcd with pos := 0 }
    cbc := startTagWaits s s.cbc
    ciu := startDebounce s.ciu }
  let s2 := settled (putJrn s1 (jrnRecords s1 [.restart (restartCode s)]))
  let s3 := { s2 with hpi := s2.hpi.event .rst }
  let r := tselReady s3
  settled ({ s3 with tsel := r.1 }, r.2)

end Sys2Proof.Machine
end

