-- ==== Sys2Proof/Machine/Hpi.lean ====
section
/-! DEFINITION. HPI, the host port interface (R154 to R156, R158, R160, R169): the port it listens on, completed word writes, the held byte,
the read snapshot. -/

namespace Sys2Proof.Machine

/-- R169: whether HPI listens on a host port: the one that the HIF strap, as sampled, selects. The pins of the other are
not read. -/
def State.listensTo (s : State) (p : HostPort) : Bool := decide (p = if s.straps.parallel then .parallel else .serial)

/-- R155: the port at whose pins a byte access is made. -/
def pinsOf : HostAddr → HostPort
  | .strobe _ => .parallel
  | .start _ | .next => .serial

/-- R155: the address a byte access names: its own, or that of the next byte of the serial run. A later byte belongs to the
run in progress, of the same command. -/
def namedAddr (h : Hpi) (write : Bool) : HostAddr → Option Addr
  | .strobe a | .start a => some a
  | .next => (h.run.filter fun r => r.write == write).map (·.next)

/-- R155, R169: the address of a byte access that HPI takes, none at the port it does not listen on. -/
def byteAccess (s : State) (write : Bool) (x : HostAddr) : Option Addr :=
  if s.listensTo (pinsOf x) then namedAddr s.hpi write x else none

/-- R155: the run after a byte at an address: the address advances by one per byte, from 0x7FFF to 0x0000. -/
def runAfter (h : Hpi) (write : Bool) (x : HostAddr) (a : Addr) : Option SerialRun :=
  match x with
  | .strobe _ => h.run
  | .start _ | .next => some { write := write, next := a + 1 }

/-- R155: the serial run moved past a byte access; in INIT too (DESIGN CHOICE, log 57). -/
def advanceRun (s : State) (write : Bool) (x : HostAddr) (a : Addr) : State :=
  { s with hpi := { s.hpi with run := runAfter s.hpi write x a } }

/-- The even address of a byte's word. -/
def evenOf (a : Addr) : Addr := a &&& 0x7FFE

/-- The byte address is the word's low byte. -/
def isLow (a : Addr) : Bool := a.getLsbD 0

/-- R156: a foreign write, ignored and counted. -/
def foreign (s : State) : State := { s with hpi := { s.hpi with foreign := count16 s.hpi.foreign } }

/-- R158: the effect of a completed write to ATTN-CLR. -/
def clearAttn (s : State) (w : Word) : State := { s with hpi := { s.hpi with attn := s.hpi.attn &&& ~~~(w.setWidth 6) } }

/-- R158: the effect of a completed write to ATTN-MASK. -/
def setMask (s : State) (w : Word) : State := { s with hpi := { s.hpi with mask := w.setWidth 6 } }

/-- R158: a completed write to a register word, by its offset. -/
def registerWrite (s : State) (off : Nat) (w : Word) : State :=
  if off = 0 ∨ off = 2 ∨ off = 4 then foreign s
  else if off = 6 then clearAttn s w
  else if off = 8 then setMask s w
  else if off = 10 then (if w = 1 then warmRestart s else s)
  else s

/-- R160: whether a write at `a` completes the second code word of a slot whose code words together are not
zero. -/
def arrives (m : List Host.Cell) (k : SlotIx) (a : Nat) : Bool :=
  a == slotBase k + 2 && (memWord m (slotBase k) != 0 || memWord m (slotBase k + 2) != 0)

/-- R156, R160: a completed write to a slot word. A write to the state byte, the result code or the detail of a slot the
host owns changes the memory and not what RQU keeps. -/
def slotWrite (s : State) (k : SlotIx) (a : Nat) (w : Word) : State :=
  if (s.rqu.slots[k]).hostOwned then
    let t := { s with mem := memPutWord s.mem a w }
    if arrives t.mem k a then arrive t k else t
  else foreign s

/-- R155, R156: a completed host write of a word at an even address, in READY. -/
def hostWord (s : State) (a : Nat) (w : Word) : State :=
  match regionOf a with
  | .header | .port _ | .group _ | .timing | .order _ | .alarm _ | .journal _ => foreign s
  | .slot k => slotWrite s k a w
  | .staging => { s with mem := memPutWord s.mem a w }
  | .release =>
    let t := { s with mem := memPutWord s.mem a w }
    settled (putJrn t (jrnRelease t w.toNat))
  | .unassigned => s
  | .register => registerWrite s (a - 0x7FF0) w

/-- R155: the word two bytes make, the one written last at `a`. -/
def joinBytes (a : Addr) (last held : Byte) : Word := if isLow a then wordOf held last else wordOf last held

/-- R155: a host byte write in READY: the held byte's word completed, or a new held byte. -/
def hostByteWrite (s : State) (a : Addr) (b : Byte) : State :=
  match s.hpi.held with
  | some (h, v) =>
    if h ≠ a ∧ evenOf h = evenOf a then
      hostWord { s with hpi := { s.hpi with held := none } } (evenOf a).toNat (joinBytes a b v)
    else { s with hpi := { s.hpi with held := some (a, b) } }
  | none => { s with hpi := { s.hpi with held := some (a, b) } }

/-- R155: a completed host write given whole; its bytes leave no held byte. -/
def hostWordWrite (s : State) (a : Nat) (w : Word) : State := hostWord { s with hpi := { s.hpi with held := none } } a w

/-- R155: the byte of a word at an address. -/
def byteAt (a : Addr) (w : Word) : Byte := if isLow a then loByte w else hiByte w

/-- R155: a new snapshot. -/
def newSnapshot (s : State) (a : Addr) : State :=
  let w := spmWord s (evenOf a).toNat
  { s with hpi := { s.hpi with snap := some (a, w), dataOut := byteAt a w } }

/-- R155: a host byte read. The byte that took the snapshot, read again, is Config's (log 9). -/
def hostByteRead (s : State) (a : Addr) : State :=
  match s.hpi.snap with
  | some (t, w) =>
    if evenOf t ≠ evenOf a then newSnapshot s a
    else if t ≠ a then { s with hpi := { s.hpi with snap := none, dataOut := byteAt a w } }
    else if Config.rereadTakesNew then newSnapshot s a
    else { s with hpi := { s.hpi with dataOut := byteAt a w } }
  | none => newSnapshot s a

end Sys2Proof.Machine
end

