-- ==== Sys2Proof/Machine/Clock.lean ====
section
/-! DEFINITION. The passing of time: one 250 µs period on an empty queue, and the events that fall due
(DESIGN CHOICE, log 1). -/

namespace Sys2Proof.Machine

/-- One period off a running timer. -/
def countDown (t : Option Nat) : Option Nat := t.map (· - 1)

/-- Whether a timer has run out. -/
def ranOut (t : Option Nat) : Bool := t == some 0

/-- A period at CBC. -/
def tickCbc (c : Cbc) : Cbc :=
  { ports := Vector.ofFn fun p => { c.ports[p] with tagWait := countDown c.ports[p].tagWait }
    orders := Vector.ofFn fun i => c.orders[i].map fun o => { o with timer := countDown o.timer } }

/-- A period at a group. -/
def tickGroup (g : Group) : Group :=
  { g with
    mons := Vector.ofFn fun m => { g.mons[m] with timer := countDown g.mons[m].timer }
    wait := g.wait.map fun w => match w with | .restore m t => .restore m (countDown t) | .stay m => .stay m
    confirm := match g.confirm with | .running r => .running (r - 1) | .idle => .idle | .expired => .expired }

/-- A period at PRC. -/
def tickPrc (c : Prc) : Prc := { c with groups := Vector.ofFn fun g => c.groups[g].map tickGroup }

/-- The holdover age stops at 72 h (R120). -/
def tickAge (t : Tsel) : Nat := if t.state = .holdover then min (t.age + 1) (holdLimitPeriods 72) else t.age

/-- A period at TSEL. -/
def tickTsel (t : Tsel) : Tsel :=
  { t with
    refs := Vector.ofFn fun r => { t.refs[r] with silence := countDown t.refs[r].silence }
    warmUp := countDown t.warmUp, steer := countDown t.steer, age := tickAge t }

/-- A period at an alarm. -/
def tickAlarm (x : Alarm) : Alarm :=
  { x with state := match x.state with
      | .pending r => .pending (r - 1)
      | .active => .active
      | .clearing r => .clearing (r - 1) }

/-- A period at ALM. -/
def tickAlm (a : Alm) : Alm :=
  { a with entries := Vector.ofFn fun i => { a.entries[i] with alarm := a.entries[i].alarm.map tickAlarm } }

/-- A period at CIU. -/
def tickCiu (v : Vector ContactIn 8) : Vector ContactIn 8 :=
  Vector.ofFn fun i => { v[i] with timer := countDown (v[i]).timer }

/-- A period in READY; what the mirrors show of time moves with the generation words (R157). -/
def tickReady (s : State) : State :=
  let t := { s with
    start := { s.start with periods := s.start.periods + 1, frameDue := true }
    cbc := tickCbc s.cbc, prc := tickPrc s.prc, tsel := tickTsel s.tsel, alm := tickAlm s.alm, ciu := tickCiu s.ciu }
  stampTiming s.rqu.shelf s (stampOrders s (stampGroups s t))

/-- A period in INIT. The holdover age that a warm restart keeps (R124) stands still (DESIGN CHOICE, log 59). -/
def tickInit (s : State) : State :=
  { s with start := { s.start with initPeriods := s.start.initPeriods + 1, frameDue := true } }

/-- R170, R171: the most periods INIT lasts: 5 ms after a cold reset, 2 ms after a warm restart. -/
def initBound (cold : Bool) : Nat := if cold then 20 else 8

/-- Whether INIT is over: at the latest at its bound (log 7). -/
def initOver (s : State) : Bool := decide (min (initBound s.start.cold) (Config.initPeriods s.choices) ≤ s.start.initPeriods)

/-- The expiries due at CBC. -/
def dueCbc (c : Cbc) : List Instr :=
  (allPorts.filter fun p => ranOut c.ports[p].tagWait).map .tagWaitExpiry ++
  allOrders.filterMap fun i =>
    match c.orders[i] with
    | some o =>
      if ranOut o.timer then
        (match o.state with
          | .opened => some (.windowExpiry i)
          | .verifying => some (.verifyTimerExpiry i)
          | .closedGood | .closedFault | .cancelled => none)
      else none
    | none => none

/-- The expiries due at a group. -/
def dueGroup (gi : GroupIx) (g : Group) : List Instr :=
  ((List.range 7).filter fun m => ranOut (g.mon m).timer).map (.holdOffExpiry gi) ++
  (match g.wait with
    | some (.restore _ t) => if ranOut t then [.wtrExpiry gi] else []
    | some (.stay _) | none => []) ++
  (match g.confirm with
    | .running r => if r = 0 then [.bridgeConfirmationExpiry gi] else []
    | .idle | .expired => [])

/-- The expiries due at PRC. -/
def duePrc (c : Prc) : List Instr :=
  allGroups.flatMap fun gi =>
    match c.groups[gi] with
    | some g => dueGroup gi g
    | none => []

/-- Whether the steering timer runs in this timing state (R118). -/
def TimingState.selfSteers : TimingState → Bool
  | .freeRun | .holdover => true
  | .acquiring | .locked => false

/-- The events due at TSEL. -/
def dueTsel (t : Tsel) (shelf : ShelfRec) : List Instr :=
  (allRefs.filter fun r => ranOut t.refs[r].silence && t.refs[r].active).map .activityLost ++
  (if ranOut t.warmUp then [.warmUpEnd] else []) ++
  (if ranOut t.steer && t.state.selfSteers then [.steeringTimerExpiry] else []) ++
  (if t.agedNow shelf.holdLimit then [.holdoverAged] else [])

/-- The soaks due at ALM. -/
def dueAlm (a : Alm) : List Instr :=
  (List.finRange 128).filterMap fun i =>
    match a.entries[i].alarm with
    | some x =>
      (match x.state with
        | .pending r => if r = 0 then some (.raiseSoakExpiry i) else none
        | .clearing r => if r = 0 then some (.clearSoakExpiry i) else none
        | .active => none)
    | none => none

/-- The debounce timers due at CIU. -/
def dueCiu (v : Vector ContactIn 8) : List Instr :=
  ((List.finRange 8).filter fun i => ranOut (v[i]).timer).map .debounceExpiry

/-- R161: the request RQU is executing, as a command. -/
def requestCommand (s : State) (k : SlotIx) : Instr :=
  match slotRequest s k with
  | some r => r.command k
  | none => .unknownCode k

/-- The work due at RQU: the request in execution, and the jobs that have finished. -/
def dueRqu (s : State) : List Instr :=
  (s.rqu.exec.map (requestCommand s)).toList ++
  (s.rqu.jobs.filter fun j => jobFinished s.pmon j).map fun j => .calbJobDone j.slot

/-- What is due at this moment. -/
def due (s : State) : List Instr :=
  (if s.start.frameDue then [.lcpFrame] else []) ++
  if s.start.ready then
    dueCbc s.cbc ++ duePrc s.prc ++ dueTsel s.tsel s.rqu.shelf ++ dueAlm s.alm ++ dueCiu s.ciu ++ dueRqu s
  else if initOver s then [.enterReady] else []

/-- The H3 with an empty queue: one of the events that are due is queued, in a free order (log 33); when none is
due, a period passes. -/
def tick (s : State) : State :=
  let o := freely (due s) s
  match o.1 with
  | c :: _ => { o.2 with pending := [c] }
  | [] => if s.start.ready then tickReady s else tickInit s

end Sys2Proof.Machine
end

