-- ==== Sys2Proof/Machine/Monitor.lean ====
section
/-! DEFINITION. The commands of the monitor bus and the line control port: SAMPLE and the events it can be,
CALB_JOB_DONE, LCP_FRAME. A command that names a particular event at a sample is that sample; when the sample
is not that event, nothing happens (log 2). -/

namespace Sys2Proof.Machine

/-- What a command answers. -/
abbrev Answer := Host.Outcome State Fault Refusal

/-- A command whose event happens exactly when `c` holds; the state stays otherwise (log 2). -/
def whenever (c : Bool) (s t : State) : Answer := .next (if c then t else s)

/-- R1, R170: whether a sample of the port is taken: in READY, on a populated port. -/
def sampleTaken (s : State) (x : Sample) : Bool := s.start.ready && s.populated x.port

/-- SAMPLE (R1). During INIT no sample reaches a block (R170). -/
def execSample (x : Sample) (s : State) : Answer := whenever s.start.ready s (takeSample s x)

/-- R2: the missed sample declares MON-LOST. -/
def declaresMonLost (s : State) (x : Sample) : Bool :=
  let r := s.pmon.ports[x.port]
  sampleTaken s x && !x.valid && !r.monLost && decide (64 ≤ r.run + 1)

/-- MON_LOST (R2). -/
def execMonLost (x : Sample) (s : State) : Answer := whenever (declaresMonLost s x) s (takeSample s x)

/-- R11: the sample is a tracking point. -/
def isTrackingPoint (s : State) (x : Sample) : Bool :=
  let r := s.pmon.ports[x.port]
  sampleTaken s x && x.valid && decide (2 ^ (s.pmon.profiles[r.profile]).k ≤ r.track + 1)

/-- TRACKING_POINT (R12). -/
def execTrackingPoint (x : Sample) (s : State) : Answer := whenever (isTrackingPoint s x) s (takeSample s x)

/-- R19: the card's reading changes its accepted state. -/
def acceptsCard (s : State) (x : Sample) : Bool :=
  let c := s.pmon.cards[cardOf x.port]
  let scan := (mbpTake s.mbp x).scan
  sampleTaken s x && x.valid && decide (c.scan ≠ some scan) &&
  decide ((cardReading x.present x.fault scan c).accepted ≠ c.accepted)

/-- CARD_STATE_ACCEPTED (R19). -/
def execCardStateAccepted (x : Sample) (s : State) : Answer := whenever (acceptsCard s x) s (takeSample s x)

/-- R14: the sample brings the port's 64th value. -/
def calibratesPort (s : State) (x : Sample) : Bool :=
  let r := s.pmon.ports[x.port]
  sampleTaken s x && x.valid &&
  decide ((portValid s.pmon.profiles[r.profile] s.pmon.cards[cardOf x.port].accepted s.cbc.ports[x.port].hold.isSome
    x.code r).2 = some .calibrated)

/-- PORT_CALIBRATED (R14). -/
def execPortCalibrated (x : Sample) (s : State) : Answer := whenever (calibratesPort s x) s (takeSample s x)

/-- CALB_JOB_DONE (R163). -/
def execCalbJobDone (k : SlotIx) (s : State) : Answer := .next (jobDone s k)

/-- R31: the sample brings the loss counter to 168 in CANDIDATE or LOCKED. -/
def losesDecoder (s : State) (x : Sample) : Bool :=
  let d := s.tcd.decs[x.port]
  sampleTaken s x && decide (d.st ≠ .hunt) && decide ((decoderSample d x.tagBit x.valid).st = .hunt)

/-- DECODER_LOSS (R31). -/
def execDecoderLoss (x : Sample) (s : State) : Answer := whenever (losesDecoder s x) s (takeSample s x)

/-- LCP_FRAME (R92). -/
def execLcpFrame (s : State) : Answer := .next (sendFrame s)

end Sys2Proof.Machine
end

