-- ==== Sys2Proof/Machine/Cabling.lean ====
section
/-! DEFINITION. The requests of the cabling controller: ADPT, WKOP, WKEN, WKCN, WKDR (chapter 3), and CALB. -/

namespace Sys2Proof.Machine

/-- R41: ADPT. -/
def askAdpt (k : SlotIx) (s : State) : Reply :=
  let ports := portSet s k
  if ports = [] then refuse s .badArg 0
  else
    match ports.find? fun p => s.cbc.ports[p].hold.isSome with
    | some p => refuse s .conflict p.val
    | none =>
      done (settled (putCbc s (adoptPorts s ports))) (ports.filter fun p => !adoptable s p).length

/-- The list position, from 1, of the first item that a test picks. -/
def positionOf {α : Type} (test : α → Bool) (xs : List α) : Option Nat := (xs.findIdx? test).map (· + 1)

/-- R48: the list position of the second appearance of a port. Where several ports are listed again, as in 12, 13, 13, 12,
it is the lowest position at which any port stands that is listed before it, 3 there (DESIGN CHOICE, log 64). -/
def repeated (ps : List Port) : Option Nat :=
  (((List.range ps.length).find? fun i =>
    match ps[i]? with
    | some p => (ps.take i).contains p
    | none => false)).map (· + 1)

/-- R47: whether a port lies outside a frame section. -/
def outside (f : Option (Fin 8)) (p : Port) : Bool :=
  match f with
  | some f => p.val / 8 != f.val
  | none => false

/-- R48: the refusal of a well-read WKOP, if any, and the entry it takes otherwise. -/
def judgeWkop (s : State) (number : Nat) (f : Option (Fin 8)) (override : Bool) (ps : List Port) :
    Except (Result × Nat) OrderIx :=
  match repeated ps, positionOf (outside f) ps, positionOf (fun p => !s.populated p) ps, findOrder s.cbc number,
      freeOrder s.cbc, positionOf (fun p => s.cbc.ports[p].hold.isSome) ps,
      (if override then none else firstNotTaken s ps [] ps 1) with
  | some i, _, _, _, _, _, _ => .error (.badArg, i)
  | none, some i, _, _, _, _, _ => .error (.badArg, i)
  | none, none, some i, _, _, _, _ => .error (.noObject, i)
  | none, none, none, some _, _, _, _ => .error (.conflict, 0)
  | none, none, none, none, none, _, _ => .error (.full, 0)
  | none, none, none, none, some _, some i, _ => .error (.conflict, i)
  | none, none, none, none, some _, none, some i => .error (.conflict, 16 + i)
  | none, none, none, none, some e, none, none => .ok e

/-- R48, R49: WKOP; order number and window are words (DESIGN CHOICE, log 56). -/
def askWkop (k : SlotIx) (s : State) : Reply :=
  let number := param16 s k 0
  let window := clampNat 1 480 (param16 s k 2)
  match wkopItems s k, wkopSection s k with
  | some items, some f =>
    if number = 0 ∨ wkopCount s k = 0 ∨ 8 < wkopCount s k then refuse s .badArg 0
    else
      match judgeWkop s number f (wkopOverride s k) (items.map (·.1)) with
      | .error e => refuse s e.1 e.2
      | .ok i => done (settled (putCbc s (openOrder s i number window f items))) (changed (param16 s k 2) window)
  | _, _ => refuse s .badArg 0

/-- R51, R56, R57: the entry a request's order number, a word (DESIGN CHOICE, log 56), names, or the refusal. -/
def namedOrder (s : State) (k : SlotIx) : Except Result (OrderIx × Order) :=
  let number := param16 s k 0
  if number = 0 then .error .badArg
  else
    match findOrder s.cbc number with
    | none => .error .noObject
    | some i =>
      match s.cbc.orders[i] with
      | some o => .ok (i, o)
      | none => .error .noObject

/-- R51: WKEN. -/
def askWken (k : SlotIx) (s : State) : Reply :=
  match namedOrder s k with
  | .error r => refuse s r 0
  | .ok x => if x.2.state = .opened then done (settled (putCbc s (endOrder s x.1 x.2))) 0 else refuse s .wrongState 0

/-- R56: WKCN. -/
def askWkcn (k : SlotIx) (s : State) : Reply :=
  match namedOrder s k with
  | .error r => refuse s r 0
  | .ok x =>
    if x.2.state = .opened ∨ x.2.state = .verifying then done (settled (putCbc s (cancelOrder s x.1 x.2))) 0
    else refuse s .wrongState 0

/-- R57: WKDR. -/
def askWkdr (k : SlotIx) (s : State) : Reply :=
  match namedOrder s k with
  | .error r => refuse s r 0
  | .ok x =>
    if x.2.state = .opened ∨ x.2.state = .verifying then refuse s .wrongState 0
    else done (settled (putCbc s (dropOrder s x.1 x.2))) 0

/-- ADPT (R41). -/
def execAdpt (k : SlotIx) (s : State) : Answer := .next (runRequest s k .adpt (askAdpt k))

/-- CALB (R163). -/
def execCalb (k : SlotIx) (s : State) : Answer := .next (runRequest s k .calb (askCalb k))

/-- WKOP (R48). -/
def execWkop (k : SlotIx) (s : State) : Answer := .next (runRequest s k .wkop (askWkop k))

/-- WKEN (R51). -/
def execWken (k : SlotIx) (s : State) : Answer := .next (runRequest s k .wken (askWken k))

/-- WKCN (R56). -/
def execWkcn (k : SlotIx) (s : State) : Answer := .next (runRequest s k .wkcn (askWkcn k))

/-- WKDR (R57). -/
def execWkdr (k : SlotIx) (s : State) : Answer := .next (runRequest s k .wkdr (askWkdr k))

end Sys2Proof.Machine
end

