-- ==== Sys2Proof/Machine/Commands.lean ====
section
/-! DEFINITION. The protection commands PSLO, PSFS, PSMS, PSCL (R70), the timing commands TMLK, TMFS, TMCL (R114),
the alarm requests ALAK and ALCO (R139, R144), and ABRT (R164). -/

namespace Sys2Proof.Machine

/-- R70: the group a command names, by the byte at +0 (DESIGN CHOICE, log 56), or the refusal of the checks that every
protection command shares. -/
def namedGroup (s : State) (k : SlotIx) : Except Result (GroupIx × Group) :=
  if !s.rqu.loaded then .error .notReady
  else if h : (param8 s k 0).toNat < 16 then
    match s.prc.groups[(⟨(param8 s k 0).toNat, h⟩ : GroupIx)] with
    | some g => .ok (⟨(param8 s k 0).toNat, h⟩, g)
    | none => .error .noObject
  else .error .badArg

/-- R70: an accepted protection command at its group. -/
def atNamed (s : State) (gi : GroupIx) (change : Group → Group) : State := settled (putPrc s (prcOne s gi change))

/-- R71: PSLO. -/
def askPslo (k : SlotIx) (s : State) : Reply :=
  match namedGroup s k with
  | .error r => refuse s r 0
  | .ok x => done (atNamed s x.1 Group.setLockout) 0

/-- R72: PSFS; the member is the byte at +1 (DESIGN CHOICE, log 56). -/
def askPsfs (k : SlotIx) (s : State) : Reply :=
  match namedGroup s k with
  | .error r => refuse s r 0
  | .ok x =>
    let m := (param8 s k 1).toNat
    if m = 0 ∨ x.2.n < m then refuse s .badArg 0
    else if !x.2.protRequests.isEmpty then refuse s .superseded 0
    else done (atNamed s x.1 fun g => g.setForce m) 0

/-- R73: PSMS; the member is the byte at +1 (DESIGN CHOICE, log 56). -/
def askPsms (k : SlotIx) (s : State) : Reply :=
  match namedGroup s k with
  | .error r => refuse s r 0
  | .ok x =>
    let m := (param8 s k 1).toNat
    if m = 0 ∨ x.2.n < m then refuse s .badArg 0
    else if x.2.above ordManual then refuse s .superseded 0
    else done (atNamed s x.1 fun g => g.setManual m) 0

/-- R74: PSCL. -/
def askPscl (k : SlotIx) (s : State) : Reply :=
  match namedGroup s k with
  | .error r => refuse s r 0
  | .ok x => done (atNamed s x.1 Group.clearCommands) x.2.clearCount

/-- PSLO (R71). -/
def execPslo (k : SlotIx) (s : State) : Answer := .next (runRequest s k .pslo (askPslo k))

/-- PSFS (R72). -/
def execPsfs (k : SlotIx) (s : State) : Answer := .next (runRequest s k .psfs (askPsfs k))

/-- PSMS (R73). -/
def execPsms (k : SlotIx) (s : State) : Answer := .next (runRequest s k .psms (askPsms k))

/-- PSCL (R74). -/
def execPscl (k : SlotIx) (s : State) : Answer := .next (runRequest s k .pscl (askPscl k))

/-- R114: the reference a command names, by the byte at +0 (DESIGN CHOICE, log 56), or the refusal. -/
def namedRef (s : State) (k : SlotIx) : Except Result RefIx :=
  if !s.rqu.loaded then .error .notReady
  else if h : (param8 s k 0).toNat < 6 then .ok ⟨(param8 s k 0).toNat, h⟩
  else .error .badArg

/-- R114: TMLK. -/
def askTmlk (k : SlotIx) (s : State) : Reply :=
  match namedRef s k with
  | .error r => refuse s r 0
  | .ok r => done (settled (putTsel s (tselLock s r))) 0

/-- R114: TMFS. -/
def askTmfs (k : SlotIx) (s : State) : Reply :=
  match namedRef s k with
  | .error r => refuse s r 0
  | .ok r => done (settled (putTsel s (tselForce s r))) 0

/-- R114: TMCL. -/
def askTmcl (s : State) : Reply :=
  if s.rqu.loaded then done (settled (putTsel s (tselClear s))) s.tsel.clearCount else refuse s .notReady 0

/-- TMLK (R114). -/
def execTmlk (k : SlotIx) (s : State) : Answer := .next (runRequest s k .tmlk (askTmlk k))

/-- TMFS (R114). -/
def execTmfs (k : SlotIx) (s : State) : Answer := .next (runRequest s k .tmfs (askTmfs k))

/-- TMCL (R114). -/
def execTmcl (k : SlotIx) (s : State) : Answer := .next (runRequest s k .tmcl askTmcl)

/-- R139: the name ALL. -/
def ackAll : Nat := 0xFFFF

/-- R139: ALAK. -/
def askAlak (k : SlotIx) (s : State) : Reply :=
  let n := param16 s k 0
  if n = ackAll then done (settled (putAlm s (almAck s (List.finRange 128)))) 0
  else if h : n < 128 then
    if s.alm.entries[(⟨n, h⟩ : EntryIx)].alarm.isSome then done (settled (putAlm s (almAck s [⟨n, h⟩]))) 0
    else done s 1
  else refuse s .badArg 0

/-- R144: ALCO. -/
def askAlco (s : State) : Reply := done (settled (putAlm s (almCutOff s))) s.alm.audibleCount

/-- ALAK (R139). -/
def execAlak (k : SlotIx) (s : State) : Answer := .next (runRequest s k .alak (askAlak k))

/-- ALCO (R144). -/
def execAlco (k : SlotIx) (s : State) : Answer := .next (runRequest s k .alco askAlco)

/-- ABRT (R164). -/
def execAbrt (k : SlotIx) (s : State) : Answer := .next (runRequest s k .abrt (askAbrt k))

end Sys2Proof.Machine
end

