-- ==== Sys2Proof/WellFormed.lean ====
section
/-! DEFINITION. Which commands name an event that their row of the opcode table can be. Most operands
are in range by their types; the checks here are the ones a type does not make. -/

namespace Sys2Proof

/-- The register words REGISTER_WRITE_OTHER writes (R156, R158): IDENT, STATE, ATTN and the two reserved
words. -/
def otherRegisters : List Addr := [0x7FF0#15, 0x7FF2#15, 0x7FF4#15, 0x7FFC#15, 0x7FFE#15]

/-- A command is well formed when its operands can belong to an event of its row: MON_LOST's sample is a
missed one (R2); tracking, card acceptance and calibration happen at valid samples (R11, R19, R14); a
member number is 0 to 6 (the numbers table of 00_scope); an edge of the activity count and of a window
comes less than 0.5 ms, 80,000 count-clock ticks, after the one before it (R102); a register write names one
of the words of `otherRegisters`. -/
def Instr.WellFormed : Instr → Bool
  | .monLost x => !x.valid
  | .trackingPoint x => x.valid
  | .cardStateAccepted x => x.valid
  | .portCalibrated x => x.valid
  | .holdOffExpiry _ m => decide (m ≤ 6)
  | .activityRegained _ gap => decide (gap < 80000)
  | .windowComplete _ gap => decide (gap < 80000)
  | .registerWriteOther a _ => otherRegisters.contains a
  | .sample _ => true
  | .calbJobDone _ => true
  | .decoderLoss _ => true
  | .lcpFrame => true
  | .tagWaitExpiry _ => true
  | .windowExpiry _ => true
  | .verifyTimerExpiry _ => true
  | .wtrExpiry _ => true
  | .bridgeConfirmationExpiry _ => true
  | .activityLost _ => true
  | .warmUpEnd => true
  | .steeringTimerExpiry => true
  | .holdoverAged => true
  | .raiseSoakExpiry _ => true
  | .clearSoakExpiry _ => true
  | .contactPinChange _ _ => true
  | .debounceExpiry _ => true
  | .hostByteWrite _ _ => true
  | .hostByteRead _ => true
  | .attnClr _ => true
  | .attnMask _ => true
  | .unknownCode _ => true
  | .ldsh _ => true
  | .ldpf _ => true
  | .ldpt _ => true
  | .ldcr _ => true
  | .ldpg _ => true
  | .ldtr _ => true
  | .ldap _ => true
  | .ldci _ => true
  | .rdtb _ => true
  | .adpt _ => true
  | .calb _ => true
  | .wkop _ => true
  | .wken _ => true
  | .wkcn _ => true
  | .wkdr _ => true
  | .pslo _ => true
  | .psfs _ => true
  | .psms _ => true
  | .pscl _ => true
  | .tmlk _ => true
  | .tmfs _ => true
  | .tmcl _ => true
  | .alak _ => true
  | .alco _ => true
  | .abrt _ => true
  | .coldReset _ _ _ => true
  | .warmRestart => true
  | .enterReady => true
  | .referenceRisingEdge _ _ => true

end Sys2Proof
end

