-- ==== Sys2Proof/Machine/HostPort.lean ====
section
/-! DEFINITION. The commands of the host port: bytes, and completed writes of the register words. During INIT a
host write is ignored, uncounted, and its byte is not held (R156). -/

namespace Sys2Proof.Machine

/-- HOST_BYTE_WRITE (R155); without effect at the port HPI does not listen on (R169). -/
def execHostByteWrite (x : HostAddr) (b : Byte) (s : State) : Answer :=
  match byteAccess s true x with
  | none => .next s
  | some a => let t := advanceRun s true x a; whenever t.start.ready t (hostByteWrite t a b)

/-- HOST_BYTE_READ (R155), in INIT too; the byte returned is `hpi.dataOut`. Without effect at the port HPI does not listen
on (R169). -/
def execHostByteRead (x : HostAddr) (s : State) : Answer :=
  match byteAccess s false x with
  | none => .next s
  | some a => .next (hostByteRead (advanceRun s false x a) a)

/-- ATTN_CLR (R158). -/
def execAttnClr (w : Word) (s : State) : Answer := whenever s.start.ready s (hostWordWrite s 0x7FF6 w)

/-- ATTN_MASK (R158). -/
def execAttnMask (w : Word) (s : State) : Answer := whenever s.start.ready s (hostWordWrite s 0x7FF8 w)

/-- REGISTER_WRITE_OTHER (R156, R158): the words of `otherRegisters` only. -/
def execRegisterWriteOther (a : Addr) (w : Word) (s : State) : Answer :=
  whenever (s.start.ready && otherRegisters.contains a) s (hostWordWrite s a.toNat w)

end Sys2Proof.Machine
end

