-- ==== Sys2Proof/Machine/Load.lean ====
section
/-! DEFINITION. The eight table loads (R165 to R167): the loop over the entries and each table's application,
every applied entry settled before the next is read. -/

namespace Sys2Proof.Machine

/-! ### What an applied entry does -/

/-- R10, R15: what a baseline field makes of a port's record, and the outcome it ends a calibration with. -/
def takeBase (b : BaseField) (r : PortRec) : PortRec × Option CalOutcome :=
  match b with
  | .value v => endCal .overridden { r with baseline := some v, failCnt := 0, degCnt := 0, track := 0 }
  | .absent =>
    endCal .overridden { r with baseline := none, fail := false, failCnt := 0, degrade := false, degCnt := 0 }
  | .keep => (r, none)

/-- R10, R167: an applied port table entry at PMON, and whom it hands a changed role. -/
def pmonLoad (s : State) (p : Port) (e : PortEntry) : Pmon × List Msg :=
  let r := s.pmon.ports[p]
  let x := takeBase e.base { r with role := e.role, profile := e.profile }
  let h := reformPort (s.pmon.put p x.1 x.2) p
  let roleMsgs : List Msg := if e.role = r.role then [] else [.cbcRole p r.role]
  let roleChange : List AlmChange := if e.role = r.role then [] else [.role p]
  (h.1, roleMsgs ++ handPorts h.2 (portConditions p r x.1 ++ roleChange))

/-- R166: an applied shelf record. -/
def applyShelf (s : State) (c : ShelfRec) : State :=
  settled ({ s with rqu := { s.rqu with shelf := c, loaded := true } }, [.tselShelf s.rqu.shelf, .jrnMode c.stop])

/-- LDSH's entry. -/
def loadShelf (s : State) (_ : Nat) (e : List Byte) : Option (State × Nat) :=
  (readShelf e).map fun x => (applyShelf s x.1, x.2)

/-- LDPF's entry (R18). -/
def loadProfile (s : State) (i : Nat) (e : List Byte) : Option (State × Nat) :=
  let x := readProfile e
  some ({ s with pmon := { s.pmon with profiles := s.pmon.profiles.set (i % 8) x.1 (Nat.mod_lt _ (by decide)) } }, x.2)

/-- LDPT's entry (R167). -/
def loadPort (s : State) (i : Nat) (e : List Byte) : Option (State × Nat) :=
  let p : Port := Fin.ofNat 64 i
  (readPort s p e).map fun x => (settled (putPmon s (pmonLoad s p x.1)), x.2)

/-- LDCR's entry (R40). -/
def loadCabling (s : State) (i : Nat) (e : List Byte) : Option (State × Nat) :=
  let p : Port := Fin.ofNat 64 i
  (readCabling s p e).map fun x => (settled (putCbc s (cbcLoad s p x)), 0)

/-- LDPG's entry (R62). -/
def loadGroup (s : State) (i : Nat) (e : List Byte) : Option (State × Nat) :=
  let g : GroupIx := Fin.ofNat 16 i
  (readGroup s g e).map fun x => (settled (putPrc s (prcLoad s g x.1)), x.2)

/-- LDTR's entry (R99). -/
def loadRefEntry (s : State) (i : Nat) (e : List Byte) : Option (State × Nat) :=
  let r : RefIx := Fin.ofNat 6 i
  (readRef s r e).map fun x => (settled (putTsel s (tselLoad s r x.1)), x.2)

/-- LDAP's entry (R128). -/
def loadAlarm (s : State) (i : Nat) (e : List Byte) : Option (State × Nat) :=
  let t : Fin 24 := Fin.ofNat 24 i
  (readAlarm t e).map fun x => (settled (putAlm s (almProfile s t x.1)), x.2)

/-- LDCI's entry (R145). -/
def loadContact (s : State) (i : Nat) (e : List Byte) : Option (State × Nat) :=
  let n : InputIx := Fin.ofNat 8 i
  (readContact e).map fun x =>
    (settled (putCiu s (ciuLoad s n x.1.role x.1.frameSection x.1.activeHigh x.1.debounce)), x.2)

/-! ### The loop (R165) -/

/-- R165: the entry at a place of the staging area. -/
def stagedEntry (s : State) (base size i : Nat) : List Byte := memBytes s.mem (stagingBase + base + i * size) size

/-- R165: `n` more entries, `k` applied so far with `clamps` clamped fields. -/
def loadEntries (apply : State → Nat → List Byte → Option (State × Nat)) (size base first : Nat) :
    Nat → Nat → Nat → State → Reply
  | 0, _, clamps, s => done s (min clamps 65535)
  | n + 1, k, clamps, s =>
    match apply s (first + k) (stagedEntry s base size k) with
    | none => (s, some (.partLoad, k))
    | some x => loadEntries apply size base first n (k + 1) (clamps + x.2) x.1

/-- R165: a load of a table. -/
def askLoad (t : Table) (apply : State → Nat → List Byte → Option (State × Nat)) (k : SlotIx) (s : State) : Reply :=
  let r := loadRange s k
  if r.fits t then loadEntries apply t.size r.offset r.first r.count 0 0 s else refuse s .badArg 0

end Sys2Proof.Machine
end

