-- ==== Sys2Proof/Machine/Loads.lean ====
section
/-! DEFINITION. The commands LDSH to LDCI and RDTB (sections 11.2 and 11.3), and UNKNOWN_CODE. -/

namespace Sys2Proof.Machine

/-- UNKNOWN_CODE (R161). -/
def execUnknownCode (k : SlotIx) (s : State) : Answer := whenever (executing s k none) s (finish s k .unknown 0)

/-- LDSH (R166). -/
def execLdsh (k : SlotIx) (s : State) : Answer := .next (runRequest s k .ldsh (askLoad .shelf loadShelf k))

/-- LDPF (R18). -/
def execLdpf (k : SlotIx) (s : State) : Answer := .next (runRequest s k .ldpf (askLoad .profiles loadProfile k))

/-- LDPT (R167). -/
def execLdpt (k : SlotIx) (s : State) : Answer := .next (runRequest s k .ldpt (askLoad .ports loadPort k))

/-- LDCR (R40). -/
def execLdcr (k : SlotIx) (s : State) : Answer := .next (runRequest s k .ldcr (askLoad .cabling loadCabling k))

/-- LDPG (R62). -/
def execLdpg (k : SlotIx) (s : State) : Answer := .next (runRequest s k .ldpg (askLoad .groups loadGroup k))

/-- LDTR (R99). -/
def execLdtr (k : SlotIx) (s : State) : Answer := .next (runRequest s k .ldtr (askLoad .refs loadRefEntry k))

/-- LDAP (R128). -/
def execLdap (k : SlotIx) (s : State) : Answer := .next (runRequest s k .ldap (askLoad .alarms loadAlarm k))

/-- LDCI (R145). -/
def execLdci (k : SlotIx) (s : State) : Answer := .next (runRequest s k .ldci (askLoad .contacts loadContact k))

/-- RDTB (R168). -/
def execRdtb (k : SlotIx) (s : State) : Answer := .next (runRequest s k .rdtb (askRdtb k))

end Sys2Proof.Machine
end

