-- ==== Sys2Proof/Machine/References.lean ====
section
/-! DEFINITION. The commands of the timing references and of TSEL's timers. -/

namespace Sys2Proof.Machine

/-- R102 to R107, R117: an edge in READY. -/
def takeEdge (s : State) (r : RefIx) (gap : Nat) : State := settled (putTsel s (tselEdge s r gap))

/-- ACTIVITY_LOST (R102). -/
def execActivityLost (r : RefIx) (s : State) : Answer :=
  whenever (s.start.ready && s.tsel.refs[r].active) s (settled (putTsel s (tselLost s r)))

/-- R102: the edge regains activity. -/
def regainsActivity (s : State) (r : RefIx) (gap : Nat) : Bool :=
  let x := s.tsel.refs[r]
  s.start.ready && !x.active && decide (gap < halfMs) && decide (8 ≤ x.edges + 1)

/-- ACTIVITY_REGAINED (R102). -/
def execActivityRegained (r : RefIx) (gap : Nat) (s : State) : Answer :=
  whenever (regainsActivity s r gap) s (takeEdge s r gap)

/-- R104: the edge ends a window. -/
def completesWindow (s : State) (r : RefIx) (gap : Nat) : Bool :=
  let x := s.tsel.refs[r]
  s.start.ready && !edgeIsLate gap x && (windowEdge gap x).2.isSome

/-- WINDOW_COMPLETE (R104). -/
def execWindowComplete (r : RefIx) (gap : Nat) (s : State) : Answer :=
  whenever (completesWindow s r gap) s (takeEdge s r gap)

/-- WARM_UP_END (R106). -/
def execWarmUpEnd (s : State) : Answer :=
  whenever (s.start.ready && s.tsel.warmUp.isSome) s (settled (putTsel s (tselWarm s)))

/-- STEERING_TIMER_EXPIRY (R118). -/
def execSteeringTimerExpiry (s : State) : Answer :=
  whenever (s.start.ready && s.tsel.steer.isSome && s.tsel.state.selfSteers) s (settled (putTsel s (tselSteer s)))

/-- HOLDOVER_AGED (R120). -/
def execHoldoverAged (s : State) : Answer :=
  whenever (s.start.ready && s.tsel.agedNow s.rqu.shelf.holdLimit) s (settled (putTsel s (tselAged s)))

/-- REFERENCE_RISING_EDGE (R102, R104). -/
def execReferenceRisingEdge (r : RefIx) (gap : Nat) (s : State) : Answer := whenever s.start.ready s (takeEdge s r gap)

end Sys2Proof.Machine
end

