-- ==== Sys2Proof/Machine/Resets.lean ====
section
/-! DEFINITION. COLD_RESET, WARM_RESTART, ENTER_READY (section 11.4). -/

namespace Sys2Proof.Machine

/-- COLD_RESET (R169, R170): at any moment; the straps as the pins stand, the contact pins as they stand. -/
def execColdReset (pop64 : Bool) (shid : BitVec 6) (parallel : Bool) (s : State) : Answer :=
  .next (State.cold { pop64 := pop64, shid := shid, parallel := parallel } (Vector.ofFn fun i => s.ciu[i].pin) s.choices
    s.pending)

/-- WARM_RESTART (R171): a completed host write of 1 to CONTROL in READY. -/
def execWarmRestart (s : State) : Answer := whenever s.start.ready s (hostWordWrite s 0x7FFA 1)

/-- ENTER_READY (R170): the end of INIT. -/
def execEnterReady (s : State) : Answer := whenever (!s.start.ready) s (enterReady s)

end Sys2Proof.Machine
end

