-- ==== Sys2Proof/Machine/Timers.lean ====
section
/-! DEFINITION. The commands of the timers: cabling, protection, alarm soaks, and the contact inputs. An
expiry is taken in READY, while its timer runs (log 2, log 3). -/

namespace Sys2Proof.Machine

/-- TAG_WAIT_EXPIRY (R42). -/
def execTagWaitExpiry (p : Port) (s : State) : Answer :=
  whenever (s.start.ready && s.cbc.ports[p].tagWait.isSome) s (settled (putCbc s (cbcTagWait s p)))

/-- Whether the order of an entry is in the state, with its timer running. -/
def orderTimes (s : State) (i : OrderIx) (st : OrderState) : Bool :=
  match s.cbc.orders[i] with
  | some o => decide (o.state = st) && o.timer.isSome
  | none => false

/-- WINDOW_EXPIRY (R52). -/
def execWindowExpiry (i : OrderIx) (s : State) : Answer :=
  whenever (s.start.ready && orderTimes s i .opened) s (settled (putCbc s (cbcWindow s i)))

/-- VERIFY_TIMER_EXPIRY (R55). -/
def execVerifyTimerExpiry (i : OrderIx) (s : State) : Answer :=
  whenever (s.start.ready && orderTimes s i .verifying) s (settled (putCbc s (cbcVerify s i)))

/-- Whether a test holds of a defined group. -/
def atGroup (s : State) (gi : GroupIx) (test : Group → Bool) : Bool :=
  match s.prc.groups[gi] with
  | some g => test g
  | none => false

/-- HOLD_OFF_EXPIRY (R67). -/
def execHoldOffExpiry (gi : GroupIx) (m : Nat) (s : State) : Answer :=
  whenever (s.start.ready && atGroup s gi fun g => decide (m ≤ g.n) && (g.mon m).timer.isSome) s
    (settled (putPrc s (prcHoldOff s gi m)))

/-- R76: whether the group's WTR timer runs. -/
def Group.wtrRuns (g : Group) : Bool :=
  match g.wait with
  | some (.restore _ (some _)) => true
  | _ => false

/-- WTR_EXPIRY (R76). -/
def execWtrExpiry (gi : GroupIx) (s : State) : Answer :=
  whenever (s.start.ready && atGroup s gi Group.wtrRuns) s (settled (putPrc s (prcWtr s gi)))

/-- R88: whether the bridge confirmation timer runs. -/
def Group.confirmRuns (g : Group) : Bool :=
  match g.confirm with
  | .running _ => true
  | .idle | .expired => false

/-- BRIDGE_CONFIRMATION_EXPIRY (R88). -/
def execBridgeConfirmationExpiry (gi : GroupIx) (s : State) : Answer :=
  whenever (s.start.ready && atGroup s gi Group.confirmRuns) s (settled (putPrc s (prcConfirm s gi)))

/-- The alarm of an entry. -/
def alarmAt (s : State) (i : EntryIx) : Option Alarm := s.alm.entries[i].alarm

/-- Whether an entry is PENDING. -/
def isPending (s : State) (i : EntryIx) : Bool :=
  match alarmAt s i with
  | some x => (match x.state with | .pending _ => true | _ => false)
  | none => false

/-- Whether an entry is CLEARING. -/
def isClearing (s : State) (i : EntryIx) : Bool :=
  match alarmAt s i with
  | some x => (match x.state with | .clearing _ => true | _ => false)
  | none => false

/-- RAISE_SOAK_EXPIRY (R133). -/
def execRaiseSoakExpiry (i : EntryIx) (s : State) : Answer :=
  whenever (s.start.ready && isPending s i) s (settled (putAlm s (almRaise s i)))

/-- CLEAR_SOAK_EXPIRY (R134). -/
def execClearSoakExpiry (i : EntryIx) (s : State) : Answer :=
  whenever (s.start.ready && isClearing s i) s (settled (putAlm s (almClear s i)))

/-- The pin's level during INIT: no contact change reaches CIU, which takes the level as it stands at READY
(R147, R170). -/
def movePin (s : State) (i : InputIx) (high : Bool) : State := { s with ciu := s.ciu.set i { s.ciu[i] with pin := high } }

/-- CONTACT_PIN_CHANGE (R146). A pin named at the level it has already is no change. -/
def execContactPinChange (i : InputIx) (high : Bool) (s : State) : Answer :=
  if s.start.ready then
    whenever (decide (s.ciu[i].pin ≠ high)) s { s with ciu := s.ciu.set i (contactChange s.ciu[i] high) }
  else .next (movePin s i high)

/-- DEBOUNCE_EXPIRY (R146): the CONTACT record first, then the role acts. -/
def execDebounceExpiry (i : InputIx) (s : State) : Answer :=
  whenever (s.start.ready && s.ciu[i].timer.isSome) s
    (settled (settled (putCiu s (ciuAccept s i)), contactActs i s.ciu[i]))

end Sys2Proof.Machine
end

