-- ==== Sys2Proof/Machine/Dispatch.lean ====
section
/-! DEFINITION. The meaning of every command: one arm, one call. -/

namespace Sys2Proof.Machine

/-- A command's effect on everything but the queue. -/
def exec (i : Instr) (s : State) : Host.Outcome State Fault Refusal :=
  match i with
  | .sample x => Sys2Proof.Machine.execSample x s
  | .monLost x => Sys2Proof.Machine.execMonLost x s
  | .trackingPoint x => Sys2Proof.Machine.execTrackingPoint x s
  | .cardStateAccepted x => Sys2Proof.Machine.execCardStateAccepted x s
  | .portCalibrated x => Sys2Proof.Machine.execPortCalibrated x s
  | .calbJobDone slot => Sys2Proof.Machine.execCalbJobDone slot s
  | .decoderLoss x => Sys2Proof.Machine.execDecoderLoss x s
  | .lcpFrame => Sys2Proof.Machine.execLcpFrame s
  | .tagWaitExpiry port => Sys2Proof.Machine.execTagWaitExpiry port s
  | .windowExpiry entry => Sys2Proof.Machine.execWindowExpiry entry s
  | .verifyTimerExpiry entry => Sys2Proof.Machine.execVerifyTimerExpiry entry s
  | .holdOffExpiry group member => Sys2Proof.Machine.execHoldOffExpiry group member s
  | .wtrExpiry group => Sys2Proof.Machine.execWtrExpiry group s
  | .bridgeConfirmationExpiry group => Sys2Proof.Machine.execBridgeConfirmationExpiry group s
  | .activityLost ref => Sys2Proof.Machine.execActivityLost ref s
  | .activityRegained ref gap => Sys2Proof.Machine.execActivityRegained ref gap s
  | .windowComplete ref gap => Sys2Proof.Machine.execWindowComplete ref gap s
  | .warmUpEnd => Sys2Proof.Machine.execWarmUpEnd s
  | .steeringTimerExpiry => Sys2Proof.Machine.execSteeringTimerExpiry s
  | .holdoverAged => Sys2Proof.Machine.execHoldoverAged s
  | .raiseSoakExpiry entry => Sys2Proof.Machine.execRaiseSoakExpiry entry s
  | .clearSoakExpiry entry => Sys2Proof.Machine.execClearSoakExpiry entry s
  | .contactPinChange input high => Sys2Proof.Machine.execContactPinChange input high s
  | .debounceExpiry input => Sys2Proof.Machine.execDebounceExpiry input s
  | .hostByteWrite addr byte => Sys2Proof.Machine.execHostByteWrite addr byte s
  | .hostByteRead addr => Sys2Proof.Machine.execHostByteRead addr s
  | .attnClr value => Sys2Proof.Machine.execAttnClr value s
  | .attnMask value => Sys2Proof.Machine.execAttnMask value s
  | .registerWriteOther addr value => Sys2Proof.Machine.execRegisterWriteOther addr value s
  | .unknownCode slot => Sys2Proof.Machine.execUnknownCode slot s
  | .ldsh slot => Sys2Proof.Machine.execLdsh slot s
  | .ldpf slot => Sys2Proof.Machine.execLdpf slot s
  | .ldpt slot => Sys2Proof.Machine.execLdpt slot s
  | .ldcr slot => Sys2Proof.Machine.execLdcr slot s
  | .ldpg slot => Sys2Proof.Machine.execLdpg slot s
  | .ldtr slot => Sys2Proof.Machine.execLdtr slot s
  | .ldap slot => Sys2Proof.Machine.execLdap slot s
  | .ldci slot => Sys2Proof.Machine.execLdci slot s
  | .rdtb slot => Sys2Proof.Machine.execRdtb slot s
  | .adpt slot => Sys2Proof.Machine.execAdpt slot s
  | .calb slot => Sys2Proof.Machine.execCalb slot s
  | .wkop slot => Sys2Proof.Machine.execWkop slot s
  | .wken slot => Sys2Proof.Machine.execWken slot s
  | .wkcn slot => Sys2Proof.Machine.execWkcn slot s
  | .wkdr slot => Sys2Proof.Machine.execWkdr slot s
  | .pslo slot => Sys2Proof.Machine.execPslo slot s
  | .psfs slot => Sys2Proof.Machine.execPsfs slot s
  | .psms slot => Sys2Proof.Machine.execPsms slot s
  | .pscl slot => Sys2Proof.Machine.execPscl slot s
  | .tmlk slot => Sys2Proof.Machine.execTmlk slot s
  | .tmfs slot => Sys2Proof.Machine.execTmfs slot s
  | .tmcl slot => Sys2Proof.Machine.execTmcl slot s
  | .alak slot => Sys2Proof.Machine.execAlak slot s
  | .alco slot => Sys2Proof.Machine.execAlco slot s
  | .abrt slot => Sys2Proof.Machine.execAbrt slot s
  | .coldReset pop64 shid parallel => Sys2Proof.Machine.execColdReset pop64 shid parallel s
  | .warmRestart => Sys2Proof.Machine.execWarmRestart s
  | .enterReady => Sys2Proof.Machine.execEnterReady s
  | .referenceRisingEdge ref gap => Sys2Proof.Machine.execReferenceRisingEdge ref gap s

end Sys2Proof.Machine
end

