-- ==== Sys2Proof/Machine/Step.lean ====
section
/-! DEFINITION. One step of the H3: the command at the front of the queue, or, on an empty queue, what falls due
or the passing of a period (log 1). -/

namespace Sys2Proof.Machine

/-- One step. -/
def step (s : State) : Host.Outcome State Fault Refusal :=
  match s.pending with
  | c :: cs => exec c { s with pending := cs }
  | [] => .next (tick s)

/-- The command a word spells put at the front of the queue; no row of the table gives bits, so no word spells
one and the state stays (log 31). -/
def State.withFetchWord (s : State) (nbits w : Nat) : State :=
  match Sys2Proof.decodeTableWord nbits w with
  | some c => { s with pending := c :: s.pending }
  | none => s

end Sys2Proof.Machine
end

