-- ==== Sys2Proof/Safety.lean ====
section
/-! DEFINITION. What the rules say always holds of a state, block by block: the invariants that the claims are
stated with. -/

namespace Sys2Proof.Safety

open Sys2Proof.Machine

/-! ### PMON -/

/-- R9: a power within −5000..+1000 cdBm. -/
def inPower (x : Int) : Bool := decide (-5000 ≤ x) && decide (x ≤ 1000)

/-- R18: a profile within its ranges. -/
def profileOk (f : Profile) : Bool :=
  decide (1 ≤ f.alpha ∧ f.alpha ≤ 16) && decide (0 ≤ f.beta ∧ f.beta ≤ 15) && decide (4 ≤ f.k ∧ f.k ≤ 12) &&
  decide (f.limit = 0 ∨ (50 ≤ f.limit ∧ f.limit ≤ 3000)) && decide (-5000 ≤ f.losThr ∧ f.losThr ≤ 0) &&
  decide (1 ≤ f.losN ∧ f.losN ≤ 8) && decide (50 ≤ f.degThr ∧ f.degThr ≤ 2000) &&
  decide (f.degThr + 50 ≤ f.failThr ∧ f.failThr ≤ 3000) && decide (10 ≤ f.hyst ∧ f.hyst ≤ 500) &&
  decide (f.hyst ≤ f.degThr - 10) && decide (1 ≤ f.defN ∧ f.defN ≤ 255)

/-- R9, R13: a port's powers in range, and the running sum of a calibration a sum of powers. -/
def portOk (r : PortRec) : Bool :=
  inPower r.power && r.smoothed.all inPower && r.baseline.all inPower &&
  r.cal.all fun c => decide (c.count ≤ 63 ∧ -5000 * (c.count : Int) ≤ c.sum ∧ c.sum ≤ 1000 * (c.count : Int))

/-- R9, R18: every port and profile. -/
def pmonOk (m : Pmon) : Bool :=
  (List.finRange 64).all (fun p => portOk m.ports[p]) && (List.finRange 8).all fun i => profileOk m.profiles[i]

/-- R20: every port shows the port state its record and its card give. -/
def portsFormed (m : Pmon) : Bool :=
  (List.finRange 64).all fun p => decide (m.ports[p].handed = portStateOf m.cards[cardOf p].accepted m.ports[p])

/-! ### TSEL -/

/-- A steering value in the trim converter's range (R116). -/
def inTrim (x : Int) : Bool := decide (-50000 ≤ x) && decide (x ≤ 50000)

/-- R103, R112: a reference that has a state other than DISABLED is enabled. -/
def refOk (x : RefRec) : Bool := x.entry.enable || decide (x.state = .disabled)

/-- R112, R116, R117, R119: the steering value and the history in range, the selected reference eligible and
enabled. -/
def tselOk (t : Tsel) : Bool :=
  inTrim t.steering && t.holdValue.all inTrim && t.history.all inTrim && decide (t.history.length ≤ 16) &&
  decide (t.unlimited ≤ 2) && allRefs.all (fun r => refOk t.refs[r]) && t.selected.all t.eligible

/-! ### ALM -/

/-- R131: no two non-FREE entries share object and type. -/
def noTwins (a : Alm) : Bool :=
  (List.finRange 128).all fun i =>
    (List.finRange 128).all fun j =>
      match a.entries[i].alarm, a.entries[j].alarm with
      | some x, some y => decide (i = j) || !decide (x.type = y.type ∧ x.obj = y.obj)
      | _, _ => true

/-- R143: what rings is ACTIVE or CLEARING, CRIT or MAJ, and not acknowledged. -/
def audibleOk (x : Alarm) : Bool := !x.audible || (x.shown && x.severity.rings && !x.ack)

/-- R142, R143: the bay outputs follow the table and the audible set. -/
def almOk (a : Alm) : Bool :=
  noTwins a && ((List.finRange 128).all fun i => a.entries[i].alarm.all audibleOk) && decide (a.outputs = formOutputs a)

/-- R127, R129, R130, R131, R134: an entry holds a condition of a tabled type that is not suppressed, with a tabled
severity; it is CLEARING just when the condition is absent. -/
def entryOk (a : Alm) (x : Alarm) : Bool :=
  (a.profileOf x.type).severity.tabled && !a.suppressed x.type x.obj && x.severity.tabled &&
  (a.isPresent x.type x.obj == match x.state with | .clearing _ => false | .pending _ | .active => true)

/-- R125: the present set in its order, each condition once. -/
def presentOk (ps : List (CondType × Nat)) : Bool :=
  decide (ps.Nodup) && decide (ps.Pairwise fun c d => condKey c ≤ condKey d)

/-- The alarm table and the present set as every batch and timer event leave them. -/
def tableOk (a : Alm) : Bool :=
  almOk a && presentOk a.present && (List.finRange 128).all fun i => a.entries[i].alarm.all (entryOk a)

/-! ### JRN -/

/-- R148, R150: positions and sequence numbers in range, the full flag just when 256 records are unreleased in
STOP mode, nothing unreleased in WRAP mode. -/
def jrnOk (j : Jrn) : Bool :=
  decide (j.pos < 256) && decide (1 ≤ j.seq ∧ j.seq ≤ 65535) && decide (j.unrel ≤ 256) &&
  (if j.stop then j.full == decide (j.unrel = 256) else !j.full && j.unrel == 0) && decide (j.lost ≤ 65535) &&
  decide (j.badRel ≤ 65535)

/-! ### PRC -/

/-- R61, R85 to R87, R90: the members in range, a 1+1 group permanently bridged, a 1TN group's selected member
its bridged member. -/
def groupOk (g : Group) : Bool :=
  (match g.kind with
    | .uni | .bi => g.n == 1 && g.bridged == 1 && decide (g.selected ≤ 1)
    | .oneToN => decide (1 ≤ g.n ∧ g.n ≤ 6) && decide (g.bridged ≤ g.n) && (g.selected == 0 || g.selected == g.bridged)) &&
  decide (g.order.Nodup) && (g.manual.isNone || !g.above ordManual) &&
  (match g.wait with | some w => !g.above w.ord | none => true)

/-- R78, R83 to R87, R89, R90: a group as every event leaves it: its top local and its winning request formed, no manual
under a far winning request above MANUAL, bridge and selector where the winning request puts them, the switch fields as
sent. -/
def groupSettled (g : Group) : Bool :=
  decide (g.top = g.formTop) && decide ((g.win, g.side) = arbitrate g.kind g.top g.farTaken) &&
  (g.manual.isNone || !decide (g.side = .farEnd ∧ ordManual < g.win.ord)) &&
  (match g.kind with
    | .uni | .bi => g.bridged == 1 && g.selected == (if g.win.mem = 0 ∨ g.win.ord = 0 then 0 else 1)
    | .oneToN =>
      g.bridged == (if g.win.ord = 0 then 0 else g.win.mem) &&
      g.selected == (if g.sigLost || g.farBridgedTaken == g.bridged then g.bridged else 0)) &&
  decide (g.sent = g.sentFields)

/-- Every defined group settled. -/
def prcSettled (c : Prc) : Bool := allGroups.all fun gi => c.groups[gi].all groupSettled

/-- Every defined group. -/
def prcOk (c : Prc) : Bool := allGroups.all fun gi => c.groups[gi].all groupOk

/-! ### CBC -/

/-- R46: whether an order is in a state that holds its ports. -/
def Order.holding (o : Order) : Bool := decide (o.state = .opened ∨ o.state = .verifying)

/-- R46: a port's mark names an order that holds it. -/
def holdOk (c : Cbc) (p : Port) : Bool :=
  match c.ports[p].hold with
  | none => true
  | some i =>
    match c.orders[i] with
    | some o => Order.holding o && o.ports.contains p
    | none => false

/-- R46: an order that holds its ports has its mark on each of them, and lists none twice. -/
def orderOk (c : Cbc) (i : OrderIx) : Bool :=
  match c.orders[i] with
  | none => true
  | some o => !Order.holding o || (decide o.ports.Nodup && o.ports.all fun p => decide (c.ports[p].hold = some i))

/-- R47: no two entries hold the same order number. -/
def numbersOk (c : Cbc) : Bool :=
  allOrders.all fun i => allOrders.all fun j =>
    match c.orders[i], c.orders[j] with
    | some a, some b => decide (i = j) || a.number != b.number
    | _, _ => true

/-- R46, R47. -/
def cbcOk (c : Cbc) : Bool := allPorts.all (holdOk c) && allOrders.all (orderOk c) && numbersOk c

/-! ### HPI and memory -/

/-- R154: the memory in its canonical form; R156: the foreign-write count in 16 bits. -/
def hostOk (s : State) : Bool := memWf s.mem && decide (s.hpi.foreign ≤ 65535)

/-- R116: TSP's word is the steering value. -/
def tspOk (s : State) : Bool := decide (s.tsp = s.tsel.steering)

/-! ### The host port -/

/-- R155, R169: the address of a byte access at the pins of the port that the HIF strap selects; none at the other, and
for a later byte of a serial run that is not in progress. -/
def handedAddr (s : State) (write : Bool) (x : HostAddr) : Option Addr :=
  match x, s.straps.parallel, s.hpi.run with
  | .strobe a, true, _ => some a
  | .start a, false, _ => some a
  | .next, false, some r => if r.write = write then some r.next else none
  | .strobe _, false, _ | .start _, true, _ | .next, true, _ | .next, false, none => none

/-- R155: the state past a byte access at the address `a`: a serial run stands at the address after it. -/
def pastByte (s : State) (write : Bool) (x : HostAddr) (a : Addr) : State :=
  match x with
  | .strobe _ => s
  | .start _ | .next => { s with hpi := { s.hpi with run := some { write := write, next := a + 1 } } }

/-! ### Entries of the tables (chapter 11) -/

/-- R153, R166: a shelf record within its ranges. -/
def shelfOk (c : ShelfRec) : Bool :=
  decide (100 ≤ c.tagWait ∧ c.tagWait ≤ 5000) && decide (1 ≤ c.verify ∧ c.verify ≤ 60) &&
  decide (1 ≤ c.warmUp ∧ c.warmUp ≤ 64) && decide (1 ≤ c.slew ∧ c.slew ≤ 5000) &&
  decide (-5000 ≤ c.trim ∧ c.trim ≤ 5000) && decide (1 ≤ c.holdLimit ∧ c.holdLimit ≤ 72) &&
  decide (1 ≤ c.holdClass ∧ c.holdClass ≤ 6) && decide (1 ≤ c.freeClass ∧ c.freeClass ≤ 6)

/-- R61, R62: a group's hold-off and WTR within their ranges. -/
def timesOk (holdOff wtr : Nat) : Bool :=
  decide (holdOff ≤ 10000 ∧ holdOff % 100 = 0) && decide (30 ≤ wtr ∧ wtr ≤ 1800)

/-- R98, R99: a reference entry within its ranges. -/
def refEntryOk (r : RefIx) (e : RefEntry) : Bool :=
  decide (e.priority ≤ 8) && decide (e.fromTag = true ∨ (1 ≤ e.fixedCls ∧ e.fixedCls ≤ 6)) && decide (e.fixedCls ≤ 255) &&
  decide (1000 ≤ e.accept ∧ e.accept ≤ 50000) && decide (e.hyst ≤ 5000 ∧ e.hyst + 500 ≤ e.accept) &&
  decide (1 ≤ e.stab ∧ e.stab ≤ 16) && decide (e.bindNum ≤ 255) &&
  decide (2 ≤ r.val ∨ (e.fromTag = false ∧ e.bindKind = .none))

/-- R127: an alarm profile entry within its ranges: SWITCH and REFSWITCH are of no tabled severity. -/
def alarmProfileOk (t : Fin 24) (p : AlarmProfile) : Bool :=
  decide (p.raise ≤ 10000 ∧ p.raise % 100 = 0) && decide (p.clear ≤ 30000 ∧ p.clear % 100 = 0) &&
  !(p.severity.tabled && decide (t = CondType.switch.index ∨ t = CondType.refSwitch.index))

/-- R145: a contact input entry within its ranges. -/
def contactOk (frameSection debounce : Nat) : Bool :=
  decide (frameSection ≤ 7) && decide (1 ≤ debounce ∧ debounce ≤ 255)

/-! ### Fields of a table entry (section 11.1) -/

/-- Section 11.1: the field of one byte at an offset of an entry. -/
def fieldByte (e : List Byte) (k : Nat) : Nat := (e.getD k 0).toNat

/-- Section 11.1: the field of two bytes at an offset, high byte first. -/
def fieldWord (e : List Byte) (k : Nat) : Nat := fieldByte e k * 256 + fieldByte e (k + 1)

/-- Section 11.1: the same field in two's complement. -/
def fieldInt (e : List Byte) (k : Nat) : Int := if fieldWord e k < 32768 then fieldWord e k else fieldWord e k - 65536

/-- R165: a tuning field moved to the nearer bound of its range. -/
def nearest (lo hi x : Int) : Int := max lo (min x hi)

/-- R165: how many of the fields, each as written and as taken, were changed by clamping. -/
def clamped (fields : List (Int × Int)) : Nat := fields.countP fun x => decide (x.1 ≠ x.2)

/-! ### Frames -/

/-- The parts of the state a frame names: the fields of State, the host port's data apart from its attention
register. -/
inductive Part
  | start | straps | mbp | pmon | tcd | cbc | prc | tsel | tsp | alm | jrn | ciu | lcp | rqu | port | attn | gens
  | mem | choices | pending
deriving DecidableEq, Repr

/-- Whether two states agree in a part. -/
def Part.same (s t : State) : Part → Prop
  | .start => t.start = s.start
  | .straps => t.straps = s.straps
  | .mbp => t.mbp = s.mbp
  | .pmon => t.pmon = s.pmon
  | .tcd => t.tcd = s.tcd
  | .cbc => t.cbc = s.cbc
  | .prc => t.prc = s.prc
  | .tsel => t.tsel = s.tsel
  | .tsp => t.tsp = s.tsp
  | .alm => t.alm = s.alm
  | .jrn => t.jrn = s.jrn
  | .ciu => t.ciu = s.ciu
  | .lcp => t.lcp = s.lcp
  | .rqu => t.rqu = s.rqu
  | .port => { t.hpi with attn := s.hpi.attn } = s.hpi
  | .attn => t.hpi.attn = s.hpi.attn
  | .gens => t.gens = s.gens
  | .mem => t.mem = s.mem
  | .choices => t.choices = s.choices
  | .pending => t.pending = s.pending

/-- The two states agree in every part but the ones named. -/
def unchangedBut (ps : List Part) (s t : State) : Prop := ∀ q, q ∉ ps → q.same s t

/-! ### The journal -/

/-- R148: the journal of `s` after records handed event by event, at the time of `s`. -/
def journalAfter (s : State) (events : List (List JBody)) : Jrn :=
  events.foldl (fun j bs => (jrnRecords { s with jrn := j } bs).1) s.jrn

/-! ### Requests -/

/-- Whether RQU executes the request `r` in slot `k`, as R161 leaves a taken slot: BUSY, the memory in its canonical
form. -/
def serving (s : State) (k : SlotIx) (r : Request) : Bool :=
  executing s k (some r) && decide (s.rqu.slots[k] = .busy) && memWf s.mem

/-- R160: the four bytes RQU shows of a slot in a memory: the state byte, the result code, the detail. -/
def slotShows (m : List Host.Cell) (k : SlotIx) (st : SlotState) (x : SlotResult) : Prop :=
  memRead m (slotBase k + 4) = byte8 st.code ∧ memRead m (slotBase k + 5) = x.result ∧
  memRead m (slotBase k + 6) = hiByte x.detail ∧ memRead m (slotBase k + 7) = loByte x.detail

/-- R161, R162: what the answer of slot `k` with a result and a detail leaves: result and detail in place, code words
zero, the state shown and held, the REQ bit set if its mask bit is 1; RQU goes on with the lowest-numbered QUEUED slot,
which it shows BUSY with the result and detail last given there (log 43), every other slot stays, and every byte but those
stays. `base` is the memory after the request's own writes. -/
structure Answered (s t : State) (k : SlotIx) (r : Result) (detail : Nat) (base : List Host.Cell) : Prop where
  last   : t.rqu.last = s.rqu.last.set k { result := byte8 r.code, detail := BitVec.ofNat 16 detail }
  codes  : ∀ i, i < 4 → memRead t.mem (slotBase k + i) = 0
  shown  : memRead t.mem (slotBase k + 4) = byte8 r.slotState.code
  result : memRead t.mem (slotBase k + 5) = byte8 r.code
  detail : memRead t.mem (slotBase k + 6) = byte8 (detail / 256) ∧ memRead t.mem (slotBase k + 7) = byte8 detail
  held   : t.rqu.slots[k] = r.slotState
  next   : t.rqu.exec = lowestQueued s
  others : ∀ j, j ≠ k → t.rqu.slots[j] = if lowestQueued s = some j then .busy else s.rqu.slots[j]
  attn   : t.hpi.attn.getLsbD 0 = (s.hpi.attn.getLsbD 0 || s.hpi.mask.getLsbD 0)
  taken  : ∀ j, lowestQueued s = some j → slotShows t.mem j .busy s.rqu.last[j]
  bytes  : ∀ a, (a < slotBase k ∨ slotBase k + 8 ≤ a) →
             (∀ j, lowestQueued s = some j → a < slotBase j + 4 ∨ slotBase j + 8 ≤ a) → memRead t.mem a = memRead base a

/-- The shelf record in use, its loaded flag and the calibration jobs are as before. -/
def sameRqu (s t : State) : Prop :=
  t.rqu.shelf = s.rqu.shelf ∧ t.rqu.loaded = s.rqu.loaded ∧ t.rqu.jobs = s.rqu.jobs

/-! ### Groups -/

/-- What a command at a group leaves of it: its definition, its members' monitor records, what it reads from the far
end. -/
def sameGroup (g h : Group) : Prop :=
  h.kind = g.kind ∧ h.prot = g.prot ∧ h.work = g.work ∧ h.revertive = g.revertive ∧ h.degSwitch = g.degSwitch ∧
  h.holdOff = g.holdOff ∧ h.wtr = g.wtr ∧ h.mons = g.mons ∧ h.farReq = g.farReq ∧ h.farBridged = g.farBridged ∧
  h.sigLost = g.sigLost

/-- The group `gi` became `h`, every other group and the frozen outputs stayed. -/
def onlyGroup (s t : State) (gi : GroupIx) (h : Group) : Prop :=
  t.prc.groups[gi] = some h ∧ (∀ j, j ≠ gi → t.prc.groups[j] = s.prc.groups[j]) ∧ t.prc.frozen = s.prc.frozen

end Sys2Proof.Safety
end

