-- ==== Sys2Proof/Certificates/Slice0/Obligations.lean ====
section
/-! DEFINITION. The statements about the H3, in the order of the manual's chapters. -/

open Sys2Proof Sys2Proof.Machine Sys2Proof.Safety

/-! ### Steps -/

/-- Each row of the table is one whole step: a step with a command at the front of the queue is that command with the
queue's rest (file 95). -/
def Obligations.StepRunsTheFrontCommand : Prop :=
  ∀ (c : Instr) (cs : List Instr) (s : State), step { s with pending := c :: cs } = exec c { s with pending := cs }

/-- Model's choice (log 1, log 33): on an empty queue, if anything is due, a step queues exactly one of the commands that are
due and changes nothing else but the count of free choices; if nothing is due, a 250 µs period passes. In READY the period
count goes up, the frame of the period is due, and every timer that runs comes one period down: tag waits, window and verify
timers, hold-off, WTR and bridge confirmation timers, the 0.5 ms of an active reference, the warm-up, the steering timer, the
soaks and the debounce timers; in HOLDOVER the holdover age goes up, to 72 h at most (log 40). During INIT the period count of
INIT goes up and the frame is due, and nothing else moves, the holdover age included (DESIGN CHOICE, log 59). What does not
depend on time stays. -/
def Obligations.AnEmptyQueueTakesWhatIsDue : Prop :=
  ∀ s : State, s.pending = [] →
    (due s ≠ [] → ∃ c ∈ due s, ∃ t, step s = .next t ∧ t.pending = [c] ∧ unchangedBut [.pending, .choices] s t) ∧
    (due s = [] → s.start.ready = true → ∃ t, step s = .next t ∧
      t.start = { s.start with periods := s.start.periods + 1, frameDue := true } ∧
      (∀ p : Port, t.cbc.ports[p] = { s.cbc.ports[p] with tagWait := s.cbc.ports[p].tagWait.map (· - 1) }) ∧
      (∀ i : OrderIx, t.cbc.orders[i] = s.cbc.orders[i].map fun o => { o with timer := o.timer.map (· - 1) }) ∧
      (∀ gi : GroupIx, (s.prc.groups[gi] = none → t.prc.groups[gi] = none) ∧
        ∀ g, s.prc.groups[gi] = some g → ∃ h, t.prc.groups[gi] = some h ∧
          (∀ m, h.mon m = { g.mon m with timer := (g.mon m).timer.map (· - 1) }) ∧
          (∀ m n, g.wait = some (.restore m n) → h.wait = some (.restore m (n.map (· - 1)))) ∧
          ((∀ m n, g.wait ≠ some (.restore m n)) → h.wait = g.wait) ∧
          (∀ n, g.confirm = .running n → h.confirm = .running (n - 1)) ∧
          ((∀ n, g.confirm ≠ .running n) → h.confirm = g.confirm) ∧
          h = { g with mons := h.mons, wait := h.wait, confirm := h.confirm }) ∧
      t.prc.frozen = s.prc.frozen ∧
      (∀ r : RefIx, t.tsel.refs[r] = { s.tsel.refs[r] with silence := s.tsel.refs[r].silence.map (· - 1) }) ∧
      t.tsel = { s.tsel with
        refs := t.tsel.refs, warmUp := s.tsel.warmUp.map (· - 1), steer := s.tsel.steer.map (· - 1)
        age := if s.tsel.state = .holdover then min (s.tsel.age + 1) (72 * 3600 * 4000) else s.tsel.age } ∧
      (∀ i : EntryIx, t.alm.entries[i].gen = s.alm.entries[i].gen ∧
        (s.alm.entries[i].alarm = none → t.alm.entries[i].alarm = none) ∧
        ∀ x, s.alm.entries[i].alarm = some x →
          (∀ n, x.state = .pending n → t.alm.entries[i].alarm = some { x with state := .pending (n - 1) }) ∧
          (x.state = .active → t.alm.entries[i].alarm = some x) ∧
          ∀ n, x.state = .clearing n → t.alm.entries[i].alarm = some { x with state := .clearing (n - 1) }) ∧
      t.alm = { s.alm with entries := t.alm.entries } ∧
      (∀ i : InputIx, t.ciu[i] = { s.ciu[i] with timer := s.ciu[i].timer.map (· - 1) }) ∧
      t.gens.ports = s.gens.ports ∧ unchangedBut [.start, .cbc, .prc, .tsel, .alm, .ciu, .gens] s t) ∧
    (due s = [] → s.start.ready = false →
      step s = .next { s with
        start := { s.start with initPeriods := s.start.initPeriods + 1, frameDue := true } })

/-- `exec` answers a next state for every command in every state, never a fault nor a refusal (DEDUCED, log 32), and leaves
the commands that wait, at a cold reset too (DEDUCED, log 37). What each command does is said by the other statements. -/
def Obligations.EveryCommandAnswersANextState : Prop := ∀ (c : Instr) (s : State), ∃ t, exec c s = .next t ∧ t.pending = s.pending

/-! ### Optical power supervision -/

/-- R4, R5, R16, R17: a clear flag confirmed over `n` is declared exactly when `n` samples in a row have met its
declaring condition, whatever the samples' clearing conditions are. -/
def Obligations.AFlagIsDeclaredByARunOfN : Prop :=
  ∀ (n : Nat) (bs : List (Bool × Bool)), 1 ≤ n →
    ((∃ pre, pre <+: bs ∧ (pre.foldl (fun x b => confirm x.1 x.2 n b.1 b.2) (false, 0)).1 = true) ↔
      List.replicate n true <:+: bs.map (·.1))

/-- R3, R4: a valid sample's P is −5000 plus the floor of 3/2 of its code, a code above 4000 counting as 4000 and marked
over-range; OVERLOAD and its counter follow the mark over the LOS confirm count in both directions, whatever the other flags.
R5, R6, R16, R17: what a valid sample does at loss of light: LOS and its counter follow the two levels; the declaring
sample keeps S, the spike memory and count, clears FAIL and DEGRADE with their counters and ends a calibration with
FAILED-LOS; while LOS stays declared the filter and the deficit conditions keep their values; the clearing sample sets S to
its P and clears the spike memory. While LOS is not declared and B and S are present, a valid sample of a port that is not
calibrating takes part in both deficit runs, each with its own threshold, the shared count and the hysteresis; while B is
absent it takes part in neither. -/
def Obligations.LossOfLightAndDeficits : Prop :=
  (∀ (pf : Profile) (card : CardState) (held : Bool) (code : BitVec 12) (r : PortRec),
     let x := portValid pf card held code r
     let q := x.1
     q.power = rawPower code ∧ 2 * (q.power + 5000) ≤ 3 * min code.toNat 4000 ∧
     3 * min code.toNat 4000 < 2 * (q.power + 5000) + 2 ∧ q.overRange = decide (4000 < code.toNat) ∧
     (q.overload, q.ovlCnt) =
       confirm r.overload r.ovlCnt pf.losN (decide (4000 < code.toNat)) (decide (code.toNat ≤ 4000)) ∧
     (q.los, q.losCnt) =
       confirm r.los r.losCnt pf.losN (decide (rawPower code ≤ pf.losThr)) (decide (pf.losThr + 200 ≤ rawPower code)) ∧
     (r.los = false → q.los = true →
       q.smoothed = r.smoothed ∧ q.spike = r.spike ∧ q.spikes = r.spikes ∧ q.fail = false ∧ q.degrade = false ∧
       q.failCnt = 0 ∧ q.degCnt = 0 ∧ q.cal = none ∧ x.2 = (if r.cal.isSome then some .failedLos else none)) ∧
     (r.los = true → q.los = true →
       q.smoothed = r.smoothed ∧ q.spike = r.spike ∧ q.spikes = r.spikes ∧ q.fail = r.fail ∧ q.degrade = r.degrade ∧
       q.failCnt = r.failCnt ∧ q.degCnt = r.degCnt) ∧
     (r.los = true → q.los = false → q.smoothed = some (rawPower code) ∧ q.spike = .clear ∧ q.spikes = r.spikes)) ∧
  ∀ (pf : Profile) (card : CardState) (held : Bool) (code : BitVec 12) (r : PortRec),
    let q := (portValid pf card held code r).1
    r.cal = none → q.los = false →
    (∀ b v, q.baseline = some b → q.smoothed = some v →
      (q.fail, q.failCnt) =
        confirm r.fail r.failCnt pf.defN (decide (pf.failThr ≤ b - v)) (decide (b - v ≤ pf.failThr - pf.hyst)) ∧
      (q.degrade, q.degCnt) =
        confirm r.degrade r.degCnt pf.defN (decide (pf.degThr ≤ b - v)) (decide (b - v ≤ pf.degThr - pf.hyst))) ∧
    (q.baseline = none → q.fail = r.fail ∧ q.failCnt = r.failCnt ∧ q.degrade = r.degrade ∧ q.degCnt = r.degCnt)

/-- R7, R8: the filter on a valid sample that LOS has not stopped: an empty filter takes P; a spike is held, its sign
recorded and counted, unless the sample before it was held with the same sign, when S becomes P; any other sample clears the
spike memory and moves S by sixteenths of the gap. -/
def Obligations.SpikeHoldingAndSmoothing : Prop :=
  ∀ (pf : Profile) (card : CardState) (held : Bool) (code : BitVec 12) (r : PortRec),
    let q := (portValid pf card held code r).1
    let p := rawPower code
    r.los = false → q.los = false →
    (r.smoothed = none → q.smoothed = some p ∧ q.spike = .clear ∧ q.spikes = r.spikes) ∧
    ∀ v, r.smoothed = some v →
      let sign : Spike := if v < p then .rising else .falling
      (pf.limit ≠ 0 → pf.limit < (p - v).natAbs → r.spike ≠ sign →
        q.smoothed = some v ∧ q.spike = sign ∧ q.spikes = (if r.spikes < 65535 then r.spikes + 1 else 65535)) ∧
      (pf.limit ≠ 0 → pf.limit < (p - v).natAbs → r.spike = sign →
        q.smoothed = some p ∧ q.spike = .clear ∧ q.spikes = r.spikes) ∧
      ((pf.limit = 0 ∨ ((p - v).natAbs : Int) ≤ pf.limit) →
        q.smoothed = some (v + truncAtLeastOne ((p - v) * pf.alpha) 16) ∧ q.spike = .clear ∧ q.spikes = r.spikes)

/-- R11, R12: the tracking counter counts every valid sample of a port that is not calibrating; when it reaches 2^k it
is set to zero and B moves toward S if the gain is above zero, B and S are present, the port state the stages leave is
CLEAR, the port is not under work hold and the gap is below the degrade threshold; otherwise B stays. R14: a valid sample of a
collecting port that leaves a value of S, LOS not being declared, adds it to the sum and one to the count; the 64th sets B to
the mean rounded to nearest, halves away from zero, restarts the tracking counter, removes the calibration record and gives
CALIBRATED. -/
def Obligations.TheBaselineTracksAndIsCalibrated : Prop :=
  (∀ (pf : Profile) (card : CardState) (held : Bool) (code : BitVec 12) (r : PortRec),
     let q := (portValid pf card held code r).1
     r.cal = none →
     (r.track + 1 < 2 ^ pf.k → q.track = r.track + 1 ∧ q.baseline = r.baseline) ∧
     (2 ^ pf.k ≤ r.track + 1 → q.track = 0 ∧ (r.baseline = none → q.baseline = none) ∧
       (q.smoothed = none → q.baseline = r.baseline) ∧
       ∀ b v, r.baseline = some b → q.smoothed = some v →
         q.baseline =
           if 0 < pf.beta ∧ card ≠ .out ∧ card ≠ .faulty ∧ q.los = false ∧ r.fail = false ∧ r.degrade = false ∧
               held = false ∧ ((v - b).natAbs : Int) < pf.degThr then
             some (b + truncAtLeastOne ((v - b) * pf.beta) 64)
           else some b)) ∧
  ∀ (pf : Profile) (card : CardState) (held : Bool) (code : BitVec 12) (r : PortRec) (c : CalRec) (v : Int),
    let x := portValid pf card held code r
    r.cal = some c → x.1.los = false → x.1.smoothed = some v →
    (c.count + 1 < 64 → x.1.cal = some { c with count := c.count + 1, sum := c.sum + v } ∧ x.1.baseline = r.baseline ∧
      x.2 = none) ∧
    (64 ≤ c.count + 1 → x.1.cal = none ∧ x.1.baseline = some (roundNearest (c.sum + v) 64) ∧ x.1.track = 0 ∧
      x.2 = some .calibrated)

/-- R1, R20: SAMPLE of a valid sample, and TRACKING_POINT and PORT_CALIBRATED at a sample that is one, take the port's record
through the stages and form its port state, on a populated port that is not under work hold and whose card's accepted state
the sample does not change. Every other port's record, every profile, every other card's record, the straps, the host port's
data and the shared memory stay. R20: the port state is the first line of the table that applies; one that differs from the
last handed on goes to CBC, PRC, TSEL and ALM, no other does. R21: the sample, valid or missed, that declares one of the
port's five flags offers its condition, the one that clears it withdraws it, and a card's acceptance does so for CARDOUT and
CARDFAULT; TCD is told of LOS as it moves (R32). The power part and the card flags of a sample hand ALM a batch each (DESIGN
CHOICE, log 61). -/
def Obligations.AValidSampleTakesItsPortThroughTheStages : Prop :=
  (∀ (card : CardState) (r : PortRec),
    portStateOf card r =
      if card = .out ∨ card = .faulty then .equipOut else if r.monLost = true then .monLost
      else if r.los = true then .dark else if r.fail = true then .fail else if r.degrade = true then .degrade
      else .clear) ∧
  (∀ (s : State) (p : Port) (code : BitVec 12) (valid : Bool),
    let x := pmonPower s p code valid
    let old := s.pmon.ports[p]
    let new := x.1.ports[p]
    let tells (c : AlmChange) : Prop := ∃ batch, .alm batch ∈ x.2 ∧ c ∈ batch
    let moves (t : CondType) (flag : PortRec → Bool) : Prop :=
      (tells (.offer t p) ↔ flag old = false ∧ flag new = true) ∧
      (tells (.withdraw t p) ↔ flag old = true ∧ flag new = false)
    moves .los (·.los) ∧ moves .fail (·.fail) ∧ moves .degrade (·.degrade) ∧ moves .overload (·.overload) ∧
    moves .monLost (·.monLost) ∧ (∀ b, .tcdLos p b ∈ x.2 ↔ old.los ≠ b ∧ new.los = b) ∧
    (new.handed ≠ old.handed → .cbcPorts [⟨p, old.handed, new.handed⟩] ∈ x.2 ∧
      .prcPorts [⟨p, old.handed, new.handed⟩] ∈ x.2 ∧ .tselPorts [p] ∈ x.2 ∧ tells (.portState p new.handed)) ∧
    (new.handed = old.handed → ∀ cs ps st, .cbcPorts cs ∉ x.2 ∧ .prcPorts cs ∉ x.2 ∧ .tselPorts ps ∉ x.2 ∧
      ¬tells (.portState p st))) ∧
  (∀ (s : State) (p : Port) (present fault : Bool),
    let x := pmonCard s p present fault
    let old := s.pmon.cards[cardOf p].accepted
    let new := x.1.cards[cardOf p].accepted
    let tells (c : AlmChange) : Prop := ∃ batch, .alm batch ∈ x.2 ∧ c ∈ batch
    let moves (t : CondType) (st : CardState) : Prop :=
      (tells (.offer t (cardOf p)) ↔ old ≠ st ∧ new = st) ∧ (tells (.withdraw t (cardOf p)) ↔ old = st ∧ new ≠ st)
    moves .cardOut .out ∧ moves .cardFault .faulty) ∧
  ∀ (x : Sample) (s : State) (c : Instr),
    (c = .sample x ∨ (c = .trackingPoint x ∧ isTrackingPoint s x = true) ∨
      (c = .portCalibrated x ∧ calibratesPort s x = true)) →
    s.start.ready = true → s.populated x.port = true → x.valid = true → acceptsCard s x = false →
    s.cbc.ports[x.port].hold = none →
    let r := s.pmon.ports[x.port]
    let card := s.pmon.cards[cardOf x.port].accepted
    let q := portValid s.pmon.profiles[r.profile] card false x.code r
    ∃ t, exec c s = .next t ∧ t.pmon.ports[x.port] = { q.1 with handed := portStateOf card q.1 } ∧
      (c = .trackingPoint x → t.pmon.ports[x.port].track = 0) ∧
      (c = .portCalibrated x → t.pmon.ports[x.port].cal = none ∧ t.pmon.outcomes[x.port] = some .calibrated) ∧
      (∀ p, p ≠ x.port → t.pmon.ports[p] = s.pmon.ports[p]) ∧ t.pmon.profiles = s.pmon.profiles ∧
      (∀ d, d ≠ cardOf x.port → t.pmon.cards[d] = s.pmon.cards[d]) ∧ t.mbp.last[x.port] = x ∧
      unchangedBut [.mbp, .pmon, .tcd, .cbc, .prc, .tsel, .tsp, .alm, .jrn, .attn, .gens, .choices] s t

/-- R2, R15, R20: a missed sample (SAMPLE with the valid mark clear; MON_LOST when its run reaches 64) moves the missed
count and the run alone, declares MON-LOST at 64, ends a collecting port's calibration there with FAILED-MONLOST, and forms
the port state; the power state, the flags and the counters keep their values, and so do every other port and every card. -/
def Obligations.AMissedSampleMovesTheRunAlone : Prop :=
  ∀ (x : Sample) (s : State) (c : Instr), (c = .sample x ∨ (c = .monLost x ∧ declaresMonLost s x = true)) →
    s.start.ready = true → s.populated x.port = true → x.valid = false →
    let r := s.pmon.ports[x.port]
    let lost : Bool := decide (64 ≤ r.run + 1)
    let q := { r with
      missed := if r.missed < 65535 then r.missed + 1 else 65535, run := r.run + 1, monLost := r.monLost || lost,
      cal := if lost && !r.monLost then none else r.cal }
    ∃ t, exec c s = .next t ∧
      t.pmon.ports[x.port] = { q with handed := portStateOf s.pmon.cards[cardOf x.port].accepted q } ∧
      (c = .monLost x → t.pmon.ports[x.port].monLost = true) ∧
      (lost = true → r.monLost = false → r.cal ≠ none → t.pmon.outcomes[x.port] = some .failedMonlost) ∧
      (∀ p, p ≠ x.port → t.pmon.ports[p] = s.pmon.ports[p]) ∧ t.pmon.cards = s.pmon.cards ∧
      t.pmon.profiles = s.pmon.profiles ∧ t.mbp.last[x.port] = x ∧
      unchangedBut [.mbp, .pmon, .tcd, .cbc, .prc, .tsel, .tsp, .alm, .jrn, .attn, .gens, .choices] s t

/-- R19, R20: a card whose accepted state a reading does not match is accepted in the new state at the eighth reading in a
row with the same pair of flags, and not before. CARD_STATE_ACCEPTED accepts the sample's pair; every port of the card then
shows the port state its record and the new card state give; a card that is out or faulty ends its ports' calibrations; an
insertion empties the filters of the card's other ports; the ports of every other card stay. -/
def Obligations.CardStatesAreAccepted : Prop :=
  (∀ (present fault : Bool) (c : CardRec) (scans : List Nat), cardStateOf present fault ≠ c.accepted → c.count = 0 →
     1 ≤ scans.length → scans.length ≤ 8 →
     let d := scans.foldl (fun x n => cardReading present fault n x) c
     d.cand = (present, fault) ∧
     (scans.length < 8 → d.accepted = c.accepted ∧ d.count = scans.length) ∧
     (scans.length = 8 → d.accepted = cardStateOf present fault ∧ d.count = 0)) ∧
  ∀ (x : Sample) (s : State), acceptsCard s x = true →
    let c := cardOf x.port
    let new := cardStateOf x.present x.fault
    ∃ t, exec (.cardStateAccepted x) s = .next t ∧ t.pmon.cards[c].accepted = new ∧ t.pmon.cards[c].count = 0 ∧
      (∀ p, cardOf p = c → t.pmon.ports[p].handed = portStateOf new t.pmon.ports[p]) ∧
      (new ≠ .inService → ∀ p, cardOf p = c → t.pmon.ports[p].cal = none ∧ t.pmon.ports[p].handed = .equipOut) ∧
      (s.pmon.cards[c].accepted = .out → ∀ p, cardOf p = c → p ≠ x.port →
        t.pmon.ports[p].smoothed = none ∧ t.pmon.ports[p].spike = .clear) ∧
      (∀ p, cardOf p ≠ c → t.pmon.ports[p] = s.pmon.ports[p]) ∧
      (∀ d, d ≠ c → t.pmon.cards[d] = s.pmon.cards[d]) ∧ t.pmon.profiles = s.pmon.profiles ∧
      unchangedBut [.mbp, .pmon, .tcd, .cbc, .prc, .tsel, .tsp, .alm, .jrn, .attn, .gens, .choices] s t

/-! ### Fibre tags -/

/-- R24, R25: the frame built from any fields is valid, and its fields read back are those fields: no bit of a frame is
dropped between the encoder and the decoder. R36 to R38: what a port latches. An unpopulated port latches 56 zeros. A populated
port latches a valid frame with its own number, the shelf record's identity or, before a record is loaded, the SHID strap, the
class 7 before a record is loaded, on a port that is not LINE and on a do-not-use port and the output quality class otherwise,
FE_LOS while it is DARK, TEST while it is held, and the switch fields of the bidirectional group whose protection port it is,
with kind 1; in no such group, kind 0 and zeros. -/
def Obligations.EveryTagFrameReadsBack : Prop :=
  (∀ f : TagFrame, frameValid (frameBits f) = true ∧ frameOf (frameBits f) = f) ∧
  ∀ (s : State) (p : Port),
    (s.populated p = false → latchFrame s p = 0) ∧
    (s.populated p = true →
      let f := frameOf (latchFrame s p)
      let protects (g : Group) : Prop := g.prot = p ∧ g.kind ≠ .uni
      frameValid (latchFrame s p) = true ∧ f.port.toNat = p.val ∧
      f.shelf = (if s.rqu.loaded then s.rqu.shelf.identity else s.straps.shid.setWidth 16) ∧
      (s.rqu.loaded = false ∨ s.pmon.ports[p].role ≠ .line ∨ p ∈ s.tsel.doNotUse → f.cls = 7) ∧
      (s.rqu.loaded = true → s.pmon.ports[p].role = .line → p ∉ s.tsel.doNotUse → s.tsel.outClass ≤ 15 →
        f.cls.toNat = s.tsel.outClass) ∧
      f.feLos = decide (s.pmon.ports[p].handed = .dark) ∧ f.test = s.cbc.ports[p].hold.isSome ∧
      (∀ (gi : GroupIx) g, s.prc.groups[gi] = some g → protects g →
        (∀ (j : GroupIx) h, s.prc.groups[j] = some h → protects h → j = gi) →
        f.kind = 1 ∧ (g.sent.request ≤ 15 → f.request.toNat = g.sent.request) ∧
        (g.sent.member ≤ 7 → f.member.toNat = g.sent.member) ∧
        (g.sent.bridged ≤ 7 → f.bridged.toNat = g.sent.bridged)) ∧
      ((∀ (gi : GroupIx) g, s.prc.groups[gi] = some g → ¬protects g) →
        f.kind = 0 ∧ f.request = 0 ∧ f.member = 0 ∧ f.bridged = 0))

/-- R24, R26 to R29, R36: the bits of a frame, sent most significant first and sent twice, take a decoder from its reset
state to LOCKED with the frame's identity and fields, aligned, with the loss counter at 0 and no bits uncounted: what one
shelf's encoder sends, another's decoder takes. R28: a valid frame found in HUNT is the candidate; in CANDIDATE one of another
identity replaces it. R29: the frame that locks the decoder, refreshes it or confirms a change gives the record its identity,
class, FE_LOS and TEST; kind 0, 2 or 3 clears the switch fields; kind 1 with a request up to 11 sets them; kind 1 with a
request above 11 keeps those of a refreshed record, leaves them clear otherwise, and adds one to the bad-signalling count.
R34, R35: a sample at TCD moves its own decoder alone; CBC, PRC and TSEL are handed the record exactly when it changes, the
counts and the move between HUNT and CANDIDATE apart, and FELOS is offered and withdrawn as LOCKED with FE_LOS 1 begins and
ends. -/
def Obligations.TwoFramesLockAFreshDecoder : Prop :=
  (∀ f : TagFrame,
    let bits := (List.range 56).map (frameBits f).getMsbD
    let d := (bits ++ bits).foldl (fun d b => decoderSample d b true) Decoder.reset
    let sw : Bool := decide (f.kind = 1 ∧ f.request.toNat ≤ 11)
    d.tag = some { shelf := f.shelf, port := f.port, cls := f.cls, feLos := f.feLos, test := f.test, signalling := sw
                   request := if sw then f.request else 0, member := if sw then f.member else 0
                   bridged := if sw then f.bridged else 0 } ∧
    d.loss = 0 ∧ d.nextEnd = some 56 ∧ d.glitch = 0 ∧ d.change = 0) ∧
  (∀ (d : Decoder) (f : TagFrame),
    (d.st = .hunt → (frameFound d f).st = .candidate f ∧ (frameFound d f).badSig = d.badSig) ∧
    (∀ c, d.st = .candidate c → ¬(c.shelf = f.shelf ∧ c.port = f.port) →
      (frameFound d f).st = .candidate f ∧ (frameFound d f).badSig = d.badSig) ∧
    ∀ before : Option Tag,
      ((∃ c, d.st = .candidate c ∧ c.shelf = f.shelf ∧ c.port = f.port ∧ before = none) ∨
        (∃ tag pending, d.st = .locked tag pending ∧ tag.shelf = f.shelf ∧ tag.port = f.port ∧ before = some tag) ∨
        ∃ tag g, d.st = .locked tag (some g) ∧ ¬(tag.shelf = f.shelf ∧ tag.port = f.port) ∧ g.shelf = f.shelf ∧
          g.port = f.port ∧ before = none) →
      let switch (t : Tag) := (t.signalling, t.request, t.member, t.bridged)
      ∃ t, (frameFound d f).st = .locked t none ∧ t.shelf = f.shelf ∧ t.port = f.port ∧ t.cls = f.cls ∧
        t.feLos = f.feLos ∧ t.test = f.test ∧
        (f.kind ≠ 1 → switch t = (false, 0, 0, 0) ∧ (frameFound d f).badSig = d.badSig) ∧
        (f.kind = 1 → f.request.toNat ≤ 11 →
          switch t = (true, f.request, f.member, f.bridged) ∧ (frameFound d f).badSig = d.badSig) ∧
        (f.kind = 1 → 11 < f.request.toNat →
          switch t = (match before with | some b => switch b | none => (false, 0, 0, 0)) ∧
          (frameFound d f).badSig = (if d.badSig < 65535 then d.badSig + 1 else 65535))) ∧
  ∀ (s : State) (p : Port) (bit valid : Bool),
    let r := tcdBit s p bit valid
    let old := s.tcd.decs[p].tag
    let new := r.1.decs[p].tag
    let felos (x : Option Tag) : Prop := ∃ t, x = some t ∧ t.feLos = true
    r.1.decs[p] = decoderSample s.tcd.decs[p] bit valid ∧ (∀ q, q ≠ p → r.1.decs[q] = s.tcd.decs[q]) ∧
    r.1.pos = s.tcd.pos ∧ r.1.latched = s.tcd.latched ∧
    (old = new → .cbcTag p ∉ r.2 ∧ .prcTag p ∉ r.2 ∧ .tselTag p ∉ r.2) ∧
    (old ≠ new → .cbcTag p ∈ r.2 ∧ .prcTag p ∈ r.2 ∧ .tselTag p ∈ r.2) ∧
    (¬felos old → felos new → .alm [.offer .feLos p] ∈ r.2) ∧
    (felos old → ¬felos new → .alm [.withdraw .feLos p] ∈ r.2) ∧
    ((felos old ↔ felos new) → ∀ batch, .alm batch ∉ r.2)

/-- R30: a valid frame of another identity found in LOCKED, by the pending frame before it: it becomes the pending frame
and the locked tag stays; the same identity again is the change; the locked identity drops the pending frame as a glitch; a
third identity is a glitch and becomes the pending frame. A pending frame dropped by R31 or R32 is no glitch. -/
def Obligations.ALockedIdentityChangesAtTheSecondFrame : Prop :=
  ∀ (d : Decoder) (tag : Tag) (f : TagFrame),
    (d.st = .locked tag none → ¬(tag.shelf = f.shelf ∧ tag.port = f.port) →
      (frameFound d f).st = .locked tag (some f) ∧ (frameFound d f).glitch = d.glitch ∧
      (frameFound d f).change = d.change) ∧
    (∀ g, d.st = .locked tag (some g) → ¬(tag.shelf = f.shelf ∧ tag.port = f.port) →
      (g.shelf = f.shelf ∧ g.port = f.port →
        (frameFound d f).st = .locked (tagOf none f).1 none ∧
        (frameFound d f).change = (if d.change < 65535 then d.change + 1 else 65535) ∧
        (frameFound d f).glitch = d.glitch) ∧
      (¬(g.shelf = f.shelf ∧ g.port = f.port) →
        (frameFound d f).st = .locked tag (some f) ∧
        (frameFound d f).glitch = (if d.glitch < 65535 then d.glitch + 1 else 65535) ∧
        (frameFound d f).change = d.change)) ∧
    (∀ g, d.st = .locked tag (some g) → tag.shelf = f.shelf ∧ tag.port = f.port →
      (frameFound d f).st = .locked (tagOf (some tag) f).1 none ∧
      (frameFound d f).glitch = (if d.glitch < 65535 then d.glitch + 1 else 65535) ∧
      (frameFound d f).change = d.change) ∧
    (lossPeriod d).glitch = d.glitch ∧ ∀ x, (decoderLos d x).glitch = d.glitch

/-- R31: DECODER_LOSS, at a sample that takes the decoder out of CANDIDATE or LOCKED while LOS stands clear at TCD:
the decoder ends in HUNT, unaligned, with its record's tag absent; every other port's decoder keeps its state, its
alignment and its loss counter. The loss is at 168: a sample period without a valid frame adds one to the loss counter, and
in CANDIDATE and LOCKED the one that finds it at 167 or above takes the decoder to HUNT, unaligned, its collected bits kept;
below that, and in HUNT, the decoder keeps its state and its alignment. A valid frame sets the counter to zero, and in no
other way than a lost frame does a sample take the decoder to HUNT. R26: the bit of a valid sample joins at the newest end,
while LOS stands it is discarded; a missed sample discards what is collected and the alignment. R32: told of LOS, the decoder
is in HUNT, unaligned, with nothing collected; told of its clearing, it collects again. A sample that declares LOS leaves its
port's decoder in HUNT with the tag absent, in whichever order the bit and the declaration are taken. -/
def Obligations.ALostDecoderReturnsToHunt : Prop :=
  (∀ d : Decoder,
    decoderLos d true = { d with st := .hunt, bits := 0, count := 0, nextEnd := none, los := true } ∧
    decoderLos d false = { d with los := false } ∧
    ∀ bit,
      decoderSample d bit false = lossPeriod { d with bits := 0, count := 0, nextEnd := none } ∧
      (d.los = true → decoderSample d bit true = lossPeriod d) ∧
      (d.los = false → (decoderSample d bit true).bits = d.bits.extractLsb' 0 55 ++ BitVec.ofBool bit ∧
        (decoderSample d bit true).count = min 56 (d.count + 1) ∧ (decoderSample d bit true).los = false)) ∧
  (∀ (s : State) (p q : Port) (b valid : Bool),
    (tcdLos s p b).1.decs[q] = (if q = p then decoderLos s.tcd.decs[q] b else s.tcd.decs[q]) ∧
    (tcdBit s p b valid).1.decs[q] = (if q = p then decoderSample s.tcd.decs[q] b valid else s.tcd.decs[q])) ∧
  (∀ (x : Sample) (s : State), s.start.ready = true → s.populated x.port = true →
    let was := s.pmon.ports[x.port].los
    ∃ t, exec (.sample x) s = .next t ∧
      let los := t.pmon.ports[x.port].los
      let d := t.tcd.decs[x.port]
      (los = was → d.los = s.tcd.decs[x.port].los) ∧ (los ≠ was → d.los = los) ∧
      (was = false → los = true →
        d.st = .hunt ∧ d.tag = none ∧ d.bits = 0 ∧ d.count = 0 ∧ d.nextEnd = none)) ∧
  (∀ d : Decoder,
    (d.st ≠ .hunt → 167 ≤ d.loss →
      lossPeriod d = { d with loss := d.loss + 1, st := .hunt, nextEnd := none }) ∧
    (d.st = .hunt ∨ d.loss < 167 → lossPeriod d = { d with loss := d.loss + 1 }) ∧
    (∀ f, (frameFound d f).loss = 0 ∧ (frameFound d f).st ≠ .hunt) ∧
    ∀ bit valid, let e := decoderSample d bit valid
      (e.loss = d.loss + 1 ∨ (e.loss = 0 ∧ e.st ≠ .hunt)) ∧
      (d.st ≠ .hunt → (e.st = .hunt ↔ 167 ≤ d.loss ∧ e.loss = d.loss + 1)) ∧
      (d.st = .hunt → e.loss = d.loss + 1 → e.st = .hunt)) ∧
  ∀ (x : Sample) (s : State), losesDecoder s x = true → s.tcd.decs[x.port].los = false →
    ∃ t, exec (.decoderLoss x) s = .next t ∧ t.tcd.decs[x.port].st = .hunt ∧ t.tcd.decs[x.port].nextEnd = none ∧
      t.tcd.decs[x.port].tag = none ∧
      (∀ p, p ≠ x.port → t.tcd.decs[p].st = s.tcd.decs[p].st ∧ t.tcd.decs[p].nextEnd = s.tcd.decs[p].nextEnd ∧
        t.tcd.decs[p].loss = s.tcd.decs[p].loss) ∧
      t.tcd.pos = s.tcd.pos ∧ t.tcd.latched = s.tcd.latched ∧
      unchangedBut [.mbp, .pmon, .tcd, .cbc, .prc, .tsel, .tsp, .alm, .jrn, .attn, .gens, .choices] s t

/-- R36, R92, R101: LCP_FRAME in READY sends for every port the bit of the frame position from the latched frame (latched anew
at position 0), the port's protection outputs and its timing taps, and moves the position on, from 55 to 0; during INIT, when
frames go on and the frame position stands still (DESIGN CHOICE, log 34), it sends tag bit 0, no taps and the frozen
protection outputs, if any. Nothing else moves but the mark that the frame of the period was due, which is the model's own
(DESIGN CHOICE, log 1). The frame a port latches at frame position 0 goes out whole: over the next 56 line control frames of
READY, the `k`-th carries the frame's bit `k`, the first-sent most significant, and the position is then 0 again. R92, R96: a
port's protection outputs are its frozen values while it is frozen; otherwise a working member of a defined group has the
group's protection port as partner, bridge on while it is the bridged and select on while it is the selected member; a port
that is a working member of no group, a protection port among them, has partner none, bridge and select off. -/
def Obligations.LineControlFrames : Prop :=
  (∀ (c : Prc) (p : Port),
    (∀ o, c.frozen[p] = some o → protOut c p = o) ∧
    (∀ (gi : GroupIx) (g : Group) (m : Nat), c.frozen[p] = none → c.groups[gi] = some g → g.work[m]? = some p →
      (g.prot :: g.work).Nodup → (∀ (j : GroupIx) h, c.groups[j] = some h → j ≠ gi → p ∉ h.work) →
      protOut c p = {
        partner := some g.prot, bridge := decide (g.bridged = m + 1), select := decide (g.selected = m + 1) }) ∧
    (c.frozen[p] = none → (∀ (j : GroupIx) h, c.groups[j] = some h → p ∉ h.work) →
      protOut c p = { partner := none, bridge := false, select := false })) ∧
  (∀ s : State, ∃ t, exec .lcpFrame s = .next t ∧
     (s.start.ready = true → (∀ p : Port,
         t.lcp[p].tagBit = (if s.tcd.pos = 0 then latchFrame s p else s.tcd.latched[p]).getMsbD s.tcd.pos ∧
         t.lcp[p].partner = (protOut s.prc p).partner ∧ t.lcp[p].bridge = (protOut s.prc p).bridge ∧
         t.lcp[p].select = (protOut s.prc p).select ∧
         ∀ i : Fin 4, t.lcp[p].taps.getLsbD i = decide (s.tsel.refs[i.val + 2].tap = some p)) ∧
       t.tcd.pos = (if s.tcd.pos < 55 then s.tcd.pos + 1 else 0) ∧ t.tcd.decs = s.tcd.decs) ∧
     (s.start.ready = false → (∀ p : Port, t.lcp[p].tagBit = false ∧ t.lcp[p].taps = 0 ∧
         t.lcp[p].partner = s.prc.frozen[p].bind (·.partner) ∧
         t.lcp[p].bridge = (s.prc.frozen[p].map (·.bridge)).getD false ∧
         t.lcp[p].select = (s.prc.frozen[p].map (·.select)).getD false) ∧ t.tcd = s.tcd) ∧
     t.start = { s.start with frameDue := false } ∧ unchangedBut [.start, .tcd, .lcp] s t) ∧
  ∀ (s : State) (p : Port), s.start.ready = true → s.tcd.pos = 0 →
    (∀ k, k < 56 → (sendFrame^[k + 1] s).lcp[p].tagBit = (latchFrame s p).getMsbD k) ∧ (sendFrame^[56] s).tcd.pos = 0

/-! ### Cabling and work orders -/

/-- R43: the cabling state by the first line of the table that applies, and the condition each state offers. -/
def Obligations.TheCablingStateTable : Prop :=
  (∀ (s : State) (r : CabRec) (p : Port),
    let st := s.pmon.ports[p].handed
    let judged : Prop := r.hold = none ∧ s.populated p = true ∧ s.pmon.ports[p].role ≠ .spare ∧ r.expect.kind ≠ .any ∧
      st ≠ .equipOut ∧ st ≠ .monLost
    let tagged : Prop := judged ∧ r.expect.kind = .tag ∧ st ≠ .dark
    (r.hold ≠ none → cablingState s r p = .held) ∧
    (r.hold = none → ¬judged → cablingState s r p = .unchecked) ∧
    (judged → r.expect.kind = .dark → st = .dark → cablingState s r p = .matched) ∧
    (judged → r.expect.kind = .dark → st ≠ .dark → cablingState s r p = .litUnexpected) ∧
    (judged → r.expect.kind = .tag → st = .dark → cablingState s r p = .noLight) ∧
    (∀ t, tagged → s.tcd.decs[p].tag = some t →
      cablingState s r p =
        if t.shelf = r.expect.shelf ∧ t.port.toNat = r.expect.port.toNat then .matched else .mismatch) ∧
    (tagged → s.tcd.decs[p].tag = none → r.tagWait ≠ none → cablingState s r p = .awaiting) ∧
    (tagged → s.tcd.decs[p].tag = none → r.tagWait = none → cablingState s r p = .untagged)) ∧
  ∀ c, cabCondition c = (if c = .litUnexpected then some .unexpLight else if c = .mismatch then some .misconn
    else if c = .untagged then some .untagged else none)

/-- R42, R43, R44: TAG_WAIT_EXPIRY makes the timer elapsed and re-evaluates the port; on a lit port that expects TAG, is not
held and has no locked tag that is UNTAGGED, and the condition is present. Every other port's record and every order stay.
R42, R44: the other events of that kind. New port states, a received tag record and a changed role re-evaluate the ports they
name: the cabling state of each is that of the table over its record. A port that becomes lit, and one whose role changes from
SPARE, has its tag wait restarted first (DEDUCED, log 18). A port that no work order lists keeps the rest of its record, the
condition of the new state is offered and that of the old one withdrawn, unless they are the same; a port that is not named,
and that no order lists, stays. -/
def Obligations.ATagWaitRunsOut : Prop :=
  (∀ s : State,
    let tells (x : Cbc × List Msg) (c : AlmChange) : Prop := ∃ batch, .alm batch ∈ x.2 ∧ c ∈ batch
    let unlisted (p : Port) : Prop := ∀ (i : OrderIx) o, s.cbc.orders[i] = some o → p ∉ o.items.map (·.port)
    let rejudged (x : Cbc × List Msg) (p : Port) (restarted : Prop) : Prop :=
      let old := s.cbc.ports[p]
      let new := x.1.ports[p]
      new.state = cablingState s new p ∧
      (unlisted p →
        new = { old with state := new.state, tagWait := new.tagWait } ∧
        (restarted → new.tagWait = some (s.rqu.shelf.tagWait * 4)) ∧ (¬restarted → new.tagWait = old.tagWait) ∧
        ∀ t, (tells x (.offer t p) ↔ cabCondition new.state = some t ∧ cabCondition old.state ≠ some t) ∧
          (tells x (.withdraw t p) ↔ cabCondition old.state = some t ∧ cabCondition new.state ≠ some t))
    let stays (x : Cbc × List Msg) (p : Port) : Prop := unlisted p → x.1.ports[p] = s.cbc.ports[p]
    let lit (st : PortState) : Prop := st = .clear ∨ st = .degrade ∨ st = .fail
    (∀ cs : List PortChange, (cs.map (·.port)).Nodup →
      (∀ c ∈ cs, rejudged (cbcPorts s cs) c.port (¬lit c.old ∧ lit c.new)) ∧
      ∀ q, q ∉ cs.map (·.port) → stays (cbcPorts s cs) q) ∧
    ∀ p : Port, rejudged (cbcTag s p) p False ∧ (∀ q, q ≠ p → stays (cbcTag s p) q) ∧
      ∀ old : Role, rejudged (cbcRole s p old) p (old = .spare) ∧ ∀ q, q ≠ p → stays (cbcRole s p old) q) ∧
  ∀ (p : Port) (s : State) (n : Nat), s.start.ready = true → s.cbc.ports[p].tagWait = some n →
    let r := { s.cbc.ports[p] with tagWait := none }
    ∃ t, exec (.tagWaitExpiry p) s = .next t ∧ t.cbc.ports[p] = { r with state := cablingState s r p } ∧
      (r.hold = none → s.populated p = true → s.pmon.ports[p].role ≠ .spare → r.expect.kind = .tag →
        s.pmon.ports[p].handed.lit = true → s.tcd.decs[p].tag = none →
        t.cbc.ports[p].state = .untagged ∧ (r.state ≠ .untagged → t.alm.isPresent .untagged p = true)) ∧
      (∀ q, q ≠ p → t.cbc.ports[q] = s.cbc.ports[q]) ∧ t.cbc.orders = s.cbc.orders ∧
      unchangedBut [.cbc, .alm, .jrn, .attn, .gens, .choices] s t

/-- R48, R49: an accepted WKOP takes the lowest FREE entry, with the order number, the clamped window, the section and
the items as given, PENDING, in OPEN, its window timer running; every listed port is held by the entry and HELD; its
expectation stays; every other port and order stays; the answer is OK with the number of clamped fields. The
widths of number, window and count are the model's (DESIGN CHOICE, log 56). -/
def Obligations.AnOrderIsOpened : Prop :=
  ∀ (k : SlotIx) (s : State) (i : OrderIx) (items : List (Port × Expectation)) (f : Option (Fin 8)),
    serving s k .wkop = true → wkopItems s k = some items → wkopSection s k = some f → 1 ≤ items.length →
    items.length ≤ 8 → param16 s k 0 ≠ 0 → (items.map (·.1)).Nodup →
    (∀ x ∈ items, s.populated x.1 = true ∧ s.cbc.ports[x.1].hold = none ∧ ∀ v, f = some v → x.1.val / 8 = v.val) →
    (∀ (j : OrderIx) (o : Order), s.cbc.orders[j] = some o → o.number ≠ param16 s k 0) → s.cbc.orders[i] = none →
    (∀ j, j < i → s.cbc.orders[j] ≠ none) →
    (wkopOverride s k = true ∨ firstNotTaken s (items.map (·.1)) [] (items.map (·.1)) 1 = none) →
    let w := param16 s k 2
    let window := if w < 1 then 1 else if 480 < w then 480 else w
    ∃ t, exec (.wkop k) s = .next t ∧
      t.cbc.orders[i] = some {
        number := param16 s k 0, state := .opened, window := window, frameSection := f
        items := items.map fun x => { port := x.1, expect := x.2, prev := none, outcome := .pending }
        reason := none, openedAt := s.now, overrun := false, fault := false, timer := some (window * 60 * 4000) } ∧
      (∀ j, j ≠ i → t.cbc.orders[j] = s.cbc.orders[j]) ∧
      (∀ p, t.cbc.ports[p] = if p ∈ items.map (·.1) then { s.cbc.ports[p] with hold := some i, state := .held }
        else s.cbc.ports[p]) ∧
      Answered s t k .ok (if window = w then 0 else 1) s.mem ∧ sameRqu s t ∧
      unchangedBut [.pmon, .cbc, .prc, .tsel, .tsp, .alm, .jrn, .attn, .gens, .choices, .rqu, .mem] s t

/-- R48: the checks of WKOP in their order, each with its refusal and detail (the item count is the byte at +6, DESIGN CHOICE,
log 56); of several ports listed again, the lowest list position of one that is listed before it is reported (DESIGN CHOICE,
log 64); a refused WKOP changes no order, no port record and nothing of the other blocks. R79: where no port is a member of
two groups and no request stands for a member that a group does not have, the port named as one that cannot be taken is the
first listed working port whose group has the lockout mark, HOLD-P, a raised FAIL-P, a protection port that is SF or listed,
or another member in FORCE, in WORK-W or listed earlier; and none is named when there is no such port. -/
def Obligations.WkopChecksInOrder : Prop :=
  (∀ (s : State) (ps : List Port),
    (∀ (gi : GroupIx) g, s.prc.groups[gi] = some g → g.n ≤ 6 ∧ (g.prot :: g.work).Nodup ∧
      (∀ j, g.n < j → g.force ≠ some j ∧ (g.mon j).held = false) ∧
      ∀ (gj : GroupIx) h, s.prc.groups[gj] = some h → gj ≠ gi → ∀ p ∈ g.prot :: g.work, p ∉ h.prot :: h.work) →
    let blocked (i : Nat) : Prop := ∃ p gi g m, ps[i]? = some p ∧ s.prc.groups[(gi : GroupIx)] = some g ∧
      g.work[m]? = some p ∧
      (g.lockout = true ∨ (g.mon 0).held = true ∨ (g.mon 0).raised = some .fail ∨
        s.pmon.ports[g.prot].handed.sf = true ∨ g.prot ∈ ps ∨
        ∃ j q, j ≠ m ∧ g.work[j]? = some q ∧ (g.force = some (j + 1) ∨ (g.mon (j + 1)).held = true ∨ q ∈ ps.take i))
    (∀ n, firstNotTaken s ps [] ps 1 = some n ↔ 1 ≤ n ∧ blocked (n - 1) ∧ ∀ i, i < n - 1 → ¬blocked i) ∧
    (firstNotTaken s ps [] ps 1 = none ↔ ∀ i, ¬blocked i)) ∧
  ∀ (k : SlotIx) (s : State) (items : List (Port × Expectation)) (f : Option (Fin 8)),
    let ps := items.map (·.1)
    let refused (e : Result × Nat) : Prop := ∃ t, exec (.wkop k) s = .next t ∧ Answered s t k e.1 e.2 s.mem ∧
      sameRqu s t ∧ unchangedBut [.attn, .rqu, .mem] s t
    serving s k .wkop = true →
    ((wkopItems s k = none ∨ wkopSection s k = none ∨ param16 s k 0 = 0 ∨ wkopCount s k = 0 ∨ 8 < wkopCount s k) →
      refused (.badArg, 0)) ∧
    (wkopItems s k = some items → wkopSection s k = some f → param16 s k 0 ≠ 0 → wkopCount s k ≠ 0 →
      wkopCount s k ≤ 8 →
      ((∀ n p, ps[n]? = some p → p ∈ ps.take n → (ps.take n).Nodup → refused (.badArg, n + 1)) ∧
      (ps.Nodup →
        ((∀ n, positionOf (outside f) ps = some n → refused (.badArg, n)) ∧
        (positionOf (outside f) ps = none →
          ((∀ n, positionOf (fun p => !s.populated p) ps = some n → refused (.noObject, n)) ∧
          (positionOf (fun p => !s.populated p) ps = none →
            ((findOrder s.cbc (param16 s k 0) ≠ none → refused (.conflict, 0)) ∧
            (findOrder s.cbc (param16 s k 0) = none →
              ((freeOrder s.cbc = none → refused (.full, 0)) ∧
              (freeOrder s.cbc ≠ none →
                ((∀ n, positionOf (fun p => s.cbc.ports[p].hold.isSome) ps = some n → refused (.conflict, n)) ∧
                (positionOf (fun p => s.cbc.ports[p].hold.isSome) ps = none → wkopOverride s k = false →
                  ∀ n, firstNotTaken s ps [] ps 1 = some n → refused (.conflict, 16 + n))))))))))))))

/-- R50 to R52: WINDOW_EXPIRY of an OPEN order, and WKEN of one, enter VERIFYING: the reason is recorded (with the overrun
flag at expiry), each item saves its port's expectation and gives the port its own, an item that is ANY or shown by its port
is OK, the verify timer starts; when every item is OK the order closes good and its ports are free of the hold. Every other
order, and every port the order does not list, stays. R54: a TAG is shown by a decoder locked to the expected identity, a DARK
by the port state DARK. While an order is VERIFYING, a new port state or received tag record of a port makes its PENDING items
that are then shown OK; no item loses an OK. When that makes the last item OK the order is CLOSED-GOOD, its verify timer
stopped, its reason kept, its ports released together with their tag waits restarted and judged afresh against the expectations
they keep, with its WORK record. Every other order stays. -/
def Obligations.AnOrderEntersVerifying : Prop :=
  (∀ (s : State) (x : Item),
    (x.expect.kind = .any → itemShown s x = true) ∧
    (x.expect.kind = .dark → (itemShown s x = true ↔ s.pmon.ports[x.port].handed = .dark)) ∧
    (x.expect.kind = .tag → (itemShown s x = true ↔
      ∃ t, s.tcd.decs[x.port].tag = some t ∧ t.shelf = x.expect.shelf ∧ t.port.toNat = x.expect.port.toNat))) ∧
  (∀ (s : State) (ports : List Port) (r : Cbc × List Msg),
    (∃ cs : List PortChange, ports = cs.map (·.port) ∧ r = cbcPorts s cs) ∨ (∃ p, ports = [p] ∧ r = cbcTag s p) →
    ∀ i : OrderIx, (s.cbc.orders[i] = none → r.1.orders[i] = none) ∧
      ∀ o, s.cbc.orders[i] = some o →
        let items := o.items.map fun x =>
          if x.port ∈ ports ∧ x.outcome = .pending ∧ itemShown s x = true then { x with outcome := .ok } else x
        (o.state ≠ .verifying ∨ items = o.items → r.1.orders[i] = some o) ∧
        (o.state = .verifying → items ≠ o.items →
          ((∃ x ∈ items, x.outcome ≠ .ok) → r.1.orders[i] = some { o with items := items }) ∧
          ((∀ x ∈ items, x.outcome = .ok) →
            r.1.orders[i] = some { o with items := items, state := .closedGood, timer := none } ∧
            (∃ recs, .jrn recs ∈ r.2 ∧ .work i o.number (some .closedGood) o.reason 0 ∈ recs) ∧
            ∃ released batch, .prcHold released false ∈ r.2 ∧ .alm batch ∈ r.2 ∧
              ∀ x ∈ o.items, x.port ∈ released ∧ .hold x.port false ∈ batch ∧
                r.1.ports[x.port] = { s.cbc.ports[x.port] with
                  hold := none, tagWait := some (s.rqu.shelf.tagWait * 4)
                  state := cablingState s r.1.ports[x.port] x.port }))) ∧
  ∀ (s : State) (i : OrderIx) (o : Order), s.cbc.orders[i] = some o → o.state = .opened →
    (o.items.map (·.port)).Nodup →
    let entered (t : State) (why : Reason) (overrun : Bool) : Prop :=
      let items := o.items.map fun x => { x with
        prev := some s.cbc.ports[x.port].expect
        outcome := if x.expect.kind = .any ∨ (x.outcome = .pending ∧ itemShown s x = true) then .ok else x.outcome }
      let closes := items.all fun x => decide (x.outcome = .ok)
      t.cbc.orders[i] = some { o with
        state := if closes then .closedGood else .verifying, reason := some why, overrun := overrun, items := items
        timer := if closes then none else some (s.rqu.shelf.verify * 4000) } ∧
      (∀ x ∈ o.items, t.cbc.ports[x.port].expect = x.expect ∧
        t.cbc.ports[x.port].hold = if closes then none else s.cbc.ports[x.port].hold) ∧
      (∀ j, j ≠ i → t.cbc.orders[j] = s.cbc.orders[j]) ∧
      ∀ p, p ∉ o.items.map (·.port) → t.cbc.ports[p] = s.cbc.ports[p]
    (s.start.ready = true → o.timer ≠ none →
      ∃ t, exec (.windowExpiry i) s = .next t ∧ entered t .expired true ∧
        unchangedBut [.pmon, .cbc, .prc, .tsel, .tsp, .alm, .jrn, .attn, .gens, .choices] s t) ∧
    (∀ k, serving s k .wken = true → param16 s k 0 ≠ 0 → findOrder s.cbc (param16 s k 0) = some i →
      ∃ t, exec (.wken k) s = .next t ∧ entered t .host o.overrun ∧ Answered s t k .ok 0 s.mem ∧ sameRqu s t ∧
        unchangedBut [.pmon, .cbc, .prc, .tsel, .tsp, .alm, .jrn, .attn, .gens, .choices, .rqu, .mem] s t)

/-- R46, R55: VERIFY_TIMER_EXPIRY of a VERIFYING order closes it faulty: PENDING items become FAILED, the fault flag is
set, and on each of its ports the hold is released and the tag wait restarted, the expectation kept. R46, R56: WKCN of an
order in OPEN or VERIFYING cancels it with reason HOST or the reason it has, releases the holds likewise, and from VERIFYING
gives each port back the saved expectation. Every other order, and every port the order does not list, stays. -/
def Obligations.AnOrderEndsWithItsHoldsReleased : Prop :=
  ∀ (s : State) (i : OrderIx) (o : Order), s.cbc.orders[i] = some o → (o.items.map (·.port)).Nodup →
    let released (t : State) : Prop :=
      (∀ x ∈ o.items, t.cbc.ports[x.port].hold = none ∧
        t.cbc.ports[x.port].tagWait = some (s.rqu.shelf.tagWait * 4)) ∧
      (∀ j, j ≠ i → t.cbc.orders[j] = s.cbc.orders[j]) ∧
      ∀ p, p ∉ o.items.map (·.port) → t.cbc.ports[p] = s.cbc.ports[p]
    (s.start.ready = true → o.state = .verifying → o.timer ≠ none →
      ∃ t, exec (.verifyTimerExpiry i) s = .next t ∧ released t ∧
        t.cbc.orders[i] = some { o with
          state := .closedFault, fault := true, timer := none
          items := o.items.map fun x => if x.outcome = .pending then { x with outcome := .failed } else x } ∧
        (∀ x ∈ o.items, t.cbc.ports[x.port].expect = s.cbc.ports[x.port].expect) ∧
        unchangedBut [.pmon, .cbc, .prc, .tsel, .tsp, .alm, .jrn, .attn, .gens, .choices] s t) ∧
    (∀ k, serving s k .wkcn = true → param16 s k 0 ≠ 0 → findOrder s.cbc (param16 s k 0) = some i →
      o.state = .opened ∨ o.state = .verifying →
      ∃ t, exec (.wkcn k) s = .next t ∧ released t ∧
        t.cbc.orders[i] = some { o with
          state := .cancelled, timer := none, reason := if o.state = .opened then some .host else o.reason } ∧
        (∀ x ∈ o.items, t.cbc.ports[x.port].expect =
          if o.state = .verifying then x.prev.getD s.cbc.ports[x.port].expect else s.cbc.ports[x.port].expect) ∧
        Answered s t k .ok 0 s.mem ∧ sameRqu s t ∧
        unchangedBut [.pmon, .cbc, .prc, .tsel, .tsp, .alm, .jrn, .attn, .gens, .choices, .rqu, .mem] s t)

/-- R51, R56, R57: an order number (a word, DESIGN CHOICE, log 56) of 0 is refused with BAD_ARG, one that no entry holds with
NO_OBJECT; WKEN of an entry not in OPEN, WKCN of one not in OPEN or VERIFYING, WKDR of one in OPEN or VERIFYING with
WRONG_STATE; a refusal changes nothing else. WKDR of a closed or cancelled order frees its entry, hands JRN a WORK record that
names the entry, the order number and the state FREE, and leaves every port and every other order. -/
def Obligations.OrdersAreNamedByTheirNumbers : Prop :=
  ∀ (k : SlotIx) (s : State) (r : Request) (number : Nat), number = param16 s k 0 → serving s k r = true →
    let refused (e : Result) : Prop := ∃ t, exec (r.command k) s = .next t ∧ Answered s t k e 0 s.mem ∧ sameRqu s t ∧
      unchangedBut [.attn, .rqu, .mem] s t
    ((r = .wken ∨ r = .wkcn ∨ r = .wkdr) →
      (number = 0 → refused .badArg) ∧ (number ≠ 0 → findOrder s.cbc number = none → refused .noObject)) ∧
    ∀ i o, number ≠ 0 → findOrder s.cbc number = some i → s.cbc.orders[i] = some o →
      (r = .wken → o.state ≠ .opened → refused .wrongState) ∧
      (r = .wkcn → o.state ≠ .opened → o.state ≠ .verifying → refused .wrongState) ∧
      (r = .wkdr → o.state = .opened ∨ o.state = .verifying → refused .wrongState) ∧
      (r = .wkdr → o.state ≠ .opened → o.state ≠ .verifying →
        ∃ t events, exec (.wkdr k) s = .next t ∧ t.cbc.orders[i] = none ∧ t.jrn = journalAfter s events ∧
          (∃ reason failed, [.work i o.number none reason failed] ∈ events) ∧
          (∀ j, j ≠ i → t.cbc.orders[j] = s.cbc.orders[j]) ∧ t.cbc.ports = s.cbc.ports ∧
          Answered s t k .ok 0 s.mem ∧ sameRqu s t ∧
          unchangedBut [.cbc, .alm, .jrn, .attn, .gens, .choices, .rqu, .mem] s t)

/-- R41: ADPT of a set that is not empty and holds no held port adopts every populated port of the set whose decoder is
LOCKED, whatever its role, card state or expectation: its expectation becomes TAG with the locked identity and its tag wait
starts afresh. Every other port, and every order, stays; the detail is the number of listed ports left as they were. An
empty set is refused with BAD_ARG, a held port with CONFLICT and the lowest such port. -/
def Obligations.PortsAreAdopted : Prop :=
  ∀ (k : SlotIx) (s : State), serving s k .adpt = true →
    let set := portSet s k
    let taken (p : Port) : Bool := decide (p ∈ set) && s.populated p && s.tcd.decs[p].tag.isSome
    (set = [] → ∃ t, exec (.adpt k) s = .next t ∧ Answered s t k .badArg 0 s.mem ∧ sameRqu s t ∧
      unchangedBut [.attn, .rqu, .mem] s t) ∧
    (∀ p, p ∈ set → s.cbc.ports[p].hold ≠ none → (∀ q ∈ set, q < p → s.cbc.ports[q].hold = none) →
      ∃ t, exec (.adpt k) s = .next t ∧ Answered s t k .conflict p s.mem ∧ sameRqu s t ∧
        unchangedBut [.attn, .rqu, .mem] s t) ∧
    (set ≠ [] → (∀ p ∈ set, s.cbc.ports[p].hold = none) →
      ∃ t, exec (.adpt k) s = .next t ∧
        (∀ p v, taken p = true → s.tcd.decs[p].tag = some v →
          t.cbc.ports[p].expect = { kind := .tag, port := v.port.setWidth 8, shelf := v.shelf } ∧
          t.cbc.ports[p].tagWait = some (s.rqu.shelf.tagWait * 4) ∧ t.cbc.ports[p].hold = none) ∧
        (∀ p, taken p = false → t.cbc.ports[p] = s.cbc.ports[p]) ∧ t.cbc.orders = s.cbc.orders ∧
        Answered s t k .ok (set.filter fun p => !taken p).length s.mem ∧ sameRqu s t ∧
        unchangedBut [.cbc, .prc, .tsel, .tsp, .alm, .jrn, .attn, .gens, .choices, .rqu, .mem] s t)

/-! ### Protection -/

/-- R67, R76, R88: the timers of a group. HOLD_OFF_EXPIRY makes the member's timer idle and raises FAIL (FAIL-P at member
0) on signal fail, DEGRADE on signal degrade at a working member where degrade switching is set, nothing otherwise.
WTR_EXPIRY ends the wait. BRIDGE_CONFIRMATION_EXPIRY, at a settled 1TN group that waits for its far end, makes the timer
expired and BRIDGEMISMATCH present, the bridge kept and the selector at none. Every other member's monitor record, every other
group and every other block but those that take the group's hand-ons stay. R66, R68, R69, R75, R76: what starts those timers, at
a member's port. Under work hold its state is ignored. Without a raised request, the appearance of an applicable state starts
the hold-off, a running one not being restarted, and suspends the member's WTR timer. A raised request follows the state; its
end is a loss, and the loss of the top local request with nothing above the wait present raises RESTORE-WAIT with the full WTR
or STAY. A hold stops the timer and clears the raised request without a loss, ends the member's wait and keeps its place in the
list; its release is a loss of WORK-W, and an appearance if the state is then applicable. A hold-off that runs out with nothing
raised starts a suspended WTR timer afresh, one that raises a request ends the wait. R87 to R89: the
bridge confirmation timer of a 1TN group, as every event leaves it. The bridged member follows the winning request. Where that
is none, where the signalling is lost and where the far bridged member is the same, the selected member is the bridged one and
the timer idle; otherwise the selector is at none, an idle timer starts with 200 ms, and one that runs or has expired is left
as it is, unless the bridge moved, which makes it start afresh. In a 1+1 group it is idle. -/
def Obligations.ProtectionTimersRunOut : Prop :=
  (∀ (s : State) (gi : GroupIx) (g : Group),
    let h := (g.settle s gi).1
    let b := if h.win.ord = 0 then 0 else h.win.mem
    let was := if b = g.bridged then g.confirm else .idle
    let confirmed : Prop := b = 0 ∨ g.sigLost = true ∨ g.farBridgedTaken = b
    (g.kind ≠ .oneToN → h.confirm = .idle) ∧
    (g.kind = .oneToN → h.bridged = b ∧
      (confirmed → h.selected = b ∧ h.confirm = .idle) ∧
      (¬confirmed → h.selected = 0 ∧ (was = .idle → h.confirm = .running 800) ∧ (was ≠ .idle → h.confirm = was)))) ∧
  (∀ (s : State) (gi : GroupIx) (g : Group) (m : Nat) (p : Port), s.prc.groups[gi] = some g → g.n ≤ 6 →
    (g.prot :: g.work).Nodup → (g.prot :: g.work)[m]? = some p →
    let x := g.mon m
    let applicable (st : PortState) : Bool := st.sf || (decide (m ≠ 0) && g.degSwitch && decide (st = .degrade))
    let raisedBy (st : PortState) : Option Raised :=
      if st.sf then some .fail else if applicable st then some .degrade else none
    let calm : Prop := g.lockout = false ∧ g.force = none ∧ g.manual = none ∧
      ∀ j, j ≠ m → (g.mon j).held = false ∧ (g.mon j).raised = none
    let disturbed : Prop := g.lockout = true ∨ (g.mon 0).held = true ∨ (g.mon 0).raised = some .fail ∨
      ∃ j, 1 ≤ j ∧ j ≤ 6 ∧
        (g.force = some j ∨ g.manual = some j ∨ (j ≠ m ∧ ((g.mon j).held = true ∨ (g.mon j).raised ≠ none)))
    let wait (left : Option Nat) : Option Wait := some (if g.revertive then .restore m left else .stay m)
    let becomes (r : Prc × List Msg) (h : Group) : Prop := r.1.groups[gi] = some h ∧ (∀ j, j ≠ m → h.mon j = g.mon j) ∧
      (∀ (j : GroupIx) k, s.prc.groups[j] = some k → p ∉ k.prot :: k.work → r.1.groups[j] = some k) ∧
      r.1.frozen = s.prc.frozen
    (∀ old new : PortState, ∃ h, becomes (prcPorts s [⟨p, old, new⟩]) h ∧
      (x.held = true → h.mon m = x) ∧
      (x.held = false → x.raised = none → applicable old = true ∨ applicable new = false ∨ x.timer ≠ none →
        h.mon m = x) ∧
      (x.held = false → x.raised = none → applicable old = false → applicable new = true → x.timer = none →
        h.mon m = (if g.holdOff = 0 then { x with raised := raisedBy new } else { x with timer := some (g.holdOff * 4) }) ∧
        (1 ≤ m → calm → g.holdOff ≠ 0 →
          (∀ n, g.wait = some (.restore m n) → h.wait = some (.restore m none)) ∧
          (g.wait = some (.stay m) → h.wait = some (.stay m)))) ∧
      (x.held = false → ∀ r, x.raised = some r →
        h.mon m = { x with raised := raisedBy new } ∧
        (1 ≤ m → raisedBy new = none → g.wait = none →
          let top : Prop := g.top = ⟨if r = .fail then ordFail else ordDegrade, m⟩
          (top → calm → h.wait = wait (some (g.wtr * 4000))) ∧ (¬top ∨ disturbed → h.wait = none)))) ∧
    (∃ h, becomes (prcHold s [p] true) h ∧ h.mon m = { timer := none, raised := none, held := true } ∧
      (1 ≤ m → m ∈ h.order) ∧
      (1 ≤ m → (∃ n, g.wait = some (.restore m n)) ∨ g.wait = some (.stay m) → h.wait = none ∧
        (calm → m ∈ g.order → h.order = g.order))) ∧
    (x = { timer := none, raised := none, held := true } →
      let st := s.pmon.ports[p].handed
      ∃ h, becomes (prcHold s [p] false) h ∧
        h.mon m = {
          held := false
          timer := if applicable st = true ∧ g.holdOff ≠ 0 then some (g.holdOff * 4) else none
          raised := if g.holdOff = 0 then raisedBy st else none } ∧
        (1 ≤ m → g.wait = none →
          (g.top = ⟨ordWorkW, m⟩ → calm →
            (applicable st = false → h.wait = wait (some (g.wtr * 4000))) ∧
            (applicable st = true → g.holdOff ≠ 0 → h.wait = wait none) ∧
            (applicable st = true → g.holdOff = 0 → h.wait = none)) ∧
          (g.top ≠ ⟨ordWorkW, m⟩ ∨ disturbed → h.wait = none)))) ∧
  ∀ (s : State) (gi : GroupIx) (g : Group), s.start.ready = true → s.prc.groups[gi] = some g →
    let frame := unchangedBut [.prc, .tsel, .tsp, .alm, .jrn, .attn, .gens, .choices] s
    (∀ m n, m ≤ g.n → (g.mon m).timer = some n →
      let st := g.stateOf s m
      ∃ t h, exec (.holdOffExpiry gi m) s = .next t ∧ onlyGroup s t gi h ∧ (h.mon m).timer = none ∧
        (h.mon m).raised = (if st.sf then some .fail
          else if m ≠ 0 ∧ g.degSwitch = true ∧ st = .degrade then some .degrade else (g.mon m).raised) ∧
        (∀ j, j ≠ m → h.mon j = g.mon j) ∧ h.lockout = g.lockout ∧ h.force = g.force ∧
        (h.mon m).held = (g.mon m).held ∧
        (1 ≤ m → (∃ k, g.wait = some (.restore m k)) ∨ g.wait = some (.stay m) →
          st.sf = true ∨ (g.degSwitch = true ∧ st = .degrade) → h.wait = none) ∧
        (1 ≤ m → g.wait = some (.restore m none) → st.sf = false → g.degSwitch = false ∨ st ≠ .degrade →
          g.lockout = false → g.force = none → g.manual = none →
          (∀ j, (g.mon j).held = false ∧ (g.mon j).raised = none) → h.wait = some (.restore m (some (g.wtr * 4000)))) ∧
        frame t) ∧
    (∀ m n, g.wait = some (.restore m (some n)) →
      ∃ t h, exec (.wtrExpiry gi) s = .next t ∧ onlyGroup s t gi h ∧ h.wait = none ∧ sameGroup g h ∧
        h.lockout = g.lockout ∧ h.force = g.force ∧
        (g.kind = .uni → 1 ≤ m → g.order = [m] → g.manual = none → g.protRequests = [] →
          g.memberRequests m = [⟨ordRestoreWait, m⟩] → h.selected = 0 ∧ h.top = ⟨ordIdle, 0⟩ ∧ h.order = []) ∧
        frame t) ∧
    (∀ n, g.confirm = .running n → g.kind = .oneToN → groupSettled g = true → groupOk g = true → g.bridged ≠ 0 →
      g.sigLost = false → g.farBridgedTaken ≠ g.bridged →
      ∃ t h, exec (.bridgeConfirmationExpiry gi) s = .next t ∧ onlyGroup s t gi h ∧ sameGroup g h ∧
        h.confirm = .expired ∧ h.bridged = g.bridged ∧ h.selected = 0 ∧ h.bridgeMis = true ∧ h.top = g.top ∧
        h.win = g.win ∧ h.force = g.force ∧ h.lockout = g.lockout ∧ h.manual = g.manual ∧ h.wait = g.wait ∧ frame t)

/-- R70 to R74: the commands of the protection. Checked in order (group and member are bytes, DESIGN
CHOICE, log 56): no shelf record, a group number above 15, an undefined
group, a member that is 0 or above N, the command's own rule; a refused command changes nothing else. An accepted PSLO sets
the lockout mark and the top is LOCKOUT with nothing selected from protection; PSFS sets the force, PSMS the manual (unless
a far request above MANUAL takes the protection in the same event) and ends a wait; PSCL removes lockout, force, manual and
wait and answers their number. The rest of the group, every other group and every block but those that take the group's
hand-ons stay. -/
def Obligations.ProtectionCommands : Prop :=
  ∀ (k : SlotIx) (s : State) (r : Request), r = .pslo ∨ r = .psfs ∨ r = .psms ∨ r = .pscl → serving s k r = true →
    let number := (param8 s k 0).toNat
    let m := (param8 s k 1).toNat
    let refused (e : Result) : Prop := ∃ t, exec (r.command k) s = .next t ∧ Answered s t k e 0 s.mem ∧ sameRqu s t ∧
      unchangedBut [.attn, .rqu, .mem] s t
    let accepted (gi : GroupIx) (g : Group) (detail : Nat) (does : Group → Prop) : Prop :=
      ∃ t h, exec (r.command k) s = .next t ∧ onlyGroup s t gi h ∧ sameGroup g h ∧ does h ∧
        Answered s t k .ok detail s.mem ∧ sameRqu s t ∧
        unchangedBut [.prc, .tsel, .tsp, .alm, .jrn, .attn, .gens, .choices, .rqu, .mem] s t
    (s.rqu.loaded = false → refused .notReady) ∧
    (s.rqu.loaded = true → 15 < number → refused .badArg) ∧
    ∀ (gi : GroupIx), s.rqu.loaded = true → gi.val = number →
      (s.prc.groups[gi] = none → refused .noObject) ∧
      ∀ g, s.prc.groups[gi] = some g → g.n ≤ 6 →
        (r = .psfs ∨ r = .psms → m = 0 ∨ g.n < m → refused .badArg) ∧
        (r = .psfs → 1 ≤ m → m ≤ g.n → g.protRequests ≠ [] → refused .superseded) ∧
        (r = .psms → 1 ≤ m → m ≤ g.n → g.above ordManual = true → refused .superseded) ∧
        (r = .pslo → accepted gi g 0 fun h => h.lockout = true ∧ h.force = g.force ∧ h.top = ⟨ordLockout, 0⟩ ∧
          h.win.mem = 0 ∧ h.selected = 0) ∧
        (r = .psfs → 1 ≤ m → m ≤ g.n → g.protRequests = [] →
          accepted gi g 0 fun h => h.force = some m ∧ h.lockout = g.lockout ∧
            (g.force ≠ some m → h.top = ⟨ordForce, m⟩ ∧ (g.kind = .uni → h.selected = 1))) ∧
        (r = .psms → 1 ≤ m → m ≤ g.n → g.above ordManual = false →
          accepted gi g 0 fun h => h.force = g.force ∧ h.lockout = g.lockout ∧ h.wait = none ∧
            (h.manual = some m ∨ (h.manual = none ∧ g.kind ≠ .uni ∧ ordManual < g.farTaken.ord))) ∧
        (r = .pscl →
          accepted gi g (g.lockout.toNat + g.force.isSome.toNat + g.manual.isSome.toNat + g.wait.isSome.toNat) fun h =>
            h.lockout = false ∧ h.force = none ∧ h.manual = none ∧ h.wait = none)

/-- R78: the top local request: LOCKOUT, then HOLD-P, then FAIL-P, of member 0; else the own request of highest ordinal in the
request order list, the one nearest the front at equal ordinals; else IDLE, member 0. R83: of the top local request and the
far request the higher ordinal wins, at equal ordinals the lower member, and equal requests coincide on side BOTH; two ends
that each hold the other's request come to the same winning request. R81: the far request is the record's, and the signalling
lost flag clear, while the protection port's decoder is LOCKED with kind 1 and, where TAG is expected, with the expected
identity; otherwise the far request is IDLE and the flag is set; a 1P1-UNI group has none, and its far fields stand at 0
(DESIGN CHOICE, log 65). R82: what the arbitration takes of the far fields; one report at the hand-on of a faulty trusted
record, none otherwise (the model's DESIGN CHOICE, log 45). R84: the switch fields a group sends: none of a 1P1-UNI group;
ECHO with the far member while the winning side is FAR with a working member, else the top local request and its member; the
bridged member. R91: the switch count, the SWITCH event, the copy for ALM, the tap for TSEL and the SWITCH record of an event,
by the members before and after it (DEDUCED, log 46). R93, R94: the group conditions as an event leaves them. -/
def Obligations.TopAndWinningRequest : Prop :=
  (∀ g : Group,
    let f := g.sentFields
    (g.kind = .uni → f = { request := 0, member := 0, bridged := 0 }) ∧
    (g.kind ≠ .uni → f.bridged = g.bridged ∧
      (g.side = .localEnd ∨ g.side = .both → f.request = g.top.ord ∧ f.member = g.top.mem) ∧
      (g.side = .farEnd → g.win.mem ≠ 0 → f.request = 1 ∧ f.member = g.win.mem) ∧
      (g.side = .farEnd → g.win.mem = 0 → f.request = g.top.ord ∧ f.member = g.top.mem))) ∧
  (∀ (s : State) (g : Group),
    let h := g.readFar s
    let e := s.cbc.ports[g.prot].expect
    let trusts (t : Tag) : Prop :=
      t.signalling = true ∧ (e.kind ≠ .tag ∨ (t.shelf = e.shelf ∧ t.port.toNat = e.port.toNat))
    h = { g with farReq := h.farReq, farBridged := h.farBridged, sigLost := h.sigLost } ∧
    (g.kind = .uni → h.farReq = ⟨0, 0⟩ ∧ h.farBridged = 0 ∧ h.sigLost = false) ∧
    (g.kind ≠ .uni → ∀ t, s.tcd.decs[g.prot].tag = some t → trusts t →
      h.farReq = ⟨t.request.toNat, t.member.toNat⟩ ∧ h.farBridged = t.bridged.toNat ∧ h.sigLost = false) ∧
    (g.kind ≠ .uni → (∀ t, s.tcd.decs[g.prot].tag = some t → ¬trusts t) →
      h.farReq = ⟨0, 0⟩ ∧ h.farBridged = 0 ∧ h.sigLost = true) ∧
    (2 ≤ g.farReq.ord → g.farReq.ord ≤ 8 → 1 ≤ g.farReq.mem → g.farReq.mem ≤ g.n → g.farTaken = g.farReq) ∧
    (9 ≤ g.farReq.ord → g.farReq.ord ≤ 11 → g.farReq.mem = 0 → g.farTaken = g.farReq) ∧
    (g.farReq.ord ≤ 1 ∨ 11 < g.farReq.ord ∨ (g.farReq.ord ≤ 8 ∧ (g.farReq.mem = 0 ∨ g.n < g.farReq.mem)) ∨
      (9 ≤ g.farReq.ord ∧ g.farReq.mem ≠ 0) → g.farTaken = ⟨0, 0⟩) ∧
    g.farBridgedTaken = (if g.farBridged ≤ g.n then g.farBridged else 0)) ∧
  (∀ (s : State) (p : Port),
    let e := s.cbc.ports[p].expect
    let reported (g : Group) : Prop := g.prot = p ∧ g.kind ≠ .uni ∧ ∃ t, s.tcd.decs[p].tag = some t ∧
      t.signalling = true ∧ (e.kind ≠ .tag ∨ (t.shelf = e.shelf ∧ t.port.toNat = e.port.toNat)) ∧
      ((t.request.toNat = 0 ∧ g.n < t.member.toNat) ∨
        (1 ≤ t.request.toNat ∧ t.request.toNat ≤ 8 ∧ (t.member.toNat = 0 ∨ g.n < t.member.toNat)) ∨
        (9 ≤ t.request.toNat ∧ t.member.toNat ≠ 0) ∨ 11 < t.request.toNat ∨ g.n < t.bridged.toNat)
    (∀ (gi : GroupIx) g, s.prc.groups[gi] = some g → reported g →
      (∀ (j : GroupIx) h, s.prc.groups[j] = some h → reported h → j = gi) → .tcdReport [p] ∈ (prcTag s p).2) ∧
    ((∀ (gi : GroupIx) g, s.prc.groups[gi] = some g → ¬reported g) → ∀ ps, .tcdReport ps ∉ (prcTag s p).2) ∧
    ∀ q : Port, (tcdReport s [p]).decs[q] = { s.tcd.decs[q] with
      badSig := if q = p then (if s.tcd.decs[q].badSig < 65535 then s.tcd.decs[q].badSig + 1 else 65535)
        else s.tcd.decs[q].badSig }) ∧
  (∀ (s : State) (w : PrcWork) (gi : GroupIx) (base g : Group) (fresh : Bool), g.n ≤ 6 →
    let x := prcSettle s w gi base g fresh
    let sw : JBody → Bool := fun b => match b with | .switch .. => true | _ => false
    let event : AlmChange → Bool := fun c => match c with | .event .. => true | _ => false
    ∃ h, x.prc.groups[gi] = some h ∧ (∀ j, j ≠ gi → x.prc.groups[j] = w.prc.groups[j]) ∧ x.prc.frozen = w.prc.frozen ∧
      groupSettled h = true ∧ h.mons = g.mons ∧ h.lockout = g.lockout ∧ h.force = g.force ∧ h.farReq = g.farReq ∧
      h.switches = (if base.selected = h.selected then g.switches
        else if g.switches < 65535 then g.switches + 1 else 65535) ∧
      (x.alm.filter event = w.alm.filter event ++
        if base.selected = h.selected then []
        else [.event .switch gi (if base.selected = 0 then none else some base.selected)
          (if h.selected = 0 then none else some h.selected)]) ∧
      (base.selected ≠ h.selected ∨ fresh = true →
        .group gi (some { prot := h.prot, work := h.work, selected := h.selected }) ∈ x.alm ∧
        (g.kind ≠ .oneToN → g.work ≠ [] →
          (gi, if h.selected = 0 then h.work.head? else some h.prot) ∈ x.taps)) ∧
      (x.recs.filter sw = w.recs.filter sw ++
        if base.selected = h.selected ∧ base.bridged = h.bridged then []
        else [.switch gi base.selected h.selected base.bridged h.bridged h.win h.side]) ∧
      let healthy : Prop := s.pmon.ports[h.prot].handed.sf = false ∧ (h.mon 0).held = false
      let served (m : Nat) : Prop := healthy ∧
        (if h.kind = .oneToN then h.selected = m ∨ (h.bridged = m ∧ ∃ n, h.confirm = .running n) else h.selected = 1)
      (h.svcLoss = true ↔ ∃ m p, g.work[m]? = some p ∧
        (s.pmon.ports[p].handed.sf = true ∨ (h.mon (m + 1)).held = true) ∧ ¬served (m + 1)) ∧
      (h.protUnavail = true ↔ (¬healthy ∨ h.lockout = true) ∧
        ∃ p ∈ g.work, s.pmon.ports[p].handed.sf = true ∨ s.pmon.ports[p].handed = .degrade) ∧
      h.sigFail = h.sigLost ∧ (h.bridgeMis = true ↔ h.confirm = .expired)) ∧
  (∀ g : Group,
    (g.lockout = true → g.formTop = ⟨ordLockout, 0⟩) ∧
    (g.lockout = false → (g.mon 0).held = true → g.formTop = ⟨ordHoldP, 0⟩) ∧
    (g.lockout = false → (g.mon 0).held = false → (g.mon 0).raised = some .fail → g.formTop = ⟨ordFailP, 0⟩) ∧
    (g.lockout = false → (g.mon 0).held = false → (g.mon 0).raised ≠ some .fail →
      (∀ m ∈ g.order, (g.ownRequest m).ord ≤ g.formTop.ord) ∧
      (g.formTop = ⟨ordIdle, 0⟩ ∨ ∃ pre m post, g.order = pre ++ m :: post ∧ g.formTop = g.ownRequest m ∧
        ∀ j ∈ pre, (g.ownRequest j).ord < g.formTop.ord))) ∧
  ∀ (kind : GroupKind) (top far : Req),
    (kind = .uni → arbitrate kind top far = (top, .localEnd)) ∧
    (kind ≠ .uni →
      (top = far → arbitrate kind top far = (top, .both)) ∧
      (far.ord < top.ord → arbitrate kind top far = (top, .localEnd)) ∧
      (top.ord < far.ord → arbitrate kind top far = (far, .farEnd)) ∧
      (top.ord = far.ord → top.mem < far.mem → arbitrate kind top far = (top, .localEnd)) ∧
      (top.ord = far.ord → far.mem < top.mem → arbitrate kind top far = (far, .farEnd)) ∧
      (arbitrate kind top far).1 = (arbitrate kind far top).1)

/-! ### Timing -/

/-- R102, R103: ACTIVITY_LOST clears the reference's activity and edge count; an enabled reference becomes UNAVAILABLE with
cause NO-ACTIVITY, its window discarded and its run 0, and is not selected. ACTIVITY_REGAINED, the eighth consecutive timely
edge, makes the activity present; an enabled building clock of fixed class becomes MEASURING. REFERENCE_RISING_EDGE on a
reference without activity counts the edge, a late one as the first; on one with activity a late edge loses it and counts as
the first of a new run (DESIGN CHOICE, log 16), an enabled reference becoming UNAVAILABLE with cause NO-ACTIVITY. No other
reference, no standing command and no steering value moves. R100: the tap a binding gives, and what a move of it does. R102,
R103, R108: the effective class, and the availability of an enabled reference by the first test that fails, with the state,
window, run, cause and conditions it leaves; a reference not enabled is left (DEDUCED,
log 28). A port state, a work hold or a received tag record
reaches the references whose tap is its port, a group's selected member those bound to the group, and no other. -/
def Obligations.ActivityIsLostAndRegained : Prop :=
  (∀ (c : Prc) (e : RefEntry),
    (e.bindKind = .none → tapOf c e = none) ∧ (∀ p : Port, e.bindKind = .port → e.bindNum = p → tapOf c e = some p) ∧
    ∀ gi : GroupIx, e.bindKind = .group → e.bindNum = gi →
      (c.groups[gi] = none → tapOf c e = none) ∧
      ∀ g p, c.groups[gi] = some g → g.kind ≠ .oneToN → g.work = [p] →
        tapOf c e = some (if g.selected = 0 then p else g.prot)) ∧
  (∀ (s : State) (r : RefIx) (x : RefRec),
    let isClass (c : Option Nat) : Prop :=
      (x.entry.fromTag = false → c = some x.entry.fixedCls) ∧
      (x.entry.fromTag = true →
        (∀ p t, x.tap = some p → s.tcd.decs[p].tag = some t →
          c = if 1 ≤ t.cls.toNat ∧ t.cls.toNat ≤ 6 then some t.cls.toNat else none) ∧
        ((∀ p, x.tap = some p → s.tcd.decs[p].tag = none) → c = none))
    let y := judgeRef s r x
    let lost (c : Cause) : Prop := y = { x with
      cls := y.cls, state := .unavailable, cause := some c, window := none, run := 0
      refLos := decide (c = .noActivity), refOffset := false }
    let idle : Prop := x.state = .disabled ∨ x.state = .unavailable
    isClass (effClass s x) ∧ (x.entry.enable = false → y = x) ∧
    (x.entry.enable = true → isClass y.cls ∧
      (x.active = false → lost .noActivity) ∧
      (x.active = true → 2 ≤ r.val → x.tap = none → lost .noTap) ∧
      (∀ p, x.active = true → 2 ≤ r.val → x.tap = some p →
        (s.pmon.ports[p].handed.sf = true → lost .portFail) ∧
        (s.pmon.ports[p].handed.sf = false → s.cbc.ports[p].hold ≠ none → lost .held)) ∧
      (x.active = true →
        (r.val < 2 ∨ ∃ p, x.tap = some p ∧ s.pmon.ports[p].handed.sf = false ∧ s.cbc.ports[p].hold = none) →
        (x.entry.fromTag = true → y.cls = none → lost .noClass) ∧
        (x.entry.fromTag = false ∨ y.cls ≠ none →
          (idle → y = { x with
            cls := y.cls, state := .measuring, cause := none, window := none, run := 0, refLos := false }) ∧
          (¬idle → y = { x with cls := y.cls, cause := none, refLos := false })))) ∧
    ∀ tap,
      let z := moveTap s r tap x
      (x.tap = tap → z = x) ∧
      (x.tap ≠ tap → x.entry.enable = true → z = judgeRef s r { x with tap := tap, window := none }) ∧
      (x.tap ≠ tap → x.entry.enable = false → z = { x with tap := tap, cls := effClass s { x with tap := tap } })) ∧
  (∀ (s : State) (r : RefIx),
    let x := s.tsel.refs[r]
    (∀ ps, (tselPorts s ps).1.refs[r] = if ∃ p ∈ ps, x.tap = some p then judgeRef s r x else x) ∧
    (∀ p, (tselTag s p).1.refs[r] =
      if x.tap = some p then judgeRef s r { x with cls := effClass s x } else x) ∧
    ∀ gi tap, (tselGroup s gi tap).1.refs[r] =
      if x.entry.bindKind = .group ∧ x.entry.bindNum = gi.val then moveTap s r tap x else x) ∧
  ∀ (r : RefIx) (gap : Nat) (s : State), s.start.ready = true →
    let x := s.tsel.refs[r]
    let idle : Prop := x.state = .disabled ∨ x.state = .unavailable
    let kept (t : State) : Prop :=
      (∀ j, j ≠ r → t.tsel.refs[j] = s.tsel.refs[j]) ∧ t.tsel.steering = s.tsel.steering ∧ t.tsp = s.tsel.steering ∧
      t.tsel.force = s.tsel.force ∧ t.tsel.lockout = s.tsel.lockout ∧ t.tsel.warmUp = s.tsel.warmUp ∧
      unchangedBut [.tsel, .tsp, .alm, .jrn, .attn, .gens, .choices] s t
    (x.active = true →
      ∃ t, exec (.activityLost r) s = .next t ∧ t.tsel.refs[r].active = false ∧ t.tsel.refs[r].edges = 0 ∧
        t.tsel.refs[r].silence = none ∧
        (x.entry.enable = true → t.tsel.refs[r].state = .unavailable ∧ t.tsel.refs[r].cause = some .noActivity ∧
          t.tsel.refs[r].window = none ∧ t.tsel.refs[r].run = 0 ∧ t.tsel.refs[r].refLos = true ∧
          t.tsel.selected ≠ some r) ∧
        (x.entry.enable = false → t.tsel.refs[r].state = x.state) ∧ kept t) ∧
    (x.active = false → gap < 80000 → 7 ≤ x.edges → idle →
      ∃ t, exec (.activityRegained r gap) s = .next t ∧ exec (.referenceRisingEdge r gap) s = .next t ∧
        t.tsel.refs[r].active = true ∧ t.tsel.refs[r].silence = some 2 ∧
        (x.entry.enable = true → r.val < 2 → x.entry.fromTag = false → t.tsel.refs[r].state = .measuring ∧
          t.tsel.refs[r].cause = none ∧ t.tsel.refs[r].window = none ∧ t.tsel.refs[r].run = 0 ∧
          t.tsel.refs[r].refLos = false) ∧
        (x.entry.enable = false → t.tsel.refs[r].state = x.state) ∧ kept t) ∧
    (x.active = false → (x.edges < 7 ∨ 80000 ≤ gap) → idle →
      ∃ t, exec (.referenceRisingEdge r gap) s = .next t ∧
        t.tsel.refs[r] = { x with edges := if gap < 80000 then x.edges + 1 else 1 } ∧ kept t) ∧
    (x.active = true → 80000 ≤ gap →
      ∃ t, exec (.referenceRisingEdge r gap) s = .next t ∧ t.tsel.refs[r].active = false ∧ t.tsel.refs[r].edges = 1 ∧
        t.tsel.refs[r].silence = none ∧
        (x.entry.enable = true → t.tsel.refs[r].state = .unavailable ∧ t.tsel.refs[r].cause = some .noActivity ∧
          t.tsel.refs[r].window = none ∧ t.tsel.refs[r].run = 0 ∧ t.tsel.refs[r].refLos = true ∧
          t.tsel.selected ≠ some r) ∧
        (x.entry.enable = true ∨ idle → kept t))

/-- R104: REFERENCE_RISING_EDGE on an active reference within 0.5 ms of the edge before it: the first edge of a MEASURING,
QUALIFIED or OFFSET-OUT reference without a window opens one, a later one counts an edge and its ticks; a DISABLED or
UNAVAILABLE reference has no window. The 0.5 ms start afresh, and no other reference and no steering value moves. -/
def Obligations.EdgesOfAWindow : Prop :=
  ∀ (r : RefIx) (gap : Nat) (s : State), s.start.ready = true → s.tsel.refs[r].active = true → gap < 80000 →
    let x := s.tsel.refs[r]
    let measured : Prop := x.state = .measuring ∨ x.state = .qualified ∨ x.state = .offsetOut
    let leaves (w : Option Window) : Prop := ∃ t, exec (.referenceRisingEdge r gap) s = .next t ∧
      t.tsel.refs[r] = { x with window := w, silence := some 2 } ∧ (∀ j, j ≠ r → t.tsel.refs[j] = s.tsel.refs[j]) ∧
      t.tsel.steering = s.tsel.steering ∧ unchangedBut [.tsel, .tsp, .alm, .jrn, .attn, .gens, .choices] s t
    (measured → x.window = none → leaves (some { edges := 0, ticks := 0 })) ∧
    (∀ w, measured → x.window = some w → w.edges + 1 < 8192 →
      leaves (some { edges := w.edges + 1, ticks := w.ticks + gap })) ∧
    (¬measured → leaves x.window)

/-- R104 to R107, R116, R117: WINDOW_COMPLETE, which is that edge's REFERENCE_RISING_EDGE, ends the window, and the next one
starts with it. During the warm-up the window is discarded: last offset, run, state and steering stay. After it the count's
offset becomes the last offset, the reference moves by the table of R107, and the offset steers if the reference is then
selected in ACQUIRING or LOCKED: U moves toward it by at most the slew limit; otherwise U stays. Of that update, a limited one
leaves ACQUIRING with the run 0; another takes LOCKED on, or the second in a row in ACQUIRING to LOCKED, with the run 2, and
joins the new U to the last 16 of the history; the first in ACQUIRING leaves the run 1. A reference this window gets selected
starts from ACQUIRING, an empty history and the run 0; a limited update keeps the history (DESIGN CHOICE, log 47). No other
reference moves. R105: the offset is the count's difference from 163,840,000 times 3125/512, rounded to nearest, halves away
from zero, within ±999,999. -/
def Obligations.AWindowCompletes : Prop :=
  (∀ (r : RefIx) (gap : Nat) (s : State) (w : Window), s.start.ready = true → s.tsel.refs[r].active = true →
    gap < 80000 → s.tsel.refs[r].window = some w → 8192 ≤ w.edges + 1 →
    (s.tsel.refs[r].state = .measuring ∨ s.tsel.refs[r].state = .qualified ∨ s.tsel.refs[r].state = .offsetOut) →
    let x := s.tsel.refs[r]
    let f := offsetOf (w.ticks + gap)
    let u := s.tsel.steering
    let d := f - u
    ∃ t, exec (.windowComplete r gap) s = .next t ∧ exec (.referenceRisingEdge r gap) s = .next t ∧
      t.tsel.refs[r].window = some { edges := 0, ticks := 0 } ∧ (∀ j, j ≠ r → t.tsel.refs[j] = s.tsel.refs[j]) ∧
      (s.tsel.warmUp ≠ none → t.tsel.refs[r].last = x.last ∧ t.tsel.refs[r].run = x.run ∧
        t.tsel.refs[r].state = x.state ∧ t.tsel.steering = u) ∧
      (s.tsel.warmUp = none → t.tsel.refs[r].last = some f ∧
        (x.state = .measuring → f.natAbs ≤ x.entry.accept →
          t.tsel.refs[r].run = x.run + 1 ∧
          t.tsel.refs[r].state = if x.entry.stab ≤ x.run + 1 then .qualified else .measuring) ∧
        (x.state = .measuring → x.entry.accept < f.natAbs →
          t.tsel.refs[r].run = 0 ∧ t.tsel.refs[r].state = .measuring) ∧
        (x.state = .qualified → f.natAbs ≤ x.entry.accept →
          t.tsel.refs[r].run = x.run ∧ t.tsel.refs[r].state = .qualified) ∧
        (x.state = .qualified → x.entry.accept < f.natAbs →
          t.tsel.refs[r].run = 0 ∧ t.tsel.refs[r].state = .offsetOut ∧ t.tsel.refs[r].refOffset = true) ∧
        (x.state = .offsetOut → f.natAbs ≤ x.entry.accept - x.entry.hyst →
          t.tsel.refs[r].run = 0 ∧ t.tsel.refs[r].state = .measuring ∧ t.tsel.refs[r].refOffset = false) ∧
        (x.state = .offsetOut → x.entry.accept - x.entry.hyst < f.natAbs → t.tsel.refs[r].state = .offsetOut) ∧
        (t.tsel.selected = some r → t.tsel.state = .acquiring ∨ t.tsel.state = .locked →
          t.tsel.target = some f ∧ t.tsel.limited = decide (s.rqu.shelf.slew < d.natAbs) ∧
          t.tsel.steering = clampInt (-50000) 50000
            (u + if s.rqu.shelf.slew < d.natAbs then d.sign * s.rqu.shelf.slew else d) ∧
          let kept : Bool := s.tsel.selected == some r
          let run := if kept then s.tsel.unlimited else 0
          let history := if kept then s.tsel.history else []
          let locked : Prop := kept = true ∧ s.tsel.state = .locked
          (s.rqu.shelf.slew < d.natAbs →
            t.tsel.state = .acquiring ∧ t.tsel.unlimited = 0 ∧ t.tsel.history = history) ∧
          (d.natAbs ≤ s.rqu.shelf.slew → locked ∨ 1 ≤ run →
            t.tsel.state = .locked ∧ t.tsel.unlimited = 2 ∧
            t.tsel.history = (history ++ [t.tsel.steering]).drop (history.length - 15)) ∧
          (d.natAbs ≤ s.rqu.shelf.slew → ¬locked → run = 0 →
            t.tsel.state = .acquiring ∧ t.tsel.unlimited = 1 ∧ t.tsel.history = history)) ∧
        (t.tsel.selected ≠ some r → t.tsel.steering = u)) ∧
      t.tsp = t.tsel.steering ∧ unchangedBut [.tsel, .tsp, .alm, .jrn, .attn, .gens, .choices] s t) ∧
  ∀ c : Nat,
    let q : Int := (163840000 - (c : Int)) * 3125
    let f := offsetOf c
    (-999999 ≤ f ∧ f ≤ 999999) ∧
    (q.natAbs ≤ 999999 * 512 →
      2 * (512 * f - q).natAbs ≤ 512 ∧ (2 * (512 * f - q).natAbs = 512 → q.natAbs ≤ 512 * f.natAbs)) ∧
    (999999 * 512 < q → f = 999999) ∧ (q < -999999 * 512 → f = -999999)

/-- R106: WARM_UP_END ends the warm-up and moves nothing else. R116, R118: STEERING_TIMER_EXPIRY in HOLDOVER or FREE-RUN
moves U toward the holdover value or the free-run trim by at most the slew limit and restarts the timer with 1.024 s; TSP's
word follows; the run of unlimited updates, the history, the selection and every reference stay. R120, R121: HOLDOVER_AGED
sets the aged flag and the output class to the free-run class, and changes neither the holdover value nor steering. -/
def Obligations.TimingTimersRunOut : Prop :=
  ∀ s : State, s.start.ready = true →
    (s.tsel.warmUp ≠ none →
      ∃ t, exec .warmUpEnd s = .next t ∧ t.tsel = { s.tsel with warmUp := none } ∧ t.tsp = s.tsel.steering ∧
        unchangedBut [.tsel, .tsp, .gens] s t) ∧
    (∀ target : Int, s.tsel.steer ≠ none →
      (s.tsel.state = .holdover ∧ s.tsel.holdValue = some target) ∨
        (s.tsel.state = .freeRun ∧ s.rqu.shelf.trim = target) →
      let d := target - s.tsel.steering
      let limited : Bool := decide (s.rqu.shelf.slew < d.natAbs)
      ∃ t, exec .steeringTimerExpiry s = .next t ∧
        t.tsel.steering = clampInt (-50000) 50000
          (s.tsel.steering + if limited then d.sign * s.rqu.shelf.slew else d) ∧
        t.tsel.target = some target ∧ t.tsel.limited = limited ∧ t.tsel.steer = some 4096 ∧
        t.tsp = t.tsel.steering ∧ t.tsel.state = s.tsel.state ∧ t.tsel.selected = s.tsel.selected ∧
        t.tsel.history = s.tsel.history ∧ t.tsel.unlimited = s.tsel.unlimited ∧ t.tsel.refs = s.tsel.refs ∧
        t.tsel.age = s.tsel.age ∧ t.tsel.aged = s.tsel.aged ∧ t.tsel.holdValue = s.tsel.holdValue ∧
        unchangedBut [.tsel, .tsp, .alm, .jrn, .attn, .gens, .choices] s t) ∧
    (s.tsel.state = .holdover → s.tsel.aged = false → s.rqu.shelf.holdLimit * 3600 * 4000 ≤ s.tsel.age →
      ∃ t, exec .holdoverAged s = .next t ∧ t.tsel.aged = true ∧ t.tsel.outClass = s.rqu.shelf.freeClass ∧
        t.tsel.state = .holdover ∧ t.tsel.holdValue = s.tsel.holdValue ∧ t.tsel.steering = s.tsel.steering ∧
        t.tsel.refs = s.tsel.refs ∧ t.tsel.selected = s.tsel.selected ∧ t.tsel.age = s.tsel.age ∧
        unchangedBut [.tsel, .tsp, .alm, .jrn, .attn, .gens, .choices] s t)

/-- R114: TMLK, TMFS and TMCL: refused with NOT_READY before a shelf record is loaded, TMLK and TMFS with BAD_ARG for an index
(a byte, DESIGN CHOICE, log 56) above 5, nothing else changed. TMLK sets the reference's lockout mark, after which it is not
selected; TMFS makes it the force, and an eligible one is selected at once; TMCL removes the force and every lockout mark and
answers their number. No reference and no steering value moves. -/
def Obligations.TimingCommands : Prop :=
  ∀ (k : SlotIx) (s : State) (q : Request), q = .tmlk ∨ q = .tmfs ∨ q = .tmcl → serving s k q = true →
    let number := (param8 s k 0).toNat
    let refused (e : Result) : Prop := ∃ t, exec (q.command k) s = .next t ∧ Answered s t k e 0 s.mem ∧ sameRqu s t ∧
      unchangedBut [.attn, .rqu, .mem] s t
    let accepted (detail : Nat) (does : Tsel → Prop) : Prop :=
      ∃ t, exec (q.command k) s = .next t ∧ does t.tsel ∧ t.tsel.refs = s.tsel.refs ∧
        t.tsel.steering = s.tsel.steering ∧ t.tsel.warmUp = s.tsel.warmUp ∧ Answered s t k .ok detail s.mem ∧
        sameRqu s t ∧ unchangedBut [.tsel, .tsp, .alm, .jrn, .attn, .gens, .choices, .rqu, .mem] s t
    (s.rqu.loaded = false → refused .notReady) ∧
    (s.rqu.loaded = true → q ≠ .tmcl → 5 < number → refused .badArg) ∧
    (∀ r : RefIx, s.rqu.loaded = true → q = .tmlk → r.val = number →
      accepted 0 fun t => t.lockout[r] = true ∧ (∀ j, j ≠ r → t.lockout[j] = s.tsel.lockout[j]) ∧
        t.force = s.tsel.force ∧ t.selected ≠ some r) ∧
    (∀ r : RefIx, s.rqu.loaded = true → q = .tmfs → r.val = number →
      accepted 0 fun t => t.force = some r ∧ t.lockout = s.tsel.lockout ∧
        (s.tsel.eligible r = true → t.selected = some r)) ∧
    (s.rqu.loaded = true → q = .tmcl →
      accepted (s.tsel.force.isSome.toNat + (allRefs.filter fun r => s.tsel.lockout[r]).length) fun t =>
        t.force = none ∧ ∀ r : RefIx, t.lockout[r] = false)

/-- R112, R113: a reference is eligible when it is QUALIFIED, of priority 1 to 8, not locked out and of a class 1 to 6. An
eligible forced reference is the one selected; otherwise the eligible reference of lowest class (quality mode on), then
lowest priority number, then lowest index, and none when none is eligible; the selected reference is formed so at every
event that forms it. R115, R119: a change of it empties the history and the run, keeps U, offers REFSWITCH and writes one TIMING
record; to a reference it enters ACQUIRING; to none from ACQUIRING or LOCKED it enters HOLDOVER with the age 0, the steering
timer at 1.024 s and as holdover value the mean of the history, rounded to nearest, halves away from zero, or U where it holds
fewer than four values (after a limited update too: DESIGN CHOICE, log 47). Where the choice is the selected reference, nothing
moves. R121, R122: the output class, the do-not-use ports and the conditions as every event leaves them. -/
def Obligations.TheSelectedReference : Prop :=
  (∀ (t : Tsel) (r : RefIx), t.eligible r = true ↔
    t.refs[r].state = .qualified ∧ 1 ≤ t.refs[r].entry.priority ∧ t.refs[r].entry.priority ≤ 8 ∧ t.lockout[r] = false ∧
    ∃ c, t.refs[r].cls = some c ∧ 1 ≤ c ∧ c ≤ 6) ∧
  (∀ (t : Tsel) (quality : Bool),
    let cls (r : RefIx) : Nat := if quality then t.refs[r].cls.getD 0 else 0
    let pri (r : RefIx) : Nat := t.refs[r].entry.priority
    let before (a b : RefIx) : Prop :=
      cls a < cls b ∨ (cls a = cls b ∧ (pri a < pri b ∨ (pri a = pri b ∧ a < b)))
    (∀ f, t.force = some f → t.eligible f = true → t.choose quality = some f) ∧
    ((∀ f, t.force = some f → t.eligible f = false) →
      ((∀ r, t.eligible r = false) → t.choose quality = none) ∧
      (∀ r, t.eligible r = true → (∀ j, t.eligible j = true → j ≠ r → before r j) → t.choose quality = some r) ∧
      (∀ r, t.eligible r = true → t.choose quality ≠ none))) ∧
  (∀ (s : State) (w : TselWork),
    let t := w.tsel
    let sel := t.choose s.rqu.shelf.quality
    let r := reselect s w
    let u := r.tsel
    let n := t.history.length
    u.selected = sel ∧ (sel = t.selected → r = w) ∧
    (sel ≠ t.selected →
      u = { t with
        selected := sel, history := [], unlimited := 0, state := u.state, holdValue := u.holdValue, age := u.age
        aged := u.aged, steer := u.steer } ∧
      (sel ≠ none → u.state = .acquiring ∧ u.holdValue = none ∧ u.age = 0 ∧ u.aged = false ∧ u.steer = none) ∧
      (sel = none → t.state = .acquiring ∨ t.state = .locked →
        u.state = .holdover ∧ u.age = 0 ∧ u.aged = false ∧ u.steer = some 4096 ∧
        (n < 4 → u.holdValue = some t.steering) ∧
        (4 ≤ n → ∃ v : Int, u.holdValue = some v ∧ 2 * (n * v - t.history.sum).natAbs ≤ n ∧
          (2 * (n * v - t.history.sum).natAbs = n → t.history.sum.natAbs ≤ n * v.natAbs))) ∧
      r.alm = w.alm ++ [.event .refSwitch 0 (t.selected.map (·.val)) (sel.map (·.val))] ∧
      r.recs = w.recs ++
        [.timing u.state t.selected sel u.steering (if u.state = .holdover then u.holdValue else none) u.aged])) ∧
  ∀ (s : State) (w : TselWork),
    let e := tselEnd s w
    let t := e.1
    let batched (c : AlmChange) : Prop := ∃ batch, .alm batch ∈ e.2 ∧ c ∈ batch
    t = { w.tsel with outClass := t.outClass, doNotUse := t.doNotUse, holdover := t.holdover, freeRun := t.freeRun } ∧
    (t.state = .acquiring ∨ t.state = .locked → ∀ r c, t.selected = some r → t.refs[r].cls = some c → t.outClass = c) ∧
    (t.state = .holdover → t.outClass = if t.aged then s.rqu.shelf.freeClass else s.rqu.shelf.holdClass) ∧
    (t.state = .freeRun → t.outClass = s.rqu.shelf.freeClass) ∧
    (t.selected = none → t.doNotUse = []) ∧
    (∀ r, t.selected = some r →
      let b := t.refs[r].entry
      (b.bindKind = .none → t.doNotUse = []) ∧
      (∀ p : Port, b.bindKind = .port → b.bindNum = p → t.doNotUse = [p]) ∧
      ∀ (gi : GroupIx) g, b.bindKind = .group → b.bindNum = gi → s.prc.groups[gi] = some g → g.work.length = 1 →
        ∀ p, p ∈ t.doNotUse ↔ p = g.prot ∨ p ∈ g.work) ∧
    (t.holdover = true ↔ t.state = .holdover) ∧
    (t.freeRun = true ↔ t.state = .freeRun ∧ ∃ r : RefIx, t.refs[r].entry.enable = true) ∧
    (s.tsel.holdover = false → t.holdover = true → batched (.offer .holdover 0)) ∧
    (s.tsel.holdover = true → t.holdover = false → batched (.withdraw .holdover 0)) ∧
    (s.tsel.freeRun = false → t.freeRun = true → batched (.offer .freeRun 0)) ∧
    (s.tsel.freeRun = true → t.freeRun = false → batched (.withdraw .freeRun 0))

/-! ### Alarms -/

/-- R133, R134, R140, R142, R143: RAISE_SOAK_EXPIRY takes a PENDING entry to ACTIVE with the active time of now and, if it
rings unacknowledged, into the audible set, with an ALARM-ON record; CLEAR_SOAK_EXPIRY frees a CLEARING entry, with an
ALARM-OFF record of reason CLEARED. The entry's generation word moves by two (DEDUCED, log 10), the bay outputs follow the
table and the attention of ALM is raised; all else in the table stays. R126, R130, R132, R134, R135, R137, R138: a batch, on a
table as every event leaves it (TheAlarmTableStaysTrue). An entry goes at once when its condition is suppressed, or absent and
dropped, pending, or of clear soak 0; an ACTIVE one goes to CLEARING, a CLEARING one back to ACTIVE, any other stays; the
ALARM-OFF of a shown entry carries the reason, SUPPRESSED if the batch both suppresses and withdraws (DEDUCED, log 22). Every
entry then has the severity and the mark that coverage gives, a shown one with a SEVERITY record where either changes; a rise
from MIN lets a shown unacknowledged entry join the audible set, and a fall to MIN leaves it (R143). A condition without an
entry that is offered or no longer suppressed, tabled and not suppressed, takes the FREE entry of lowest index, in the order of
the types and objects, PENDING with its raise soak or ACTIVE at once. A type of severity EVENT has an EVENT record at each
offer that is not suppressed and takes no entry. A condition withdrawn and offered anew in one batch is offered (DEDUCED, log
29). Where no entry is FREE, a candidate displaces the oldest PENDING entry of the lowest severity below its own, or is not
tabled; the overflow count goes up and the flag is set; a batch that leaves an entry FREE clears it. R142: a lamp is on while
an ACTIVE or CLEARING entry has its severity, MAJ on overflow too, and the audible relay while the audible set is not empty.
R140, R142: a batch raises ALM if an entry changed, and BAY if an output did; so do the two expiries. -/
def Obligations.SoaksRunOut : Prop :=
  (∀ a : Alm,
    let lit (v : Severity) : Prop := ∃ (i : EntryIx) (x : Alarm), a.entries[i].alarm = some x ∧ x.severity = v ∧
      (x.state = .active ∨ ∃ n, x.state = .clearing n)
    let o := formOutputs a
    (o.crit = true ↔ lit .crit) ∧ (o.maj = true ↔ lit .maj ∨ a.overflow = true) ∧ (o.min = true ↔ lit .min) ∧
    (o.audible = true ↔ ∃ (i : EntryIx) (x : Alarm), a.entries[i].alarm = some x ∧ x.audible = true)) ∧
  (∀ (i : EntryIx) (s : State) (x : Alarm), s.start.ready = true → s.alm.entries[i].alarm = some x →
    let rest (t : State) (r : JBody) : Prop :=
      t.alm.entries[i].gen = s.alm.entries[i].gen + 2 ∧ (∀ j, j ≠ i → t.alm.entries[j] = s.alm.entries[j]) ∧
      t.alm.present = s.alm.present ∧ t.alm.profile = s.alm.profile ∧ t.alm.overflows = s.alm.overflows ∧
      t.alm.outputs = formOutputs t.alm ∧ t.jrn = (jrnRecords s [r]).1 ∧
      t.hpi.attn.getLsbD 2 = (s.hpi.attn.getLsbD 2 || s.hpi.mask.getLsbD 2) ∧
      t.hpi.attn.getLsbD 3 =
        (s.hpi.attn.getLsbD 3 || (decide (t.alm.outputs ≠ s.alm.outputs) && s.hpi.mask.getLsbD 3)) ∧
      unchangedBut [.alm, .jrn, .attn, .choices] s t
    (∀ n, x.state = .pending n →
      ∃ t, exec (.raiseSoakExpiry i) s = .next t ∧
        t.alm.entries[i].alarm = some { x with
          state := .active, activeTime := some s.now, audible := x.severity.rings && !x.ack } ∧
        rest t (.alarmOn i x.type x.obj x.severity x.nsa)) ∧
    (∀ n, x.state = .clearing n →
      ∃ t, exec (.clearSoakExpiry i) s = .next t ∧ t.alm.entries[i].alarm = none ∧ t.alm.overflow = false ∧
        rest t (.alarmOff i x.type x.obj x.severity .cleared))) ∧
  (∀ (a : Alm) (t u : CondType) (o v : Nat), presentOk a.present = true →
    ((applyChange a (.offer t o)).isPresent u v = true ↔ a.isPresent u v = true ∨ (u, v) = (t, o)) ∧
    ((applyChange a (.withdraw t o)).isPresent u v = true ↔ a.isPresent u v = true ∧ (u, v) ≠ (t, o)) ∧
    ((applyChange a (.drop t o)).isPresent u v = true ↔ a.isPresent u v = true ∧ (u, v) ≠ (t, o))) ∧
  (∀ (s : State) (batch : List AlmChange), tableOk s.alm = true →
    let r := almBatch s batch
    let a := r.1
    let b := batch.foldl applyChange s.alm
    let severity (t : CondType) := s.alm.profile[t.index].severity
    let writes (x : JBody) : Prop := ∃ recs, .jrn recs ∈ r.2 ∧ x ∈ recs
    let room : Prop := ∃ j : EntryIx, a.entries[j].alarm = none
    let without (t : CondType) (o : Nat) : Prop :=
      ∀ (j : EntryIx) x, s.alm.entries[j].alarm = some x → (x.type, x.obj) ≠ (t, o)
    a.present = b.present ∧ a.portState = b.portState ∧ a.held = b.held ∧ a.taps = b.taps ∧ a.groups = b.groups ∧
    a.profile = s.alm.profile ∧ a.outputs = formOutputs a ∧ (.attn .bay ∈ r.2 ↔ a.outputs ≠ s.alm.outputs) ∧
    (.attn .alm ∈ r.2 ↔ ∃ j : EntryIx, a.entries[j] ≠ s.alm.entries[j]) ∧
    (room → a.overflows = s.alm.overflows ∧ a.overflow = false) ∧
    (∀ (i : EntryIx) x, s.alm.entries[i].alarm = some x →
      let gone (reason : OffReason) : Prop :=
        (∀ (j : EntryIx) y, a.entries[j].alarm = some y → (y.type, y.obj) ≠ (x.type, x.obj)) ∧
        (x.shown = true → writes (.alarmOff i x.type x.obj x.severity reason)) ∧
        (x.shown = false → ∀ any, ¬writes (.alarmOff i x.type x.obj x.severity any))
      let stays (st : AlarmState) : Prop := ∃ y, a.entries[i].alarm = some y ∧
        y = { x with state := st, severity := y.severity, nsa := y.nsa, audible := y.audible } ∧
        (y.severity = x.severity → y.audible = x.audible) ∧
        (y.severity = .min → y.audible = false) ∧
        (x.severity = .min → y.severity = .crit ∨ y.severity = .maj → x.shown = true → y.audible = !x.ack) ∧
        (x.severity = .crit ∨ x.severity = .maj → y.severity = .crit ∨ y.severity = .maj → y.audible = x.audible) ∧
        (y.severity ≠ x.severity ∨ y.nsa ≠ x.nsa → x.shown = true →
          writes (.severity i x.type x.obj x.severity y.severity y.nsa))
      let clear := s.alm.profile[x.type.index].clear
      (a.suppressed x.type x.obj = true → gone .suppressed) ∧
      (a.suppressed x.type x.obj = false → a.isPresent x.type x.obj = true →
        (x.shown = true → stays .active) ∧ (x.shown = false → room → stays x.state)) ∧
      (a.suppressed x.type x.obj = false → a.isPresent x.type x.obj = false →
        (.drop x.type x.obj ∈ batch → gone .dropped) ∧
        (.drop x.type x.obj ∉ batch →
          (x.shown = false → gone .cleared) ∧ (x.state = .active → clear = 0 → gone .cleared) ∧
          (x.state = .active → clear ≠ 0 → stays (.clearing (clear * 4))) ∧
          ∀ n, x.state = .clearing n → stays x.state))) ∧
    (∀ (i : EntryIx) y, a.entries[i].alarm = some y → (y.severity, y.nsa) = gradeOf s a y.type y.obj) ∧
    (∀ t o, room → a.isPresent t o = true → a.suppressed t o = false → (severity t).tabled = true → without t o →
      s.alm.isPresent t o = false ∨ s.alm.suppressed t o = true →
      let raise := s.alm.profile[t.index].raise
      ∃ (i : EntryIx) (y : Alarm), a.entries[i].alarm = some y ∧
        y = { type := t, obj := o, state := if raise = 0 then .active else .pending (raise * 4), severity := y.severity
              ack := false, nsa := y.nsa, audible := decide (raise = 0) && y.severity.rings, raiseTime := s.now
              activeTime := if raise = 0 then some s.now else none } ∧
        (raise = 0 → writes (.alarmOn i t o y.severity y.nsa))) ∧
    (∀ (i : EntryIx) x, a.entries[i].alarm = some x → without x.type x.obj →
      a.isPresent x.type x.obj = true ∧ a.suppressed x.type x.obj = false ∧ (severity x.type).tabled = true ∧
      (s.alm.isPresent x.type x.obj = false ∨ s.alm.suppressed x.type x.obj = true ∨ .offer x.type x.obj ∈ batch) ∧
      (room → (∀ j : EntryIx, j < i → a.entries[j].alarm ≠ none) ∧
        ∀ (j : EntryIx) y, a.entries[j].alarm = some y → without y.type y.obj → x.obj < 64 → y.obj < 64 →
          x.type.index < y.type.index ∨ (x.type = y.type ∧ x.obj < y.obj) → i < j)) ∧
    (∀ t o, severity t = .event → .offer t o ∈ batch → s.alm.isPresent t o = false → a.suppressed t o = false →
      writes (.event t o none)) ∧
    (∀ t o old new, severity t = .event → .event t o old new ∈ batch → writes (.event t o (some (old, new)))) ∧
    (∀ t o d, severity t ≠ .event → ¬writes (.event t o d)) ∧
    (∀ t o, a.suppressed t o = true → ¬writes (.event t o none))) ∧
  ∀ (s : State) (w : AlmWork) (c : CondType × Nat), (∀ j : EntryIx, w.alm.entries[j].alarm ≠ none) →
    let r := takeCandidate s w c
    let rank := (gradeOf s w.alm c.1 c.2).1.rank
    let waits (j : EntryIx) (y : Alarm) : Prop := w.alm.entries[j].alarm = some y ∧ y.shown = false
    let counted := if w.alm.overflows < 65535 then w.alm.overflows + 1 else 65535
    ((∀ j y, waits j y → rank ≤ y.severity.rank) →
      r.alm = { w.alm with overflows := counted, overflow := true } ∧ r.recs = w.recs) ∧
    ∀ i x, waits i x → x.severity.rank < rank → (∀ j y, waits j y → y.raiseTime ≤ s.now) →
      (∀ j y, waits j y → x.severity.rank ≤ y.severity.rank ∧
        (y.severity.rank = x.severity.rank → x.raiseTime < y.raiseTime ∨ (x.raiseTime = y.raiseTime ∧ i ≤ j))) →
      ∃ y, r.alm.entries[i].alarm = some y ∧ (y.type, y.obj) = c ∧ y.raiseTime = s.now ∧
        (y.severity, y.nsa) = gradeOf s w.alm c.1 c.2 ∧ (∀ j, j ≠ i → r.alm.entries[j] = w.alm.entries[j]) ∧
        r.alm.overflows = counted ∧ r.alm.overflow = true ∧
        r.recs = w.recs ++ (if w.alm.profile[c.1.index].raise = 0 then [.alarmOn i c.1 c.2 y.severity y.nsa] else [])

/-- R139, R144: ALAK of an entry acknowledges it and takes it out of the audible set; of a FREE entry, answers detail 1 and
changes nothing; of ALL, does it to every entry; of any other number, is refused with BAD_ARG. ALCO empties the audible set
and answers how many entries were in it; the lamps stay. The generation words of the entries that changed move by two
(DEDUCED, log 10), and the attention of ALM is raised if any did, that of BAY if an output changed (R142); no record is
written. What suppression and grading read, R129, R136: which conditions are suppressed; a port or card type's severity is
MIN, with the NSA mark, while its port or card is covered, and the profile's otherwise, the port roles being those PMON holds
(DESIGN CHOICE, log 62). R128: an applied profile entry, on a table as every event leaves it: the entries of a type no longer
tabled go, with ALARM-OFF PROFILE if shown; those of a type that stays tabled take the new severity as their base and keep
their soaks, a shown one with a SEVERITY record and in or out of the audible set by R143; where the type becomes tabled, every
present condition of it that is not suppressed takes an entry, its soak the one that stood before the load. -/
def Obligations.AlarmCommands : Prop :=
  (∀ (a : Alm),
    (∀ (t : CondType) (p : Port), t.index.val < 9 →
      (a.suppressed t p = true ↔
        a.held[p] = true ∨ a.portState[p] = .equipOut ∨
        ((t = .fail ∨ t = .degrade ∨ t = .untagged ∨ t = .misconn ∨ t = .feLos) ∧ a.isPresent .los p = true) ∨
        (t = .degrade ∧ a.isPresent .fail p = true))) ∧
    (∀ r : RefIx, a.suppressed .refLos r = true ↔
      2 ≤ r.val ∧ ∃ p, a.taps[r] = some p ∧ (a.portState[p] = .dark ∨ a.portState[p] = .equipOut)) ∧
    ∀ (t : CondType) (o : Nat), 9 ≤ t.index.val → t ≠ .refLos → a.suppressed t o = false) ∧
  (∀ (s : State) (a : Alm),
    let covered (p : Port) : Prop := ∃ (gi : GroupIx) (c : GroupCopy), a.groups[gi] = some c ∧
      ((c.prot = p ∧ c.selected = 0) ∨
        ∃ m, c.selected = m + 1 ∧ c.work[m]? = some p ∧ (a.portState[c.prot]).sf = false)
    let member (p : Port) : Prop := ∃ (gi : GroupIx) (c : GroupCopy), a.groups[gi] = some c ∧ (c.prot = p ∨ p ∈ c.work)
    let coveredCard (d : Card) : Prop :=
      (∃ p, cardOf p = d ∧ s.populated p = true ∧ member p) ∧
      ∀ p, cardOf p = d → s.populated p = true → s.pmon.ports[p].role ≠ .spare → covered p
    let own (t : CondType) : Severity × Bool := (a.profile[t.index].severity, false)
    (∀ (t : CondType) (p : Port), t = .los ∨ t = .fail ∨ t = .degrade ∨ t = .monLost →
      (covered p → gradeOf s a t p = (.min, true)) ∧ (¬covered p → gradeOf s a t p = own t)) ∧
    (∀ (t : CondType) (d : Card), t = .cardOut ∨ t = .cardFault →
      (coveredCard d → gradeOf s a t d = (.min, true)) ∧ (¬coveredCard d → gradeOf s a t d = own t)) ∧
    ∀ (t : CondType) (o : Nat), t ∉ [.los, .fail, .degrade, .monLost, .cardOut, .cardFault] → gradeOf s a t o = own t) ∧
  (∀ (s : State) (y : Fin 24) (pf : AlarmProfile), tableOk s.alm = true →
    let r := almProfile s y pf
    let a := r.1
    let old := s.alm.profile[y]
    let writes (x : JBody) : Prop := ∃ recs, .jrn recs ∈ r.2 ∧ x ∈ recs
    let room : Prop := ∃ j : EntryIx, a.entries[j].alarm = none
    (∀ z : Fin 24, a.profile[z] = if z = y then pf else s.alm.profile[z]) ∧ a.present = s.alm.present ∧
    (∀ t o d, ¬writes (.event t o d)) ∧
    (∀ (i : EntryIx) x, s.alm.entries[i].alarm = some x → x.type.index = y →
      (pf.severity.tabled = false → (∀ (j : EntryIx) z, a.entries[j].alarm = some z → z.type.index ≠ y) ∧
        (x.shown = true → writes (.alarmOff i x.type x.obj x.severity .profile))) ∧
      (pf.severity.tabled = true → ∃ z, a.entries[i].alarm = some z ∧
        z = { x with severity := z.severity, nsa := z.nsa, audible := z.audible } ∧
        (z.severity, z.nsa) = gradeOf s a x.type x.obj ∧
        (z.severity = .min → z.audible = false) ∧
        (x.severity = .min → z.severity = .crit ∨ z.severity = .maj → x.shown = true → z.audible = !x.ack) ∧
        (x.severity = .crit ∨ x.severity = .maj → z.severity = .crit ∨ z.severity = .maj → z.audible = x.audible) ∧
        (z.severity ≠ x.severity ∨ z.nsa ≠ x.nsa → x.shown = true →
          writes (.severity i x.type x.obj x.severity z.severity z.nsa)))) ∧
    (∀ t o, t.index = y → room → old.severity.tabled = false → pf.severity.tabled = true → s.alm.isPresent t o = true →
      s.alm.suppressed t o = false →
      ∃ (i : EntryIx) (z : Alarm), a.entries[i].alarm = some z ∧ z.type = t ∧ z.obj = o ∧ z.raiseTime = s.now ∧
        z.state = (if old.raise = 0 then .active else .pending (old.raise * 4)))) ∧
  ∀ (k : SlotIx) (s : State),
    let n := param16 s k 0
    let passed (t : State) : Prop := sameRqu s t ∧ unchangedBut [.attn, .rqu, .mem] s t
    let each (t : State) (f : EntryIx → Alarm → Alarm) : Prop :=
      (∀ i : EntryIx, t.alm.entries[i].alarm = s.alm.entries[i].alarm.map (f i) ∧
        t.alm.entries[i].gen =
          if t.alm.entries[i].alarm = s.alm.entries[i].alarm then s.alm.entries[i].gen else s.alm.entries[i].gen + 2) ∧
      t.alm.present = s.alm.present ∧ t.alm.profile = s.alm.profile ∧ t.alm.overflows = s.alm.overflows ∧
      t.alm.outputs = formOutputs t.alm ∧
      ((∃ i : EntryIx, t.alm.entries[i].alarm ≠ s.alm.entries[i].alarm) →
        t.hpi.attn.getLsbD 2 = (s.hpi.attn.getLsbD 2 || s.hpi.mask.getLsbD 2)) ∧
      ((∀ i : EntryIx, t.alm.entries[i].alarm = s.alm.entries[i].alarm) → t.hpi.attn.getLsbD 2 = s.hpi.attn.getLsbD 2) ∧
      t.hpi.attn.getLsbD 3 =
        (s.hpi.attn.getLsbD 3 || (decide (t.alm.outputs ≠ s.alm.outputs) && s.hpi.mask.getLsbD 3)) ∧
      sameRqu s t ∧ unchangedBut [.alm, .attn, .choices, .rqu, .mem] s t
    (serving s k .alak = true →
      (127 < n → n ≠ 0xFFFF → ∃ t, exec (.alak k) s = .next t ∧ Answered s t k .badArg 0 s.mem ∧ passed t) ∧
      (∀ i : EntryIx, i.val = n → s.alm.entries[i].alarm = none →
        ∃ t, exec (.alak k) s = .next t ∧ Answered s t k .ok 1 s.mem ∧ passed t) ∧
      (∀ i : EntryIx, i.val = n → s.alm.entries[i].alarm ≠ none →
        ∃ t, exec (.alak k) s = .next t ∧ Answered s t k .ok 0 s.mem ∧
          each t fun j x => if j = i then { x with ack := true, audible := false } else x) ∧
      (n = 0xFFFF →
        ∃ t, exec (.alak k) s = .next t ∧ Answered s t k .ok 0 s.mem ∧
          each t fun _ x => { x with ack := true, audible := false })) ∧
    (serving s k .alco = true →
      ∃ t, exec (.alco k) s = .next t ∧
        Answered s t k .ok ((List.finRange 128).countP fun i => s.alm.entries[i].alarm.any (·.audible)) s.mem ∧
        t.alm.outputs.audible = false ∧ each t fun _ x => { x with audible := false })

/-! ### Contact inputs -/

/-- R146, R147, R170: CONTACT_PIN_CHANGE in READY starts the debounce timer afresh when the new level is not the stable
one and stops it when it is; during INIT it moves the pin's level alone. No other input and no other block moves. R53, R144
to R147: DEBOUNCE_EXPIRY makes the pin's level the stable level and stops the timer. The first stable level is no edge. An
edge writes a CONTACT record, whatever the role, and before any record of what the role then does, its frame section byte as
loaded where the role is not FRAME (DESIGN CHOICE, log 55); an active edge of ACO
empties the audible set; an inactive edge of FRAME(f) takes each OPEN
order bound to f into VERIFYING or on to CLOSED-GOOD, with reason FRAME, and leaves every other order; on a GENERIC input
CONTACT is present while the stable level is active. Every other input stays. -/
def Obligations.ContactInputs : Prop :=
  (∀ (i : InputIx) (high : Bool) (s : State), s.ciu[i].pin ≠ high →
     let x := s.ciu[i]
     ∃ t, exec (.contactPinChange i high) s = .next t ∧
       (s.start.ready = true → t.ciu[i] = { x with
         pin := high, timer := if x.stable = some high then none else some (x.debounce * 4) }) ∧
       (s.start.ready = false → t.ciu[i] = { x with pin := high }) ∧
       (∀ j, j ≠ i → t.ciu[j] = s.ciu[j]) ∧ unchangedBut [.ciu] s t) ∧
  ∀ (i : InputIx) (s : State), s.start.ready = true → s.ciu[i].timer ≠ none →
    let x := s.ciu[i]
    let act : Bool := x.pin == x.activeHigh
    let edge : Prop := x.stable ≠ none ∧ x.stable ≠ some x.pin
    let recorded (t : State) : Prop := t.jrn = (jrnRecords s [.contact i act x.role x.frameSection]).1
    ∃ t, exec (.debounceExpiry i) s = .next t ∧ t.ciu[i] = { x with stable := some x.pin, timer := none } ∧
      (∀ j, j ≠ i → t.ciu[j] = s.ciu[j]) ∧
      (¬edge → x.role ≠ .generic → unchangedBut [.ciu] s t) ∧
      (edge → ∃ events, t.jrn = journalAfter s ([.contact i act x.role x.frameSection] :: events)) ∧
      (edge → x.role = .none → recorded t ∧ unchangedBut [.ciu, .jrn, .attn, .choices] s t) ∧
      (edge → x.role = .aco →
        recorded t ∧ unchangedBut [.ciu, .alm, .jrn, .attn, .choices] s t ∧
        (act = true → t.alm.outputs.audible = false ∧
          ∀ j : EntryIx, t.alm.entries[j].alarm = s.alm.entries[j].alarm.map fun y => { y with audible := false }) ∧
        (act = false → t.alm = s.alm)) ∧
      (edge → x.role = .frame → act = true → recorded t ∧ unchangedBut [.ciu, .jrn, .attn, .choices] s t) ∧
      (edge → x.role = .frame → act = false → ∀ (j : OrderIx) (o : Order), s.cbc.orders[j] = some o →
        (o.state = .opened → o.frameSection.map (·.val) = some x.frameSection →
          ∃ o', t.cbc.orders[j] = some o' ∧ o'.number = o.number ∧ o'.reason = some .frame ∧
            (o'.state = .verifying ∨ o'.state = .closedGood)) ∧
        (o.state ≠ .opened ∨ o.frameSection.map (·.val) ≠ some x.frameSection → t.cbc.orders[j] = some o)) ∧
      (x.role = .generic →
        (act = true → x.stable ≠ some x.pin → t.alm.isPresent .contact i = true) ∧
        (act = false → x.stable = some x.activeHigh → s.alm.present.Nodup → t.alm.isPresent .contact i = false) ∧
        unchangedBut [.ciu, .alm, .jrn, .attn, .choices] s t) ∧
      unchangedBut [.pmon, .cbc, .prc, .tsel, .tsp, .alm, .jrn, .ciu, .attn, .gens, .choices] s t

/-! ### The journal -/

/-- R150: writing in the two modes, with the full flag set just while 256 records are unreleased (the invariant `jrnOk`).
WRAP writes every record at the next position, whose record is the oldest of a full ring, and moves neither the unreleased
count nor the full flag nor the lost count. STOP writes while fewer than 256 records are unreleased, adds one to the count,
at 256 sets the full flag and hands JFULL, and keeps every unreleased record; at 256 it drops the record, using no
sequence number, and adds one to the lost count up to 65535. -/
def Obligations.TheJournalWritesByItsMode : Prop :=
  ∀ (now : Nat) (j : Jrn) (b : JBody), jrnOk j = true →
    let x := jrnWrite now j b
    let written : Prop :=
      (∀ p : Fin 256, x.1.ring[p] = if p.val = j.pos then { seq := j.seq, body := some b, time := now } else j.ring[p]) ∧
      x.1.pos = (j.pos + 1) % 256 ∧ x.1.seq = (if j.seq < 65535 then j.seq + 1 else 1) ∧ x.1.newestPos = j.pos ∧
      x.1.newestSeq = j.seq ∧ x.1.stop = j.stop ∧ x.1.lost = j.lost ∧ x.1.badRel = j.badRel ∧ .attn .jrn ∈ x.2
    (j.stop = false → written ∧ x.1.unrel = j.unrel ∧ x.1.full = j.full ∧ .attn .jfull ∉ x.2) ∧
    (j.stop = true → j.unrel < 256 →
      written ∧ x.1.unrel = j.unrel + 1 ∧ x.1.full = decide (j.unrel + 1 = 256) ∧
      (.attn .jfull ∈ x.2 ↔ j.unrel + 1 = 256) ∧ ringBack x.1 0 = { seq := j.seq, body := some b, time := now } ∧
      ∀ k, k < j.unrel → ringBack x.1 (k + 1) = ringBack j k) ∧
    (j.stop = true → (j.unrel = 256 ∨ j.full = true) →
      x = ({ j with lost := if j.lost < 65535 then j.lost + 1 else 65535 }, [])) ∧
    x.1.unrel ≤ 256 ∧ jrnOk x.1 = true

/-- R151, R152: a value handed by the release word. WRAP ignores it. In STOP mode a value that no unreleased record has
adds one to the bad release count; the value of an unreleased record leaves only the newer records unreleased and clears the
full flag; if the flag was set and records were lost, a LOST record with their number is written at once and the lost count
is 0. -/
def Obligations.AReleaseOfRecords : Prop :=
  ∀ (s : State) (v : Nat), jrnOk s.jrn = true →
    let j := s.jrn
    let x := jrnRelease s v
    (j.stop = false → x = (j, [])) ∧
    (j.stop = true → (v = 0 ∨ ∀ k, k < j.unrel → (ringBack j k).seq ≠ v) →
      x.2 = [] ∧ x.1.badRel = (if j.badRel < 65535 then j.badRel + 1 else 65535) ∧ x.1.ring = j.ring ∧
      x.1.unrel = j.unrel ∧ x.1.full = j.full ∧ x.1.lost = j.lost ∧ x.1.pos = j.pos ∧ x.1.seq = j.seq) ∧
    ∀ k, j.stop = true → v ≠ 0 → k < j.unrel → (ringBack j k).seq = v → (∀ i, i < k → (ringBack j i).seq ≠ v) →
      x.1.badRel = j.badRel ∧
      (j.full = false ∨ j.lost = 0 →
        x.2 = [] ∧ x.1.unrel = k ∧ x.1.full = false ∧ x.1.ring = j.ring ∧ x.1.pos = j.pos ∧ x.1.seq = j.seq ∧
        x.1.lost = j.lost) ∧
      (j.full = true → 0 < j.lost →
        (∀ p : Fin 256, x.1.ring[p] =
          if p.val = j.pos then { seq := j.seq, body := some (.lost j.lost), time := s.now } else j.ring[p]) ∧
        x.1.pos = (j.pos + 1) % 256 ∧ x.1.seq = (if j.seq < 65535 then j.seq + 1 else 1) ∧ x.1.unrel = k + 1 ∧
        x.1.full = decide (k + 1 = 256) ∧ x.1.lost = 0 ∧ .attn .jrn ∈ x.2 ∧ (.attn .jfull ∈ x.2 ↔ k + 1 = 256))

/-! ### The host port -/

/-- R155, R156, R169: HOST_BYTE_WRITE. At the host port that the HIF strap does not select it changes nothing, nor does a
later byte without a write run (DESIGN CHOICE, log 57). The address of a strobe is its own; a serial run starts at its start
address and advances by one per byte, from 0x7FFF to 0. During INIT nothing changes but the run's address (DESIGN CHOICE, log
57), the byte not even being held (DESIGN CHOICE, log 34). A byte that is not the other byte of the held byte's word becomes
the held byte. One that is completes the word, even address's byte first: written in the staging area, and in a slot the host
owns when that hands no request over; a foreign write, counted, where the H3 owns the word; without effect in the unassigned
range, a reserved word and at CONTROL a value other than 1; at the release word, written and handed to JRN; at ATTN-CLR,
ATTN-MASK and CONTROL, the command of that name. -/
def Obligations.BytesMakeWords : Prop :=
  ∀ (x : HostAddr) (b : Byte) (s : State),
    (handedAddr s true x = none → exec (.hostByteWrite x b) s = .next s) ∧
    ∀ a, handedAddr s true x = some a →
    let u := pastByte s true x a
    let word := evenOf a
    let base := word.toNat
    (s.start.ready = false → exec (.hostByteWrite x b) s = .next u) ∧
    (s.start.ready = true → (∀ h v, s.hpi.held = some (h, v) → h = a ∨ evenOf h ≠ word) →
      ∃ t, exec (.hostByteWrite x b) s = .next t ∧ t.hpi = { u.hpi with held := some (a, b) } ∧
        unchangedBut [.port] s t) ∧
    ∀ h v, s.start.ready = true → s.hpi.held = some (h, v) → h ≠ a → evenOf h = word → memWf s.mem = true →
      let hi := if a = word then b else v
      let lo := if a = word then v else b
      let kept (t : State) : Prop := { t.hpi with attn := s.hpi.attn } = { u.hpi with held := none }
      let counted (t : State) : Prop := t.hpi = { u.hpi with
        held := none, foreign := if s.hpi.foreign < 65535 then s.hpi.foreign + 1 else 65535 }
      let put (t : State) : Prop := memRead t.mem base = hi ∧ memRead t.mem (base + 1) = lo ∧
        ∀ c, c ≠ base → c ≠ base + 1 → memRead t.mem c = memRead s.mem c
      ∃ t, exec (.hostByteWrite x b) s = .next t ∧
        (0x300 ≤ base → base < 0x1300 → put t ∧ kept t ∧ unchangedBut [.port, .mem] s t) ∧
        (base < 0x100 ∨ (0x1300 ≤ base ∧ base < 0x3A00) ∨ (0x7FF0 ≤ base ∧ base < 0x7FF6) →
          counted t ∧ unchangedBut [.port] s t) ∧
        ((0x3A02 ≤ base ∧ base < 0x7FF0) ∨ 0x7FFC ≤ base → kept t ∧ unchangedBut [.port] s t) ∧
        (base = 0x3A00 → put t ∧ kept t ∧ t.jrn = (jrnRelease s (nat16 hi lo)).1 ∧
          unchangedBut [.port, .mem, .jrn, .attn, .choices] s t) ∧
        (base = 0x7FF6 → exec (.attnClr (wordOf hi lo)) u = .next t) ∧
        (base = 0x7FF8 → exec (.attnMask (wordOf hi lo)) u = .next t) ∧
        (base = 0x7FFA → wordOf hi lo = 1 → exec .warmRestart u = .next t) ∧
        (base = 0x7FFA → wordOf hi lo ≠ 1 → kept t ∧ unchangedBut [.port] s t) ∧
        ∀ k : SlotIx, slotBase k ≤ base → base < slotBase k + 64 →
          (s.rqu.slots[k] = .queued ∨ s.rqu.slots[k] = .busy → counted t ∧ unchangedBut [.port] s t) ∧
          (s.rqu.slots[k] ≠ .queued → s.rqu.slots[k] ≠ .busy →
            (base ≠ slotBase k + 2 ∨ (hi = 0 ∧ lo = 0 ∧ memWord s.mem (slotBase k) = 0) →
              put t ∧ kept t ∧ unchangedBut [.port, .mem] s t))

/-- R160, R161: the write, at the host port that the HIF strap selects (R169), that completes the second code word of a slot
the host owns, the code words then not all zero, is an arrival: the slot is QUEUED while RQU executes another request; if RQU
is idle and no slot waits, it is taken at once and BUSY. Its state byte shows it, and its result code and detail stand again
as RQU last gave them (DEDUCED, log 43); every other slot and every byte but the word's and those four stay. -/
def Obligations.ASecondCodeWordArrives : Prop :=
  ∀ (k : SlotIx) (x : HostAddr) (h : Addr) (b v : Byte) (s : State),
    ∀ a, handedAddr s true x = some a → s.start.ready = true → s.hpi.held = some (h, v) → h ≠ a → evenOf h = evenOf a →
    (evenOf a).toNat = slotBase k + 2 → s.rqu.slots[k] ≠ .queued → s.rqu.slots[k] ≠ .busy →
    (b ≠ 0 ∨ v ≠ 0 ∨ memWord s.mem (slotBase k) ≠ 0) → memWf s.mem = true →
    (s.rqu.exec = none → ∀ j : SlotIx, s.rqu.slots[j] ≠ .queued) →
    let idle := s.rqu.exec.isNone
    ∃ t, exec (.hostByteWrite x b) s = .next t ∧ t.rqu.slots[k] = (if idle then .busy else .queued) ∧
      t.rqu.exec = (if idle then some k else s.rqu.exec) ∧
      slotShows t.mem k (if idle then .busy else .queued) s.rqu.last[k] ∧ t.rqu.last = s.rqu.last ∧
      memRead t.mem (slotBase k + 2) = (if a = evenOf a then b else v) ∧
      memRead t.mem (slotBase k + 3) = (if a = evenOf a then v else b) ∧
      (∀ j, j ≠ k → t.rqu.slots[j] = s.rqu.slots[j]) ∧ sameRqu s t ∧
      (∀ c, c < slotBase k + 2 ∨ slotBase k + 8 ≤ c → memRead t.mem c = memRead s.mem c) ∧
      t.hpi = { (pastByte s true x a).hpi with held := none } ∧ unchangedBut [.port, .rqu, .mem] s t

/-- R155, R158, R169, R170: HOST_BYTE_READ at any time. At the host port that the HIF strap does not select it changes
nothing, nor does a later byte without a read run (DESIGN CHOICE, log 57); a serial run advances as at a write (during INIT
too: DESIGN CHOICE, log 57). The other byte of the snapshot's word comes from the snapshot, which is then spent; a byte of any
other word takes a new snapshot of the word as it stands. The byte that took the snapshot, read again, comes from the snapshot
or from the word as it stands, which the manual leaves open (log 9). Nothing but the run, the snapshot and the byte returned
moves. R154: in READY the words of the request slots, the staging area and the release word are those of the memory. STATE,
ATTN, the mask and the words that read 0 read as R158 gives them; during INIT every word below the registers reads 0. Section
10.5: in READY the words of a port, a group, the timing mirror, a work order, an alarm entry, a journal record and the shelf
header, field by field (DEDUCED, log 26). Absent fields show what the manual gives them and, where it gives nothing, an absent
partner port, holding entry and active time show 0 (DEDUCED, log 35), and so do the low bits of the far request and the far
bridged bits of a 1P1-UNI group, whose far fields stand at 0 (DESIGN CHOICE, log 65); other absent fields are not stated.
Places of the request order list beyond its length show 0, a fixed class above 15 its low four bits and an expected port above
63 its low six (DESIGN CHOICE, log 48). R157: whatever a block is handed, the generation word of each port, group, order and
timing part and of the journal part of the header is left or moves by two, that of an alarm entry by two or, freed and taken
again, by four, and it moves where another word of its part changes, at a release of records too; a sample moves its port's
word always (DEDUCED, log 10). -/
def Obligations.BytesReadTheirWord : Prop :=
  (∀ (x : HostAddr) (s : State),
    (handedAddr s false x = none → exec (.hostByteRead x) s = .next s) ∧
    ∀ a, handedAddr s false x = some a →
    let now := spmWord s (evenOf a).toNat
    let part (w : Word) : Byte := if a = evenOf a then w.extractLsb' 8 8 else w.extractLsb' 0 8
    ∃ t, exec (.hostByteRead x) s = .next t ∧
      t.hpi = { (pastByte s false x a).hpi with snap := t.hpi.snap, dataOut := t.hpi.dataOut } ∧ unchangedBut [.port] s t ∧
      ((∀ h w, s.hpi.snap = some (h, w) → evenOf h ≠ evenOf a) →
        t.hpi.snap = some (a, now) ∧ t.hpi.dataOut = part now) ∧
      ∀ h w, s.hpi.snap = some (h, w) → evenOf h = evenOf a →
        (h ≠ a → t.hpi.snap = none ∧ t.hpi.dataOut = part w) ∧
        (h = a → (t.hpi.snap = some (a, w) ∧ t.hpi.dataOut = part w) ∨
          (t.hpi.snap = some (a, now) ∧ t.hpi.dataOut = part now))) ∧
  (∀ s : State, s.start.ready = true →
    let shows (base : Nat) (ws : List Word) : Prop := ∀ k w, ws[k]? = some w → spmWord s (base + 2 * k) = w
    let byte (a : Nat) : Byte := (spmWord s (a / 2 * 2)).extractLsb' (if a % 2 = 0 then 8 else 0) 8
    let num (n : Nat) : Word := BitVec.ofNat 16 n
    let two (a b : Nat) : Word := BitVec.ofNat 8 a ++ BitVec.ofNat 8 b
    let power (x : Option Int) : Word := match x with | some v => BitVec.ofInt 16 v | none => 0x8000
    let split (x : BitVec 32) : List Word := [x.extractLsb' 16 16, x.extractLsb' 0 16]
    let long (n : Nat) := split (BitVec.ofNat 32 n)
    let value (x : Option Int) := split (match x with | some v => BitVec.ofInt 32 v | none => 0x80000000)
    let bits (l : List Bool) : Nat := (l.zipIdx.map fun x => x.1.toNat * 2 ^ x.2).sum
    let place {n : Nat} (x : Option (Fin n)) : Nat := match x with | some v => v.val | none => 0xFF
    let reason (r : Option Reason) : Nat := match r with | some .frame => 1 | some .expired => 2 | _ => 0
    let orderCode (st : OrderState) (r : Option Reason) : Nat := match st with
      | .opened => 1 | .verifying => 2 + reason r | .closedGood => 5 + reason r | .closedFault => 8 + reason r
      | .cancelled => 11 + reason r
    let objectKind (t : CondType) : Nat := let n := t.index.val
      if n < 9 then 0 else if n < 11 then 1 else if n < 16 then 2 else if n < 18 then 3 else if n < 21 then 4
      else if n < 23 then 5 else 6
    let severity (x : Severity) : Nat := [Severity.crit, .maj, .min, .event, .off].idxOf x + 1
    let timing (x : TimingState) : Nat := [TimingState.freeRun, .acquiring, .locked, .holdover].idxOf x
    let side (x : Side) : Nat := [Side.localEnd, .farEnd, .both].idxOf x
    (∀ a, a % 2 = 0 → (0x100 ≤ a ∧ a < 0x1300) ∨ a = 0x3A00 → spmWord s a = memRead s.mem a ++ memRead s.mem (a + 1)) ∧
    (∀ p : Port,
      let base := 0x1300 + 32 * p.val
      let r := s.pmon.ports[p]
      let c := s.cbc.ports[p]
      let d := s.tcd.decs[p]
      let o := protOut s.prc p
      let field (f : Tag → Nat) : Nat := match d.tag with | some t => f t | none => 0
      let decoder : Nat := match d.st with | .hunt => 0 | .candidate _ => 1 | .locked _ _ => 2
      let taps := bits ([2, 3, 4, 5].map fun (l : RefIx) => decide (s.tsel.refs[l].tap = some p))
      spmWord s base = s.gens.ports[p] ∧
      (s.populated p = true → shows (base + 2) [
        num (bits [true, r.overRange, r.smoothed.isNone, r.cal.isSome, r.los, r.fail, r.degrade, r.overload, r.monLost,
          c.hold.isSome, c.tagWait.isNone, s.prc.frozen[p].isSome, o.select, o.bridge, field (·.feLos.toNat) == 1,
          field (·.test.toNat) == 1]),
        two ([Role.spare, .line, .trib].idxOf r.role * 64 + r.profile.val * 8 +
            [PortState.clear, .degrade, .fail, .dark, .monLost, .equipOut].idxOf r.handed)
          ([CardState.unknown, .inService, .out, .faulty].idxOf s.pmon.cards[cardOf p].accepted * 64 +
            [CabState.unchecked, .noLight, .awaiting, .matched, .mismatch, .untagged, .litUnexpected, .held].idxOf c.state
              * 8 + [ExpKind.any, .tag, .dark].idxOf c.expect.kind),
        BitVec.ofInt 16 r.power, power r.smoothed, power r.baseline, num r.spikes, num r.missed]) ∧
      (s.populated p = false →
        (spmWord s (base + 2)).extractLsb' 0 9 = 0 ∧ shows (base + 6) [0, 0x8000, 0x8000, 0, 0]) ∧
      shows (base + 16) [
        c.expect.shelf, two (decoder * 64 + c.expect.port.toNat % 64) (field (·.signalling.toNat) * 64 + field (·.port.toNat)),
        num (field (·.shelf.toNat)),
        two (field (·.cls.toNat) * 16 + field (·.request.toNat)) (field (·.bridged.toNat) * 8 + field (·.member.toNat)),
        two (match o.partner with | some q => 64 + q.val | none => 0)
          (taps * 16 + (match c.hold with | some i => i.val | none => 0)),
        num d.glitch, num d.change, num d.badSig]) ∧
    (∀ gi : GroupIx,
      let base := 0x1B00 + 32 * gi.val
      spmWord s base = s.gens.groups[gi] ∧
      (s.prc.groups[gi] = none →
        (byte (base + 2)).extractLsb' 0 2 = 0 ∧ shows (base + 4) [0xFFFF, 0xFFFF, 0xFFFF] ∧ spmWord s (base + 24) = 0xFFFF ∧
        spmWord s (base + 26) = 0) ∧
      ∀ g, s.prc.groups[gi] = some g →
        let w (k : Nat) : Nat := place g.work[k]?
        let m (k : Nat) : Nat := match g.order[k]? with | some j => j | none => 0
        let member (x : Option Nat) : Nat := match x with | some j => j | none => 0
        let confirmation : Nat := match g.confirm with | .idle => 0 | .running _ => 1 | .expired => 2
        let summary : Nat :=
          if g.top.ord = 11 then 3 else if g.top.ord = 10 then 4 else if g.win.ord = 3 ∨ g.win.ord = 2 then 2
          else if g.selected ≠ 0 ∨ (g.kind = .oneToN ∧ g.bridged ≠ 0) then 1 else 0
        shows (base + 2) [
          two (confirmation * 64 + bits [g.revertive, g.degSwitch, g.lockout, g.sigLost] * 4 +
            [GroupKind.uni, .bi, .oneToN].idxOf g.kind + 1) g.prot.val,
          two (w 0) (w 1), two (w 2) (w 3), two (w 4) (w 5), num g.holdOff, num g.wtr,
          two (side g.side * 8 + summary) (g.top.mem * 16 + g.top.ord),
          two (g.win.mem * 16 + g.win.ord) (if g.kind = .uni then 0x80 else g.farReq.mem * 16 + g.farReq.ord),
          two (g.bridged * 8 + g.farBridged) (member g.force * 8 + g.selected),
          two (g.order.length * 16 + member g.manual) (m 0 * 16 + m 1), two (m 2 * 16 + m 3) (m 4 * 16 + m 5),
          num (match g.wait with | some (.restore _ (some n)) => (n + 3999) / 4000 | _ => 0xFFFF),
          num (bits [g.svcLoss, g.protUnavail, g.sigFail, g.bridgeMis]), num g.switches]) ∧
    (let t := s.tsel
     let c := s.rqu.shelf
     shows 0x1D00 ([s.gens.timing,
       two (t.warmUp.isSome.toNat * 128 + t.unlimited * 32 + bits [c.quality, t.aged, t.limited] * 4 + timing t.state)
         (place t.selected),
       two (place t.force) (bits ((List.finRange 6).map (fun r : RefIx => t.lockout[r]) ++ [t.holdover, t.freeRun])),
       num c.slew, BitVec.ofInt 16 c.trim, two c.holdLimit (c.freeClass * 16 + c.holdClass)] ++
       value (some t.steering) ++ value t.target ++ value (if t.state = .holdover then t.holdValue else none) ++
       long (if t.state = .holdover then min (t.age / 4000) 259200 else 0) ++
       [two t.outClass t.history.length, two (place t.doNotUse[0]?) (place t.doNotUse[1]?)]) ∧
     (∀ k v, k < 16 → t.history[k]? = some v → shows (0x1D20 + 4 * k) (value (some v))) ∧
     shows 0x1DF0 (List.replicate 8 0)) ∧
    (∀ r : RefIx,
      let x := s.tsel.refs[r]
      let cause : Nat := match x.cause with
        | none => 0 | some .noActivity => 1 | some .noTap => 2 | some .portFail => 3 | some .held => 4 | some .noClass => 5
      shows (0x1D60 + 24 * r.val) ([s.gens.refs[r],
        two ([RefState.disabled, .unavailable, .measuring, .qualified, .offsetOut].idxOf x.state * 32 +
          bits [x.entry.enable, x.entry.fromTag, x.active, x.refLos, x.refOffset]) (x.entry.fixedCls * 16 + x.entry.priority),
        two ((match x.cls with | some c => c | none => 0) * 16 + cause) x.run,
        two ([BindKind.none, .port, .group].idxOf x.entry.bindKind) x.entry.bindNum, two (place x.tap) x.entry.stab,
        num x.entry.accept, num x.entry.hyst] ++ value x.last)) ∧
    (∀ i : OrderIx,
      let base := 0x1E00 + 64 * i.val
      spmWord s base = s.gens.orders[i] ∧
      (s.cbc.orders[i] = none → spmWord s (base + 2) = 0 ∧ (byte (base + 4)).extractLsb' 0 4 = 0) ∧
      ∀ o, s.cbc.orders[i] = some o →
        let left := o.window * 32768 + (match o.timer with | some n => (n + 3999) / 4000 | none => 0x7FFF)
        shows (base + 2) [num o.number,
          two ((match o.frameSection with | some f => f.val | none => 15) * 16 + orderCode o.state o.reason) (left / 65536),
          num left] ∧
        shows (0x40 + 4 * i.val) (long o.openedAt) ∧
        ∀ k, k < 8 →
          let at_ := base + 8 + 7 * k
          (o.items[k]? = none → (byte at_).extractLsb' 6 2 = 3) ∧
          ∀ x, o.items[k]? = some x →
            let code (e : Expectation) := e.port.toNat % 64 * 4 + [ExpKind.any, .tag, .dark].idxOf e.kind
            byte at_ = BitVec.ofNat 8 ([ItemOutcome.pending, .ok, .failed].idxOf x.outcome * 64 + x.port.val) ∧
            byte (at_ + 1) = BitVec.ofNat 8 (code x.expect) ∧ byte (at_ + 2) ++ byte (at_ + 3) = x.expect.shelf ∧
            (x.prev = none → (byte (at_ + 4)).extractLsb' 0 2 = 3) ∧
            ∀ e, x.prev = some e →
              byte (at_ + 4) = BitVec.ofNat 8 (code e) ∧ byte (at_ + 5) ++ byte (at_ + 6) = e.shelf) ∧
    (∀ i : EntryIx,
      let base := 0x2200 + 16 * i.val
      spmWord s base = s.alm.entries[i].gen ∧
      (s.alm.entries[i].alarm = none → shows (base + 2) (List.replicate 7 0)) ∧
      ∀ x, s.alm.entries[i].alarm = some x →
        let st : Nat := match x.state with | .pending _ => 1 | .active => 2 | .clearing _ => 3
        shows (base + 2) ([
          two (x.activeTime.isSome.toNat * 128 + st * 16 + objectKind x.type) x.obj,
          two x.type.index.val (severity x.severity + bits [x.ack, x.nsa, x.audible] * 4)] ++ long x.raiseTime ++
          long (match x.activeTime with | some t => t | none => 0))) ∧
    (∀ n : Fin 256,
      let base := 0x2A00 + 16 * n.val
      let r := s.jrn.ring[n]
      (r.body = none → spmWord s base = 0) ∧
      ∀ b, r.body = some b →
        let carries (kind obj type : Nat) (codes : List Nat) : Prop :=
          shows base [num r.seq, two (kind * 32 + type) obj] ∧ shows (base + 12) (long r.time) ∧
          ∀ k, k < 8 → byte (base + 4 + k) = BitVec.ofNat 8 (match codes[k]? with | some c => c | none => 0)
        let old (x : Option RefIx) : Nat := match x with | some v => v.val | none => 7
        let some8 (x : Option Nat) : Nat := match x with | some v => v | none => 0xFF
        let three (x : Int) : List Nat :=
          let v := (BitVec.ofInt 24 x).toNat
          [v / 65536, v / 256, v]
        match b with
        | .alarmOn e t o sv nsa => carries (objectKind t) o 1 [e, t.index.val, severity sv, nsa.toNat]
        | .alarmOff e t o sv why => carries (objectKind t) o 2 [e, t.index.val, severity sv,
            [OffReason.cleared, .suppressed, .profile, .dropped].idxOf why]
        | .severity e t o a z nsa => carries (objectKind t) o 3 [e, t.index.val, severity a, severity z, nsa.toNat]
        | .event t o none => carries (objectKind t) o 4 [t.index.val]
        | .event t o (some (a, z)) => carries (objectKind t) o 4 [t.index.val, some8 a, some8 z]
        | .switch g a z a' z' w sd => carries 2 g.val 5 [a, z, a', z', w.ord, w.mem, side sd]
        | .timing st a z u h aged => carries 4 0 6 ([timing st * 64 + old z * 8 + old a, aged.toNat] ++ three u ++
            three (match h with | some v => v | none => 0))
        | .work i k st why f => carries 5 i.val 7 [k / 256, k, match st with | some x => orderCode x why | none => 0, f]
        | .contact i act role f => carries 6 i.val 8 [act.toNat, [ContactRole.none, .aco, .frame, .generic].idxOf role, f]
        | .restart c => carries 4 0 9 [[RestartCode.cold, .warm, .mode].idxOf c]
        | .lost k => carries 4 0 10 [k / 256, k]
        | .manualDropped g m w => carries 2 g.val 11 [m, w.ord, w.mem]) ∧
    shows 0 [two 0xA3 Config.revision.toNat, two s.straps.shid.toNat (bits [s.straps.pop64, s.straps.parallel]), 1,
      s.rqu.shelf.identity, num (s.rqu.loaded.toNat * 0x8000), num s.hpi.foreign, num s.alm.overflows,
      num (bits [s.alm.outputs.crit, s.alm.outputs.maj, s.alm.outputs.min, s.alm.outputs.audible, s.alm.overflow]),
      s.jrn.gen, num s.jrn.newestPos, num s.jrn.newestSeq, num s.jrn.unrel, num s.jrn.lost, num s.jrn.badRel,
      num (bits [s.jrn.stop, s.jrn.full]),
      num ((List.finRange 8).map fun i : InputIx =>
        [none, some false, some true].idxOf s.ciu[i].stable * 4 ^ i.val).sum] ∧
    shows 0x20 (List.replicate 16 0) ∧ shows 0x80 (List.replicate 64 0)) ∧
  (∀ (s : State) (m : Msg), s.start.ready = true → (∀ old, m ≠ .tselShelf old) →
    let t := (deliver m s).1
    let guards (before after : Word) (base n : Nat) : Prop := (after = before ∨ after = before + 2) ∧
      ∀ k, 1 ≤ k → k < n → spmWord t (base + 2 * k) ≠ spmWord s (base + 2 * k) → after = before + 2
    (∀ p : Port, guards s.gens.ports[p] t.gens.ports[p] (0x1300 + 32 * p.val) 16 ∧
      ∀ code valid, m = .pmonPower p code valid → t.gens.ports[p] = s.gens.ports[p] + 2) ∧
    (∀ g : GroupIx, guards s.gens.groups[g] t.gens.groups[g] (0x1B00 + 32 * g.val) 16) ∧
    (∀ i : OrderIx, guards s.gens.orders[i] t.gens.orders[i] (0x1E00 + 64 * i.val) 32 ∧
      ((spmWord t (0x40 + 4 * i.val) ≠ spmWord s (0x40 + 4 * i.val) ∨
        spmWord t (0x42 + 4 * i.val) ≠ spmWord s (0x42 + 4 * i.val)) → t.gens.orders[i] = s.gens.orders[i] + 2)) ∧
    guards s.gens.timing t.gens.timing 0x1D00 48 ∧
    (∀ r : RefIx, guards s.gens.refs[r] t.gens.refs[r] (0x1D60 + 24 * r.val) 12) ∧
    guards s.jrn.gen t.jrn.gen 0x10 7 ∧
    ∀ i : EntryIx,
      let base := 0x2200 + 16 * i.val
      (spmWord t base = spmWord s base ∨ spmWord t base = spmWord s base + 2 ∨ spmWord t base = spmWord s base + 4) ∧
      ∀ k, 1 ≤ k → k < 8 → spmWord t (base + 2 * k) ≠ spmWord s (base + 2 * k) → spmWord t base ≠ spmWord s base) ∧
  (∀ (s : State) (v : Nat), s.start.ready = true →
    let t := (putJrn s (jrnRelease s v)).1
    (t.jrn.gen = s.jrn.gen ∨ t.jrn.gen = s.jrn.gen + 2) ∧
    ∀ k, 1 ≤ k → k < 7 → spmWord t (0x10 + 2 * k) ≠ spmWord s (0x10 + 2 * k) → t.jrn.gen = s.jrn.gen + 2) ∧
  ∀ s : State,
    (s.start.ready = false → ∀ a, a < 0x7FF0 → spmWord s a = 0) ∧
    (spmWord s 0x7FF0).extractLsb' 8 8 = 0xA3 ∧ spmWord s 0x7FF2 = (if s.start.ready then 1 else 0) ∧
    spmWord s 0x7FF4 = s.hpi.attn.setWidth 16 ∧ spmWord s 0x7FF8 = s.hpi.mask.setWidth 16 ∧ spmWord s 0x7FF6 = 0 ∧
    spmWord s 0x7FFA = 0 ∧ spmWord s 0x7FFC = 0 ∧ spmWord s 0x7FFE = 0 ∧
    (s.start.ready = true → ∀ n, n < 0x7FF0 - 0x3A02 → n % 2 = 0 → spmWord s (0x3A02 + n) = 0)

/-- R156, R158: the completed writes of registers. ATTN_CLR clears the attention bits it names and no other; ATTN_MASK
sets the mask and leaves ATTN; a write to IDENT, STATE or ATTN is a foreign write, one to a reserved word is without
effect. Each consumes the held byte; during INIT none has an effect. -/
def Obligations.RegisterWrites : Prop :=
  ∀ (w : Word) (s : State),
    (s.start.ready = true →
      (∃ t, exec (.attnClr w) s = .next t ∧
        t.hpi = { s.hpi with held := none, attn := s.hpi.attn &&& ~~~(w.extractLsb' 0 6) } ∧
        unchangedBut [.port, .attn] s t) ∧
      (∃ t, exec (.attnMask w) s = .next t ∧ t.hpi = { s.hpi with held := none, mask := w.extractLsb' 0 6 } ∧
        unchangedBut [.port] s t) ∧
      (∀ a : Addr, a = 0x7FF0 ∨ a = 0x7FF2 ∨ a = 0x7FF4 →
        ∃ t, exec (.registerWriteOther a w) s = .next t ∧ t.hpi = { s.hpi with
          held := none, foreign := if s.hpi.foreign < 65535 then s.hpi.foreign + 1 else 65535 } ∧
          unchangedBut [.port] s t) ∧
      ∀ a : Addr, a = 0x7FFC ∨ a = 0x7FFE →
        ∃ t, exec (.registerWriteOther a w) s = .next t ∧ t.hpi = { s.hpi with held := none } ∧
          unchangedBut [.port] s t) ∧
    (s.start.ready = false →
      exec (.attnClr w) s = .next s ∧ exec (.attnMask w) s = .next s ∧ ∀ a, exec (.registerWriteOther a w) s = .next s)

/-! ### Requests, table loads, calibration jobs -/

/-- R161, R162: a code that is no request code is answered REFUSED with UNKNOWN and detail 0, and nothing else changes.
Model's choice (log 30): a request's command in a slot in which RQU is not executing that request changes nothing. -/
def Obligations.OnlyARequestInExecutionActs : Prop :=
  ∀ (k : SlotIx) (s : State),
    (executing s k none = true → s.rqu.slots[k] = .busy → memWf s.mem = true →
      ∃ t, exec (.unknownCode k) s = .next t ∧ Answered s t k .unknown 0 s.mem ∧ sameRqu s t ∧
        unchangedBut [.attn, .rqu, .mem] s t) ∧
    (executing s k none = false → exec (.unknownCode k) s = .next s) ∧
    ∀ r : Request, executing s k (some r) = false → exec (r.command k) s = .next s

/-- R165: a load (index and count are bytes, DESIGN CHOICE, log 56) whose range does not fit its table and the staging area,
with an even offset and at least one entry, is refused with BAD_ARG and changes nothing else. Otherwise the entries are
applied in order, each over the state the one before it left: to the end, with the number of clamped fields, or up to the
first structural fault, with PARTIAL and the number of entries applied, which stay applied. -/
def Obligations.ALoadAppliesItsEntriesInOrder : Prop :=
  ∀ (k : SlotIx) (s : State) (r : Request) (table : Table) (take : State → Nat → List Byte → Option (State × Nat)),
    (r, table, take) ∈
      [(.ldsh, .shelf, loadShelf), (.ldpf, .profiles, loadProfile), (.ldpt, .ports, loadPort),
       (.ldcr, .cabling, loadCabling), (.ldpg, .groups, loadGroup), (.ldtr, .refs, loadRefEntry),
       (.ldap, .alarms, loadAlarm), (.ldci, .contacts, loadContact)] →
    serving s k r = true →
    let offset := param16 s k 0
    let first := (param8 s k 2).toNat
    let count := (param8 s k 3).toNat
    let fits : Prop :=
      offset % 2 = 0 ∧ count ≠ 0 ∧ first + count ≤ table.entries ∧ offset + count * table.size ≤ 4096
    (¬fits → ∃ t, exec (r.command k) s = .next t ∧ Answered s t k .badArg 0 s.mem ∧ sameRqu s t ∧
      unchangedBut [.attn, .rqu, .mem] s t) ∧
    (fits → ∀ (n : Nat) (st : Nat → State) (clamps : Nat → Nat), n ≤ count → st 0 = s →
      (∀ j, j < n → take (st j) (first + j) (memBytes s.mem (0x300 + offset + j * table.size) table.size) =
        some (st (j + 1), clamps j)) →
      let ends (e : Result) (detail : Nat) : Prop := ∃ t, exec (r.command k) s = .next t ∧
        Answered (st n) t k e detail s.mem ∧ sameRqu (st n) t ∧ unchangedBut [.attn, .rqu, .mem] (st n) t
      (n = count → ends .ok (min ((List.range n).map clamps).sum 65535)) ∧
      (n < count → take (st n) (first + n) (memBytes s.mem (0x300 + offset + n * table.size) table.size) = none →
        ends .partLoad n))

/-- R10, R18, R40, R42, R111, R153, R166, R167: a load of one entry. A structural fault ends it with PARTIAL and detail 0,
nothing else changed; otherwise the entry is applied and the answer is OK with its clamped fields. LDSH puts the record in
use, with its journal mode and its quality mode; a changed warm-up count moves the end of a running warm-up to READY plus the
new length, or ends it at the load (R106), and a holdover limit at or below the age reached sets the aged flag (R120); LDPF
replaces the profile; LDPT sets the port's role, profile and, as its mode says, baseline, ends a calibration that a baseline
field overrides, and forms the port state; LDCR sets the port's expectation, a TAG restarting the tag wait, and a change of it
re-evaluates the port (R44). Every other entry of the table and every block the entry does not reach stay. -/
def Obligations.AnEntryOfTheFirstTables : Prop :=
  ∀ (k : SlotIx) (s : State),
    let i := (param8 s k 2).toNat
    let one (r : Request) (entries size : Nat) : Prop := serving s k r = true ∧ param16 s k 0 % 2 = 0 ∧
      param8 s k 3 = 1 ∧ i < entries ∧ param16 s k 0 + size ≤ 4096
    let e (size : Nat) := memBytes s.mem (0x300 + param16 s k 0) size
    let stops (r : Request) : Prop := ∃ t, exec (r.command k) s = .next t ∧ Answered s t k .partLoad 0 s.mem ∧
      sameRqu s t ∧ unchangedBut [.attn, .rqu, .mem] s t
    (one .ldsh 1 16 →
      (readShelf (e 16) = none → stops .ldsh) ∧
      ∀ x n, readShelf (e 16) = some (x, n) →
        ∃ t, exec (.ldsh k) s = .next t ∧ Answered s t k .ok (min n 65535) s.mem ∧ t.rqu.shelf = x ∧
          t.rqu.loaded = true ∧ t.rqu.jobs = s.rqu.jobs ∧ t.jrn.stop = x.stop ∧
          (x.stop ≠ s.jrn.stop → t.jrn.ring[0].seq = 1 ∧ t.jrn.ring[0].body = some (.restart .mode)) ∧
          t.tsel.selected = t.tsel.choose x.quality ∧ t.tsel.refs = s.tsel.refs ∧
          t.tsel.steering = s.tsel.steering ∧ t.tsel.force = s.tsel.force ∧ t.tsel.lockout = s.tsel.lockout ∧
          t.tsel.warmUp = (if s.tsel.warmUp = none ∨ x.warmUp = s.rqu.shelf.warmUp then s.tsel.warmUp
            else if x.warmUp * 4096 ≤ s.start.periods then none else some (x.warmUp * 4096 - s.start.periods)) ∧
          (s.tsel.state = .holdover → t.tsel.state = .holdover →
            t.tsel.aged = (s.tsel.aged || decide (x.holdLimit * 14400000 ≤ s.tsel.age))) ∧
          (t.tsel.state ≠ .holdover → s.tsel.aged = false → t.tsel.aged = false) ∧
          unchangedBut [.tsel, .tsp, .alm, .jrn, .attn, .gens, .choices, .rqu, .mem] s t) ∧
    (one .ldpf 8 16 →
      ∃ t, exec (.ldpf k) s = .next t ∧ Answered s t k .ok (min (readProfile (e 16)).2 65535) s.mem ∧
        (∀ j : Fin 8, t.pmon.profiles[j] = if j.val = i then (readProfile (e 16)).1 else s.pmon.profiles[j]) ∧
        t.pmon.ports = s.pmon.ports ∧ t.pmon.cards = s.pmon.cards ∧ t.pmon.outcomes = s.pmon.outcomes ∧
        sameRqu s t ∧ unchangedBut [.pmon, .attn, .rqu, .mem] s t) ∧
    (∀ p : Port, p.val = i → one .ldpt 64 6 →
      (readPort s p (e 6) = none → stops .ldpt) ∧
      ∀ x n, readPort s p (e 6) = some (x, n) →
        let old := s.pmon.ports[p]
        ∃ t, exec (.ldpt k) s = .next t ∧ Answered s t k .ok (min n 65535) s.mem ∧
          t.pmon.ports[p].role = x.role ∧ t.pmon.ports[p].profile = x.profile ∧
          t.pmon.ports[p].handed = portStateOf s.pmon.cards[cardOf p].accepted t.pmon.ports[p] ∧
          (∀ b, x.base = .value b → t.pmon.ports[p].baseline = some b ∧ t.pmon.ports[p].track = 0 ∧
            t.pmon.ports[p].failCnt = 0 ∧ t.pmon.ports[p].degCnt = 0) ∧
          (x.base = .absent → t.pmon.ports[p].baseline = none ∧ t.pmon.ports[p].fail = false ∧
            t.pmon.ports[p].degrade = false) ∧
          (x.base = .keep → t.pmon.ports[p].baseline = old.baseline ∧ t.pmon.ports[p].cal = old.cal) ∧
          (x.base ≠ .keep → t.pmon.ports[p].cal = none ∧
            (old.cal ≠ none → t.pmon.outcomes[p] = some .overridden)) ∧
          (∀ q, q ≠ p → t.pmon.ports[q] = s.pmon.ports[q]) ∧ t.pmon.cards = s.pmon.cards ∧
          t.pmon.profiles = s.pmon.profiles ∧ sameRqu s t ∧
          unchangedBut [.pmon, .cbc, .prc, .tsel, .tsp, .alm, .jrn, .attn, .gens, .choices, .rqu, .mem] s t) ∧
    ∀ p : Port, p.val = i → one .ldcr 64 4 →
      (readCabling s p (e 4) = none → stops .ldcr) ∧
      ∀ x, readCabling s p (e 4) = some x →
        ∃ t, exec (.ldcr k) s = .next t ∧ Answered s t k .ok 0 s.mem ∧ t.cbc.ports[p].expect = x ∧
          t.cbc.ports[p].hold = none ∧
          t.cbc.ports[p].tagWait = (if x.kind = .tag then some (s.rqu.shelf.tagWait * 4) else s.cbc.ports[p].tagWait) ∧
          (let old := s.cbc.ports[p].expect
           x.kind ≠ old.kind ∨ (x.kind = .tag ∧ (x.port ≠ old.port ∨ x.shelf ≠ old.shelf)) →
           t.cbc.ports[p].state = cablingState s t.cbc.ports[p] p) ∧
          (∀ q, q ≠ p → t.cbc.ports[q] = s.cbc.ports[q]) ∧ t.cbc.orders = s.cbc.orders ∧ sameRqu s t ∧
          unchangedBut [.cbc, .prc, .tsel, .tsp, .alm, .jrn, .attn, .gens, .choices, .rqu, .mem] s t

/-- R63 to R65, R97: what a protection group entry does. Fresh set-up takes each member's port as it stands: a held one at
once, an applicable state as an appearance; standing commands are none, the far request is read, the frozen marks of its ports
go. Those with a request at once join the list by member number (the model's DESIGN CHOICE, log 44); the selector's first move
is counted. Over frozen outputs that show a member served, the group starts with that member's wait as its one request,
bridged and selected, uncounted. An entry of the same kind, protection port and working list keeps the group's state, new
lengths for timers started later; a change of the revertive flag changes the wait, one of degrade switching starts hold-offs
or ends DEGRADE requests. Teardown withdraws the conditions present and ends the tap. R62, R99, R103, R127, R128, R145: the
loads of the other tables, one entry each. LDPG defines the group as the entry says, or makes it undefined; LDTR sets the
reference's entry, and a reference not enabled is DISABLED; one that becomes enabled is judged, a change of binding forms the
tap afresh and, where it is enabled, has it judged afresh with window, run and last offset gone, a change of source or class
has an enabled one judged again, any other change moves nothing (the class formed so, DEDUCED, log 28); LDAP replaces the
type's profile entry, and a severity that is not tabled frees every entry of the type; LDCI replaces the input's entry, its
levels and timer kept, and CONTACT is then present just where the input is GENERIC and its stable level the active one. -/
def Obligations.AnEntryOfTheOtherTables : Prop :=
  (∀ (s : State) (gi : GroupIx) (d : GroupDef), (d.kind ≠ .oneToN → d.work.length = 1) → 1 ≤ d.work.length →
    d.work.length ≤ 6 → (d.prot :: d.work).Nodup →
    let r := prcLoad s gi (some d)
    let applicable (m : Nat) (st : PortState) : Bool := st.sf || (decide (m ≠ 0) && d.degSwitch && decide (st = .degrade))
    let defined (h : Group) : Prop := h.kind = d.kind ∧ h.prot = d.prot ∧ h.work = d.work ∧ h.revertive = d.revertive ∧
      h.degSwitch = d.degSwitch ∧ h.holdOff = d.holdOff ∧ h.wtr = d.wtr
    let served (p : Port) : Prop := ∃ o, s.prc.frozen[p] = some o ∧ o.partner = some d.prot ∧
      (if d.kind = .oneToN then o.bridge else o.select) = true
    let keeps (g : Group) : Prop := d.kind = g.kind ∧ d.prot = g.prot ∧ d.work = g.work
    ((∀ g, s.prc.groups[gi] = some g → ¬keeps g) →
      ∃ h, r.1.groups[gi] = some h ∧ defined h ∧ groupSettled h = true ∧ h.lockout = false ∧ h.force = none ∧
        h.manual = none ∧ (h.readFar s).farReq = h.farReq ∧ (h.readFar s).farBridged = h.farBridged ∧
        (h.readFar s).sigLost = h.sigLost ∧
        (∀ j, j ≠ gi → r.1.groups[j] = s.prc.groups[j]) ∧
        (∀ p : Port, r.1.frozen[p] = if p ∈ d.prot :: d.work then none else s.prc.frozen[p]) ∧
        (∀ m p, (d.prot :: d.work)[m]? = some p →
          let st := s.pmon.ports[p].handed
          (s.cbc.ports[p].hold ≠ none → h.mon m = { timer := none, raised := none, held := true }) ∧
          (s.cbc.ports[p].hold = none → h.mon m = {
            held := false
            timer := if applicable m st = true ∧ d.holdOff ≠ 0 then some (d.holdOff * 4) else none
            raised := if applicable m st = true ∧ d.holdOff = 0 then some (if st.sf then .fail else .degrade) else none })) ∧
        ((∀ p ∈ d.work, ¬served p) →
          h.wait = none ∧ h.switches = (if h.selected = 0 then 0 else 1) ∧
          h.order = ((List.range d.work.length).map (· + 1)).filter fun m => (h.mon m).held || (h.mon m).raised.isSome) ∧
        ∀ m p o, d.work[m]? = some p → s.prc.frozen[p] = some o → served p → (∀ q ∈ d.work.take m, ¬served q) →
          (∀ k q, (d.prot :: d.work)[k]? = some q →
            s.cbc.ports[q].hold = none ∧ applicable k s.pmon.ports[q].handed = false) →
          (d.kind ≠ .uni → s.tcd.decs[d.prot].tag = none) →
          h.wait = some (if d.revertive then .restore (m + 1) (some (d.wtr * 4000)) else .stay (m + 1)) ∧
          h.order = [m + 1] ∧ h.top = ⟨if d.revertive then ordRestoreWait else ordStay, m + 1⟩ ∧ h.win = h.top ∧
          h.bridged = m + 1 ∧ h.selected = m + 1 ∧
          h.switches = (if d.kind = .oneToN ∧ o.select = false then 1 else 0)) ∧
    ∀ g, s.prc.groups[gi] = some g → keeps g → groupOk g = true → groupSettled g = true →
      ∃ h, r.1.groups[gi] = some h ∧ defined h ∧ h.lockout = g.lockout ∧ h.force = g.force ∧ h.farReq = g.farReq ∧
        h.mon 0 = g.mon 0 ∧ (∀ j, j ≠ gi → r.1.groups[j] = s.prc.groups[j]) ∧ r.1.frozen = s.prc.frozen ∧
        (d.revertive = g.revertive → d.degSwitch = g.degSwitch →
          h.mons = g.mons ∧ h.wait = g.wait ∧ h.order = g.order ∧ h.manual = g.manual ∧ h.top = g.top ∧ h.win = g.win ∧
          h.bridged = g.bridged ∧ h.selected = g.selected ∧ h.switches = g.switches) ∧
        (d.revertive ≠ g.revertive → d.degSwitch = g.degSwitch → h.mons = g.mons ∧
          (∀ m n, d.revertive = false → g.wait = some (.restore m n) → h.wait = some (.stay m)) ∧
          ∀ m, d.revertive = true → g.wait = some (.stay m) →
            h.wait = some (.restore m (if (g.mon m).timer = none then some (d.wtr * 4000) else none))) ∧
        (d.degSwitch ≠ g.degSwitch → ∀ m p, g.work[m]? = some p →
          let x := g.mon (m + 1)
          (d.degSwitch = true → h.mon (m + 1) =
            if s.pmon.ports[p].handed = .degrade ∧ x.held = false ∧ x.timer = none ∧ x.raised = none then
              (if d.holdOff = 0 then { x with raised := some .degrade } else { x with timer := some (d.holdOff * 4) })
            else x) ∧
          (d.degSwitch = false → h.mon (m + 1) = if x.raised = some .degrade then { x with raised := none } else x))) ∧
  (∀ (s : State) (gi : GroupIx),
    (s.prc.groups[gi] = none → prcLoad s gi none = (s.prc, [])) ∧
    ∀ g, s.prc.groups[gi] = some g →
      let r := prcLoad s gi none
      r.1.groups[gi] = none ∧ (∀ j, j ≠ gi → r.1.groups[j] = s.prc.groups[j]) ∧ r.1.frozen = s.prc.frozen ∧
      .tselGroups [(gi, none)] ∈ r.2 ∧ (∀ bs, .jrn bs ∉ r.2) ∧
      ∃ batch, .alm batch ∈ r.2 ∧ .group gi none ∈ batch ∧ (.withdraw .svcLoss gi ∈ batch ↔ g.svcLoss = true) ∧
        (.withdraw .protUnavail gi ∈ batch ↔ g.protUnavail = true) ∧ (.withdraw .sigFail gi ∈ batch ↔ g.sigFail = true) ∧
        (.withdraw .bridgeMismatch gi ∈ batch ↔ g.bridgeMis = true) ∧ ∀ t o a b, .event t o a b ∉ batch) ∧
  (∀ (s : State) (r : RefIx) (e : RefEntry) (x : RefRec),
    let y := loadRef s r e x
    let moved : Prop := x.entry.bindKind ≠ e.bindKind ∨ (e.bindKind ≠ .none ∧ x.entry.bindNum ≠ e.bindNum)
    let classed : Prop := x.entry.fromTag ≠ e.fromTag ∨ x.entry.fixedCls ≠ e.fixedCls
    let fresh := { x with
      entry := e, state := .disabled, tap := tapOf s.prc e, window := none, run := 0, last := none, refOffset := false }
    y.entry = e ∧
    (x.entry.enable = true → e.enable = false →
      y = { x with
        entry := e, state := .disabled, cause := none, window := none, run := 0, last := none, refLos := false
        refOffset := false, tap := y.tap, cls := y.cls } ∧
      (moved → y.tap = tapOf s.prc e) ∧ (¬moved → y.tap = x.tap) ∧ (moved ∨ classed → y.cls = effClass s y) ∧
      (¬moved → ¬classed → y.cls = x.cls)) ∧
    (x.entry.enable = false → e.enable = false →
      (moved → y = { x with entry := e, tap := tapOf s.prc e, window := none, cls := effClass s y }) ∧
      (¬moved → classed → y = { x with entry := e, cls := effClass s y }) ∧
      (¬moved → ¬classed → y = { x with entry := e })) ∧
    (e.enable = true →
      (moved → y = judgeRef s r fresh ∧ (y.state = .measuring ∨ y.state = .unavailable) ∧ y.last = none ∧ y.run = 0 ∧
        y.window = none ∧ y.refOffset = false ∧ y.tap = tapOf s.prc e) ∧
      (¬moved → x.entry.enable = false ∨ classed → y = judgeRef s r { x with entry := e }) ∧
      (¬moved → x.entry.enable = true → ¬classed → y = { x with entry := e }))) ∧
  ∀ (k : SlotIx) (s : State),
    let i := (param8 s k 2).toNat
    let one (r : Request) (entries size : Nat) : Prop := serving s k r = true ∧ param16 s k 0 % 2 = 0 ∧
      param8 s k 3 = 1 ∧ i < entries ∧ param16 s k 0 + size ≤ 4096
    let e (size : Nat) := memBytes s.mem (0x300 + param16 s k 0) size
    let stops (r : Request) : Prop := ∃ t, exec (r.command k) s = .next t ∧ Answered s t k .partLoad 0 s.mem ∧
      sameRqu s t ∧ unchangedBut [.attn, .rqu, .mem] s t
    (∀ gi : GroupIx, gi.val = i → one .ldpg 16 14 →
      (readGroup s gi (e 14) = none → stops .ldpg) ∧
      ∀ x n, readGroup s gi (e 14) = some (x, n) →
        ∃ t, exec (.ldpg k) s = .next t ∧ Answered s t k .ok (min n 65535) s.mem ∧ t.prc = (prcLoad s gi x).1 ∧
          (x = none → t.prc.groups[gi] = none) ∧
          (∀ d, x = some d → ∃ g, t.prc.groups[gi] = some g ∧ g.kind = d.kind ∧ g.prot = d.prot ∧ g.work = d.work ∧
            g.revertive = d.revertive ∧ g.degSwitch = d.degSwitch ∧ g.holdOff = d.holdOff ∧ g.wtr = d.wtr) ∧
          (∀ j, j ≠ gi → t.prc.groups[j] = s.prc.groups[j]) ∧ sameRqu s t ∧
          unchangedBut [.prc, .tsel, .tsp, .alm, .jrn, .attn, .gens, .choices, .rqu, .mem] s t) ∧
    (∀ r : RefIx, r.val = i → one .ldtr 6 12 →
      (readRef s r (e 12) = none → stops .ldtr) ∧
      ∀ x n, readRef s r (e 12) = some (x, n) →
        ∃ t, exec (.ldtr k) s = .next t ∧ Answered s t k .ok (min n 65535) s.mem ∧ t.tsel.refs[r].entry = x ∧
          t.tsel.refs[r] = loadRef s r x s.tsel.refs[r] ∧ t.tsel.selected = t.tsel.choose s.rqu.shelf.quality ∧
          (x.enable = false → refOk s.tsel.refs[r] = true →
            t.tsel.refs[r].state = .disabled ∧ t.tsel.selected ≠ some r) ∧
          (∀ j, j ≠ r → t.tsel.refs[j] = s.tsel.refs[j]) ∧ t.tsel.steering = s.tsel.steering ∧
          t.tsel.force = s.tsel.force ∧ t.tsel.lockout = s.tsel.lockout ∧ sameRqu s t ∧
          unchangedBut [.tsel, .tsp, .alm, .jrn, .attn, .gens, .choices, .rqu, .mem] s t) ∧
    (∀ y : Fin 24, y.val = i → one .ldap 24 6 →
      (readAlarm y (e 6) = none → stops .ldap) ∧
      ∀ x n, readAlarm y (e 6) = some (x, n) →
        ∃ t, exec (.ldap k) s = .next t ∧ Answered s t k .ok (min n 65535) s.mem ∧
          (∀ z : Fin 24, t.alm.profile[z] = if z = y then x else s.alm.profile[z]) ∧ t.alm.present = s.alm.present ∧
          (x.severity = .event ∨ x.severity = .off → ∀ (j : EntryIx) (z : Alarm), t.alm.entries[j].alarm = some z →
            z.type.index ≠ y) ∧
          sameRqu s t ∧ unchangedBut [.alm, .jrn, .attn, .choices, .rqu, .mem] s t) ∧
    ∀ n : InputIx, n.val = i → one .ldci 8 4 →
      (readContact (e 4) = none → stops .ldci) ∧
      ∀ x m, readContact (e 4) = some (x, m) →
        ∃ t, exec (.ldci k) s = .next t ∧ Answered s t k .ok (min m 65535) s.mem ∧
          t.ciu[n] = { s.ciu[n] with role := x.role, frameSection := x.frameSection, activeHigh := x.activeHigh
                                     debounce := x.debounce } ∧
          (∀ j, j ≠ n → t.ciu[j] = s.ciu[j]) ∧
          (presentOk s.alm.present = true →
            (t.alm.isPresent .contact n = true ↔ x.role = .generic ∧ s.ciu[n].stable = some x.activeHigh) ∧
            ∀ y o, (y, o) ≠ (.contact, n.val) → t.alm.isPresent y o = s.alm.isPresent y o) ∧
          sameRqu s t ∧
          unchangedBut [.ciu, .alm, .jrn, .attn, .choices, .rqu, .mem] s t

/-- R168: RDTB (table, index and count are bytes, DESIGN CHOICE, log 56) copies the entries named into the staging area, in
the load format, one after the other from its offset, and answers OK with their number; a table number above 7 or a range that
does not fit is refused with BAD_ARG. Every other byte stays, and nothing else changes. Section 11.1: the format, field by
field, of each table's entry as it is read back, with the particulars of R168 (an ABSENT baseline's bytes are 0, DEDUCED, log
35). R18, R62, R99, R127, R145, R165 to R167: the same fields as a load takes them from any bytes, each tuning field at the
nearer bound of its range, soaks and hold-off at the multiple of 100 below, one clamp counted for each field so changed, kind
NONE included; and which bytes it takes. The bytes an in-range entry is read back as are read, by a load, as that entry, with
no field clamped, but for the WTR 0 of an undefined group; a group or binding that the state lets stand among them. R18, R40,
R62, R99, R127, R145, R166, R167: whatever the bytes, an entry that a load takes is within its ranges, and free of structural
faults. Fields that mean nothing are read as written, a frame section is judged whatever the role, and which fields are signed
follows from their ranges (DEDUCED, logs 11, 13 and 14). -/
def Obligations.ATableIsReadBack : Prop :=
  (∀ s : State,
    let b (t : Table) (i k : Nat) : Nat := fieldByte (entryBytes s t i) k
    let w (t : Table) (i k : Nat) : Nat := fieldWord (entryBytes s t i) k
    let z (t : Table) (i k : Nat) : Int := fieldInt (entryBytes s t i) k
    (∀ t i, (entryBytes s t i).length = t.size) ∧
    (let c := s.rqu.shelf
     shelfOk c = true →
      w .shelf 0 0 = c.identity.toNat ∧ b .shelf 0 2 = c.stop.toNat ∧ b .shelf 0 3 = c.quality.toNat ∧
      w .shelf 0 4 = c.tagWait ∧ b .shelf 0 6 = c.verify ∧ b .shelf 0 7 = c.warmUp ∧ w .shelf 0 8 = c.slew ∧
      z .shelf 0 10 = c.trim ∧ b .shelf 0 12 = c.holdLimit ∧ b .shelf 0 13 = c.holdClass ∧ b .shelf 0 14 = c.freeClass ∧
      b .shelf 0 15 = 0) ∧
    (∀ i : Fin 8, let f := s.pmon.profiles[i]
      profileOk f = true →
      b .profiles i 0 = f.alpha ∧ b .profiles i 1 = f.beta ∧ b .profiles i 2 = f.k ∧ z .profiles i 3 = f.limit ∧
      z .profiles i 5 = f.losThr ∧ b .profiles i 7 = f.losN ∧ z .profiles i 8 = f.degThr ∧ z .profiles i 10 = f.failThr ∧
      z .profiles i 12 = f.hyst ∧ b .profiles i 14 = f.defN ∧ b .profiles i 15 = 0) ∧
    (∀ p : Port, let x := s.pmon.ports[p]
      (s.populated p = false → entryBytes s .ports p = [0, 0, 1, 0, 0, 0]) ∧
      (s.populated p = true →
        b .ports p 0 = [Role.spare, .line, .trib].idxOf x.role ∧ b .ports p 1 = x.profile ∧ b .ports p 3 = 0 ∧
        (∀ v, x.baseline = some v → inPower v = true → b .ports p 2 = 0 ∧ z .ports p 4 = v) ∧
        (x.baseline = none → b .ports p 2 = 1 ∧ w .ports p 4 = 0))) ∧
    (∀ p : Port, let x := s.cbc.ports[p].expect
      b .cabling p 0 = [ExpKind.any, .tag, .dark].idxOf x.kind ∧ b .cabling p 1 = x.port.toNat ∧
      w .cabling p 2 = x.shelf.toNat) ∧
    (∀ gi : GroupIx,
      (s.prc.groups[gi] = none →
        entryBytes s .groups gi = [0, 0, 0, 0xFF, 0xFF, 0xFF, 0xFF, 0xFF, 0xFF, 0, 0, 0, 0, 0]) ∧
      ∀ g, s.prc.groups[gi] = some g → g.n ≤ 6 → timesOk g.holdOff g.wtr = true →
        b .groups gi 0 = [GroupKind.uni, .bi, .oneToN].idxOf g.kind + 1 ∧ b .groups gi 1 = g.prot ∧
        b .groups gi 2 = g.work.length ∧
        (∀ k, k < 6 → b .groups gi (3 + k) = match g.work[k]? with | some p => p.val | none => 0xFF) ∧
        b .groups gi 9 = g.revertive.toNat + 2 * g.degSwitch.toNat ∧ w .groups gi 10 = g.holdOff ∧
        w .groups gi 12 = g.wtr) ∧
    (∀ r : RefIx, let x := s.tsel.refs[r].entry
      refEntryOk r x = true →
      b .refs r 0 = x.enable.toNat ∧ b .refs r 1 = x.priority ∧ b .refs r 2 = x.fromTag.toNat ∧ b .refs r 3 = x.fixedCls ∧
      w .refs r 4 = x.accept ∧ w .refs r 6 = x.hyst ∧ b .refs r 8 = x.stab ∧
      b .refs r 9 = [BindKind.none, .port, .group].idxOf x.bindKind ∧ b .refs r 10 = x.bindNum ∧ b .refs r 11 = 0) ∧
    (∀ y : Fin 24, let f := s.alm.profile[y]
      alarmProfileOk y f = true →
      b .alarms y 0 = [Severity.crit, .maj, .min, .event, .off].idxOf f.severity + 1 ∧ b .alarms y 1 = 0 ∧
      w .alarms y 2 = f.raise ∧ w .alarms y 4 = f.clear) ∧
    ∀ n : InputIx, let c := s.ciu[n]
      contactOk c.frameSection c.debounce = true →
      b .contacts n 0 = [ContactRole.none, .aco, .frame, .generic].idxOf c.role ∧ b .contacts n 1 = c.frameSection ∧
      b .contacts n 2 = c.activeHigh.toNat ∧ b .contacts n 3 = c.debounce) ∧
  (∀ e : List Byte,
    let b := fieldByte e
    let w := fieldWord e
    let z := fieldInt e
    (1 < b 2 ∨ 1 < b 3 → readShelf e = none) ∧
    (b 2 ≤ 1 → b 3 ≤ 1 → ∃ c n, readShelf e = some (c, n) ∧ c.identity.toNat = w 0 ∧ c.stop = decide (b 2 = 1) ∧
      c.quality = decide (b 3 = 1) ∧ c.tagWait = nearest 100 5000 (w 4) ∧ c.verify = nearest 1 60 (b 6) ∧
      c.warmUp = nearest 1 64 (b 7) ∧ c.slew = nearest 1 5000 (w 8) ∧ c.trim = nearest (-5000) 5000 (z 10) ∧
      c.holdLimit = nearest 1 72 (b 12) ∧ c.holdClass = nearest 1 6 (b 13) ∧ c.freeClass = nearest 1 6 (b 14) ∧
      n = clamped [(w 4, c.tagWait), (b 6, c.verify), (b 7, c.warmUp), (w 8, c.slew), (z 10, c.trim), (b 12, c.holdLimit),
        (b 13, c.holdClass), (b 14, c.freeClass)]) ∧
    (let f := (readProfile e).1
     f.alpha = nearest 1 16 (b 0) ∧ f.beta = nearest 0 15 (b 1) ∧ f.k = nearest 4 12 (b 2) ∧
     f.limit = (if z 3 ≤ 0 then 0 else nearest 50 3000 (z 3)) ∧ f.losThr = nearest (-5000) 0 (z 5) ∧
     f.losN = nearest 1 8 (b 7) ∧ f.degThr = nearest 50 2000 (z 8) ∧
     f.failThr = max (nearest 100 3000 (z 10)) (f.degThr + 50) ∧ f.hyst = nearest 10 (min 500 (f.degThr - 10)) (z 12) ∧
     f.defN = nearest 1 255 (b 14) ∧
     (readProfile e).2 = clamped [(b 0, f.alpha), (b 1, f.beta), (b 2, f.k), (z 3, f.limit), (z 5, f.losThr), (b 7, f.losN),
       (z 8, f.degThr), (z 10, f.failThr), (z 12, f.hyst), (b 14, f.defN)]) ∧
    (∀ y : Fin 24,
      (∀ sv, [Severity.crit, .maj, .min, .event, .off][b 0 - 1]? = some sv → b 0 ≠ 0 →
        (sv = .event ∨ sv = .off ∨ (y ≠ CondType.switch.index ∧ y ≠ CondType.refSwitch.index)) →
        let raise := min (w 2) 10000 / 100 * 100
        let clear := min (w 4) 30000 / 100 * 100
        readAlarm y e = some ({ severity := sv, raise := raise, clear := clear }, clamped [(w 2, raise), (w 4, clear)])) ∧
      ∀ f n, readAlarm y e = some (f, n) → b 0 = [Severity.crit, .maj, .min, .event, .off].idxOf f.severity + 1) ∧
    (∀ role, [ContactRole.none, .aco, .frame, .generic][b 0]? = some role → b 1 ≤ 7 → b 2 ≤ 1 →
      ∃ d : Nat, d = nearest 1 255 (b 3) ∧
      readContact e = some ({ role := role, frameSection := b 1, activeHigh := decide (b 2 = 1), debounce := d },
        clamped [(b 3, d)])) ∧
    (∀ c n, readContact e = some (c, n) → b 0 ≤ 3 ∧ b 2 ≤ 1)) ∧
  (∀ c, shelfOk c = true → readShelf (shelfBytes c) = some (c, 0)) ∧
  (∀ e c n, readShelf e = some (c, n) → shelfOk c = true) ∧
  (∀ f, profileOk f = true → readProfile (profileBytes f) = (f, 0)) ∧ (∀ e, profileOk (readProfile e).1 = true) ∧
  (∀ y f, alarmProfileOk y f = true → readAlarm y (alarmProfileBytes f) = some (f, 0)) ∧
  (∀ y e f n, readAlarm y e = some (f, n) → alarmProfileOk y f = true) ∧
  (∀ c : ContactIn, contactOk c.frameSection c.debounce = true → readContact (contactBytes c) =
    some ({ role := c.role, frameSection := c.frameSection, activeHigh := c.activeHigh, debounce := c.debounce }, 0)) ∧
  (∀ e c n, readContact e = some (c, n) → contactOk c.frameSection c.debounce = true) ∧
  (∀ s : State,
    let member (p : Port) (g : Group) : Prop := p = g.prot ∨ p ∈ g.work
    let bound (kind : BindKind) (n : Nat) : Prop :=
      ∃ r : RefIx, s.tsel.refs[r].entry.bindKind = kind ∧ s.tsel.refs[r].entry.bindNum = n
    (∀ p : Port, s.populated p = true → s.pmon.ports[p].baseline.all inPower = true →
      readPort s p (portBytes s p) = some ({ role := s.pmon.ports[p].role, profile := s.pmon.ports[p].profile
                                             base := match s.pmon.ports[p].baseline with
                                               | some b => .value b
                                               | none => .absent }, 0)) ∧
    (∀ (p : Port) e x n, readPort s p e = some (x, n) → s.populated p = true ∧ (∀ b, x.base = .value b → inPower b = true) ∧
      (x.role ≠ s.pmon.ports[p].role →
        ¬bound .port p ∧ ∀ (gi : GroupIx) g, s.prc.groups[gi] = some g → ¬member p g)) ∧
    (∀ (p : Port) (e : List Byte) role base,
      let b := fieldByte e
      let v := nearest (-5000) 1000 (fieldInt e 4)
      (∀ h : b 1 < 8, s.populated p = true → b 0 = [Role.spare, .line, .trib].idxOf role →
        (role ≠ s.pmon.ports[p].role →
          ¬bound .port p ∧ ∀ (gi : GroupIx) g, s.prc.groups[gi] = some g → ¬member p g) →
        (b 2 = 0 ∧ base = .value v) ∨ (b 2 = 1 ∧ base = .absent) ∨ (b 2 = 2 ∧ base = .keep) →
        readPort s p e = some ({ role := role, profile := ⟨b 1, h⟩, base := base },
          if b 2 = 0 then clamped [(fieldInt e 4, v)] else 0)) ∧
      ∀ x n, readPort s p e = some (x, n) → b 0 = [Role.spare, .line, .trib].idxOf x.role ∧ b 1 = x.profile ∧
        ((b 2 = 0 ∧ x.base = .value v) ∨ (b 2 = 1 ∧ x.base = .absent) ∨ (b 2 = 2 ∧ x.base = .keep))) ∧
    (∀ (p : Port) (e : List Byte) (x : Expectation),
      fieldByte e 0 = [ExpKind.any, .tag, .dark].idxOf x.kind → fieldByte e 1 = x.port.toNat →
      fieldWord e 2 = x.shelf.toNat → s.cbc.ports[p].hold = none → (x.kind = .tag → x.port.toNat ≤ 63) →
      readCabling s p e = some x) ∧
    (∀ (p : Port) (e : List Byte) x, readCabling s p e = some x →
      fieldByte e 0 = [ExpKind.any, .tag, .dark].idxOf x.kind ∧ fieldByte e 1 = x.port.toNat ∧
      fieldWord e 2 = x.shelf.toNat) ∧
    (∀ (p : Port) (x : Expectation), s.cbc.ports[p].hold = none → (x.kind = .tag → x.port.toNat ≤ 63) →
      readCabling s p (cablingBytes x) = some x) ∧
    (∀ (p : Port) e x, readCabling s p e = some x → s.cbc.ports[p].hold = none ∧ (x.kind = .tag → x.port.toNat ≤ 63)) ∧
    (∀ gi : GroupIx,
      let stands (kind : GroupKind) (prot : Port) (work : List Port) : Prop :=
        (kind ≠ .oneToN → work.length = 1) ∧ 1 ≤ work.length ∧ work.length ≤ 6 ∧ (prot :: work).Nodup ∧
        (∀ p ∈ prot :: work, s.populated p = true ∧ s.pmon.ports[p].role = .line ∧
          (∀ (j : GroupIx) g, j ≠ gi → s.prc.groups[j] = some g → ¬member p g) ∧ (kind = .oneToN → ¬bound .port p)) ∧
        (kind = .oneToN → ¬bound .group gi)
      readGroup s gi (groupBytes none) = some (none, 1) ∧
      (∀ g : Group, stands g.kind g.prot g.work → timesOk g.holdOff g.wtr = true →
        readGroup s gi (groupBytes (some g)) =
          some (some { kind := g.kind, prot := g.prot, work := g.work, revertive := g.revertive
                       degSwitch := g.degSwitch, holdOff := g.holdOff, wtr := g.wtr }, 0)) ∧
      (∀ e d n, readGroup s gi e = some (some d, n) → stands d.kind d.prot d.work ∧ timesOk d.holdOff d.wtr = true) ∧
      ∀ (e : List Byte),
        let b := fieldByte e
        let w := fieldWord e
        let holdOff := min (w 10) 10000 / 100 * 100
        let wtr := nearest 30 1800 (w 12)
        let clamps := clamped [(w 10, holdOff), (w 12, wtr)]
        let holds (kind : GroupKind) (prot : Port) (work : List Port) : Prop :=
          b 0 = [GroupKind.uni, .bi, .oneToN].idxOf kind + 1 ∧ b 1 = prot ∧ b 2 = work.length ∧
          ∀ k p, work[k]? = some p → b (3 + k) = p.val
        (b 0 = 0 → readGroup s gi e = some (none, clamps)) ∧ (∀ n, readGroup s gi e = some (none, n) → b 0 = 0) ∧
        (∀ kind prot work, holds kind prot work → stands kind prot work →
          ∃ d, readGroup s gi e = some (some d, clamps) ∧ d = {
            kind := kind, prot := prot, work := work, revertive := decide (b 9 % 2 = 1)
            degSwitch := decide (b 9 / 2 % 2 = 1), holdOff := holdOff, wtr := d.wtr } ∧ d.wtr = wtr) ∧
        ∀ d n, readGroup s gi e = some (some d, n) → holds d.kind d.prot d.work) ∧
    ∀ r : RefIx,
      let stands (x : RefEntry) : Prop := refEntryOk r x = true ∧
        (x.bindKind = .port → ∃ p : Port, x.bindNum = p.val ∧ s.populated p = true ∧ s.pmon.ports[p].role = .line ∧
          ∀ (gi : GroupIx) g, s.prc.groups[gi] = some g → g.kind = .oneToN → ¬member p g) ∧
        (x.bindKind = .group → ∃ (gi : GroupIx) (g : Group), x.bindNum = gi.val ∧ s.prc.groups[gi] = some g ∧
          g.kind ≠ .oneToN)
      (∀ x, stands x → readRef s r (refBytes x) = some (x, 0)) ∧
      (∀ e x n, readRef s r e = some (x, n) → stands x) ∧
      ∀ (e : List Byte),
        let b := fieldByte e
        let w := fieldWord e
        let holds (x : RefEntry) : Prop := b 0 = x.enable.toNat ∧ b 1 = x.priority ∧ b 2 = x.fromTag.toNat ∧
          b 3 = x.fixedCls ∧ x.accept = nearest 1000 50000 (w 4) ∧
          x.hyst = nearest 0 (min 5000 (x.accept - 500)) (w 6) ∧ x.stab = nearest 1 16 (b 8) ∧
          b 9 = [BindKind.none, .port, .group].idxOf x.bindKind ∧ b 10 = x.bindNum
        let clamps (x : RefEntry) : Nat := clamped [(w 4, x.accept), (w 6, x.hyst), (b 8, x.stab)]
        (∀ x, holds x → stands x → readRef s r e = some (x, clamps x)) ∧
        ∀ x n, readRef s r e = some (x, n) → holds x) ∧
  ∀ (k : SlotIx) (s : State), serving s k .rdtb = true →
    let offset := param16 s k 0
    let first := (param8 s k 2).toNat
    let count := (param8 s k 3).toNat
    let number := (param8 s k 4).toNat
    let fits (table : Table) : Prop :=
      offset % 2 = 0 ∧ count ≠ 0 ∧ first + count ≤ table.entries ∧ offset + count * table.size ≤ 4096
    let refused : Prop := ∃ t, exec (.rdtb k) s = .next t ∧ Answered s t k .badArg 0 s.mem ∧ sameRqu s t ∧
      unchangedBut [.attn, .rqu, .mem] s t
    (7 < number → refused) ∧
    ∀ table, tableOf number = some table →
      (¬fits table → refused) ∧
      (fits table → ∃ t base, exec (.rdtb k) s = .next t ∧ Answered s t k .ok count base ∧ memWf base = true ∧
        (∀ i n, i < count → n < table.size →
          memRead base (0x300 + offset + i * table.size + n) = (entryBytes s table (first + i)).getD n 0) ∧
        (∀ a, a < 0x300 + offset ∨ 0x300 + offset + count * table.size ≤ a → memRead base a = memRead s.mem a) ∧
        sameRqu s t ∧ unchangedBut [.attn, .rqu, .mem] s t)

/-- R13, R163: CALB, with its refusals in order: an empty set or an offset whose table passes the staging area,
BAD_ARG; the lowest unpopulated port, NO_OBJECT; two running jobs, FULL; the lowest port of a running job or under work hold,
CONFLICT. An accepted CALB starts its job: its slot stays BUSY and RQU goes on; a listed port that is DARK, MON-LOST or
EQUIP-OUT has its outcome at once, every other starts collecting from zero; every port not listed stays. The slot that RQU
then takes is BUSY and shows the result code and the detail it was last given (DEDUCED, log 43). -/
def Obligations.ACalibrationJobStarts : Prop :=
  ∀ (k : SlotIx) (s : State), serving s k .calb = true →
    let set := portSet s k
    let offset := param16 s k 8
    let taken (p : Port) : Prop := s.cbc.ports[p].hold ≠ none ∨ ∃ j ∈ s.rqu.jobs, p ∈ j.ports
    let refused (e : Result) (detail : Nat) : Prop := ∃ t, exec (.calb k) s = .next t ∧
      Answered s t k e detail s.mem ∧ sameRqu s t ∧ unchangedBut [.attn, .rqu, .mem] s t
    (set = [] ∨ 4096 < offset + 64 → refused .badArg 0) ∧
    (set ≠ [] → offset + 64 ≤ 4096 →
      (∀ p ∈ set, s.populated p = false → (∀ q ∈ set, q < p → s.populated q = true) → refused .noObject p) ∧
      ((∀ p ∈ set, s.populated p = true) →
        (2 ≤ s.rqu.jobs.length → refused .full 0) ∧
        (s.rqu.jobs.length < 2 →
          (∀ p ∈ set, taken p → (∀ q ∈ set, q < p → ¬taken q) → refused .conflict p) ∧
          ((∀ p ∈ set, ¬taken p) →
            ∃ t, exec (.calb k) s = .next t ∧
              t.rqu.jobs = s.rqu.jobs ++ [{ slot := k, ports := set, offset := offset }] ∧ t.rqu.slots[k] = .busy ∧
              t.rqu.exec = lowestQueued s ∧ t.rqu.shelf = s.rqu.shelf ∧ t.rqu.loaded = s.rqu.loaded ∧
              (∀ j, j ≠ k → t.rqu.slots[j] = if lowestQueued s = some j then .busy else s.rqu.slots[j]) ∧
              t.rqu.last = s.rqu.last ∧ (∀ j, lowestQueued s = some j → slotShows t.mem j .busy s.rqu.last[j]) ∧
              (∀ a, (∀ j, lowestQueued s = some j → a < slotBase j + 4 ∨ slotBase j + 8 ≤ a) →
                memRead t.mem a = memRead s.mem a) ∧
              (∀ p ∈ set,
                let r := s.pmon.ports[p]
                (r.handed = .dark → t.pmon.ports[p] = r ∧ t.pmon.outcomes[p] = some .failedLos) ∧
                (r.handed = .monLost → t.pmon.ports[p] = r ∧ t.pmon.outcomes[p] = some .failedMonlost) ∧
                (r.handed = .equipOut → t.pmon.ports[p] = r ∧ t.pmon.outcomes[p] = some .failedEquip) ∧
                (r.handed = .clear ∨ r.handed = .degrade ∨ r.handed = .fail →
                  t.pmon.ports[p] = { r with cal := some { slot := k, count := 0, sum := 0 } } ∧
                  t.pmon.outcomes[p] = none)) ∧
              (∀ p, p ∉ set → t.pmon.ports[p] = s.pmon.ports[p] ∧ t.pmon.outcomes[p] = s.pmon.outcomes[p]) ∧
              t.pmon.cards = s.pmon.cards ∧ t.pmon.profiles = s.pmon.profiles ∧
              unchangedBut [.pmon, .gens, .rqu, .mem] s t))))

/-- R14, R163: CALB_JOB_DONE of a job whose ports all have outcomes writes the outcome table at the job's offset, one byte
a port, and answers its slot DONE with the number of ports calibrated; the job is over. The request RQU is executing, every
other slot and job, every port's record and every other byte stay. -/
def Obligations.ACalibrationJobEnds : Prop :=
  ∀ (k : SlotIx) (s : State) (j : Job), s.start.ready = true → memWf s.mem = true → jobIn s k = some j →
    j.offset + 64 ≤ 4096 → (∀ p ∈ j.ports, s.pmon.outcomes[p] ≠ none) →
    let n := (j.ports.filter fun p => decide (s.pmon.outcomes[p] = some .calibrated)).length
    ∃ t, exec (.calbJobDone k) s = .next t ∧
      (∀ p : Port, ∀ o, s.pmon.outcomes[p] = some o →
        memRead t.mem (0x300 + j.offset + p.val) = if p ∈ j.ports then byte8 o.code else 0) ∧
      (∀ p : Port, p ∉ j.ports → memRead t.mem (0x300 + j.offset + p.val) = 0) ∧
      (∀ i, i < 4 → memRead t.mem (slotBase k + i) = 0) ∧ memRead t.mem (slotBase k + 4) = 3 ∧
      memRead t.mem (slotBase k + 5) = 0 ∧ memRead t.mem (slotBase k + 6) = byte8 (n / 256) ∧
      memRead t.mem (slotBase k + 7) = byte8 n ∧
      t.rqu.last = s.rqu.last.set k { result := 0, detail := BitVec.ofNat 16 n } ∧
      (∀ a, a < slotBase k ∨ slotBase k + 8 ≤ a → a < 0x300 + j.offset ∨ 0x300 + j.offset + 64 ≤ a →
        memRead t.mem a = memRead s.mem a) ∧
      t.rqu.slots[k] = .done ∧ (∀ i, i ≠ k → t.rqu.slots[i] = s.rqu.slots[i]) ∧ t.rqu.exec = s.rqu.exec ∧
      t.rqu.jobs = s.rqu.jobs.filter (fun x => x.slot != k) ∧ t.rqu.shelf = s.rqu.shelf ∧
      t.rqu.loaded = s.rqu.loaded ∧ t.hpi.attn.getLsbD 0 = (s.hpi.attn.getLsbD 0 || s.hpi.mask.getLsbD 0) ∧
      t.pmon.ports = s.pmon.ports ∧ t.pmon.cards = s.pmon.cards ∧ t.pmon.profiles = s.pmon.profiles ∧
      unchangedBut [.pmon, .attn, .rqu, .mem] s t

/-- R164: ABRT of a slot (the byte at +0, DESIGN CHOICE, log 56) above 7 is refused with BAD_ARG; of a QUEUED slot, answers
that slot REFUSED with ABORTED; of a slot with a running job, ends the calibration of every port without an outcome as
ABORTED, writes the outcome table, answers that slot REFUSED with ABORTED and the number of ports calibrated, and removes the
job; of any other slot, is refused with WRONG_STATE. The ABRT is itself answered, and every other slot, job and byte stay. -/
def Obligations.ARequestIsAborted : Prop :=
  ∀ (k : SlotIx) (s : State), serving s k .abrt = true →
    let number := (param8 s k 0).toNat
    let refused (e : Result) : Prop := ∃ t, exec (.abrt k) s = .next t ∧ Answered s t k e 0 s.mem ∧ sameRqu s t ∧
      unchangedBut [.attn, .rqu, .mem] s t
    let ended (t : State) (m : SlotIx) (base : List Host.Cell) (n : Nat) : Prop :=
      exec (.abrt k) s = .next t ∧
      Answered { s with rqu := { s.rqu with
        slots := s.rqu.slots.set m .refused
        last := s.rqu.last.set m { result := 8, detail := BitVec.ofNat 16 n } } } t k .ok 0 base ∧
      memWf base = true ∧ (∀ i, i < 4 → memRead base (slotBase m + i) = 0) ∧ memRead base (slotBase m + 4) = 4 ∧
      memRead base (slotBase m + 5) = 8 ∧ memRead base (slotBase m + 6) = byte8 (n / 256) ∧
      memRead base (slotBase m + 7) = byte8 n
    (7 < number → refused .badArg) ∧
    ∀ m : SlotIx, m.val = number →
      (s.rqu.slots[m] = .queued →
        ∃ t base, ended t m base 0 ∧
          (∀ a, a < slotBase m ∨ slotBase m + 8 ≤ a → memRead base a = memRead s.mem a) ∧ sameRqu s t ∧
          unchangedBut [.attn, .rqu, .mem] s t) ∧
      (∀ j, s.rqu.slots[m] = .busy → m ≠ k → jobIn s m = some j → j.offset + 64 ≤ 4096 →
        (∀ p ∈ j.ports, s.pmon.outcomes[p] = none → s.pmon.ports[p].cal ≠ none) →
        ∃ t base, ended t m base (j.ports.filter fun p => decide (s.pmon.outcomes[p] = some .calibrated)).length ∧
          (∀ p : Port, memRead base (0x300 + j.offset + p.val) =
            if p ∈ j.ports then byte8 (match s.pmon.outcomes[p] with | some o => o.code | none => 7) else 0) ∧
          (∀ a, a < slotBase m ∨ slotBase m + 8 ≤ a → a < 0x300 + j.offset ∨ 0x300 + j.offset + 64 ≤ a →
            memRead base a = memRead s.mem a) ∧
          (∀ p, t.pmon.ports[p] = if p ∈ j.ports ∧ s.pmon.outcomes[p] = none then
            { s.pmon.ports[p] with cal := none } else s.pmon.ports[p]) ∧
          t.rqu.jobs = s.rqu.jobs.filter (fun x => x.slot != m) ∧ t.rqu.shelf = s.rqu.shelf ∧
          t.rqu.loaded = s.rqu.loaded ∧ t.pmon.cards = s.pmon.cards ∧ t.pmon.profiles = s.pmon.profiles ∧
          unchangedBut [.pmon, .gens, .attn, .rqu, .mem] s t) ∧
      (s.rqu.slots[m] ≠ .queued → (s.rqu.slots[m] ≠ .busy ∨ jobIn s m = none) → refused .wrongState)

/-! ### Resets -/

/-- R23, R39, R60, R80, R110, R124, R141, R153, R158, R160, R169, R170: COLD_RESET, at any moment, samples the straps as
the pins stand and starts every block afresh: the memory is zero, the ports, cards, decoders, records, groups, references,
alarm table, journal, slots and registers hold the values the manual gives. Where the manual gives none, the parts of the
state are those of the reset state (DESIGN CHOICE, log 25), and the serial port has no run of bytes in progress (DESIGN
CHOICE, log 57). Only the contact pins, the free choices taken and the commands that wait stay (DEDUCED, log 37). No other
command changes the sampled straps. -/
def Obligations.AColdReset : Prop :=
  (∀ (c : Instr) (s t : State), (∀ a b d, c ≠ .coldReset a b d) → exec c s = .next t → t.straps = s.straps) ∧
  ∀ a b d s, ∃ t, exec (.coldReset a b d) s = .next t ∧ t.straps = { pop64 := a, shid := b, parallel := d } ∧
    unchangedBut [.straps, .ciu, .rqu, .choices, .pending] State.reset t ∧ (∀ i : InputIx, t.ciu[i] = .reset s.ciu[i].pin) ∧
    t.rqu = .reset b ∧ t.pending = s.pending ∧ t.choices = s.choices ∧ t.start.ready = false ∧ t.start.cold = true ∧
    (∀ p : Port, t.pmon.ports[p].role = .spare ∧ t.pmon.ports[p].power = -5000 ∧ t.pmon.ports[p].smoothed = none ∧
      t.pmon.ports[p].baseline = none ∧ t.pmon.ports[p].handed = .clear ∧ t.tcd.decs[p].st = .hunt ∧
      t.cbc.ports[p].expect.kind = .any ∧ t.cbc.ports[p].hold = none ∧ t.prc.frozen[p] = none) ∧
    (∀ x : Card, t.pmon.cards[x].accepted = .unknown) ∧ (∀ i : OrderIx, t.cbc.orders[i] = none) ∧
    (∀ gi : GroupIx, t.prc.groups[gi] = none) ∧ (∀ r : RefIx, t.tsel.refs[r].state = .disabled) ∧
    t.tsel.state = .freeRun ∧ t.tsel.steering = 0 ∧ t.alm.present = [] ∧
    (∀ i : EntryIx, t.alm.entries[i].alarm = none ∧ t.alm.entries[i].gen = 0) ∧ t.jrn.stop = false ∧ t.jrn.pos = 0 ∧
    t.jrn.seq = 1 ∧ (∀ i : Fin 256, t.jrn.ring[i].seq = 0) ∧ (∀ i : SlotIx, t.rqu.slots[i] = .free) ∧
    t.hpi.attn = 0 ∧ t.hpi.mask = 0x20 ∧ t.hpi.foreign = 0 ∧ t.hpi.held = none ∧ t.hpi.snap = none ∧ t.hpi.run = none ∧
    ∀ x, memRead t.mem x = 0

/-- R42, R106, R118, R147, R153, R158, R159, R170: ENTER_READY. The H3 is in READY at time 0; every tag wait starts with
the shelf record's length and every debounce timer with its input's; the steering timer starts, and the warm-up after a cold
reset alone; the RESTART record, COLD or WARM, is the first record, and the only one if no timing condition appears; RST is
raised. The output class, the do-not-use ports and the two timing conditions are formed as at every
event (R121, R122, TheSelectedReference); where the H3 enters READY in HOLDOVER and HOLDOVER was not offered, it becomes
present. All other state stays, TSEL's too, the generation words too, since the
timers that start here belong to the reset content (DEDUCED, log 39). -/
def Obligations.TheH3EntersReady : Prop :=
  ∀ s : State, s.start.ready = false →
    let r := { s with start := { s.start with ready := true, periods := 0 } }
    ∃ t, exec .enterReady s = .next t ∧ t.start = r.start ∧
      (∀ p : Port, t.cbc.ports[p] = { s.cbc.ports[p] with tagWait := some (s.rqu.shelf.tagWait * 4) }) ∧
      t.cbc.orders = s.cbc.orders ∧
      (∀ i : InputIx, t.ciu[i] = { s.ciu[i] with timer := some (s.ciu[i].debounce * 4) }) ∧
      t.tcd = { s.tcd with pos := 0 } ∧
      t.tsel = { s.tsel with
        steer := some 4096, warmUp := if s.start.cold then some (s.rqu.shelf.warmUp * 4096) else none
        outClass := s.tsel.quality s.rqu.shelf, doNotUse := s.tsel.avoid s.prc
        holdover := decide (s.tsel.state = .holdover), freeRun := s.tsel.runsFree } ∧
      t.hpi.attn.getLsbD 5 = (s.hpi.attn.getLsbD 5 || s.hpi.mask.getLsbD 5) ∧
      (s.tsel.holdover = decide (s.tsel.state = .holdover) → s.tsel.freeRun = s.tsel.runsFree →
        t.alm = s.alm ∧ t.jrn = (jrnRecords r [.restart (if s.start.cold then .cold else .warm)]).1) ∧
      (s.tsel.holdover = false → s.tsel.state = .holdover → t.alm.isPresent .holdover 0 = true ∧
        ∃ more, t.jrn = { (jrnRecords r (.restart (if s.start.cold then .cold else .warm) :: more)).1 with gen := t.jrn.gen }) ∧
      unchangedBut [.start, .tcd, .cbc, .tsel, .alm, .jrn, .ciu, .attn, .choices] s t

/-- R171: WARM_RESTART in READY, and nothing during INIT. The straps, the staging area, the release word, the steering value
and the contact pins stay; every other block starts as after a cold reset, but: the frozen outputs are those each port was
being sent; the timing state is FREE-RUN if it was, otherwise HOLDOVER on the steering value, with its age if it was HOLDOVER;
QUEUED and BUSY slots are REFUSED with ABORTED, their code words zero, and every other slot stays. That the release word is
kept, and that the frozen outputs are those of the last line control frame, is DEDUCED (log 24); so is that the age is kept
with its fraction of a second (log 40). MBP, TCD and HPI hold the values of the reset state, which the manual does not state
for the last samples, the latched frames and the byte returned (DESIGN CHOICE, log 25), but for the run of the serial port,
which is kept (DESIGN CHOICE, log 57). The last target, the limited flag, the unlimited run and the do-not-use ports are
TSEL's reset ones, the output class that of the state with the default classes. LCP goes on to send during INIT: tag bit 0, no
taps, the frozen outputs. -/
def Obligations.AWarmRestart : Prop :=
  ∀ s : State,
    (s.start.ready = false → exec .warmRestart s = .next s) ∧
    (s.start.ready = true → memWf s.mem = true → ∃ t, exec .warmRestart s = .next t ∧
      t.start.ready = false ∧ t.start.cold = false ∧ t.start.initPeriods = 0 ∧ t.start.periods = 0 ∧
      t.mbp = .reset ∧ t.pmon = .reset ∧ t.tcd = .reset ∧ t.cbc = .reset ∧ t.alm = .reset ∧ t.jrn = .reset ∧
      t.hpi = { Hpi.reset with run := s.hpi.run } ∧ t.gens = .reset ∧ t.rqu.exec = none ∧ t.rqu.jobs = [] ∧ t.rqu.loaded = false ∧
      t.rqu.shelf = .default s.straps.shid ∧
      (∀ i : InputIx, t.ciu[i] = .reset s.ciu[i].pin) ∧ (∀ gi : GroupIx, t.prc.groups[gi] = none) ∧
      (∀ p : Port, t.prc.frozen[p] = some (match s.prc.frozen[p] with
        | some o => o
        | none => { partner := s.lcp[p].partner, bridge := s.lcp[p].bridge, select := s.lcp[p].select })) ∧
      (∀ p : Port, ∀ o, t.prc.frozen[p] = some o →
        t.lcp[p] = { tagBit := false, partner := o.partner, bridge := o.bridge, select := o.select, taps := 0 }) ∧
      t.tsel.steering = s.tsel.steering ∧ t.tsel.selected = none ∧ t.tsel.force = none ∧ t.tsel.history = [] ∧
      t.tsel.warmUp = none ∧ t.tsel.target = none ∧ t.tsel.limited = false ∧ t.tsel.unlimited = 0 ∧
      t.tsel.doNotUse = [] ∧ t.tsel.steer = none ∧ t.tsel.holdover = false ∧ t.tsel.freeRun = false ∧
      t.tsel.outClass = (if t.tsel.state = .holdover ∧ t.tsel.aged = false then 4 else 6) ∧
      (∀ r : RefIx, t.tsel.refs[r] = .reset ∧ t.tsel.lockout[r] = false) ∧
      (s.tsel.state = .freeRun → t.tsel.state = .freeRun ∧ t.tsel.holdValue = none) ∧
      (s.tsel.state ≠ .freeRun → t.tsel.state = .holdover ∧ t.tsel.holdValue = some s.tsel.steering) ∧
      (s.tsel.state = .holdover → t.tsel.age = s.tsel.age ∧ t.tsel.aged = s.tsel.aged) ∧
      (s.tsel.state ≠ .holdover → t.tsel.age = 0 ∧ t.tsel.aged = false) ∧
      (∀ k : SlotIx,
        (s.rqu.slots[k] = .queued ∨ s.rqu.slots[k] = .busy →
          t.rqu.slots[k] = .refused ∧ (∀ i, i < 4 → memRead t.mem (slotBase k + i) = 0) ∧
          memRead t.mem (slotBase k + 4) = 4 ∧ memRead t.mem (slotBase k + 5) = 8 ∧
          memRead t.mem (slotBase k + 6) = 0 ∧ memRead t.mem (slotBase k + 7) = 0 ∧
          t.rqu.last[k] = { result := 8, detail := 0 }) ∧
        (s.rqu.slots[k] ≠ .queued → s.rqu.slots[k] ≠ .busy →
          t.rqu.slots[k] = s.rqu.slots[k] ∧ t.rqu.last[k] = s.rqu.last[k])) ∧
      (∀ a, (∀ k : SlotIx, s.rqu.slots[k] = .queued ∨ s.rqu.slots[k] = .busy → a < slotBase k ∨ slotBase k + 8 ≤ a) →
        memRead t.mem a = memRead s.mem a) ∧
      unchangedBut [.start, .mbp, .pmon, .tcd, .cbc, .prc, .tsel, .alm, .jrn, .ciu, .lcp, .rqu, .port, .attn, .gens,
        .mem] s t)

/-! ### What every step keeps -/

/-- R3, R9, R13, R18, R20: P, S and B lie within −5000..+1000 cdBm, every profile within its ranges, every running sum
within its count of powers, and every port shows the port state its record and its card give. -/
def Obligations.PowersAndPortStatesStayRight : Prop :=
  ∀ s t : State, pmonOk s.pmon = true → portsFormed s.pmon = true → step s = .next t →
    pmonOk t.pmon = true ∧ portsFormed t.pmon = true

/-- R46, R47: a port's work hold names an order in OPEN or VERIFYING that lists it, such an order holds each of its
ports, and no two orders have one number. -/
def Obligations.HoldsStayWithTheirOrders : Prop :=
  ∀ s t : State, cbcOk s.cbc = true → step s = .next t → cbcOk t.cbc = true

/-- R78, R83 to R90: every group's top local and winning request are formed, no manual stands under a far winning request
above it, bridge and selector stand where the winning request puts them, and the switch fields are those to send. -/
def Obligations.GroupsStaySettled : Prop :=
  ∀ s t : State, prcSettled s.prc = true → step s = .next t → prcSettled t.prc = true

/-- R103, R112, R116 to R119: U, the holdover value and the history lie in the trim converter's range, the history has at
most 16 values, the selected reference is eligible, a reference that is not enabled is DISABLED, and the steering port has
U. -/
def Obligations.TimingStaysInRange : Prop :=
  ∀ s t : State, tselOk s.tsel = true → tspOk s = true → step s = .next t → tselOk t.tsel = true ∧ tspOk t = true

/-- R127, R129 to R131, R134, R142, R143: no two alarm entries share object and type; an entry's type is tabled, its
condition is not suppressed, and it is CLEARING just when the condition is absent; what rings is shown, CRIT or MAJ and not
acknowledged; the bay outputs follow the table. -/
def Obligations.TheAlarmTableStaysTrue : Prop :=
  ∀ s t : State, tableOk s.alm = true → step s = .next t → tableOk t.alm = true

/-- R148, R150: the journal's position, sequence number and counts stay in range, the full flag stands in STOP mode just
while 256 records are unreleased, and nothing is unreleased in WRAP mode. -/
def Obligations.TheJournalStaysCounted : Prop :=
  ∀ s t : State, jrnOk s.jrn = true → step s = .next t → jrnOk t.jrn = true

/-- R154, R156: the memory keeps its one canonical form, and the foreign-write count stops at 65535. -/
def Obligations.TheMemoryKeepsItsForm : Prop :=
  ∀ s t : State, hostOk s = true → step s = .next t → hostOk t = true

/-- The state after reset meets every invariant. -/
def Obligations.ResetMeetsEveryInvariant : Prop :=
  let s := State.reset
  pmonOk s.pmon = true ∧ portsFormed s.pmon = true ∧ cbcOk s.cbc = true ∧ prcSettled s.prc = true ∧
  tselOk s.tsel = true ∧ tspOk s = true ∧ tableOk s.alm = true ∧ jrnOk s.jrn = true ∧ hostOk s = true
end

