-- ==== Sys2Proof/Laws/Memory.lean ====
section
/-! SUPPORT. What the memory operations do: a byte written reads back, every other byte stays, and the canonical
form is kept. -/

namespace Sys2Proof.Laws

open Sys2Proof.Machine

/-- The canonical form of a list whose first entry is known. -/
theorem memWf_cons (a : Nat) (v : Byte) (m : List Host.Cell) :
    memWf ((a, v) :: m) = true ↔ v ≠ 0 ∧ (∀ c ∈ m.head?, a < c.1) ∧ memWf m = true := by
  cases m with
  | nil => simp [memWf]
  | cons c m => simp [memWf, and_assoc]

/-- A write at an address leaves the first address of a list, or is it. -/
theorem memWrite_head (m : List Host.Cell) (a : Nat) (v : Byte) :
    ∀ c ∈ (memWrite m a v).head?, c.1 = a ∨ ∃ d ∈ m, c.1 = d.1 := by
  intro c hc
  cases m with
  | nil =>
    simp only [memWrite] at hc
    split at hc <;> simp at hc
    exact .inl (by rw [← hc])
  | cons d m =>
    simp only [memWrite] at hc
    split at hc
    · split at hc
      · exact .inr ⟨d, by simp, by simp at hc; rw [← hc]⟩
      · exact .inl (by simp at hc; rw [← hc])
    · split at hc
      · split at hc
        · refine .inr ⟨c, ?_, rfl⟩
          exact List.mem_cons_of_mem _ (List.mem_of_mem_head? hc)
        · exact .inl (by simp at hc; rw [← hc])
      · exact .inr ⟨d, by simp, by simp at hc; rw [← hc]⟩

/-- In canonical form every later address is above the first. -/
theorem memWf_lt {a : Nat} {v : Byte} {m : List Host.Cell} (h : memWf ((a, v) :: m) = true) :
    ∀ c ∈ m, a < c.1 := by
  induction m generalizing a v with
  | nil => simp
  | cons d m ih =>
    obtain ⟨-, h1, h2⟩ := (memWf_cons a v (d :: m)).1 h
    have hd : a < d.1 := h1 d (by simp)
    intro c hc
    rcases List.mem_cons.1 hc with rfl | hc
    · exact hd
    · exact Nat.lt_trans hd (ih (a := d.1) (v := d.2) h2 c hc)

/-- A write keeps the canonical form. -/
theorem memWrite_wf (m : List Host.Cell) (a : Nat) (v : Byte) (h : memWf m = true) :
    memWf (memWrite m a v) = true := by
  induction m with
  | nil => simp only [memWrite]; split <;> simp_all [memWf]
  | cons d m ih =>
    obtain ⟨b, w⟩ := d
    obtain ⟨h0, h1, h2⟩ := (memWf_cons b w m).1 h
    simp only [memWrite]
    split
    · split
      · exact h
      · rename_i hlt hv
        exact (memWf_cons a v _).2 ⟨hv, by simpa using hlt, h⟩
    · split
      · split
        · exact h2
        · rename_i _ hab hv
          subst hab
          exact (memWf_cons a v m).2 ⟨hv, h1, h2⟩
      · refine (memWf_cons b w _).2 ⟨h0, ?_, ih h2⟩
        intro c hc
        rcases memWrite_head m a v c hc with hca | ⟨d, hd, hcd⟩
        · omega
        · rw [hcd]; exact memWf_lt h d hd

/-- An address below every listed one reads 0. -/
theorem memRead_of_lt (m : List Host.Cell) (a : Nat) (h : ∀ c ∈ m, a < c.1) : memRead m a = 0 := by
  induction m with
  | nil => rfl
  | cons c m ih =>
    have hc := h c (by simp)
    simp only [memRead]
    rw [if_neg (by omega)]
    exact ih fun d hd => h d (by simp [hd])

/-- A byte read after a write at its own address, in canonical form. -/
theorem memRead_write_same (m : List Host.Cell) (a : Nat) (v : Byte) (h : memWf m = true) :
    memRead (memWrite m a v) a = v := by
  induction m with
  | nil => simp only [memWrite]; split <;> simp_all [memRead]
  | cons d m ih =>
    obtain ⟨b, w⟩ := d
    obtain ⟨-, -, h2⟩ := (memWf_cons b w m).1 h
    simp only [memWrite]
    split
    · rename_i hlt
      split
      · rename_i hv
        rw [hv]
        refine memRead_of_lt _ a fun c hc => ?_
        rcases List.mem_cons.1 hc with rfl | hc
        · exact hlt
        · exact Nat.lt_trans hlt (memWf_lt h c hc)
      · simp [memRead]
    · split
      · rename_i hab
        subst hab
        split
        · rename_i hv
          rw [hv]
          exact memRead_of_lt _ a (memWf_lt h)
        · simp [memRead]
      · simp only [memRead]
        rename_i h1 h2'
        rw [if_neg (by omega)]
        exact ih h2

/-- A byte read after a write at another address. -/
theorem memRead_write_other (m : List Host.Cell) (a b : Nat) (v : Byte) (h : b ≠ a) :
    memRead (memWrite m a v) b = memRead m b := by
  induction m with
  | nil => simp only [memWrite]; split <;> simp_all [memRead]
  | cons d m ih =>
    obtain ⟨c, w⟩ := d
    simp only [memWrite]
    split
    · split
      · rfl
      · simp only [memRead]; rw [if_neg h]
    · split
      · rename_i hac
        subst hac
        split
        · simp only [memRead]; rw [if_neg h]
        · simp only [memRead]; rw [if_neg h, if_neg h]
      · simp only [memRead]; rw [ih]

/-- Bytes written in a row keep the canonical form. -/
theorem memWriteAll_wf (m : List Host.Cell) (a : Nat) (vs : List Byte) (h : memWf m = true) :
    memWf (memWriteAll m a vs) = true := by
  induction vs generalizing m a with
  | nil => exact h
  | cons v vs ih => exact ih _ _ (memWrite_wf m a v h)

/-- A word written keeps the canonical form. -/
theorem memPutWord_wf (m : List Host.Cell) (a : Nat) (w : Word) (h : memWf m = true) :
    memWf (memPutWord m a w) = true := memWrite_wf _ _ _ (memWrite_wf _ _ _ h)

/-- A byte outside bytes written in a row stays. -/
theorem memRead_writeAll_outside (m : List Host.Cell) (a b : Nat) (vs : List Byte)
    (h : b < a ∨ a + vs.length ≤ b) : memRead (memWriteAll m a vs) b = memRead m b := by
  induction vs generalizing m a with
  | nil => rfl
  | cons v vs ih =>
    simp only [List.length_cons] at h
    simp only [memWriteAll]
    rw [ih _ _ (by omega), memRead_write_other _ _ _ _ (by omega)]

/-- Bytes written in a row read back. -/
theorem memRead_writeAll (m : List Host.Cell) (a k : Nat) (vs : List Byte) (h : memWf m = true)
    (hk : k < vs.length) : memRead (memWriteAll m a vs) (a + k) = vs[k] := by
  induction vs generalizing m a k with
  | nil => simp at hk
  | cons v vs ih =>
    simp only [memWriteAll]
    cases k with
    | zero =>
      rw [memRead_writeAll_outside _ _ _ _ (by omega)]
      exact memRead_write_same m a v h
    | succ k =>
      have := ih (memWrite m a v) (a + 1) k (memWrite_wf m a v h) (by simpa using hk)
      simpa [Nat.add_assoc, Nat.add_comm 1 k] using this

/-- The memory right after reset has the canonical form. -/
theorem reset_memWf : memWf State.reset.mem = true := rfl

end Sys2Proof.Laws
end

