-- ==== Sys2Proof/Laws/Blocks.lean ====
section
/-! SUPPORT. What the shared operations of RQU, CBC, ALM and JRN can do, one lemma each. -/

namespace Sys2Proof.Laws

open Sys2Proof.Machine Sys2Proof.Safety

/-! ### RQU -/

@[simp] theorem slotWords_length (st : SlotState) (x : SlotResult) : (slotWords st x).length = 4 := rfl

/-- A shown slot reads as RQU keeps it, every other byte stays, and the memory keeps its canonical form. -/
theorem showSlot_shows (s : State) (k : SlotIx) (st : SlotState) (h : memWf s.mem = true) :
    slotShows (showSlot s k st).mem k st s.rqu.last[k] ∧ memWf (showSlot s k st).mem = true ∧
    ∀ a, a < slotBase k + 4 ∨ slotBase k + 8 ≤ a → memRead (showSlot s k st).mem a = memRead s.mem a := by
  have hr := fun (n : Nat) (hn : n < 4) =>
    memRead_writeAll s.mem (slotBase k + 4) n (slotWords st s.rqu.last[k]) h (by simpa using hn)
  refine ⟨⟨?_, ?_, ?_, ?_⟩, memWriteAll_wf _ _ _ h, fun a ha => ?_⟩
  · simpa [showSlot, slotWords] using hr 0 (by omega)
  · simpa [showSlot, slotWords, Nat.add_assoc] using hr 1 (by omega)
  · simpa [showSlot, slotWords, Nat.add_assoc] using hr 2 (by omega)
  · simpa [showSlot, slotWords, Nat.add_assoc] using hr 3 (by omega)
  · exact memRead_writeAll_outside _ _ _ _ (by simpa [Nat.add_assoc] using ha)

/-- RQU that is executing takes no slot. -/
theorem takeNext_busy (s : State) (h : s.rqu.exec.isSome = true) : takeNext s = s := by simp [takeNext, h]

/-- RQU that is idle takes the lowest-numbered QUEUED slot, shows it BUSY and executes it. -/
theorem takeNext_idle (s : State) (k : SlotIx) (h : s.rqu.exec = none) (hk : lowestQueued s = some k) :
    takeNext s = { showSlot s k .busy with rqu := { (showSlot s k .busy).rqu with exec := some k } } := by
  simp [takeNext, h, hk]

/-! ### HPI -/

/-- HPI listens on the port that the sampled HIF strap names, and on no other. -/
theorem listensTo_iff (s : State) (p : HostPort) :
    s.listensTo p = true ↔ p = (if s.straps.parallel then .parallel else .serial) := by simp [State.listensTo]

/-- The address HPI takes of a byte access: a strobe's own at the parallel port; at the serial port the start of a run, or
the next address of the run in progress. -/
theorem byteAccess_eq (s : State) (write : Bool) (x : HostAddr) : byteAccess s write x = handedAddr s write x := by
  cases x <;> cases h : s.straps.parallel <;>
    simp [byteAccess, handedAddr, State.listensTo, pinsOf, namedAddr, h]
  cases s.hpi.run with
  | none => rfl
  | some r => by_cases hr : r.write = write <;> simp [Option.filter, hr]

/-- A byte access moves nothing of the state but the serial run. -/
theorem advanceRun_eq (s : State) (write : Bool) (x : HostAddr) (a : Addr) :
    advanceRun s write x a = pastByte s write x a := by cases x <;> rfl

/-- A byte that HPI takes no address of is neither written nor read. -/
theorem hostByte_unheard (s : State) (x : HostAddr) (b : Byte) :
    (byteAccess s true x = none → execHostByteWrite x b s = .next s) ∧
    (byteAccess s false x = none → execHostByteRead x s = .next s) := by
  constructor <;> intro h <;> simp [execHostByteWrite, execHostByteRead, h]

/-- A byte at the port HPI does not listen on is not taken. -/
theorem byteAccess_unheard (s : State) (write : Bool) (x : HostAddr) (h : s.listensTo (pinsOf x) = false) :
    byteAccess s write x = none := by simp [byteAccess, h]

/-! ### CBC -/

/-- A list is without repeats up to a place just when no item before that place is listed before itself. -/
theorem nodup_take_iff {α : Type} (ps : List α) (n : Nat) :
    (ps.take n).Nodup ↔ ∀ i < n, ∀ p, ps[i]? = some p → p ∉ ps.take i := by
  induction n with
  | zero => simp
  | succ n ih =>
    rw [List.take_add_one, List.nodup_append, ih, Nat.forall_lt_succ_right]
    cases ps[n]? <;> simp +contextual [eq_comm]
    intro _
    constructor
    · exact fun h ha => h _ ha rfl
    · rintro h a ha rfl; exact h ha

/-- Any test of R48's kind: picking the positions whose port is listed before it, it finds the lowest of them. -/
theorem findSecond_eq_some_iff (ps : List Port) (test : Nat → Bool)
    (ht : ∀ i, test i = true ↔ ∃ p, ps[i]? = some p ∧ p ∈ ps.take i) (n : Nat) :
    (List.range ps.length).find? test = some n ↔ (∃ p, ps[n]? = some p ∧ p ∈ ps.take n) ∧ (ps.take n).Nodup := by
  simp only [List.find?_range_eq_some, List.mem_range, Bool.not_eq_true', ← Bool.not_eq_true, ht, nodup_take_iff,
    not_exists, not_and]
  constructor
  · exact fun ⟨h, _, hb⟩ => ⟨h, hb⟩
  · rintro ⟨⟨p, hp, hm⟩, hb⟩
    exact ⟨⟨p, hp, hm⟩, (List.getElem?_eq_some_iff.mp hp).1, hb⟩

/-- The positions that `repeated` searches, by a test of that kind. -/
theorem repeated_eq (ps : List Port) : ∃ test : Nat → Bool,
    (∀ i, test i = true ↔ ∃ p, ps[i]? = some p ∧ p ∈ ps.take i) ∧
    repeated ps = ((List.range ps.length).find? test).map (· + 1) :=
  ⟨_, fun i => by cases ps[i]? <;> simp, rfl⟩

/-- The position R48 reports is the lowest at which a port stands that is listed before it (log 64). -/
theorem repeated_eq_some_iff (ps : List Port) (n : Nat) :
    repeated ps = some (n + 1) ↔ (∃ p, ps[n]? = some p ∧ p ∈ ps.take n) ∧ (ps.take n).Nodup := by
  obtain ⟨test, ht, h⟩ := repeated_eq ps
  rw [h, ← findSecond_eq_some_iff ps test ht]
  simp

/-- R48 finds no second appearance just in the lists without one. -/
theorem repeated_eq_none_iff (ps : List Port) : repeated ps = none ↔ ps.Nodup := by
  obtain ⟨test, ht, h⟩ := repeated_eq ps
  have hn := nodup_take_iff ps ps.length
  rw [List.take_length] at hn
  simp only [h, Option.map_eq_none_iff, List.find?_eq_none, ht, List.mem_range, hn, not_exists, not_and]

/-! ### ALM -/

/-- A condition is in the present set after an insertion if it is the one inserted or was there. -/
theorem mem_insertCond (c d : CondType × Nat) (ps : List (CondType × Nat)) :
    d ∈ insertCond c ps ↔ d = c ∨ d ∈ ps := by
  induction ps with
  | nil => simp [insertCond]
  | cons e ps ih =>
    simp only [insertCond]
    split
    · simp
    · split
      · rename_i h; subst h; simp
      · simp only [List.mem_cons, ih]; tauto

@[simp] theorem freshOffers_nil (a : Alm) : freshOffers a [] = [] := rfl

@[simp] theorem freshOffers_offer (a : Alm) (t : CondType) (o : Nat) (cs : List AlmChange) :
    freshOffers a (.offer t o :: cs) =
      (if a.isPresent t o then [] else [.offer t o]) ++ freshOffers (applyChange a (.offer t o)) cs := rfl

@[simp] theorem freshOffers_event (a : Alm) (t : CondType) (o : Nat) (x y : Option Nat) (cs : List AlmChange) :
    freshOffers a (.event t o x y :: cs) = .event t o x y :: freshOffers a cs := rfl

/-- The changes that offer something anew are changes of the batch. -/
theorem freshOffers_sub (a : Alm) (cs : List AlmChange) : ∀ c ∈ freshOffers a cs, c ∈ cs := by
  induction cs generalizing a with
  | nil => simp
  | cons d cs ih =>
    intro c hc
    simp only [freshOffers, List.mem_append] at hc
    rcases hc with hc | hc
    · cases d <;> simp_all
    · exact List.mem_cons_of_mem _ (ih _ _ hc)

/-- The profile of an applied profile entry: the type's own entry changes, whole. -/
theorem almProfile_entry (s : State) (t : Fin 24) (pf : AlarmProfile) : (almProfile s t pf).1.profile[t] = pf := by
  simp [almProfile]

/-! ### JRN -/

@[simp] theorem journalAfter_nil (s : State) : journalAfter s [] = s.jrn := rfl

@[simp] theorem journalAfter_append (s : State) (es : List (List JBody)) (bs : List JBody) :
    journalAfter s (es ++ [bs]) = (jrnRecords { s with jrn := journalAfter s es } bs).1 := by
  simp [journalAfter]

end Sys2Proof.Laws
end

