-- ==== Sys2Proof/Laws/Order.lean ====
section
/-! SUPPORT. The free order of hand-ons: a permutation whatever the free value, and what a settled event keeps when
every message it can reach keeps it. -/

namespace Sys2Proof.Laws

open Sys2Proof.Machine

/-- A free order is a permutation. -/
theorem permute_perm {α : Type} (c : Nat) (l : List α) : (permute c l).Perm l := by
  induction l generalizing c with
  | nil => simp [permute]
  | cons x l ih =>
    cases l with
    | nil => simp [permute]
    | cons y xs =>
      rw [permute]
      have hp := ih (c / (xs.length + 2))
      have hl : (permute (c / (xs.length + 2)) (y :: xs)).length = xs.length + 1 := by
        simpa using hp.length_eq
      refine (List.perm_insertIdx x _ (i := c % (xs.length + 2)) ?_).trans (hp.cons x)
      have := Nat.mod_lt c (show 0 < xs.length + 2 by omega)
      omega

/-- What `freely` gives is a permutation of the list. -/
theorem freely_perm {α : Type} (l : List α) (s : State) : (freely l s).1.Perm l := by
  unfold freely
  split
  · exact .refl _
  · exact .refl _
  · exact permute_perm _ _

/-- `freely` changes the count of the free choices at most. -/
theorem freely_state {α : Type} (l : List α) (s : State) :
    (freely l s).2 = s ∨ (freely l s).2 = { s with choices := s.choices + 1 } := by
  unfold freely; split <;> simp

/-- A free order of at most one thing is no choice. -/
theorem freely_single {α : Type} (x : α) (s : State) : freely [x] s = ([x], s) := rfl

/-- A relation kept by every delivery a settled event makes is kept by the event. `Q` says which messages can be
among them. -/
theorem settle_rel {Q : Msg → Prop} {P : State → State → Prop}
    (hrefl : ∀ s, P s s) (htrans : ∀ s t u, P s t → P t u → P s u)
    (hchoice : ∀ s, P s { s with choices := s.choices + 1 })
    (hexpand : ∀ m, Q m → ∀ m' ∈ m.expand, Q m')
    (hnext : ∀ m s, Q m → ∀ m' ∈ (deliver m s).2, Q m')
    (hdeliver : ∀ m s, Q m → P s (deliver m s).1) (n : Nat) :
    ∀ (ms : List Msg) (s : State), (∀ m ∈ ms, Q m) → P s (settle n ms s) := by
  induction n with
  | zero => intro ms s _; exact hrefl s
  | succ n ih =>
    intro ms s hms
    simp only [settle]
    have h0 : P s (freely ms s).2 := by
      rcases freely_state ms s with h | h <;> rw [h]
      · exact hrefl s
      · exact hchoice s
    have hq : ∀ m ∈ (freely ms s).1.flatMap Msg.expand, Q m := by
      intro m hm
      obtain ⟨m0, hm0, hmm⟩ := List.mem_flatMap.1 hm
      exact hexpand m0 (hms m0 ((freely_perm ms s).mem_iff.1 hm0)) m hmm
    refine htrans _ _ _ h0 ?_
    generalize (freely ms s).2 = u
    generalize (freely ms s).1.flatMap Msg.expand = l at hq
    induction l generalizing u with
    | nil => exact hrefl u
    | cons m l ihl =>
      rw [List.foldl_cons]
      have hm := hq m (by simp)
      exact htrans _ _ _ (htrans _ _ _ (hdeliver m u hm) (ih _ _ (hnext m u hm)))
        (ihl _ fun m' hm' => hq m' (List.mem_cons_of_mem _ hm'))

/-- A property kept by every delivery is kept by a settled event. -/
theorem settle_keeps {P : State → Prop} (hchoice : ∀ s, P s → P { s with choices := s.choices + 1 })
    (hdeliver : ∀ m s, P s → P (deliver m s).1) (n : Nat) (ms : List Msg) (s : State) (h : P s) :
    P (settle n ms s) :=
  settle_rel (Q := fun _ => True) (P := fun s t => P s → P t) (fun _ h => h) (fun _ _ _ h1 h2 h => h2 (h1 h))
    hchoice (fun _ _ _ _ => trivial) (fun _ _ _ _ _ => trivial) (fun m s _ => hdeliver m s) n ms s
    (fun _ _ => trivial) h

/-- The same of an event just taken. -/
theorem settled_keeps {P : State → Prop} (hchoice : ∀ s, P s → P { s with choices := s.choices + 1 })
    (hdeliver : ∀ m s, P s → P (deliver m s).1) (r : State × List Msg) (h : P r.1) : P (settled r) :=
  settle_keeps hchoice hdeliver 10 r.2 r.1 h

end Sys2Proof.Laws
end

