-- ==== Sys2Proof/Laws/Reach.lean ====
section
/-! SUPPORT. Which blocks a message can reach: every message has a rank, a block hands on messages of lower rank
only, and so a settled event leaves alone every block above its messages. -/

namespace Sys2Proof.Machine

/-- A message's rank: what its block hands on ranks below it. -/
def Msg.rank : Msg → Nat
  | .attn _ => 0
  | .jrn _ | .jrnMode _ => 1
  | .alm _ | .almCutOff => 2
  | .tselPorts _ | .tselTag _ | .tselHold _ | .tselGroups _ | .tselGroup _ _ | .tselShelf _ => 3
  | .tcdReport _ => 4
  | .prcPorts _ | .prcTag _ | .prcHold _ _ | .prcExpect _ => 5
  | .pmonHold _ _ => 6
  | .cbcPorts _ | .cbcTag _ | .cbcRole _ _ | .cbcFrame _ => 7
  | .tcdBit _ _ _ | .tcdLos _ _ => 8
  | .pmonPower _ _ _ | .pmonCard _ _ _ => 9

end Sys2Proof.Machine

namespace Sys2Proof.Laws

open Sys2Proof.Machine

/-- Every message of a list ranks below `n`. -/
def Below (n : Nat) (ms : List Msg) : Prop := ∀ m ∈ ms, m.rank < n

@[simp] theorem below_nil (n : Nat) : Below n [] := by simp [Below]

@[simp] theorem below_append (n : Nat) (a b : List Msg) : Below n (a ++ b) ↔ Below n a ∧ Below n b := by
  simp [Below, or_imp, forall_and]

@[simp] theorem below_cons (n : Nat) (m : Msg) (ms : List Msg) : Below n (m :: ms) ↔ m.rank < n ∧ Below n ms := by
  simp [Below]

@[simp] theorem below_ite (n : Nat) (c : Prop) [Decidable c] (a b : List Msg) :
    Below n (if c then a else b) ↔ (c → Below n a) ∧ (¬c → Below n b) := by
  split <;> simp_all

@[simp] theorem below_toAlm (n : Nat) (b : List AlmChange) (h : 2 < n) : Below n (toAlm b) := by
  simp [toAlm, Msg.rank, h]

@[simp] theorem below_toJrn (n : Nat) (r : List JBody) (h : 1 < n) : Below n (toJrn r) := by
  simp [toJrn, Msg.rank, h]

theorem expand_rank (m : Msg) : ∀ m' ∈ m.expand, m'.rank = m.rank := by
  cases m with
  | tselGroups ts =>
    intro m' hm'
    obtain ⟨x, -, rfl⟩ := List.mem_map.1 hm'
    rfl
  | _ => intro m' hm'; rw [List.mem_singleton.1 hm']

theorem handPorts_below (n : Nat) (cs : List PortChange) (cd : List AlmChange) (h : 7 < n) :
    Below n (handPorts cs cd) := by
  simp [handPorts, Msg.rank, show 2 < n by omega]; omega

theorem pmonPower_below (s : State) (p : Port) (c : BitVec 12) (v : Bool) : Below 9 (pmonPower s p c v).2 := by
  simp [pmonPower, handPorts_below, Msg.rank]

theorem pmonCard_below (s : State) (p : Port) (a b : Bool) : Below 9 (pmonCard s p a b).2 := by
  simp only [pmonCard]
  split
  · simp
  · split
    · simp
    · exact handPorts_below _ _ _ (by omega)

theorem tcdHandOn_below (p : Port) (a b : Decoder) : Below 8 (tcdHandOn p a b) := by
  simp [tcdHandOn, Msg.rank]

theorem tcdBit_below (s : State) (p : Port) (b v : Bool) : Below 8 (tcdBit s p b v).2 := tcdHandOn_below _ _ _

theorem tcdLos_below (s : State) (p : Port) (d : Bool) : Below 8 (tcdLos s p d).2 := tcdHandOn_below _ _ _

theorem handHolds_below (ps : List Port) (h : Bool) : Below 7 (handHolds ps h) := by simp [handHolds, Msg.rank]

theorem cbcEnd_below (w : CbcWork) : Below 7 (cbcEnd w).2 := by
  simp [cbcEnd, handHolds_below, Msg.rank]

theorem cbcWindow_below (s : State) (i : OrderIx) : Below 7 (cbcWindow s i).2 := by
  simp only [cbcWindow]; split
  · simp
  · split
    · simp
    · exact cbcEnd_below _

theorem cbcVerify_below (s : State) (i : OrderIx) : Below 7 (cbcVerify s i).2 := by
  simp only [cbcVerify]; split
  · simp
  · split
    · simp
    · exact cbcEnd_below _

theorem openOrder_below (s : State) (i : OrderIx) (n w : Nat) (f : Option (Fin 8)) (xs : List (Port × Expectation)) :
    Below 7 (openOrder s i n w f xs).2 := by
  simp [openOrder, handHolds_below, cbcEnd_below]

theorem prcEnd_below (w : PrcWork) : Below 5 (prcEnd w).2 := by simp [prcEnd, Msg.rank]

theorem prcLoad_below (s : State) (g : GroupIx) (d : Option GroupDef) : Below 5 (prcLoad s g d).2 := by
  simp only [prcLoad]
  split
  · simp
  · exact prcEnd_below _
  · exact prcEnd_below _
  · split <;> exact prcEnd_below _

theorem tselEnd_below (s : State) (w : TselWork) : Below 3 (tselEnd s w).2 := by simp [tselEnd]

theorem tselLost_below (s : State) (r : RefIx) : Below 3 (tselLost s r).2 := by
  simp only [tselLost]; split
  · exact tselEnd_below _ _
  · simp

theorem tselSteer_below (s : State) : Below 3 (tselSteer s).2 := by
  simp only [tselSteer]
  split
  · simp
  · split <;> first | exact tselEnd_below _ _ | simp

theorem tselAged_below (s : State) : Below 3 (tselAged s).2 := by
  simp only [tselAged]; split
  · exact tselEnd_below _ _
  · simp

theorem almFinish_below (b : Alm) (w : AlmWork) : Below 2 (almFinish b w).2 := by simp [almFinish, Msg.rank]

theorem almRaise_below (s : State) (i : EntryIx) : Below 2 (almRaise s i).2 := by
  simp only [almRaise]
  split
  · split
    · exact almFinish_below _ _
    · simp
    · simp
  · simp

theorem almClear_below (s : State) (i : EntryIx) : Below 2 (almClear s i).2 := by
  simp only [almClear]
  split
  · split
    · exact almFinish_below _ _
    · simp
    · simp
  · simp

theorem jrnWrite_below (now : Nat) (j : Jrn) (b : JBody) : Below 1 (jrnWrite now j b).2 := by
  simp only [jrnWrite]
  split
  · simp
  · split
    · split <;> simp [Msg.rank]
    · simp [Msg.rank]

theorem jrnWriteAll_below (now : Nat) (j : Jrn) (bs : List JBody) : Below 1 (jrnWriteAll now j bs).2 := by
  induction bs generalizing j with
  | nil => simp [jrnWriteAll]
  | cons b bs ih => simp [jrnWriteAll, jrnWrite_below, ih]

theorem jrnRecords_below (s : State) (bs : List JBody) : Below 1 (jrnRecords s bs).2 := by
  intro m hm
  exact jrnWriteAll_below s.now s.jrn bs m (List.mem_dedup.1 hm)

theorem jrnRelease_below (s : State) (v : Nat) : Below 1 (jrnRelease s v).2 := by
  simp only [jrnRelease]
  split
  · simp
  · split
    · simp
    · split
      · exact jrnWrite_below _ _ _
      · simp

theorem jrnMode_below (s : State) (b : Bool) : Below 1 (jrnMode s b).2 := by
  simp only [jrnMode]
  split
  · simp
  · exact jrnWrite_below _ _ _

theorem ciuAccept_below (s : State) (i : InputIx) : Below 2 (ciuAccept s i).2 := by
  simp only [ciuAccept]
  split <;> simp [Msg.rank]

theorem contactActs_below (i : InputIx) (c : ContactIn) : Below 8 (contactActs i c) := by
  simp only [contactActs]
  cases c.role <;> (try split) <;> simp [Msg.rank]

/-- A block hands on messages of lower rank than the one it took. -/
theorem deliver_below (m : Msg) (s : State) : Below m.rank (deliver m s).2 := by
  cases m with
  | pmonPower p c v => exact pmonPower_below s p c v
  | pmonCard p a b => exact pmonCard_below s p a b
  | pmonHold ps h => exact below_nil _
  | tcdBit p b v => exact tcdBit_below s p b v
  | tcdLos p d => exact tcdLos_below s p d
  | tcdReport ps => exact below_nil _
  | cbcPorts cs => exact cbcEnd_below _
  | cbcTag p => exact cbcEnd_below _
  | cbcRole p r => exact cbcEnd_below _
  | cbcFrame f => exact cbcEnd_below _
  | prcPorts cs => exact prcEnd_below _
  | prcTag p => exact prcEnd_below _
  | prcHold ps h => exact prcEnd_below _
  | prcExpect ps => exact prcEnd_below _
  | tselPorts ps => exact tselEnd_below _ _
  | tselTag p => exact tselEnd_below _ _
  | tselHold ps => exact tselEnd_below _ _
  | tselGroups ts => exact below_nil _
  | tselGroup g t => exact tselEnd_below _ _
  | tselShelf c => exact tselEnd_below _ _
  | alm b => exact almFinish_below _ _
  | almCutOff => exact almFinish_below _ _
  | jrn r => exact jrnRecords_below s r
  | jrnMode b => exact jrnMode_below s b
  | attn a => exact below_nil _

/-- What a settled event keeps when its messages rank below `k` and every delivery below `k` keeps it. -/
theorem settle_below {P : State → State → Prop} (k : Nat) (hrefl : ∀ s, P s s)
    (htrans : ∀ s t u, P s t → P t u → P s u) (hchoice : ∀ s, P s { s with choices := s.choices + 1 })
    (hdeliver : ∀ m s, m.rank < k → P s (deliver m s).1) (n : Nat) (ms : List Msg) (s : State) (h : Below k ms) :
    P s (settle n ms s) :=
  settle_rel (Q := fun m => m.rank < k) hrefl htrans hchoice
    (fun m hm m' hm' => by rw [expand_rank m m' hm']; exact hm)
    (fun m s hm m' hm' => Nat.lt_trans (deliver_below m s m' hm') hm) hdeliver n ms s h

end Sys2Proof.Laws
end

