-- ==== Sys2Proof/Laws/State.lean ====
section
/-! SUPPORT. One lemma per field for every named update of State. -/

namespace Sys2Proof.Laws

open Sys2Proof.Machine

@[simp] theorem putPmon_start (s : State) (r : Pmon × List Msg) :
    ((putPmon s r).1).start = s.start := rfl
@[simp] theorem putPmon_straps (s : State) (r : Pmon × List Msg) :
    ((putPmon s r).1).straps = s.straps := rfl
@[simp] theorem putPmon_mbp (s : State) (r : Pmon × List Msg) :
    ((putPmon s r).1).mbp = s.mbp := rfl
@[simp] theorem putPmon_pmon (s : State) (r : Pmon × List Msg) :
    ((putPmon s r).1).pmon = r.1 := rfl
@[simp] theorem putPmon_tcd (s : State) (r : Pmon × List Msg) :
    ((putPmon s r).1).tcd = s.tcd := rfl
@[simp] theorem putPmon_cbc (s : State) (r : Pmon × List Msg) :
    ((putPmon s r).1).cbc = s.cbc := rfl
@[simp] theorem putPmon_prc (s : State) (r : Pmon × List Msg) :
    ((putPmon s r).1).prc = s.prc := rfl
@[simp] theorem putPmon_tsel (s : State) (r : Pmon × List Msg) :
    ((putPmon s r).1).tsel = s.tsel := rfl
@[simp] theorem putPmon_tsp (s : State) (r : Pmon × List Msg) :
    ((putPmon s r).1).tsp = s.tsp := rfl
@[simp] theorem putPmon_alm (s : State) (r : Pmon × List Msg) :
    ((putPmon s r).1).alm = s.alm := rfl
@[simp] theorem putPmon_jrn (s : State) (r : Pmon × List Msg) :
    ((putPmon s r).1).jrn = s.jrn := rfl
@[simp] theorem putPmon_ciu (s : State) (r : Pmon × List Msg) :
    ((putPmon s r).1).ciu = s.ciu := rfl
@[simp] theorem putPmon_lcp (s : State) (r : Pmon × List Msg) :
    ((putPmon s r).1).lcp = s.lcp := rfl
@[simp] theorem putPmon_rqu (s : State) (r : Pmon × List Msg) :
    ((putPmon s r).1).rqu = s.rqu := rfl
@[simp] theorem putPmon_hpi (s : State) (r : Pmon × List Msg) :
    ((putPmon s r).1).hpi = s.hpi := rfl
@[simp] theorem putPmon_mem (s : State) (r : Pmon × List Msg) :
    ((putPmon s r).1).mem = s.mem := rfl
@[simp] theorem putPmon_choices (s : State) (r : Pmon × List Msg) :
    ((putPmon s r).1).choices = s.choices := rfl
@[simp] theorem putPmon_pending (s : State) (r : Pmon × List Msg) :
    ((putPmon s r).1).pending = s.pending := rfl
@[simp] theorem putPmon_msgs (s : State) (r : Pmon × List Msg) : (putPmon s r).2 = r.2 := rfl
@[simp] theorem putTcd_start (s : State) (r : Tcd × List Msg) :
    ((putTcd s r).1).start = s.start := rfl
@[simp] theorem putTcd_straps (s : State) (r : Tcd × List Msg) :
    ((putTcd s r).1).straps = s.straps := rfl
@[simp] theorem putTcd_mbp (s : State) (r : Tcd × List Msg) :
    ((putTcd s r).1).mbp = s.mbp := rfl
@[simp] theorem putTcd_pmon (s : State) (r : Tcd × List Msg) :
    ((putTcd s r).1).pmon = s.pmon := rfl
@[simp] theorem putTcd_tcd (s : State) (r : Tcd × List Msg) :
    ((putTcd s r).1).tcd = r.1 := rfl
@[simp] theorem putTcd_cbc (s : State) (r : Tcd × List Msg) :
    ((putTcd s r).1).cbc = s.cbc := rfl
@[simp] theorem putTcd_prc (s : State) (r : Tcd × List Msg) :
    ((putTcd s r).1).prc = s.prc := rfl
@[simp] theorem putTcd_tsel (s : State) (r : Tcd × List Msg) :
    ((putTcd s r).1).tsel = s.tsel := rfl
@[simp] theorem putTcd_tsp (s : State) (r : Tcd × List Msg) :
    ((putTcd s r).1).tsp = s.tsp := rfl
@[simp] theorem putTcd_alm (s : State) (r : Tcd × List Msg) :
    ((putTcd s r).1).alm = s.alm := rfl
@[simp] theorem putTcd_jrn (s : State) (r : Tcd × List Msg) :
    ((putTcd s r).1).jrn = s.jrn := rfl
@[simp] theorem putTcd_ciu (s : State) (r : Tcd × List Msg) :
    ((putTcd s r).1).ciu = s.ciu := rfl
@[simp] theorem putTcd_lcp (s : State) (r : Tcd × List Msg) :
    ((putTcd s r).1).lcp = s.lcp := rfl
@[simp] theorem putTcd_rqu (s : State) (r : Tcd × List Msg) :
    ((putTcd s r).1).rqu = s.rqu := rfl
@[simp] theorem putTcd_hpi (s : State) (r : Tcd × List Msg) :
    ((putTcd s r).1).hpi = s.hpi := rfl
@[simp] theorem putTcd_mem (s : State) (r : Tcd × List Msg) :
    ((putTcd s r).1).mem = s.mem := rfl
@[simp] theorem putTcd_choices (s : State) (r : Tcd × List Msg) :
    ((putTcd s r).1).choices = s.choices := rfl
@[simp] theorem putTcd_pending (s : State) (r : Tcd × List Msg) :
    ((putTcd s r).1).pending = s.pending := rfl
@[simp] theorem putTcd_msgs (s : State) (r : Tcd × List Msg) : (putTcd s r).2 = r.2 := rfl
@[simp] theorem putCbc_start (s : State) (r : Cbc × List Msg) :
    ((putCbc s r).1).start = s.start := rfl
@[simp] theorem putCbc_straps (s : State) (r : Cbc × List Msg) :
    ((putCbc s r).1).straps = s.straps := rfl
@[simp] theorem putCbc_mbp (s : State) (r : Cbc × List Msg) :
    ((putCbc s r).1).mbp = s.mbp := rfl
@[simp] theorem putCbc_pmon (s : State) (r : Cbc × List Msg) :
    ((putCbc s r).1).pmon = s.pmon := rfl
@[simp] theorem putCbc_tcd (s : State) (r : Cbc × List Msg) :
    ((putCbc s r).1).tcd = s.tcd := rfl
@[simp] theorem putCbc_cbc (s : State) (r : Cbc × List Msg) :
    ((putCbc s r).1).cbc = r.1 := rfl
@[simp] theorem putCbc_prc (s : State) (r : Cbc × List Msg) :
    ((putCbc s r).1).prc = s.prc := rfl
@[simp] theorem putCbc_tsel (s : State) (r : Cbc × List Msg) :
    ((putCbc s r).1).tsel = s.tsel := rfl
@[simp] theorem putCbc_tsp (s : State) (r : Cbc × List Msg) :
    ((putCbc s r).1).tsp = s.tsp := rfl
@[simp] theorem putCbc_alm (s : State) (r : Cbc × List Msg) :
    ((putCbc s r).1).alm = s.alm := rfl
@[simp] theorem putCbc_jrn (s : State) (r : Cbc × List Msg) :
    ((putCbc s r).1).jrn = s.jrn := rfl
@[simp] theorem putCbc_ciu (s : State) (r : Cbc × List Msg) :
    ((putCbc s r).1).ciu = s.ciu := rfl
@[simp] theorem putCbc_lcp (s : State) (r : Cbc × List Msg) :
    ((putCbc s r).1).lcp = s.lcp := rfl
@[simp] theorem putCbc_rqu (s : State) (r : Cbc × List Msg) :
    ((putCbc s r).1).rqu = s.rqu := rfl
@[simp] theorem putCbc_hpi (s : State) (r : Cbc × List Msg) :
    ((putCbc s r).1).hpi = s.hpi := rfl
@[simp] theorem putCbc_mem (s : State) (r : Cbc × List Msg) :
    ((putCbc s r).1).mem = s.mem := rfl
@[simp] theorem putCbc_choices (s : State) (r : Cbc × List Msg) :
    ((putCbc s r).1).choices = s.choices := rfl
@[simp] theorem putCbc_pending (s : State) (r : Cbc × List Msg) :
    ((putCbc s r).1).pending = s.pending := rfl
@[simp] theorem putCbc_msgs (s : State) (r : Cbc × List Msg) : (putCbc s r).2 = r.2 := rfl
@[simp] theorem putPrc_start (s : State) (r : Prc × List Msg) :
    ((putPrc s r).1).start = s.start := rfl
@[simp] theorem putPrc_straps (s : State) (r : Prc × List Msg) :
    ((putPrc s r).1).straps = s.straps := rfl
@[simp] theorem putPrc_mbp (s : State) (r : Prc × List Msg) :
    ((putPrc s r).1).mbp = s.mbp := rfl
@[simp] theorem putPrc_pmon (s : State) (r : Prc × List Msg) :
    ((putPrc s r).1).pmon = s.pmon := rfl
@[simp] theorem putPrc_tcd (s : State) (r : Prc × List Msg) :
    ((putPrc s r).1).tcd = s.tcd := rfl
@[simp] theorem putPrc_cbc (s : State) (r : Prc × List Msg) :
    ((putPrc s r).1).cbc = s.cbc := rfl
@[simp] theorem putPrc_prc (s : State) (r : Prc × List Msg) :
    ((putPrc s r).1).prc = r.1 := rfl
@[simp] theorem putPrc_tsel (s : State) (r : Prc × List Msg) :
    ((putPrc s r).1).tsel = s.tsel := rfl
@[simp] theorem putPrc_tsp (s : State) (r : Prc × List Msg) :
    ((putPrc s r).1).tsp = s.tsp := rfl
@[simp] theorem putPrc_alm (s : State) (r : Prc × List Msg) :
    ((putPrc s r).1).alm = s.alm := rfl
@[simp] theorem putPrc_jrn (s : State) (r : Prc × List Msg) :
    ((putPrc s r).1).jrn = s.jrn := rfl
@[simp] theorem putPrc_ciu (s : State) (r : Prc × List Msg) :
    ((putPrc s r).1).ciu = s.ciu := rfl
@[simp] theorem putPrc_lcp (s : State) (r : Prc × List Msg) :
    ((putPrc s r).1).lcp = s.lcp := rfl
@[simp] theorem putPrc_rqu (s : State) (r : Prc × List Msg) :
    ((putPrc s r).1).rqu = s.rqu := rfl
@[simp] theorem putPrc_hpi (s : State) (r : Prc × List Msg) :
    ((putPrc s r).1).hpi = s.hpi := rfl
@[simp] theorem putPrc_mem (s : State) (r : Prc × List Msg) :
    ((putPrc s r).1).mem = s.mem := rfl
@[simp] theorem putPrc_choices (s : State) (r : Prc × List Msg) :
    ((putPrc s r).1).choices = s.choices := rfl
@[simp] theorem putPrc_pending (s : State) (r : Prc × List Msg) :
    ((putPrc s r).1).pending = s.pending := rfl
@[simp] theorem putPrc_msgs (s : State) (r : Prc × List Msg) : (putPrc s r).2 = r.2 := rfl
@[simp] theorem putTsel_start (s : State) (r : Tsel × List Msg) :
    ((putTsel s r).1).start = s.start := rfl
@[simp] theorem putTsel_straps (s : State) (r : Tsel × List Msg) :
    ((putTsel s r).1).straps = s.straps := rfl
@[simp] theorem putTsel_mbp (s : State) (r : Tsel × List Msg) :
    ((putTsel s r).1).mbp = s.mbp := rfl
@[simp] theorem putTsel_pmon (s : State) (r : Tsel × List Msg) :
    ((putTsel s r).1).pmon = s.pmon := rfl
@[simp] theorem putTsel_tcd (s : State) (r : Tsel × List Msg) :
    ((putTsel s r).1).tcd = s.tcd := rfl
@[simp] theorem putTsel_cbc (s : State) (r : Tsel × List Msg) :
    ((putTsel s r).1).cbc = s.cbc := rfl
@[simp] theorem putTsel_prc (s : State) (r : Tsel × List Msg) :
    ((putTsel s r).1).prc = s.prc := rfl
@[simp] theorem putTsel_tsel (s : State) (r : Tsel × List Msg) :
    ((putTsel s r).1).tsel = r.1 := rfl
@[simp] theorem putTsel_tsp (s : State) (r : Tsel × List Msg) :
    ((putTsel s r).1).tsp = r.1.steering := rfl
@[simp] theorem putTsel_alm (s : State) (r : Tsel × List Msg) :
    ((putTsel s r).1).alm = s.alm := rfl
@[simp] theorem putTsel_jrn (s : State) (r : Tsel × List Msg) :
    ((putTsel s r).1).jrn = s.jrn := rfl
@[simp] theorem putTsel_ciu (s : State) (r : Tsel × List Msg) :
    ((putTsel s r).1).ciu = s.ciu := rfl
@[simp] theorem putTsel_lcp (s : State) (r : Tsel × List Msg) :
    ((putTsel s r).1).lcp = s.lcp := rfl
@[simp] theorem putTsel_rqu (s : State) (r : Tsel × List Msg) :
    ((putTsel s r).1).rqu = s.rqu := rfl
@[simp] theorem putTsel_hpi (s : State) (r : Tsel × List Msg) :
    ((putTsel s r).1).hpi = s.hpi := rfl
@[simp] theorem putTsel_mem (s : State) (r : Tsel × List Msg) :
    ((putTsel s r).1).mem = s.mem := rfl
@[simp] theorem putTsel_choices (s : State) (r : Tsel × List Msg) :
    ((putTsel s r).1).choices = s.choices := rfl
@[simp] theorem putTsel_pending (s : State) (r : Tsel × List Msg) :
    ((putTsel s r).1).pending = s.pending := rfl
@[simp] theorem putTsel_msgs (s : State) (r : Tsel × List Msg) : (putTsel s r).2 = r.2 := rfl
@[simp] theorem putAlm_start (s : State) (r : Alm × List Msg) :
    ((putAlm s r).1).start = s.start := rfl
@[simp] theorem putAlm_straps (s : State) (r : Alm × List Msg) :
    ((putAlm s r).1).straps = s.straps := rfl
@[simp] theorem putAlm_mbp (s : State) (r : Alm × List Msg) :
    ((putAlm s r).1).mbp = s.mbp := rfl
@[simp] theorem putAlm_pmon (s : State) (r : Alm × List Msg) :
    ((putAlm s r).1).pmon = s.pmon := rfl
@[simp] theorem putAlm_tcd (s : State) (r : Alm × List Msg) :
    ((putAlm s r).1).tcd = s.tcd := rfl
@[simp] theorem putAlm_cbc (s : State) (r : Alm × List Msg) :
    ((putAlm s r).1).cbc = s.cbc := rfl
@[simp] theorem putAlm_prc (s : State) (r : Alm × List Msg) :
    ((putAlm s r).1).prc = s.prc := rfl
@[simp] theorem putAlm_tsel (s : State) (r : Alm × List Msg) :
    ((putAlm s r).1).tsel = s.tsel := rfl
@[simp] theorem putAlm_tsp (s : State) (r : Alm × List Msg) :
    ((putAlm s r).1).tsp = s.tsp := rfl
@[simp] theorem putAlm_alm (s : State) (r : Alm × List Msg) :
    ((putAlm s r).1).alm = r.1 := rfl
@[simp] theorem putAlm_jrn (s : State) (r : Alm × List Msg) :
    ((putAlm s r).1).jrn = s.jrn := rfl
@[simp] theorem putAlm_ciu (s : State) (r : Alm × List Msg) :
    ((putAlm s r).1).ciu = s.ciu := rfl
@[simp] theorem putAlm_lcp (s : State) (r : Alm × List Msg) :
    ((putAlm s r).1).lcp = s.lcp := rfl
@[simp] theorem putAlm_rqu (s : State) (r : Alm × List Msg) :
    ((putAlm s r).1).rqu = s.rqu := rfl
@[simp] theorem putAlm_hpi (s : State) (r : Alm × List Msg) :
    ((putAlm s r).1).hpi = s.hpi := rfl
@[simp] theorem putAlm_gens (s : State) (r : Alm × List Msg) :
    ((putAlm s r).1).gens = s.gens := rfl
@[simp] theorem putAlm_mem (s : State) (r : Alm × List Msg) :
    ((putAlm s r).1).mem = s.mem := rfl
@[simp] theorem putAlm_choices (s : State) (r : Alm × List Msg) :
    ((putAlm s r).1).choices = s.choices := rfl
@[simp] theorem putAlm_pending (s : State) (r : Alm × List Msg) :
    ((putAlm s r).1).pending = s.pending := rfl
@[simp] theorem putAlm_msgs (s : State) (r : Alm × List Msg) : (putAlm s r).2 = r.2 := rfl
@[simp] theorem putJrn_start (s : State) (r : Jrn × List Msg) :
    ((putJrn s r).1).start = s.start := rfl
@[simp] theorem putJrn_straps (s : State) (r : Jrn × List Msg) :
    ((putJrn s r).1).straps = s.straps := rfl
@[simp] theorem putJrn_mbp (s : State) (r : Jrn × List Msg) :
    ((putJrn s r).1).mbp = s.mbp := rfl
@[simp] theorem putJrn_pmon (s : State) (r : Jrn × List Msg) :
    ((putJrn s r).1).pmon = s.pmon := rfl
@[simp] theorem putJrn_tcd (s : State) (r : Jrn × List Msg) :
    ((putJrn s r).1).tcd = s.tcd := rfl
@[simp] theorem putJrn_cbc (s : State) (r : Jrn × List Msg) :
    ((putJrn s r).1).cbc = s.cbc := rfl
@[simp] theorem putJrn_prc (s : State) (r : Jrn × List Msg) :
    ((putJrn s r).1).prc = s.prc := rfl
@[simp] theorem putJrn_tsel (s : State) (r : Jrn × List Msg) :
    ((putJrn s r).1).tsel = s.tsel := rfl
@[simp] theorem putJrn_tsp (s : State) (r : Jrn × List Msg) :
    ((putJrn s r).1).tsp = s.tsp := rfl
@[simp] theorem putJrn_alm (s : State) (r : Jrn × List Msg) :
    ((putJrn s r).1).alm = s.alm := rfl
@[simp] theorem putJrn_jrn (s : State) (r : Jrn × List Msg) :
    ((putJrn s r).1).jrn = r.1 := rfl
@[simp] theorem putJrn_ciu (s : State) (r : Jrn × List Msg) :
    ((putJrn s r).1).ciu = s.ciu := rfl
@[simp] theorem putJrn_lcp (s : State) (r : Jrn × List Msg) :
    ((putJrn s r).1).lcp = s.lcp := rfl
@[simp] theorem putJrn_rqu (s : State) (r : Jrn × List Msg) :
    ((putJrn s r).1).rqu = s.rqu := rfl
@[simp] theorem putJrn_hpi (s : State) (r : Jrn × List Msg) :
    ((putJrn s r).1).hpi = s.hpi := rfl
@[simp] theorem putJrn_gens (s : State) (r : Jrn × List Msg) :
    ((putJrn s r).1).gens = s.gens := rfl
@[simp] theorem putJrn_mem (s : State) (r : Jrn × List Msg) :
    ((putJrn s r).1).mem = s.mem := rfl
@[simp] theorem putJrn_choices (s : State) (r : Jrn × List Msg) :
    ((putJrn s r).1).choices = s.choices := rfl
@[simp] theorem putJrn_pending (s : State) (r : Jrn × List Msg) :
    ((putJrn s r).1).pending = s.pending := rfl
@[simp] theorem putJrn_msgs (s : State) (r : Jrn × List Msg) : (putJrn s r).2 = r.2 := rfl
@[simp] theorem putCiu_start (s : State) (r : Vector ContactIn 8 × List Msg) :
    ((putCiu s r).1).start = s.start := rfl
@[simp] theorem putCiu_straps (s : State) (r : Vector ContactIn 8 × List Msg) :
    ((putCiu s r).1).straps = s.straps := rfl
@[simp] theorem putCiu_mbp (s : State) (r : Vector ContactIn 8 × List Msg) :
    ((putCiu s r).1).mbp = s.mbp := rfl
@[simp] theorem putCiu_pmon (s : State) (r : Vector ContactIn 8 × List Msg) :
    ((putCiu s r).1).pmon = s.pmon := rfl
@[simp] theorem putCiu_tcd (s : State) (r : Vector ContactIn 8 × List Msg) :
    ((putCiu s r).1).tcd = s.tcd := rfl
@[simp] theorem putCiu_cbc (s : State) (r : Vector ContactIn 8 × List Msg) :
    ((putCiu s r).1).cbc = s.cbc := rfl
@[simp] theorem putCiu_prc (s : State) (r : Vector ContactIn 8 × List Msg) :
    ((putCiu s r).1).prc = s.prc := rfl
@[simp] theorem putCiu_tsel (s : State) (r : Vector ContactIn 8 × List Msg) :
    ((putCiu s r).1).tsel = s.tsel := rfl
@[simp] theorem putCiu_tsp (s : State) (r : Vector ContactIn 8 × List Msg) :
    ((putCiu s r).1).tsp = s.tsp := rfl
@[simp] theorem putCiu_alm (s : State) (r : Vector ContactIn 8 × List Msg) :
    ((putCiu s r).1).alm = s.alm := rfl
@[simp] theorem putCiu_jrn (s : State) (r : Vector ContactIn 8 × List Msg) :
    ((putCiu s r).1).jrn = s.jrn := rfl
@[simp] theorem putCiu_ciu (s : State) (r : Vector ContactIn 8 × List Msg) :
    ((putCiu s r).1).ciu = r.1 := rfl
@[simp] theorem putCiu_lcp (s : State) (r : Vector ContactIn 8 × List Msg) :
    ((putCiu s r).1).lcp = s.lcp := rfl
@[simp] theorem putCiu_rqu (s : State) (r : Vector ContactIn 8 × List Msg) :
    ((putCiu s r).1).rqu = s.rqu := rfl
@[simp] theorem putCiu_hpi (s : State) (r : Vector ContactIn 8 × List Msg) :
    ((putCiu s r).1).hpi = s.hpi := rfl
@[simp] theorem putCiu_gens (s : State) (r : Vector ContactIn 8 × List Msg) :
    ((putCiu s r).1).gens = s.gens := rfl
@[simp] theorem putCiu_mem (s : State) (r : Vector ContactIn 8 × List Msg) :
    ((putCiu s r).1).mem = s.mem := rfl
@[simp] theorem putCiu_choices (s : State) (r : Vector ContactIn 8 × List Msg) :
    ((putCiu s r).1).choices = s.choices := rfl
@[simp] theorem putCiu_pending (s : State) (r : Vector ContactIn 8 × List Msg) :
    ((putCiu s r).1).pending = s.pending := rfl
@[simp] theorem putCiu_msgs (s : State) (r : Vector ContactIn 8 × List Msg) : (putCiu s r).2 = r.2 := rfl
@[simp] theorem putSample_start (s : State) (p : Port) (r : Pmon × List Msg) :
    ((putSample s p r).1).start = s.start := rfl
@[simp] theorem putSample_straps (s : State) (p : Port) (r : Pmon × List Msg) :
    ((putSample s p r).1).straps = s.straps := rfl
@[simp] theorem putSample_mbp (s : State) (p : Port) (r : Pmon × List Msg) :
    ((putSample s p r).1).mbp = s.mbp := rfl
@[simp] theorem putSample_pmon (s : State) (p : Port) (r : Pmon × List Msg) :
    ((putSample s p r).1).pmon = r.1 := rfl
@[simp] theorem putSample_tcd (s : State) (p : Port) (r : Pmon × List Msg) :
    ((putSample s p r).1).tcd = s.tcd := rfl
@[simp] theorem putSample_cbc (s : State) (p : Port) (r : Pmon × List Msg) :
    ((putSample s p r).1).cbc = s.cbc := rfl
@[simp] theorem putSample_prc (s : State) (p : Port) (r : Pmon × List Msg) :
    ((putSample s p r).1).prc = s.prc := rfl
@[simp] theorem putSample_tsel (s : State) (p : Port) (r : Pmon × List Msg) :
    ((putSample s p r).1).tsel = s.tsel := rfl
@[simp] theorem putSample_tsp (s : State) (p : Port) (r : Pmon × List Msg) :
    ((putSample s p r).1).tsp = s.tsp := rfl
@[simp] theorem putSample_alm (s : State) (p : Port) (r : Pmon × List Msg) :
    ((putSample s p r).1).alm = s.alm := rfl
@[simp] theorem putSample_jrn (s : State) (p : Port) (r : Pmon × List Msg) :
    ((putSample s p r).1).jrn = s.jrn := rfl
@[simp] theorem putSample_ciu (s : State) (p : Port) (r : Pmon × List Msg) :
    ((putSample s p r).1).ciu = s.ciu := rfl
@[simp] theorem putSample_lcp (s : State) (p : Port) (r : Pmon × List Msg) :
    ((putSample s p r).1).lcp = s.lcp := rfl
@[simp] theorem putSample_rqu (s : State) (p : Port) (r : Pmon × List Msg) :
    ((putSample s p r).1).rqu = s.rqu := rfl
@[simp] theorem putSample_hpi (s : State) (p : Port) (r : Pmon × List Msg) :
    ((putSample s p r).1).hpi = s.hpi := rfl
@[simp] theorem putSample_mem (s : State) (p : Port) (r : Pmon × List Msg) :
    ((putSample s p r).1).mem = s.mem := rfl
@[simp] theorem putSample_choices (s : State) (p : Port) (r : Pmon × List Msg) :
    ((putSample s p r).1).choices = s.choices := rfl
@[simp] theorem putSample_pending (s : State) (p : Port) (r : Pmon × List Msg) :
    ((putSample s p r).1).pending = s.pending := rfl
@[simp] theorem putSample_msgs (s : State) (p : Port) (r : Pmon × List Msg) : (putSample s p r).2 = r.2 := rfl
@[simp] theorem putTselFrom_start (c : ShelfRec) (s : State) (r : Tsel × List Msg) :
    ((putTselFrom c s r).1).start = s.start := rfl
@[simp] theorem putTselFrom_straps (c : ShelfRec) (s : State) (r : Tsel × List Msg) :
    ((putTselFrom c s r).1).straps = s.straps := rfl
@[simp] theorem putTselFrom_mbp (c : ShelfRec) (s : State) (r : Tsel × List Msg) :
    ((putTselFrom c s r).1).mbp = s.mbp := rfl
@[simp] theorem putTselFrom_pmon (c : ShelfRec) (s : State) (r : Tsel × List Msg) :
    ((putTselFrom c s r).1).pmon = s.pmon := rfl
@[simp] theorem putTselFrom_tcd (c : ShelfRec) (s : State) (r : Tsel × List Msg) :
    ((putTselFrom c s r).1).tcd = s.tcd := rfl
@[simp] theorem putTselFrom_cbc (c : ShelfRec) (s : State) (r : Tsel × List Msg) :
    ((putTselFrom c s r).1).cbc = s.cbc := rfl
@[simp] theorem putTselFrom_prc (c : ShelfRec) (s : State) (r : Tsel × List Msg) :
    ((putTselFrom c s r).1).prc = s.prc := rfl
@[simp] theorem putTselFrom_tsel (c : ShelfRec) (s : State) (r : Tsel × List Msg) :
    ((putTselFrom c s r).1).tsel = r.1 := rfl
@[simp] theorem putTselFrom_tsp (c : ShelfRec) (s : State) (r : Tsel × List Msg) :
    ((putTselFrom c s r).1).tsp = r.1.steering := rfl
@[simp] theorem putTselFrom_alm (c : ShelfRec) (s : State) (r : Tsel × List Msg) :
    ((putTselFrom c s r).1).alm = s.alm := rfl
@[simp] theorem putTselFrom_jrn (c : ShelfRec) (s : State) (r : Tsel × List Msg) :
    ((putTselFrom c s r).1).jrn = s.jrn := rfl
@[simp] theorem putTselFrom_ciu (c : ShelfRec) (s : State) (r : Tsel × List Msg) :
    ((putTselFrom c s r).1).ciu = s.ciu := rfl
@[simp] theorem putTselFrom_lcp (c : ShelfRec) (s : State) (r : Tsel × List Msg) :
    ((putTselFrom c s r).1).lcp = s.lcp := rfl
@[simp] theorem putTselFrom_rqu (c : ShelfRec) (s : State) (r : Tsel × List Msg) :
    ((putTselFrom c s r).1).rqu = s.rqu := rfl
@[simp] theorem putTselFrom_hpi (c : ShelfRec) (s : State) (r : Tsel × List Msg) :
    ((putTselFrom c s r).1).hpi = s.hpi := rfl
@[simp] theorem putTselFrom_mem (c : ShelfRec) (s : State) (r : Tsel × List Msg) :
    ((putTselFrom c s r).1).mem = s.mem := rfl
@[simp] theorem putTselFrom_choices (c : ShelfRec) (s : State) (r : Tsel × List Msg) :
    ((putTselFrom c s r).1).choices = s.choices := rfl
@[simp] theorem putTselFrom_pending (c : ShelfRec) (s : State) (r : Tsel × List Msg) :
    ((putTselFrom c s r).1).pending = s.pending := rfl
@[simp] theorem putTselFrom_msgs (c : ShelfRec) (s : State) (r : Tsel × List Msg) :
    (putTselFrom c s r).2 = r.2 := rfl
@[simp] theorem showSlot_start (s : State) (k : SlotIx) (x : SlotState) :
    (showSlot s k x).start = s.start := rfl
@[simp] theorem showSlot_straps (s : State) (k : SlotIx) (x : SlotState) :
    (showSlot s k x).straps = s.straps := rfl
@[simp] theorem showSlot_mbp (s : State) (k : SlotIx) (x : SlotState) :
    (showSlot s k x).mbp = s.mbp := rfl
@[simp] theorem showSlot_pmon (s : State) (k : SlotIx) (x : SlotState) :
    (showSlot s k x).pmon = s.pmon := rfl
@[simp] theorem showSlot_tcd (s : State) (k : SlotIx) (x : SlotState) :
    (showSlot s k x).tcd = s.tcd := rfl
@[simp] theorem showSlot_cbc (s : State) (k : SlotIx) (x : SlotState) :
    (showSlot s k x).cbc = s.cbc := rfl
@[simp] theorem showSlot_prc (s : State) (k : SlotIx) (x : SlotState) :
    (showSlot s k x).prc = s.prc := rfl
@[simp] theorem showSlot_tsel (s : State) (k : SlotIx) (x : SlotState) :
    (showSlot s k x).tsel = s.tsel := rfl
@[simp] theorem showSlot_tsp (s : State) (k : SlotIx) (x : SlotState) :
    (showSlot s k x).tsp = s.tsp := rfl
@[simp] theorem showSlot_alm (s : State) (k : SlotIx) (x : SlotState) :
    (showSlot s k x).alm = s.alm := rfl
@[simp] theorem showSlot_jrn (s : State) (k : SlotIx) (x : SlotState) :
    (showSlot s k x).jrn = s.jrn := rfl
@[simp] theorem showSlot_ciu (s : State) (k : SlotIx) (x : SlotState) :
    (showSlot s k x).ciu = s.ciu := rfl
@[simp] theorem showSlot_lcp (s : State) (k : SlotIx) (x : SlotState) :
    (showSlot s k x).lcp = s.lcp := rfl
@[simp] theorem showSlot_rqu (s : State) (k : SlotIx) (x : SlotState) :
    (showSlot s k x).rqu = { s.rqu with slots := s.rqu.slots.set k x } := rfl
@[simp] theorem showSlot_hpi (s : State) (k : SlotIx) (x : SlotState) :
    (showSlot s k x).hpi = s.hpi := rfl
@[simp] theorem showSlot_gens (s : State) (k : SlotIx) (x : SlotState) :
    (showSlot s k x).gens = s.gens := rfl
@[simp] theorem showSlot_mem (s : State) (k : SlotIx) (x : SlotState) :
    (showSlot s k x).mem = memWriteAll s.mem (slotBase k + 4) (slotWords x s.rqu.last[k]) := rfl
@[simp] theorem showSlot_choices (s : State) (k : SlotIx) (x : SlotState) :
    (showSlot s k x).choices = s.choices := rfl
@[simp] theorem showSlot_pending (s : State) (k : SlotIx) (x : SlotState) :
    (showSlot s k x).pending = s.pending := rfl
@[simp] theorem answer_start (s : State) (k : SlotIx) (r : Result) (d : Nat) :
    (answer s k r d).start = s.start := rfl
@[simp] theorem answer_straps (s : State) (k : SlotIx) (r : Result) (d : Nat) :
    (answer s k r d).straps = s.straps := rfl
@[simp] theorem answer_mbp (s : State) (k : SlotIx) (r : Result) (d : Nat) :
    (answer s k r d).mbp = s.mbp := rfl
@[simp] theorem answer_pmon (s : State) (k : SlotIx) (r : Result) (d : Nat) :
    (answer s k r d).pmon = s.pmon := rfl
@[simp] theorem answer_tcd (s : State) (k : SlotIx) (r : Result) (d : Nat) :
    (answer s k r d).tcd = s.tcd := rfl
@[simp] theorem answer_cbc (s : State) (k : SlotIx) (r : Result) (d : Nat) :
    (answer s k r d).cbc = s.cbc := rfl
@[simp] theorem answer_prc (s : State) (k : SlotIx) (r : Result) (d : Nat) :
    (answer s k r d).prc = s.prc := rfl
@[simp] theorem answer_tsel (s : State) (k : SlotIx) (r : Result) (d : Nat) :
    (answer s k r d).tsel = s.tsel := rfl
@[simp] theorem answer_tsp (s : State) (k : SlotIx) (r : Result) (d : Nat) :
    (answer s k r d).tsp = s.tsp := rfl
@[simp] theorem answer_alm (s : State) (k : SlotIx) (r : Result) (d : Nat) :
    (answer s k r d).alm = s.alm := rfl
@[simp] theorem answer_jrn (s : State) (k : SlotIx) (r : Result) (d : Nat) :
    (answer s k r d).jrn = s.jrn := rfl
@[simp] theorem answer_ciu (s : State) (k : SlotIx) (r : Result) (d : Nat) :
    (answer s k r d).ciu = s.ciu := rfl
@[simp] theorem answer_lcp (s : State) (k : SlotIx) (r : Result) (d : Nat) :
    (answer s k r d).lcp = s.lcp := rfl
@[simp] theorem answer_rqu (s : State) (k : SlotIx) (r : Result) (d : Nat) :
    (answer s k r d).rqu = { s.rqu with
      slots := s.rqu.slots.set k r.slotState, last := s.rqu.last.set k (r.given d) } := rfl
@[simp] theorem answer_hpi (s : State) (k : SlotIx) (r : Result) (d : Nat) :
    (answer s k r d).hpi = s.hpi.event .req := rfl
@[simp] theorem answer_gens (s : State) (k : SlotIx) (r : Result) (d : Nat) :
    (answer s k r d).gens = s.gens := rfl
@[simp] theorem answer_mem (s : State) (k : SlotIx) (r : Result) (d : Nat) :
    (answer s k r d).mem = memWriteAll (zeroCode s.mem k) (slotBase k + 4) (slotWords r.slotState (r.given d)) := by
  simp [answer, showSlot]
@[simp] theorem answer_choices (s : State) (k : SlotIx) (r : Result) (d : Nat) :
    (answer s k r d).choices = s.choices := rfl
@[simp] theorem answer_pending (s : State) (k : SlotIx) (r : Result) (d : Nat) :
    (answer s k r d).pending = s.pending := rfl
@[simp] theorem writeOutcomes_start (s : State) (j : Job) : (writeOutcomes s j).start = s.start := by
  rw [writeOutcomes]
@[simp] theorem writeOutcomes_straps (s : State) (j : Job) : (writeOutcomes s j).straps = s.straps := by
  rw [writeOutcomes]
@[simp] theorem writeOutcomes_mbp (s : State) (j : Job) : (writeOutcomes s j).mbp = s.mbp := by
  rw [writeOutcomes]
@[simp] theorem writeOutcomes_pmon (s : State) (j : Job) : (writeOutcomes s j).pmon = s.pmon := by
  rw [writeOutcomes]
@[simp] theorem writeOutcomes_tcd (s : State) (j : Job) : (writeOutcomes s j).tcd = s.tcd := by
  rw [writeOutcomes]
@[simp] theorem writeOutcomes_cbc (s : State) (j : Job) : (writeOutcomes s j).cbc = s.cbc := by
  rw [writeOutcomes]
@[simp] theorem writeOutcomes_prc (s : State) (j : Job) : (writeOutcomes s j).prc = s.prc := by
  rw [writeOutcomes]
@[simp] theorem writeOutcomes_tsel (s : State) (j : Job) : (writeOutcomes s j).tsel = s.tsel := by
  rw [writeOutcomes]
@[simp] theorem writeOutcomes_tsp (s : State) (j : Job) : (writeOutcomes s j).tsp = s.tsp := by
  rw [writeOutcomes]
@[simp] theorem writeOutcomes_alm (s : State) (j : Job) : (writeOutcomes s j).alm = s.alm := by
  rw [writeOutcomes]
@[simp] theorem writeOutcomes_jrn (s : State) (j : Job) : (writeOutcomes s j).jrn = s.jrn := by
  rw [writeOutcomes]
@[simp] theorem writeOutcomes_ciu (s : State) (j : Job) : (writeOutcomes s j).ciu = s.ciu := by
  rw [writeOutcomes]
@[simp] theorem writeOutcomes_lcp (s : State) (j : Job) : (writeOutcomes s j).lcp = s.lcp := by
  rw [writeOutcomes]
@[simp] theorem writeOutcomes_rqu (s : State) (j : Job) : (writeOutcomes s j).rqu = s.rqu := by
  rw [writeOutcomes]
@[simp] theorem writeOutcomes_hpi (s : State) (j : Job) : (writeOutcomes s j).hpi = s.hpi := by
  rw [writeOutcomes]
@[simp] theorem writeOutcomes_gens (s : State) (j : Job) : (writeOutcomes s j).gens = s.gens := by
  rw [writeOutcomes]
@[simp] theorem writeOutcomes_choices (s : State) (j : Job) : (writeOutcomes s j).choices = s.choices := by
  rw [writeOutcomes]
@[simp] theorem writeOutcomes_pending (s : State) (j : Job) : (writeOutcomes s j).pending = s.pending := by
  rw [writeOutcomes]
@[simp] theorem foreign_start (s : State) :
    (foreign s).start = s.start := rfl
@[simp] theorem foreign_straps (s : State) :
    (foreign s).straps = s.straps := rfl
@[simp] theorem foreign_mbp (s : State) :
    (foreign s).mbp = s.mbp := rfl
@[simp] theorem foreign_pmon (s : State) :
    (foreign s).pmon = s.pmon := rfl
@[simp] theorem foreign_tcd (s : State) :
    (foreign s).tcd = s.tcd := rfl
@[simp] theorem foreign_cbc (s : State) :
    (foreign s).cbc = s.cbc := rfl
@[simp] theorem foreign_prc (s : State) :
    (foreign s).prc = s.prc := rfl
@[simp] theorem foreign_tsel (s : State) :
    (foreign s).tsel = s.tsel := rfl
@[simp] theorem foreign_tsp (s : State) :
    (foreign s).tsp = s.tsp := rfl
@[simp] theorem foreign_alm (s : State) :
    (foreign s).alm = s.alm := rfl
@[simp] theorem foreign_jrn (s : State) :
    (foreign s).jrn = s.jrn := rfl
@[simp] theorem foreign_ciu (s : State) :
    (foreign s).ciu = s.ciu := rfl
@[simp] theorem foreign_lcp (s : State) :
    (foreign s).lcp = s.lcp := rfl
@[simp] theorem foreign_rqu (s : State) :
    (foreign s).rqu = s.rqu := rfl
@[simp] theorem foreign_hpi (s : State) :
    (foreign s).hpi = { s.hpi with foreign := count16 s.hpi.foreign } := rfl
@[simp] theorem foreign_gens (s : State) :
    (foreign s).gens = s.gens := rfl
@[simp] theorem foreign_mem (s : State) :
    (foreign s).mem = s.mem := rfl
@[simp] theorem foreign_choices (s : State) :
    (foreign s).choices = s.choices := rfl
@[simp] theorem foreign_pending (s : State) :
    (foreign s).pending = s.pending := rfl
@[simp] theorem clearAttn_start (s : State) (w : Word) :
    (clearAttn s w).start = s.start := rfl
@[simp] theorem clearAttn_straps (s : State) (w : Word) :
    (clearAttn s w).straps = s.straps := rfl
@[simp] theorem clearAttn_mbp (s : State) (w : Word) :
    (clearAttn s w).mbp = s.mbp := rfl
@[simp] theorem clearAttn_pmon (s : State) (w : Word) :
    (clearAttn s w).pmon = s.pmon := rfl
@[simp] theorem clearAttn_tcd (s : State) (w : Word) :
    (clearAttn s w).tcd = s.tcd := rfl
@[simp] theorem clearAttn_cbc (s : State) (w : Word) :
    (clearAttn s w).cbc = s.cbc := rfl
@[simp] theorem clearAttn_prc (s : State) (w : Word) :
    (clearAttn s w).prc = s.prc := rfl
@[simp] theorem clearAttn_tsel (s : State) (w : Word) :
    (clearAttn s w).tsel = s.tsel := rfl
@[simp] theorem clearAttn_tsp (s : State) (w : Word) :
    (clearAttn s w).tsp = s.tsp := rfl
@[simp] theorem clearAttn_alm (s : State) (w : Word) :
    (clearAttn s w).alm = s.alm := rfl
@[simp] theorem clearAttn_jrn (s : State) (w : Word) :
    (clearAttn s w).jrn = s.jrn := rfl
@[simp] theorem clearAttn_ciu (s : State) (w : Word) :
    (clearAttn s w).ciu = s.ciu := rfl
@[simp] theorem clearAttn_lcp (s : State) (w : Word) :
    (clearAttn s w).lcp = s.lcp := rfl
@[simp] theorem clearAttn_rqu (s : State) (w : Word) :
    (clearAttn s w).rqu = s.rqu := rfl
@[simp] theorem clearAttn_hpi (s : State) (w : Word) :
    (clearAttn s w).hpi = { s.hpi with attn := s.hpi.attn &&& ~~~(w.setWidth 6) } := rfl
@[simp] theorem clearAttn_gens (s : State) (w : Word) :
    (clearAttn s w).gens = s.gens := rfl
@[simp] theorem clearAttn_mem (s : State) (w : Word) :
    (clearAttn s w).mem = s.mem := rfl
@[simp] theorem clearAttn_choices (s : State) (w : Word) :
    (clearAttn s w).choices = s.choices := rfl
@[simp] theorem clearAttn_pending (s : State) (w : Word) :
    (clearAttn s w).pending = s.pending := rfl
@[simp] theorem setMask_start (s : State) (w : Word) :
    (setMask s w).start = s.start := rfl
@[simp] theorem setMask_straps (s : State) (w : Word) :
    (setMask s w).straps = s.straps := rfl
@[simp] theorem setMask_mbp (s : State) (w : Word) :
    (setMask s w).mbp = s.mbp := rfl
@[simp] theorem setMask_pmon (s : State) (w : Word) :
    (setMask s w).pmon = s.pmon := rfl
@[simp] theorem setMask_tcd (s : State) (w : Word) :
    (setMask s w).tcd = s.tcd := rfl
@[simp] theorem setMask_cbc (s : State) (w : Word) :
    (setMask s w).cbc = s.cbc := rfl
@[simp] theorem setMask_prc (s : State) (w : Word) :
    (setMask s w).prc = s.prc := rfl
@[simp] theorem setMask_tsel (s : State) (w : Word) :
    (setMask s w).tsel = s.tsel := rfl
@[simp] theorem setMask_tsp (s : State) (w : Word) :
    (setMask s w).tsp = s.tsp := rfl
@[simp] theorem setMask_alm (s : State) (w : Word) :
    (setMask s w).alm = s.alm := rfl
@[simp] theorem setMask_jrn (s : State) (w : Word) :
    (setMask s w).jrn = s.jrn := rfl
@[simp] theorem setMask_ciu (s : State) (w : Word) :
    (setMask s w).ciu = s.ciu := rfl
@[simp] theorem setMask_lcp (s : State) (w : Word) :
    (setMask s w).lcp = s.lcp := rfl
@[simp] theorem setMask_rqu (s : State) (w : Word) :
    (setMask s w).rqu = s.rqu := rfl
@[simp] theorem setMask_hpi (s : State) (w : Word) :
    (setMask s w).hpi = { s.hpi with mask := w.setWidth 6 } := rfl
@[simp] theorem setMask_gens (s : State) (w : Word) :
    (setMask s w).gens = s.gens := rfl
@[simp] theorem setMask_mem (s : State) (w : Word) :
    (setMask s w).mem = s.mem := rfl
@[simp] theorem setMask_choices (s : State) (w : Word) :
    (setMask s w).choices = s.choices := rfl
@[simp] theorem setMask_pending (s : State) (w : Word) :
    (setMask s w).pending = s.pending := rfl
@[simp] theorem movePin_start (s : State) (i : InputIx) (high : Bool) :
    (movePin s i high).start = s.start := rfl
@[simp] theorem movePin_straps (s : State) (i : InputIx) (high : Bool) :
    (movePin s i high).straps = s.straps := rfl
@[simp] theorem movePin_mbp (s : State) (i : InputIx) (high : Bool) :
    (movePin s i high).mbp = s.mbp := rfl
@[simp] theorem movePin_pmon (s : State) (i : InputIx) (high : Bool) :
    (movePin s i high).pmon = s.pmon := rfl
@[simp] theorem movePin_tcd (s : State) (i : InputIx) (high : Bool) :
    (movePin s i high).tcd = s.tcd := rfl
@[simp] theorem movePin_cbc (s : State) (i : InputIx) (high : Bool) :
    (movePin s i high).cbc = s.cbc := rfl
@[simp] theorem movePin_prc (s : State) (i : InputIx) (high : Bool) :
    (movePin s i high).prc = s.prc := rfl
@[simp] theorem movePin_tsel (s : State) (i : InputIx) (high : Bool) :
    (movePin s i high).tsel = s.tsel := rfl
@[simp] theorem movePin_tsp (s : State) (i : InputIx) (high : Bool) :
    (movePin s i high).tsp = s.tsp := rfl
@[simp] theorem movePin_alm (s : State) (i : InputIx) (high : Bool) :
    (movePin s i high).alm = s.alm := rfl
@[simp] theorem movePin_jrn (s : State) (i : InputIx) (high : Bool) :
    (movePin s i high).jrn = s.jrn := rfl
@[simp] theorem movePin_ciu (s : State) (i : InputIx) (high : Bool) :
    (movePin s i high).ciu = s.ciu.set i { s.ciu[i] with pin := high } := rfl
@[simp] theorem movePin_lcp (s : State) (i : InputIx) (high : Bool) :
    (movePin s i high).lcp = s.lcp := rfl
@[simp] theorem movePin_rqu (s : State) (i : InputIx) (high : Bool) :
    (movePin s i high).rqu = s.rqu := rfl
@[simp] theorem movePin_hpi (s : State) (i : InputIx) (high : Bool) :
    (movePin s i high).hpi = s.hpi := rfl
@[simp] theorem movePin_gens (s : State) (i : InputIx) (high : Bool) :
    (movePin s i high).gens = s.gens := rfl
@[simp] theorem movePin_mem (s : State) (i : InputIx) (high : Bool) :
    (movePin s i high).mem = s.mem := rfl
@[simp] theorem movePin_choices (s : State) (i : InputIx) (high : Bool) :
    (movePin s i high).choices = s.choices := rfl
@[simp] theorem movePin_pending (s : State) (i : InputIx) (high : Bool) :
    (movePin s i high).pending = s.pending := rfl
@[simp] theorem tickInit_straps (s : State) :
    (tickInit s).straps = s.straps := rfl
@[simp] theorem tickInit_mbp (s : State) :
    (tickInit s).mbp = s.mbp := rfl
@[simp] theorem tickInit_pmon (s : State) :
    (tickInit s).pmon = s.pmon := rfl
@[simp] theorem tickInit_tcd (s : State) :
    (tickInit s).tcd = s.tcd := rfl
@[simp] theorem tickInit_cbc (s : State) :
    (tickInit s).cbc = s.cbc := rfl
@[simp] theorem tickInit_prc (s : State) :
    (tickInit s).prc = s.prc := rfl
@[simp] theorem tickInit_tsel (s : State) :
    (tickInit s).tsel = s.tsel := rfl
@[simp] theorem tickInit_tsp (s : State) :
    (tickInit s).tsp = s.tsp := rfl
@[simp] theorem tickInit_alm (s : State) :
    (tickInit s).alm = s.alm := rfl
@[simp] theorem tickInit_jrn (s : State) :
    (tickInit s).jrn = s.jrn := rfl
@[simp] theorem tickInit_ciu (s : State) :
    (tickInit s).ciu = s.ciu := rfl
@[simp] theorem tickInit_lcp (s : State) :
    (tickInit s).lcp = s.lcp := rfl
@[simp] theorem tickInit_rqu (s : State) :
    (tickInit s).rqu = s.rqu := rfl
@[simp] theorem tickInit_hpi (s : State) :
    (tickInit s).hpi = s.hpi := rfl
@[simp] theorem tickInit_gens (s : State) :
    (tickInit s).gens = s.gens := rfl
@[simp] theorem tickInit_mem (s : State) :
    (tickInit s).mem = s.mem := rfl
@[simp] theorem tickInit_choices (s : State) :
    (tickInit s).choices = s.choices := rfl
@[simp] theorem tickInit_pending (s : State) :
    (tickInit s).pending = s.pending := rfl
@[simp] theorem stampPorts_start (f : State → Port → List Nat × List Byte) (u s : State) :
    (stampPorts f u s).start = s.start := by rw [stampPorts]
@[simp] theorem stampPorts_straps (f : State → Port → List Nat × List Byte) (u s : State) :
    (stampPorts f u s).straps = s.straps := by rw [stampPorts]
@[simp] theorem stampPorts_mbp (f : State → Port → List Nat × List Byte) (u s : State) :
    (stampPorts f u s).mbp = s.mbp := by rw [stampPorts]
@[simp] theorem stampPorts_pmon (f : State → Port → List Nat × List Byte) (u s : State) :
    (stampPorts f u s).pmon = s.pmon := by rw [stampPorts]
@[simp] theorem stampPorts_tcd (f : State → Port → List Nat × List Byte) (u s : State) :
    (stampPorts f u s).tcd = s.tcd := by rw [stampPorts]
@[simp] theorem stampPorts_cbc (f : State → Port → List Nat × List Byte) (u s : State) :
    (stampPorts f u s).cbc = s.cbc := by rw [stampPorts]
@[simp] theorem stampPorts_prc (f : State → Port → List Nat × List Byte) (u s : State) :
    (stampPorts f u s).prc = s.prc := by rw [stampPorts]
@[simp] theorem stampPorts_tsel (f : State → Port → List Nat × List Byte) (u s : State) :
    (stampPorts f u s).tsel = s.tsel := by rw [stampPorts]
@[simp] theorem stampPorts_tsp (f : State → Port → List Nat × List Byte) (u s : State) :
    (stampPorts f u s).tsp = s.tsp := by rw [stampPorts]
@[simp] theorem stampPorts_alm (f : State → Port → List Nat × List Byte) (u s : State) :
    (stampPorts f u s).alm = s.alm := by rw [stampPorts]
@[simp] theorem stampPorts_jrn (f : State → Port → List Nat × List Byte) (u s : State) :
    (stampPorts f u s).jrn = s.jrn := by rw [stampPorts]
@[simp] theorem stampPorts_ciu (f : State → Port → List Nat × List Byte) (u s : State) :
    (stampPorts f u s).ciu = s.ciu := by rw [stampPorts]
@[simp] theorem stampPorts_lcp (f : State → Port → List Nat × List Byte) (u s : State) :
    (stampPorts f u s).lcp = s.lcp := by rw [stampPorts]
@[simp] theorem stampPorts_rqu (f : State → Port → List Nat × List Byte) (u s : State) :
    (stampPorts f u s).rqu = s.rqu := by rw [stampPorts]
@[simp] theorem stampPorts_hpi (f : State → Port → List Nat × List Byte) (u s : State) :
    (stampPorts f u s).hpi = s.hpi := by rw [stampPorts]
@[simp] theorem stampPorts_mem (f : State → Port → List Nat × List Byte) (u s : State) :
    (stampPorts f u s).mem = s.mem := by rw [stampPorts]
@[simp] theorem stampPorts_choices (f : State → Port → List Nat × List Byte) (u s : State) :
    (stampPorts f u s).choices = s.choices := by rw [stampPorts]
@[simp] theorem stampPorts_pending (f : State → Port → List Nat × List Byte) (u s : State) :
    (stampPorts f u s).pending = s.pending := by rw [stampPorts]
@[simp] theorem stampGroups_start (u s : State) :
    (stampGroups u s).start = s.start := by rw [stampGroups]
@[simp] theorem stampGroups_straps (u s : State) :
    (stampGroups u s).straps = s.straps := by rw [stampGroups]
@[simp] theorem stampGroups_mbp (u s : State) :
    (stampGroups u s).mbp = s.mbp := by rw [stampGroups]
@[simp] theorem stampGroups_pmon (u s : State) :
    (stampGroups u s).pmon = s.pmon := by rw [stampGroups]
@[simp] theorem stampGroups_tcd (u s : State) :
    (stampGroups u s).tcd = s.tcd := by rw [stampGroups]
@[simp] theorem stampGroups_cbc (u s : State) :
    (stampGroups u s).cbc = s.cbc := by rw [stampGroups]
@[simp] theorem stampGroups_prc (u s : State) :
    (stampGroups u s).prc = s.prc := by rw [stampGroups]
@[simp] theorem stampGroups_tsel (u s : State) :
    (stampGroups u s).tsel = s.tsel := by rw [stampGroups]
@[simp] theorem stampGroups_tsp (u s : State) :
    (stampGroups u s).tsp = s.tsp := by rw [stampGroups]
@[simp] theorem stampGroups_alm (u s : State) :
    (stampGroups u s).alm = s.alm := by rw [stampGroups]
@[simp] theorem stampGroups_jrn (u s : State) :
    (stampGroups u s).jrn = s.jrn := by rw [stampGroups]
@[simp] theorem stampGroups_ciu (u s : State) :
    (stampGroups u s).ciu = s.ciu := by rw [stampGroups]
@[simp] theorem stampGroups_lcp (u s : State) :
    (stampGroups u s).lcp = s.lcp := by rw [stampGroups]
@[simp] theorem stampGroups_rqu (u s : State) :
    (stampGroups u s).rqu = s.rqu := by rw [stampGroups]
@[simp] theorem stampGroups_hpi (u s : State) :
    (stampGroups u s).hpi = s.hpi := by rw [stampGroups]
@[simp] theorem stampGroups_mem (u s : State) :
    (stampGroups u s).mem = s.mem := by rw [stampGroups]
@[simp] theorem stampGroups_choices (u s : State) :
    (stampGroups u s).choices = s.choices := by rw [stampGroups]
@[simp] theorem stampGroups_pending (u s : State) :
    (stampGroups u s).pending = s.pending := by rw [stampGroups]
@[simp] theorem stampOrders_start (u s : State) :
    (stampOrders u s).start = s.start := by rw [stampOrders]
@[simp] theorem stampOrders_straps (u s : State) :
    (stampOrders u s).straps = s.straps := by rw [stampOrders]
@[simp] theorem stampOrders_mbp (u s : State) :
    (stampOrders u s).mbp = s.mbp := by rw [stampOrders]
@[simp] theorem stampOrders_pmon (u s : State) :
    (stampOrders u s).pmon = s.pmon := by rw [stampOrders]
@[simp] theorem stampOrders_tcd (u s : State) :
    (stampOrders u s).tcd = s.tcd := by rw [stampOrders]
@[simp] theorem stampOrders_cbc (u s : State) :
    (stampOrders u s).cbc = s.cbc := by rw [stampOrders]
@[simp] theorem stampOrders_prc (u s : State) :
    (stampOrders u s).prc = s.prc := by rw [stampOrders]
@[simp] theorem stampOrders_tsel (u s : State) :
    (stampOrders u s).tsel = s.tsel := by rw [stampOrders]
@[simp] theorem stampOrders_tsp (u s : State) :
    (stampOrders u s).tsp = s.tsp := by rw [stampOrders]
@[simp] theorem stampOrders_alm (u s : State) :
    (stampOrders u s).alm = s.alm := by rw [stampOrders]
@[simp] theorem stampOrders_jrn (u s : State) :
    (stampOrders u s).jrn = s.jrn := by rw [stampOrders]
@[simp] theorem stampOrders_ciu (u s : State) :
    (stampOrders u s).ciu = s.ciu := by rw [stampOrders]
@[simp] theorem stampOrders_lcp (u s : State) :
    (stampOrders u s).lcp = s.lcp := by rw [stampOrders]
@[simp] theorem stampOrders_rqu (u s : State) :
    (stampOrders u s).rqu = s.rqu := by rw [stampOrders]
@[simp] theorem stampOrders_hpi (u s : State) :
    (stampOrders u s).hpi = s.hpi := by rw [stampOrders]
@[simp] theorem stampOrders_mem (u s : State) :
    (stampOrders u s).mem = s.mem := by rw [stampOrders]
@[simp] theorem stampOrders_choices (u s : State) :
    (stampOrders u s).choices = s.choices := by rw [stampOrders]
@[simp] theorem stampOrders_pending (u s : State) :
    (stampOrders u s).pending = s.pending := by rw [stampOrders]
@[simp] theorem stampTiming_start (c : ShelfRec) (u s : State) :
    (stampTiming c u s).start = s.start := by rw [stampTiming]
@[simp] theorem stampTiming_straps (c : ShelfRec) (u s : State) :
    (stampTiming c u s).straps = s.straps := by rw [stampTiming]
@[simp] theorem stampTiming_mbp (c : ShelfRec) (u s : State) :
    (stampTiming c u s).mbp = s.mbp := by rw [stampTiming]
@[simp] theorem stampTiming_pmon (c : ShelfRec) (u s : State) :
    (stampTiming c u s).pmon = s.pmon := by rw [stampTiming]
@[simp] theorem stampTiming_tcd (c : ShelfRec) (u s : State) :
    (stampTiming c u s).tcd = s.tcd := by rw [stampTiming]
@[simp] theorem stampTiming_cbc (c : ShelfRec) (u s : State) :
    (stampTiming c u s).cbc = s.cbc := by rw [stampTiming]
@[simp] theorem stampTiming_prc (c : ShelfRec) (u s : State) :
    (stampTiming c u s).prc = s.prc := by rw [stampTiming]
@[simp] theorem stampTiming_tsel (c : ShelfRec) (u s : State) :
    (stampTiming c u s).tsel = s.tsel := by rw [stampTiming]
@[simp] theorem stampTiming_tsp (c : ShelfRec) (u s : State) :
    (stampTiming c u s).tsp = s.tsp := by rw [stampTiming]
@[simp] theorem stampTiming_alm (c : ShelfRec) (u s : State) :
    (stampTiming c u s).alm = s.alm := by rw [stampTiming]
@[simp] theorem stampTiming_jrn (c : ShelfRec) (u s : State) :
    (stampTiming c u s).jrn = s.jrn := by rw [stampTiming]
@[simp] theorem stampTiming_ciu (c : ShelfRec) (u s : State) :
    (stampTiming c u s).ciu = s.ciu := by rw [stampTiming]
@[simp] theorem stampTiming_lcp (c : ShelfRec) (u s : State) :
    (stampTiming c u s).lcp = s.lcp := by rw [stampTiming]
@[simp] theorem stampTiming_rqu (c : ShelfRec) (u s : State) :
    (stampTiming c u s).rqu = s.rqu := by rw [stampTiming]
@[simp] theorem stampTiming_hpi (c : ShelfRec) (u s : State) :
    (stampTiming c u s).hpi = s.hpi := by rw [stampTiming]
@[simp] theorem stampTiming_mem (c : ShelfRec) (u s : State) :
    (stampTiming c u s).mem = s.mem := by rw [stampTiming]
@[simp] theorem stampTiming_choices (c : ShelfRec) (u s : State) :
    (stampTiming c u s).choices = s.choices := by rw [stampTiming]
@[simp] theorem stampTiming_pending (c : ShelfRec) (u s : State) :
    (stampTiming c u s).pending = s.pending := by rw [stampTiming]

@[simp] theorem event_held (h : Hpi) (x : Source) : (h.event x).held = h.held := rfl
@[simp] theorem event_snap (h : Hpi) (x : Source) : (h.event x).snap = h.snap := rfl
@[simp] theorem event_dataOut (h : Hpi) (x : Source) : (h.event x).dataOut = h.dataOut := rfl
@[simp] theorem event_mask (h : Hpi) (x : Source) : (h.event x).mask = h.mask := rfl
@[simp] theorem event_foreign (h : Hpi) (x : Source) : (h.event x).foreign = h.foreign := rfl

end Sys2Proof.Laws
end

