-- ==== Sys2Proof/Laws/Frames.lean ====
section
/-! SUPPORT. What a settled event leaves alone, and what it leaves of the block that took it. -/

namespace Sys2Proof.Laws

open Sys2Proof.Machine Sys2Proof.Safety

theorem unchangedBut_refl (ps : List Part) (s : State) : unchangedBut ps s s := by
  intro q _; cases q <;> simp [Part.same]

theorem unchangedBut_trans {ps : List Part} {s t u : State} (h : unchangedBut ps s t) (k : unchangedBut ps t u) :
    unchangedBut ps s u := by
  intro q hq
  have h1 := h q hq
  have h2 := k q hq
  cases q <;> simp only [Part.same] at h1 h2 ⊢ <;> try exact h2.trans h1
  rw [Hpi.mk.injEq] at *
  simp_all

theorem unchangedBut_mono {ps qs : List Part} {s t : State} (h : unchangedBut ps s t) (hs : ∀ q ∈ ps, q ∈ qs) :
    unchangedBut qs s t := fun q hq => h q fun hp => hq (hs q hp)

/-- The parts that messages below a rank can touch. -/
def touched : Nat → List Part
  | 0 => [.choices]
  | 1 => [.choices, .attn]
  | 2 => [.choices, .attn, .jrn]
  | 3 => [.choices, .attn, .jrn, .alm]
  | 4 => [.choices, .attn, .jrn, .alm, .tsel, .tsp, .gens]
  | 5 => [.choices, .attn, .jrn, .alm, .tsel, .tsp, .gens, .tcd]
  | 6 => [.choices, .attn, .jrn, .alm, .tsel, .tsp, .gens, .tcd, .prc]
  | 7 => [.choices, .attn, .jrn, .alm, .tsel, .tsp, .gens, .tcd, .prc, .pmon]
  | _ => [.choices, .attn, .jrn, .alm, .tsel, .tsp, .gens, .tcd, .prc, .pmon, .cbc]

/-- A delivery touches the parts of its rank. -/
theorem deliver_unchanged (k : Nat) (m : Msg) (s : State) (h : m.rank < k) :
    unchangedBut (touched k) s (deliver m s).1 := by
  have hk : ∀ q ∈ touched (m.rank + 1), q ∈ touched k := by
    intro q hq
    have : m.rank + 1 ≤ k := h
    have hr : m.rank ≤ 9 := by cases m <;> simp [Msg.rank]
    rcases Nat.lt_or_ge k 9 with hk9 | hk9
    · revert hq
      generalize m.rank = r at *
      interval_cases k <;> interval_cases r <;> cases q <;> decide
    · have : touched k = touched 9 := by
        obtain ⟨j, rfl⟩ := Nat.exists_eq_add_of_le hk9
        rw [Nat.add_comm]; rfl
      rw [this]
      revert hq
      generalize m.rank = r at *
      interval_cases r <;> cases q <;> decide
  refine unchangedBut_mono ?_ hk
  intro q hq
  cases m <;> cases q <;> first
    | (simp [deliver, Part.same, Hpi.event]; done)
    | (refine absurd ?_ hq; simp [touched, Msg.rank])

/-- A settled event touches the parts below its messages' rank. -/
theorem settle_unchanged (k n : Nat) (ms : List Msg) (s : State) (h : Below k ms) :
    unchangedBut (touched k) s (settle n ms s) :=
  settle_below k (unchangedBut_refl _) (fun _ _ _ => unchangedBut_trans)
    (fun s q hq => by cases q <;> first | (simp [Part.same]; done) | (exfalso; apply hq; unfold touched; split <;> simp))
    (fun m s hm => deliver_unchanged k m s hm) n ms s h

/-- Every message ranks below ten. -/
theorem below_ten (ms : List Msg) : Below 10 ms := by
  intro m _; cases m <;> simp [Msg.rank]

/-- What no settled event touches. -/
theorem settled_unchanged (r : State × List Msg) : unchangedBut (touched 10) r.1 (settled r) :=
  settle_unchanged 10 10 r.2 r.1 (below_ten r.2)

/-- A part that a settled event leaves alone, by its messages' rank. -/
theorem settled_same (k : Nat) (q : Part) (r : State × List Msg) (h : Below k r.2) (hq : q ∉ touched k) :
    q.same r.1 (settled r) := settle_unchanged k 10 r.2 r.1 h q hq

theorem settledCbc_cbc (s : State) (r : Cbc × List Msg) (h : Below 7 r.2) : (settled (putCbc s r)).cbc = r.1 :=
  settled_same 7 .cbc (putCbc s r) h (by decide)

theorem settledPrc_prc (s : State) (r : Prc × List Msg) (h : Below 5 r.2) : (settled (putPrc s r)).prc = r.1 :=
  settled_same 5 .prc (putPrc s r) h (by decide)

theorem settledTsel_tsel (s : State) (r : Tsel × List Msg) (h : Below 3 r.2) : (settled (putTsel s r)).tsel = r.1 :=
  settled_same 3 .tsel (putTsel s r) h (by decide)

theorem settledTsel_tsp (s : State) (r : Tsel × List Msg) (h : Below 3 r.2) :
    (settled (putTsel s r)).tsp = r.1.steering :=
  settled_same 3 .tsp (putTsel s r) h (by decide)

theorem settledAlm_alm (s : State) (r : Alm × List Msg) (h : Below 2 r.2) : (settled (putAlm s r)).alm = r.1 :=
  settled_same 2 .alm (putAlm s r) h (by decide)

theorem settledJrn_jrn (s : State) (r : Jrn × List Msg) (h : Below 1 r.2) : (settled (putJrn s r)).jrn = r.1 :=
  settled_same 1 .jrn (putJrn s r) h (by decide)

theorem settledCiu_ciu (s : State) (r : Vector ContactIn 8 × List Msg) : (settled (putCiu s r)).ciu = r.1 :=
  settled_unchanged (putCiu s r) .ciu (by decide)

end Sys2Proof.Laws
end

