-- ==== Sys2Proof/Laws/PerInstr.lean ====
section
/-! SUPPORT. One lemma per command about its row: spec/opcode_table.json has exactly one row that spells its
mnemonic. -/

namespace Sys2Proof.Laws.Row

/-- The mnemonics of spec/opcode_table.json, in its order. -/
def rows : List String :=
  ["SAMPLE", "MON_LOST", "TRACKING_POINT", "CARD_STATE_ACCEPTED", "PORT_CALIBRATED", "CALB_JOB_DONE", "DECODER_LOSS", "LCP_FRAME"] ++
  ["TAG_WAIT_EXPIRY", "WINDOW_EXPIRY", "VERIFY_TIMER_EXPIRY", "HOLD_OFF_EXPIRY", "WTR_EXPIRY", "BRIDGE_CONFIRMATION_EXPIRY", "ACTIVITY_LOST", "ACTIVITY_REGAINED"] ++
  ["WINDOW_COMPLETE", "WARM_UP_END", "STEERING_TIMER_EXPIRY", "HOLDOVER_AGED", "RAISE_SOAK_EXPIRY", "CLEAR_SOAK_EXPIRY", "CONTACT_PIN_CHANGE", "DEBOUNCE_EXPIRY"] ++
  ["HOST_BYTE_WRITE", "HOST_BYTE_READ", "ATTN_CLR", "ATTN_MASK", "REGISTER_WRITE_OTHER", "UNKNOWN_CODE", "LDSH", "LDPF"] ++
  ["LDPT", "LDCR", "LDPG", "LDTR", "LDAP", "LDCI", "RDTB", "ADPT"] ++
  ["CALB", "WKOP", "WKEN", "WKCN", "WKDR", "PSLO", "PSFS", "PSMS"] ++
  ["PSCL", "TMLK", "TMFS", "TMCL", "ALAK", "ALCO", "ABRT", "COLD_RESET"] ++
  ["WARM_RESTART", "ENTER_READY", "REFERENCE_RISING_EDGE"]

/-- A command's mnemonic stands in exactly one row of the table. -/
def Statement (i : Instr) : Prop := rows.count i.mnemonic = 1

theorem sample (x : Sample) : Statement (.sample x) :=
  (by decide : rows.count "SAMPLE" = 1)

theorem monLost (x : Sample) : Statement (.monLost x) :=
  (by decide : rows.count "MON_LOST" = 1)

theorem trackingPoint (x : Sample) : Statement (.trackingPoint x) :=
  (by decide : rows.count "TRACKING_POINT" = 1)

theorem cardStateAccepted (x : Sample) : Statement (.cardStateAccepted x) :=
  (by decide : rows.count "CARD_STATE_ACCEPTED" = 1)

theorem portCalibrated (x : Sample) : Statement (.portCalibrated x) :=
  (by decide : rows.count "PORT_CALIBRATED" = 1)

theorem calbJobDone (slot : SlotIx) : Statement (.calbJobDone slot) :=
  (by decide : rows.count "CALB_JOB_DONE" = 1)

theorem decoderLoss (x : Sample) : Statement (.decoderLoss x) :=
  (by decide : rows.count "DECODER_LOSS" = 1)

theorem lcpFrame : Statement .lcpFrame :=
  (by decide : rows.count "LCP_FRAME" = 1)

theorem tagWaitExpiry (port : Port) : Statement (.tagWaitExpiry port) :=
  (by decide : rows.count "TAG_WAIT_EXPIRY" = 1)

theorem windowExpiry (entry : OrderIx) : Statement (.windowExpiry entry) :=
  (by decide : rows.count "WINDOW_EXPIRY" = 1)

theorem verifyTimerExpiry (entry : OrderIx) : Statement (.verifyTimerExpiry entry) :=
  (by decide : rows.count "VERIFY_TIMER_EXPIRY" = 1)

theorem holdOffExpiry (group : GroupIx) (member : Nat) : Statement (.holdOffExpiry group member) :=
  (by decide : rows.count "HOLD_OFF_EXPIRY" = 1)

theorem wtrExpiry (group : GroupIx) : Statement (.wtrExpiry group) :=
  (by decide : rows.count "WTR_EXPIRY" = 1)

theorem bridgeConfirmationExpiry (group : GroupIx) : Statement (.bridgeConfirmationExpiry group) :=
  (by decide : rows.count "BRIDGE_CONFIRMATION_EXPIRY" = 1)

theorem activityLost (ref : RefIx) : Statement (.activityLost ref) :=
  (by decide : rows.count "ACTIVITY_LOST" = 1)

theorem activityRegained (ref : RefIx) (gap : Nat) : Statement (.activityRegained ref gap) :=
  (by decide : rows.count "ACTIVITY_REGAINED" = 1)

theorem windowComplete (ref : RefIx) (gap : Nat) : Statement (.windowComplete ref gap) :=
  (by decide : rows.count "WINDOW_COMPLETE" = 1)

theorem warmUpEnd : Statement .warmUpEnd :=
  (by decide : rows.count "WARM_UP_END" = 1)

theorem steeringTimerExpiry : Statement .steeringTimerExpiry :=
  (by decide : rows.count "STEERING_TIMER_EXPIRY" = 1)

theorem holdoverAged : Statement .holdoverAged :=
  (by decide : rows.count "HOLDOVER_AGED" = 1)

theorem raiseSoakExpiry (entry : EntryIx) : Statement (.raiseSoakExpiry entry) :=
  (by decide : rows.count "RAISE_SOAK_EXPIRY" = 1)

theorem clearSoakExpiry (entry : EntryIx) : Statement (.clearSoakExpiry entry) :=
  (by decide : rows.count "CLEAR_SOAK_EXPIRY" = 1)

theorem contactPinChange (input : InputIx) (high : Bool) : Statement (.contactPinChange input high) :=
  (by decide : rows.count "CONTACT_PIN_CHANGE" = 1)

theorem debounceExpiry (input : InputIx) : Statement (.debounceExpiry input) :=
  (by decide : rows.count "DEBOUNCE_EXPIRY" = 1)

theorem hostByteWrite (addr : HostAddr) (byte : Byte) : Statement (.hostByteWrite addr byte) :=
  (by decide : rows.count "HOST_BYTE_WRITE" = 1)

theorem hostByteRead (addr : HostAddr) : Statement (.hostByteRead addr) :=
  (by decide : rows.count "HOST_BYTE_READ" = 1)

theorem attnClr (value : Word) : Statement (.attnClr value) :=
  (by decide : rows.count "ATTN_CLR" = 1)

theorem attnMask (value : Word) : Statement (.attnMask value) :=
  (by decide : rows.count "ATTN_MASK" = 1)

theorem registerWriteOther (addr : Addr) (value : Word) : Statement (.registerWriteOther addr value) :=
  (by decide : rows.count "REGISTER_WRITE_OTHER" = 1)

theorem unknownCode (slot : SlotIx) : Statement (.unknownCode slot) :=
  (by decide : rows.count "UNKNOWN_CODE" = 1)

theorem ldsh (slot : SlotIx) : Statement (.ldsh slot) :=
  (by decide : rows.count "LDSH" = 1)

theorem ldpf (slot : SlotIx) : Statement (.ldpf slot) :=
  (by decide : rows.count "LDPF" = 1)

theorem ldpt (slot : SlotIx) : Statement (.ldpt slot) :=
  (by decide : rows.count "LDPT" = 1)

theorem ldcr (slot : SlotIx) : Statement (.ldcr slot) :=
  (by decide : rows.count "LDCR" = 1)

theorem ldpg (slot : SlotIx) : Statement (.ldpg slot) :=
  (by decide : rows.count "LDPG" = 1)

theorem ldtr (slot : SlotIx) : Statement (.ldtr slot) :=
  (by decide : rows.count "LDTR" = 1)

theorem ldap (slot : SlotIx) : Statement (.ldap slot) :=
  (by decide : rows.count "LDAP" = 1)

theorem ldci (slot : SlotIx) : Statement (.ldci slot) :=
  (by decide : rows.count "LDCI" = 1)

theorem rdtb (slot : SlotIx) : Statement (.rdtb slot) :=
  (by decide : rows.count "RDTB" = 1)

theorem adpt (slot : SlotIx) : Statement (.adpt slot) :=
  (by decide : rows.count "ADPT" = 1)

theorem calb (slot : SlotIx) : Statement (.calb slot) :=
  (by decide : rows.count "CALB" = 1)

theorem wkop (slot : SlotIx) : Statement (.wkop slot) :=
  (by decide : rows.count "WKOP" = 1)

theorem wken (slot : SlotIx) : Statement (.wken slot) :=
  (by decide : rows.count "WKEN" = 1)

theorem wkcn (slot : SlotIx) : Statement (.wkcn slot) :=
  (by decide : rows.count "WKCN" = 1)

theorem wkdr (slot : SlotIx) : Statement (.wkdr slot) :=
  (by decide : rows.count "WKDR" = 1)

theorem pslo (slot : SlotIx) : Statement (.pslo slot) :=
  (by decide : rows.count "PSLO" = 1)

theorem psfs (slot : SlotIx) : Statement (.psfs slot) :=
  (by decide : rows.count "PSFS" = 1)

theorem psms (slot : SlotIx) : Statement (.psms slot) :=
  (by decide : rows.count "PSMS" = 1)

theorem pscl (slot : SlotIx) : Statement (.pscl slot) :=
  (by decide : rows.count "PSCL" = 1)

theorem tmlk (slot : SlotIx) : Statement (.tmlk slot) :=
  (by decide : rows.count "TMLK" = 1)

theorem tmfs (slot : SlotIx) : Statement (.tmfs slot) :=
  (by decide : rows.count "TMFS" = 1)

theorem tmcl (slot : SlotIx) : Statement (.tmcl slot) :=
  (by decide : rows.count "TMCL" = 1)

theorem alak (slot : SlotIx) : Statement (.alak slot) :=
  (by decide : rows.count "ALAK" = 1)

theorem alco (slot : SlotIx) : Statement (.alco slot) :=
  (by decide : rows.count "ALCO" = 1)

theorem abrt (slot : SlotIx) : Statement (.abrt slot) :=
  (by decide : rows.count "ABRT" = 1)

theorem coldReset (pop64 : Bool) (shid : BitVec 6) (parallel : Bool) : Statement (.coldReset pop64 shid parallel) :=
  (by decide : rows.count "COLD_RESET" = 1)

theorem warmRestart : Statement .warmRestart :=
  (by decide : rows.count "WARM_RESTART" = 1)

theorem enterReady : Statement .enterReady :=
  (by decide : rows.count "ENTER_READY" = 1)

theorem referenceRisingEdge (ref : RefIx) (gap : Nat) : Statement (.referenceRisingEdge ref gap) :=
  (by decide : rows.count "REFERENCE_RISING_EDGE" = 1)

end Sys2Proof.Laws.Row
end

