-- ==== Sys2Proof/Tests/Slice0.lean ====
section
/-! SUPPORT. The author's tests: ill-formed commands refused, the manual's worked numbers, and for each statement with
hypotheses a state and operands that meet them (at the boundaries of their ranges where clauses meet). -/

namespace Sys2Proof.Tests

open Sys2Proof Sys2Proof.Machine Sys2Proof.Safety

/-! ### Well-formed commands -/

/-- A sample of a port with a power code. -/
def smp (p : Port) (code : BitVec 12) (valid : Bool) : Sample :=
  { port := p, code := code, tagBit := false, present := true, fault := false, valid := valid }

theorem test_wellFormed_monLost : (Instr.monLost (smp 0 0 true)).WellFormed = false := by decide
theorem test_wellFormed_trackingPoint : (Instr.trackingPoint (smp 0 0 false)).WellFormed = false := by decide
theorem test_wellFormed_cardStateAccepted : (Instr.cardStateAccepted (smp 0 0 false)).WellFormed = false := by decide
theorem test_wellFormed_portCalibrated : (Instr.portCalibrated (smp 0 0 false)).WellFormed = false := by decide
theorem test_wellFormed_holdOffExpiry : (Instr.holdOffExpiry 0 7).WellFormed = false := by decide
theorem test_wellFormed_activityRegained : (Instr.activityRegained 0 80000).WellFormed = false := by decide
theorem test_wellFormed_windowComplete : (Instr.windowComplete 0 80000).WellFormed = false := by decide
theorem test_wellFormed_registerWriteOther : (Instr.registerWriteOther 0x7FF6 0).WellFormed = false := by decide

/-! ### Worked numbers of the manual -/

/-- R3: the power of a code. -/
theorem test_power_of_codes :
    rawPower 0 = -5000 ∧ rawPower 2001 = -1999 ∧ rawPower 2520 = -1220 ∧ rawPower 4000 = 1000 ∧ rawPower 4095 = 1000 ∧
    overRange 4000 = false ∧ overRange 4001 = true := by decide

/-- 00_scope: the roundings. -/
theorem test_roundings :
    truncAtLeastOne 7 4 = 1 ∧ truncAtLeastOne (-7) 4 = -1 ∧ truncAtLeastOne 3 4 = 1 ∧ truncAtLeastOne (-3) 4 = -1 ∧
    truncAtLeastOne 0 4 = 0 ∧ roundNearest 5 2 = 3 ∧ roundNearest (-5) 2 = -3 ∧ roundNearest 4 3 = 1 := by decide

/-- Section 2.1, the check worked out: shelf 4660, port 5, class 2, kind 1 with FAIL of member 2, bridged 2. -/
def workedFrame : TagFrame :=
  { shelf := 4660, port := 5, cls := 2, feLos := false, test := false, kind := 1, request := 6, member := 2, bridged := 2 }

theorem test_frame_check : frameBits workedFrame = 0xE512341485928E := by decide
theorem test_frame_validity :
    frameValid 0xE512341485928E = true ∧ frameValid 0xE5123414859286 = false ∧ frameValid 0xE412341485928E = false := by
  decide

/-- R105: 163,840,000 ticks are no offset, 8192 fewer are +50,000 ppb, a far count stops at the bound. -/
theorem test_offsets :
    offsetOf 163840000 = 0 ∧ offsetOf (163840000 - 8192) = 50000 ∧ offsetOf (163840000 + 8192) = -50000 ∧
    offsetOf 0 = 999999 := by decide

/-- R149, section 9.4: the journal in STOP mode, full by the record it takes. -/
theorem test_journal_fills :
    let j := { Jrn.reset with stop := true, unrel := 255, seq := 355 }
    let x := jrnWrite 0 j (.lost 1)
    x.1.unrel = 256 ∧ x.1.full = true ∧ x.2 = [.attn .jrn, .attn .jfull] ∧
      (jrnWrite 0 x.1 (.lost 2)).1.lost = 1 := by decide

/-! ### States for the witnesses -/

/-- Just in READY. -/
def ready : State := { State.reset with start := { State.reset.start with ready := true } }

/-- RQU executing a request with parameters in slot 0, a shelf record loaded. -/
def asking (r : Request) (params : List Byte) : State :=
  { ready with
    rqu := { ready.rqu with slots := ready.rqu.slots.set 0 .busy, exec := some 0, loaded := true }
    mem := memWriteAll (memWriteAll [] 0x100 r.code) 0x108 params }

/-- The same with bytes in the staging area. -/
def staged (r : Request) (params bytes : List Byte) : State :=
  let s := asking r params
  { s with mem := memWriteAll s.mem 0x300 bytes }

theorem test_serving_every_request : allRequests.all (fun r => serving (asking r [1, 2, 3]) 0 r) = true := by decide

/-! ### Witnesses: steps, optical power -/

theorem test_AnEmptyQueueTakesWhatIsDue_due :
    let s := { State.reset with start := { State.reset.start with frameDue := true } }
    s.pending = [] ∧ (due s).head? = some .lcpFrame := by decide
theorem test_AnEmptyQueueTakesWhatIsDue_idle : ready.pending = [] ∧ due ready = [] ∧ ready.start.ready = true := by decide
theorem test_AnEmptyQueueTakesWhatIsDue_init (h : 0 < Config.initPeriods 0) :
    State.reset.pending = [] ∧ State.reset.start.ready = false ∧ due State.reset = [] := by
  refine ⟨rfl, rfl, ?_⟩
  have h1 : ¬min (initBound true) (Config.initPeriods 0) ≤ 0 := by simp [initBound]; omega
  simp [due, initOver, State.reset, State.cold] at h1 ⊢
  exact h1
theorem test_AnEmptyQueueTakesWhatIsDue_timer :
    (due { ready with ciu := ready.ciu.set 3 { ready.ciu[3] with timer := some 0 } }) = [.debounceExpiry 3] := by decide
theorem test_AFlagIsDeclaredByARunOfN :
    (1 ≤ 3) ∧ ([(true, true), (true, false), (false, false), (true, false), (true, true), (true, false)].foldl
      (fun x b => confirm x.1 x.2 3 b.1 b.2) (false, 0)).1 = true := by decide

/-- A port's record, its filter at −1220 and its baseline at −1000. -/
def rec0 : PortRec := { PortRec.reset with smoothed := some (-1220), baseline := some (-1000) }

/-- A valid sample through the stages of the default profile, in service. -/
def stages (code : BitVec 12) (r : PortRec) : PortRec := (portValid Profile.default .inService false code r).1

theorem test_LossOfLightAndDeficits_los :
    (stages 0 { rec0 with losCnt := 2 }).los = true ∧ (stages 0 { rec0 with los := true }).los = true ∧
    (stages 1134 { rec0 with los := true, losCnt := 2 }).los = false ∧
    (stages 1133 { rec0 with los := true, losCnt := 2 }).los = true := by decide
theorem test_LossOfLightAndDeficits_deficit :
    rec0.cal = none ∧ (stages 2520 rec0).los = false ∧ (stages 2520 rec0).baseline = some (-1000) ∧
    (stages 2520 rec0).smoothed = some (-1220) ∧ (stages 2520 { rec0 with baseline := none }).baseline = none ∧
    (stages 2520 { rec0 with baseline := some (-920) }).degCnt = 1 ∧
    (stages 2520 { rec0 with baseline := some (-921) }).degCnt = 0 := by decide
theorem test_SpikeHoldingAndSmoothing :
    rec0.los = false ∧ (stages 2520 rec0).los = false ∧ (stages 2520 PortRec.reset).smoothed = some (-1220) ∧
    (stages 2520 { rec0 with smoothed := some (-1620) }).spike = .clear ∧
    (stages 2520 { rec0 with smoothed := some (-1621) }).spike = .rising ∧
    (stages 2520 { rec0 with smoothed := some (-1621), spike := .rising }).smoothed = some (-1220) ∧
    (stages 2520 { rec0 with smoothed := some (-1621), spike := .falling }).spike = .rising := by decide
theorem test_TheBaselineTracksAndIsCalibrated_track :
    rec0.cal = none ∧ (stages 2520 { rec0 with track := 4094 }).track = 4095 ∧
    (stages 2520 { rec0 with track := 4095 }).track = 0 ∧
    (stages 2520 { rec0 with track := 4095 }).baseline = some (-1006) ∧
    (stages 2520 { rec0 with track := 4095, baseline := none }).baseline = none := by decide
theorem test_TheBaselineTracksAndIsCalibrated_calibration :
    (stages 2520 { rec0 with cal := some ⟨0, 62, 0⟩ }).cal = some ⟨0, 63, -1220⟩ ∧
    (stages 2520 { rec0 with cal := some ⟨0, 63, -76860⟩ }).cal = none ∧
    (stages 2520 { rec0 with cal := some ⟨0, 63, -76860⟩ }).smoothed = some (-1220) ∧
    (stages 2520 { rec0 with cal := some ⟨0, 63, -76860⟩ }).los = false := by decide

/-- READY with another record of port 0. -/
def atPort (r : PortRec) : State := { ready with pmon := { ready.pmon with ports := ready.pmon.ports.set 0 r } }

theorem test_AValidSampleTakesItsPortThroughTheStages :
    ready.start.ready = true ∧ ready.populated 63 = true ∧ acceptsCard ready (smp 63 2520 true) = false ∧
    ready.cbc.ports[63].hold = none ∧ isTrackingPoint (atPort { rec0 with track := 4095 }) (smp 0 2520 true) = true ∧
    acceptsCard (atPort { rec0 with track := 4095 }) (smp 0 2520 true) = false ∧
    calibratesPort (atPort { rec0 with cal := some ⟨0, 63, -76860⟩ }) (smp 0 2520 true) = true ∧
    acceptsCard (atPort { rec0 with cal := some ⟨0, 63, -76860⟩ }) (smp 0 2520 true) = false := by decide
theorem test_AValidSampleTakesItsPortThroughTheStages_offers :
    let x := pmonPower (atPort { rec0 with losCnt := 2 }) 0 0 true
    x.1.ports[0].los = true ∧ x.1.ports[0].handed = .dark ∧ .tcdLos 0 true ∈ x.2 ∧
    .alm [.offer .los 0, .portState 0 .dark] ∈ x.2 ∧ .prcPorts [⟨0, .clear, .dark⟩] ∈ x.2 ∧
    (pmonPower (atPort { rec0 with run := 63 }) 0 0 false).1.ports[0].handed = .monLost := by decide
theorem test_AMissedSampleMovesTheRunAlone :
    ready.start.ready = true ∧ ready.populated 0 = true ∧ (smp 0 0 false).valid = false ∧
    declaresMonLost (atPort { rec0 with run := 62 }) (smp 0 0 false) = false ∧
    declaresMonLost (atPort { rec0 with run := 63, cal := some ⟨0, 1, 0⟩ }) (smp 0 0 false) = true := by decide

/-- READY with another record of card 0. -/
def atCard (c : CardRec) : State := { ready with pmon := { ready.pmon with cards := ready.pmon.cards.set 0 c } }

theorem test_CardStatesAreAccepted_reading :
    cardStateOf true false ≠ CardRec.reset.accepted ∧ CardRec.reset.count = 0 ∧
    ([0, 1, 2, 3, 4, 5, 6].foldl (fun x n => cardReading true false n x) CardRec.reset).accepted = .unknown ∧
    ([0, 1, 2, 3, 4, 5, 6, 7].foldl (fun x n => cardReading true false n x) CardRec.reset).accepted = .inService := by
  decide
theorem test_CardStatesAreAccepted_insertion :
    acceptsCard (atCard ⟨.out, (true, false), 7, none⟩) (smp 0 0 true) = true ∧
    acceptsCard (atCard ⟨.out, (true, false), 6, none⟩) (smp 0 0 true) = false ∧
    acceptsCard (atCard ⟨.inService, (false, false), 7, none⟩) { smp 0 0 true with present := false } = true := by decide

/-! ### Witnesses: tags -/

/-- The locked tag of the worked frame. -/
def tag0 : Tag := (tagOf none workedFrame).1

/-- Another identity, and a third. -/
def frame1 : TagFrame := { workedFrame with port := 6 }

/-- READY, a record loaded, port 0 a LINE port. -/
def lineReady : State := { ready with
  rqu := { ready.rqu with loaded := true }
  pmon := { ready.pmon with ports := ready.pmon.ports.set 0 { PortRec.reset with role := .line } } }

theorem test_EveryTagFrameReadsBack_latch :
    { ready with straps := ⟨false, 0, true⟩ }.populated 31 = true ∧
    { ready with straps := ⟨false, 0, true⟩ }.populated 32 = false ∧ ready.populated 63 = true ∧
    ready.rqu.loaded = false ∧ lineReady.pmon.ports[0].role = .line ∧ 0 ∉ lineReady.tsel.doNotUse ∧
    lineReady.tsel.outClass ≤ 15 ∧ { lineReady.tsel with doNotUse := [0] }.doNotUse = [0] := by decide
theorem test_TwoFramesLockAFreshDecoder_record :
    (let x := frameFound { Decoder.reset with st := .candidate workedFrame } { workedFrame with request := 11 }
     x.tag.map (·.request) = some 11 ∧ x.badSig = 0) ∧
    (let x := frameFound { Decoder.reset with st := .locked tag0 none } { workedFrame with request := 12 }
     x.tag.map (·.request) = some 6 ∧ x.badSig = 1) ∧
    (let x := frameFound { Decoder.reset with st := .locked tag0 (some frame1) } { frame1 with kind := 2 }
     x.tag.map (·.signalling) = some false ∧ x.badSig = 0) ∧
    (frameFound { Decoder.reset with st := .candidate frame1 } workedFrame).st = .candidate workedFrame := by decide

/-- A decoder one bit short of the second of two frames. -/
def lastBit (f : TagFrame) : Decoder :=
  { Decoder.reset with st := .candidate f, bits := frameBits f >>> 1, count := 55 }

theorem test_TwoFramesLockAFreshDecoder_handOn :
    (lastBit workedFrame).tag = none ∧
    (decoderSample (lastBit workedFrame) ((frameBits workedFrame).getLsbD 0) true).tag = some tag0 ∧
    (let f := { workedFrame with feLos := true }
     ((decoderSample (lastBit f) ((frameBits f).getLsbD 0) true).tag.map (·.feLos)) = some true) ∧
    felos (some { tag0 with feLos := true }) = true := by decide
theorem test_ALockedIdentityChangesAtTheSecondFrame :
    ¬(tag0.shelf = frame1.shelf ∧ tag0.port = frame1.port) ∧
    (frameFound { Decoder.reset with st := .locked tag0 none } frame1).st = .locked tag0 (some frame1) ∧
    (frameFound { Decoder.reset with st := .locked tag0 (some frame1) } frame1).change = 1 ∧
    (frameFound { Decoder.reset with st := .locked tag0 (some frame1) } { frame1 with port := 7 }).glitch = 1 ∧
    (frameFound { Decoder.reset with st := .locked tag0 (some frame1) } workedFrame).st = .locked tag0 none ∧
    tag0.shelf = workedFrame.shelf ∧ tag0.port = workedFrame.port := by decide

/-- READY with another decoder of port 0. -/
def atDecoder (d : Decoder) : State := { ready with tcd := { ready.tcd with decs := ready.tcd.decs.set 0 d } }

theorem test_ALostDecoderReturnsToHunt :
    losesDecoder (atDecoder { Decoder.reset with st := .locked tag0 none, loss := 167 }) (smp 0 2520 true) = true ∧
    losesDecoder (atDecoder { Decoder.reset with st := .locked tag0 none, loss := 166 }) (smp 0 2520 true) = false ∧
    losesDecoder (atDecoder { Decoder.reset with st := .candidate frame1, loss := 167 }) (smp 0 0 false) = true ∧
    (atDecoder { Decoder.reset with st := .locked tag0 none, loss := 167 }).tcd.decs[0].los = false := by decide
theorem test_ALostDecoderReturnsToHunt_counter :
    (lossPeriod { Decoder.reset with st := .locked tag0 none, loss := 166 }).st = .locked tag0 none ∧
    (lossPeriod { Decoder.reset with st := .locked tag0 none, loss := 167 }).st = .hunt ∧
    (lossPeriod { Decoder.reset with st := .candidate frame1, loss := 167 }).nextEnd = none := by decide
theorem test_ALostDecoderReturnsToHunt_los :
    let s := atPort { rec0 with losCnt := 2 }
    s.start.ready = true ∧ s.populated 0 = true ∧ s.pmon.ports[0].los = false ∧
    (pmonPower s 0 0 true).1.ports[0].los = true ∧ .tcdLos 0 true ∈ (pmonPower s 0 0 true).2 ∧
    (pmonPower (atPort { rec0 with los := true, losCnt := 2 }) 0 2520 true).1.ports[0].los = false := by decide
theorem test_ALostDecoderReturnsToHunt_bits :
    let d := { Decoder.reset with st := .locked tag0 none, bits := 0x80000000000001, count := 56, nextEnd := some 3 }
    (decoderLos d true).tag = none ∧ (decoderSample d true true).bits = 3 ∧ (decoderSample d true true).count = 56 ∧
    (decoderSample d true false).count = 0 ∧ (decoderSample { d with los := true } true true).bits = d.bits := by decide
theorem test_LineControlFrames : ready.start.ready = true ∧ ready.tcd.pos = 0 ∧ State.reset.start.ready = false := by decide

/-! ### Witnesses: cabling and work orders -/

/-- A TAG expectation of the worked frame's identity. -/
def tagExp : Expectation := { kind := .tag, port := 5, shelf := 4660 }

/-- A cabling record with an expectation. -/
def expecting (e : Expectation) : CabRec := { CabRec.reset with expect := e }

/-- READY, port 0 a LINE port in a port state. -/
def linePort (st : PortState) : State := atPort { rec0 with role := .line, handed := st }

/-- The same with a locked decoder. -/
def lockedPort (t : Tag) : State :=
  let s := linePort .clear
  { s with tcd := { s.tcd with decs := s.tcd.decs.set 0 { Decoder.reset with st := .locked t none } } }

theorem test_TheCablingStateTable :
    (linePort .clear).populated 0 = true ∧ (linePort .clear).pmon.ports[0].role ≠ .spare ∧
    cablingState (linePort .clear) { expecting tagExp with hold := some 0 } 0 = .held ∧
    cablingState (linePort .clear) CabRec.reset 0 = .unchecked ∧
    cablingState (linePort .monLost) (expecting tagExp) 0 = .unchecked ∧
    cablingState (linePort .dark) (expecting ⟨.dark, 0, 0⟩) 0 = .matched ∧
    cablingState (linePort .degrade) (expecting ⟨.dark, 0, 0⟩) 0 = .litUnexpected ∧
    cablingState (linePort .dark) (expecting tagExp) 0 = .noLight ∧
    cablingState (lockedPort tag0) (expecting tagExp) 0 = .matched ∧
    cablingState (lockedPort { tag0 with port := 6 }) (expecting tagExp) 0 = .mismatch ∧
    cablingState (linePort .clear) { expecting tagExp with tagWait := some 1 } 0 = .awaiting ∧
    cablingState (linePort .clear) (expecting tagExp) 0 = .untagged := by decide

/-- Another cabling record of port 0. -/
def atCabling (s : State) (r : CabRec) : State := { s with cbc := { s.cbc with ports := s.cbc.ports.set 0 r } }

theorem test_ATagWaitRunsOut :
    let s := atCabling (linePort .clear) { expecting tagExp with tagWait := some 0 }
    s.start.ready = true ∧ s.cbc.ports[0].tagWait = some 0 ∧ s.cbc.ports[0].hold = none ∧ s.populated 0 = true ∧
    s.pmon.ports[0].role ≠ .spare ∧ s.cbc.ports[0].expect.kind = .tag ∧ s.pmon.ports[0].handed.lit = true ∧
    s.tcd.decs[0].tag = none ∧ s.cbc.ports[0].state ≠ .untagged := by decide

/-- A WKOP of order 7, a 30 minute window, with a section, an override, a count and items. -/
def askingWkop (fs override count : Byte) (items : List Byte) : State :=
  asking .wkop ([0, 7, 0, 30, fs, override, count, 0] ++ items)

/-- The item: port `p` to expect anything. -/
def anyItem (p : Byte) : List Byte := [p, 0, 0, 0, 0]

/-- An order of number 7 on port 0. -/
def order0 (st : OrderState) : Order :=
  { number := 7, state := st, window := 30, frameSection := some 0
    items := [{ port := 0, expect := tagExp, prev := some ⟨.dark, 0, 0⟩, outcome := .pending }]
    reason := none, openedAt := 0, overrun := false, fault := false, timer := some 0 }

/-- The state with that order in entry 0, holding port 0 while it stands. -/
def withOrder (s : State) (st : OrderState) : State :=
  { s with cbc := { ports := s.cbc.ports.set 0 { s.cbc.ports[0] with hold := some 0, state := .held }
                    orders := s.cbc.orders.set 0 (some (order0 st)) } }

theorem test_ATagWaitRunsOut_ports :
    let s := { atCabling (linePort .clear) (expecting tagExp) with pmon := (linePort .clear).pmon }
    let cs : List PortChange := [⟨0, .dark, .clear⟩]
    (cs.map (·.port)).Nodup ∧ (∀ i : OrderIx, s.cbc.orders[i] = none) ∧
    (cbcPorts s cs).1.ports[0].tagWait = some 2000 ∧ (cbcPorts s cs).1.ports[0].state = .awaiting ∧
    (cbcTag s 0).1.ports[0].state = .untagged ∧ .alm [.offer .untagged 0] ∈ (cbcTag s 0).2 ∧
    (cbcRole s 0 .spare).1.ports[0].tagWait = some 2000 ∧ (cbcRole s 0 .line).1.ports[0].tagWait = none := by decide

theorem test_AnOrderIsOpened :
    let s := askingWkop 0 0 2 (anyItem 3 ++ anyItem 7)
    serving s 0 .wkop = true ∧ wkopItems s 0 = some [(3, ⟨.any, 0, 0⟩), (7, ⟨.any, 0, 0⟩)] ∧
    wkopSection s 0 = some (some 0) ∧ param16 s 0 0 ≠ 0 ∧ [(3 : Port), 7].Nodup ∧
    (∀ p ∈ [(3 : Port), 7], s.populated p = true ∧ s.cbc.ports[p].hold = none ∧ p.val / 8 = 0) ∧
    (∀ j : OrderIx, s.cbc.orders[j] = none) ∧ firstNotTaken s [3, 7] [] [3, 7] 1 = none := by decide
theorem test_AnOrderIsOpened_override : wkopOverride (askingWkop 0xFF 1 1 (anyItem 3)) 0 = true := by decide

theorem test_WkopChecksInOrder_form :
    serving (askingWkop 0xFF 0 0 []) 0 .wkop = true ∧ wkopCount (askingWkop 0xFF 0 0 []) 0 = 0 ∧
    wkopSection (askingWkop 8 0 1 (anyItem 3)) 0 = none ∧ wkopItems (askingWkop 0xFF 0 1 (anyItem 64)) 0 = none ∧
    wkopCount (askingWkop 0xFF 0 8 []) 0 = 8 ∧ 8 < wkopCount (askingWkop 0xFF 0 9 []) 0 ∧
    param16 (asking .wkop [0, 0, 0, 1]) 0 0 = 0 := by decide
theorem test_WkopChecksInOrder_ports :
    wkopItems (askingWkop 0xFF 0 2 (anyItem 3 ++ anyItem 3)) 0 = some [(3, ⟨.any, 0, 0⟩), (3, ⟨.any, 0, 0⟩)] ∧
    [(3 : Port), 3][1]? = some 3 ∧ (3 : Port) ∈ [(3 : Port), 3].take 1 ∧ ([(3 : Port), 3].take 1).Nodup ∧
    repeated [(3 : Port), 3] = some 2 ∧ repeated [(3 : Port), 7] = none ∧ positionOf (outside (some 0)) [(7 : Port), 8] = some 2 ∧
    positionOf (outside (none : Option (Fin 8))) [(7 : Port), 8] = none ∧
    (let s := { askingWkop 0xFF 0 1 (anyItem 32) with straps := ⟨false, 0, true⟩ }
     serving s 0 .wkop = true ∧ positionOf (fun p => !s.populated p) [(31 : Port), 32] = some 2) := by decide
theorem test_WkopChecksInOrder_table :
    let s := withOrder (askingWkop 0xFF 0 1 (anyItem 0)) .opened
    let full := { s with cbc := { s.cbc with orders := Vector.replicate 16 (some (order0 .opened)) } }
    serving s 0 .wkop = true ∧ findOrder s.cbc 7 = some 0 ∧ findOrder s.cbc 8 = none ∧ freeOrder s.cbc = some 1 ∧
    freeOrder full.cbc = none ∧ findOrder full.cbc 8 = none ∧
    positionOf (fun p => s.cbc.ports[p].hold.isSome) [(1 : Port), 0] = some 2 := by decide

/-- A 1+1 group of protection port 1 and working port 0. -/
def pair : Group :=
  GroupDef.fresh { kind := .uni, prot := 1, work := [0], revertive := true, degSwitch := true, holdOff := 0, wtr := 300 }

/-- The state with a group in entry 0. -/
def withGroup (s : State) (g : Group) : State := { s with prc := { s.prc with groups := s.prc.groups.set 0 (some g) } }

theorem test_WkopChecksInOrder_taken :
    let s := withGroup (askingWkop 0xFF 0 1 (anyItem 0)) { pair with lockout := true }
    serving s 0 .wkop = true ∧ wkopItems s 0 = some [(0, ⟨.any, 0, 0⟩)] ∧ findOrder s.cbc 7 = none ∧
    wkopOverride s 0 = false ∧ firstNotTaken s [0] [] [0] 1 = some 1 := by decide

theorem test_WkopChecksInOrder_blocked :
    let g := { pair with lockout := true }
    let s := withGroup ready g
    s.prc.groups[0] = some g ∧ (∀ gi : GroupIx, gi ≠ 0 → s.prc.groups[gi] = none) ∧ g.n ≤ 6 ∧
    (g.prot :: g.work).Nodup ∧ g.force = none ∧ (∀ m : Fin 7, (g.mon m.val).held = false) ∧ g.work[0]? = some 0 ∧
    firstNotTaken s [5, 0] [] [5, 0] 1 = some 2 ∧ firstNotTaken (withGroup ready pair) [5, 0] [] [5, 0] 1 = none := by decide
theorem test_AnOrderEntersVerifying :
    let s := withOrder ready .opened
    let r := withOrder (asking .wken [0, 7]) .opened
    s.cbc.orders[0] = some (order0 .opened) ∧ ((order0 .opened).items.map (·.port)).Nodup ∧ s.start.ready = true ∧
    (order0 .opened).timer ≠ none ∧ r.cbc.orders[0] = some (order0 .opened) ∧ serving r 0 .wken = true ∧
    param16 r 0 0 ≠ 0 ∧ findOrder r.cbc (param16 r 0 0) = some 0 := by decide
theorem test_AnOrderEntersVerifying_shown :
    let s := withOrder (lockedPort tag0) .verifying
    let two := { order0 .verifying with
      items := (order0 .verifying).items ++ [{ port := 1, expect := ⟨.dark, 0, 0⟩, prev := none, outcome := .pending }] }
    let u := { s with cbc := { s.cbc with orders := s.cbc.orders.set 0 (some two) } }
    itemShown s { port := 0, expect := tagExp, prev := none, outcome := .pending } = true ∧
    itemShown ready { port := 0, expect := tagExp, prev := none, outcome := .pending } = false ∧
    itemShown (linePort .dark) { port := 0, expect := ⟨.dark, 0, 0⟩, prev := none, outcome := .pending } = true ∧
    ((cbcTag s 0).1.orders[0].map fun o => (o.state, o.timer)) = some (.closedGood, none) ∧
    ((cbcTag u 0).1.orders[0].map fun o => (o.state, o.items.map (·.outcome))) = some (.verifying, [.ok, .pending]) ∧
    (cbcTag (withOrder ready .verifying) 0).1.orders[0] = some (order0 .verifying) := by decide
theorem test_AnOrderEndsWithItsHoldsReleased :
    let s := withOrder ready .verifying
    let r := withOrder (asking .wkcn [0, 7]) .verifying
    let u := withOrder (asking .wkcn [0, 7]) .opened
    s.cbc.orders[0] = some (order0 .verifying) ∧ ((order0 .verifying).items.map (·.port)).Nodup ∧
    s.start.ready = true ∧ (order0 .verifying).timer ≠ none ∧ serving r 0 .wkcn = true ∧ param16 r 0 0 ≠ 0 ∧
    findOrder r.cbc (param16 r 0 0) = some 0 ∧ serving u 0 .wkcn = true ∧ findOrder u.cbc 7 = some 0 := by decide
theorem test_OrdersAreNamedByTheirNumbers :
    (∀ r ∈ [Request.wken, .wkcn, .wkdr], serving (asking r [0, 0]) 0 r = true ∧ param16 (asking r [0, 0]) 0 0 = 0 ∧
      serving (asking r [0, 9]) 0 r = true ∧ findOrder (asking r [0, 9]).cbc 9 = none) ∧
    (∀ st ∈ [OrderState.verifying, .closedGood], serving (withOrder (asking .wken [0, 7]) st) 0 .wken = true ∧
      findOrder (withOrder (asking .wken [0, 7]) st).cbc 7 = some 0) ∧
    serving (withOrder (asking .wkcn [0, 7]) .closedGood) 0 .wkcn = true ∧
    (∀ st ∈ [OrderState.opened, .verifying, .cancelled], serving (withOrder (asking .wkdr [0, 7]) st) 0 .wkdr = true ∧
      (withOrder (asking .wkdr [0, 7]) st).cbc.orders[0] = some (order0 st)) := by decide

/-- A port set of one byte: ports 0 to 7. -/
def setOf (low : Byte) : List Byte := [0, 0, 0, 0, 0, 0, 0, low]

theorem test_PortsAreAdopted :
    let s := asking .adpt (setOf 1)
    let t := { s with tcd := { s.tcd with decs := s.tcd.decs.set 0 { Decoder.reset with st := .locked tag0 none } } }
    serving (asking .adpt (setOf 0)) 0 .adpt = true ∧ portSet (asking .adpt (setOf 0)) 0 = [] ∧
    serving (withOrder s .opened) 0 .adpt = true ∧ portSet (withOrder s .opened) 0 = [0] ∧
    (withOrder s .opened).cbc.ports[0].hold ≠ none ∧ serving t 0 .adpt = true ∧ portSet t 0 = [0] ∧
    t.cbc.ports[0].hold = none ∧ t.populated 0 = true ∧ t.tcd.decs[0].tag = some tag0 := by decide

/-! ### Witnesses: protection -/

/-- READY with a group whose working member 1 has a monitor record. -/
def withMon (x : Mon) : State := withGroup ready (pair.putMon 1 x)

/-- A 1TN group of two members, member 1 forced, whose far end has not bridged. -/
def waiting : Group :=
  (({ GroupDef.fresh { kind := .oneToN, prot := 1, work := [0, 2], revertive := true, degSwitch := true, holdOff := 0,
                       wtr := 300 } with force := some 1, order := [1] }).settle ready 0).1

theorem test_ProtectionTimersRunOut_holdOff :
    let s := withMon { Mon.idle with timer := some 0 }
    s.start.ready = true ∧ s.prc.groups[0] = some (pair.putMon 1 { Mon.idle with timer := some 0 }) ∧
    1 ≤ pair.n ∧ ((pair.putMon 1 { Mon.idle with timer := some 0 }).mon 1).timer = some 0 := by decide
theorem test_ProtectionTimersRunOut_wtr :
    let g := { pair with wait := some (.restore 1 (some 0)), order := [1], selected := 1 }
    (withGroup ready g).prc.groups[0] = some g ∧ g.kind = .uni ∧ g.order = [1] ∧ g.manual = none ∧
    g.protRequests = [] ∧ g.memberRequests 1 = [⟨ordRestoreWait, 1⟩] := by decide
theorem test_ProtectionTimersRunOut_confirmation :
    (withGroup ready waiting).prc.groups[0] = some waiting ∧ waiting.confirm = .running 800 ∧ waiting.kind = .oneToN ∧
    groupSettled waiting = true ∧ groupOk waiting = true ∧ waiting.bridged ≠ 0 ∧ waiting.sigLost = false ∧
    waiting.farBridgedTaken ≠ waiting.bridged := by decide
theorem test_ProtectionTimersRunOut_starts :
    let far (n : Nat) : Group := { waiting with farBridged := n, confirm := .running 5 }
    waiting.kind = .oneToN ∧ ((waiting.settle ready 0).1).confirm = .running 800 ∧
    (((far 0).settle ready 0).1).confirm = .running 5 ∧ (((far 1).settle ready 0).1).confirm = .idle ∧
    (((far 1).settle ready 0).1).selected = 1 ∧
    ((({ far 2 with force := some 2, order := [2] } : Group).settle ready 0).1).selected = 2 ∧
    ((({ far 1 with force := some 2, order := [2] } : Group).settle ready 0).1).confirm = .running 800 ∧
    ((({ far 0 with sigLost := true } : Group).settle ready 0).1).selected = 1 ∧ pair.kind = .uni := by decide
/-- The port's outputs over a group, frozen outputs or neither. -/
theorem test_LineControlFrames_outputs :
    let s := withGroup ready { pair with selected := 1 }
    let frozen := { s.prc with frozen := s.prc.frozen.set 0 (some ⟨some 9, true, false⟩) }
    s.prc.groups[0] = some { pair with selected := 1 } ∧ pair.work[0]? = some 0 ∧ (pair.prot :: pair.work).Nodup ∧
    (∀ j : GroupIx, j ≠ 0 → s.prc.groups[j] = none) ∧ protOut s.prc 0 = ⟨some 1, true, true⟩ ∧
    protOut s.prc 1 = ⟨none, false, false⟩ ∧ protOut s.prc 2 = ⟨none, false, false⟩ ∧
    protOut frozen 0 = ⟨some 9, true, false⟩ := by decide
theorem test_TopAndWinningRequest_sent :
    let g := { pair with kind := .bi, top := ⟨ordManual, 1⟩, win := ⟨ordFail, 1⟩, side := .farEnd }
    g.sentFields = ⟨1, 1, 1⟩ ∧ { g with win := ⟨ordLockout, 0⟩ }.sentFields = ⟨4, 1, 1⟩ ∧
    { g with side := .both }.sentFields = ⟨4, 1, 1⟩ ∧ pair.sentFields = ⟨0, 0, 0⟩ := by decide
theorem test_ProtectionTimersRunOut_ports :
    let g := { pair with holdOff := 100 }
    let f := { pair.putMon 1 { Mon.idle with raised := some .fail } with order := [1], top := ⟨ordFail, 1⟩ }
    let w := { g with wait := some (.restore 1 (some 5)), order := [1] }
    (g.prot :: g.work)[0]? = some 1 ∧ (g.prot :: g.work)[1]? = some 0 ∧ (g.prot :: g.work).Nodup ∧ g.n ≤ 6 ∧
    (((prcPorts (withGroup ready g) [⟨0, .clear, .fail⟩]).1.groups[0]).map fun h => (h.mon 1).timer) = some (some 400) ∧
    (((prcPorts (withGroup ready w) [⟨0, .clear, .dark⟩]).1.groups[0]).map (·.wait)) = some (some (.restore 1 none)) ∧
    (((prcPorts (withGroup ready f) [⟨0, .fail, .clear⟩]).1.groups[0]).map (·.wait)) =
      some (some (.restore 1 (some 1200000))) ∧
    f.lockout = false ∧ f.force = none ∧ f.manual = none ∧ (f.mon 1).raised = some .fail ∧ f.wait = none := by decide
theorem test_ProtectionTimersRunOut_holds :
    let h := { pair.putMon 1 { timer := none, raised := none, held := true } with order := [1], top := ⟨ordWorkW, 1⟩ }
    (((prcHold (withGroup ready { pair with wait := some (.stay 1), order := [1] }) [0] true).1.groups[0]).map
      fun g => (g.wait, (g.mon 1).held, g.order)) = some (none, true, [1]) ∧
    (((prcHold (withGroup ready h) [0] false).1.groups[0]).map (·.wait)) = some (some (.restore 1 (some 1200000))) ∧
    h.mon 1 = { timer := none, raised := none, held := true } ∧
    (let s := withGroup ready { pair.putMon 1 { Mon.idle with timer := some 0 } with
       wait := some (.restore 1 none), order := [1] }
     s.start.ready = true ∧ s.pmon.ports[0].handed = .clear) := by decide
theorem test_ProtectionCommands_refused :
    (∀ r ∈ [Request.pslo, .psfs, .psms, .pscl],
      serving { asking r [0, 1] with rqu := { (asking r [0, 1]).rqu with loaded := false } } 0 r = true ∧
      serving (asking r [16, 1]) 0 r = true ∧ serving (asking r [15, 1]) 0 r = true ∧
      (asking r [15, 1]).prc.groups[15] = none) ∧
    (∀ r ∈ [Request.psfs, .psms], serving (withGroup (asking r [0, 0]) pair) 0 r = true ∧
      serving (withGroup (asking r [0, 2]) pair) 0 r = true) ∧
    pair.n = 1 ∧ { pair with lockout := true }.protRequests ≠ [] ∧
    { pair with force := some 1 }.above ordManual = true := by decide
theorem test_ProtectionCommands_accepted :
    (∀ r ∈ [Request.pslo, .psfs, .psms, .pscl], serving (withGroup (asking r [0, 1]) pair) 0 r = true ∧
      (withGroup (asking r [0, 1]) pair).rqu.loaded = true ∧
      (withGroup (asking r [0, 1]) pair).prc.groups[0] = some pair) ∧
    pair.protRequests = [] ∧ pair.above ordManual = false ∧ pair.force ≠ some 1 ∧ pair.kind = .uni := by decide
theorem test_TopAndWinningRequest_top :
    { pair with lockout := true }.formTop = ⟨ordLockout, 0⟩ ∧
    (pair.putMon 0 { Mon.idle with held := true }).formTop = ⟨ordHoldP, 0⟩ ∧
    (pair.putMon 0 { Mon.idle with raised := some .fail }).formTop = ⟨ordFailP, 0⟩ ∧
    { pair with manual := some 1, order := [1] }.formTop = ⟨ordManual, 1⟩ ∧ pair.formTop = ⟨ordIdle, 0⟩ := by decide
/-- Port 1 locked to a tag with switch fields: a request of a member that the pair does not have. -/
def faultyTag : State :=
  { ready with tcd := { ready.tcd with decs := ready.tcd.decs.set 1 { Decoder.reset with st := .locked tag0 none } } }

theorem test_TopAndWinningRequest_far :
    let g := { pair with kind := .bi }
    (g.readFar faultyTag).farReq = ⟨6, 2⟩ ∧ (g.readFar faultyTag).sigLost = false ∧
    (g.readFar faultyTag).farTaken = ⟨0, 0⟩ ∧ { g with farReq := ⟨6, 1⟩ }.farTaken = ⟨6, 1⟩ ∧
    { g with farReq := ⟨9, 0⟩ }.farTaken = ⟨9, 0⟩ ∧ { g with farReq := ⟨9, 1⟩ }.farTaken = ⟨0, 0⟩ ∧
    (g.readFar ready).sigLost = true ∧ (pair.readFar faultyTag).sigLost = false ∧
    .tcdReport [1] ∈ (prcTag (withGroup faultyTag g) 1).2 ∧ (withGroup faultyTag g).prc.groups[0] = some g := by decide
theorem test_TopAndWinningRequest_settled :
    let g := { pair with force := some 1, order := [1] }
    let x := prcSettle ready (prcBegin ready) 0 pair g false
    g.n ≤ 6 ∧ (x.prc.groups[0].map fun h => (h.selected, h.switches)) = some (1, 1) ∧ x.recs.length = 1 ∧
    x.alm.length ≠ 0 ∧ g.kind ≠ .oneToN ∧ g.work ≠ [] := by decide
theorem test_TopAndWinningRequest_win :
    arbitrate .uni ⟨0, 0⟩ ⟨9, 0⟩ = (⟨0, 0⟩, .localEnd) ∧ arbitrate .bi ⟨6, 1⟩ ⟨6, 1⟩ = (⟨6, 1⟩, .both) ∧
    arbitrate .bi ⟨6, 1⟩ ⟨5, 1⟩ = (⟨6, 1⟩, .localEnd) ∧ arbitrate .bi ⟨5, 1⟩ ⟨6, 1⟩ = (⟨6, 1⟩, .farEnd) ∧
    arbitrate .oneToN ⟨6, 1⟩ ⟨6, 2⟩ = (⟨6, 1⟩, .localEnd) ∧ arbitrate .oneToN ⟨6, 2⟩ ⟨6, 1⟩ = (⟨6, 1⟩, .farEnd) := by decide

/-! ### Witnesses: timing -/

/-- An enabled building clock with activity, in a state, with a window. -/
def clock (st : RefState) (w : Option Window) : RefRec :=
  { RefRec.reset with
    entry := { RefEntry.default with enable := true, priority := 1 }, state := st, active := true, cls := some 3, window := w }

/-- The state with reference 0 and whether the warm-up runs. -/
def withRef (s : State) (x : RefRec) (warm : Bool) : State :=
  { s with tsel := { s.tsel with refs := s.tsel.refs.set 0 x, warmUp := if warm then some 9 else none } }

/-- READY in a timing state, on a holdover value of 7, 24 h into holdover. -/
def timed (st : TimingState) : State :=
  { ready with tsel := { ready.tsel with
      state := st, holdValue := some 7, steer := some 0, age := 24 * 3600 * 4000, warmUp := some 0 } }

theorem test_ActivityIsLostAndRegained :
    (withRef ready (clock .measuring none) false).tsel.refs[0].active = true ∧
    (withRef ready { clock .disabled none with entry := .default } false).tsel.refs[0].active = true ∧
    (let x := (withRef ready { clock .unavailable none with active := false, edges := 7 } false).tsel.refs[0]
     x.active = false ∧ 79999 < 80000 ∧ 7 ≤ x.edges ∧ x.state = .unavailable ∧ x.entry.enable = true ∧
     x.entry.fromTag = false) ∧
    (let x := (withRef ready { clock .unavailable none with active := false, edges := 6 } false).tsel.refs[0]
     x.active = false ∧ x.edges < 7 ∧ x.state = .unavailable) ∧
    (withRef ready (clock .unavailable none) false).tsel.refs[0].active = true := by decide
theorem test_ActivityIsLostAndRegained_late :
    let x := (withRef ready (clock .qualified none) false).tsel.refs[0]
    x.active = true ∧ 80000 ≤ 80000 ∧ x.entry.enable = true ∧ x.state = .qualified := by decide
theorem test_ActivityIsLostAndRegained_late_states :
    ∀ st ∈ [RefState.measuring, .offsetOut], let x := (withRef ready (clock st (some ⟨5, 1⟩)) false).tsel.refs[0]
    x.active = true ∧ x.entry.enable = true ∧ x.state = st := by decide
theorem test_EdgesOfAWindow :
    (withRef ready (clock .measuring none) false).tsel.refs[0].window = none ∧
    (withRef ready (clock .qualified (some ⟨8190, 1⟩)) false).tsel.refs[0].window = some ⟨8190, 1⟩ ∧ 8190 + 1 < 8192 ∧
    (withRef ready (clock .unavailable none) false).tsel.refs[0].state = .unavailable ∧ ready.start.ready = true := by decide
theorem test_AWindowCompletes :
    (∀ st ∈ [RefState.measuring, .qualified, .offsetOut], ∀ warm,
      let s := withRef ready (clock st (some ⟨8191, 163820000⟩)) warm
      s.start.ready = true ∧ s.tsel.refs[0].active = true ∧ s.tsel.refs[0].window = some ⟨8191, 163820000⟩ ∧
      8192 ≤ 8191 + 1 ∧ s.tsel.refs[0].state = st ∧ s.tsel.refs[0].entry.accept = 15000 ∧
      s.tsel.refs[0].entry.hyst = 2000) ∧
    offsetOf (163820000 + 20000) = 0 ∧ (15000 : Int) < offsetOf (163820000 + 17542) ∧
    offsetOf (163820000 + 17543) ≤ 15000 ∧ 13000 < offsetOf (163820000 + 17869) ∧
    offsetOf (163820000 + 17870) = 13000 := by decide
theorem test_AWindowCompletes_steers :
    let s := withRef ready (clock .qualified (some ⟨8191, 163819984⟩)) false
    let at_ (st : TimingState) (n : Nat) (h : List Int) (gap : Nat) :=
      (tselEdge { s with tsel := { s.tsel with selected := some 0, state := st, unlimited := n, history := h } } 0 gap).1
    ready.rqu.shelf.slew = 1000 ∧ offsetOf (163819984 + 20000) = 98 ∧ offsetOf (163819984 + 19000) = 6201 ∧
    ((at_ .acquiring 0 [] 20000).state, (at_ .acquiring 0 [] 20000).unlimited) = (.acquiring, 1) ∧
    ((at_ .acquiring 1 [] 20000).state, (at_ .acquiring 1 [] 20000).history) = (.locked, [98]) ∧
    ((at_ .locked 2 [7] 20000).state, (at_ .locked 2 [7] 20000).history) = (.locked, [7, 98]) ∧
    ((at_ .locked 2 [7] 19000).state, (at_ .locked 2 [7] 19000).unlimited) = (.acquiring, 0) ∧
    (tselEdge s 0 20000).1.selected = some 0 ∧ (tselEdge s 0 20000).1.unlimited = 1 := by decide
theorem test_TimingTimersRunOut :
    (timed .holdover).start.ready = true ∧ (timed .holdover).tsel.warmUp ≠ none ∧ (timed .holdover).tsel.steer ≠ none ∧
    (timed .holdover).tsel.state = .holdover ∧ (timed .holdover).tsel.holdValue = some 7 ∧
    (timed .freeRun).tsel.state = .freeRun ∧ (timed .freeRun).rqu.shelf.trim = 0 ∧ (timed .holdover).tsel.aged = false ∧
    (timed .holdover).rqu.shelf.holdLimit * 3600 * 4000 ≤ (timed .holdover).tsel.age := by decide
theorem test_TimingCommands :
    (∀ r ∈ [Request.tmlk, .tmfs, .tmcl],
      serving { asking r [0] with rqu := { (asking r [0]).rqu with loaded := false } } 0 r = true ∧
      serving (asking r [5]) 0 r = true ∧ serving (asking r [6]) 0 r = true ∧
      (param8 (asking r [5]) 0 0).toNat = 5 ∧ 5 < (param8 (asking r [6]) 0 0).toNat ∧
      (asking r [5]).rqu.loaded = true) ∧
    (withRef (asking .tmfs [0]) (clock .qualified none) false).tsel.eligible 0 = true := by decide
theorem test_TheSelectedReference_moves :
    let t := { ready.tsel with selected := some 0, state := .locked, steering := 5 }
    let lost (h : List Int) := (reselect ready { tselBegin ready with tsel := { t with history := h } }).tsel
    t.choose true = none ∧ (lost [1, 2, 3]).holdValue = some 5 ∧ (lost [1, 2, 2, 5]).holdValue = some 3 ∧
    (lost []).state = .holdover ∧
    (reselect ready { tselBegin ready with tsel := (withRef ready (clock .qualified none) false).tsel }).tsel.state =
      .acquiring := by decide
/-- R115: HOLDOVER is offered before REFSWITCH. -/
theorem test_lost_reference_batch :
    let s := { ready with tsel := { ready.tsel with selected := some 0, state := .locked } }
    (tselEnd s (reselect s (tselBegin s))).2.head? = some (.alm [.offer .holdover 0, .event .refSwitch 0 (some 0) none]) := by
  decide
theorem test_TheSelectedReference_forms :
    let s := withGroup ready pair
    let x := clock .qualified none
    let e (k : BindKind) (n : Nat) := (tselEnd s { tselBegin s with tsel := { (withRef s { x with
      entry := { x.entry with bindKind := k, bindNum := n } } false).tsel with selected := some 0, state := .locked } }).1
    (e .none 0).doNotUse = [] ∧ (e .port 63).doNotUse = [63] ∧ (e .group 0).doNotUse = [1, 0] ∧ pair.work.length = 1 ∧
    (e .none 0).outClass = 3 ∧ (e .none 0).refs[0].cls = some 3 := by decide
theorem test_TheSelectedReference :
    let t := (withRef ready (clock .qualified none) false).tsel
    t.eligible 0 = true ∧ (∀ r : RefIx, ready.tsel.eligible r = false) ∧ ready.tsel.choose true = none ∧
    (∀ r : RefIx, r ≠ 0 → t.eligible r = false) ∧ t.choose true = some 0 ∧
    { t with force := some 0 }.choose false = some 0 ∧ { t with force := some 1 }.choose true = some 0 := by decide

/-! ### Witnesses: alarms, contacts, the journal -/

/-- An alarm in a state. -/
def alarm0 (st : AlarmState) : Alarm :=
  { type := .los, obj := 0, state := st, severity := .maj, ack := false, nsa := false, audible := false, raiseTime := 0,
    activeTime := none }

/-- The state with an alarm in the last entry. -/
def withAlarm (s : State) (x : Alarm) : State :=
  { s with alm := { s.alm with entries := s.alm.entries.set 127 { gen := 0, alarm := some x } } }

theorem test_SoaksRunOut :
    (withAlarm ready (alarm0 (.pending 0))).alm.entries[127].alarm = some (alarm0 (.pending 0)) ∧
    (withAlarm ready (alarm0 (.clearing 0))).alm.entries[127].alarm = some (alarm0 (.clearing 0)) ∧
    (withAlarm ready (alarm0 (.clearing 0))).start.ready = true := by decide
/-- An alarm table with that alarm alone, and a present set. -/
def tabled (st : AlarmState) (present : List (CondType × Nat)) : Alm :=
  let a := { (withAlarm ready (alarm0 st)).alm with present := present }
  { a with outputs := formOutputs a }

/-- READY with an alarm table. -/
def withTable (a : Alm) : State := { ready with alm := a }

theorem test_SoaksRunOut_tables :
    tableOk (tabled .active [(.los, 0)]) = true ∧ tableOk (tabled (.pending 5) [(.los, 0)]) = true ∧
    tableOk (tabled (.clearing 5) []) = true ∧ presentOk (tabled .active [(.los, 0)]).present = true := by decide +kernel
theorem test_SoaksRunOut_suppressed :
    let r := almBatch (withTable (tabled .active [(.los, 0)])) [.hold 0 true]
    r.1.suppressed .los 0 = true ∧ r.1.entries[127].alarm = none ∧
    .jrn [.alarmOff 127 .los 0 .maj .suppressed] ∈ r.2 := by decide +kernel
theorem test_SoaksRunOut_withdrawn :
    ((almBatch (withTable (tabled .active [(.los, 0)])) [.withdraw .los 0]).1.entries[127].alarm.map (·.state)) =
      some (.clearing 8000) := by decide +kernel
theorem test_SoaksRunOut_returns :
    ((almBatch (withTable (tabled (.clearing 5) [])) [.offer .los 0]).1.entries[127].alarm.map (·.state)) =
      some .active := by decide +kernel
theorem test_SoaksRunOut_candidate :
    let r := almBatch (withTable (tabled .active [(.los, 0)])) [.offer .cardOut 15, .event .switch 3 none (some 1)]
    r.1.entries[0].alarm.map (fun x => (x.type, x.obj, x.state)) = some (.cardOut, 15, .active) ∧
    r.1.isPresent .cardOut 15 = true ∧ r.1.suppressed .cardOut 15 = false ∧ r.1.entries[1].alarm = none ∧
    .jrn [.event .switch 3 (some (none, some 1)), .alarmOn 0 .cardOut 15 .maj false] ∈ r.2 := by decide +kernel
/-- The table of one ACTIVE alarm of severity MIN on port 0, MIN by the coverage of group 0 or by its type's profile. -/
def minTabled (nsa : Bool) (covered : Bool) : Alm :=
  let a := tabled .active [(.los, 0)]
  let b := { a with
    profile := if covered then a.profile else a.profile.set 0 ⟨.min, 0, 0⟩
    groups := if covered then a.groups.set 0 (some ⟨1, [0], 1⟩) else a.groups
    entries := a.entries.set 127 { gen := 0, alarm := some { alarm0 .active with severity := .min, nsa := nsa } } }
  { b with outputs := formOutputs b }

theorem test_SoaksRunOut_mark_alone :
    tableOk (minTabled false false) = true ∧
    let r := almBatch (withTable (minTabled false false)) [.group 0 (some ⟨1, [0], 1⟩)]
    (r.1.entries[127].alarm.map fun x => (x.severity, x.nsa, x.audible)) = some (.min, true, false) ∧
    .jrn [.severity 127 .los 0 .min .min true] ∈ r.2 := by decide +kernel
theorem test_SoaksRunOut_rises :
    tableOk (minTabled true true) = true ∧
    ((almBatch (withTable (minTabled true true)) [.group 0 none]).1.entries[127].alarm.map
      fun x => (x.severity, x.nsa, x.audible)) = some (.maj, false, true) := by decide +kernel
theorem test_SoaksRunOut_falls :
    let a := { tabled .active [(.los, 0)] with
      entries := ready.alm.entries.set 127 { gen := 0, alarm := some { alarm0 .active with audible := true } } }
    tableOk { a with outputs := formOutputs a } = true ∧
    ((almBatch (withTable { a with outputs := formOutputs a }) [.group 0 (some ⟨1, [0], 1⟩)]).1.entries[127].alarm.map
      fun x => (x.severity, x.nsa, x.audible)) = some (.min, true, false) := by decide +kernel

/-- A full table: a PENDING alarm in every entry. -/
def full : AlmWork :=
  { alm := { ready.alm with entries := Vector.replicate 128 { gen := 0, alarm := some (alarm0 (.pending 5)) } }
    recs := [], freed := [] }

theorem test_SoaksRunOut_full :
    (∀ j : EntryIx, full.alm.entries[j].alarm = some (alarm0 (.pending 5))) ∧
    (gradeOf ready full.alm .cardOut 0).1.rank = 2 ∧ (gradeOf ready full.alm .svcLoss 0).1.rank = 3 ∧
    (alarm0 (.pending 5)).severity.rank = 2 ∧ (alarm0 (.pending 5)).raiseTime ≤ ready.now ∧
    ((takeCandidate ready full (.svcLoss, 0)).alm.entries[0].alarm.map (·.type)) = some .svcLoss := by decide +kernel
theorem test_AlarmCommands_coverage :
    let copies (sel : Nat) := { ready.alm with groups := ready.alm.groups.set 0 (some ⟨1, [0], sel⟩) }
    gradeOf ready (copies 1) .los ((0 : Port) : Nat) = (.min, true) ∧
    gradeOf ready (copies 0) .los ((0 : Port) : Nat) = (.maj, false) ∧
    gradeOf ready (copies 0) .los ((1 : Port) : Nat) = (.min, true) ∧
    gradeOf ready (copies 0) .cardOut ((0 : Card) : Nat) = (.min, true) ∧
    gradeOf ready ready.alm .cardOut ((0 : Card) : Nat) = (.maj, false) := by decide
theorem test_AlarmCommands_profile :
    let s := withTable (tabled .active [(.los, 0)])
    let off := almProfile s 0 ⟨.off, 0, 0⟩
    off.1.entries[127].alarm = none ∧ .jrn [.alarmOff 127 .los 0 .maj .profile] ∈ off.2 ∧
    ((almProfile s 0 ⟨.crit, 0, 0⟩).1.entries[127].alarm.map (·.severity)) = some .crit := by decide +kernel
theorem test_AlarmCommands_becomes_tabled :
    let a := { ready.alm with
      profile := ready.alm.profile.set 0 ⟨.event, 200, 0⟩, present := [(.los, 0)] }
    let r := almProfile (withTable a) 0 ⟨.maj, 500, 0⟩
    (r.1.entries[0].alarm.map (·.state)) = some (.pending 800) ∧ r.1.entries[1].alarm = none ∧
    a.suppressed .los 0 = false ∧ (∀ i : EntryIx, a.entries[i].alarm = none) := by decide +kernel
theorem test_AlarmCommands :
    (∀ n ∈ [(126 : Byte), 127, 128], serving (asking .alak [0, n]) 0 .alak = true ∧
      param16 (asking .alak [0, n]) 0 0 = n.toNat) ∧
    param16 (asking .alak [0xFF, 0xFF]) 0 0 = 0xFFFF ∧ serving (asking .alak [0xFF, 0xFF]) 0 .alak = true ∧
    (withAlarm (asking .alak [0, 127]) (alarm0 .active)).alm.entries[127].alarm ≠ none ∧
    (asking .alak [0, 126]).alm.entries[126].alarm = none ∧ serving (asking .alco []) 0 .alco = true := by decide

/-- READY with input 0 in a role, its stable level and its pin, its debounce timer about to run out. -/
def withInput (role : ContactRole) (stable : Option Bool) (pin : Bool) : State :=
  { ready with ciu := ready.ciu.set 0 { ContactIn.reset pin with
      role := role, activeHigh := true, stable := stable, timer := some 0 } }

theorem test_ContactInputs_pin : State.reset.ciu[7].pin ≠ true ∧ ready.ciu[7].pin ≠ true := by decide
theorem test_ContactInputs_debounce :
    (∀ role ∈ [ContactRole.none, .aco, .frame, .generic], ∀ pin,
      let s := withInput role (some !pin) pin
      s.start.ready = true ∧ s.ciu[0].timer ≠ none ∧ s.ciu[0].role = role ∧ s.ciu[0].stable ≠ none ∧
      s.ciu[0].stable ≠ some s.ciu[0].pin) ∧
    (withInput .aco none true).ciu[0].stable = none ∧ (withInput .generic (some true) false).alm.present.Nodup := by decide

/-- A record of a sequence number. -/
def numbered (n : Nat) : JRecord := { seq := n, body := some (.lost 0), time := 0 }

/-- A journal in STOP mode holding `n` unreleased records, the newest with sequence number `n`, the one at position 0 with
sequence number 1, the others with 999. -/
def held (n lost : Nat) : Jrn :=
  { Jrn.reset with
    ring := ((Vector.replicate 256 (numbered 999)).set ((n + 255) % 256) (numbered n) (Nat.mod_lt _ (by decide))).set 0
      (numbered 1)
    stop := true, pos := n % 256, seq := n + 1, unrel := n, full := n == 256, lost := lost }

theorem test_TheJournalWritesByItsMode :
    jrnOk Jrn.reset = true ∧ jrnOk (held 0 0) = true ∧ jrnOk (held 255 0) = true ∧ jrnOk (held 256 65535) = true ∧
    (held 255 0).unrel < 256 ∧ (held 256 0).unrel = 256 ∧ (held 255 0).stop = true := by decide
theorem test_AReleaseOfRecords :
    jrnOk (held 2 0) = true ∧ (ringBack (held 2 0) 0).seq = 2 ∧ (ringBack (held 2 0) 1).seq = 1 ∧
    (∀ k, k < 2 → (ringBack (held 2 0) k).seq ≠ 3) ∧ Jrn.reset.stop = false := by decide
theorem test_AReleaseOfRecords_full :
    jrnOk (held 256 2) = true ∧ (held 256 2).full = true ∧ 0 < (held 256 2).lost ∧ (held 256 2).unrel = 256 := by decide
theorem test_AReleaseOfRecords_all : (ringBack (held 256 2) 0).seq = 256 := by simp [held, ringBack, numbered]
theorem test_AReleaseOfRecords_one :
    (ringBack (held 256 2) 255).seq = 1 ∧ ∀ k, k < 255 → (ringBack (held 256 2) k).seq ≠ 1 := by
  refine ⟨by simp [held, ringBack, numbered], fun k hk => ?_⟩
  have h : (0 + 255 - k) % 256 = 255 - k := by omega
  simp only [held, ringBack, numbered, Vector.getElem_set]
  split <;> rename_i h0
  · omega
  · split <;> simp

/-! ### Witnesses: taps and availability -/

/-- An enabled line reference with activity, bound to group 0, with a tap. -/
def lineRef (fromTag : Bool) (tap : Option Port) : RefRec :=
  { RefRec.reset with
    entry := { RefEntry.default with enable := true, fromTag := fromTag, bindKind := .group }, active := true, tap := tap }

theorem test_ActivityIsLostAndRegained_taps :
    let e := (lineRef false none).entry
    tapOf ready.prc e = none ∧ tapOf (withGroup ready pair).prc e = some 0 ∧
    tapOf (withGroup ready { pair with selected := 1 }).prc e = some 1 ∧
    tapOf ready.prc { e with bindKind := .port, bindNum := 63 } = some 63 ∧ pair.kind ≠ .oneToN ∧ pair.work = [0] ∧
    (moveTap ready 2 (some 0) (lineRef false none)).state = .measuring ∧
    (moveTap ready 2 (some 0) RefRec.reset).tap = some 0 := by decide
theorem test_ActivityIsLostAndRegained_causes :
    (judgeRef ready 2 { lineRef false none with active := false }).cause = some .noActivity ∧
    (judgeRef ready 2 (lineRef false none)).cause = some .noTap ∧
    (judgeRef ready 1 (lineRef false none)).state = .measuring ∧
    (judgeRef (linePort .fail) 2 (lineRef false (some 0))).cause = some .portFail ∧
    (judgeRef (linePort .degrade) 2 (lineRef false (some 0))).cause = none ∧
    (judgeRef (withOrder ready .opened) 2 (lineRef false (some 0))).cause = some .held ∧
    (judgeRef ready 2 (lineRef true (some 0))).cause = some .noClass ∧
    (judgeRef (lockedPort tag0) 2 (lineRef true (some 0))).cls = some 2 ∧
    (judgeRef (lockedPort { tag0 with cls := 7 }) 2 (lineRef true (some 0))).cause = some .noClass ∧
    (judgeRef ready 2 { lineRef false (some 0) with state := .qualified, run := 4 }).run = 4 := by decide

/-! ### Witnesses: the host port -/

/-- READY with a held byte. -/
def holding (a : Addr) : State := { ready with hpi := { ready.hpi with held := some (a, 1) } }

theorem test_BytesMakeWords_held :
    State.reset.start.ready = false ∧ ready.hpi.held = none ∧ (holding 0x300).hpi.held = some (0x300, 1) ∧
    evenOf 0x300 ≠ evenOf 0x302 := by decide
theorem test_BytesMakeWords_holding (a : Addr) : (holding a).hpi.held = some (a, 1) ∧ (holding a).start.ready = true := by
  exact ⟨rfl, rfl⟩
theorem test_BytesMakeWords_low_regions :
    ([0x0, 0xFE, 0x100, 0x2FE, 0x300, 0x12FE, 0x1300, 0x39FE, 0x3A00] : List Addr).all (fun a =>
      a != a + 1 && evenOf a == evenOf (a + 1) && evenOf a == a) = true := by decide
theorem test_BytesMakeWords_high_regions :
    ([0x3A02, 0x7FEE, 0x7FF0, 0x7FF4, 0x7FF6, 0x7FF8, 0x7FFA, 0x7FFC, 0x7FFE] : List Addr).all (fun a =>
      a != a + 1 && evenOf a == evenOf (a + 1) && evenOf a == a) = true := by decide
theorem test_BytesMakeWords_slots :
    memWf ready.mem = true ∧ ready.rqu.slots[0] = .free ∧ memWf (asking .alco []).mem = true ∧
    (asking .alco []).rqu.slots[0] = .busy := by decide
theorem test_ASecondCodeWordArrives :
    (holding 0x2C2).hpi.held = some (0x2C2, 1) ∧ (0x2C2 : Addr) ≠ 0x2C3 ∧ evenOf 0x2C2 = evenOf 0x2C3 ∧
    (evenOf 0x2C3).toNat = slotBase 7 + 2 ∧ ready.rqu.slots[7] = .free ∧ ready.rqu.exec = none ∧
    (∀ j : SlotIx, ready.rqu.slots[j] ≠ .queued) ∧ memWf (asking .alco []).mem = true ∧
    (asking .alco []).rqu.exec = some 0 := by decide
/-- READY on a strap for the serial host port. -/
def serialStrap : State := { ready with straps := { ready.straps with parallel := false } }

/-- A serial run of writes whose next byte is at an address. -/
def running (a : Addr) : State :=
  { serialStrap with hpi := { serialStrap.hpi with run := some { write := true, next := a }, held := some (0x2C2, 1) } }

theorem test_hostPort_selected :
    handedAddr ready true (.strobe 0x2C3) = some 0x2C3 ∧ handedAddr ready true (.start 0x2C3) = none ∧
    handedAddr ready true .next = none ∧ handedAddr serialStrap true (.strobe 0x2C3) = none ∧
    handedAddr serialStrap false (.start 0x7FFF) = some 0x7FFF ∧ handedAddr serialStrap true .next = none ∧
    handedAddr (running 0x2C3) true .next = some 0x2C3 ∧ handedAddr (running 0x2C3) false .next = none := by decide
theorem test_hostPort_run :
    (pastByte serialStrap true (.start 0x7FFE) 0x7FFE).hpi.run = some ⟨true, 0x7FFF⟩ ∧
    (pastByte (running 0x7FFF) true .next 0x7FFF).hpi.run = some ⟨true, 0⟩ ∧
    (pastByte (running 5) true (.strobe 9) 9).hpi.run = some ⟨true, 5⟩ := by decide
theorem test_BytesReadTheirWord :
    let s := { ready with hpi := { ready.hpi with snap := some (0x300, 7) } }
    ready.hpi.snap = none ∧ s.hpi.snap = some (0x300, 7) ∧ evenOf 0x300 = evenOf 0x301 ∧ (0x300 : Addr) ≠ 0x301 ∧
    evenOf 0x300 ≠ evenOf 0x302 := by decide

theorem test_BytesReadTheirWord_layout :
    ready.start.ready = true ∧ State.reset.start.ready = false ∧ State.reset.populated 0 = true ∧
    spmWord ready 0x1302 = 0x0405 ∧ spmWord ready 0x1B04 = 0xFFFF ∧ spmWord (withOrder ready .opened) 0x1E02 = 7 ∧
    spmWord (withOrder ready .opened) 0x1E04 = 0x010F ∧ spmWord (withOrder ready .opened) 0x1E16 = 0xC000 ∧
    spmWord ready 0x1D02 = 0x04FF ∧ spmWord ready 0x2200 = 0 ∧ spmWord ready 0x2A00 = 0 ∧ spmWord State.reset 0x1302 = 0 ∧
    (deliver (.pmonPower 0 2520 true) ready).1.gens.ports[0] = 2 := by decide
theorem test_BytesReadTheirWord_memory :
    ∀ a ∈ [0x100, 0x2FE, 0x300, 0x12FE, 0x3A00],
      let s := { ready with mem := memWriteAll [] a [1, 2] }
      s.start.ready = true ∧ a % 2 = 0 ∧ memWf s.mem = true ∧ spmWord s a = 0x0102 := by decide +kernel
theorem test_BytesReadTheirWord_journal :
    let s (n lost : Nat) := { ready with jrn := held n lost }
    let after (s : State) (v : Nat) := (putJrn s (jrnRelease s v)).1
    spmWord (after (s 2 0) 9) 0x1A ≠ spmWord (s 2 0) 0x1A ∧ (after (s 2 0) 9).jrn.gen = 2 ∧
    (after (s 2 0) 1).jrn.gen = 2 ∧ (after (s 2 0) 2).jrn.gen = 2 ∧ (after ready 5).jrn.gen = 0 ∧
    (deliver (.jrn [.lost 1]) (s 2 0)).1.jrn.gen = 2 := by decide +kernel
theorem test_BytesReadTheirWord_alarms :
    let s := withTable (tabled .active [(.los, 0)])
    spmWord (deliver (.alm [.withdraw .los 0]) s).1 0x29F0 = 2 ∧
    spmWord (deliver (.alm [.offer .cardOut 15]) s).1 0x2200 = 2 := by decide +kernel

/-! ### Witnesses: requests, loads, calibration -/

theorem test_OnlyARequestInExecutionActs :
    (let s := { asking .alco [] with mem := [] }
     executing s 0 none = true ∧ s.rqu.slots[0] = .busy ∧ memWf s.mem = true) ∧
    executing ready 0 (some .alco) = false ∧ executing ready 0 none = false := by decide

/-- The load of one entry at staging offset 0 into entry 0. -/
def loading (r : Request) (entry : List Byte) : State := staged r [0, 0, 0, 1] entry

/-- One shelf record, profile, port, cabling, group, reference, alarm and contact entry. -/
def goodEntry : Request → List Byte
  | .ldsh => [0, 5, 1, 1, 1, 244, 5, 8, 3, 232, 0, 0, 24, 4, 6, 0]
  | .ldpt => [1, 7, 0, 0, 0xFB, 0x3C]
  | .ldcr => [1, 5, 0x12, 0x34]
  | .ldpg => [0, 0, 0, 0, 0, 0, 0, 0, 0, 0, 0, 0, 0, 0]
  | .ldtr => [1, 1, 0, 3, 0x3A, 0x98, 7, 0xD0, 4, 0, 0, 0]
  | .ldap => [5, 0, 0, 100, 0, 100]
  | .ldci => [3, 0, 1, 20]
  | _ => [4, 2, 12, 1, 144, 0xF2, 0x54, 3, 1, 44, 2, 88, 0, 50, 8, 0]

/-- A structural fault of each table that has one. -/
def badEntry : Request → List Byte
  | .ldsh => [0, 5, 2, 1, 1, 244, 5, 8, 3, 232, 0, 0, 24, 4, 6, 0]
  | .ldpt => [3, 7, 0, 0, 0xFB, 0x3C]
  | .ldcr => [1, 64, 0x12, 0x34]
  | .ldpg => [4, 0, 0, 0, 0, 0, 0, 0, 0, 0, 0, 0, 0, 0]
  | .ldtr => [1, 9, 0, 3, 0x3A, 0x98, 7, 0xD0, 4, 0, 0, 0]
  | .ldap => [6, 0, 0, 100, 0, 100]
  | _ => [4, 0, 1, 20]

/-- What a table reads of the staged entry. -/
def taken (r : Request) (s : State) : Bool :=
  let e (n : Nat) := memBytes s.mem 0x300 n
  match r with
  | .ldsh => (readShelf (e 16)).isSome
  | .ldpt => (readPort s 0 (e 6)).isSome
  | .ldcr => (readCabling s 0 (e 4)).isSome
  | .ldpg => (readGroup s 0 (e 14)).isSome
  | .ldtr => (readRef s 0 (e 12)).isSome
  | .ldap => (readAlarm 0 (e 6)).isSome
  | .ldci => (readContact (e 4)).isSome
  | _ => true

theorem test_loads :
    ∀ r ∈ [Request.ldsh, .ldpf, .ldpt, .ldcr, .ldpg, .ldtr, .ldap, .ldci],
      serving (loading r (goodEntry r)) 0 r = true ∧ param16 (loading r (goodEntry r)) 0 0 = 0 ∧
      param8 (loading r (goodEntry r)) 0 3 = 1 ∧ taken r (loading r (goodEntry r)) = true ∧
      (r ≠ .ldpf → taken r (loading r (badEntry r)) = false) := by decide
theorem test_loads_ranges :
    (staged .ldpf [0x0F, 0xF0, 7, 1] []).rqu.exec = some 0 ∧ param16 (staged .ldpf [0x0F, 0xF0, 7, 1] []) 0 0 + 16 = 4096 ∧
    7 + 1 ≤ Table.profiles.entries ∧ ¬(8 + 1 ≤ Table.profiles.entries) ∧
    param16 (staged .ldpf [0x0F, 0xF2, 7, 1] []) 0 0 + 16 = 4098 ∧
    (loadProfile (loading .ldpf (goodEntry .ldpf)) 0 (goodEntry .ldpf)).isSome = true ∧
    (loadPort (loading .ldpt (badEntry .ldpt)) 0 (badEntry .ldpt)).isNone = true := by decide
theorem test_loads_base_modes :
    (readPort ready 0 [1, 7, 0, 0, 0xFB, 0x3C]).map (·.1.base) = some (.value (-1220)) ∧
    (readPort ready 0 [1, 7, 1, 0, 0, 0]).map (·.1.base) = some .absent ∧
    (readPort ready 0 [1, 7, 2, 0, 0, 0]).map (·.1.base) = some .keep := by decide
theorem test_AnEntryOfTheFirstTables_shelf :
    let e := (goodEntry .ldsh).set 7 4
    let s := { loading .ldsh e with tsel := (timed .holdover).tsel }
    ((readShelf e).map fun x => (x.1.warmUp, x.1.holdLimit)) = some (4, 24) ∧ s.rqu.shelf.warmUp = 8 ∧
    s.tsel.warmUp ≠ none ∧ s.start.periods < 4 * 4096 ∧ s.tsel.state = .holdover ∧ s.tsel.aged = false ∧
    24 * 14400000 ≤ s.tsel.age ∧ ¬(25 * 14400000 ≤ s.tsel.age) ∧
    (let u := { s with start := { s.start with periods := 4 * 4096 } }
     4 * 4096 ≤ u.start.periods ∧ serving u 0 .ldsh = true ∧ memBytes u.mem 0x300 16 = e) := by decide +kernel
/-- The pair's definition, of a kind, and the pair settled. -/
def pairDef (kind : GroupKind) : GroupDef :=
  { kind := kind, prot := 1, work := [0], revertive := true, degSwitch := true, holdOff := 0, wtr := 300 }
def settledPair : Group := (pair.settle ready 0).1

theorem test_AnEntryOfTheOtherTables_groups :
    (pairDef .uni).work.length = 1 ∧ ((pairDef .uni).prot :: (pairDef .uni).work).Nodup ∧ ready.prc.groups[0] = none ∧
    (prcLoad ready 0 (some (pairDef .uni))).1.groups[0].isSome = true ∧
    (let s := { ready with prc := { ready.prc with frozen := ready.prc.frozen.set 0 (some ⟨some 1, true, true⟩) } }
     ((prcLoad s 0 (some (pairDef .uni))).1.groups[0].map fun h => (h.order, h.selected, h.switches)) =
       some ([1], 1, 0) ∧ s.cbc.ports[0].hold = none ∧ s.pmon.ports[0].handed = .clear) ∧
    groupOk settledPair = true ∧ groupSettled settledPair = true ∧
    (withGroup ready settledPair).prc.groups[0] = some settledPair ∧
    (pairDef .uni).kind = settledPair.kind ∧ (pairDef .bi).kind ≠ settledPair.kind ∧
    (prcLoad (withGroup ready settledPair) 0 none).1.groups[0] = none := by decide
/-- A qualified line reference with a tap, a window, a run and a last offset. -/
def running0 : RefRec :=
  { lineRef false (some 0) with state := .qualified, run := 4, last := some 7, window := some ⟨5, 6⟩ }

/-- What the load of an entry leaves of its state, run, last offset and tap. -/
def reloaded (e : RefEntry) : RefState × Nat × Option Int × Option Port :=
  let y := loadRef (withGroup ready pair) 2 e running0
  (y.state, y.run, y.last, y.tap)

theorem test_AnEntryOfTheOtherTables_kept :
    let e := running0.entry
    e.enable = true ∧ reloaded e = (.qualified, 4, some 7, some 0) ∧
    reloaded { e with accept := 1000 } = (.qualified, 4, some 7, some 0) ∧
    reloaded { e with fixedCls := 5 } = (.qualified, 4, some 7, some 0) := by decide
theorem test_AnEntryOfTheOtherTables_moved :
    let e := running0.entry
    reloaded { e with bindKind := .port, bindNum := 9 } = (.measuring, 0, none, some 9) ∧
    reloaded { e with bindNum := 1 } = (.unavailable, 0, none, none) ∧
    reloaded { e with fromTag := true } = (.unavailable, 0, some 7, some 0) := by decide
theorem test_AnEntryOfTheOtherTables_enabled :
    let e := running0.entry
    reloaded { e with enable := false } = (.disabled, 0, none, some 0) ∧
    (loadRef ready 2 e { running0 with entry := { e with enable := false }, state := .disabled }).state = .measuring := by
  decide
theorem test_AnEntryOfTheOtherTables_contacts :
    let s := withInput .none (some true) true
    presentOk s.alm.present = true ∧ s.ciu[0].stable = some true ∧
    (ciuLoad s 0 .generic 0 true 20).2 = [.alm [.offer .contact 0]] ∧
    (ciuLoad (withInput .generic (some true) true) 0 .generic 0 false 20).2 = [.alm [.withdraw .contact 0]] := by decide
theorem test_hostPort_run_starts :
    ∃ t, exec (.hostByteWrite (.start 0x7FFF) 1) serialStrap = .next t ∧ t.hpi.run = some ⟨true, 0⟩ ∧
      t.hpi.held = some (0x7FFF, 1) := ⟨_, rfl, rfl, rfl⟩
theorem test_ATableIsReadBack_entries :
    shelfOk (.default 5) = true ∧ profileOk .default = true ∧ alarmProfileOk 0 AlarmProfile.defaults[0] = true ∧
    alarmProfileOk 15 ⟨.crit, 0, 0⟩ = false ∧ alarmProfileOk 15 ⟨.event, 0, 0⟩ = true ∧ contactOk 7 255 = true ∧
    timesOk 10000 1800 = true ∧ refEntryOk 0 RefEntry.default = true ∧
    (readRef ready 5 (refBytes RefEntry.default)).isSome = true ∧
    (readCabling ready 0 (cablingBytes ⟨.tag, 63, 5⟩)).isSome = true ∧
    (readPort ready 0 (portBytes ready 0)).isSome = true := by decide
/-- READY, ports 0 and 1 LINE ports. -/
def linePair : State :=
  let line := { PortRec.reset with role := .line }
  { ready with pmon := { ready.pmon with ports := (ready.pmon.ports.set 0 line).set 1 line } }

theorem test_ATableIsReadBack_standing :
    linePair.populated 1 = true ∧ (∀ r : RefIx, linePair.tsel.refs[r].entry.bindKind = .none) ∧
    (∀ j : GroupIx, linePair.prc.groups[j] = none) ∧ timesOk pair.holdOff pair.wtr = true ∧ pair.work.length = 1 ∧
    (∀ p ∈ pair.prot :: pair.work, linePair.pmon.ports[p].role = .line) := by decide
theorem test_ATableIsReadBack_groups :
    readGroup linePair 0 (groupBytes (some pair)) = some (some (pairDef .uni), 0) := by decide +kernel
theorem test_ATableIsReadBack_bytes :
    entryBytes ready .profiles 7 = goodEntry .ldpf ∧
    entryBytes { ready with straps := ⟨false, 0, true⟩ } .ports 63 = [0, 0, 1, 0, 0, 0] ∧
    entryBytes ready .groups 15 = [0, 0, 0, 0xFF, 0xFF, 0xFF, 0xFF, 0xFF, 0xFF, 0, 0, 0, 0, 0] ∧
    entryBytes (withGroup ready pair) .groups 0 = [1, 1, 1, 0, 0xFF, 0xFF, 0xFF, 0xFF, 0xFF, 3, 0, 0, 1, 44] ∧
    entryBytes (atPort rec0) .ports 0 = [0, 0, 0, 0, 0xFC, 0x18] ∧ rec0.baseline = some (-1000) := by decide
theorem test_ATableIsReadBack_clamps :
    readGroup ready 0 (groupBytes none) = some (none, 1) ∧
    readAlarm 0 [2, 0, 0x27, 0x75, 0, 99] = some (⟨.maj, 10000, 0⟩, 2) ∧
    readContact [3, 7, 1, 0] = some (⟨.generic, 7, true, 1⟩, 1) ∧
    readPort ready 0 [0, 7, 0, 0, 0x7F, 0xFF] = some (⟨.spare, 7, .value 1000⟩, 1) := by decide
theorem test_ATableIsReadBack_clamps_shelf :
    readShelf [0, 5, 1, 1, 0, 99, 0, 65, 3, 232, 0x80, 0, 73, 7, 0, 9] =
      some (⟨5, true, true, 100, 1, 64, 1000, -5000, 72, 6, 1⟩, 7) := by decide +kernel
theorem test_ATableIsReadBack_clamps_reference :
    (readRef ready 5 [1, 8, 0, 3, 0x04, 0xB0, 0x0F, 0xA0, 0, 0, 0, 0]).map (fun x => (x.1.hyst, x.1.stab, x.2)) =
      some (700, 1, 2) := by decide
theorem test_ATableIsReadBack_clamps_profile :
    (let r := readProfile [0, 16, 3, 0, 49, 0, 1, 9, 0, 50, 0, 99, 0, 99, 0, 0]
     (r.1.limit, r.1.degThr, r.1.failThr, r.1.hyst, r.2) = (50, 50, 100, 40, 9)) := by decide
theorem test_ATableIsReadBack_bindings :
    bindable (withGroup linePair pair) .group 0 = true ∧ bindable linePair .port 0 = true := by decide
theorem test_loads_expectation_changes :
    CabRec.reset.expect.kind ≠ ExpKind.tag ∧ goodEntry .ldcr = cablingBytes ⟨.tag, 5, 0x1234⟩ := by decide
theorem test_ATableIsReadBack :
    serving (asking .rdtb [0, 0, 0, 1, 8]) 0 .rdtb = true ∧ tableOf 8 = none ∧ tableOf 7 = some .contacts ∧
    serving (asking .rdtb [0, 0, 7, 1, 7]) 0 .rdtb = true ∧ (param8 (asking .rdtb [0, 0, 7, 1, 7]) 0 4).toNat = 7 ∧
    7 + 1 ≤ Table.contacts.entries ∧ 0 + 1 * Table.contacts.size ≤ 4096 ∧
    (asking .rdtb [0, 0, 7, 1, 7]).ciu[7].debounce = 20 := by decide

/-- A CALB of ports 0 to 7 as a byte, at an offset. -/
def askingCalb (low hi lo : Byte) : State := asking .calb (setOf low ++ [hi, lo])

/-- CALB of port 0 in a port state. -/
def calbPort (h : PortState) : State :=
  let s := askingCalb 1 0 0
  { s with pmon := { s.pmon with ports := s.pmon.ports.set 0 { s.pmon.ports[0] with handed := h } } }

theorem test_ACalibrationJobStarts :
    serving (askingCalb 0 0 0) 0 .calb = true ∧ portSet (askingCalb 0 0 0) 0 = [] ∧
    param16 (askingCalb 1 0x0F 0xC1) 0 8 = 4033 ∧ param16 (askingCalb 1 0x0F 0xC0) 0 8 + 64 = 4096 ∧
    portSet (askingCalb 1 0x0F 0xC0) 0 = [0] ∧ (askingCalb 1 0 0).populated 0 = true ∧
    (askingCalb 1 0 0).rqu.jobs.length < 2 ∧ (askingCalb 1 0 0).cbc.ports[0].hold = none ∧
    (withOrder (askingCalb 1 0 0) .opened).cbc.ports[0].hold ≠ none ∧
    (askingCalb 1 0 0).pmon.ports[0].handed = .clear ∧
    (let s := { asking .calb ([1, 0, 0, 0, 0, 0, 0, 0] ++ [0, 0]) with straps := ⟨false, 0, true⟩ }
     serving s 0 .calb = true ∧ portSet s 0 = [56] ∧ s.populated 56 = false) := by decide

theorem test_ACalibrationJobStarts_full :
    let s := askingCalb 1 0 0
    let t := { s with rqu := { s.rqu with jobs := [⟨1, [5], 0⟩, ⟨2, [6], 64⟩] } }
    serving t 0 .calb = true ∧ portSet t 0 = [0] ∧ param16 t 0 8 + 64 ≤ 4096 ∧ t.populated 0 = true ∧
    2 ≤ t.rqu.jobs.length := by decide
theorem test_ACalibrationJobStarts_outcomes (h : PortState) :
    serving (calbPort h) 0 .calb = true ∧ portSet (calbPort h) 0 = [0] ∧ (calbPort h).populated 0 = true ∧
    (calbPort h).rqu.jobs.length < 2 ∧ (calbPort h).cbc.ports[0].hold = none ∧ (calbPort h).pmon.ports[0].handed = h := by
  cases h <;> decide

/-- The state with a calibration job of port 0 in slot 1, with an outcome or still collecting. -/
def withJob (s : State) (o : Option CalOutcome) : State :=
  { s with
    rqu := { s.rqu with slots := s.rqu.slots.set 1 .busy, jobs := [⟨1, [0], 4032⟩] }
    pmon := { s.pmon with
      outcomes := s.pmon.outcomes.set 0 o
      ports := s.pmon.ports.set 0 { rec0 with cal := if o.isNone then some ⟨1, 3, 0⟩ else none } } }

theorem test_ACalibrationJobEnds :
    let s := withJob ready (some .calibrated)
    s.start.ready = true ∧ memWf s.mem = true ∧ jobIn s 1 = some ⟨1, [0], 4032⟩ ∧ 4032 + 64 ≤ 4096 ∧
    s.pmon.outcomes[0] ≠ none := by decide
theorem test_ARequestIsAborted :
    (∀ n ∈ [(0 : Byte), 1, 7, 8], serving (asking .abrt [n]) 0 .abrt = true ∧
      (param8 (asking .abrt [n]) 0 0).toNat = n.toNat) ∧
    (let s := asking .abrt [1]
     { s with rqu := { s.rqu with slots := s.rqu.slots.set 1 .queued } }.rqu.slots[1] = .queued) ∧
    (let s := withJob (asking .abrt [1]) none
     serving s 0 .abrt = true ∧ s.rqu.slots[1] = .busy ∧ jobIn s 1 = some ⟨1, [0], 4032⟩ ∧
     s.pmon.outcomes[0] = none ∧ s.pmon.ports[0].cal ≠ none) ∧
    (asking .abrt [0]).rqu.slots[0] = .busy ∧ jobIn (asking .abrt [0]) 0 = none ∧
    (asking .abrt [7]).rqu.slots[7] = .free := by decide

/-! ### Witnesses: resets, invariants -/

theorem test_TheH3EntersReady :
    State.reset.start.ready = false ∧ State.reset.tsel.holdover = decide (State.reset.tsel.state = .holdover) ∧
    State.reset.tsel.freeRun = State.reset.tsel.runsFree ∧
    (let s := { State.reset with tsel := (timed .holdover).tsel }
     s.start.ready = false ∧ s.tsel.holdover = false ∧ s.tsel.state = .holdover) := by decide
theorem test_AWarmRestart_holdover :
    (timed .holdover).start.ready = true ∧ memWf (timed .holdover).mem = true ∧ (timed .holdover).tsel.state = .holdover ∧
    (timed .holdover).tsel.age ≠ 0 := by decide
theorem test_AWarmRestart :
    State.reset.start.ready = false ∧ (asking .alco []).start.ready = true ∧ memWf (asking .alco []).mem = true ∧
    (asking .alco []).rqu.slots[0] = .busy ∧ (asking .alco []).rqu.slots[1] = .free ∧
    (timed .freeRun).tsel.state = .freeRun ∧ (timed .locked).tsel.state = .locked := by decide

/-- A state with a group, an order and a held port that meets the invariants, for the statements of what every step
keeps. -/
def standing : State := withOrder (withGroup ready waiting) .opened

theorem test_invariants_orders : cbcOk standing.cbc = true := by decide
theorem test_invariants_groups : prcSettled standing.prc = true := by decide
theorem test_invariants_timing : tselOk standing.tsel = true ∧ tspOk standing = true := by decide
theorem test_invariants_journal : jrnOk standing.jrn = true ∧ jrnOk (held 256 2) = true := by decide
theorem test_invariants_memory : hostOk standing = true ∧ hostOk (asking .alco [0, 7]) = true := by decide
theorem test_invariants_profiles : profileOk Profile.default = true ∧ portOk rec0 = true ∧ portOk PortRec.reset = true := by
  decide
theorem test_invariants_ports : pmonOk standing.pmon = true ∧ portsFormed standing.pmon = true := by decide
theorem test_invariants_empty_table (a : Alm) (h : ∀ (i : Nat) (hi : i < 128), a.entries[i].alarm = none) :
    tableOk a = true ↔ presentOk a.present = true ∧ a.outputs = formOutputs a := by
  simp [tableOk, almOk, noTwins, h, and_comm]
theorem test_invariants_alarms : tableOk standing.alm = true := by
  rw [test_invariants_empty_table]
  · decide
  · intro i hi
    simp [standing, withOrder, withGroup, ready, State.reset, State.cold, Alm.reset]
theorem test_invariants_step : step { standing with pending := [.lcpFrame] } = exec .lcpFrame standing := rfl

end Sys2Proof.Tests
end

