-- ==== Sys2Proof/Proofs/Powers.lean ====
section
/-! What keeps a port's powers in range: the two roundings, and the stages of a sample (R3 to R17). -/

namespace Sys2Proof.Proofs

open Sys2Proof.Machine Sys2Proof.Safety

/-! ### Ranges -/

theorem inPower_iff (x : Int) : inPower x = true ↔ -5000 ≤ x ∧ x ≤ 1000 := by simp [inPower]

/-- R13: the running sum of a calibration is one of as many powers as its count says, and the count is below 64. -/
structure SumOfPowers (c : CalRec) : Prop where
  count : c.count ≤ 63
  low : -5000 * (c.count : Int) ≤ c.sum
  high : c.sum ≤ 1000 * (c.count : Int)

/-- `portOk`, field by field. -/
structure PowersOk (r : PortRec) : Prop where
  power : inPower r.power = true
  smoothed : ∀ x, r.smoothed = some x → inPower x = true
  baseline : ∀ x, r.baseline = some x → inPower x = true
  cal : ∀ c, r.cal = some c → SumOfPowers c

theorem sumOfPowers_iff (c : CalRec) :
    SumOfPowers c ↔ c.count ≤ 63 ∧ -5000 * (c.count : Int) ≤ c.sum ∧ c.sum ≤ 1000 * (c.count : Int) :=
  ⟨fun ⟨h1, h2, h3⟩ => ⟨h1, h2, h3⟩, fun ⟨h1, h2, h3⟩ => ⟨h1, h2, h3⟩⟩

theorem portOk_iff (r : PortRec) : portOk r = true ↔ PowersOk r := by
  simp only [portOk, Bool.and_eq_true, Option.all_eq_true, decide_eq_true_eq, ← sumOfPowers_iff]
  exact ⟨fun ⟨⟨⟨h1, h2⟩, h3⟩, h4⟩ => ⟨h1, h2, h3, h4⟩, fun ⟨h1, h2, h3, h4⟩ => ⟨⟨⟨h1, h2⟩, h3⟩, h4⟩⟩

theorem profileOk_iff (f : Profile) : profileOk f = true ↔
    (1 ≤ f.alpha ∧ f.alpha ≤ 16) ∧ (0 ≤ f.beta ∧ f.beta ≤ 15) ∧ (4 ≤ f.k ∧ f.k ≤ 12) ∧
    (f.limit = 0 ∨ 50 ≤ f.limit ∧ f.limit ≤ 3000) ∧ (-5000 ≤ f.losThr ∧ f.losThr ≤ 0) ∧ (1 ≤ f.losN ∧ f.losN ≤ 8) ∧
    (50 ≤ f.degThr ∧ f.degThr ≤ 2000) ∧ (f.degThr + 50 ≤ f.failThr ∧ f.failThr ≤ 3000) ∧
    (10 ≤ f.hyst ∧ f.hyst ≤ 500) ∧ f.hyst ≤ f.degThr - 10 ∧ 1 ≤ f.defN ∧ f.defN ≤ 255 := by
  simp only [profileOk, Bool.and_eq_true, decide_eq_true_eq, and_assoc]

/-- R18: the weights of a profile within its ranges are fractions of at most one, 16ths and 64ths. -/
theorem profileOk_weights {f : Profile} (h : profileOk f = true) :
    (0 ≤ f.alpha ∧ f.alpha ≤ 16) ∧ 0 ≤ f.beta ∧ f.beta ≤ 64 := by
  obtain ⟨halpha, hbeta, -⟩ := (profileOk_iff f).1 h
  omega

/-! ### Roundings -/

theorem truncAtLeastOne_neg (a b : Int) : truncAtLeastOne (-a) b = -truncAtLeastOne a b := by
  simp only [truncAtLeastOne, Int.neg_tdiv, Int.sign_neg, neg_eq_zero]
  split <;> rfl

/-- A weight of at most one moves a distance that is not negative no further than the distance. -/
theorem truncAtLeastOne_weighted {d w n : Int} (hd : 0 ≤ d) (hw : 0 ≤ w) (hwn : w ≤ n) (hn : 0 < n) :
    0 ≤ truncAtLeastOne (d * w) n ∧ truncAtLeastOne (d * w) n ≤ d := by
  have h0 : 0 ≤ d * w := Int.mul_nonneg hd hw
  unfold truncAtLeastOne
  split
  · rcases hd.eq_or_lt with rfl | hpos
    · simp
    · rcases h0.eq_or_lt with h | h
      · simp [← h, hd]
      · rw [Int.sign_eq_one_of_pos h]; omega
  · refine ⟨Int.tdiv_nonneg h0 hn.le, ?_⟩
    rw [Int.tdiv_eq_ediv_of_nonneg h0]
    exact Int.ediv_le_of_le_mul hn (Int.mul_le_mul_of_nonneg_left hwn hd)

/-- A power moved toward another by a weight of at most one stays a power (R8, R12). -/
theorem inPower_toward {x y w n : Int} (hx : inPower x = true) (hy : inPower y = true) (hw : 0 ≤ w) (hwn : w ≤ n)
    (hn : 0 < n) : inPower (x + truncAtLeastOne ((y - x) * w) n) = true := by
  rw [inPower_iff] at *
  rcases le_total x y with h | h
  · have := truncAtLeastOne_weighted (d := y - x) (by omega) hw hwn hn
    omega
  · have := truncAtLeastOne_weighted (d := x - y) (by omega) hw hwn hn
    rw [show (y - x) * w = -((x - y) * w) by ring, truncAtLeastOne_neg]
    omega

/-- The mean of 64 powers is a power (R14). -/
theorem inPower_mean {a : Int} (h : -5000 * 64 ≤ a ∧ a ≤ 1000 * 64) : inPower (roundNearest a 64) = true := by
  rw [inPower_iff, roundNearest]
  rcases lt_trichotomy a 0 with ha | rfl | ha
  · rw [Int.sign_eq_neg_one_of_neg ha]; omega
  · simp
  · rw [Int.sign_eq_one_of_pos ha]; omega

theorem inPower_rawPower (code : BitVec 12) : inPower (rawPower code) = true := by
  rw [inPower_iff, rawPower]
  omega

/-! ### Stages of a sample -/

/-- A record that keeps the powers and the calibration of one in range is in range. -/
theorem PowersOk.of_same {r q : PortRec} (h : PowersOk r) (hp : q.power = r.power) (hs : q.smoothed = r.smoothed)
    (hb : q.baseline = r.baseline) (hc : q.cal = r.cal) : PowersOk q :=
  ⟨hp ▸ h.power, hs ▸ h.smoothed, hb ▸ h.baseline, hc ▸ h.cal⟩

/-- The filter may take any power. -/
theorem PowersOk.set_smoothed {r q : PortRec} {x : Int} (h : PowersOk r) (hx : inPower x = true)
    (hp : q.power = r.power) (hs : q.smoothed = some x) (hb : q.baseline = r.baseline) (hc : q.cal = r.cal) :
    PowersOk q :=
  ⟨hp ▸ h.power, fun y hy => by rw [hs] at hy; cases hy; exact hx, hb ▸ h.baseline, hc ▸ h.cal⟩

/-- So may the baseline. -/
theorem PowersOk.set_baseline {r q : PortRec} {x : Int} (h : PowersOk r) (hx : inPower x = true)
    (hp : q.power = r.power) (hs : q.smoothed = r.smoothed) (hb : q.baseline = some x)
    (hc : ∀ c, q.cal = some c → SumOfPowers c) : PowersOk q :=
  ⟨hp ▸ h.power, hs ▸ h.smoothed, fun y hy => by rw [hb] at hy; cases hy; exact hx, hc⟩

theorem stageConvert_powersOk (pf : Profile) (code : BitVec 12) {r : PortRec} (h : PowersOk r) :
    PowersOk (stageConvert pf code r) :=
  ⟨inPower_rawPower code, h.smoothed, h.baseline, h.cal⟩

theorem stageLos_powersOk (pf : Profile) {r : PortRec} (h : PowersOk r) : PowersOk (stageLos pf r) := by
  simp only [stageLos]
  split
  · exact h.of_same rfl rfl rfl rfl
  · split
    · exact h.set_smoothed h.power rfl rfl rfl rfl
    · exact h.of_same rfl rfl rfl rfl

theorem stageSmooth_powersOk {pf : Profile} (hpf : profileOk pf = true) {r : PortRec} (h : PowersOk r) :
    PowersOk (stageSmooth pf r) := by
  obtain ⟨⟨hw, hw16⟩, -⟩ := profileOk_weights hpf
  unfold stageSmooth
  split
  · exact h.set_smoothed h.power rfl rfl rfl rfl
  · next s hs => exact h.set_smoothed (inPower_toward (h.smoothed s hs) h.power hw hw16 (by decide)) rfl rfl rfl rfl

theorem stageFilter_powersOk {pf : Profile} (hpf : profileOk pf = true) {r : PortRec} (h : PowersOk r) :
    PowersOk (stageFilter pf r) := by
  have hsmooth : PowersOk (stageSmooth pf { r with spike := .clear }) :=
    stageSmooth_powersOk hpf (h.of_same rfl rfl rfl rfl)
  unfold stageFilter
  split
  · exact hsmooth
  · extract_lets gap
    split
    · split
      · exact h.set_smoothed h.power rfl rfl rfl rfl
      · exact h.of_same rfl rfl rfl rfl
    · exact hsmooth

theorem stageTrack_powersOk {pf : Profile} (hpf : profileOk pf = true) (card : CardState) (held : Bool) {r : PortRec}
    (h : PowersOk r) : PowersOk (stageTrack pf card held r) := by
  obtain ⟨-, hw, hw64⟩ := profileOk_weights hpf
  have htrack (n : Nat) : PowersOk { r with track := n } := h.of_same rfl rfl rfl rfl
  simp only [stageTrack]
  split
  · split
    · next b s hb hs =>
      split
      · exact h.set_baseline (inPower_toward (h.baseline b hb) (h.smoothed s hs) hw hw64 (by decide)) rfl rfl rfl h.cal
      · exact htrack 0
    · exact htrack 0
  · exact htrack _

/-- One more power in the running sum, short of the 64th. -/
theorem SumOfPowers.add {c : CalRec} {s : Int} (h : SumOfPowers c) (hs : inPower s = true) (hn : ¬64 ≤ c.count + 1) :
    SumOfPowers { c with count := c.count + 1, sum := c.sum + s } := by
  obtain ⟨-, hlow, hhigh⟩ := h
  rw [inPower_iff] at hs
  constructor
  · simp only; omega
  · push_cast; omega
  · push_cast; omega

/-- With the 64th power the sum is one of 64 powers. -/
theorem SumOfPowers.full {c : CalRec} {s : Int} (h : SumOfPowers c) (hs : inPower s = true) (hn : 64 ≤ c.count + 1) :
    -5000 * 64 ≤ c.sum + s ∧ c.sum + s ≤ 1000 * 64 := by
  obtain ⟨hcount, hlow, hhigh⟩ := h
  rw [inPower_iff] at hs
  omega

theorem stageCollect_powersOk {r : PortRec} (h : PowersOk r) : PowersOk (stageCollect r).1 := by
  unfold stageCollect
  split
  · next c s hc hs =>
    have hsum := h.cal c hc
    have hpow := h.smoothed s hs
    split
    · exact h
    · split
      · next hn => exact h.set_baseline (inPower_mean (hsum.full hpow hn)) rfl rfl rfl (by simp)
      · next hn =>
        refine ⟨h.power, h.smoothed, h.baseline, fun d hd => ?_⟩
        cases hd
        exact hsum.add hpow hn
  · exact h

theorem stageDeficit_powersOk (pf : Profile) {r : PortRec} (h : PowersOk r) : PowersOk (stageDeficit pf r) := by
  unfold stageDeficit
  split
  · split
    · exact h
    · exact h.of_same rfl rfl rfl rfl
  · exact h

theorem endCal_powersOk (o : CalOutcome) {r : PortRec} (h : PowersOk r) : PowersOk (endCal o r).1 := by
  unfold endCal
  split
  · exact ⟨h.power, h.smoothed, h.baseline, by simp⟩
  · exact h

/-! ### Events of one port -/

/-- R1: a valid sample. -/
theorem portValid_powersOk {pf : Profile} (hpf : profileOk pf = true) (card : CardState) (held : Bool)
    (code : BitVec 12) {r : PortRec} (h : PowersOk r) : PowersOk (portValid pf card held code r).1 := by
  have h1 : PowersOk (stageConvert pf code { r with run := 0, monLost := false }) :=
    stageConvert_powersOk pf code (h.of_same rfl rfl rfl rfl)
  have h2 := stageLos_powersOk pf h1
  simp only [portValid]
  refine stageDeficit_powersOk pf (stageCollect_powersOk (stageTrack_powersOk hpf card held ?_))
  split <;> split
  · exact endCal_powersOk _ h2
  · exact h2
  · exact stageFilter_powersOk hpf (endCal_powersOk _ h2)
  · exact stageFilter_powersOk hpf h2

/-- R2: a missed sample. -/
theorem portMissed_powersOk {r : PortRec} (h : PowersOk r) : PowersOk (portMissed r).1 := by
  simp only [portMissed]
  split
  · exact endCal_powersOk _ (h.of_same rfl rfl rfl rfl)
  · exact h.of_same rfl rfl rfl rfl

/-- R19: what the acceptance of a card state does to a port. -/
theorem cardPort_powersOk (old new : CardState) {r : PortRec} (h : PowersOk r) : PowersOk (cardPort old new r).1 := by
  have hempty : PowersOk { r with smoothed := none, spike := .clear } := ⟨h.power, by simp, h.baseline, h.cal⟩
  simp only [cardPort]
  split <;> split
  · exact endCal_powersOk _ hempty
  · exact endCal_powersOk _ h
  · exact hempty
  · exact h

/-- R13: a calibration starts with an empty sum. -/
theorem startedCal_powersOk (k : SlotIx) {r : PortRec} (h : PowersOk r) :
    PowersOk { r with cal := some { slot := k, count := 0, sum := 0 } } := by
  refine ⟨h.power, h.smoothed, h.baseline, fun c hc => ?_⟩
  cases hc
  exact ⟨by simp, by simp, by simp⟩

/-- R10: a baseline field whose value, if it gives one, is a power. -/
theorem takeBase_powersOk {b : BaseField} (hb : ∀ v, b = .value v → inPower v = true) {r : PortRec} (h : PowersOk r) :
    PowersOk (takeBase b r).1 := by
  cases b with
  | value v => exact endCal_powersOk _ (h.set_baseline (hb v rfl) rfl rfl rfl h.cal)
  | absent => exact endCal_powersOk _ ⟨h.power, h.smoothed, by simp, h.cal⟩
  | keep => exact h

/-! ### Entries of the tables -/

theorem clampInt_mem {lo hi : Int} (h : lo ≤ hi) (x : Int) : lo ≤ clampInt lo hi x ∧ clampInt lo hi x ≤ hi := by
  unfold clampInt
  split
  · omega
  · split <;> omega

theorem clampNat_mem {lo hi : Nat} (h : lo ≤ hi) (x : Nat) : lo ≤ clampNat lo hi x ∧ clampNat lo hi x ≤ hi := by
  unfold clampNat
  split
  · omega
  · split <;> omega

theorem clampSpike_mem (x : Int) : clampSpike x = 0 ∨ 50 ≤ clampSpike x ∧ clampSpike x ≤ 3000 := by
  unfold clampSpike
  split
  · exact .inl rfl
  · exact .inr (clampInt_mem (by decide) x)

/-- R18: a profile entry is read within the ranges, the three deficit fields within those the fields before them give. -/
theorem readProfile_profileOk (e : List Byte) : profileOk (readProfile e).1 = true := by
  have hdeg := clampInt_mem (lo := 50) (hi := 2000) (by decide) (atInt e 8)
  have hfail : clampInt 50 2000 (atInt e 8) + 50 ≤
        max (clampInt 100 3000 (atInt e 10)) (clampInt 50 2000 (atInt e 8) + 50) ∧
      max (clampInt 100 3000 (atInt e 10)) (clampInt 50 2000 (atInt e 8) + 50) ≤ 3000 := by
    have := clampInt_mem (lo := 100) (hi := 3000) (by decide) (atInt e 10)
    omega
  have hhyst :
      let hyst := clampInt 10 (min 500 (clampInt 50 2000 (atInt e 8) - 10)) (clampInt 10 500 (atInt e 12))
      (10 ≤ hyst ∧ hyst ≤ 500) ∧ hyst ≤ clampInt 50 2000 (atInt e 8) - 10 := by
    have := clampInt_mem (lo := 10) (hi := min 500 (clampInt 50 2000 (atInt e 8) - 10)) (by omega)
      (clampInt 10 500 (atInt e 12))
    omega
  exact (profileOk_iff _).2
    ⟨clampInt_mem (by decide) _, clampInt_mem (by decide) (at8 e 1), clampNat_mem (by decide) _, clampSpike_mem _,
      clampInt_mem (by decide) _, clampNat_mem (by decide) _, hdeg, hfail, hhyst.1, hhyst.2,
      clampNat_mem (by decide) _⟩

/-- R10: the baseline field is read within the range of a power. -/
theorem baseOf_inPower {mode : Nat} {x : Int} {b : BaseField} {n : Nat} (h : baseOf mode x = some (b, n)) :
    ∀ v, b = .value v → inPower v = true := by
  rintro v rfl
  unfold baseOf at h
  split at h <;> simp only [Option.some.injEq, Prod.mk.injEq, reduceCtorEq, false_and, BaseField.value.injEq] at h
  rw [← h.1, inPower_iff]
  exact clampInt_mem (by decide) x

theorem readPort_inPower {s : State} {p : Port} {e : List Byte} {x : PortEntry × Nat} (h : readPort s p e = some x) :
    ∀ v, x.1.base = .value v → inPower v = true := by
  unfold readPort at h
  split at h
  · next role b hrole hbase =>
    split at h
    · split at h
      · cases h
      · split at h
        · cases h
        · cases h; exact baseOf_inPower hbase
    · cases h
  · cases h

end Sys2Proof.Proofs
end

