-- ==== Sys2Proof/Proofs/PortStates.lean ====
section
/-! What keeps PMON right: the powers of every port in range, and every port showing the port state its record and its
card give (R20), under every event of PMON. -/

namespace Sys2Proof.Proofs

open Sys2Proof.Machine Sys2Proof.Safety

/-! ### The invariant -/

/-- R20: the port shows the port state its record and its card give. -/
def Shows (m : Pmon) (p : Port) : Prop := m.ports[p].handed = portStateOf m.cards[cardOf p].accepted m.ports[p]

/-- `pmonOk`, port by port and profile by profile. -/
structure InRange (m : Pmon) : Prop where
  ports : ∀ p : Port, PowersOk m.ports[p]
  profiles : ∀ i : Fin 8, profileOk m.profiles[i] = true

/-- The invariant of PMON. -/
structure Right (m : Pmon) : Prop where
  inRange : InRange m
  shown : ∀ p : Port, Shows m p

theorem pmonOk_iff (m : Pmon) : pmonOk m = true ↔ InRange m := by
  simp only [pmonOk, Bool.and_eq_true, List.all_eq_true, List.mem_finRange, forall_const, portOk_iff]
  exact ⟨fun ⟨hp, hf⟩ => ⟨hp, hf⟩, fun ⟨hp, hf⟩ => ⟨hp, hf⟩⟩

theorem portsFormed_iff (m : Pmon) : portsFormed m = true ↔ ∀ p, Shows m p := by
  simp only [portsFormed, List.all_eq_true, List.mem_finRange, forall_const, decide_eq_true_eq, Shows]

theorem right_iff (m : Pmon) : Right m ↔ pmonOk m = true ∧ portsFormed m = true := by
  rw [pmonOk_iff, portsFormed_iff]
  exact ⟨fun ⟨hr, hs⟩ => ⟨hr, hs⟩, fun ⟨hr, hs⟩ => ⟨hr, hs⟩⟩

theorem reset_right : Right Pmon.reset := (right_iff _).2 (by decide)

/-! ### One port's record kept -/

theorem getElem_set_fin {α : Type} {n : Nat} (v : Vector α n) (i j : Fin n) (x : α) :
    (v.set i x)[j] = if j = i then x else v[j] := by
  simp only [Fin.getElem_fin, Vector.getElem_set, Fin.ext_iff, eq_comm]

/-- A port's record replaced and the outcomes changed, as every event of PMON does. -/
structure Puts (m m' : Pmon) (p : Port) (r : PortRec) : Prop where
  ports : m'.ports = m.ports.set p r
  cards : m'.cards = m.cards
  profiles : m'.profiles = m.profiles

theorem put_puts (m : Pmon) (p : Port) (r : PortRec) (o : Option CalOutcome) : Puts m (m.put p r o) p r :=
  ⟨rfl, rfl, rfl⟩

section
variable {m m' : Pmon} {p q : Port} {r : PortRec}

theorem Puts.port_same (h : Puts m m' p r) : m'.ports[p] = r := by rw [h.ports, getElem_set_fin, if_pos rfl]

theorem Puts.port_other (h : Puts m m' p r) (hq : q ≠ p) : m'.ports[q] = m.ports[q] := by
  rw [h.ports, getElem_set_fin, if_neg hq]

theorem Puts.inRange (h : Puts m m' p r) (hm : InRange m) (hr : PowersOk r) : InRange m' := by
  refine ⟨fun q => ?_, h.profiles ▸ hm.profiles⟩
  by_cases hq : q = p
  · subst hq; rw [h.port_same]; exact hr
  · rw [h.port_other hq]; exact hm.ports q

theorem Puts.shows_other (h : Puts m m' p r) (hq : q ≠ p) (hm : Shows m q) : Shows m' q := by
  rw [Shows, h.port_other hq, h.cards]; exact hm

theorem Puts.shows_same (h : Puts m m' p r) (hr : r.handed = portStateOf m.cards[cardOf p].accepted r) :
    Shows m' p := by
  rw [Shows, h.port_same, h.cards]; exact hr

/-- A record whose port state is the one it shows may replace any. -/
theorem Puts.right (h : Puts m m' p r) (hm : Right m) (hr : PowersOk r)
    (hs : r.handed = portStateOf m.cards[cardOf p].accepted r) : Right m' := by
  refine ⟨h.inRange hm.inRange hr, fun q => ?_⟩
  by_cases hq : q = p
  · subst hq; exact h.shows_same hs
  · exact h.shows_other hq (hm.shown q)

end

/-- The same ports, cards and profiles are as right. -/
theorem Right.of_same {m m' : Pmon} (h : Right m) (hp : m'.ports = m.ports) (hc : m'.cards = m.cards)
    (hf : m'.profiles = m.profiles) : Right m' := by
  refine ⟨⟨hp ▸ h.inRange.ports, hf ▸ h.inRange.profiles⟩, fun p => ?_⟩
  rw [Shows, hp, hc]
  exact h.shown p

/-! ### Forming a port's state again (R20) -/

/-- The port that was formed again shows its state, whatever it showed. -/
theorem reformPort_shows_same (m : Pmon) (p : Port) : Shows (reformPort m p).1 p := by
  simp only [reformPort]
  split
  · next h => exact h.symm
  · exact Puts.shows_same ⟨rfl, rfl, rfl⟩ rfl

theorem reformPort_shows {m : Pmon} {q : Port} (p : Port) (h : Shows m q) : Shows (reformPort m p).1 q := by
  by_cases hq : q = p
  · subst hq; exact reformPort_shows_same m q
  · simp only [reformPort]
    split
    · exact h
    · exact Puts.shows_other ⟨rfl, rfl, rfl⟩ hq h

theorem reformPort_inRange {m : Pmon} (p : Port) (h : InRange m) : InRange (reformPort m p).1 := by
  simp only [reformPort]
  split
  · exact h
  · exact Puts.inRange ⟨rfl, rfl, rfl⟩ h ((h.ports p).of_same rfl rfl rfl rfl)

/-- Every port that was formed again shows its state, and so does every port that did before. -/
theorem reformPorts_shows {q : Port} (ps : List Port) {m : Pmon} (h : q ∈ ps ∨ Shows m q) :
    Shows (reformPorts ps m).1 q := by
  induction ps generalizing m with
  | nil => simpa [reformPorts] using h
  | cons p ps ih =>
    simp only [reformPorts]
    apply ih
    rcases h with h | h
    · rcases List.mem_cons.1 h with rfl | h
      · exact .inr (reformPort_shows_same m q)
      · exact .inl h
    · exact .inr (reformPort_shows p h)

theorem reformPorts_inRange (ps : List Port) {m : Pmon} (h : InRange m) : InRange (reformPorts ps m).1 := by
  induction ps generalizing m with
  | nil => exact h
  | cons p ps ih => exact ih (reformPort_inRange p h)

/-- An event of one port that keeps its powers in range, its state then formed again. -/
theorem reformPort_put_right {m : Pmon} (h : Right m) (p : Port) {r : PortRec} (hr : PowersOk r)
    (o : Option CalOutcome) : Right (reformPort (m.put p r o) p).1 := by
  have hput := put_puts m p r o
  refine ⟨reformPort_inRange p (hput.inRange h.inRange hr), fun q => ?_⟩
  by_cases hq : q = p
  · subst hq; exact reformPort_shows_same _ q
  · exact reformPort_shows p (hput.shows_other hq (h.shown q))

/-! ### Samples -/

theorem pmonPower_right {s : State} (h : Right s.pmon) (p : Port) (code : BitVec 12) (valid : Bool) :
    Right (pmonPower s p code valid).1 := by
  simp only [pmonPower]
  apply reformPort_put_right h
  split
  · exact portValid_powersOk (h.inRange.profiles _) _ _ _ (h.inRange.ports p)
  · exact portMissed_powersOk (h.inRange.ports p)

theorem mem_portsOfCard (p : Port) : p ∈ portsOfCard (cardOf p) := by
  simp only [portsOfCard, cardOf, List.mem_cons, Fin.ext_iff, List.not_mem_nil]
  omega

theorem cardPorts_inRange (old new : CardState) (ps : List Port) {m : Pmon} (h : InRange m) :
    InRange (cardPorts old new ps m) := by
  induction ps generalizing m with
  | nil => exact h
  | cons p ps ih => exact ih ((put_puts m p _ _).inRange h (cardPort_powersOk old new (h.ports p)))

/-- Acceptance leaves the ports of other cards as they show. -/
theorem cardPorts_shows {old new : CardState} {q : Port} (ps : List Port) {m : Pmon} (hq : q ∉ ps) (h : Shows m q) :
    Shows (cardPorts old new ps m) q := by
  induction ps generalizing m with
  | nil => exact h
  | cons p ps ih =>
    obtain ⟨hqp, hqs⟩ := not_or.1 (mt List.mem_cons.2 hq)
    exact ih hqs ((put_puts m p _ _).shows_other hqp h)

/-- A card's record replaced shows nothing new on the ports of other cards. -/
theorem shows_set_card {m : Pmon} {c : Card} {x : CardRec} {q : Port}
    (hx : cardOf q = c → x.accepted = m.cards[c].accepted) (h : Shows m q) :
    Shows { m with cards := m.cards.set c x } q := by
  rw [Shows, getElem_set_fin]
  split
  · next hc => rw [hx hc, ← hc]; exact h
  · exact h

theorem set_card_inRange {m : Pmon} (h : InRange m) (c : Card) (x : CardRec) :
    InRange { m with cards := m.cards.set c x } := ⟨h.ports, h.profiles⟩

/-- R19: an accepted card state, whatever it is, once the card's four ports are formed again. -/
theorem acceptCard_right {m : Pmon} (h : Right m) (c : Card) (x : CardRec) (old new : CardState) :
    Right (reformPorts (portsOfCard c)
      (cardPorts old new (portsOfCard c) { m with cards := m.cards.set c x })).1 := by
  refine ⟨reformPorts_inRange _ (cardPorts_inRange _ _ _ (set_card_inRange h.inRange c x)), fun q => ?_⟩
  apply reformPorts_shows
  by_cases hq : q ∈ portsOfCard c
  · exact .inl hq
  · have hcard : cardOf q ≠ c := by
      rintro rfl
      exact hq (mem_portsOfCard q)
    exact .inr (cardPorts_shows _ hq (shows_set_card (fun hc => absurd hc hcard) (h.shown q)))

theorem pmonCard_right {s : State} (h : Right s.pmon) (p : Port) (present fault : Bool) :
    Right (pmonCard s p present fault).1 := by
  simp only [pmonCard]
  split
  · exact h
  · split
    · next hacc => exact ⟨set_card_inRange h.inRange _ _, fun q => shows_set_card (fun _ => hacc) (h.shown q)⟩
    · dsimp only
      exact acceptCard_right h _ _ _ _

/-! ### Calibrations -/

/-- R15: the end of a calibration moves no flag. -/
theorem endCal_handed (o : CalOutcome) (card : CardState) (r : PortRec) :
    (endCal o r).1.handed = r.handed ∧ portStateOf card (endCal o r).1 = portStateOf card r := by
  unfold endCal
  split <;> exact ⟨rfl, rfl⟩

theorem endCals_right (o : CalOutcome) (ps : List Port) {m : Pmon} (h : Right m) : Right (endCals o ps m) := by
  induction ps generalizing m with
  | nil => exact h
  | cons p ps ih =>
    obtain ⟨hhanded, hstate⟩ := endCal_handed o m.cards[cardOf p].accepted m.ports[p]
    refine ih ((put_puts m p _ _).right h (endCal_powersOk o (h.inRange.ports p)) ?_)
    rw [hhanded, hstate]
    exact h.shown p

theorem pmonHold_right {s : State} (h : Right s.pmon) (ps : List Port) (held : Bool) :
    Right (pmonHold s ps held).1 := by
  simp only [pmonHold]
  split
  · exact endCals_right _ _ h
  · exact h

theorem startCals_right (k : SlotIx) (ps : List Port) {m : Pmon} (h : Right m) : Right (startCals k ps m) := by
  induction ps generalizing m with
  | nil => exact h
  | cons p ps ih =>
    have hfail (o : CalOutcome) : Right (m.put p m.ports[p] (some o)) :=
      (put_puts m p _ _).right h (h.inRange.ports p) (h.shown p)
    simp only [startCals]
    apply ih
    split
    · exact hfail _
    · exact hfail _
    · exact hfail _
    · exact Puts.right ⟨rfl, rfl, rfl⟩ h (startedCal_powersOk k (h.inRange.ports p)) (h.shown p)

theorem clearOutcomes_right (ps : List Port) {m : Pmon} (h : Right m) : Right (clearOutcomes ps m) := by
  induction ps generalizing m with
  | nil => exact h
  | cons p ps ih => exact ih (h.of_same rfl rfl rfl)

/-! ### Table entries -/

theorem pmonLoad_right {s : State} (h : Right s.pmon) (p : Port) {e : PortEntry}
    (he : ∀ v, e.base = .value v → inPower v = true) : Right (pmonLoad s p e).1 :=
  have hr : PowersOk (takeBase e.base { s.pmon.ports[p] with role := e.role, profile := e.profile }).1 :=
    takeBase_powersOk he ((h.inRange.ports p).of_same rfl rfl rfl rfl)
  reformPort_put_right h p hr _

theorem set_profile_right {m : Pmon} (h : Right m) (i : Nat) (hi : i < 8) {f : Profile} (hf : profileOk f = true) :
    Right { m with profiles := m.profiles.set i f hi } := by
  refine ⟨⟨h.inRange.ports, fun j => ?_⟩, h.shown⟩
  simp only [Fin.getElem_fin, Vector.getElem_set]
  split
  · exact hf
  · exact h.inRange.profiles j

end Sys2Proof.Proofs
end

