-- ==== Sys2Proof/Proofs/PmonSteps.lean ====
section
/-! What every step does to PMON: most commands leave it to what they hand on, a reset starts it anew, and the rest are
its own events. -/

namespace Sys2Proof.Proofs

open Sys2Proof.Machine Sys2Proof.Safety Sys2Proof.Laws

/-! ### Settled events -/

/-- A message for another block leaves PMON alone; the three for PMON are its events. -/
theorem deliver_right (m : Msg) {s : State} (h : Right s.pmon) : Right (deliver m s).1.pmon := by
  cases m with
  | pmonPower p code valid => exact pmonPower_right h p code valid
  | pmonCard p present fault => exact pmonCard_right h p present fault
  | pmonHold ps held => exact pmonHold_right h ps held
  | _ => simpa [deliver] using h

/-- Whatever an event hands on, PMON is right if the event left it so. -/
theorem settled_right {r : State × List Msg} (h : Right r.1.pmon) : Right (settled r).pmon :=
  settled_keeps (P := fun s => Right s.pmon) (fun _ h => h) (fun m _ h => deliver_right m h) r h

section
variable {s : State} (h : Right s.pmon)
include h

theorem settledCbc_right (r : Cbc × List Msg) : Right (settled (putCbc s r)).pmon := settled_right h
theorem settledPrc_right (r : Prc × List Msg) : Right (settled (putPrc s r)).pmon := settled_right h
theorem settledTsel_right (r : Tsel × List Msg) : Right (settled (putTsel s r)).pmon := settled_right h
theorem settledAlm_right (r : Alm × List Msg) : Right (settled (putAlm s r)).pmon := settled_right h
theorem settledJrn_right (r : Jrn × List Msg) : Right (settled (putJrn s r)).pmon := settled_right h
theorem settledCiu_right (r : Vector ContactIn 8 × List Msg) : Right (settled (putCiu s r)).pmon := settled_right h

end

theorem settledPmon_right (s : State) {r : Pmon × List Msg} (h : Right r.1) : Right (settled (putPmon s r)).pmon :=
  settled_right h

theorem takeSample_right {s : State} (h : Right s.pmon) (x : Sample) : Right (takeSample s x).pmon := settled_right h

/-! ### Time, start-up and resets -/

theorem tick_right {s : State} (h : Right s.pmon) : Right (tick s).pmon := by
  have hfree : (freely (due s) s).2.pmon = s.pmon := by
    rcases freely_state (due s) s with hs | hs <;> rw [hs]
  simp only [tick]
  split
  · exact hfree ▸ h
  · split
    · exact h
    · exact h

theorem sendFrame_right {s : State} (h : Right s.pmon) : Right (sendFrame s).pmon := by
  simp only [sendFrame]
  split <;> exact h

theorem enterReady_right {s : State} (h : Right s.pmon) : Right (enterReady s).pmon := by
  have hjrn (u : State) (hu : Right u.pmon) :
      Right (settled (putJrn u (jrnRecords u [.restart (restartCode s)]))).pmon := settledJrn_right hu _
  exact settled_right (hjrn _ h)

theorem warmRestart_right (s : State) : Right (warmRestart s).pmon := reset_right

/-! ### The host port -/

theorem takeNext_pmon (s : State) : (takeNext s).pmon = s.pmon := by
  unfold takeNext
  split
  · rfl
  · split <;> rfl

theorem slotWrite_right {s : State} (h : Right s.pmon) (k : SlotIx) (a : Nat) (w : Word) :
    Right (slotWrite s k a w).pmon := by
  simp only [slotWrite]
  split
  · split
    · rw [arrive, takeNext_pmon]; exact h
    · exact h
  · exact h

theorem registerWrite_right {s : State} (h : Right s.pmon) (off : Nat) (w : Word) :
    Right (registerWrite s off w).pmon := by
  unfold registerWrite
  split
  · exact h
  · split
    · exact h
    · split
      · exact h
      · split
        · split
          · exact warmRestart_right s
          · exact h
        · exact h

theorem hostWord_right {s : State} (h : Right s.pmon) (a : Nat) (w : Word) : Right (hostWord s a w).pmon := by
  unfold hostWord
  cases regionOf a with
  | slot k => exact slotWrite_right h k a w
  | release => exact settledJrn_right (s := { s with mem := memPutWord s.mem a w }) h _
  | register => exact registerWrite_right h _ w
  | _ => exact h

theorem hostWordWrite_right {s : State} (h : Right s.pmon) (a : Nat) (w : Word) :
    Right (hostWordWrite s a w).pmon :=
  hostWord_right (s := { s with hpi := { s.hpi with held := none } }) h a w

theorem hostByteWrite_right {s : State} (h : Right s.pmon) (a : Addr) (b : Byte) :
    Right (hostByteWrite s a b).pmon := by
  unfold hostByteWrite
  split
  · split
    · exact hostWordWrite_right h _ _
    · exact h
  · exact h

theorem hostByteRead_pmon (s : State) (a : Addr) : (hostByteRead s a).pmon = s.pmon := by
  unfold hostByteRead newSnapshot
  split
  · split
    · rfl
    · split
      · rfl
      · split <;> rfl
  · rfl

/-! ### Requests -/

/-- A request's owner keeps PMON right. -/
def KeepsRight (owner : State → Reply) : Prop := ∀ s : State, Right s.pmon → Right (owner s).1.pmon

theorem finish_pmon (s : State) (k : SlotIx) (r : Result) (d : Nat) : (finish s k r d).pmon = s.pmon := by
  rw [finish, endExec, takeNext_pmon]; rfl

theorem runRequest_right {s : State} (h : Right s.pmon) (k : SlotIx) (r : Request) {owner : State → Reply}
    (ho : KeepsRight owner) : Right (runRequest s k r owner).pmon := by
  simp only [runRequest]
  split
  · split
    · rw [finish_pmon]; exact ho s h
    · rw [endExec, takeNext_pmon]; exact ho s h
  · exact h

theorem endJob_right {s : State} (h : Right s.pmon) (j : Job) (r : Result) : Right (endJob s j r).pmon := by
  simp only [endJob, answer_pmon, writeOutcomes_pmon]
  exact clearOutcomes_right j.ports h

theorem jobDone_right {s : State} (h : Right s.pmon) (k : SlotIx) : Right (jobDone s k).pmon := by
  unfold jobDone
  split
  · split
    · exact endJob_right h _ _
    · exact h
  · exact h

theorem askCalb_keeps (k : SlotIx) : KeepsRight (askCalb k) := by
  intro s h
  simp only [askCalb]
  split
  · exact h
  · split
    · exact h
    · split
      · exact h
      · split
        · exact h
        · exact settledPmon_right _ (startCals_right k _ h)

theorem askAbrt_keeps (k : SlotIx) : KeepsRight (askAbrt k) := by
  intro s h
  simp only [askAbrt]
  split
  · exact h
  · split
    · exact h
    · exact endJob_right (settledPmon_right s (endCals_right _ _ h)) _ _
    · exact h

theorem askRdtb_keeps (k : SlotIx) : KeepsRight (askRdtb k) := by
  intro s h
  simp only [askRdtb]
  split
  · exact h
  · split <;> exact h

theorem askAdpt_keeps (k : SlotIx) : KeepsRight (askAdpt k) := by
  intro s h
  simp only [askAdpt]
  split
  · exact h
  · split
    · exact h
    · exact settledCbc_right h _

theorem askWkop_keeps (k : SlotIx) : KeepsRight (askWkop k) := by
  intro s h
  simp only [askWkop]
  split
  · split
    · exact h
    · split
      · exact h
      · exact settledCbc_right h _
  · exact h

theorem askWken_keeps (k : SlotIx) : KeepsRight (askWken k) := by
  intro s h
  unfold askWken
  split
  · exact h
  · split
    · exact settledCbc_right h _
    · exact h

theorem askWkcn_keeps (k : SlotIx) : KeepsRight (askWkcn k) := by
  intro s h
  unfold askWkcn
  split
  · exact h
  · split
    · exact settledCbc_right h _
    · exact h

theorem askWkdr_keeps (k : SlotIx) : KeepsRight (askWkdr k) := by
  intro s h
  unfold askWkdr
  split
  · exact h
  · split
    · exact h
    · exact settledCbc_right h _

theorem askPslo_keeps (k : SlotIx) : KeepsRight (askPslo k) := by
  intro s h
  unfold askPslo
  split
  · exact h
  · exact settledPrc_right h _

theorem askPsfs_keeps (k : SlotIx) : KeepsRight (askPsfs k) := by
  intro s h
  simp only [askPsfs]
  split
  · exact h
  · split
    · exact h
    · split
      · exact h
      · exact settledPrc_right h _

theorem askPsms_keeps (k : SlotIx) : KeepsRight (askPsms k) := by
  intro s h
  simp only [askPsms]
  split
  · exact h
  · split
    · exact h
    · split
      · exact h
      · exact settledPrc_right h _

theorem askPscl_keeps (k : SlotIx) : KeepsRight (askPscl k) := by
  intro s h
  unfold askPscl
  split
  · exact h
  · exact settledPrc_right h _

theorem askTmlk_keeps (k : SlotIx) : KeepsRight (askTmlk k) := by
  intro s h
  unfold askTmlk
  split
  · exact h
  · exact settledTsel_right h _

theorem askTmfs_keeps (k : SlotIx) : KeepsRight (askTmfs k) := by
  intro s h
  unfold askTmfs
  split
  · exact h
  · exact settledTsel_right h _

theorem askTmcl_keeps : KeepsRight askTmcl := by
  intro s h
  unfold askTmcl
  split
  · exact settledTsel_right h _
  · exact h

theorem askAlak_keeps (k : SlotIx) : KeepsRight (askAlak k) := by
  intro s h
  simp only [askAlak]
  split
  · exact settledAlm_right h _
  · split
    · split
      · exact settledAlm_right h _
      · exact h
    · exact h

theorem askAlco_keeps : KeepsRight askAlco := fun _ h => settledAlm_right h _

/-! ### Table loads -/

/-- A table's application of one entry keeps PMON right. -/
def AppliesRight (apply : State → Nat → List Byte → Option (State × Nat)) : Prop :=
  ∀ (s : State) (i : Nat) (e : List Byte), Right s.pmon → ∀ x ∈ apply s i e, Right x.1.pmon

/-- R165: the entries applied one by one, up to the end or the first fault. -/
theorem loadEntries_right {apply : State → Nat → List Byte → Option (State × Nat)} (ha : AppliesRight apply)
    (size base first n k clamps : Nat) {s : State} (h : Right s.pmon) :
    Right (loadEntries apply size base first n k clamps s).1.pmon := by
  induction n generalizing k clamps s with
  | zero => exact h
  | succ n ih =>
    unfold loadEntries
    split
    · exact h
    · next x hx => exact ih _ _ (ha s _ _ h x hx)

theorem askLoad_keeps (t : Table) {apply : State → Nat → List Byte → Option (State × Nat)}
    (ha : AppliesRight apply) (k : SlotIx) : KeepsRight (askLoad t apply k) := by
  intro s h
  simp only [askLoad]
  split
  · exact loadEntries_right ha _ _ _ _ _ _ h
  · exact h

/-- What an entry that is read makes of the state, if that is right whatever was read. -/
theorem right_of_mem_map {α : Type} {o : Option α} {f : α → State × Nat} (hf : ∀ y ∈ o, Right (f y).1.pmon) :
    ∀ x ∈ o.map f, Right x.1.pmon := by
  rintro x hx
  obtain ⟨y, hy, rfl⟩ := Option.mem_map.1 hx
  exact hf y hy

theorem loadShelf_applies : AppliesRight loadShelf := fun _ _ _ h => right_of_mem_map fun _ _ => settled_right h

theorem loadProfile_applies : AppliesRight loadProfile := by
  intro s i e h x hx
  cases hx
  exact set_profile_right h _ _ (readProfile_profileOk e)

theorem loadPort_applies : AppliesRight loadPort := fun _ _ _ h =>
  right_of_mem_map fun _ hy => settledPmon_right _ (pmonLoad_right h _ (readPort_inPower hy))

theorem loadCabling_applies : AppliesRight loadCabling :=
  fun _ _ _ h => right_of_mem_map fun _ _ => settledCbc_right h _

theorem loadGroup_applies : AppliesRight loadGroup :=
  fun _ _ _ h => right_of_mem_map fun _ _ => settledPrc_right h _

theorem loadRefEntry_applies : AppliesRight loadRefEntry :=
  fun _ _ _ h => right_of_mem_map fun _ _ => settledTsel_right h _

theorem loadAlarm_applies : AppliesRight loadAlarm :=
  fun _ _ _ h => right_of_mem_map fun _ _ => settledAlm_right h _

theorem loadContact_applies : AppliesRight loadContact :=
  fun _ _ _ h => right_of_mem_map fun _ _ => settledCiu_right h _

/-! ### Commands -/

/-- If a command answers with a state, PMON is right in it. -/
def AnswersRight (a : Answer) : Prop := ∀ t, a = .next t → Right t.pmon

theorem answersRight_next {t : State} (h : Right t.pmon) : AnswersRight (.next t) := by
  intro u hu
  cases hu
  exact h

theorem answersRight_whenever {c : Bool} {s t : State} (hs : Right s.pmon) (ht : Right t.pmon) :
    AnswersRight (whenever c s t) := by
  apply answersRight_next
  split
  · exact ht
  · exact hs

theorem answersRight_sample {c : Bool} {s : State} (h : Right s.pmon) (x : Sample) :
    AnswersRight (whenever c s (takeSample s x)) := answersRight_whenever h (takeSample_right h x)

theorem answersRight_hostWord {c : Bool} {s : State} (h : Right s.pmon) (a : Nat) (w : Word) :
    AnswersRight (whenever c s (hostWordWrite s a w)) := answersRight_whenever h (hostWordWrite_right h a w)

theorem answersRight_request {s : State} (h : Right s.pmon) (k : SlotIx) (r : Request) {owner : State → Reply}
    (ho : KeepsRight owner) : AnswersRight (.next (runRequest s k r owner)) :=
  answersRight_next (runRequest_right h k r ho)

theorem hostByteWrite_answersRight {s : State} (h : Right s.pmon) (x : HostAddr) (b : Byte) :
    AnswersRight (execHostByteWrite x b s) := by
  unfold execHostByteWrite
  split
  · exact answersRight_next h
  · exact answersRight_whenever h (hostByteWrite_right (s := advanceRun s true x _) h _ b)

theorem hostByteRead_answersRight {s : State} (h : Right s.pmon) (x : HostAddr) :
    AnswersRight (execHostByteRead x s) := by
  unfold execHostByteRead
  split
  · exact answersRight_next h
  · refine answersRight_next ?_
    rw [hostByteRead_pmon]
    exact h

theorem contactPinChange_answersRight {s : State} (h : Right s.pmon) (i : InputIx) (high : Bool) :
    AnswersRight (execContactPinChange i high s) := by
  unfold execContactPinChange
  split
  · exact answersRight_whenever h h
  · exact answersRight_next h

/-- Every command keeps PMON right. -/
theorem exec_right (c : Instr) {s : State} (h : Right s.pmon) : AnswersRight (exec c s) := by
  cases c with
  | sample x => exact answersRight_sample h x
  | monLost x => exact answersRight_sample h x
  | trackingPoint x => exact answersRight_sample h x
  | cardStateAccepted x => exact answersRight_sample h x
  | portCalibrated x => exact answersRight_sample h x
  | calbJobDone k => exact answersRight_next (jobDone_right h k)
  | decoderLoss x => exact answersRight_sample h x
  | lcpFrame => exact answersRight_next (sendFrame_right h)
  | tagWaitExpiry p => exact answersRight_whenever h (settledCbc_right h _)
  | windowExpiry i => exact answersRight_whenever h (settledCbc_right h _)
  | verifyTimerExpiry i => exact answersRight_whenever h (settledCbc_right h _)
  | holdOffExpiry g m => exact answersRight_whenever h (settledPrc_right h _)
  | wtrExpiry g => exact answersRight_whenever h (settledPrc_right h _)
  | bridgeConfirmationExpiry g => exact answersRight_whenever h (settledPrc_right h _)
  | activityLost r => exact answersRight_whenever h (settledTsel_right h _)
  | activityRegained r gap => exact answersRight_whenever h (settledTsel_right h _)
  | windowComplete r gap => exact answersRight_whenever h (settledTsel_right h _)
  | warmUpEnd => exact answersRight_whenever h (settledTsel_right h _)
  | steeringTimerExpiry => exact answersRight_whenever h (settledTsel_right h _)
  | holdoverAged => exact answersRight_whenever h (settledTsel_right h _)
  | raiseSoakExpiry i => exact answersRight_whenever h (settledAlm_right h _)
  | clearSoakExpiry i => exact answersRight_whenever h (settledAlm_right h _)
  | contactPinChange i high => exact contactPinChange_answersRight h i high
  | debounceExpiry i => exact answersRight_whenever h (settled_right (settledCiu_right h _))
  | hostByteWrite x b => exact hostByteWrite_answersRight h x b
  | hostByteRead x => exact hostByteRead_answersRight h x
  | attnClr w => exact answersRight_hostWord h _ w
  | attnMask w => exact answersRight_hostWord h _ w
  | registerWriteOther a w => exact answersRight_hostWord h _ w
  | unknownCode k => exact answersRight_whenever h (by rw [finish_pmon]; exact h)
  | ldsh k => exact answersRight_request h k _ (askLoad_keeps _ loadShelf_applies k)
  | ldpf k => exact answersRight_request h k _ (askLoad_keeps _ loadProfile_applies k)
  | ldpt k => exact answersRight_request h k _ (askLoad_keeps _ loadPort_applies k)
  | ldcr k => exact answersRight_request h k _ (askLoad_keeps _ loadCabling_applies k)
  | ldpg k => exact answersRight_request h k _ (askLoad_keeps _ loadGroup_applies k)
  | ldtr k => exact answersRight_request h k _ (askLoad_keeps _ loadRefEntry_applies k)
  | ldap k => exact answersRight_request h k _ (askLoad_keeps _ loadAlarm_applies k)
  | ldci k => exact answersRight_request h k _ (askLoad_keeps _ loadContact_applies k)
  | rdtb k => exact answersRight_request h k _ (askRdtb_keeps k)
  | adpt k => exact answersRight_request h k _ (askAdpt_keeps k)
  | calb k => exact answersRight_request h k _ (askCalb_keeps k)
  | wkop k => exact answersRight_request h k _ (askWkop_keeps k)
  | wken k => exact answersRight_request h k _ (askWken_keeps k)
  | wkcn k => exact answersRight_request h k _ (askWkcn_keeps k)
  | wkdr k => exact answersRight_request h k _ (askWkdr_keeps k)
  | pslo k => exact answersRight_request h k _ (askPslo_keeps k)
  | psfs k => exact answersRight_request h k _ (askPsfs_keeps k)
  | psms k => exact answersRight_request h k _ (askPsms_keeps k)
  | pscl k => exact answersRight_request h k _ (askPscl_keeps k)
  | tmlk k => exact answersRight_request h k _ (askTmlk_keeps k)
  | tmfs k => exact answersRight_request h k _ (askTmfs_keeps k)
  | tmcl k => exact answersRight_request h k _ askTmcl_keeps
  | alak k => exact answersRight_request h k _ (askAlak_keeps k)
  | alco k => exact answersRight_request h k _ askAlco_keeps
  | abrt k => exact answersRight_request h k _ (askAbrt_keeps k)
  | coldReset pop64 shid parallel => exact answersRight_next reset_right
  | warmRestart => exact answersRight_hostWord h _ _
  | enterReady => exact answersRight_whenever h (enterReady_right h)
  | referenceRisingEdge r gap => exact answersRight_whenever h (settledTsel_right h _)

theorem step_right {s : State} (h : Right s.pmon) : AnswersRight (step s) := by
  unfold step
  split
  · exact exec_right _ h
  · exact answersRight_next (tick_right h)

/-- Settles O53: `Right` is kept by every event of PMON, by what any event hands on, and so by every command. The state of
`Tests.test_invariants_ports` meets the hypotheses. -/
theorem powersAndPortStatesStayRight : Obligations.PowersAndPortStatesStayRight := by
  intro s t hpowers hstates hstep
  exact (right_iff t.pmon).1 (step_right ((right_iff s.pmon).2 ⟨hpowers, hstates⟩) t hstep)

end Sys2Proof.Proofs
end

section
/-! The decoder in LOCKED: what a found frame does for each row of R30, and what R31 and R32 leave of the glitch count. -/

namespace Sys2Proof.Proofs

open Sys2Proof.Machine

/-! ### A valid frame found in LOCKED (R29, R30) -/

theorem sameId_iff (f g : TagFrame) : sameId f g = true ↔ f.shelf = g.shelf ∧ f.port = g.port := by simp [sameId]

section
variable {d : Decoder} {tag : Tag} {f g : TagFrame}

/-- R29, R30: the locked identity refreshes the record, and a pending frame it finds is a glitch. -/
theorem frameFound_locked_refresh {pending : Option TagFrame} (hst : d.st = .locked tag pending)
    (hsame : tag.shelf = f.shelf ∧ tag.port = f.port) :
    frameFound d f =
      { d with
        loss := 0, nextEnd := some 56, st := .locked (tagOf (some tag) f).1 none
        badSig := countUp d.badSig (tagOf (some tag) f).2
        glitch := if pending.isSome then count16 d.glitch else d.glitch } := by
  simp [frameFound, hst, hsame]

/-- R30, first row: no frame pends, and the frame becomes the pending one. -/
theorem frameFound_locked_pend (hst : d.st = .locked tag none)
    (hother : ¬(tag.shelf = f.shelf ∧ tag.port = f.port)) :
    frameFound d f = { d with loss := 0, nextEnd := some 56, st := .locked tag (some f) } := by
  simp only [frameFound, hst, if_neg hother]

/-- R30, second row: the pending identity again is the change. -/
theorem frameFound_locked_change (hst : d.st = .locked tag (some g))
    (hother : ¬(tag.shelf = f.shelf ∧ tag.port = f.port)) (hagain : g.shelf = f.shelf ∧ g.port = f.port) :
    frameFound d f =
      { d with
        loss := 0, nextEnd := some 56, st := .locked (tagOf none f).1 none
        badSig := countUp d.badSig (tagOf none f).2, change := count16 d.change } := by
  simp only [frameFound, hst, if_neg hother, if_pos ((sameId_iff g f).2 hagain)]

/-- R30, fourth row: a third identity is a glitch, and its frame pends in place of the one before. -/
theorem frameFound_locked_third (hst : d.st = .locked tag (some g))
    (hother : ¬(tag.shelf = f.shelf ∧ tag.port = f.port)) (hthird : ¬(g.shelf = f.shelf ∧ g.port = f.port)) :
    frameFound d f =
      { d with loss := 0, nextEnd := some 56, st := .locked tag (some f), glitch := count16 d.glitch } := by
  simp only [frameFound, hst, if_neg hother, if_neg (mt (sameId_iff g f).1 hthird)]

end

/-! ### Leaving LOCKED (R31, R32) -/

theorem lossPeriod_glitch (d : Decoder) : (lossPeriod d).glitch = d.glitch := by
  simp only [lossPeriod]
  split <;> rfl

theorem decoderLos_glitch (d : Decoder) (declared : Bool) : (decoderLos d declared).glitch = d.glitch := by
  unfold decoderLos
  split <;> rfl

/-- Settles O13: one equation of `frameFound` per row of R30, and neither way out of LOCKED moves the glitch count.
`Tests.test_ALockedIdentityChangesAtTheSecondFrame` meets each row's hypotheses. -/
theorem aLockedIdentityChangesAtTheSecondFrame : Obligations.ALockedIdentityChangesAtTheSecondFrame := by
  intro d tag f
  refine ⟨fun hst hother => ?pend, fun g hst hother => ⟨fun hagain => ?change, fun hthird => ?third⟩,
    fun g hst hsame => ?refresh, lossPeriod_glitch d, decoderLos_glitch d⟩
  case pend =>
    rw [frameFound_locked_pend hst hother]
    exact ⟨rfl, rfl, rfl⟩
  case change =>
    rw [frameFound_locked_change hst hother hagain]
    exact ⟨rfl, rfl, rfl⟩
  case third =>
    rw [frameFound_locked_third hst hother hthird]
    exact ⟨rfl, rfl, rfl⟩
  case refresh =>
    rw [frameFound_locked_refresh hst hsame]
    exact ⟨rfl, rfl, rfl⟩

end Sys2Proof.Proofs
end

section
/-! The table of R43: the two lines that do not judge a port, the lines of a judged port, and the conditions offered. -/

namespace Sys2Proof.Proofs

open Sys2Proof.Machine

theorem tagMatches_iff (e : Expectation) (t : Tag) :
    tagMatches e t = true ↔ t.shelf = e.shelf ∧ t.port.toNat = e.port.toNat := by simp [tagMatches]

/-- R43: neither of the first two lines applies, HELD or UNCHECKED. -/
def Judged (s : State) (r : CabRec) (p : Port) : Prop :=
  r.hold = none ∧ s.populated p = true ∧ s.pmon.ports[p].role ≠ .spare ∧ r.expect.kind ≠ .any ∧
    s.pmon.ports[p].handed ≠ .equipOut ∧ s.pmon.ports[p].handed ≠ .monLost

section
variable {s : State} {r : CabRec} {p : Port}

/-- R43, first line. -/
theorem cablingState_held (hheld : r.hold ≠ none) : cablingState s r p = .held :=
  if_pos (Option.isSome_iff_ne_none.2 hheld)

/-- R43, second line: an unheld port fails to be judged by one of the line's four grounds. -/
theorem cablingState_unchecked (hfree : r.hold = none) (hnot : ¬Judged s r p) : cablingState s r p = .unchecked := by
  have hground : s.populated p = false ∨ s.pmon.ports[p].role = .spare ∨ r.expect.kind = .any ∨
      s.pmon.ports[p].handed = .equipOut ∨ s.pmon.ports[p].handed = .monLost := by
    by_contra hnone
    simp only [not_or, Bool.not_eq_false] at hnone
    exact hnot ⟨hfree, hnone⟩
  simp only [cablingState, hfree, Option.isSome_none, Bool.false_eq_true, if_false]
  exact if_pos (by simpa [or_assoc] using hground)

/-- R43, the lines below UNCHECKED. -/
theorem cablingState_judged (h : Judged s r p) :
    cablingState s r p =
      if r.expect.kind = .dark then (if s.pmon.ports[p].handed = .dark then .matched else .litUnexpected)
      else if s.pmon.ports[p].handed = .dark then .noLight
      else s.tcd.decs[p].tag.elim (if r.tagWait.isSome then .awaiting else .untagged)
        fun t => if tagMatches r.expect t then .matched else .mismatch := by
  obtain ⟨hfree, hpop, hrole, hkind, hin, hmon⟩ := h
  cases htag : s.tcd.decs[p].tag <;>
    simp [-Fin.getElem_fin, cablingState, htag, hfree, hpop, hrole, hkind, hin, hmon]

/-- R43, the lines of an expectation of DARK. -/
theorem cablingState_expectDark (h : Judged s r p) (hexp : r.expect.kind = .dark) :
    cablingState s r p = if s.pmon.ports[p].handed = .dark then .matched else .litUnexpected := by
  rw [cablingState_judged h, if_pos hexp]

/-- R43, NO-LIGHT. -/
theorem cablingState_noLight (h : Judged s r p) (hexp : r.expect.kind = .tag)
    (hdark : s.pmon.ports[p].handed = .dark) : cablingState s r p = .noLight := by
  rw [cablingState_judged h, if_neg (by simp [hexp]), if_pos hdark]

/-- R43, the lines of a lit port that expects TAG: the locked tag decides, and the tag wait where there is none. -/
theorem cablingState_expectTag (h : Judged s r p ∧ r.expect.kind = .tag ∧ s.pmon.ports[p].handed ≠ .dark) :
    cablingState s r p =
      s.tcd.decs[p].tag.elim (if r.tagWait.isSome then .awaiting else .untagged)
        fun t => if tagMatches r.expect t then .matched else .mismatch := by
  obtain ⟨hjudged, hexp, hlit⟩ := h
  rw [cablingState_judged hjudged, if_neg (by simp [hexp]), if_neg hlit]

end

/-- R43, the table's last column. -/
theorem cabCondition_eq (c : CabState) :
    cabCondition c = if c = .litUnexpected then some .unexpLight else if c = .mismatch then some .misconn
      else if c = .untagged then some .untagged else none := by cases c <;> rfl

/-- Settles O16: one equation of `cablingState` per group of lines, read line by line.
`Tests.test_TheCablingStateTable` meets each line's hypotheses. -/
theorem theCablingStateTable : Obligations.TheCablingStateTable := by
  refine ⟨fun s r p => ⟨cablingState_held, cablingState_unchecked, fun hj hexp hdark => ?darkMatched,
    fun hj hexp hlit => ?litUnexpected, cablingState_noLight, fun t ht htag => ?locked,
    fun ht htag hwait => ?awaiting, fun ht htag hwait => ?untagged⟩, cabCondition_eq⟩
  case darkMatched => rw [cablingState_expectDark hj hexp, if_pos hdark]
  case litUnexpected => rw [cablingState_expectDark hj hexp, if_neg hlit]
  case locked => simp only [cablingState_expectTag ht, htag, Option.elim_some, tagMatches_iff]
  case awaiting =>
    rw [cablingState_expectTag ht, htag, Option.elim_none, if_pos (Option.isSome_iff_ne_none.2 hwait)]
  case untagged =>
    rw [cablingState_expectTag ht, htag, Option.elim_none, if_neg (by simp [hwait])]

end Sys2Proof.Proofs
end

section
/-! Writing in the two modes (R148, R150): the three things a write can do, what `jrnOk` says, and the unreleased records
of the ring. -/

namespace Sys2Proof.Proofs

open Sys2Proof.Machine Sys2Proof.Safety

theorem nextPosition_eq {n : Nat} (h : n < 256) : nextPosition n = (n + 1) % 256 := by
  unfold nextPosition
  split <;> omega

theorem jrnOk_iff (j : Jrn) :
    jrnOk j = true ↔ j.pos < 256 ∧ (1 ≤ j.seq ∧ j.seq ≤ 65535) ∧ j.unrel ≤ 256 ∧
      (if j.stop then j.full = decide (j.unrel = 256) else j.full = false ∧ j.unrel = 0) ∧ j.lost ≤ 65535 ∧
      j.badRel ≤ 65535 := by
  cases hstop : j.stop <;> simp [jrnOk, hstop, and_assoc]

/-- R150: in STOP mode the full flag is set just while 256 records are unreleased. -/
theorem full_eq_of_stop {j : Jrn} (h : jrnOk j = true) (hstop : j.stop = true) : j.full = decide (j.unrel = 256) := by
  obtain ⟨-, -, -, hmode, -⟩ := (jrnOk_iff j).1 h
  rwa [if_pos hstop] at hmode

/-- R148: the record as a write puts it at the next position. -/
def newRecord (now : Nat) (j : Jrn) (b : JBody) : JRecord := { seq := j.seq, body := some b, time := now }

/-- R148: the record put at the next position, with the unreleased count and the full flag its mode leaves. -/
def recorded (now : Nat) (j : Jrn) (b : JBody) (unrel : Nat) (full : Bool) : Jrn :=
  { j with
    ring := j.ring.set (j.pos % 256) (newRecord now j b) (Nat.mod_lt _ (by decide))
    pos := nextPosition j.pos
    seq := nextSeq j.seq
    newestPos := j.pos
    newestSeq := j.seq
    unrel := unrel
    full := full }

section
variable {now : Nat} {j : Jrn} {b : JBody} {unrel : Nat} {full : Bool}

/-! ### The three things a write can do (R150) -/

theorem jrnWrite_wrap (hwrap : j.stop = false) :
    jrnWrite now j b = (recorded now j b j.unrel j.full, [.attn .jrn]) := by
  simp [jrnWrite, recorded, newRecord, hwrap]

theorem jrnWrite_stop (hok : jrnOk j = true) (hstop : j.stop = true) (hroom : j.unrel < 256) :
    jrnWrite now j b = (recorded now j b (j.unrel + 1) (decide (j.unrel + 1 = 256)),
      .attn .jrn :: if j.unrel + 1 = 256 then [.attn .jfull] else []) := by
  have hfull : j.full = false := by simp [full_eq_of_stop hok hstop, hroom.ne]
  by_cases hlast : j.unrel + 1 = 256
  · simp [jrnWrite, recorded, newRecord, hstop, hroom, hlast]
  · simp [jrnWrite, recorded, newRecord, hstop, hroom, hlast, hfull]

theorem jrnWrite_dropped (hstop : j.stop = true) (hheld : 256 ≤ j.unrel) :
    jrnWrite now j b = ({ j with lost := count16 j.lost }, []) := if_pos ⟨hstop, hheld⟩

/-! ### The ring and the invariant after a record is put -/

theorem recorded_ring (hok : jrnOk j = true) (p : Fin 256) :
    (recorded now j b unrel full).ring[p] = if p.val = j.pos then newRecord now j b else j.ring[p] := by
  obtain ⟨hpos, -⟩ := (jrnOk_iff j).1 hok
  simp only [recorded, Fin.getElem_fin, Vector.getElem_set, Nat.mod_eq_of_lt hpos, eq_comm (a := j.pos)]

theorem recorded_pos (hok : jrnOk j = true) : (recorded now j b unrel full).pos = (j.pos + 1) % 256 :=
  nextPosition_eq ((jrnOk_iff j).1 hok).1

theorem ringBack_eq (j : Jrn) (k : Nat) {p : Fin 256} (h : (j.pos + 255 - k) % 256 = p.val) :
    ringBack j k = j.ring[p] := by
  simp only [ringBack, h, Fin.getElem_fin]

/-- The position just written is the one behind the new next position. -/
theorem ringBack_recorded_zero (hok : jrnOk j = true) :
    ringBack (recorded now j b unrel full) 0 = newRecord now j b := by
  obtain ⟨hpos, -⟩ := (jrnOk_iff j).1 hok
  have hplace : ((j.pos + 1) % 256 + 255 - 0) % 256 = j.pos := by omega
  rw [ringBack_eq _ 0 (p := ⟨j.pos, hpos⟩) (by rwa [recorded_pos hok]), recorded_ring hok, if_pos rfl]

/-- Every other record moves one place back: only the one 255 behind, the oldest of a full ring, is overwritten. -/
theorem ringBack_recorded_succ (hok : jrnOk j = true) {k : Nat} (hk : k < 255) :
    ringBack (recorded now j b unrel full) (k + 1) = ringBack j k := by
  obtain ⟨hpos, -⟩ := (jrnOk_iff j).1 hok
  have hback : (j.pos + 255 - k) % 256 < 256 := Nat.mod_lt _ (by decide)
  have hother : (j.pos + 255 - k) % 256 ≠ j.pos := by omega
  have hplace : ((j.pos + 1) % 256 + 255 - (k + 1)) % 256 = (j.pos + 255 - k) % 256 := by omega
  rw [ringBack_eq _ (k + 1) (p := ⟨_, hback⟩) (by rwa [recorded_pos hok]), recorded_ring hok, if_neg hother]
  exact (ringBack_eq j k rfl).symm

theorem jrnOk_recorded (hok : jrnOk j = true) (hunrel : unrel ≤ 256)
    (hmode : if j.stop then full = decide (unrel = 256) else full = false ∧ unrel = 0) :
    jrnOk (recorded now j b unrel full) = true := by
  obtain ⟨-, -, -, -, hlost, hbad⟩ := (jrnOk_iff j).1 hok
  have hpos : (recorded now j b unrel full).pos < 256 := by rw [recorded_pos hok]; omega
  have hseq : 1 ≤ nextSeq j.seq ∧ nextSeq j.seq ≤ 65535 := by
    unfold nextSeq
    split <;> omega
  exact (jrnOk_iff _).2 ⟨hpos, hseq, hunrel, hmode, hlost, hbad⟩

end

/-! ### The write itself -/

/-- R150, R148: each of the three things a write can do keeps the invariant. -/
theorem jrnWrite_keeps_jrnOk (now : Nat) {j : Jrn} (b : JBody) (hok : jrnOk j = true) :
    jrnOk (jrnWrite now j b).1 = true := by
  obtain ⟨hpos, hseq, hunrel, hmode, hlost, hbad⟩ := (jrnOk_iff j).1 hok
  rcases Bool.eq_false_or_eq_true j.stop with hstop | hwrap
  · rcases Nat.lt_or_ge j.unrel 256 with hroom | hheld
    · rw [jrnWrite_stop hok hstop hroom]
      exact jrnOk_recorded hok hroom (by rw [if_pos hstop])
    · rw [jrnWrite_dropped hstop hheld]
      have hcount : count16 j.lost ≤ 65535 := by
        unfold count16
        split <;> omega
      exact (jrnOk_iff _).2 ⟨hpos, hseq, hunrel, hmode, hcount, hbad⟩
  · rw [jrnWrite_wrap hwrap]
    exact jrnOk_recorded hok hunrel hmode

/-- Settles O36: WRAP, STOP with room and STOP without, each from its equation of `jrnWrite`.
`Tests.test_TheJournalWritesByItsMode` meets each case's hypotheses. -/
theorem theJournalWritesByItsMode : Obligations.TheJournalWritesByItsMode := by
  intro now j b hok x written
  have hwritten : ∀ unrel full events, x = (recorded now j b unrel full, .attn .jrn :: events) → written := by
    intro unrel full events hx
    simp only [written, hx]
    exact ⟨recorded_ring hok, recorded_pos hok, rfl, rfl, rfl, rfl, rfl, rfl, List.mem_cons_self⟩
  refine ⟨fun hwrap => ?wrap, fun hstop hroom => ?stop, fun hstop hheld => ?dropped, ?bound,
    jrnWrite_keeps_jrnOk now b hok⟩
  case wrap =>
    have hx : x = _ := jrnWrite_wrap hwrap
    rw [hx]
    exact ⟨hwritten _ _ _ hx, rfl, rfl, by simp⟩
  case stop =>
    have hx : x = _ := jrnWrite_stop hok hstop hroom
    rw [hx]
    exact ⟨hwritten _ _ _ hx, rfl, rfl, by simp, ringBack_recorded_zero hok,
      fun k hk => ringBack_recorded_succ hok (by omega)⟩
  case dropped =>
    have hfull : j.unrel = 256 := hheld.elim id fun hflag => by simpa [full_eq_of_stop hok hstop] using hflag
    exact jrnWrite_dropped hstop hfull.ge
  case bound =>
    obtain ⟨-, -, hunrel, -⟩ := (jrnOk_iff _).1 (jrnWrite_keeps_jrnOk now b hok)
    exact hunrel

end Sys2Proof.Proofs
end

