-- ==== Sys2Proof/Proofs/Changes.lean ====
section
/-! What a step is made of. Every command is a chain of changes, each of them an event of one block or one that leaves the
blocks with an invariant alone, so that an invariant is kept by every step as soon as each event keeps it. -/

namespace Sys2Proof.Proofs

open Sys2Proof.Machine Sys2Proof.Safety Sys2Proof.Laws

/-! ### The events of a block -/

/-- The events of CBC, with what their callers have checked. -/
inductive CbcEvent (s : State) : Cbc × List Msg → Prop
  | ports (cs : List PortChange) : CbcEvent s (cbcPorts s cs)
  | tag (p : Port) : CbcEvent s (cbcTag s p)
  | role (p : Port) (old : Role) : CbcEvent s (cbcRole s p old)
  | frame (f : Nat) : CbcEvent s (cbcFrame s f)
  | tagWait (p : Port) : CbcEvent s (cbcTagWait s p)
  | window (i : OrderIx) : CbcEvent s (cbcWindow s i)
  | verify (i : OrderIx) : CbcEvent s (cbcVerify s i)
  | adopted (ps : List Port) : CbcEvent s (adoptPorts s ps)
  | opened {i : OrderIx} {number : Nat} {f : Option (Fin 8)} {override : Bool} {items : List (Port × Expectation)}
      (window : Nat) (h : judgeWkop s number f override (items.map (·.1)) = .ok i) :
      CbcEvent s (openOrder s i number window f items)
  | ended {i : OrderIx} {o : Order} (h : s.cbc.orders[i] = some o) (hst : o.state = .opened) :
      CbcEvent s (endOrder s i o)
  | cancelled {i : OrderIx} {o : Order} (h : s.cbc.orders[i] = some o) (hst : o.state = .opened ∨ o.state = .verifying) :
      CbcEvent s (cancelOrder s i o)
  | dropped {i : OrderIx} {o : Order} (h : s.cbc.orders[i] = some o)
      (hst : ¬(o.state = .opened ∨ o.state = .verifying)) : CbcEvent s (dropOrder s i o)
  | loaded (p : Port) (e : Expectation) : CbcEvent s (cbcLoad s p e)

/-- The events of PRC. -/
inductive PrcEvent (s : State) : Prc × List Msg → Prop
  | ports (cs : List PortChange) : PrcEvent s (prcPorts s cs)
  | tag (p : Port) : PrcEvent s (prcTag s p)
  | hold (ps : List Port) (held : Bool) : PrcEvent s (prcHold s ps held)
  | expect (ps : List Port) : PrcEvent s (prcExpect s ps)
  | one (gi : GroupIx) (change : Group → Group) : PrcEvent s (prcOne s gi change)
  | loaded (gi : GroupIx) (d : Option GroupDef) : PrcEvent s (prcLoad s gi d)

/-- The events of TSEL. -/
inductive TselEvent (s : State) : Tsel × List Msg → Prop
  | ports (ps : List Port) : TselEvent s (tselPorts s ps)
  | tag (p : Port) : TselEvent s (tselTag s p)
  | group (g : GroupIx) (tap : Option Port) : TselEvent s (tselGroup s g tap)
  | shelf (old : ShelfRec) : TselEvent s (tselShelf s old)
  | loaded (r : RefIx) (e : RefEntry) : TselEvent s (tselLoad s r e)
  | edge (r : RefIx) (gap : Nat) : TselEvent s (tselEdge s r gap)
  | lost (r : RefIx) : TselEvent s (tselLost s r)
  | steer : TselEvent s (tselSteer s)
  | aged : TselEvent s (tselAged s)
  | warm : TselEvent s (tselWarm s)
  | lock (r : RefIx) : TselEvent s (tselLock s r)
  | force (r : RefIx) : TselEvent s (tselForce s r)
  | clear : TselEvent s (tselClear s)

/-- The events of ALM. -/
inductive AlmEvent (s : State) : Alm × List Msg → Prop
  | batch (b : List AlmChange) : AlmEvent s (almBatch s b)
  | profile (t : Fin 24) (pf : AlarmProfile) : AlmEvent s (almProfile s t pf)
  | raise (i : EntryIx) : AlmEvent s (almRaise s i)
  | clear (i : EntryIx) : AlmEvent s (almClear s i)
  | ack (is : List EntryIx) : AlmEvent s (almAck s is)
  | cutOff : AlmEvent s (almCutOff s)

/-- The events of JRN. -/
inductive JrnEvent (s : State) : Jrn × List Msg → Prop
  | records (bs : List JBody) : JrnEvent s (jrnRecords s bs)
  | release (v : Nat) : JrnEvent s (jrnRelease s v)
  | mode (stop : Bool) : JrnEvent s (jrnMode s stop)

/-! ### Changes -/

/-- A change that leaves alone the blocks with an invariant, the memory's form kept. -/
structure Leaves (s t : State) : Prop where
  cbc     : t.cbc = s.cbc
  prc     : t.prc = s.prc
  tsel    : t.tsel = s.tsel
  tsp     : t.tsp = s.tsp
  alm     : t.alm = s.alm
  jrn     : t.jrn = s.jrn
  straps  : t.straps = s.straps
  pending : t.pending = s.pending
  host    : hostOk s = true → hostOk t = true

theorem Leaves.trans {s t u : State} (h : Leaves s t) (k : Leaves t u) : Leaves s u where
  cbc := k.cbc.trans h.cbc
  prc := k.prc.trans h.prc
  tsel := k.tsel.trans h.tsel
  tsp := k.tsp.trans h.tsp
  alm := k.alm.trans h.alm
  jrn := k.jrn.trans h.jrn
  straps := k.straps.trans h.straps
  pending := k.pending.trans h.pending
  host hs := k.host (h.host hs)

/-- One of the changes a command is made of. -/
inductive Change : State → State → Prop
  | leaves {s t : State} (h : Leaves s t) : Change s t
  | cbc {s : State} {r : Cbc × List Msg} (h : CbcEvent s r) : Change s (putCbc s r).1
  | prc {s : State} {r : Prc × List Msg} (h : PrcEvent s r) : Change s (putPrc s r).1
  | tsel {s : State} {r : Tsel × List Msg} (old : ShelfRec) (h : TselEvent s r) : Change s (putTselFrom old s r).1
  | alm {s : State} {r : Alm × List Msg} (h : AlmEvent s r) : Change s (putAlm s r).1
  | jrn {s : State} {r : Jrn × List Msg} (h : JrnEvent s r) : Change s (putJrn s r).1
  | warm (s : State) : Change s (warmRestart s)
  | readyTimers (s : State) : Change s { s with
      start := { s.start with ready := true, periods := 0 }
      tcd := { s.tcd with pos := 0 }
      cbc := startTagWaits s s.cbc
      ciu := startDebounce s.ciu }
  | readyTiming (s : State) : Change s { s with tsel := (tselReady s).1 }

/-- A chain of changes. -/
abbrev Changes : State → State → Prop := Relation.ReflTransGen Change

theorem Leaves.changes {s t : State} (h : Leaves s t) : Changes s t := .single (.leaves h)

theorem Changes.then {s t u : State} (h : Changes s t) (k : Leaves t u) : Changes s u := h.tail (.leaves k)

/-! ### What hands on, and what is handed on -/

/-- A message is an event of the block that takes it. -/
theorem deliver_change (m : Msg) (s : State) : Change s (deliver m s).1 := by
  cases m with
  | cbcPorts cs => exact .cbc (.ports cs)
  | cbcTag p => exact .cbc (.tag p)
  | cbcRole p old => exact .cbc (.role p old)
  | cbcFrame f => exact .cbc (.frame f)
  | prcPorts cs => exact .prc (.ports cs)
  | prcTag p => exact .prc (.tag p)
  | prcHold ps held => exact .prc (.hold ps held)
  | prcExpect ps => exact .prc (.expect ps)
  | tselPorts ps => exact .tsel _ (.ports ps)
  | tselTag p => exact .tsel _ (.tag p)
  | tselHold ps => exact .tsel _ (.ports ps)
  | tselGroup g tap => exact .tsel _ (.group g tap)
  | tselShelf old => exact .tsel old (.shelf old)
  | alm b => exact .alm (.batch b)
  | almCutOff => exact .alm .cutOff
  | jrn bs => exact .jrn (.records bs)
  | jrnMode stop => exact .jrn (.mode stop)
  | _ => exact .leaves ⟨rfl, rfl, rfl, rfl, rfl, rfl, rfl, rfl, id⟩

theorem settled_changes {s : State} {r : State × List Msg} (h : Changes s r.1) : Changes s (settled r) :=
  h.trans <| settle_rel (Q := fun _ => True) (P := Changes) (fun _ => .refl) (fun _ _ _ => .trans)
    (fun _ => Leaves.changes ⟨rfl, rfl, rfl, rfl, rfl, rfl, rfl, rfl, id⟩) (fun _ _ _ _ => trivial)
    (fun _ _ _ _ _ => trivial) (fun m s _ => .single (deliver_change m s)) 10 r.2 r.1 fun _ _ => trivial

section
variable {s : State}

theorem settledCbc_changes {r : Cbc × List Msg} (h : CbcEvent s r) : Changes s (settled (putCbc s r)) :=
  settled_changes (.single (.cbc h))
theorem settledPrc_changes {r : Prc × List Msg} (h : PrcEvent s r) : Changes s (settled (putPrc s r)) :=
  settled_changes (.single (.prc h))
theorem settledTsel_changes {r : Tsel × List Msg} (h : TselEvent s r) : Changes s (settled (putTsel s r)) :=
  settled_changes (.single (.tsel _ h))
theorem settledAlm_changes {r : Alm × List Msg} (h : AlmEvent s r) : Changes s (settled (putAlm s r)) :=
  settled_changes (.single (.alm h))
theorem settledJrn_changes {r : Jrn × List Msg} (h : JrnEvent s r) : Changes s (settled (putJrn s r)) :=
  settled_changes (.single (.jrn h))
theorem settledPmon_changes (r : Pmon × List Msg) : Changes s (settled (putPmon s r)) :=
  settled_changes (Leaves.changes ⟨rfl, rfl, rfl, rfl, rfl, rfl, rfl, rfl, id⟩)
theorem settledCiu_changes (r : Vector ContactIn 8 × List Msg) : Changes s (settled (putCiu s r)) :=
  settled_changes (Leaves.changes ⟨rfl, rfl, rfl, rfl, rfl, rfl, rfl, rfl, id⟩)

end

theorem takeSample_changes (s : State) (x : Sample) : Changes s (takeSample s x) :=
  settled_changes (Leaves.changes ⟨rfl, rfl, rfl, rfl, rfl, rfl, rfl, rfl, id⟩)

theorem sendFrame_leaves (s : State) : Leaves s (sendFrame s) := by
  simp only [sendFrame]
  split <;> exact ⟨rfl, rfl, rfl, rfl, rfl, rfl, rfl, rfl, id⟩

theorem enterReady_changes (s : State) : Changes s (enterReady s) := by
  have htimers := settled_changes ((Relation.ReflTransGen.single (.readyTimers s)).tail
    (.jrn (.records [.restart (restartCode s)])))
  refine settled_changes (((htimers.then ?rst)).tail (.readyTiming _))
  exact ⟨rfl, rfl, rfl, rfl, rfl, rfl, rfl, rfl, id⟩

/-! ### Slots, memory and the host port -/

theorem hostOk_iff (s : State) : hostOk s = true ↔ memWf s.mem = true ∧ s.hpi.foreign ≤ 65535 := by simp [hostOk]

/-- A change of RQU's data, the memory written in its form. -/
theorem leaves_mem {s t : State} (h : t = { s with rqu := t.rqu, hpi := t.hpi, mem := t.mem, pmon := t.pmon })
    (hforeign : t.hpi.foreign = s.hpi.foreign) (hmem : memWf s.mem = true → memWf t.mem = true) : Leaves s t := by
  have hhost : hostOk s = true → hostOk t = true := by
    intro hs
    obtain ⟨hwf, hcount⟩ := (hostOk_iff s).1 hs
    exact (hostOk_iff t).2 ⟨hmem hwf, hforeign ▸ hcount⟩
  constructor
  case host => exact hhost
  all_goals rw [h]

theorem mem_leaves {s : State} {m : List Host.Cell} (h : memWf s.mem = true → memWf m = true) :
    Leaves s { s with mem := m } := leaves_mem rfl rfl h

theorem showSlot_leaves (s : State) (k : SlotIx) (st : SlotState) : Leaves s (showSlot s k st) :=
  leaves_mem rfl rfl (memWriteAll_wf _ _ _)

theorem answer_leaves (s : State) (k : SlotIx) (r : Result) (d : Nat) : Leaves s (answer s k r d) :=
  leaves_mem rfl rfl fun h => memWriteAll_wf _ _ _ (memWriteAll_wf _ _ _ h)

theorem takeNext_leaves (s : State) : Leaves s (takeNext s) := by
  unfold takeNext
  split
  · exact ⟨rfl, rfl, rfl, rfl, rfl, rfl, rfl, rfl, id⟩
  · split
    · next k _ => exact (showSlot_leaves s k .busy).trans ⟨rfl, rfl, rfl, rfl, rfl, rfl, rfl, rfl, id⟩
    · exact ⟨rfl, rfl, rfl, rfl, rfl, rfl, rfl, rfl, id⟩

theorem endExec_leaves (s : State) : Leaves s (endExec s) :=
  .trans (t := { s with rqu := { s.rqu with exec := none } }) ⟨rfl, rfl, rfl, rfl, rfl, rfl, rfl, rfl, id⟩
    (takeNext_leaves _)

theorem finish_leaves (s : State) (k : SlotIx) (r : Result) (d : Nat) : Leaves s (finish s k r d) :=
  (answer_leaves s k r d).trans (endExec_leaves _)

theorem foreign_leaves (s : State) : Leaves s (foreign s) := by
  refine ⟨rfl, rfl, rfl, rfl, rfl, rfl, rfl, rfl, fun hs => ?_⟩
  obtain ⟨hwf, -⟩ := (hostOk_iff s).1 hs
  refine (hostOk_iff _).2 ⟨hwf, ?_⟩
  simp only [foreign, count16]
  split <;> omega

theorem putWord_leaves (s : State) (a : Nat) (w : Word) : Leaves s { s with mem := memPutWord s.mem a w } :=
  mem_leaves (memPutWord_wf _ _ _)

theorem slotWrite_leaves (s : State) (k : SlotIx) (a : Nat) (w : Word) : Leaves s (slotWrite s k a w) := by
  simp only [slotWrite]
  split
  · split
    · exact (putWord_leaves s a w).trans ((showSlot_leaves _ k .queued).trans (takeNext_leaves _))
    · exact putWord_leaves s a w
  · exact foreign_leaves s

theorem registerWrite_changes (s : State) (off : Nat) (w : Word) : Changes s (registerWrite s off w) := by
  unfold registerWrite
  split
  · exact (foreign_leaves s).changes
  · split
    · exact Leaves.changes ⟨rfl, rfl, rfl, rfl, rfl, rfl, rfl, rfl, id⟩
    · split
      · exact Leaves.changes ⟨rfl, rfl, rfl, rfl, rfl, rfl, rfl, rfl, id⟩
      · split
        · split
          · exact .single (.warm s)
          · exact .refl
        · exact .refl

theorem hostWord_changes (s : State) (a : Nat) (w : Word) : Changes s (hostWord s a w) := by
  unfold hostWord
  cases regionOf a with
  | slot k => exact (slotWrite_leaves s k a w).changes
  | staging => exact (putWord_leaves s a w).changes
  | release => exact settled_changes ((putWord_leaves s a w).changes.tail (.jrn (.release w.toNat)))
  | register => exact registerWrite_changes s _ w
  | unassigned => exact .refl
  | _ => exact (foreign_leaves s).changes

theorem held_leaves (s : State) (x : Option (Addr × Byte)) : Leaves s { s with hpi := { s.hpi with held := x } } :=
  ⟨rfl, rfl, rfl, rfl, rfl, rfl, rfl, rfl, id⟩

theorem hostWordWrite_changes (s : State) (a : Nat) (w : Word) : Changes s (hostWordWrite s a w) :=
  (held_leaves s none).changes.trans (hostWord_changes _ a w)

theorem hostByteWrite_changes (s : State) (a : Addr) (b : Byte) : Changes s (hostByteWrite s a b) := by
  unfold hostByteWrite
  split
  · split
    · exact hostWordWrite_changes s _ _
    · exact Leaves.changes ⟨rfl, rfl, rfl, rfl, rfl, rfl, rfl, rfl, id⟩
  · exact Leaves.changes ⟨rfl, rfl, rfl, rfl, rfl, rfl, rfl, rfl, id⟩

theorem hostByteRead_leaves (s : State) (a : Addr) : Leaves s (hostByteRead s a) := by
  unfold hostByteRead newSnapshot
  split
  · split
    · exact ⟨rfl, rfl, rfl, rfl, rfl, rfl, rfl, rfl, id⟩
    · split
      · exact ⟨rfl, rfl, rfl, rfl, rfl, rfl, rfl, rfl, id⟩
      · split <;> exact ⟨rfl, rfl, rfl, rfl, rfl, rfl, rfl, rfl, id⟩
  · exact ⟨rfl, rfl, rfl, rfl, rfl, rfl, rfl, rfl, id⟩

/-! ### Requests -/

theorem runRequest_changes (s : State) (k : SlotIx) (r : Request) {owner : State → Reply}
    (ho : Changes s (owner s).1) : Changes s (runRequest s k r owner) := by
  simp only [runRequest]
  split
  · split
    · exact ho.then (finish_leaves _ _ _ _)
    · exact ho.then (endExec_leaves _)
  · exact .refl

theorem writeOutcomes_leaves (s : State) (j : Job) : Leaves s (writeOutcomes s j) :=
  mem_leaves (memWriteAll_wf s.mem _ _)

theorem endJob_leaves (s : State) (j : Job) (r : Result) : Leaves s (endJob s j r) := by
  simp only [endJob]
  have hanswer := (writeOutcomes_leaves s j).trans (answer_leaves _ j.slot r (jobCalibrated s.pmon j))
  generalize answer (writeOutcomes s j) j.slot r (jobCalibrated s.pmon j) = t at hanswer
  exact hanswer.trans ⟨rfl, rfl, rfl, rfl, rfl, rfl, rfl, rfl, id⟩

theorem jobDone_leaves (s : State) (k : SlotIx) : Leaves s (jobDone s k) := by
  unfold jobDone
  split
  · split
    · exact endJob_leaves s _ _
    · exact ⟨rfl, rfl, rfl, rfl, rfl, rfl, rfl, rfl, id⟩
  · exact ⟨rfl, rfl, rfl, rfl, rfl, rfl, rfl, rfl, id⟩

theorem askCalb_changes (k : SlotIx) (s : State) : Changes s (askCalb k s).1 := by
  simp only [askCalb]
  split
  · exact .refl
  · split
    · exact .refl
    · split
      · exact .refl
      · split
        · exact .refl
        · refine Relation.ReflTransGen.trans (Leaves.changes ?_) (settledPmon_changes _)
          exact ⟨rfl, rfl, rfl, rfl, rfl, rfl, rfl, rfl, id⟩

theorem askAbrt_changes (k : SlotIx) (s : State) : Changes s (askAbrt k s).1 := by
  simp only [askAbrt]
  split
  · exact .refl
  · split
    · exact (answer_leaves s _ _ _).changes
    · exact (settledPmon_changes _).then (endJob_leaves _ _ _)
    · exact .refl

theorem askRdtb_changes (k : SlotIx) (s : State) : Changes s (askRdtb k s).1 := by
  simp only [askRdtb]
  split
  · exact .refl
  · split
    · exact (mem_leaves (memWriteAll_wf s.mem _ _)).changes
    · exact .refl

theorem askAdpt_changes (k : SlotIx) (s : State) : Changes s (askAdpt k s).1 := by
  simp only [askAdpt, done]
  split
  · exact .refl
  · split
    · exact .refl
    · exact settledCbc_changes (.adopted _)

theorem askWkop_changes (k : SlotIx) (s : State) : Changes s (askWkop k s).1 := by
  simp only [askWkop, done]
  split
  · split
    · exact .refl
    · split
      · exact .refl
      · next h => exact settledCbc_changes (.opened _ h)
  · exact .refl

/-- The entry a request names holds the order it is answered with. -/
theorem namedOrder_ok {s : State} {k : SlotIx} {x : OrderIx × Order} (h : namedOrder s k = .ok x) :
    s.cbc.orders[x.1] = some x.2 := by
  unfold namedOrder at h
  simp only at h
  split at h
  · cases h
  · split at h
    · cases h
    · split at h
      · next ho => cases h; exact ho
      · cases h

theorem askWken_changes (k : SlotIx) (s : State) : Changes s (askWken k s).1 := by
  simp only [askWken, done]
  split
  · exact .refl
  · next h =>
    split
    · next hst => exact settledCbc_changes (.ended (namedOrder_ok h) hst)
    · exact .refl

theorem askWkcn_changes (k : SlotIx) (s : State) : Changes s (askWkcn k s).1 := by
  simp only [askWkcn, done]
  split
  · exact .refl
  · next h =>
    split
    · next hst => exact settledCbc_changes (.cancelled (namedOrder_ok h) hst)
    · exact .refl

theorem askWkdr_changes (k : SlotIx) (s : State) : Changes s (askWkdr k s).1 := by
  simp only [askWkdr, done]
  split
  · exact .refl
  · next h =>
    split
    · exact .refl
    · next hst => exact settledCbc_changes (.dropped (namedOrder_ok h) hst)

theorem askPslo_changes (k : SlotIx) (s : State) : Changes s (askPslo k s).1 := by
  simp only [askPslo, done]
  split
  · exact .refl
  · exact settledPrc_changes (.one _ _)

theorem askPsfs_changes (k : SlotIx) (s : State) : Changes s (askPsfs k s).1 := by
  simp only [askPsfs, done]
  split
  · exact .refl
  · split
    · exact .refl
    · split
      · exact .refl
      · exact settledPrc_changes (.one _ _)

theorem askPsms_changes (k : SlotIx) (s : State) : Changes s (askPsms k s).1 := by
  simp only [askPsms, done]
  split
  · exact .refl
  · split
    · exact .refl
    · split
      · exact .refl
      · exact settledPrc_changes (.one _ _)

theorem askPscl_changes (k : SlotIx) (s : State) : Changes s (askPscl k s).1 := by
  simp only [askPscl, done]
  split
  · exact .refl
  · exact settledPrc_changes (.one _ _)

theorem askTmlk_changes (k : SlotIx) (s : State) : Changes s (askTmlk k s).1 := by
  simp only [askTmlk, done]
  split
  · exact .refl
  · exact settledTsel_changes (.lock _)

theorem askTmfs_changes (k : SlotIx) (s : State) : Changes s (askTmfs k s).1 := by
  simp only [askTmfs, done]
  split
  · exact .refl
  · exact settledTsel_changes (.force _)

theorem askTmcl_changes (s : State) : Changes s (askTmcl s).1 := by
  simp only [askTmcl, done]
  split
  · exact settledTsel_changes .clear
  · exact .refl

theorem askAlak_changes (k : SlotIx) (s : State) : Changes s (askAlak k s).1 := by
  simp only [askAlak, done]
  split
  · generalize List.finRange 128 = is
    exact settledAlm_changes (.ack is)
  · split
    · next h =>
      split
      · exact settledAlm_changes (.ack [⟨_, h⟩])
      · exact .refl
    · exact .refl

theorem askAlco_changes (s : State) : Changes s (askAlco s).1 := by
  simp only [askAlco, done]
  exact settledAlm_changes .cutOff

/-! ### Table loads -/

/-- A table's application of one entry is a chain of changes. -/
def AppliesChanges (apply : State → Nat → List Byte → Option (State × Nat)) : Prop :=
  ∀ (s : State) (i : Nat) (e : List Byte), ∀ x ∈ apply s i e, Changes s x.1

theorem loadEntries_changes {apply : State → Nat → List Byte → Option (State × Nat)} (ha : AppliesChanges apply)
    (size base first n k clamps : Nat) (s : State) : Changes s (loadEntries apply size base first n k clamps s).1 := by
  induction n generalizing k clamps s with
  | zero => exact .refl
  | succ n ih =>
    unfold loadEntries
    split
    · exact .refl
    · next x hx => exact (ha s _ _ x hx).trans (ih _ _ _)

theorem askLoad_changes (t : Table) {apply : State → Nat → List Byte → Option (State × Nat)}
    (ha : AppliesChanges apply) (k : SlotIx) (s : State) : Changes s (askLoad t apply k s).1 := by
  simp only [askLoad]
  split
  · exact loadEntries_changes ha _ _ _ _ _ _ s
  · exact .refl

/-- What an entry that is read makes of the state. -/
theorem changes_of_mem_map {α : Type} {o : Option α} {f : α → State} {g : α → Nat} {s : State}
    (hf : ∀ y ∈ o, Changes s (f y)) : ∀ x ∈ o.map (fun y => (f y, g y)), Changes s x.1 := by
  rintro x hx
  obtain ⟨y, hy, rfl⟩ := Option.mem_map.1 hx
  exact hf y hy

theorem applyShelf_changes (s : State) (c : ShelfRec) : Changes s (applyShelf s c) := by
  simp only [applyShelf]
  apply settled_changes
  apply Leaves.changes
  exact ⟨rfl, rfl, rfl, rfl, rfl, rfl, rfl, rfl, id⟩

theorem loadShelf_changes : AppliesChanges loadShelf :=
  fun s _ _ => changes_of_mem_map fun x _ => applyShelf_changes s x.1

theorem loadProfile_changes : AppliesChanges loadProfile := by
  intro s i e x hx
  cases hx
  exact Leaves.changes ⟨rfl, rfl, rfl, rfl, rfl, rfl, rfl, rfl, id⟩

theorem loadPort_changes : AppliesChanges loadPort := fun _ _ _ => changes_of_mem_map fun _ _ => settledPmon_changes _
theorem loadCabling_changes : AppliesChanges loadCabling :=
  fun _ _ _ => changes_of_mem_map fun _ _ => settledCbc_changes (.loaded _ _)
theorem loadGroup_changes : AppliesChanges loadGroup :=
  fun _ _ _ => changes_of_mem_map fun _ _ => settledPrc_changes (.loaded _ _)
theorem loadRefEntry_changes : AppliesChanges loadRefEntry :=
  fun _ _ _ => changes_of_mem_map fun _ _ => settledTsel_changes (.loaded _ _)
theorem loadAlarm_changes : AppliesChanges loadAlarm :=
  fun _ _ _ => changes_of_mem_map fun _ _ => settledAlm_changes (.profile _ _)
theorem loadContact_changes : AppliesChanges loadContact :=
  fun _ _ _ => changes_of_mem_map fun _ _ => settledCiu_changes _

/-! ### Commands -/

/-- An answer is a next state that a chain of changes leads to. -/
def AnswersChanges (s : State) (a : Answer) : Prop := ∃ t, a = .next t ∧ Changes s t

section
variable {s : State}

theorem answersChanges_next {t : State} (h : Changes s t) : AnswersChanges s (.next t) := ⟨t, rfl, h⟩

theorem answersChanges_whenever {c : Bool} {t : State} (h : Changes s t) : AnswersChanges s (whenever c s t) := by
  refine answersChanges_next ?_
  split
  · exact h
  · exact .refl

theorem answersChanges_sample {c : Bool} (x : Sample) : AnswersChanges s (whenever c s (takeSample s x)) :=
  answersChanges_whenever (takeSample_changes s x)

theorem answersChanges_hostWord {c : Bool} (a : Nat) (w : Word) :
    AnswersChanges s (whenever c s (hostWordWrite s a w)) := answersChanges_whenever (hostWordWrite_changes s a w)

theorem answersChanges_request (k : SlotIx) (r : Request) {owner : State → Reply} (h : Changes s (owner s).1) :
    AnswersChanges s (.next (runRequest s k r owner)) := answersChanges_next (runRequest_changes s k r h)

end

theorem advanceRun_leaves (s : State) (write : Bool) (x : HostAddr) (a : Addr) : Leaves s (advanceRun s write x a) :=
  ⟨rfl, rfl, rfl, rfl, rfl, rfl, rfl, rfl, id⟩

theorem hostByteWrite_answersChanges (x : HostAddr) (b : Byte) (s : State) :
    AnswersChanges s (execHostByteWrite x b s) := by
  unfold execHostByteWrite
  split
  · exact answersChanges_next .refl
  · next a _ =>
    refine answersChanges_next ((advanceRun_leaves s true x a).changes.trans ?_)
    split
    · exact hostByteWrite_changes _ _ _
    · exact .refl

theorem hostByteRead_answersChanges (x : HostAddr) (s : State) : AnswersChanges s (execHostByteRead x s) := by
  unfold execHostByteRead
  split
  · exact answersChanges_next .refl
  · next a _ => exact answersChanges_next ((advanceRun_leaves s false x a).trans (hostByteRead_leaves _ a)).changes

theorem contactPinChange_answersChanges (i : InputIx) (high : Bool) (s : State) :
    AnswersChanges s (execContactPinChange i high s) := by
  unfold execContactPinChange
  split
  · exact answersChanges_whenever (Leaves.changes ⟨rfl, rfl, rfl, rfl, rfl, rfl, rfl, rfl, id⟩)
  · exact answersChanges_next (Leaves.changes ⟨rfl, rfl, rfl, rfl, rfl, rfl, rfl, rfl, id⟩)

/-- Every command but a cold reset is a chain of changes. -/
theorem exec_changes (c : Instr) (s : State) (hcold : ∀ pop64 shid parallel, c ≠ .coldReset pop64 shid parallel) :
    AnswersChanges s (exec c s) := by
  cases c with
  | sample x => exact answersChanges_sample x
  | monLost x => exact answersChanges_sample x
  | trackingPoint x => exact answersChanges_sample x
  | cardStateAccepted x => exact answersChanges_sample x
  | portCalibrated x => exact answersChanges_sample x
  | calbJobDone k => exact answersChanges_next (jobDone_leaves s k).changes
  | decoderLoss x => exact answersChanges_sample x
  | lcpFrame => exact answersChanges_next (sendFrame_leaves s).changes
  | tagWaitExpiry p => exact answersChanges_whenever (settledCbc_changes (.tagWait p))
  | windowExpiry i => exact answersChanges_whenever (settledCbc_changes (.window i))
  | verifyTimerExpiry i => exact answersChanges_whenever (settledCbc_changes (.verify i))
  | holdOffExpiry g m => exact answersChanges_whenever (settledPrc_changes (.one g _))
  | wtrExpiry g => exact answersChanges_whenever (settledPrc_changes (.one g _))
  | bridgeConfirmationExpiry g => exact answersChanges_whenever (settledPrc_changes (.one g _))
  | activityLost r => exact answersChanges_whenever (settledTsel_changes (.lost r))
  | activityRegained r gap => exact answersChanges_whenever (settledTsel_changes (.edge r gap))
  | windowComplete r gap => exact answersChanges_whenever (settledTsel_changes (.edge r gap))
  | warmUpEnd => exact answersChanges_whenever (settledTsel_changes .warm)
  | steeringTimerExpiry => exact answersChanges_whenever (settledTsel_changes .steer)
  | holdoverAged => exact answersChanges_whenever (settledTsel_changes .aged)
  | raiseSoakExpiry i => exact answersChanges_whenever (settledAlm_changes (.raise i))
  | clearSoakExpiry i => exact answersChanges_whenever (settledAlm_changes (.clear i))
  | contactPinChange i high => exact contactPinChange_answersChanges i high s
  | debounceExpiry i => exact answersChanges_whenever (settled_changes (settledCiu_changes _))
  | hostByteWrite x b => exact hostByteWrite_answersChanges x b s
  | hostByteRead x => exact hostByteRead_answersChanges x s
  | attnClr w => exact answersChanges_hostWord _ w
  | attnMask w => exact answersChanges_hostWord _ w
  | registerWriteOther a w => exact answersChanges_hostWord _ w
  | unknownCode k => exact answersChanges_whenever (finish_leaves _ _ _ _).changes
  | ldsh k => exact answersChanges_request k _ (askLoad_changes _ loadShelf_changes k s)
  | ldpf k => exact answersChanges_request k _ (askLoad_changes _ loadProfile_changes k s)
  | ldpt k => exact answersChanges_request k _ (askLoad_changes _ loadPort_changes k s)
  | ldcr k => exact answersChanges_request k _ (askLoad_changes _ loadCabling_changes k s)
  | ldpg k => exact answersChanges_request k _ (askLoad_changes _ loadGroup_changes k s)
  | ldtr k => exact answersChanges_request k _ (askLoad_changes _ loadRefEntry_changes k s)
  | ldap k => exact answersChanges_request k _ (askLoad_changes _ loadAlarm_changes k s)
  | ldci k => exact answersChanges_request k _ (askLoad_changes _ loadContact_changes k s)
  | rdtb k => exact answersChanges_request k _ (askRdtb_changes k s)
  | adpt k => exact answersChanges_request k _ (askAdpt_changes k s)
  | calb k => exact answersChanges_request k _ (askCalb_changes k s)
  | wkop k => exact answersChanges_request k _ (askWkop_changes k s)
  | wken k => exact answersChanges_request k _ (askWken_changes k s)
  | wkcn k => exact answersChanges_request k _ (askWkcn_changes k s)
  | wkdr k => exact answersChanges_request k _ (askWkdr_changes k s)
  | pslo k => exact answersChanges_request k _ (askPslo_changes k s)
  | psfs k => exact answersChanges_request k _ (askPsfs_changes k s)
  | psms k => exact answersChanges_request k _ (askPsms_changes k s)
  | pscl k => exact answersChanges_request k _ (askPscl_changes k s)
  | tmlk k => exact answersChanges_request k _ (askTmlk_changes k s)
  | tmfs k => exact answersChanges_request k _ (askTmfs_changes k s)
  | tmcl k => exact answersChanges_request k _ (askTmcl_changes s)
  | alak k => exact answersChanges_request k _ (askAlak_changes k s)
  | alco k => exact answersChanges_request k _ (askAlco_changes s)
  | abrt k => exact answersChanges_request k _ (askAbrt_changes k s)
  | coldReset pop64 shid parallel => exact absurd rfl (hcold pop64 shid parallel)
  | warmRestart => exact answersChanges_hostWord _ _
  | enterReady => exact answersChanges_whenever (enterReady_changes s)
  | referenceRisingEdge r gap => exact answersChanges_whenever (settledTsel_changes (.edge r gap))

/-! ### What every change keeps -/

/-- A property of the state that every change keeps, and with it a reset and the passing of time. -/
structure Kept (I : State → Prop) : Prop where
  change : ∀ s t, Change s t → I s → I t
  cold   : ∀ straps pins choices pending, I (State.cold straps pins choices pending)
  tick   : ∀ s, I s → I (tickReady s)
  queue  : ∀ s pending, I s → I { s with pending := pending }

theorem Kept.changes {I : State → Prop} (k : Kept I) {s t : State} (h : Changes s t) (hs : I s) : I t := by
  induction h with
  | refl => exact hs
  | tail _ hc ih => exact k.change _ _ hc ih

theorem Kept.exec {I : State → Prop} (k : Kept I) {s t : State} {c : Instr} (h : exec c s = .next t) (hs : I s) :
    I t := by
  by_cases hcold : ∃ pop64 shid parallel, c = .coldReset pop64 shid parallel
  · obtain ⟨_, _, _, rfl⟩ := hcold
    cases h
    exact k.cold _ _ _ _
  · obtain ⟨u, hu, hc⟩ := exec_changes c s fun a b d hc => hcold ⟨a, b, d, hc⟩
    rw [h] at hu
    cases hu
    exact k.changes hc hs

theorem freely_leaves {α : Type} (l : List α) (s : State) : Leaves s (freely l s).2 := by
  rcases freely_state l s with h | h <;> rw [h] <;> exact ⟨rfl, rfl, rfl, rfl, rfl, rfl, rfl, rfl, id⟩

theorem tickInit_leaves (s : State) : Leaves s (tickInit s) := ⟨rfl, rfl, rfl, rfl, rfl, rfl, rfl, rfl, id⟩

theorem Kept.tickStep {I : State → Prop} (k : Kept I) {s : State} (hs : I s) : I (Machine.tick s) := by
  simp only [Machine.tick]
  split
  · exact k.queue _ _ (k.change _ _ (.leaves (freely_leaves _ _)) hs)
  · split
    · exact k.tick s hs
    · exact k.change _ _ (.leaves (tickInit_leaves s)) hs

/-- What every change keeps, every step keeps. -/
theorem Kept.step {I : State → Prop} (k : Kept I) {s t : State} (h : step s = .next t) (hs : I s) : I t := by
  unfold Machine.step at h
  split at h
  · exact k.exec h (k.queue _ _ hs)
  · cases h
    exact k.tickStep hs

end Sys2Proof.Proofs
end

