-- ==== Sys2Proof/Proofs/JournalAndMemory.lean ====
section
/-! The journal counted and the memory in its form, by every step. -/

namespace Sys2Proof.Proofs

open Sys2Proof.Machine Sys2Proof.Safety Sys2Proof.Laws

/-! ### The journal -/

theorem reset_jrnOk : jrnOk Jrn.reset = true := by decide

theorem jrnWriteAll_jrnOk (now : Nat) (bs : List JBody) {j : Jrn} (hok : jrnOk j = true) :
    jrnOk (jrnWriteAll now j bs).1 = true := by
  induction bs generalizing j with
  | nil => exact hok
  | cons b bs ih => exact ih (jrnWrite_keeps_jrnOk now b hok)

theorem jrnStamp_jrnOk (old : Jrn) {new : Jrn} (hok : jrnOk new = true) : jrnOk (jrnStamp old new) = true := by
  unfold jrnStamp
  split <;> exact hok

theorem count16_le (n : Nat) : count16 n ≤ 65535 := by
  unfold count16
  split <;> omega

/-- R151: a released value leaves fewer records unreleased than there were. -/
theorem releasePoint_lt {j : Jrn} {v k : Nat} (h : releasePoint j v = some k) : k < j.unrel := by
  unfold releasePoint at h
  split at h
  · cases h
  · exact List.mem_range.1 (List.mem_of_find?_eq_some h)

theorem lostReported_jrnOk {j : Jrn} (hok : jrnOk j = true) : jrnOk { j with lost := 0 } = true := by
  obtain ⟨hpos, hseq, hunrel, hmode, -, hbad⟩ := (jrnOk_iff j).1 hok
  exact (jrnOk_iff _).2 ⟨hpos, hseq, hunrel, hmode, Nat.zero_le _, hbad⟩

theorem jrnRelease_jrnOk (s : State) (v : Nat) (hok : jrnOk s.jrn = true) : jrnOk (jrnRelease s v).1 = true := by
  obtain ⟨hpos, hseq, hunrel, hmode, hlost, hbad⟩ := (jrnOk_iff _).1 hok
  simp only [jrnRelease]
  split
  · exact hok
  · next hstop =>
    have hstop : s.jrn.stop = true := by simpa using hstop
    rw [if_pos hstop] at hmode
    split
    · exact jrnStamp_jrnOk _ ((jrnOk_iff _).2 ⟨hpos, hseq, hunrel, by rwa [if_pos hstop], hlost, count16_le _⟩)
    · next k hk =>
      have hlt : k < 256 := Nat.lt_of_lt_of_le (releasePoint_lt hk) hunrel
      have hroom : jrnOk { s.jrn with unrel := k, full := false } = true :=
        (jrnOk_iff _).2 ⟨hpos, hseq, Nat.le_of_lt hlt, by simp [hstop]; omega, hlost, hbad⟩
      rw [if_pos hlt]
      split
      · exact jrnStamp_jrnOk _ (lostReported_jrnOk (jrnWrite_keeps_jrnOk s.now (.lost s.jrn.lost) hroom))
      · exact jrnStamp_jrnOk _ hroom

theorem jrnDiscard_jrnOk {j : Jrn} (stop : Bool) (hok : jrnOk j = true) : jrnOk (jrnDiscard j stop) = true := by
  obtain ⟨-, -, -, -, -, hbad⟩ := (jrnOk_iff _).1 hok
  exact (jrnOk_iff _).2 ⟨by simp [jrnDiscard, Jrn.reset], by simp [jrnDiscard, Jrn.reset],
    by simp [jrnDiscard, Jrn.reset], by simp [jrnDiscard, Jrn.reset], by simp [jrnDiscard, Jrn.reset], hbad⟩

theorem jrnMode_jrnOk (s : State) (stop : Bool) (hok : jrnOk s.jrn = true) : jrnOk (jrnMode s stop).1 = true := by
  simp only [jrnMode]
  split
  · exact hok
  · exact jrnStamp_jrnOk _ (jrnWrite_keeps_jrnOk _ _ (jrnDiscard_jrnOk stop hok))

theorem jrnEvent_jrnOk {s : State} {r : Jrn × List Msg} (h : JrnEvent s r) (hok : jrnOk s.jrn = true) :
    jrnOk r.1 = true := by
  cases h with
  | records bs => exact jrnStamp_jrnOk _ (jrnWriteAll_jrnOk _ bs hok)
  | release v => exact jrnRelease_jrnOk s v hok
  | mode stop => exact jrnMode_jrnOk s stop hok

theorem kept_jrnOk : Kept fun s => jrnOk s.jrn = true where
  change s t h hok := by
    cases h with
    | leaves h => exact h.jrn ▸ hok
    | jrn h => exact jrnEvent_jrnOk h hok
    | warm => exact reset_jrnOk
    | _ => exact hok
  cold _ _ _ _ := reset_jrnOk
  tick _ h := h
  queue _ _ h := h

/-- Settles O58: each event of JRN keeps `jrnOk`. `Tests.test_invariants_journal` meets the hypothesis. -/
theorem theJournalStaysCounted : Obligations.TheJournalStaysCounted := fun _ _ hok hstep => kept_jrnOk.step hstep hok

/-! ### The memory -/

theorem abortSlot_memWf {m : List Host.Cell} (k : SlotIx) (h : memWf m = true) : memWf (abortSlot m k) = true :=
  memWriteAll_wf _ _ _ (memWriteAll_wf _ _ _ h)

theorem abortSlots_memWf (ks : List SlotIx) {m : List Host.Cell} (h : memWf m = true) :
    memWf (ks.foldl abortSlot m) = true := by
  induction ks generalizing m with
  | nil => exact h
  | cons k ks ih => exact ih (abortSlot_memWf k h)

theorem kept_hostOk : Kept fun s => hostOk s = true where
  change s t h hok := by
    cases h with
    | leaves h => exact h.host hok
    | warm =>
      obtain ⟨hwf, -⟩ := (hostOk_iff s).1 hok
      exact (hostOk_iff _).2 ⟨abortSlots_memWf _ hwf, Nat.zero_le _⟩
    | _ => exact hok
  cold _ _ _ _ := rfl
  tick _ h := h
  queue _ _ h := h

/-- Settles O59: every write of the memory keeps its form. `Tests.test_invariants_memory` meets the hypothesis. -/
theorem theMemoryKeepsItsForm : Obligations.TheMemoryKeepsItsForm := fun _ _ hok hstep => kept_hostOk.step hstep hok

/-! ### Answers -/

theorem change_pending {s t : State} (h : Change s t) : t.pending = s.pending := by
  cases h with
  | leaves h => exact h.pending
  | _ => rfl

theorem changes_pending {s t : State} (h : Changes s t) : t.pending = s.pending := by
  induction h with
  | refl => rfl
  | tail _ hc ih => exact (change_pending hc).trans ih

/-- Settles O3: a chain of changes leads to an answer, and none of them touches the queue; a cold reset keeps it too. -/
theorem everyCommandAnswersANextState : Obligations.EveryCommandAnswersANextState := by
  intro c s
  by_cases hcold : ∃ pop64 shid parallel, c = .coldReset pop64 shid parallel
  · obtain ⟨_, _, _, rfl⟩ := hcold
    exact ⟨_, rfl, rfl⟩
  · obtain ⟨t, ht, hc⟩ := exec_changes c s fun a b d hc => hcold ⟨a, b, d, hc⟩
    exact ⟨t, ht, changes_pending hc⟩

/-- Settles O1. -/
theorem stepRunsTheFrontCommand : Obligations.StepRunsTheFrontCommand := fun _ _ _ => rfl

end Sys2Proof.Proofs
end

