-- ==== Sys2Proof/Proofs/CbcRules.lean ====
section
/-! What the operations of CBC do to a port's record and to the order table: one rule for each operation, and one for each
fold over a list of ports. -/

namespace Sys2Proof.Proofs

open Sys2Proof.Machine Sys2Proof.Safety Sys2Proof.Laws

/-! ### One port's record -/

theorem put_port (w : CbcWork) (p q : Port) (r : CabRec) :
    (w.put p r).cbc.ports[q] = if q = p then r else w.cbc.ports[q] := getElem_set_fin _ _ _ _

/-- R44: a port's record after it is re-evaluated. -/
def judgedRec (s : State) (p : Port) (r : CabRec) : CabRec := { r with state := cablingState s r p }

/-- The cabling state does not depend on the one before. -/
theorem cablingState_state (s : State) (r : CabRec) (p : Port) (st : CabState) :
    cablingState s { r with state := st } p = cablingState s r p := rfl

@[simp] theorem judgedRec_idem (s : State) (p : Port) (r : CabRec) :
    judgedRec s p (judgedRec s p r) = judgedRec s p r := rfl

@[simp] theorem judgedRec_state (s : State) (p : Port) (r : CabRec) :
    (judgedRec s p r).state = cablingState s (judgedRec s p r) p := rfl

@[simp] theorem judgedRec_hold (s : State) (p : Port) (r : CabRec) : (judgedRec s p r).hold = r.hold := rfl
@[simp] theorem judgedRec_expect (s : State) (p : Port) (r : CabRec) : (judgedRec s p r).expect = r.expect := rfl
@[simp] theorem judgedRec_tagWait (s : State) (p : Port) (r : CabRec) : (judgedRec s p r).tagWait = r.tagWait := rfl

theorem reevaluate_port (s : State) (w : CbcWork) (p q : Port) :
    (reevaluate s w p).cbc.ports[q] = if q = p then judgedRec s p w.cbc.ports[p] else w.cbc.ports[q] :=
  put_port _ _ _ _

@[simp] theorem reevaluate_orders (s : State) (w : CbcWork) (p : Port) :
    (reevaluate s w p).cbc.orders = w.cbc.orders := rfl
@[simp] theorem reevaluate_alm (s : State) (w : CbcWork) (p : Port) :
    (reevaluate s w p).alm = w.alm ++ cabChange p w.cbc.ports[p].state (cablingState s w.cbc.ports[p] p) := rfl
@[simp] theorem reevaluate_recs (s : State) (w : CbcWork) (p : Port) : (reevaluate s w p).recs = w.recs := rfl
@[simp] theorem reevaluate_expected (s : State) (w : CbcWork) (p : Port) :
    (reevaluate s w p).expected = w.expected := rfl
@[simp] theorem reevaluate_released (s : State) (w : CbcWork) (p : Port) :
    (reevaluate s w p).released = w.released := rfl

/-- R42: a port's record with its tag wait restarted. -/
def waitingRec (s : State) (r : CabRec) : CabRec := { r with tagWait := some (tagWaitLength s) }

theorem startTagWait_port (s : State) (w : CbcWork) (p q : Port) :
    (startTagWait s w p).cbc.ports[q] = if q = p then waitingRec s w.cbc.ports[p] else w.cbc.ports[q] :=
  put_port _ _ _ _

@[simp] theorem startTagWait_orders (s : State) (w : CbcWork) (p : Port) :
    (startTagWait s w p).cbc.orders = w.cbc.orders := rfl
@[simp] theorem startTagWait_alm (s : State) (w : CbcWork) (p : Port) : (startTagWait s w p).alm = w.alm := rfl
@[simp] theorem startTagWait_recs (s : State) (w : CbcWork) (p : Port) : (startTagWait s w p).recs = w.recs := rfl
@[simp] theorem startTagWait_expected (s : State) (w : CbcWork) (p : Port) :
    (startTagWait s w p).expected = w.expected := rfl
@[simp] theorem startTagWait_released (s : State) (w : CbcWork) (p : Port) :
    (startTagWait s w p).released = w.released := rfl

/-- R40: a port's record as it takes an expectation, before a change of it re-evaluates the port. -/
def takenRec (s : State) (e : Expectation) (r : CabRec) : CabRec :=
  { r with expect := e, tagWait := if e.kind = .tag then some (tagWaitLength s) else r.tagWait }

/-- R40: a port's record after its expectation is set. -/
def expectedRec (s : State) (p : Port) (e : Expectation) (r : CabRec) : CabRec :=
  if r.expect.same e then takenRec s e r else judgedRec s p (takenRec s e r)

@[simp] theorem expectedRec_expect (s : State) (p : Port) (e : Expectation) (r : CabRec) :
    (expectedRec s p e r).expect = e := by
  unfold expectedRec
  split <;> rfl

@[simp] theorem expectedRec_hold (s : State) (p : Port) (e : Expectation) (r : CabRec) :
    (expectedRec s p e r).hold = r.hold := by
  unfold expectedRec
  split <;> rfl

@[simp] theorem expectedRec_tagWait (s : State) (p : Port) (e : Expectation) (r : CabRec) :
    (expectedRec s p e r).tagWait = if e.kind = .tag then some (tagWaitLength s) else r.tagWait := by
  unfold expectedRec
  split <;> rfl

theorem setExpectation_port (s : State) (w : CbcWork) (p q : Port) (e : Expectation) :
    (setExpectation s w p e).cbc.ports[q] =
      if q = p then expectedRec s p e w.cbc.ports[p] else w.cbc.ports[q] := by
  have htaken : ∀ q : Port, (if e.kind = .tag then startTagWait s (w.put p { w.cbc.ports[p] with expect := e }) p
      else w.put p { w.cbc.ports[p] with expect := e }).cbc.ports[q] =
        if q = p then takenRec s e w.cbc.ports[p] else w.cbc.ports[q] := by
    intro q
    by_cases htag : e.kind = .tag
    · by_cases hq : q = p
      · simp only [if_pos htag, startTagWait_port, put_port, if_pos hq, if_true, takenRec, waitingRec]
      · simp only [if_pos htag, startTagWait_port, put_port, if_neg hq]
    · by_cases hq : q = p
      · simp only [if_neg htag, put_port, if_pos hq, takenRec]
      · simp only [if_neg htag, put_port, if_neg hq]
  by_cases hsame : w.cbc.ports[p].expect.same e = true
  · simp only [setExpectation, expectedRec, if_pos hsame]
    exact htaken q
  · simp only [setExpectation, expectedRec, if_neg hsame, reevaluate_port]
    by_cases hq : q = p
    · rw [if_pos hq, if_pos hq, htaken, if_pos rfl]
    · rw [if_neg hq, if_neg hq, htaken, if_neg hq]

section
variable (s : State) (w : CbcWork) (p : Port) (e : Expectation)

@[simp] theorem setExpectation_orders : (setExpectation s w p e).cbc.orders = w.cbc.orders := by
  simp only [setExpectation]
  split <;> split <;> rfl

@[simp] theorem setExpectation_recs : (setExpectation s w p e).recs = w.recs := by
  simp only [setExpectation]
  split <;> split <;> rfl

@[simp] theorem setExpectation_released : (setExpectation s w p e).released = w.released := by
  simp only [setExpectation]
  split <;> split <;> rfl

end

/-- R42, R46: a port's record with its hold released. -/
def freedRec (s : State) (r : CabRec) : CabRec := { r with hold := none, tagWait := some (tagWaitLength s) }

theorem unholdPort_port (s : State) (w : CbcWork) (p q : Port) :
    (unholdPort s w p).cbc.ports[q] = if q = p then freedRec s w.cbc.ports[p] else w.cbc.ports[q] := put_port _ _ _ _

/-- R46: a port's record with the mark of an entry. -/
def heldRec (i : OrderIx) (r : CabRec) : CabRec := { r with hold := some i }

theorem holdPort_port (i : OrderIx) (w : CbcWork) (p q : Port) :
    (holdPort i w p).cbc.ports[q] = if q = p then heldRec i w.cbc.ports[p] else w.cbc.ports[q] := put_port _ _ _ _

/-! ### Every port and entry at once -/

theorem ofFn_fin {α : Type} {n : Nat} (f : Fin n → α) (i : Fin n) : (Vector.ofFn f)[i] = f i := Vector.getElem_ofFn i.isLt

theorem startTagWaits_port (s : State) (c : Cbc) (p : Port) : (startTagWaits s c).ports[p] = waitingRec s c.ports[p] :=
  ofFn_fin _ _

theorem tickCbc_port (c : Cbc) (p : Port) :
    (tickCbc c).ports[p] = { c.ports[p] with tagWait := countDown c.ports[p].tagWait } := ofFn_fin _ _

theorem tickCbc_order (c : Cbc) (i : OrderIx) :
    (tickCbc c).orders[i] = c.orders[i].map fun o => { o with timer := countDown o.timer } := ofFn_fin _ _

/-! ### Folds over ports -/

/-- A change of one port after another: a port that is not named stays. -/
theorem foldl_port_other {f : CbcWork → Port → CbcWork} (hf : ∀ w p q, q ≠ p → (f w p).cbc.ports[q] = w.cbc.ports[q])
    {q : Port} (ps : List Port) (w : CbcWork) (hq : q ∉ ps) : (ps.foldl f w).cbc.ports[q] = w.cbc.ports[q] := by
  induction ps generalizing w with
  | nil => rfl
  | cons p ps ih =>
    rw [List.foldl_cons, ih _ fun h => hq (List.mem_cons_of_mem _ h)]
    exact hf w p q fun h => hq (h ▸ List.mem_cons_self)

/-- A change of one port after another by a map that once is as good as twice. -/
theorem foldl_port {f : CbcWork → Port → CbcWork} {g : Port → CabRec → CabRec}
    (hf : ∀ w p q, (f w p).cbc.ports[q] = if q = p then g p w.cbc.ports[p] else w.cbc.ports[q])
    (hg : ∀ p r, g p (g p r) = g p r) (ps : List Port) (w : CbcWork) (q : Port) :
    (ps.foldl f w).cbc.ports[q] = if q ∈ ps then g q w.cbc.ports[q] else w.cbc.ports[q] := by
  induction ps generalizing w with
  | nil => rfl
  | cons p ps ih =>
    rw [List.foldl_cons, ih]
    by_cases hq : q = p
    · subst hq
      by_cases hmem : q ∈ ps <;> simp [hf, hmem, hg]
    · by_cases hmem : q ∈ ps <;> simp [hf, hq, hmem]

/-- What each change of a fold leaves alone, the fold leaves alone. -/
theorem foldl_same {α β γ : Type} {f : α → β → α} {v : α → γ} (hf : ∀ a b, v (f a b) = v a) (bs : List β) (a : α) :
    v (bs.foldl f a) = v a := by
  induction bs generalizing a with
  | nil => rfl
  | cons b bs ih => rw [List.foldl_cons, ih, hf]

/-- What each change of a fold keeps, the fold keeps. -/
theorem foldl_keeps {α β : Type} {f : α → β → α} {P : α → Prop} (hf : ∀ a b, P a → P (f a b)) (bs : List β) {a : α}
    (h : P a) : P (bs.foldl f a) := by
  induction bs generalizing a with
  | nil => exact h
  | cons b bs ih => exact ih (hf a b h)

theorem reevaluateAll_port (s : State) (ps : List Port) (w : CbcWork) (q : Port) :
    (ps.foldl (reevaluate s) w).cbc.ports[q] = if q ∈ ps then judgedRec s q w.cbc.ports[q] else w.cbc.ports[q] :=
  foldl_port (reevaluate_port s) (fun _ _ => rfl) ps w q

section
variable (s : State) (w : CbcWork) (ps : List Port) (q : Port)

/-- R46: a port after a release: freed and judged where it is named. -/
theorem releaseHolds_port :
    (releaseHolds s w ps).cbc.ports[q] =
      if q ∈ ps then judgedRec s q (freedRec s w.cbc.ports[q]) else w.cbc.ports[q] := by
  have hfree := foldl_port (g := fun _ => freedRec s) (unholdPort_port s) (fun _ _ => rfl) ps w q
  refine (reevaluateAll_port s ps _ q).trans ?_
  by_cases hq : q ∈ ps <;> simp [hq, hfree]

@[simp] theorem releaseHolds_orders : (releaseHolds s w ps).cbc.orders = w.cbc.orders := by
  refine (foldl_same (f := reevaluate s) (v := fun w : CbcWork => w.cbc.orders) (fun _ _ => rfl) ps _).trans ?_
  exact foldl_same (f := unholdPort s) (v := fun w : CbcWork => w.cbc.orders) (fun _ _ => rfl) ps w

@[simp] theorem releaseHolds_recs : (releaseHolds s w ps).recs = w.recs := by
  refine (foldl_same (f := reevaluate s) (v := fun w : CbcWork => w.recs) (fun _ _ => rfl) ps _).trans ?_
  exact foldl_same (f := unholdPort s) (v := fun w : CbcWork => w.recs) (fun _ _ => rfl) ps w

@[simp] theorem releaseHolds_expected : (releaseHolds s w ps).expected = w.expected := by
  refine (foldl_same (f := reevaluate s) (v := fun w : CbcWork => w.expected) (fun _ _ => rfl) ps _).trans ?_
  exact foldl_same (f := unholdPort s) (v := fun w : CbcWork => w.expected) (fun _ _ => rfl) ps w

@[simp] theorem releaseHolds_released : (releaseHolds s w ps).released = w.released ++ ps := by
  refine congrArg (· ++ ps) ((foldl_same (f := reevaluate s) (v := fun w : CbcWork => w.released) (fun _ _ => rfl) ps _).trans ?_)
  exact foldl_same (f := unholdPort s) (v := fun w : CbcWork => w.released) (fun _ _ => rfl) ps w

end

/-! ### Orders -/

@[simp] theorem putOrder_ports (w : CbcWork) (i : OrderIx) (o : Order) : (putOrder w i o).cbc.ports = w.cbc.ports := rfl
@[simp] theorem putOrder_recs (w : CbcWork) (i : OrderIx) (o : Order) :
    (putOrder w i o).recs = w.recs ++ [workRecord i o] := rfl

theorem putOrder_order (w : CbcWork) (i j : OrderIx) (o : Order) :
    (putOrder w i o).cbc.orders[j] = if j = i then some o else w.cbc.orders[j] := getElem_set_fin _ _ _ _

/-- R54: the items of an order judged where they stand on the ports named. -/
def judgedItems (s : State) (ports : List Port) (o : Order) : List Item :=
  o.items.map fun x => if ports.contains x.port then judgeItem s x else x

theorem judgeItem_port (s : State) (x : Item) : (judgeItem s x).port = x.port := by
  unfold judgeItem
  split <;> rfl

theorem judgedItems_ports (s : State) (ports : List Port) (o : Order) :
    (judgedItems s ports o).map (·.port) = o.ports := by
  simp only [judgedItems, List.map_map, Order.ports]
  refine List.map_congr_left fun x _ => ?_
  simp only [Function.comp]
  split
  · exact judgeItem_port s x
  · rfl

section
variable {s : State} {ports : List Port} {w : CbcWork} {i : OrderIx} {o : Order}

theorem judgeOrder_free (h : w.cbc.orders[i] = none) : judgeOrder s ports w i = w := by simp only [judgeOrder, h]

theorem judgeOrder_stays (h : w.cbc.orders[i] = some o) (hsame : o.state ≠ .verifying ∨ judgedItems s ports o = o.items) :
    judgeOrder s ports w i = w := by
  simp only [judgeOrder, h]
  rcases hsame with hst | hitems
  · rw [if_pos hst]
  · split
    · rfl
    · rw [if_pos]
      exact congrArg (fun xs => { o with items := xs }) hitems

theorem judgeOrder_moves (h : w.cbc.orders[i] = some o) (hst : o.state = .verifying)
    (hitems : judgedItems s ports o ≠ o.items) :
    judgeOrder s ports w i =
      if allOk (judgedItems s ports o) then closeGood s w i { o with items := judgedItems s ports o }
      else { w with cbc := { w.cbc with orders := w.cbc.orders.set i (some { o with items := judgedItems s ports o }) } }
      := by
  simp only [judgeOrder, h]
  rw [if_neg (by simp [hst]), if_neg fun heq => hitems (congrArg Order.items heq)]
  rfl

end

/-! ### Entering VERIFYING (R50) -/

theorem installItems_orders (s : State) (w : CbcWork) (xs : List Item) :
    (installItems s w xs).1.cbc.orders = w.cbc.orders := by
  induction xs generalizing w with
  | nil => rfl
  | cons x xs ih => exact (ih _).trans (setExpectation_orders s w x.port x.expect)

theorem installItems_hold (s : State) (w : CbcWork) (xs : List Item) (q : Port) :
    (installItems s w xs).1.cbc.ports[q].hold = w.cbc.ports[q].hold := by
  induction xs generalizing w with
  | nil => rfl
  | cons x xs ih =>
    refine (ih _).trans ?_
    rw [setExpectation_port]
    split
    · next h => rw [h, expectedRec_hold]
    · rfl

theorem installItems_ports (s : State) (w : CbcWork) (xs : List Item) :
    (installItems s w xs).2.map (·.port) = xs.map (·.port) := by
  induction xs generalizing w with
  | nil => rfl
  | cons x xs ih => exact congrArg (x.port :: ·) (ih _)

/-- R50: an order as it enters VERIFYING. -/
def verifyingOrder (s : State) (w : CbcWork) (o : Order) (why : Reason) : Order :=
  { o with
    state := .verifying, reason := some why, items := (installItems s w o.items).2.map (judgeItem s)
    timer := some (s.rqu.shelf.verify * perSecond) }

theorem verifyingOrder_ports (s : State) (w : CbcWork) (o : Order) (why : Reason) :
    (verifyingOrder s w o why).ports = o.ports := by
  simp only [verifyingOrder, Order.ports, List.map_map]
  rw [← installItems_ports s w o.items]
  exact List.map_congr_left fun x _ => judgeItem_port s x

theorem enterVerifying_eq (s : State) (w : CbcWork) (i : OrderIx) (o : Order) (why : Reason) :
    enterVerifying s w i o why =
      if allOk (verifyingOrder s w o why).items then
        closeGood s (putOrder (installItems s w o.items).1 i (verifyingOrder s w o why)) i (verifyingOrder s w o why)
      else putOrder (installItems s w o.items).1 i (verifyingOrder s w o why) := rfl

end Sys2Proof.Proofs
end

