-- ==== Sys2Proof/Proofs/WorkHolds.lean ====
section
/-! Work holds stay with the orders that placed them (R46, R47). -/

namespace Sys2Proof.Proofs

open Sys2Proof.Machine Sys2Proof.Safety Sys2Proof.Laws

/-! ### The invariant -/

theorem holding_iff (o : Order) : Safety.Order.holding o = true ↔ o.state = .opened ∨ o.state = .verifying := by
  simp [Safety.Order.holding]

/-- R46, R47: what `cbcOk` says: marks, holding orders and order numbers. -/
structure HoldsOk (c : Cbc) : Prop where
  marked  : ∀ (p : Port) (i : OrderIx), c.ports[p].hold = some i →
              ∃ o, c.orders[i] = some o ∧ Safety.Order.holding o = true ∧ p ∈ o.ports
  holds   : ∀ (i : OrderIx) (o : Order), c.orders[i] = some o → Safety.Order.holding o = true →
              o.ports.Nodup ∧ ∀ p ∈ o.ports, c.ports[p].hold = some i
  numbers : ∀ (i j : OrderIx) (a b : Order), c.orders[i] = some a → c.orders[j] = some b → a.number = b.number → i = j

theorem holdOk_iff (c : Cbc) (p : Port) : holdOk c p = true ↔ ∀ i, c.ports[p].hold = some i →
    ∃ o, c.orders[i] = some o ∧ Safety.Order.holding o = true ∧ p ∈ o.ports := by
  unfold holdOk
  split
  · next h => simp [-Fin.getElem_fin, h]
  · next i h =>
    rw [h]
    split
    · next o ho => simp [-Fin.getElem_fin, ho]
    · next ho => simp [-Fin.getElem_fin, ho]

theorem orderOk_iff (c : Cbc) (i : OrderIx) : orderOk c i = true ↔ ∀ o, c.orders[i] = some o →
    Safety.Order.holding o = true → o.ports.Nodup ∧ ∀ p ∈ o.ports, c.ports[p].hold = some i := by
  unfold orderOk
  split
  · next h => simp [-Fin.getElem_fin, h]
  · next o h =>
    rw [h]
    cases hst : Safety.Order.holding o <;> simp [-Fin.getElem_fin, hst]

theorem numbersOk_iff (c : Cbc) : numbersOk c = true ↔
    ∀ (i j : OrderIx) (a b : Order), c.orders[i] = some a → c.orders[j] = some b → a.number = b.number → i = j := by
  simp only [numbersOk, allOrders, List.all_eq_true, List.mem_finRange, true_imp_iff]
  refine forall_congr' fun i => forall_congr' fun j => ?_
  cases c.orders[i] <;> cases c.orders[j] <;> simp [or_iff_not_imp_right]

theorem cbcOk_iff (c : Cbc) : cbcOk c = true ↔ HoldsOk c := by
  have hports : allPorts.all (holdOk c) = true ↔ ∀ p, holdOk c p = true := by simp [allPorts]
  have horders : allOrders.all (orderOk c) = true ↔ ∀ i, orderOk c i = true := by simp [allOrders]
  simp only [cbcOk, Bool.and_eq_true, hports, horders, holdOk_iff, orderOk_iff, numbersOk_iff]
  exact ⟨fun ⟨⟨hm, hh⟩, hn⟩ => ⟨hm, hh, hn⟩, fun ⟨hm, hh, hn⟩ => ⟨⟨hm, hh⟩, hn⟩⟩

/-- Only the marks and the order table count. -/
theorem HoldsOk.of_same {c c' : Cbc} (h : HoldsOk c) (hp : ∀ q : Port, c'.ports[q].hold = c.ports[q].hold)
    (ho : c'.orders = c.orders) : HoldsOk c' where
  marked p i hm := by rw [hp] at hm; rw [ho]; exact h.marked p i hm
  holds i o hi hst := by
    rw [ho] at hi
    simpa only [hp] using h.holds i o hi hst
  numbers i j a b ha hb := by rw [ho] at ha hb; exact h.numbers i j a b ha hb

/-! ### The four ways an entry of the order table changes -/

section
variable {c c' : Cbc} {i : OrderIx} {o o' : Order}

/-- An entry written over keeps the numbers apart, if it keeps its own. -/
theorem HoldsOk.numbers_set (h : HoldsOk c) (hi : c.orders[i] = some o) (hn : o'.number = o.number)
    (ho : ∀ j : OrderIx, c'.orders[j] = if j = i then some o' else c.orders[j]) (j k : OrderIx) (a b : Order)
    (ha : c'.orders[j] = some a) (hb : c'.orders[k] = some b) (hab : a.number = b.number) : j = k := by
  have hback : ∀ (j : OrderIx) (a : Order), c'.orders[j] = some a → ∃ a', c.orders[j] = some a' ∧ a'.number = a.number := by
    intro j a ha
    rw [ho] at ha
    split at ha
    · next hj => cases ha; exact ⟨o, hj ▸ hi, hn.symm⟩
    · exact ⟨a, ha, rfl⟩
  obtain ⟨a', ha', hna⟩ := hback j a ha
  obtain ⟨b', hb', hnb⟩ := hback k b hb
  exact h.numbers j k a' b' ha' hb' (by rw [hna, hnb, hab])

/-- A holding order that goes on holding the same ports. -/
theorem HoldsOk.set_order (h : HoldsOk c) (hi : c.orders[i] = some o) (hst : Safety.Order.holding o = true)
    (hst' : Safety.Order.holding o' = true) (hports : o'.ports = o.ports) (hn : o'.number = o.number)
    (hp : ∀ q : Port, c'.ports[q].hold = c.ports[q].hold)
    (ho : ∀ j : OrderIx, c'.orders[j] = if j = i then some o' else c.orders[j]) : HoldsOk c' where
  marked p j hm := by
    rw [hp] at hm
    obtain ⟨a, ha, hah, hpa⟩ := h.marked p j hm
    rw [ho]
    by_cases hj : j = i
    · rw [hj, hi] at ha
      cases ha
      exact ⟨o', by rw [if_pos hj], hst', hports ▸ hpa⟩
    · exact ⟨a, by rwa [if_neg hj], hah, hpa⟩
  holds j a ha hah := by
    rw [ho] at ha
    simp only [hp]
    split at ha
    · next hj =>
      cases ha
      rw [hports, hj]
      exact h.holds i o hi hst
    · exact h.holds j a ha hah
  numbers := h.numbers_set hi hn ho

/-- A holding order that releases its ports. -/
theorem HoldsOk.release (h : HoldsOk c) (hi : c.orders[i] = some o) (hst : Safety.Order.holding o = true)
    (hst' : Safety.Order.holding o' = false) (hn : o'.number = o.number)
    (hp : ∀ q : Port, c'.ports[q].hold = if q ∈ o.ports then none else c.ports[q].hold)
    (ho : ∀ j : OrderIx, c'.orders[j] = if j = i then some o' else c.orders[j]) : HoldsOk c' where
  marked p j hm := by
    rw [hp] at hm
    split at hm
    · cases hm
    · next hnot =>
      obtain ⟨a, ha, hah, hpa⟩ := h.marked p j hm
      have hj : j ≠ i := by
        rintro rfl
        rw [hi] at ha
        cases ha
        exact hnot hpa
      exact ⟨a, by rw [ho, if_neg hj]; exact ha, hah, hpa⟩
  holds j a ha hah := by
    rw [ho] at ha
    split at ha
    · cases ha
      rw [hst'] at hah
      cases hah
    · next hj =>
      obtain ⟨hnd, hmark⟩ := h.holds j a ha hah
      refine ⟨hnd, fun p hpa => ?_⟩
      have hpo : p ∉ o.ports := by
        intro hpo
        have := ((h.holds i o hi hst).2 p hpo).symm.trans (hmark p hpa)
        exact hj (Option.some.inj this).symm
      rw [hp, if_neg hpo]
      exact hmark p hpa
  numbers := h.numbers_set hi hn ho

/-- An order that holds no port dropped. -/
theorem HoldsOk.drop (h : HoldsOk c) (hi : c.orders[i] = some o) (hst : Safety.Order.holding o = false)
    (hp : c'.ports = c.ports) (ho : ∀ j : OrderIx, c'.orders[j] = if j = i then none else c.orders[j]) : HoldsOk c' where
  marked p j hm := by
    rw [hp] at hm
    obtain ⟨a, ha, hah, hpa⟩ := h.marked p j hm
    have hj : j ≠ i := by
      rintro rfl
      rw [hi] at ha
      cases ha
      rw [hst] at hah
      cases hah
    exact ⟨a, by rw [ho, if_neg hj]; exact ha, hah, hpa⟩
  holds j a ha hah := by
    rw [ho] at ha
    split at ha
    · cases ha
    · rw [hp]
      exact h.holds j a ha hah
  numbers j k a b ha hb := by
    rw [ho] at ha hb
    split at ha
    · cases ha
    · split at hb
      · cases hb
      · exact h.numbers j k a b ha hb

/-- An order opened in a FREE entry over ports that no order holds. -/
theorem HoldsOk.opens (h : HoldsOk c) (hfree : c.orders[i] = none) (hst : Safety.Order.holding o' = true)
    (hnd : o'.ports.Nodup) (hunheld : ∀ p ∈ o'.ports, c.ports[p].hold = none)
    (hnumber : ∀ (j : OrderIx) (a : Order), c.orders[j] = some a → a.number ≠ o'.number)
    (hp : ∀ q : Port, c'.ports[q].hold = if q ∈ o'.ports then some i else c.ports[q].hold)
    (ho : ∀ j : OrderIx, c'.orders[j] = if j = i then some o' else c.orders[j]) : HoldsOk c' where
  marked p j hm := by
    rw [hp] at hm
    split at hm
    · next hpo => cases hm; exact ⟨o', by rw [ho, if_pos rfl], hst, hpo⟩
    · obtain ⟨a, ha, hah, hpa⟩ := h.marked p j hm
      have hj : j ≠ i := by rintro rfl; rw [hfree] at ha; cases ha
      exact ⟨a, by rw [ho, if_neg hj]; exact ha, hah, hpa⟩
  holds j a ha hah := by
    rw [ho] at ha
    split at ha
    · next hj =>
      cases ha
      exact ⟨hnd, fun p hpo => by rw [hp, if_pos hpo, hj]⟩
    · obtain ⟨hnd, hmark⟩ := h.holds j a ha hah
      refine ⟨hnd, fun p hpa => ?_⟩
      have hpo : p ∉ o'.ports := fun hpo => by
        have := (hunheld p hpo).symm.trans (hmark p hpa)
        cases this
      rw [hp, if_neg hpo]
      exact hmark p hpa
  numbers j k a b ha hb hab := by
    rw [ho] at ha hb
    split at ha
    · next hj =>
      cases ha
      split at hb
      · next hk => exact hj.trans hk.symm
      · exact absurd hab.symm (hnumber k b hb)
    · split at hb
      · cases hb
        exact absurd hab (hnumber j a ha)
      · exact h.numbers j k a b ha hb hab

end

/-! ### The operations -/

/-- Work of CBC whose state keeps the holds with their orders. -/
abbrev WorkOk (w : CbcWork) : Prop := HoldsOk w.cbc

section
variable {s : State} {w : CbcWork}

theorem reevaluate_ok (h : WorkOk w) (p : Port) : WorkOk (reevaluate s w p) := by
  refine h.of_same (fun q => ?_) rfl
  rw [reevaluate_port]
  split
  · next hq => rw [hq]; rfl
  · rfl

theorem startTagWait_ok (h : WorkOk w) (p : Port) : WorkOk (startTagWait s w p) := by
  refine h.of_same (fun q => ?_) rfl
  rw [startTagWait_port]
  split
  · next hq => rw [hq]; rfl
  · rfl

theorem setExpectation_ok (h : WorkOk w) (p : Port) (e : Expectation) : WorkOk (setExpectation s w p e) := by
  refine h.of_same (fun q => ?_) (setExpectation_orders s w p e)
  rw [setExpectation_port]
  split
  · next hq => rw [hq, expectedRec_hold]
  · rfl

/-- R46: the marks after a release. -/
theorem releaseHolds_hold (s : State) (w : CbcWork) (ps : List Port) (q : Port) :
    (releaseHolds s w ps).cbc.ports[q].hold = if q ∈ ps then none else w.cbc.ports[q].hold := by
  rw [releaseHolds_port]
  split <;> rfl

variable {i : OrderIx} {o o' : Order}

/-- An order that ends with its holds released. -/
theorem endRelease_ok (h : WorkOk w) (hi : w.cbc.orders[i] = some o) (hst : Safety.Order.holding o = true)
    (hst' : Safety.Order.holding o' = false) (hn : o'.number = o.number) :
    WorkOk (putOrder (releaseHolds s w o.ports) i o') :=
  h.release hi hst hst' hn (releaseHolds_hold s w o.ports) fun j => by rw [putOrder_order, releaseHolds_orders]

/-- R54: an order closed good, its items judged anew or not. -/
theorem closeGood_ok (h : WorkOk w) (hi : w.cbc.orders[i] = some o) (hst : Safety.Order.holding o = true)
    (hports : o'.ports = o.ports) (hn : o'.number = o.number) : WorkOk (closeGood s w i o') := by
  unfold closeGood
  rw [hports]
  exact endRelease_ok h hi hst rfl hn

theorem judgeOrder_ok (ports : List Port) (h : WorkOk w) (i : OrderIx) : WorkOk (judgeOrder s ports w i) := by
  cases hi : w.cbc.orders[i] with
  | none => rwa [judgeOrder_free hi]
  | some o =>
    by_cases hsame : o.state ≠ .verifying ∨ judgedItems s ports o = o.items
    · rwa [judgeOrder_stays hi hsame]
    · obtain ⟨hst, hitems⟩ := not_or.1 hsame
      have hst : o.state = .verifying := not_not.1 hst
      have hhold : Safety.Order.holding o = true := (holding_iff o).2 (.inr hst)
      rw [judgeOrder_moves hi hst hitems]
      split
      · exact closeGood_ok h hi hhold (judgedItems_ports s ports o) rfl
      · exact h.set_order (o' := { o with items := judgedItems s ports o }) hi hhold ((holding_iff _).2 (.inr hst))
          (judgedItems_ports s ports o) rfl (fun _ => rfl) fun _ => getElem_set_fin _ _ _ _

theorem enterVerifying_ok (h : WorkOk w) (hi : w.cbc.orders[i] = some o) (hst : o.state = .opened) (why : Reason)
    (hports : o'.ports = o.ports) (hn : o'.number = o.number) : WorkOk (enterVerifying s w i o' why) := by
  have hhold : Safety.Order.holding o = true := (holding_iff o).2 (.inl hst)
  have hin : WorkOk (putOrder (installItems s w o'.items).1 i (verifyingOrder s w o' why)) := by
    refine h.set_order hi hhold ((holding_iff _).2 (.inr rfl)) ((verifyingOrder_ports s w o' why).trans hports) hn
      (fun q => installItems_hold s w o'.items q) fun j => ?_
    rw [putOrder_order, installItems_orders]
  rw [enterVerifying_eq]
  split
  · exact closeGood_ok hin (o := verifyingOrder s w o' why) (by rw [putOrder_order, if_pos rfl])
      ((holding_iff _).2 (.inr rfl)) rfl rfl
  · exact hin

end

/-! ### The events -/

/-- R48: what an accepted WKOP has checked. -/
theorem judgeWkop_ok {s : State} {number : Nat} {f : Option (Fin 8)} {override : Bool} {ps : List Port} {i : OrderIx}
    (h : judgeWkop s number f override ps = .ok i) :
    repeated ps = none ∧ positionOf (outside f) ps = none ∧ positionOf (fun p => !s.populated p) ps = none ∧
    findOrder s.cbc number = none ∧ freeOrder s.cbc = some i ∧
    positionOf (fun p => s.cbc.ports[p].hold.isSome) ps = none ∧
    (override = true ∨ firstNotTaken s ps [] ps 1 = none) := by
  unfold judgeWkop at h
  split at h
  case h_8 hrep hout hpop hfind hfree hheld htake =>
    cases h
    refine ⟨hrep, hout, hpop, hfind, hfree, hheld, ?_⟩
    cases override
    · exact .inr htake
    · exact .inl rfl
  all_goals cases h

theorem positionOf_eq_none {α : Type} {test : α → Bool} {xs : List α} :
    positionOf test xs = none ↔ ∀ x ∈ xs, test x = false := by simp [positionOf]

theorem findOrder_eq_none {c : Cbc} {n : Nat} :
    findOrder c n = none ↔ ∀ (i : OrderIx) (o : Order), c.orders[i] = some o → o.number ≠ n := by
  simp only [findOrder, List.find?_eq_none, allOrders, List.mem_finRange, true_imp_iff]
  refine forall_congr' fun i => ?_
  cases c.orders[i] <;> simp

theorem freeOrder_eq_some {c : Cbc} {i : OrderIx} (h : freeOrder c = some i) : c.orders[i] = none := by
  simpa using List.find?_some h

/-- R46: an opened order's ports after its marks are set. -/
theorem openOrder_hold (i : OrderIx) (w : CbcWork) (ps : List Port) (q : Port) :
    (ps.foldl (holdPort i) w).cbc.ports[q].hold = if q ∈ ps then some i else w.cbc.ports[q].hold := by
  rw [foldl_port (holdPort_port i) (g := fun _ => heldRec i) (fun _ _ => rfl)]
  split <;> rfl

theorem openOrder_ok {s : State} (h : HoldsOk s.cbc) {i : OrderIx} {number : Nat} {f : Option (Fin 8)} {override : Bool}
    {items : List (Port × Expectation)} (window : Nat)
    (haccept : judgeWkop s number f override (items.map (·.1)) = .ok i) :
    HoldsOk (openOrder s i number window f items).1 := by
  obtain ⟨hrep, -, -, hfind, hfree, hheld, -⟩ := judgeWkop_ok haccept
  simp only [openOrder, cbcEnd]
  generalize ho : Order.mk number _ window f _ none s.now false false _ = o
  have hports : o.ports = items.map (·.1) := by
    subst ho
    simp [Order.ports]
  refine HoldsOk.of_same (c := (o.ports.foldl (holdPort i) (putOrder (cbcBegin s) i o)).cbc) ?_
    (fun q => ?_) (foldl_same (f := reevaluate s) (v := fun w : CbcWork => w.cbc.orders) (fun _ _ => rfl) _ _)
  · refine h.opens (i := i) (o' := o) (freeOrder_eq_some hfree) (by subst ho; rfl)
      (hports ▸ (Laws.repeated_eq_none_iff _).1 hrep) (fun p hp => ?_) (fun j a ha => ?_)
      (openOrder_hold i _ o.ports) fun j => ?_
    · have := positionOf_eq_none.1 hheld p (hports ▸ hp)
      simpa using this
    · subst ho
      exact findOrder_eq_none.1 hfind j a ha
    · rw [foldl_same (f := holdPort i) (v := fun w : CbcWork => w.cbc.orders) (fun _ _ => rfl)]
      exact putOrder_order _ _ _ _
  · refine (congrArg CabRec.hold (reevaluateAll_port s _ _ q)).trans ?_
    split <;> rfl

section
variable {s : State} (h : HoldsOk s.cbc)
include h

theorem cbcBegin_ok : WorkOk (cbcBegin s) := h

omit h in
theorem judgeOrders_ok (ports : List Port) {w : CbcWork} (hw : WorkOk w) :
    HoldsOk (cbcEnd (allOrders.foldl (judgeOrder s ports) w)).1 := by
  simp only [cbcEnd]
  exact foldl_keeps (f := judgeOrder s ports) (P := WorkOk) (fun _ i hw => judgeOrder_ok ports hw i) _ hw

omit h in
theorem cbcPort_ok {w : CbcWork} (hw : WorkOk w) (c : PortChange) : WorkOk (cbcPort s w c) := by
  simp only [cbcPort]
  split
  · exact reevaluate_ok (startTagWait_ok hw _) _
  · exact reevaluate_ok hw _

theorem cbcRole_ok (p : Port) (old : Role) : HoldsOk (cbcRole s p old).1 := by
  simp only [cbcRole, cbcEnd]
  split
  · exact reevaluate_ok (startTagWait_ok (cbcBegin_ok h) p) p
  · exact reevaluate_ok (cbcBegin_ok h) p

omit h in
theorem frameOrder_ok (f : Nat) {w : CbcWork} (hw : WorkOk w) (i : OrderIx) : WorkOk (frameOrder s f w i) := by
  unfold frameOrder
  split
  · exact hw
  · next o ho =>
    split
    · next hst => exact enterVerifying_ok hw ho hst.1 _ rfl rfl
    · exact hw

theorem cbcFrame_ok (f : Nat) : HoldsOk (cbcFrame s f).1 := by
  simp only [cbcFrame, cbcEnd]
  exact foldl_keeps (P := WorkOk) (fun _ i hw => frameOrder_ok f hw i) _ (cbcBegin_ok h)

theorem cbcTagWait_ok (p : Port) : HoldsOk (cbcTagWait s p).1 := by
  have hput : WorkOk ((cbcBegin s).put p { (cbcBegin s).cbc.ports[p] with tagWait := none }) := by
    refine HoldsOk.of_same (cbcBegin_ok h) (fun q => ?_) rfl
    rw [put_port]
    split
    · next hq => rw [hq]
    · rfl
  exact reevaluate_ok hput p

theorem cbcWindow_ok (i : OrderIx) : HoldsOk (cbcWindow s i).1 := by
  simp only [cbcWindow]
  split
  · exact h
  · next o ho =>
    split
    · exact h
    · next hst =>
      simp only [cbcEnd]
      exact enterVerifying_ok (w := { cbcBegin s with alm := [.offer .workOverrun i] }) h ho (not_not.1 hst) _ rfl rfl

theorem cbcVerify_ok (i : OrderIx) : HoldsOk (cbcVerify s i).1 := by
  simp only [cbcVerify]
  split
  · exact h
  · next o ho =>
    split
    · exact h
    · next hst =>
      simp only [cbcEnd]
      exact endRelease_ok (w := { cbcBegin s with alm := [.offer .workFault i] }) h ho
        ((holding_iff o).2 (.inr (not_not.1 hst))) rfl rfl

theorem adoptPorts_ok (ps : List Port) : HoldsOk (adoptPorts s ps).1 := by
  simp only [adoptPorts, cbcEnd]
  refine foldl_keeps (P := WorkOk) (fun w p hw => ?_) _ (cbcBegin_ok h)
  unfold adoptPort
  split
  · split
    · exact setExpectation_ok hw _ _
    · exact hw
  · exact hw

theorem endOrder_ok {i : OrderIx} {o : Order} (hi : s.cbc.orders[i] = some o) (hst : o.state = .opened) :
    HoldsOk (endOrder s i o).1 := by
  simp only [endOrder, cbcEnd]
  exact enterVerifying_ok (cbcBegin_ok h) hi hst _ rfl rfl

theorem dropOrder_ok {i : OrderIx} {o : Order} (hi : s.cbc.orders[i] = some o)
    (hst : ¬(o.state = .opened ∨ o.state = .verifying)) : HoldsOk (dropOrder s i o).1 := by
  refine HoldsOk.drop h hi ?_ rfl fun j => getElem_set_fin _ _ _ _
  rw [← Bool.not_eq_true, holding_iff]
  exact hst

omit h in
/-- R56: giving saved expectations back leaves the order table. -/
theorem restoreItems_orders (s : State) (w : CbcWork) (xs : List Item) :
    (xs.foldl (restoreItem s) w).cbc.orders = w.cbc.orders := by
  refine foldl_same (f := restoreItem s) (v := fun w : CbcWork => w.cbc.orders) (fun w x => ?_) _ _
  unfold restoreItem
  split
  · exact setExpectation_orders s w _ _
  · rfl

omit h in
theorem restoreItem_ok {w : CbcWork} (hw : WorkOk w) (x : Item) : WorkOk (restoreItem s w x) := by
  unfold restoreItem
  split
  · exact setExpectation_ok hw _ _
  · exact hw

theorem cancelOrder_ok {i : OrderIx} {o : Order} (hi : s.cbc.orders[i] = some o)
    (hst : o.state = .opened ∨ o.state = .verifying) : HoldsOk (cancelOrder s i o).1 := by
  simp only [cancelOrder, cbcEnd]
  generalize hw : (if o.state = .verifying then o.items.foldl (restoreItem s) (cbcBegin s) else cbcBegin s) = w
  have hok : WorkOk w := by
    subst hw
    split
    · exact foldl_keeps (f := restoreItem s) (P := WorkOk) (fun _ x hw => restoreItem_ok hw x) _ (cbcBegin_ok h)
    · exact h
  have horders : w.cbc.orders = s.cbc.orders := by
    subst hw
    split
    · exact restoreItems_orders s _ _
    · rfl
  exact endRelease_ok hok (by rw [horders]; exact hi) ((holding_iff o).2 hst) rfl rfl

theorem cbcEvent_ok {r : Cbc × List Msg} (he : CbcEvent s r) : HoldsOk r.1 := by
  cases he with
  | ports cs =>
    have hports : WorkOk (cs.foldl (cbcPort s) (cbcBegin s)) :=
      foldl_keeps (P := WorkOk) (fun _ c hw => cbcPort_ok hw c) _ (cbcBegin_ok h)
    exact judgeOrders_ok _ hports
  | tag p => exact judgeOrders_ok _ (reevaluate_ok (cbcBegin_ok h) p)
  | role p old => exact cbcRole_ok h p old
  | frame f => exact cbcFrame_ok h f
  | tagWait p => exact cbcTagWait_ok h p
  | window i => exact cbcWindow_ok h i
  | verify i => exact cbcVerify_ok h i
  | adopted ps => exact adoptPorts_ok h ps
  | opened window haccept => exact openOrder_ok h window haccept
  | ended hi hst => exact endOrder_ok h hi hst
  | cancelled hi hst => exact cancelOrder_ok h hi hst
  | dropped hi hst => exact dropOrder_ok h hi hst
  | loaded p e => exact setExpectation_ok (cbcBegin_ok h) p e

end

/-! ### Every step -/

theorem reset_holdsOk : HoldsOk Cbc.reset where
  marked p i h := by simp [Cbc.reset, CabRec.reset] at h
  holds i o h := by simp [Cbc.reset] at h
  numbers i j a b h := by simp [Cbc.reset] at h

theorem startTagWaits_holdsOk {s : State} {c : Cbc} (h : HoldsOk c) : HoldsOk (startTagWaits s c) := by
  refine h.of_same (fun q => ?_) (by simp only [startTagWaits])
  rw [startTagWaits_port, waitingRec]

/-- R46: a period counts the timers down and leaves marks and orders alone. -/
theorem tickCbc_holdsOk {c : Cbc} (h : HoldsOk c) : HoldsOk (tickCbc c) := by
  have horder : ∀ (i : OrderIx) (o : Order), (tickCbc c).orders[i] = some o →
      ∃ a, c.orders[i] = some a ∧ o = { a with timer := countDown a.timer } := by
    intro i o hi
    rw [tickCbc_order, Option.map_eq_some_iff] at hi
    obtain ⟨a, ha, rfl⟩ := hi
    exact ⟨a, ha, rfl⟩
  have hhold : ∀ q : Port, (tickCbc c).ports[q].hold = c.ports[q].hold := fun q => by rw [tickCbc_port]
  refine ⟨fun p i hm => ?_, fun i o hi hst => ?_, fun i j a b ha hb hab => ?_⟩
  · obtain ⟨o, ho, hst, hp⟩ := h.marked p i (by rwa [hhold] at hm)
    exact ⟨{ o with timer := countDown o.timer }, by rw [tickCbc_order, ho]; rfl, hst, hp⟩
  · obtain ⟨a, ha, rfl⟩ := horder i o hi
    exact ⟨(h.holds i a ha hst).1, fun p hp => (hhold p).trans ((h.holds i a ha hst).2 p hp)⟩
  · obtain ⟨a', ha', rfl⟩ := horder i a ha
    obtain ⟨b', hb', rfl⟩ := horder j b hb
    exact h.numbers i j a' b' ha' hb' hab

theorem kept_holdsOk : Kept fun s => HoldsOk s.cbc where
  change s t h hok := by
    cases h with
    | leaves h => exact h.cbc ▸ hok
    | cbc h => exact cbcEvent_ok hok h
    | warm => exact reset_holdsOk
    | readyTimers => exact startTagWaits_holdsOk hok
    | _ => exact hok
  cold _ _ _ _ := reset_holdsOk
  tick _ h := tickCbc_holdsOk h
  queue _ _ h := h

/-- Settles O54: each event of CBC keeps marks and holding orders together. `Tests.test_invariants_orders` meets the
hypothesis. -/
theorem holdsStayWithTheirOrders : Obligations.HoldsStayWithTheirOrders := by
  intro s t hok hstep
  exact (cbcOk_iff _).2 (kept_holdsOk.step hstep ((cbcOk_iff _).1 hok))

end Sys2Proof.Proofs
end

