-- ==== Sys2Proof/Proofs/GroupsSettled.lean ====
section
/-! Groups settled by every event (R78, R83 to R90): the end of an event at a group forms the requests, moves bridge and
selector and forms the switch fields, whatever the event made of the group, and the passing of time changes none of them. -/

namespace Sys2Proof.Proofs

open Sys2Proof.Machine Sys2Proof.Safety Sys2Proof.Laws

/-! ### The invariant -/

/-- R83, R73: the requests of a group as its end of an event forms them. -/
structure Formed (g : Group) : Prop where
  top    : g.top = g.formTop
  win    : (g.win, g.side) = arbitrate g.kind g.top g.farTaken
  manual : g.manual = none ∨ ¬(g.side = .farEnd ∧ ordManual < g.win.ord)

/-- R85 to R89: bridge and selector of a group where the winning request puts them. -/
def Placed (g : Group) : Prop :=
  match g.kind with
  | .uni | .bi => g.bridged = 1 ∧ g.selected = if g.win.mem = 0 ∨ g.win.ord = 0 then 0 else 1
  | .oneToN =>
    g.bridged = (if g.win.ord = 0 then 0 else g.win.mem) ∧
    g.selected = if g.sigLost = true ∨ g.farBridgedTaken = g.bridged then g.bridged else 0

theorem formed_iff (g : Group) : Formed g ↔ g.top = g.formTop ∧ (g.win, g.side) = arbitrate g.kind g.top g.farTaken ∧
    (g.manual = none ∨ ¬(g.side = .farEnd ∧ ordManual < g.win.ord)) :=
  ⟨fun ⟨htop, hwin, hmanual⟩ => ⟨htop, hwin, hmanual⟩, fun ⟨htop, hwin, hmanual⟩ => ⟨htop, hwin, hmanual⟩⟩

theorem groupKind_cases (g : Group) : g.kind = .uni ∨ g.kind = .bi ∨ g.kind = .oneToN := by
  cases g.kind <;> simp

theorem groupSettled_iff (g : Group) : groupSettled g = true ↔ Formed g ∧ Placed g ∧ g.sent = g.sentFields := by
  have hmanual : (g.manual.isNone || !decide (g.side = .farEnd ∧ ordManual < g.win.ord)) = true ↔
      (g.manual = none ∨ ¬(g.side = .farEnd ∧ ordManual < g.win.ord)) := by
    rw [Bool.or_eq_true, Option.isNone_iff_eq_none, Bool.not_eq_true', decide_eq_false_iff_not]
  rw [formed_iff]
  obtain hk | hk | hk := groupKind_cases g <;>
    simp only [groupSettled, Placed, hk, hmanual, Bool.and_eq_true, Bool.or_eq_true, decide_eq_true_eq, beq_iff_eq, and_assoc]

/-- Every defined group is settled. -/
def AllSettled (c : Prc) : Prop := ∀ (gi : GroupIx) (g : Group), c.groups[gi] = some g → groupSettled g = true

theorem prcSettled_iff (c : Prc) : prcSettled c = true ↔ AllSettled c := by
  have hall : prcSettled c = true ↔ ∀ gi : GroupIx, c.groups[gi].all groupSettled = true := by
    simp [prcSettled, allGroups]
  rw [hall]
  refine forall_congr' fun gi => ?_
  cases c.groups[gi] <;> simp

/-! ### The end of an event at a group -/

/-- R83: top and winning request formed. -/
theorem formed_formWin (g : Group) (h : g.manual = none ∨
      ¬(({ g with top := g.formTop }.formWin).side = .farEnd ∧ ordManual < ({ g with top := g.formTop }.formWin).win.ord)) :
    Formed { g with top := g.formTop }.formWin := ⟨rfl, rfl, h⟩

@[simp] theorem relist_manual (g : Group) (m : Nat) : (g.relist m).manual = g.manual := by
  unfold Group.relist
  split
  · rfl
  · split
    · rfl
    · split <;> rfl

/-- R73: after a far request above MANUAL has taken a standing manual away, the requests are formed. -/
theorem formed_dropManualFar (gi : GroupIx) (g : Group) :
    Formed (({ g with top := g.formTop }.formWin).dropManualFar gi).1 := by
  unfold Group.dropManualFar
  split
  · split
    · next m _ _ => exact formed_formWin _ (.inl (relist_manual _ m))
    · next hno => exact formed_formWin _ (.inr hno)
  · next hnone => exact formed_formWin _ (.inl hnone)

/-- R88, R89: judging the selector of a 1TN group changes it and the confirmation timer alone. -/
theorem selectN_eq (g : Group) : ∃ sel c, g.selectN = { g with selected := sel, confirm := c } := by
  unfold Group.selectN
  split
  · exact ⟨_, _, rfl⟩
  · split
    · exact ⟨_, _, rfl⟩
    · split
      · exact ⟨_, _, rfl⟩
      · split <;> exact ⟨_, _, rfl⟩

/-- R85 to R89: the selector's move changes bridge, selector and confirmation timer alone. -/
theorem moveSelector_eq (g : Group) : ∃ b sel c, g.moveSelector = { g with bridged := b, selected := sel, confirm := c } := by
  have hbridge : ∃ b sel c, g.bridgeMove = { g with bridged := b, selected := sel, confirm := c } := by
    simp only [Group.bridgeMove]
    generalize (if g.win.ord = 0 then 0 else g.win.mem) = b
    split
    · exact ⟨_, _, _, rfl⟩
    · exact ⟨_, _, _, rfl⟩
  unfold Group.moveSelector
  split
  · exact ⟨_, _, _, rfl⟩
  · exact ⟨_, _, _, rfl⟩
  · obtain ⟨b, sel, c, hb⟩ := hbridge
    obtain ⟨sel', c', hs⟩ := selectN_eq g.bridgeMove
    exact ⟨b, sel', c', by rw [hs, hb]⟩

theorem bridgeMove_bridged (g : Group) : g.bridgeMove.bridged = if g.win.ord = 0 then 0 else g.win.mem := by
  simp only [Group.bridgeMove]
  generalize (if g.win.ord = 0 then 0 else g.win.mem) = b
  split
  · next h => exact h.symm
  · rfl

theorem selectN_bridged (g : Group) : g.selectN.bridged = g.bridged := by
  obtain ⟨sel, c, h⟩ := selectN_eq g
  rw [h]

/-- R88, R89: the selected member of a 1TN group is the bridged one where nothing is to be waited for. -/
theorem selectN_selected (g : Group) :
    g.selectN.selected = if g.sigLost = true ∨ g.farBridgedTaken = g.bridged then g.bridged else 0 := by
  unfold Group.selectN
  split
  · next h => simp [h]
  · split
    · next h => rw [if_pos (.inl h)]
    · next hlost =>
      split
      · next h => rw [if_pos (.inr h)]
      · next hfar =>
        rw [if_neg fun h => h.elim hlost hfar]
        split <;> rfl

theorem placed_moveSelector (g : Group) : Placed g.moveSelector := by
  obtain ⟨b, sel, c, heq⟩ := moveSelector_eq g
  have hkind : g.moveSelector.kind = g.kind := by rw [heq]
  unfold Placed
  rw [hkind]
  cases hk : g.kind with
  | uni => simp only [Group.moveSelector, hk, Group.select11, true_and]
  | bi => simp only [Group.moveSelector, hk, Group.select11, true_and]
  | oneToN =>
    have hmove : g.moveSelector = g.bridgeMove.selectN := by simp only [Group.moveSelector, hk]
    have hbridged : g.moveSelector.bridged = g.bridgeMove.bridged := by rw [hmove, selectN_bridged]
    have hwin : g.moveSelector.win = g.win := by rw [heq]
    have hfrom : g.bridgeMove.sigLost = g.moveSelector.sigLost ∧
        g.bridgeMove.farBridgedTaken = g.moveSelector.farBridgedTaken := by
      obtain ⟨sel', c', hs⟩ := selectN_eq g.bridgeMove
      rw [hmove, hs]
      exact ⟨rfl, rfl⟩
    refine ⟨by rw [hbridged, bridgeMove_bridged, hwin], ?_⟩
    rw [← hfrom.1, ← hfrom.2, hbridged]
    rw [hmove]
    exact selectN_selected g.bridgeMove

/-- The end of an event leaves its group settled. -/
theorem settle_settled (s : State) (gi : GroupIx) (g : Group) : groupSettled (g.settle s gi).1 = true := by
  simp only [Group.settle]
  generalize (g.normWait.dropManualLocal gi).1 = g1
  have hformed := formed_dropManualFar gi g1
  generalize (({ g1 with top := g1.formTop }.formWin).dropManualFar gi).1 = g2 at hformed
  have hplaced := placed_moveSelector g2
  obtain ⟨b, sel, c, heq⟩ := moveSelector_eq g2
  rw [groupSettled_iff]
  rw [heq] at hplaced ⊢
  obtain ⟨htop, hwin, hmanual⟩ := hformed
  exact ⟨⟨htop, hwin, hmanual⟩, hplaced, rfl⟩

theorem countSwitch_settled (base : Group) {g : Group} (h : groupSettled g = true) :
    groupSettled (base.countSwitch g) = true := by
  unfold Group.countSwitch
  split <;> exact h

/-! ### The events -/

theorem AllSettled.set {c c' : Prc} (h : AllSettled c) (gi : GroupIx) {x : Option Group}
    (hx : ∀ g, x = some g → groupSettled g = true)
    (hc : ∀ gj : GroupIx, c'.groups[gj] = if gj = gi then x else c.groups[gj]) : AllSettled c' := by
  intro gj g hg
  rw [hc] at hg
  split at hg
  · exact hx g hg
  · exact h gj g hg

section
variable {s : State} {w : PrcWork} (h : AllSettled w.prc)
include h

theorem prcSettle_settled (gi : GroupIx) (base g : Group) (fresh : Bool) :
    AllSettled (prcSettle s w gi base g fresh).prc := by
  refine h.set gi (x := some (base.countSwitch (g.settle s gi).1)) (fun g' hg' => ?_)
    fun gj => getElem_set_fin _ _ _ _
  cases hg'
  exact countSwitch_settled base (settle_settled s gi g)

theorem prcEach_settled (concerns : Group → Bool) (change : Group → Group) (gi : GroupIx) :
    AllSettled (prcEach s concerns change w gi).prc := by
  unfold prcEach
  split
  · exact h
  · split
    · exact prcSettle_settled h gi _ _ _
    · exact h

theorem prcTearDown_settled (gi : GroupIx) (g : Group) : AllSettled (prcTearDown w gi g).prc :=
  h.set gi (x := none) (fun _ hg' => nomatch hg') fun _ => getElem_set_fin _ _ _ _

theorem prcSetUp_settled (gi : GroupIx) (d : GroupDef) : AllSettled (prcSetUp s w gi d).prc :=
  prcSettle_settled (w := { w with prc := { w.prc with frozen := thaw w.prc.frozen d.ports } }) h gi _ _ _

theorem prcEachAll_settled (concerns : Group → Bool) (change : Group → Group) :
    AllSettled (prcEnd (allGroups.foldl (prcEach s concerns change) w)).1 := by
  simp only [prcEnd]
  exact foldl_keeps (f := prcEach s concerns change) (P := fun w => AllSettled w.prc)
    (fun _ gi hw => prcEach_settled hw concerns change gi) _ h

end

theorem prcLoad_settled {s : State} (h : AllSettled s.prc) (gi : GroupIx) (d : Option GroupDef) :
    AllSettled (prcLoad s gi d).1 := by
  have hbegin : AllSettled (prcBegin s).prc := h
  unfold prcLoad
  simp only
  split
  · exact h
  · exact prcSetUp_settled hbegin gi _
  · next g _ => exact prcTearDown_settled hbegin gi g
  · next g d _ =>
    split
    · exact prcSettle_settled hbegin gi _ _ false
    · exact prcSetUp_settled (prcTearDown_settled hbegin gi g) gi d

theorem prcEvent_settled {s : State} {r : Prc × List Msg} (he : PrcEvent s r) (h : AllSettled s.prc) :
    AllSettled r.1 := by
  have hbegin : AllSettled (prcBegin s).prc := h
  cases he with
  | ports cs => exact prcEachAll_settled hbegin _ _
  | tag p => exact prcEachAll_settled (w := { prcBegin s with reports := farReports s p }) hbegin _ _
  | hold ps held => exact prcEachAll_settled hbegin _ _
  | expect ps => exact prcEachAll_settled hbegin _ _
  | one gi change => exact prcEach_settled hbegin _ _ gi
  | loaded gi d => exact prcLoad_settled h gi d

/-! ### Time -/

/-- A period leaves a member's raised request and hold. -/
theorem tickGroup_mon (g : Group) (m : Nat) :
    (tickGroup g).mon m = { g.mon m with timer := countDown (g.mon m).timer } := by
  unfold Group.mon
  split
  · next h => exact ofFn_fin _ (⟨m, h⟩ : Fin 7)
  · rfl

theorem tickGroup_protRequests (g : Group) : (tickGroup g).protRequests = g.protRequests := by
  simp only [Group.protRequests, tickGroup_mon]
  rfl

theorem tickGroup_memberRequests (g : Group) (m : Nat) : (tickGroup g).memberRequests m = g.memberRequests m := by
  have hwait : (tickGroup g).wait = g.wait ∨ ∃ w w', g.wait = some w ∧
      (tickGroup g).wait = some w' ∧ w'.ord = w.ord ∧ w'.mem = w.mem := by
    cases hw : g.wait with
    | none => exact .inl (by simp only [tickGroup, hw, Option.map_none])
    | some w =>
      refine .inr ⟨w, _, rfl, by simp only [tickGroup, hw, Option.map_some]; rfl, ?_, ?_⟩ <;> cases w <;> rfl
  have hforce : (tickGroup g).force = g.force := rfl
  have hmanual : (tickGroup g).manual = g.manual := rfl
  unfold Group.memberRequests
  rw [tickGroup_mon, hforce, hmanual]
  obtain hw | ⟨w, w', hw, hw', hord, hmem⟩ := hwait
  · rw [hw]
  · simp only [hw, hw', hord, hmem]

theorem tickGroup_formTop (g : Group) : (tickGroup g).formTop = g.formTop := by
  unfold Group.formTop Group.ownRequest
  rw [tickGroup_protRequests]
  simp only [tickGroup_memberRequests]
  rfl

theorem tickGroup_settled {g : Group} (h : groupSettled g = true) : groupSettled (tickGroup g) = true := by
  obtain ⟨⟨htop, hwin, hmanual⟩, hplaced, hsent⟩ := (groupSettled_iff g).1 h
  exact (groupSettled_iff _).2 ⟨⟨htop.trans (tickGroup_formTop g).symm, hwin, hmanual⟩, hplaced, hsent⟩

theorem tickPrc_group (c : Prc) (gi : GroupIx) : (tickPrc c).groups[gi] = c.groups[gi].map tickGroup := ofFn_fin _ _

theorem tickPrc_settled {c : Prc} (h : AllSettled c) : AllSettled (tickPrc c) := by
  intro gi g hg
  rw [tickPrc_group, Option.map_eq_some_iff] at hg
  obtain ⟨g0, hg0, rfl⟩ := hg
  exact tickGroup_settled (h gi g0 hg0)

theorem reset_settled (frozen : Vector (Option ProtOut) 64) : AllSettled (Prc.reset frozen) := by
  intro gi g hg
  simp [Prc.reset] at hg

theorem kept_settled : Kept fun s => AllSettled s.prc where
  change s t h hok := by
    cases h with
    | leaves h => exact h.prc ▸ hok
    | prc h => exact prcEvent_settled h hok
    | warm => exact reset_settled _
    | _ => exact hok
  cold _ _ _ _ := reset_settled _
  tick _ h := tickPrc_settled h
  queue _ _ h := h

/-- Settles O55: the end of an event settles its group whatever came before. `Tests.test_invariants_groups` meets the
hypothesis. -/
theorem groupsStaySettled : Obligations.GroupsStaySettled := by
  intro s t hok hstep
  exact (prcSettled_iff _).2 (kept_settled.step hstep ((prcSettled_iff _).1 hok))

end Sys2Proof.Proofs
end

