-- ==== Sys2Proof/Proofs/TimingRules.lean ====
section
/-! The rules of TSEL's operations: which reference is chosen (R112, R113), what a selection changes (R115), what an event
makes of the references it concerns, what a steering update leaves (R116, R117). -/

namespace Sys2Proof.Proofs

open Sys2Proof.Machine Sys2Proof.Safety Sys2Proof.Laws

/-! ### Rounding to nearest -/

theorem nearest_quotient (m : Nat) {b : Nat} (hb : 0 < b) :
    2 * (b * ((2 * m + b) / (2 * b))) ≤ 2 * m + b ∧ 2 * m + b < 2 * (b * ((2 * m + b) / (2 * b))) + 2 * b := by
  have hdiv := Nat.div_add_mod (2 * m + b) (2 * b)
  have hmod := Nat.mod_lt (2 * m + b) (show 0 < 2 * b by omega)
  rw [Nat.mul_assoc] at hdiv
  omega

theorem roundNearest_cases (a : Int) (b : Nat) : let q := (2 * a.natAbs + b) / (2 * b)
    (0 < a ∧ roundNearest a b = q) ∨ (a = 0 ∧ roundNearest a b = 0) ∨ (a < 0 ∧ roundNearest a b = -q) := by
  obtain h | h | h := Int.lt_trichotomy a 0
  · exact .inr (.inr ⟨h, by rw [roundNearest, Int.sign_eq_neg_one_of_neg h]; omega⟩)
  · exact .inr (.inl ⟨h, by rw [roundNearest, h, Int.sign_zero, Int.zero_mul]⟩)
  · exact .inl ⟨h, by rw [roundNearest, Int.sign_eq_one_of_pos h]; omega⟩

/-- A rounded quotient is at most half a step off, and a tie goes away from zero. -/
theorem roundNearest_near (a : Int) {b : Nat} (hb : 0 < b) :
    2 * (b * roundNearest a b - a).natAbs ≤ b ∧
    (2 * (b * roundNearest a b - a).natAbs = b → a.natAbs ≤ b * (roundNearest a b).natAbs) := by
  obtain ⟨hle, hlt⟩ := nearest_quotient a.natAbs hb
  obtain ⟨h, hr⟩ | ⟨h, hr⟩ | ⟨h, hr⟩ := roundNearest_cases a b <;> rw [hr]
  · generalize (2 * a.natAbs + b) / (2 * b) = q at *
    have hbq : (b : Int) * (q : Int) = ((b * q : Nat) : Int) := by push_cast; rfl
    rw [hbq, Int.natAbs_natCast]
    omega
  · subst h
    simp
  · generalize (2 * a.natAbs + b) / (2 * b) = q at *
    have hbq : (b : Int) * -(q : Int) = -((b * q : Nat) : Int) := by push_cast; ring
    rw [hbq, Int.natAbs_neg, Int.natAbs_natCast]
    omega

theorem roundNearest_bound {a : Int} {b m : Nat} (hb : 0 < b) (h : a.natAbs ≤ m * b) : (roundNearest a b).natAbs ≤ m := by
  have hq : (2 * a.natAbs + b) / (2 * b) ≤ m := by
    have hmul : (m + 1) * (2 * b) = 2 * (m * b) + 2 * b := by ring
    have hlt : (2 * a.natAbs + b) / (2 * b) < m + 1 := (Nat.div_lt_iff_lt_mul (by omega)).2 (by omega)
    omega
  obtain ⟨_, hr⟩ | ⟨_, hr⟩ | ⟨_, hr⟩ := roundNearest_cases a b <;> rw [hr]
  · exact hq
  · exact Nat.zero_le m
  · rwa [Int.natAbs_neg]

/-! ### The choice -/

theorem ranked_step (t : Tsel) (quality : Bool) (rs : List RefIx) (best : Option RefIx) :
    let f := fun (best : Option RefIx) (r : RefIx) =>
      match best with
      | none => some r
      | some b => if t.ranksBefore quality b r then some b else some r
    ∀ a, rs.foldl f best = some a → a ∈ rs ∨ best = some a := by
  intro f a h
  induction rs generalizing best with
  | nil => exact .inr h
  | cons r rs ih =>
    obtain hin | heq := ih (f best r) h
    · exact .inl (.tail _ hin)
    · cases best with
      | none => exact .inl (by cases heq; exact .head _)
      | some b =>
        by_cases hb : t.ranksBefore quality b r = true
        · exact .inr (by simpa only [f, hb, if_true] using heq)
        · refine .inl ?_
          simp only [f, hb] at heq
          cases heq
          exact .head _

theorem ranked_eligible {t : Tsel} {quality : Bool} {a : RefIx} (h : t.ranked quality = some a) : t.eligible a = true := by
  obtain hin | hno := ranked_step t quality _ none a h
  · exact (List.mem_filter.1 hin).2
  · cases hno

theorem choose_eligible {t : Tsel} {quality : Bool} {a : RefIx} (h : t.choose quality = some a) : t.eligible a = true := by
  unfold Tsel.choose at h
  split at h
  · split at h
    · next hf => cases h; exact hf
    · exact ranked_eligible h
  · exact ranked_eligible h

/-! ### A selection -/

section
variable (s : State) (w : TselWork)

/-- R115: a selection leaves all but the timing state and what belongs to it. -/
theorem enter_eq (t : Tsel) (sel : Option RefIx) : ∃ st hv ag ad sr,
    t.enter sel = { t with state := st, holdValue := hv, age := ag, aged := ad, steer := sr } := by
  refine ⟨(t.enter sel).state, (t.enter sel).holdValue, (t.enter sel).age, (t.enter sel).aged, (t.enter sel).steer, ?_⟩
  cases sel with
  | some r => rfl
  | none =>
    unfold Tsel.enter
    cases t.state <;> rfl

theorem reselect_same (h : w.tsel.choose s.rqu.shelf.quality = w.tsel.selected) : reselect s w = w := by
  simp only [reselect, if_pos h]

theorem reselect_other (h : w.tsel.choose s.rqu.shelf.quality ≠ w.tsel.selected) :
    let sel := w.tsel.choose s.rqu.shelf.quality
    let t' := { w.tsel.enter sel with selected := sel, history := [], unlimited := 0 }
    reselect s w = { tsel := t', alm := w.alm ++ [.event .refSwitch 0 (w.tsel.selected.map (·.val)) (sel.map (·.val))]
                     recs := w.recs ++ [timingRecord t' w.tsel.selected] } := by
  simp only [reselect, if_neg h]

theorem reselect_eq : ∃ st hv ag ad sr hist unl,
    (reselect s w).tsel = { w.tsel with
      selected := w.tsel.choose s.rqu.shelf.quality, state := st, holdValue := hv, age := ag, aged := ad, steer := sr
      history := hist, unlimited := unl } := by
  by_cases h : w.tsel.choose s.rqu.shelf.quality = w.tsel.selected
  · exact ⟨_, _, _, _, _, _, _, by rw [reselect_same s w h, h]⟩
  · obtain ⟨st, hv, ag, ad, sr, he⟩ := enter_eq w.tsel (w.tsel.choose s.rqu.shelf.quality)
    exact ⟨st, hv, ag, ad, sr, [], 0, by rw [reselect_other s w h]; simp only [he]⟩

@[simp] theorem reselect_selected : (reselect s w).tsel.selected = w.tsel.choose s.rqu.shelf.quality := by
  obtain ⟨st, hv, ag, ad, sr, hist, unl, h⟩ := reselect_eq s w; rw [h]
@[simp] theorem reselect_refs : (reselect s w).tsel.refs = w.tsel.refs := by
  obtain ⟨st, hv, ag, ad, sr, hist, unl, h⟩ := reselect_eq s w; rw [h]
@[simp] theorem reselect_lockout : (reselect s w).tsel.lockout = w.tsel.lockout := by
  obtain ⟨st, hv, ag, ad, sr, hist, unl, h⟩ := reselect_eq s w; rw [h]
@[simp] theorem reselect_force : (reselect s w).tsel.force = w.tsel.force := by
  obtain ⟨st, hv, ag, ad, sr, hist, unl, h⟩ := reselect_eq s w; rw [h]
@[simp] theorem reselect_steering : (reselect s w).tsel.steering = w.tsel.steering := by
  obtain ⟨st, hv, ag, ad, sr, hist, unl, h⟩ := reselect_eq s w; rw [h]
@[simp] theorem reselect_warmUp : (reselect s w).tsel.warmUp = w.tsel.warmUp := by
  obtain ⟨st, hv, ag, ad, sr, hist, unl, h⟩ := reselect_eq s w; rw [h]

/-! ### The end of an event, and the references it concerns -/

@[simp] theorem tselEnd_refs : (tselEnd s w).1.refs = w.tsel.refs := rfl
@[simp] theorem tselEnd_selected : (tselEnd s w).1.selected = w.tsel.selected := rfl
@[simp] theorem tselEnd_lockout : (tselEnd s w).1.lockout = w.tsel.lockout := rfl
@[simp] theorem tselEnd_force : (tselEnd s w).1.force = w.tsel.force := rfl
@[simp] theorem tselEnd_steering : (tselEnd s w).1.steering = w.tsel.steering := rfl
@[simp] theorem tselEnd_warmUp : (tselEnd s w).1.warmUp = w.tsel.warmUp := rfl
@[simp] theorem tselEnd_state : (tselEnd s w).1.state = w.tsel.state := rfl

end

theorem eligible_congr {t u : Tsel} (hrefs : u.refs = t.refs) (hlock : u.lockout = t.lockout) (r : RefIx) :
    u.eligible r = t.eligible r := by
  simp only [Tsel.eligible, hrefs, hlock]

theorem changeRefs_eq (f : RefIx → RefRec → RefRec) (rs : List RefIx) (t : Tsel) :
    rs.foldl (changeRef f) t = { t with refs := (rs.foldl (changeRef f) t).refs } := by
  induction rs generalizing t with
  | nil => rfl
  | cons r rs ih =>
    rw [List.foldl_cons, ih]
    rfl

theorem changeRefs_ref (f : RefIx → RefRec → RefRec) {rs : List RefIx} (hrs : rs.Nodup) (t : Tsel) (r : RefIx) :
    (rs.foldl (changeRef f) t).refs[r] = if r ∈ rs then f r t.refs[r] else t.refs[r] := by
  induction rs generalizing t with
  | nil => simp only [List.foldl_nil, List.not_mem_nil, if_false]
  | cons q rs ih =>
    obtain ⟨hq, hrs⟩ := List.nodup_cons.1 hrs
    have hset : (changeRef f t q).refs[r] = if r = q then f q t.refs[q] else t.refs[r] := getElem_set_fin _ _ _ _
    rw [List.foldl_cons, ih hrs, hset]
    by_cases h : r = q
    · subst h
      simp only [hq, if_false, if_true, List.mem_cons, true_or]
    · simp only [h, if_false, List.mem_cons, false_or]

theorem tselEach_ref (s : State) {rs : List RefIx} (hrs : rs.Nodup) (f : RefIx → RefRec → RefRec) (r : RefIx) :
    (tselEach s rs f).1.refs[r] = if r ∈ rs then f r s.tsel.refs[r] else s.tsel.refs[r] := by
  simp only [tselEach, tselEnd_refs, reselect_refs]
  exact changeRefs_ref f hrs s.tsel r

theorem allRefs_nodup : allRefs.Nodup := List.nodup_finRange 6

theorem mem_allRefs (r : RefIx) : r ∈ allRefs := List.mem_finRange r

/-! ### Steering -/

/-- R116: a steering update moves U, the target and the limited mark. -/
theorem steerTo_eq (t : Tsel) (slew : Nat) (target : Int) :
    t.steerTo slew target = { t with
      steering := clampInt (-50000) 50000 (t.steering +
        if slew < (target - t.steering).natAbs then (target - t.steering).sign * slew else target - t.steering)
      target := some target, limited := decide (slew < (target - t.steering).natAbs) } := by
  simp only [Tsel.steerTo, decide_eq_true_eq]

theorem steerTo_inTrim (t : Tsel) (slew : Nat) (target : Int) : inTrim (t.steerTo slew target).steering = true := by
  obtain ⟨hlo, hhi⟩ := clampInt_mem (lo := -50000) (hi := 50000) (by decide) (t.steering +
    if slew < (target - t.steering).natAbs then (target - t.steering).sign * slew else target - t.steering)
  rw [steerTo_eq]
  simp only [inTrim, Bool.and_eq_true, decide_eq_true_eq]
  exact ⟨hlo, hhi⟩

/-- R117: what a followed offset makes of the timing state, the run and the history. -/
theorem follow_cases (t : Tsel) (slew : Nat) (offset : Int) : let u := t.steerTo slew offset
    (u.limited = true ∧ t.follow slew offset = { u with unlimited := 0, state := .acquiring }) ∨
    (u.limited = false ∧ (t.state = .locked ∨ 1 ≤ t.unlimited) ∧ t.follow slew offset =
      { u with unlimited := 2, state := .locked, history := joinHistory t.history u.steering }) ∨
    (u.limited = false ∧ ¬(t.state = .locked ∨ 1 ≤ t.unlimited) ∧ t.follow slew offset = { u with unlimited := 1 }) := by
  intro u
  by_cases hlim : u.limited = true
  · exact .inl ⟨hlim, by simp only [Tsel.follow]; rw [if_pos hlim]⟩
  · by_cases hrun : t.state = .locked ∨ 1 ≤ t.unlimited
    · exact .inr (.inl ⟨by simpa using hlim, hrun, by simp only [Tsel.follow]; rw [if_neg hlim, if_pos hrun]; rfl⟩)
    · exact .inr (.inr ⟨by simpa using hlim, hrun, by simp only [Tsel.follow]; rw [if_neg hlim, if_neg hrun]⟩)

theorem follow_refs (t : Tsel) (slew : Nat) (offset : Int) :
    (t.follow slew offset).refs = t.refs ∧ (t.follow slew offset).lockout = t.lockout ∧
    (t.follow slew offset).selected = t.selected ∧ (t.follow slew offset).steering = (t.steerTo slew offset).steering ∧
    (t.follow slew offset).holdValue = t.holdValue := by
  obtain ⟨_, h⟩ | ⟨_, _, h⟩ | ⟨_, _, h⟩ := follow_cases t slew offset <;> rw [h] <;> exact ⟨rfl, rfl, rfl, rfl, rfl⟩

theorem steerBy_cases (s : State) (r : RefIx) (offset : Int) (w : TselWork) :
    ((w.tsel.selected = some r ∧ (w.tsel.state = .acquiring ∨ w.tsel.state = .locked)) ∧
      (steerBy s r offset w).tsel = w.tsel.follow s.rqu.shelf.slew offset) ∨
    (¬(w.tsel.selected = some r ∧ (w.tsel.state = .acquiring ∨ w.tsel.state = .locked)) ∧ steerBy s r offset w = w) := by
  unfold steerBy
  split
  · next h => exact .inl ⟨h, rfl⟩
  · next h => exact .inr ⟨h, rfl⟩

end Sys2Proof.Proofs
end

