-- ==== Sys2Proof/Proofs/TimingInRange.lean ====
section
/-! Timing in range (R103, R112, R116 to R119): every event of TSEL keeps steering, the holdover value and the history in the
trim converter's range and selects what is eligible. -/

namespace Sys2Proof.Proofs

open Sys2Proof.Machine Sys2Proof.Safety Sys2Proof.Laws

/-! ### The invariant -/

/-- R116 to R119: the values of TSEL in range, a reference that is not enabled DISABLED. -/
structure TimingOk (t : Tsel) : Prop where
  steering  : inTrim t.steering = true
  hold      : ∀ v, t.holdValue = some v → inTrim v = true
  history   : ∀ v ∈ t.history, inTrim v = true
  length    : t.history.length ≤ 16
  unlimited : t.unlimited ≤ 2
  refs      : ∀ r : RefIx, refOk t.refs[r] = true

/-- R112: the selected reference is eligible. -/
def SelectedEligible (t : Tsel) : Prop := ∀ r, t.selected = some r → t.eligible r = true

theorem tselOk_iff (t : Tsel) : tselOk t = true ↔ TimingOk t ∧ SelectedEligible t := by
  have hrefs : allRefs.all (fun r => refOk t.refs[r]) = true ↔ ∀ r : RefIx, refOk t.refs[r] = true := by
    simp [allRefs]
  simp only [tselOk, Bool.and_eq_true, decide_eq_true_eq, hrefs, Option.all_eq_true, List.all_eq_true]
  constructor
  · rintro ⟨⟨⟨⟨⟨⟨hu, hhold⟩, hhist⟩, hlen⟩, hunl⟩, hr⟩, hsel⟩
    exact ⟨⟨hu, hhold, hhist, hlen, hunl, hr⟩, hsel⟩
  · rintro ⟨⟨hu, hhold, hhist, hlen, hunl, hr⟩, hsel⟩
    exact ⟨⟨⟨⟨⟨⟨hu, hhold⟩, hhist⟩, hlen⟩, hunl⟩, hr⟩, hsel⟩

theorem inTrim_iff (x : Int) : inTrim x = true ↔ x.natAbs ≤ 50000 := by
  rw [inTrim, Bool.and_eq_true, decide_eq_true_eq, decide_eq_true_eq]
  omega

/-! ### References -/

theorem refOk_iff (x : RefRec) : refOk x = true ↔ (x.entry.enable = false → x.state = .disabled) := by
  unfold refOk
  cases x.entry.enable <;> simp

theorem refOk_enabled {x : RefRec} (h : x.entry.enable = true) : refOk x = true :=
  (refOk_iff x).2 fun hoff => by rw [h] at hoff; cases hoff

theorem refOk_congr {x y : RefRec} (hentry : y.entry = x.entry) (hstate : y.state = x.state) (h : refOk x = true) :
    refOk y = true := by
  rwa [refOk, hentry, hstate]

/-- R102: judging a reference leaves its entry. -/
theorem judgeRef_entry (s : State) (r : RefIx) (x : RefRec) : (judgeRef s r x).entry = x.entry := by
  unfold judgeRef
  split
  · rfl
  · simp only
    split
    · rfl
    · split <;> rfl

theorem judgeRef_disabled (s : State) (r : RefIx) {x : RefRec} (h : x.entry.enable = false) : judgeRef s r x = x := by
  simp [judgeRef, h]

theorem judgeRef_ok (s : State) (r : RefIx) {x : RefRec} (h : refOk x = true) : refOk (judgeRef s r x) = true := by
  cases he : x.entry.enable with
  | true => exact refOk_enabled (by rw [judgeRef_entry, he])
  | false => rwa [judgeRef_disabled s r he]

theorem moveTap_ok (s : State) (r : RefIx) (tap : Option Port) {x : RefRec} (h : refOk x = true) :
    refOk (moveTap s r tap x) = true := by
  unfold moveTap
  split
  · exact h
  · exact judgeRef_ok s r (refOk_congr rfl rfl h)

/-- R99: a reference with a new entry, before it is judged: DISABLED if the entry takes its enable away, its tap formed
where the binding changed, its class where binding, source or class did. -/
def enteredRef (s : State) (e : RefEntry) (x : RefRec) : RefRec :=
  let x1 := { x with entry := e }
  let x2 := if x.entry.enable && !e.enable then disableRef x1 else x1
  let x3 := if !sameBinding x.entry e then { x2 with tap := tapOf s.prc e, window := none } else x2
  if !sameBinding x.entry e || (x.entry.fromTag != e.fromTag || x.entry.fixedCls != e.fixedCls) then
    { x3 with cls := effClass s x3 }
  else x3

theorem loadRef_eq (s : State) (r : RefIx) (e : RefEntry) (x : RefRec) : loadRef s r e x =
    if !e.enable then enteredRef s e x
    else if !sameBinding x.entry e then
      judgeRef s r { enteredRef s e x with state := .disabled, run := 0, last := none, refOffset := false }
    else if !x.entry.enable || (x.entry.fromTag != e.fromTag || x.entry.fixedCls != e.fixedCls) then
      judgeRef s r (enteredRef s e x)
    else enteredRef s e x := rfl

theorem enteredRef_entry (s : State) (e : RefEntry) (x : RefRec) : (enteredRef s e x).entry = e := by
  unfold enteredRef
  cases x.entry.enable && !e.enable <;> cases sameBinding x.entry e <;>
    cases x.entry.fromTag != e.fromTag || x.entry.fixedCls != e.fixedCls <;> rfl

theorem enteredRef_state (s : State) (e : RefEntry) (x : RefRec) :
    (enteredRef s e x).state = if x.entry.enable && !e.enable then .disabled else x.state := by
  unfold enteredRef
  cases x.entry.enable && !e.enable <;> cases sameBinding x.entry e <;>
    cases x.entry.fromTag != e.fromTag || x.entry.fixedCls != e.fixedCls <;> rfl

theorem loadRef_entry (s : State) (r : RefIx) (e : RefEntry) (x : RefRec) : (loadRef s r e x).entry = e := by
  rw [loadRef_eq]
  split
  · exact enteredRef_entry s e x
  · split
    · exact (judgeRef_entry _ _ _).trans (enteredRef_entry s e x)
    · split
      · exact (judgeRef_entry _ _ _).trans (enteredRef_entry s e x)
      · exact enteredRef_entry s e x

/-- R103: an entry that disables its reference leaves it DISABLED. -/
theorem loadRef_ok (s : State) (r : RefIx) (e : RefEntry) {x : RefRec} (h : refOk x = true) :
    refOk (loadRef s r e x) = true := by
  cases he : e.enable with
  | true => exact refOk_enabled (by rw [loadRef_entry, he])
  | false =>
    rw [loadRef_eq, if_pos (by rw [he]; rfl)]
    refine (refOk_iff _).2 fun _ => ?_
    rw [enteredRef_state, he]
    cases hx : x.entry.enable with
    | true => rfl
    | false => exact (refOk_iff x).1 h hx

theorem activityEdge_ok (s : State) (r : RefIx) (gap : Nat) {x : RefRec} (h : refOk x = true) :
    refOk (activityEdge s r gap x) = true := by
  unfold activityEdge
  split
  · exact h
  · simp only
    generalize (if gap < halfMs then x.edges + 1 else 1) = n
    split
    · exact judgeRef_ok s r (refOk_congr rfl rfl h)
    · exact h

theorem windowEdge_eq (gap : Nat) (x : RefRec) : (windowEdge gap x).1 = { x with window := (windowEdge gap x).1.window } := by
  unfold windowEdge
  split
  · rfl
  · rfl
  all_goals
    split
    · rfl
    · split <;> rfl

theorem judgeWindow_ok (offset : Int) {x : RefRec} (h : refOk x = true) : refOk (judgeWindow offset x) = true := by
  have hentry : (judgeWindow offset x).entry = x.entry := by
    simp only [judgeWindow]
    split <;> (try split) <;> rfl
  cases he : x.entry.enable with
  | true => exact refOk_enabled (by rw [hentry, he])
  | false =>
    have hstate := (refOk_iff x).1 h he
    refine (refOk_iff _).2 fun _ => ?_
    simp only [judgeWindow, hstate]

/-! ### Selection and steering -/

theorem sum_natAbs_le {m : Nat} : ∀ {h : List Int}, (∀ v ∈ h, v.natAbs ≤ m) → h.sum.natAbs ≤ m * h.length
  | [], _ => by simp
  | v :: h, hall => by
    have hv := hall v (.head _)
    have ih := sum_natAbs_le fun u hu => hall u (.tail _ hu)
    rw [List.sum_cons, List.length_cons, Nat.mul_succ]
    omega

/-- R119: a holdover value formed from values in range is in range. -/
theorem formHold_inTrim {t : Tsel} (h : TimingOk t) : inTrim t.formHold = true := by
  unfold Tsel.formHold
  split
  · next hlen =>
    rw [inTrim_iff]
    exact roundNearest_bound (by omega) (sum_natAbs_le fun v hv => (inTrim_iff v).1 (h.history v hv))
  · exact h.steering

theorem reselect_ok (s : State) {w : TselWork} (h : TimingOk w.tsel) : TimingOk (reselect s w).tsel := by
  by_cases hsel : w.tsel.choose s.rqu.shelf.quality = w.tsel.selected
  · rwa [reselect_same s w hsel]
  · have hhold : ∀ v, (w.tsel.enter (w.tsel.choose s.rqu.shelf.quality)).holdValue = some v → inTrim v = true := by
      intro v hv
      unfold Tsel.enter at hv
      split at hv
      · cases hv
      · split at hv
        · cases hv; exact formHold_inTrim h
        · cases hv; exact formHold_inTrim h
        · exact h.hold v hv
        · exact h.hold v hv
    have hrefs : ∀ r : RefIx, refOk (reselect s w).tsel.refs[r] = true := by simpa only [reselect_refs] using h.refs
    have hsteer : inTrim (reselect s w).tsel.steering = true := by simpa only [reselect_steering] using h.steering
    rw [reselect_other s w hsel] at hrefs hsteer ⊢
    exact ⟨hsteer, hhold, by simp, by simp, by simp, hrefs⟩

theorem reselect_selectedEligible (s : State) (w : TselWork) : SelectedEligible (reselect s w).tsel := by
  intro r hr
  rw [reselect_selected] at hr
  rw [eligible_congr (reselect_refs s w) (reselect_lockout s w)]
  exact choose_eligible hr

theorem follow_ok {t : Tsel} (h : TimingOk t) (slew : Nat) (offset : Int) : TimingOk (t.follow slew offset) := by
  have hu := steerTo_inTrim t slew offset
  obtain ⟨_, he⟩ | ⟨_, _, he⟩ | ⟨_, _, he⟩ := follow_cases t slew offset <;> rw [he]
  · exact ⟨hu, h.hold, h.history, h.length, by simp, h.refs⟩
  · refine ⟨hu, h.hold, fun v hv => ?_, ?_, by simp, h.refs⟩
    · have hmem : v ∈ t.history ∨ v = (t.steerTo slew offset).steering := by
        unfold joinHistory at hv
        split at hv
        · simpa using hv
        · exact (List.mem_append.1 hv).imp List.mem_of_mem_drop List.mem_singleton.1
      obtain hin | rfl := hmem
      · exact h.history v hin
      · exact hu
    · have hlen := h.length
      simp only [joinHistory]
      split <;> simp <;> omega
  · exact ⟨hu, h.hold, h.history, h.length, by simp, h.refs⟩

theorem steerBy_ok (s : State) (r : RefIx) (offset : Int) {w : TselWork} (h : TimingOk w.tsel) :
    TimingOk (steerBy s r offset w).tsel := by
  obtain ⟨_, he⟩ | ⟨_, he⟩ := steerBy_cases s r offset w <;> rw [he]
  · exact follow_ok h _ _
  · exact h

theorem SelectedEligible.congr {t u : Tsel} (h : SelectedEligible t) (hrefs : u.refs = t.refs) (hlock : u.lockout = t.lockout)
    (hsel : u.selected = t.selected) : SelectedEligible u := by
  intro r hr
  rw [eligible_congr hrefs hlock]
  exact h r (hsel ▸ hr)

theorem steerBy_selectedEligible (s : State) (r : RefIx) (offset : Int) {w : TselWork} (h : SelectedEligible w.tsel) :
    SelectedEligible (steerBy s r offset w).tsel := by
  obtain ⟨_, he⟩ | ⟨_, he⟩ := steerBy_cases s r offset w <;> rw [he]
  · obtain ⟨hrefs, hlock, hsel, _, _⟩ := follow_refs w.tsel s.rqu.shelf.slew offset
    exact h.congr hrefs hlock hsel
  · exact h

/-! ### The events -/

theorem TimingOk.set_refs {t : Tsel} (h : TimingOk t) {refs : Vector RefRec 6} (hrefs : ∀ r : RefIx, refOk refs[r] = true) :
    TimingOk { t with refs := refs } := ⟨h.steering, h.hold, h.history, h.length, h.unlimited, hrefs⟩

theorem changeRefs_ok {f : RefIx → RefRec → RefRec} (hf : ∀ r x, refOk x = true → refOk (f r x) = true) (rs : List RefIx)
    {t : Tsel} (h : TimingOk t) : TimingOk (rs.foldl (changeRef f) t) :=
  foldl_keeps (f := changeRef f) (P := TimingOk) (fun t r ht => ht.set_refs fun j => by
    have hj : (t.refs.set r (f r t.refs[r]))[j] = if j = r then f r t.refs[r] else t.refs[j] := getElem_set_fin _ _ _ _
    rw [hj]
    split
    · exact hf r _ (ht.refs r)
    · exact ht.refs j) rs h

/-- The end of an event leaves the values and the selection. -/
theorem tselEnd_ok (s : State) {w : TselWork} (h : TimingOk w.tsel ∧ SelectedEligible w.tsel) :
    tselOk (tselEnd s w).1 = true := by
  obtain ⟨hok, hsel⟩ := h
  exact (tselOk_iff _).2 ⟨⟨hok.steering, hok.hold, hok.history, hok.length, hok.unlimited, hok.refs⟩, hsel⟩

theorem reselected_ok (s : State) {w : TselWork} (h : TimingOk w.tsel) : tselOk (tselEnd s (reselect s w)).1 = true :=
  tselEnd_ok s ⟨reselect_ok s h, reselect_selectedEligible s w⟩

theorem tselEach_ok (s : State) (h : TimingOk s.tsel) (rs : List RefIx) {f : RefIx → RefRec → RefRec}
    (hf : ∀ r x, refOk x = true → refOk (f r x) = true) : tselOk (tselEach s rs f).1 = true :=
  reselected_ok s (changeRefs_ok hf rs h)

theorem tselEdge_ok (s : State) (h : TimingOk s.tsel) (r : RefIx) (gap : Nat) : tselOk (tselEdge s r gap).1 = true := by
  have hlate : refOk (if edgeIsLate gap s.tsel.refs[r] then loseActivity s r s.tsel.refs[r] else s.tsel.refs[r]) = true := by
    split
    · exact judgeRef_ok s r (refOk_congr rfl rfl (h.refs r))
    · exact h.refs r
  unfold tselEdge
  simp only
  generalize (if edgeIsLate gap s.tsel.refs[r] then loseActivity s r s.tsel.refs[r] else s.tsel.refs[r]) = x1 at hlate
  have hedge : refOk (windowEdge gap x1).1 = true := by
    rw [windowEdge_eq]
    exact refOk_congr rfl rfl hlate
  have hactive := activityEdge_ok s r gap hedge
  have hset : ∀ {x : RefRec}, refOk x = true → TimingOk { s.tsel with refs := s.tsel.refs.set r x } := fun {x} hx =>
    h.set_refs fun j => by
      have hj : (s.tsel.refs.set r x)[j] = if j = r then x else s.tsel.refs[j] := getElem_set_fin _ _ _ _
      rw [hj]
      split
      · exact hx
      · exact h.refs j
  generalize (if s.tsel.warmUp.isSome = true then none else Option.map offsetOf (windowEdge gap x1).2) = offset
  cases offset with
  | none => exact reselected_ok s (w := { tselBegin s with tsel := _ }) (hset hactive)
  | some o =>
    exact tselEnd_ok s ⟨steerBy_ok s r o (reselect_ok s (w := { tselBegin s with tsel := _ }) (hset (judgeWindow_ok o hactive))),
      steerBy_selectedEligible s r o (reselect_selectedEligible s _)⟩

theorem tselEvent_ok {s : State} {r : Tsel × List Msg} (he : TselEvent s r) (h : tselOk s.tsel = true) :
    tselOk r.1 = true := by
  obtain ⟨hok, hsel⟩ := (tselOk_iff _).1 h
  have hbegin : ∀ t : Tsel, t.steering = s.tsel.steering → t.holdValue = s.tsel.holdValue → t.history = s.tsel.history →
      t.unlimited = s.tsel.unlimited → t.refs = s.tsel.refs → TimingOk t := by
    intro t hu hhold hhist hunl hrefs
    exact ⟨hu ▸ hok.steering, hhold ▸ hok.hold, hhist ▸ hok.history, hhist ▸ hok.length, hunl ▸ hok.unlimited,
      hrefs ▸ hok.refs⟩
  have hsteered : ∀ target, TimingOk { s.tsel.steerTo s.rqu.shelf.slew target with steer := some per1024 } := fun target =>
    ⟨steerTo_inTrim _ _ _, hok.hold, hok.history, hok.length, hok.unlimited, hok.refs⟩
  cases he with
  | ports ps => exact tselEach_ok s hok _ fun r _ => judgeRef_ok s r
  | tag p => exact tselEach_ok s hok _ fun r _ hx => judgeRef_ok s r (refOk_congr rfl rfl hx)
  | group g tap => exact tselEach_ok s hok _ fun r _ => moveTap_ok s r tap
  | loaded r e => exact tselEach_ok s hok _ fun r _ => loadRef_ok s r e
  | edge r gap => exact tselEdge_ok s hok r gap
  | lost r =>
    unfold tselLost
    split
    · exact tselEach_ok s hok _ fun r _ hx => judgeRef_ok s r (refOk_congr rfl rfl hx)
    · exact h
  | steer =>
    unfold tselSteer
    simp only
    split
    · exact h
    · split
      · exact h
      · exact h
      · exact tselEnd_ok s ⟨hsteered _, hsel⟩
      · exact tselEnd_ok s ⟨hsteered _, hsel⟩
  | aged =>
    unfold tselAged
    split
    · exact tselEnd_ok s ⟨hbegin _ rfl rfl rfl rfl rfl, hsel⟩
    · exact h
  | warm => exact (tselOk_iff _).2 ⟨hbegin _ rfl rfl rfl rfl rfl, hsel⟩
  | lock r => exact reselected_ok s (w := { tselBegin s with tsel := _ }) (hbegin _ rfl rfl rfl rfl rfl)
  | force r => exact reselected_ok s (w := { tselBegin s with tsel := _ }) (hbegin _ rfl rfl rfl rfl rfl)
  | clear => exact reselected_ok s (w := { tselBegin s with tsel := _ }) (hbegin _ rfl rfl rfl rfl rfl)
  | shelf old =>
    have hwarm : TimingOk { s.tsel with warmUp := rewarm old s } := hbegin _ rfl rfl rfl rfl rfl
    unfold tselShelf
    simp only
    split
    · obtain ⟨hu, hhold, hhist, hlen, hunl, hrefs⟩ := reselect_ok s (w := { tselBegin s with tsel := _ }) hwarm
      exact tselEnd_ok s ⟨⟨hu, hhold, hhist, hlen, hunl, hrefs⟩, reselect_selectedEligible s _⟩
    · exact reselected_ok s (w := { tselBegin s with tsel := _ }) hwarm

/-! ### Reset, restart and time -/

theorem tselReset_ok : tselOk Tsel.reset = true := by decide

theorem warm_steering (t : Tsel) (shelf : ShelfRec) : (t.warm shelf).steering = t.steering := by
  unfold Tsel.warm
  cases t.state <;> rfl

theorem warm_ok (t : Tsel) (shelf : ShelfRec) (h : TimingOk t) : tselOk (t.warm shelf) = true := by
  obtain ⟨hreset, hsel⟩ := (tselOk_iff _).1 tselReset_ok
  have hhold : ∀ v, (t.warm shelf).holdValue = some v → inTrim v = true := by
    intro v hv
    unfold Tsel.warm at hv
    simp only at hv
    split at hv
    · cases hv
    all_goals
      cases hv
      exact h.steering
  have hrest : (t.warm shelf).history = [] ∧ (t.warm shelf).unlimited = 0 ∧
      (t.warm shelf).refs = Tsel.reset.refs ∧ (t.warm shelf).selected = none := by
    unfold Tsel.warm
    cases t.state <;> exact ⟨rfl, rfl, rfl, rfl⟩
  obtain ⟨hhist, hunl, hrefs, hnone⟩ := hrest
  refine (tselOk_iff _).2 ⟨⟨warm_steering t shelf ▸ h.steering, hhold, by simp [hhist], by simp [hhist], by simp [hunl], hrefs ▸ hreset.refs⟩, ?_⟩
  intro r hr
  rw [hnone] at hr
  cases hr

theorem tickTsel_ok {t : Tsel} (h : tselOk t = true) : tselOk (tickTsel t) = true := by
  obtain ⟨hok, hsel⟩ := (tselOk_iff _).1 h
  have href : ∀ r : RefIx, (tickTsel t).refs[r] = { t.refs[r] with silence := countDown t.refs[r].silence } := fun r =>
    ofFn_fin _ r
  refine (tselOk_iff _).2 ⟨⟨hok.steering, hok.hold, hok.history, hok.length, hok.unlimited, fun r => ?_⟩, fun r hr => ?_⟩
  · rw [href]
    exact refOk_congr rfl rfl (hok.refs r)
  · have heq : (tickTsel t).eligible r = t.eligible r := by
      simp only [Tsel.eligible]
      rw [href]
      rfl
    rw [heq]
    exact hsel r hr

/-- Steering in range, and TSP's word U. -/
def TimingKept (s : State) : Prop := tselOk s.tsel = true ∧ s.tsp = s.tsel.steering

theorem kept_timing : Kept TimingKept where
  change s t h hok := by
    cases h with
    | leaves h => exact ⟨h.tsel ▸ hok.1, h.tsp.trans (hok.2.trans (h.tsel ▸ rfl))⟩
    | tsel old h => exact ⟨tselEvent_ok h hok.1, rfl⟩
    | warm => exact ⟨warm_ok _ _ ((tselOk_iff _).1 hok.1).1, hok.2.trans (warm_steering _ _).symm⟩
    | readyTiming =>
      obtain ⟨⟨hu, hhold, hhist, hlen, hunl, hrefs⟩, hsel⟩ := (tselOk_iff _).1 hok.1
      exact ⟨tselEnd_ok s ⟨⟨hu, hhold, hhist, hlen, hunl, hrefs⟩, hsel⟩, hok.2⟩
    | _ => exact hok
  cold _ _ _ _ := ⟨tselReset_ok, rfl⟩
  tick _ h := ⟨tickTsel_ok h.1, h.2⟩
  queue _ _ h := h

/-- Settles O56: every selection chooses what is eligible, every steering update clamps, and TSP's word is kept with TSEL.
`Tests.test_invariants_timing` meets the hypotheses. -/
theorem timingStaysInRange : Obligations.TimingStaysInRange := by
  intro s t hok htsp hstep
  obtain ⟨hok', htsp'⟩ := kept_timing.step hstep ⟨hok, of_decide_eq_true htsp⟩
  exact ⟨hok', decide_eq_true htsp'⟩

end Sys2Proof.Proofs
end

