-- ==== Sys2Proof/Proofs/AlarmRules.lean ====
section
/-! The rules of ALM's operations: what each step of a batch makes of an entry (R126 to R138), and what the end of an event
leaves (R140, R142). -/

namespace Sys2Proof.Proofs

open Sys2Proof.Machine Sys2Proof.Safety Sys2Proof.Laws

/-! ### What suppression and grading read -/

/-- The present set, the copies and the profile are the same: what suppression and grading read of ALM. -/
structure SameContext (a b : Alm) : Prop where
  present   : b.present = a.present
  portState : b.portState = a.portState
  held      : b.held = a.held
  taps      : b.taps = a.taps
  groups    : b.groups = a.groups
  profile   : b.profile = a.profile

theorem SameContext.refl (a : Alm) : SameContext a a := ⟨rfl, rfl, rfl, rfl, rfl, rfl⟩

theorem SameContext.trans {a b c : Alm} (h : SameContext a b) (k : SameContext b c) : SameContext a c :=
  ⟨k.present.trans h.present, k.portState.trans h.portState, k.held.trans h.held, k.taps.trans h.taps,
    k.groups.trans h.groups, k.profile.trans h.profile⟩

theorem SameContext.symm {a b : Alm} (h : SameContext a b) : SameContext b a :=
  ⟨h.present.symm, h.portState.symm, h.held.symm, h.taps.symm, h.groups.symm, h.profile.symm⟩

section
variable {a b : Alm} (h : SameContext a b)
include h

theorem SameContext.isPresent (t : CondType) (o : Nat) : b.isPresent t o = a.isPresent t o := by
  simp only [Alm.isPresent, h.present]

theorem SameContext.profileOf (t : CondType) : b.profileOf t = a.profileOf t := by simp only [Alm.profileOf, h.profile]

theorem SameContext.suppressed (t : CondType) (o : Nat) : b.suppressed t o = a.suppressed t o := by
  simp only [Alm.suppressed, h.isPresent, h.held, h.portState, h.taps]

theorem SameContext.gradeOf (s : State) (t : CondType) (o : Nat) : gradeOf s b t o = gradeOf s a t o := by
  have hcovers : b.covers = a.covers := by
    funext p
    simp only [Alm.covers, copyCovers, Alm.copies, h.groups, h.portState]
  have hcopies : b.copies = a.copies := by simp only [Alm.copies, h.groups]
  have hcard : cardCovered s b = cardCovered s a := by
    funext c
    simp only [cardCovered, hcovers, hcopies]
  simp only [Machine.gradeOf, objCovered, hcovers, hcard, h.profileOf]
  rfl

end

/-! ### Steps that treat each entry by itself -/

/-- What a step of an event does to one entry: the alarm it leaves, the records it writes, whether it frees the entry. -/
structure EntryRule where
  alarm : Option Alarm → Option Alarm
  recs  : EntryIx → Option Alarm → List JBody
  freed : Option Alarm → Bool

/-- A rule applied to an entry. -/
def EntryRule.at (k : EntryRule) (w : AlmWork) (i : EntryIx) : AlmWork :=
  let x := w.alm.entries[i].alarm
  { alm := { w.alm with entries := w.alm.entries.set i { w.alm.entries[i] with alarm := k.alarm x } }
    recs := w.recs ++ k.recs i x
    freed := if k.freed x then i :: w.freed else w.freed }

theorem entryAt_entries (k : EntryRule) (w : AlmWork) (i j : EntryIx) :
    (k.at w i).alm.entries[j] =
      if j = i then { w.alm.entries[i] with alarm := k.alarm w.alm.entries[i].alarm } else w.alm.entries[j] :=
  getElem_set_fin _ _ _ _

theorem entryAt_context (k : EntryRule) (w : AlmWork) (i : EntryIx) : SameContext w.alm (k.at w i).alm :=
  ⟨rfl, rfl, rfl, rfl, rfl, rfl⟩

/-- Where a rule leaves the alarm, writes and frees nothing, it leaves everything. -/
theorem entryAt_same {k : EntryRule} {w : AlmWork} {i : EntryIx} (halarm : k.alarm w.alm.entries[i].alarm = w.alm.entries[i].alarm)
    (hrecs : k.recs i w.alm.entries[i].alarm = []) (hfreed : k.freed w.alm.entries[i].alarm = false) : k.at w i = w := by
  have hset : w.alm.entries.set i w.alm.entries[i] = w.alm.entries := Vector.set_getElem_self i.isLt
  simp only [EntryRule.at, halarm, hrecs, hfreed, List.append_nil, Bool.false_eq_true, if_false]
  rw [hset]

/-- What a pass of a rule over entries leaves: each of them treated once, by the alarm it had. -/
structure Passed (k : EntryRule) (is : List EntryIx) (w w' : AlmWork) : Prop where
  alm     : w'.alm = { w.alm with entries := w'.alm.entries }
  entries : ∀ j : EntryIx, w'.alm.entries[j] =
    if j ∈ is then { w.alm.entries[j] with alarm := k.alarm w.alm.entries[j].alarm } else w.alm.entries[j]
  recs    : w'.recs = w.recs ++ is.flatMap fun i => k.recs i w.alm.entries[i].alarm
  freed   : ∀ j, j ∈ w'.freed ↔ j ∈ w.freed ∨ (j ∈ is ∧ k.freed w.alm.entries[j].alarm = true)

theorem Passed.context {k : EntryRule} {is : List EntryIx} {w w' : AlmWork} (h : Passed k is w w') :
    SameContext w.alm w'.alm := by
  rw [h.alm]
  exact ⟨rfl, rfl, rfl, rfl, rfl, rfl⟩

theorem foldl_passed {k : EntryRule} {a : Alm} {f : AlmWork → EntryIx → AlmWork}
    (hf : ∀ w i, SameContext a w.alm → f w i = k.at w i) {is : List EntryIx} (his : is.Nodup) {w : AlmWork}
    (ha : SameContext a w.alm) : Passed k is w (is.foldl f w) := by
  induction is generalizing w with
  | nil => exact ⟨rfl, fun _ => by simp, by simp, by simp⟩
  | cons i is ih =>
    obtain ⟨hi, his⟩ := List.nodup_cons.1 his
    have hother : ∀ j ∈ is, (k.at w i).alm.entries[j] = w.alm.entries[j] := fun j hj => by
      rw [entryAt_entries, if_neg (ne_of_mem_of_not_mem hj hi)]
    rw [List.foldl_cons, hf w i ha]
    obtain ⟨halm, hentries, hrecs, hfreed⟩ := ih his (ha.trans (entryAt_context k w i))
    refine ⟨by rw [halm]; rfl, fun j => ?_, ?_, fun j => ?_⟩
    · rw [hentries, entryAt_entries]
      by_cases hj : j = i
      · subst hj
        simp only [hi, if_false, if_true, List.mem_cons, true_or]
      · simp only [hj, if_false, List.mem_cons, false_or]
    · have hrest : (is.flatMap fun j => k.recs j (k.at w i).alm.entries[j].alarm) =
          is.flatMap fun j => k.recs j w.alm.entries[j].alarm :=
        List.flatMap_congr fun j hj => by rw [hother j hj]
      rw [hrecs, hrest, List.flatMap_cons, ← List.append_assoc]
      rfl
    · rw [hfreed]
      by_cases hj : j = i
      · subst hj
        simp only [hi, EntryRule.at, false_and, or_false, List.mem_cons, true_and]
        split
        · next h => simp only [h, List.mem_cons, true_or, or_true]
        · next h => simp only [h, Bool.false_eq_true, or_false]
      · have hmem : j ∈ (k.at w i).freed ↔ j ∈ w.freed := by
          simp only [EntryRule.at]
          split <;> simp [hj]
        rw [hmem, List.mem_cons]
        simp only [hj, false_or]
        by_cases hin : j ∈ is
        · rw [hother j hin]
        · simp only [hin, false_and]

theorem allEntries_nodup : (List.finRange 128).Nodup := List.nodup_finRange 128

/-- A pass over the whole table. -/
theorem table_passed {k : EntryRule} {a : Alm} {f : AlmWork → EntryIx → AlmWork}
    (hf : ∀ w i, SameContext a w.alm → f w i = k.at w i) {w : AlmWork} (ha : SameContext a w.alm) :
    Passed k (List.finRange 128) w ((List.finRange 128).foldl f w) := foldl_passed hf allEntries_nodup ha

theorem Passed.alarm {k : EntryRule} {w w' : AlmWork} (h : Passed k (List.finRange 128) w w') (j : EntryIx) :
    w'.alm.entries[j].alarm = k.alarm w.alm.entries[j].alarm := by
  rw [h.entries, if_pos (List.mem_finRange j)]

theorem Passed.gen {k : EntryRule} {w w' : AlmWork} (h : Passed k (List.finRange 128) w w') (j : EntryIx) :
    w'.alm.entries[j].gen = w.alm.entries[j].gen := by
  rw [h.entries, if_pos (List.mem_finRange j)]

/-! ### The entries moved (R128, R130, R133, R134) -/

/-- R134: a CLEARING entry whose condition is present again is ACTIVE, any other stays. -/
def returned : AlarmState → AlarmState
  | .pending n => .pending n
  | .active | .clearing _ => .active

/-- What a batch makes of a non-FREE entry's alarm but for its severity: the alarm that stays, or the reason it goes. -/
def moveOf (a : Alm) (dropped : List (CondType × Nat)) (x : Alarm) : Except OffReason Alarm :=
  if !(a.profileOf x.type).severity.tabled then .error .profile
  else if a.suppressed x.type x.obj then .error .suppressed
  else if a.isPresent x.type x.obj then .ok { x with state := returned x.state }
  else if dropped.contains (x.type, x.obj) then .error .dropped
  else
    match x.state with
    | .pending _ => .error .cleared
    | .active =>
      if (a.profileOf x.type).clear = 0 then .error .cleared
      else .ok { x with state := .clearing ((a.profileOf x.type).clear * perMs) }
    | .clearing _ => .ok x

/-- The move of an entry as a rule. -/
def moveRule (a : Alm) (dropped : List (CondType × Nat)) : EntryRule where
  alarm x := x.bind fun x => (moveOf a dropped x).toOption
  recs i x := match x with
    | none => []
    | some x => match moveOf a dropped x with
      | .ok _ => []
      | .error reason => if x.shown then [.alarmOff i x.type x.obj x.severity reason] else []
  freed x := match x with
    | none => false
    | some x => match moveOf a dropped x with
      | .ok _ => false
      | .error _ => true

section
variable {a : Alm} {dropped : List (CondType × Nat)} {w : AlmWork} {i : EntryIx} {x : Alarm}

theorem moveRule_goes (hx : w.alm.entries[i].alarm = some x) {reason : OffReason} (hmove : moveOf a dropped x = .error reason) :
    (moveRule a dropped).at w i = freeEntry w i x reason := by
  simp only [EntryRule.at, moveRule, hx, Option.bind_some, hmove, freeEntry, if_true]
  rfl

theorem moveRule_stays (hx : w.alm.entries[i].alarm = some x) {y : Alarm} (hmove : moveOf a dropped x = .ok y) :
    (moveRule a dropped).at w i = putAlarm w i y := by
  simp only [EntryRule.at, moveRule, hx, Option.bind_some, hmove, putAlarm, List.append_nil]
  rfl

theorem putAlarm_same (hx : w.alm.entries[i].alarm = some x) : putAlarm w i x = w := by
  have hset : w.alm.entries.set i w.alm.entries[i] = w.alm.entries := Vector.set_getElem_self i.isLt
  simp only [putAlarm, ← hx]
  rw [hset]

end

theorem moveEntry_eq {a : Alm} (dropped : List (CondType × Nat)) (w : AlmWork) (i : EntryIx) (ha : SameContext a w.alm) :
    moveEntry dropped w i = (moveRule a dropped).at w i := by
  unfold moveEntry
  split
  · next hx =>
    refine (entryAt_same ?_ ?_ ?_).symm <;> simp only [hx, moveRule, Option.bind_none]
  · next x hx =>
    simp only [ha.profileOf, ha.suppressed, ha.isPresent]
    split
    · next h => exact (moveRule_goes hx (by simp only [moveOf, h, if_true])).symm
    · next h1 =>
      split
      · next h => exact (moveRule_goes hx (by simp only [moveOf, h1, h, if_true, Bool.false_eq_true, if_false])).symm
      · next h2 =>
        split
        · next h =>
          have hmove : moveOf a dropped x = .ok { x with state := returned x.state } := by
            simp only [moveOf, h1, h2, h, if_true, Bool.false_eq_true, if_false]
          rw [moveRule_stays hx hmove]
          cases hst : x.state with
          | clearing n => rfl
          | pending n => exact (putAlarm_same (by rw [hx, returned, ← hst])).symm
          | active => exact (putAlarm_same (by rw [hx, returned, ← hst])).symm
        · next h3 =>
          split
          · next h => exact (moveRule_goes hx (by simp only [moveOf, h1, h2, h3, h, if_true, Bool.false_eq_true, if_false])).symm
          · next h4 =>
            split
            · next n hst =>
              exact (moveRule_goes hx (by simp only [moveOf, h1, h2, h3, h4, hst, Bool.false_eq_true, if_false])).symm
            · next hst =>
              split
              · next h =>
                exact (moveRule_goes hx (by simp only [moveOf, h1, h2, h3, h4, hst, h, if_true, Bool.false_eq_true, if_false])).symm
              · next h =>
                exact (moveRule_stays hx (by simp only [moveOf, h1, h2, h3, h4, hst, h, Bool.false_eq_true, if_false])).symm
            · next n hst =>
              rw [moveRule_stays hx (y := x) (by simp only [moveOf, h1, h2, h3, h4, hst, Bool.false_eq_true, if_false])]
              exact (putAlarm_same hx).symm

/-! ### The entries graded (R137, R143) -/

/-- An alarm with the severity and the mark that coverage gives. -/
def gradedAlarm (s : State) (a : Alm) (x : Alarm) : Alarm :=
  let g := gradeOf s a x.type x.obj
  if g.1 = x.severity ∧ g.2 = x.nsa then x
  else { x with severity := g.1, nsa := g.2, audible := audibleAfter x g.1 }

/-- The grading of an entry as a rule. -/
def gradeRule (s : State) (a : Alm) : EntryRule where
  alarm x := x.map (gradedAlarm s a)
  recs i x := match x with
    | none => []
    | some x =>
      let g := gradeOf s a x.type x.obj
      if (g.1 = x.severity ∧ g.2 = x.nsa) ∨ x.shown = false then [] else [.severity i x.type x.obj x.severity g.1 g.2]
  freed _ := false

theorem gradeEntry_eq (s : State) {a : Alm} (w : AlmWork) (i : EntryIx) (ha : SameContext a w.alm) :
    gradeEntry s w i = (gradeRule s a).at w i := by
  unfold gradeEntry
  split
  · next hx =>
    refine (entryAt_same ?_ ?_ ?_).symm <;> simp only [hx, gradeRule, Option.map_none]
  · next x hx =>
    simp only [ha.gradeOf]
    split
    · next h =>
      refine (entryAt_same ?_ ?_ ?_).symm <;> simp only [hx, gradeRule, Option.map_some, gradedAlarm, h, if_true, true_or,
        and_self]
    · next h =>
      simp only [EntryRule.at, gradeRule, hx, Option.map_some, gradedAlarm, h, if_false, putAlarm, Bool.false_eq_true,
        false_or]
      cases x.shown <;> rfl

/-! ### Acknowledgement and cut-off (R139, R144) -/

/-- A step that changes each alarm by a map and writes nothing. -/
def alarmRule (f : Alarm → Alarm) : EntryRule where
  alarm x := x.map f
  recs _ _ := []
  freed _ := false

/-- R139. -/
def ackedAlarm (x : Alarm) : Alarm := { x with ack := true, audible := false }

/-- R144. -/
def silencedAlarm (x : Alarm) : Alarm := { x with audible := false }

theorem ackEntry_eq (w : AlmWork) (i : EntryIx) : ackEntry w i = (alarmRule ackedAlarm).at w i := by
  unfold ackEntry
  split
  · next x hx =>
    simp only [EntryRule.at, alarmRule, hx, Option.map_some, putAlarm, List.append_nil, Bool.false_eq_true, if_false]
    rfl
  · next hx => refine (entryAt_same ?_ rfl rfl).symm; simp only [hx, alarmRule, Option.map_none]

theorem silenceEntry_eq (w : AlmWork) (i : EntryIx) : silenceEntry w i = (alarmRule silencedAlarm).at w i := by
  unfold silenceEntry
  split
  · next x hx =>
    split
    · simp only [EntryRule.at, alarmRule, hx, Option.map_some, putAlarm, List.append_nil, Bool.false_eq_true, if_false]
      rfl
    · next h =>
      refine (entryAt_same ?_ rfl rfl).symm
      simp only [hx, alarmRule, Option.map_some, silencedAlarm]
      rw [Bool.not_eq_true] at h
      rw [← h]
  · next hx => refine (entryAt_same ?_ rfl rfl).symm; simp only [hx, alarmRule, Option.map_none]

/-! ### Candidates (R132, R138) -/

/-- R132, R133: the alarm of a candidate that has taken its entry. -/
def takenAlarm (s : State) (a : Alm) (t : CondType) (o : Nat) : Alarm :=
  let g := gradeOf s a t o
  let raise := (a.profileOf t).raise
  { type := t, obj := o, state := if raise = 0 then .active else .pending (raise * perMs), severity := g.1, ack := false
    nsa := g.2, audible := decide (raise = 0) && g.1.rings, raiseTime := s.now
    activeTime := if raise = 0 then some s.now else none }

/-- R133: the record of a candidate that is ACTIVE at once. -/
def takenRecs (s : State) (a : Alm) (i : EntryIx) (t : CondType) (o : Nat) : List JBody :=
  if (a.profileOf t).raise = 0 then [.alarmOn i t o (gradeOf s a t o).1 (gradeOf s a t o).2] else []

theorem takeEntry_eq (s : State) (w : AlmWork) (i : EntryIx) (t : CondType) (o : Nat) :
    takeEntry s w i t o = { putAlarm w i (takenAlarm s w.alm t o) with recs := w.recs ++ takenRecs s w.alm i t o } := by
  simp only [takeEntry, takenAlarm, takenRecs]
  by_cases h : (w.alm.profileOf t).raise = 0
  · simp only [h, if_true, activate, putAlarm, decide_true, Bool.true_and, Bool.not_false, Bool.and_true]
  · simp only [h, if_false, putAlarm, decide_false, Bool.false_and, List.append_nil]

theorem lowestFree_eq_some {a : Alm} {i : EntryIx} (h : a.lowestFree = some i) :
    a.entries[i].alarm = none ∧ ∀ j : EntryIx, j < i → a.entries[j].alarm ≠ none := by
  obtain ⟨hi, pre, post, heq, hpre⟩ := List.find?_eq_some_iff_append.1 h
  refine ⟨by simpa using hi, fun j hj hnone => ?_⟩
  have hsorted : (pre ++ i :: post).Pairwise (· < ·) := heq ▸ List.pairwise_lt_finRange 128
  have hmem : j ∈ pre ++ i :: post := heq ▸ List.mem_finRange j
  obtain hin | hin := List.mem_append.1 hmem
  · have hnot := hpre j hin
    rw [Bool.not_eq_true', Option.isNone_eq_false_iff, hnone] at hnot
    cases hnot
  · obtain rfl | hin := List.mem_cons.1 hin
    · exact absurd hj (by simp)
    · have hlt := List.rel_of_pairwise_cons (List.pairwise_append.1 hsorted).2.1 hin
      exact absurd (hlt.trans hj) (by simp)

theorem lowestFree_eq_none {a : Alm} : a.lowestFree = none ↔ ∀ j : EntryIx, a.entries[j].alarm ≠ none := by
  unfold Alm.lowestFree
  rw [List.find?_eq_none]
  constructor
  · intro h j hj
    exact h j (List.mem_finRange j) (by rw [hj]; rfl)
  · intro h j _ hj
    exact h j (Option.isNone_iff_eq_none.1 hj)

theorem pendingSeverity_eq_some {a : Alm} {i : EntryIx} {v : Severity} :
    pendingSeverity a i = some v ↔ ∃ x, a.entries[i].alarm = some x ∧ x.shown = false ∧ x.severity = v := by
  unfold pendingSeverity
  generalize a.entries[i].alarm = alarm
  cases alarm with
  | none => simp
  | some x => cases hs : x.shown <;> simp [hs]

theorem foldl_pick_mem {α : Type} {f : Option α → α → Option α} (hf : ∀ b r a, f b r = some a → a = r ∨ b = some a)
    (rs : List α) {best : Option α} {a : α} (h : rs.foldl f best = some a) : a ∈ rs ∨ best = some a := by
  induction rs generalizing best with
  | nil => exact .inr h
  | cons r rs ih =>
    obtain hin | heq := ih h
    · exact .inl (.tail _ hin)
    · obtain rfl | hbest := hf best r a heq
      · exact .inl (.head _)
      · exact .inr hbest

theorem firstDisplaced_pending {now : Nat} {a : Alm} {i : EntryIx} (h : firstDisplaced now a = some i) :
    ∃ x, a.entries[i].alarm = some x ∧ x.shown = false := by
  have hpick : ∀ (best : Option EntryIx) (j c : EntryIx), (match best with
      | none => some j
      | some i => if displacedBefore now a i j then some i else some j) = some c → c = j ∨ best = some c := by
    intro best j c hc
    cases best with
    | none => exact .inl (Option.some.inj hc).symm
    | some b =>
      simp only at hc
      split at hc
      · exact .inr hc
      · exact .inl (Option.some.inj hc).symm
  obtain hin | hno := foldl_pick_mem hpick _ h
  · obtain ⟨v, hv⟩ := Option.isSome_iff_exists.1 (List.mem_filter.1 hin).2
    obtain ⟨x, hx, hs, _⟩ := pendingSeverity_eq_some.1 hv
    exact ⟨x, hx, hs⟩
  · cases hno

/-- What a candidate does: it takes the lowest FREE entry; where none is FREE it displaces a PENDING entry of lower rank
or is not tabled, and is counted. -/
inductive Takes (s : State) (w : AlmWork) (c : CondType × Nat) : AlmWork → Prop
  | free (i : EntryIx) (h : w.alm.lowestFree = some i) :
    Takes s w c { putAlarm w i (takenAlarm s w.alm c.1 c.2) with recs := w.recs ++ takenRecs s w.alm i c.1 c.2 }
  | displaces (hfull : w.alm.lowestFree = none) (i : EntryIx) (x : Alarm) (hfirst : firstDisplaced s.now w.alm = some i)
    (hx : w.alm.entries[i].alarm = some x) (hs : x.shown = false)
    (hrank : x.severity.rank < (gradeOf s w.alm c.1 c.2).1.rank) :
    Takes s w c (overflowed { putAlarm w i (takenAlarm s w.alm c.1 c.2) with
      recs := w.recs ++ takenRecs s w.alm i c.1 c.2, freed := i :: w.freed })
  | counted (hfull : w.alm.lowestFree = none)
    (hnone : ∀ i x, firstDisplaced s.now w.alm = some i → w.alm.entries[i].alarm = some x →
      (gradeOf s w.alm c.1 c.2).1.rank ≤ x.severity.rank) : Takes s w c (overflowed w)

theorem takeCandidate_takes (s : State) (w : AlmWork) (c : CondType × Nat) : Takes s w c (takeCandidate s w c) := by
  unfold takeCandidate
  split
  · next i hi => rw [takeEntry_eq]; exact .free i hi
  · next hfull =>
    split
    · next hnone => exact .counted hfull fun i x hi _ => by rw [hnone] at hi; cases hi
    · next i hi =>
      obtain ⟨x, hx, hs⟩ := firstDisplaced_pending hi
      split
      · next hno => rw [hx] at hno; cases hno
      · next y hy =>
        obtain rfl := Option.some.inj (hx.symm.trans hy)
        split
        · next hrank =>
          have hcontext : SameContext w.alm (overflowed (freeEntry w i x .cleared)).alm := ⟨rfl, rfl, rfl, rfl, rfl, rfl⟩
          have halarm : takenAlarm s (overflowed (freeEntry w i x .cleared)).alm c.1 c.2 = takenAlarm s w.alm c.1 c.2 := by
            simp only [takenAlarm, hcontext.gradeOf, hcontext.profileOf]
          have hrecs : takenRecs s (overflowed (freeEntry w i x .cleared)).alm i c.1 c.2 = takenRecs s w.alm i c.1 c.2 := by
            simp only [takenRecs, hcontext.gradeOf, hcontext.profileOf]
          have hset : ∀ e e' : Entry, ((w.alm.entries.set i e).set i e') = w.alm.entries.set i e' := fun e e' => by simp
          have hgen : ∀ e : Entry, (w.alm.entries.set i e)[i] = e := fun e => by simp
          rw [takeEntry_eq, halarm, hrecs]
          have := Takes.displaces (c := c) hfull i x hi hx hs hrank
          simpa only [putAlarm, overflowed, freeEntry, hs, Bool.false_eq_true, if_false, List.append_nil, hset, hgen] using this
        · next hrank =>
          refine .counted hfull fun j z hj hz => ?_
          obtain rfl := Option.some.inj (hi.symm.trans hj)
          obtain rfl := Option.some.inj (hx.symm.trans hz)
          omega

theorem Takes.context {s : State} {w w' : AlmWork} {c : CondType × Nat} (h : Takes s w c w') : SameContext w.alm w'.alm := by
  cases h <;> exact ⟨rfl, rfl, rfl, rfl, rfl, rfl⟩

/-! ### The end of an event (R138, R140, R142) -/

theorem stampEntry_alarm (before : Alm) (freed : List EntryIx) (a : Alm) (i j : EntryIx) :
    (stampEntry before freed a i).entries[j].alarm = a.entries[j].alarm := by
  have hset : ∀ g : Word, (a.entries.set i { a.entries[i] with gen := g })[j].alarm = a.entries[j].alarm := by
    intro g
    rw [getElem_set_fin]
    split
    · next h => rw [h]
    · rfl
  simp only [stampEntry]
  split
  · exact hset _
  · split
    · rfl
    · exact hset _

theorem stampEntry_alm (before : Alm) (freed : List EntryIx) (a : Alm) (i : EntryIx) :
    stampEntry before freed a i = { a with entries := (stampEntry before freed a i).entries } := by
  simp only [stampEntry]
  split
  · rfl
  · split <;> rfl

theorem stampEntries_alarm (before : Alm) (freed : List EntryIx) (a : Alm) (j : EntryIx) :
    (stampEntries before freed a).entries[j].alarm = a.entries[j].alarm :=
  foldl_same (f := stampEntry before freed) (v := fun a => a.entries[j].alarm)
    (fun a i => stampEntry_alarm before freed a i j) _ a

theorem stampEntries_alm (before : Alm) (freed : List EntryIx) (a : Alm) :
    stampEntries before freed a = { a with entries := (stampEntries before freed a).entries } := by
  unfold stampEntries
  generalize List.finRange 128 = is
  induction is generalizing a with
  | nil => rfl
  | cons i is ih =>
    rw [List.foldl_cons, ih, stampEntry_alm]

theorem settleOverflow_eq (a : Alm) : settleOverflow a = { a with overflow := a.overflow && a.lowestFree.isNone } := by
  unfold settleOverflow
  cases a.lowestFree <;> simp

section
variable (before : Alm) (w : AlmWork)

theorem almFinish_outputs : (almFinish before w).1.outputs = formOutputs (almFinish before w).1 := rfl

theorem almFinish_alarm (j : EntryIx) : (almFinish before w).1.entries[j].alarm = w.alm.entries[j].alarm := by
  simp only [almFinish, settleOverflow_eq]
  exact stampEntries_alarm before w.freed w.alm j

theorem almFinish_context : SameContext w.alm (almFinish before w).1 := by
  simp only [almFinish, settleOverflow_eq]
  rw [stampEntries_alm]
  exact ⟨rfl, rfl, rfl, rfl, rfl, rfl⟩

theorem almFinish_overflows : (almFinish before w).1.overflows = w.alm.overflows := by
  simp only [almFinish, settleOverflow_eq]
  rw [stampEntries_alm]

theorem almFinish_overflow : (almFinish before w).1.overflow = (w.alm.overflow && w.alm.lowestFree.isNone) := by
  have hfree : (stampEntries before w.freed w.alm).lowestFree = w.alm.lowestFree := by
    simp only [Alm.lowestFree, stampEntries_alarm]
  simp only [almFinish, settleOverflow_eq, hfree]
  rw [stampEntries_alm]

end

end Sys2Proof.Proofs
end

