-- ==== Sys2Proof/Proofs/AlarmTable.lean ====
section
/-! The alarm table kept true (R127 to R134, R142, R143): a batch moves, grades and fills the entries so that the table
agrees with the present set and the suppression it has formed. -/

namespace Sys2Proof.Proofs

open Sys2Proof.Machine Sys2Proof.Safety Sys2Proof.Laws

/-! ### The invariant -/

/-- R131: no two entries share type and object. -/
def NoTwins (a : Alm) : Prop := ∀ (i j : EntryIx) (x y : Alarm), a.entries[i].alarm = some x → a.entries[j].alarm = some y →
  x.type = y.type → x.obj = y.obj → i = j

/-- A property of every non-FREE entry. -/
def EachAlarm (P : Alarm → Prop) (a : Alm) : Prop := ∀ (i : EntryIx) (x : Alarm), a.entries[i].alarm = some x → P x

/-- R134: the state is CLEARING just where the condition is absent. -/
def StateAgrees (present : Bool) (st : AlarmState) : Prop := present = true ↔ ∀ n, st ≠ .clearing n

/-- R127, R129, R130, R134: an entry that belongs into the table whose context is `a`. -/
structure Belongs (a : Alm) (x : Alarm) : Prop where
  tabled     : (a.profileOf x.type).severity.tabled = true
  shownNot   : a.suppressed x.type x.obj = false
  severity   : x.severity.tabled = true
  agrees     : StateAgrees (a.isPresent x.type x.obj) x.state

/-- The table agrees with its context, whatever the bay outputs. -/
structure Sound (a : Alm) : Prop where
  twins   : NoTwins a
  audible : EachAlarm (fun x => audibleOk x = true) a
  belongs : EachAlarm (Belongs a) a

theorem belongs_iff (a : Alm) (x : Alarm) : Belongs a x ↔ (a.profileOf x.type).severity.tabled = true ∧
    a.suppressed x.type x.obj = false ∧ x.severity.tabled = true ∧ StateAgrees (a.isPresent x.type x.obj) x.state :=
  ⟨fun ⟨h1, h2, h3, h4⟩ => ⟨h1, h2, h3, h4⟩, fun ⟨h1, h2, h3, h4⟩ => ⟨h1, h2, h3, h4⟩⟩

theorem entryOk_iff (a : Alm) (x : Alarm) : entryOk a x = true ↔ Belongs a x := by
  rw [belongs_iff]
  cases hst : x.state <;>
    simp only [entryOk, StateAgrees, hst, Bool.and_eq_true, Bool.not_eq_true', beq_iff_eq, and_assoc] <;> simp

theorem eachAlarm_iff (a : Alm) (p : Alarm → Bool) :
    ((List.finRange 128).all fun i => a.entries[i].alarm.all p) = true ↔ EachAlarm (fun x => p x = true) a := by
  simp only [List.all_eq_true, List.mem_finRange, forall_const, Option.all_eq_true]
  exact Iff.rfl

theorem noTwins_iff (a : Alm) : noTwins a = true ↔ NoTwins a := by
  simp only [noTwins, List.all_eq_true, List.mem_finRange, forall_const]
  refine forall_congr' fun i => forall_congr' fun j => ?_
  cases a.entries[i].alarm with
  | none => simp
  | some x =>
    cases a.entries[j].alarm with
    | none => simp
    | some y =>
      simp only [Bool.or_eq_true, Bool.not_eq_true', decide_eq_true_eq, decide_eq_false_iff_not, Option.some.injEq]
      constructor
      · rintro h x' y' rfl rfl ht ho
        exact h.resolve_right fun hno => hno ⟨ht, ho⟩
      · intro h
        by_cases hsame : x.type = y.type ∧ x.obj = y.obj
        · exact .inl (h x y rfl rfl hsame.1 hsame.2)
        · exact .inr hsame

theorem tableOk_iff (a : Alm) :
    tableOk a = true ↔ Sound a ∧ a.outputs = formOutputs a ∧ presentOk a.present = true := by
  have hbelongs : EachAlarm (fun x => entryOk a x = true) a ↔ EachAlarm (Belongs a) a :=
    forall_congr' fun i => forall_congr' fun x => imp_congr_right fun _ => entryOk_iff a x
  simp only [tableOk, almOk, Bool.and_eq_true, eachAlarm_iff, noTwins_iff, decide_eq_true_eq, hbelongs]
  constructor
  · rintro ⟨⟨⟨⟨htwins, haud⟩, hout⟩, hpres⟩, hbel⟩
    exact ⟨⟨htwins, haud, hbel⟩, hout, hpres⟩
  · rintro ⟨⟨htwins, haud, hbel⟩, hout, hpres⟩
    exact ⟨⟨⟨⟨htwins, haud⟩, hout⟩, hpres⟩, hbel⟩

theorem Belongs.congr {a b : Alm} (h : SameContext a b) {x : Alarm} (hx : Belongs a x) : Belongs b x := by
  obtain ⟨h1, h2, h3, h4⟩ := hx
  exact ⟨by rwa [h.profileOf], by rwa [h.suppressed], h3, by rwa [h.isPresent]⟩

/-- The same alarms over the same context. -/
theorem Sound.congr {a b : Alm} (h : SameContext a b) (halarm : ∀ j : EntryIx, b.entries[j].alarm = a.entries[j].alarm)
    (ha : Sound a) : Sound b where
  twins i j x y hx hy := ha.twins i j x y (halarm i ▸ hx) (halarm j ▸ hy)
  audible i x hx := ha.audible i x (halarm i ▸ hx)
  belongs i x hx := (ha.belongs i x (halarm i ▸ hx)).congr h

theorem audibleOk_iff (x : Alarm) :
    audibleOk x = true ↔ (x.audible = true → x.shown = true ∧ x.severity.rings = true ∧ x.ack = false) := by
  unfold audibleOk
  cases x.audible <;> simp [and_assoc]

/-! ### The present set -/

theorem mem_insertCond (c d : CondType × Nat) (l : List (CondType × Nat)) : d ∈ insertCond c l ↔ d = c ∨ d ∈ l := by
  induction l with
  | nil => simp [insertCond]
  | cons e l ih =>
    unfold insertCond
    split
    · simp
    · split
      · next h => simp [h]
      · simp only [List.mem_cons, ih]
        tauto

theorem presentOk_iff (l : List (CondType × Nat)) :
    presentOk l = true ↔ l.Nodup ∧ l.Pairwise fun c d => condKey c ≤ condKey d := by simp [presentOk]

theorem insertCond_ok (c : CondType × Nat) {l : List (CondType × Nat)} (h : presentOk l = true) :
    presentOk (insertCond c l) = true := by
  rw [presentOk_iff] at h ⊢
  induction l with
  | nil => simp [insertCond]
  | cons d l ih =>
    obtain ⟨hnodup, hsorted⟩ := h
    obtain ⟨hd, hnodup'⟩ := List.nodup_cons.1 hnodup
    obtain ⟨hle, hsorted'⟩ := List.pairwise_cons.1 hsorted
    unfold insertCond
    split
    · next hlt =>
      have hall : ∀ e ∈ d :: l, condKey c < condKey e := by
        intro e he
        obtain rfl | he := List.mem_cons.1 he
        · exact hlt
        · exact lt_of_lt_of_le hlt (hle e he)
      exact ⟨List.nodup_cons.2 ⟨fun hin => absurd (hall c hin) (lt_irrefl _), hnodup⟩,
        List.pairwise_cons.2 ⟨fun e he => (hall e he).le, hsorted⟩⟩
    · next hge =>
      split
      · exact ⟨hnodup, hsorted⟩
      · next hne =>
        obtain ⟨ih1, ih2⟩ := ih ⟨hnodup', hsorted'⟩
        refine ⟨List.nodup_cons.2 ⟨fun hin => ?_, ih1⟩, List.pairwise_cons.2 ⟨fun e he => ?_, ih2⟩⟩
        · obtain rfl | hin := (mem_insertCond _ _ _).1 hin
          · exact hne rfl
          · exact hd hin
        · obtain rfl | hin := (mem_insertCond _ _ _).1 he
          · omega
          · exact hle e hin

theorem erase_ok (c : CondType × Nat) {l : List (CondType × Nat)} (h : presentOk l = true) : presentOk (l.erase c) = true := by
  rw [presentOk_iff] at h ⊢
  exact ⟨h.1.erase c, h.2.sublist List.erase_sublist⟩

theorem applyChange_ok {a : Alm} (c : AlmChange) (h : presentOk a.present = true) :
    presentOk (applyChange a c).present = true := by
  cases c with
  | offer t o => exact insertCond_ok _ h
  | withdraw t o => exact erase_ok _ h
  | drop t o => exact erase_ok _ h
  | _ => exact h

theorem applyChanges_ok (cs : List AlmChange) {a : Alm} (h : presentOk a.present = true) :
    presentOk (cs.foldl applyChange a).present = true :=
  foldl_keeps (f := applyChange) (P := fun a => presentOk a.present = true) (fun _ c ha => applyChange_ok c ha) cs h

/-- A change moves the present set and the copies alone. -/
theorem applyChange_eq (a : Alm) (c : AlmChange) : ∃ ps st hd tp gs,
    applyChange a c = { a with present := ps, portState := st, held := hd, taps := tp, groups := gs } := by
  cases c <;> exact ⟨_, _, _, _, _, rfl⟩

theorem applyChanges_eq (cs : List AlmChange) (a : Alm) : ∃ ps st hd tp gs,
    cs.foldl applyChange a = { a with present := ps, portState := st, held := hd, taps := tp, groups := gs } := by
  induction cs generalizing a with
  | nil => exact ⟨_, _, _, _, _, rfl⟩
  | cons c cs ih =>
    obtain ⟨ps, st, hd, tp, gs, hc⟩ := applyChange_eq a c
    obtain ⟨ps', st', hd', tp', gs', hcs⟩ := ih (applyChange a c)
    exact ⟨ps', st', hd', tp', gs', by rw [List.foldl_cons, hcs, hc]⟩

/-! ### The entries moved and graded -/

/-- What stays at a move keeps its type, object and severity, agrees with the present set and rings only if it is shown. -/
theorem moveOf_ok {a : Alm} {dropped : List (CondType × Nat)} {x y : Alarm} (h : moveOf a dropped x = .ok y) :
    (∃ st, y = { x with state := st } ∧ (x.shown = true → y.shown = true)) ∧
    (a.profileOf x.type).severity.tabled = true ∧ a.suppressed x.type x.obj = false ∧
    (StateAgrees (a.isPresent x.type x.obj) y.state) := by
  unfold moveOf at h
  split at h
  · cases h
  · next htab =>
    split at h
    · cases h
    · next hsup =>
      have htab' : (a.profileOf x.type).severity.tabled = true := by simpa using htab
      have hsup' : a.suppressed x.type x.obj = false := by simpa using hsup
      split at h
      · next hpres =>
        cases h
        refine ⟨⟨_, rfl, fun hs => ?_⟩, htab', hsup', ?_⟩
        · revert hs
          unfold Alarm.shown
          cases x.state <;> simp [returned]
        · simp only [StateAgrees, hpres, true_iff]
          cases x.state <;> simp [returned]
      · next hpres =>
        have habsent : a.isPresent x.type x.obj = false := by simpa using hpres
        split at h
        · cases h
        · split at h
          · cases h
          · next hst =>
            split at h
            · cases h
            · cases h
              exact ⟨⟨_, rfl, fun _ => rfl⟩, htab', hsup', by simp [StateAgrees, habsent]⟩
          · next n hst =>
            cases h
            exact ⟨⟨x.state, rfl, id⟩, htab', hsup', by simp [StateAgrees, habsent, hst]⟩

/-- After the move, every entry that stays belongs into the table. -/
theorem moved_sound {dropped : List (CondType × Nat)} {w0 w : AlmWork}
    (h : Passed (moveRule w0.alm dropped) (List.finRange 128) w0 w)
    (htwins : NoTwins w0.alm) (haud : EachAlarm (fun x => audibleOk x = true) w0.alm)
    (hsev : EachAlarm (fun x => x.severity.tabled = true) w0.alm) : Sound w.alm := by
  have hfrom : ∀ (i : EntryIx) y, w.alm.entries[i].alarm = some y →
      ∃ x, w0.alm.entries[i].alarm = some x ∧ moveOf w0.alm dropped x = .ok y := by
    intro i y hy
    rw [h.alarm] at hy
    obtain ⟨x, hx, hmove⟩ := Option.bind_eq_some_iff.1 hy
    refine ⟨x, hx, ?_⟩
    cases hm : moveOf w0.alm dropped x with
    | ok z => rw [hm] at hmove; cases hmove; rfl
    | error e => rw [hm] at hmove; cases hmove
  constructor
  · intro i j y y' hy hy' ht ho
    obtain ⟨x, hx, hmove⟩ := hfrom i y hy
    obtain ⟨x', hx', hmove'⟩ := hfrom j y' hy'
    obtain ⟨⟨st, rfl, _⟩, _⟩ := moveOf_ok hmove
    obtain ⟨⟨st', rfl, _⟩, _⟩ := moveOf_ok hmove'
    exact htwins i j x x' hx hx' ht ho
  · intro i y hy
    obtain ⟨x, hx, hmove⟩ := hfrom i y hy
    obtain ⟨⟨st, rfl, hshown⟩, _⟩ := moveOf_ok hmove
    refine (audibleOk_iff _).2 fun hring => ?_
    obtain ⟨hs, hr, hack⟩ := (audibleOk_iff x).1 (haud i x hx) hring
    exact ⟨hshown hs, hr, hack⟩
  · intro i y hy
    obtain ⟨x, hx, hmove⟩ := hfrom i y hy
    obtain ⟨⟨st, rfl, _⟩, htab, hsup, hagrees⟩ := moveOf_ok hmove
    exact Belongs.congr h.context ⟨htab, hsup, hsev i x hx, hagrees⟩

theorem gradeOf_tabled (s : State) {a : Alm} {t : CondType} (o : Nat) (h : (a.profileOf t).severity.tabled = true) :
    (gradeOf s a t o).1.tabled = true := by
  unfold gradeOf
  split
  · rfl
  · exact h

theorem gradedAlarm_eq (s : State) (a : Alm) (x : Alarm) : ∃ au, gradedAlarm s a x =
    { x with severity := (gradeOf s a x.type x.obj).1, nsa := (gradeOf s a x.type x.obj).2, audible := au } ∧
    (au = x.audible ∨ au = audibleAfter x (gradeOf s a x.type x.obj).1) := by
  simp only [gradedAlarm]
  split
  · next h => exact ⟨x.audible, by rw [h.1, h.2], .inl rfl⟩
  · exact ⟨_, rfl, .inr rfl⟩

theorem gradedAlarm_audible (s : State) (a : Alm) {x : Alarm} (h : audibleOk x = true) :
    (gradedAlarm s a x).audible = audibleAfter x (gradeOf s a x.type x.obj).1 := by
  simp only [gradedAlarm]
  split
  · next hg =>
    rw [hg.1, audibleAfter]
    cases hr : x.severity.rings with
    | true => simp
    | false =>
      have hnot : x.audible ≠ true := fun ha => by
        have hrings := ((audibleOk_iff x).1 h ha).2.1
        rw [hr] at hrings
        cases hrings
      simpa using hnot
  · rfl

theorem audibleAfter_ok {x : Alarm} (h : audibleOk x = true) {v : Severity} (hring : audibleAfter x v = true) :
    x.shown = true ∧ v.rings = true ∧ x.ack = false := by
  unfold audibleAfter at hring
  split at hring
  · next hv =>
    split at hring
    · next hs =>
      simp only [Bool.and_eq_true, Bool.not_eq_true'] at hs
      exact ⟨hs.1.1, hv, hs.2⟩
    · obtain ⟨hs, _, hack⟩ := (audibleOk_iff x).1 h hring
      exact ⟨hs, hv, hack⟩
  · cases hring

theorem graded_sound {s : State} {w0 w : AlmWork} (h : Passed (gradeRule s w0.alm) (List.finRange 128) w0 w)
    (h0 : Sound w0.alm) : Sound w.alm := by
  have hfrom : ∀ (i : EntryIx) y, w.alm.entries[i].alarm = some y →
      ∃ x, w0.alm.entries[i].alarm = some x ∧ gradedAlarm s w0.alm x = y := by
    intro i y hy
    rw [h.alarm] at hy
    exact Option.map_eq_some_iff.1 hy
  constructor
  · intro i j y y' hy hy' ht ho
    obtain ⟨x, hx, rfl⟩ := hfrom i y hy
    obtain ⟨x', hx', rfl⟩ := hfrom j y' hy'
    obtain ⟨au, hg, _⟩ := gradedAlarm_eq s w0.alm x
    obtain ⟨au', hg', _⟩ := gradedAlarm_eq s w0.alm x'
    rw [hg, hg'] at ht ho
    exact h0.twins i j x x' hx hx' ht ho
  · intro i y hy
    obtain ⟨x, hx, rfl⟩ := hfrom i y hy
    refine (audibleOk_iff _).2 fun hring => ?_
    rw [gradedAlarm_audible s w0.alm (h0.audible i x hx)] at hring
    obtain ⟨au, hg, _⟩ := gradedAlarm_eq s w0.alm x
    rw [hg]
    exact audibleAfter_ok (h0.audible i x hx) hring
  · intro i y hy
    obtain ⟨x, hx, rfl⟩ := hfrom i y hy
    obtain ⟨htab, hsup, _, hagrees⟩ := h0.belongs i x hx
    obtain ⟨au, hg, _⟩ := gradedAlarm_eq s w0.alm x
    rw [hg]
    exact Belongs.congr h.context ⟨htab, hsup, gradeOf_tabled s x.obj htab, hagrees⟩

/-! ### Candidates -/

/-- No entry holds the condition. -/
def NoEntry (a : Alm) (c : CondType × Nat) : Prop :=
  ∀ (i : EntryIx) x, a.entries[i].alarm = some x → (x.type, x.obj) ≠ c

theorem hasEntry_eq_false (a : Alm) (t : CondType) (o : Nat) : a.hasEntry t o = false ↔ NoEntry a (t, o) := by
  simp only [Alm.hasEntry, List.any_eq_false, List.mem_finRange, forall_const, NoEntry]
  refine forall_congr' fun i => ?_
  cases a.entries[i].alarm with
  | none => simp
  | some x => simp

theorem takenAlarm_audible (s : State) (a : Alm) (t : CondType) (o : Nat) : audibleOk (takenAlarm s a t o) = true := by
  refine (audibleOk_iff _).2 fun hring => ?_
  simp only [takenAlarm, Bool.and_eq_true, decide_eq_true_eq] at hring ⊢
  obtain ⟨hraise, hrings⟩ := hring
  exact ⟨by rw [if_pos hraise]; rfl, hrings, trivial⟩

theorem takenAlarm_belongs (s : State) {a : Alm} {t : CondType} {o : Nat} (htab : (a.profileOf t).severity.tabled = true)
    (hsup : a.suppressed t o = false) (hpres : a.isPresent t o = true) : Belongs a (takenAlarm s a t o) := by
  refine ⟨htab, hsup, gradeOf_tabled s o htab, ?_⟩
  simp only [StateAgrees, takenAlarm, hpres, true_iff]
  intro n
  split <;> simp

theorem putAlarm_alarm (w : AlmWork) (i : EntryIx) (z : Alarm) (j : EntryIx) :
    (putAlarm w i z).alm.entries[j].alarm = if j = i then some z else w.alm.entries[j].alarm := by
  have hput : (putAlarm w i z).alm.entries[j] = if j = i then { w.alm.entries[i] with alarm := some z } else
    w.alm.entries[j] := getElem_set_fin _ _ _ _
  rw [hput]
  split <;> rfl

theorem freeEntry_alarm (w : AlmWork) (i : EntryIx) (x : Alarm) (reason : OffReason) (j : EntryIx) :
    (freeEntry w i x reason).alm.entries[j].alarm = if j = i then none else w.alm.entries[j].alarm := by
  have hput : (freeEntry w i x reason).alm.entries[j] = if j = i then { w.alm.entries[i] with alarm := none } else
    w.alm.entries[j] := getElem_set_fin _ _ _ _
  rw [hput]
  split <;> rfl

/-- An entry set to an alarm of a condition that no other entry holds. -/
theorem sound_set {a b : Alm} (h : Sound a) {i : EntryIx} {z : Alarm} (haud : audibleOk z = true)
    (hbel : Belongs a z) (hno : ∀ j, j ≠ i → ∀ y, a.entries[j].alarm = some y → (y.type, y.obj) ≠ (z.type, z.obj))
    (hb : SameContext a b) (hget : ∀ j : EntryIx, b.entries[j].alarm = if j = i then some z else a.entries[j].alarm) :
    Sound b := by
  have hcases : ∀ (j : EntryIx) y, b.entries[j].alarm = some y → (j = i ∧ y = z) ∨ (j ≠ i ∧ a.entries[j].alarm = some y) := by
    intro j y hy
    rw [hget] at hy
    split at hy
    · next hj => exact .inl ⟨hj, (Option.some.inj hy).symm⟩
    · next hj => exact .inr ⟨hj, hy⟩
  constructor
  · intro j k y y' hy hy' ht ho
    obtain ⟨rfl, rfl⟩ | ⟨hj, hy⟩ := hcases j y hy
    · obtain ⟨rfl, rfl⟩ | ⟨hk, hy'⟩ := hcases k y' hy'
      · rfl
      · exact absurd (by rw [ht, ho]) (hno k hk y' hy')
    · obtain ⟨rfl, rfl⟩ | ⟨hk, hy'⟩ := hcases k y' hy'
      · exact absurd (by rw [ht, ho]) (hno j hj y hy)
      · exact h.twins j k y y' hy hy' ht ho
  · intro j y hy
    obtain ⟨_, rfl⟩ | ⟨_, hy⟩ := hcases j y hy
    · exact haud
    · exact h.audible j y hy
  · intro j y hy
    obtain ⟨_, rfl⟩ | ⟨_, hy⟩ := hcases j y hy
    · exact hbel.congr hb
    · exact (h.belongs j y hy).congr hb

/-- An alarm replaced by another of the same condition. -/
theorem sound_replace {w : AlmWork} (h : Sound w.alm) {i : EntryIx} {x : Alarm} (hx : w.alm.entries[i].alarm = some x)
    {z : Alarm} (hsame : z.type = x.type ∧ z.obj = x.obj) (haud : audibleOk z = true) (hbel : Belongs w.alm z) :
    Sound (putAlarm w i z).alm := by
  refine sound_set h haud hbel (fun j hj y hy heq => hj ?_) ⟨rfl, rfl, rfl, rfl, rfl, rfl⟩ (putAlarm_alarm w i z)
  obtain ⟨ht, ho⟩ := Prod.mk.inj heq
  exact h.twins j i y x hy hx (ht.trans hsame.1) (ho.trans hsame.2)

theorem sound_free {w : AlmWork} (h : Sound w.alm) (i : EntryIx) (x : Alarm) (reason : OffReason) :
    Sound (freeEntry w i x reason).alm := by
  have hfrom : ∀ (j : EntryIx) y, (freeEntry w i x reason).alm.entries[j].alarm = some y → w.alm.entries[j].alarm = some y := by
    intro j y hy
    rw [freeEntry_alarm] at hy
    split at hy
    · cases hy
    · exact hy
  have hcontext : SameContext w.alm (freeEntry w i x reason).alm := ⟨rfl, rfl, rfl, rfl, rfl, rfl⟩
  exact ⟨fun j k y y' hy hy' => h.twins j k y y' (hfrom j y hy) (hfrom k y' hy'), fun j y hy => h.audible j y (hfrom j y hy),
    fun j y hy => (h.belongs j y (hfrom j y hy)).congr hcontext⟩

/-- A condition that a batch may give an entry. -/
structure Eligible (a : Alm) (c : CondType × Nat) : Prop where
  tabled  : (a.profileOf c.1).severity.tabled = true
  allowed : a.suppressed c.1 c.2 = false
  present : a.isPresent c.1 c.2 = true

theorem Eligible.congr {a b : Alm} (h : SameContext a b) {c : CondType × Nat} (hc : Eligible a c) : Eligible b c :=
  ⟨by rw [h.profileOf, hc.tabled], by rw [h.suppressed, hc.allowed], by rw [h.isPresent, hc.present]⟩

/-- A candidate gives no other condition an entry. -/
theorem takes_noEntry {s : State} {w w' : AlmWork} {c d : CondType × Nat} (h : Takes s w c w') (hne : d ≠ c)
    (hd : NoEntry w.alm d) : NoEntry w'.alm d := by
  have hput : ∀ i, NoEntry (putAlarm w i (takenAlarm s w.alm c.1 c.2)).alm d := by
    intro i j y hy
    rw [putAlarm_alarm] at hy
    split at hy
    · cases hy
      exact fun heq => hne heq.symm
    · exact hd j y hy
  cases h with
  | free i _ => exact hput i
  | displaces _ i => exact hput i
  | counted => exact hd

theorem takes_sound {s : State} {w w' : AlmWork} {c : CondType × Nat} (h : Takes s w c w') (hw : Sound w.alm)
    (hc : Eligible w.alm c) (hno : NoEntry w.alm c) : Sound w'.alm := by
  have hbel := takenAlarm_belongs s hc.tabled hc.allowed hc.present
  have haud := takenAlarm_audible s w.alm c.1 c.2
  have hcontext := h.context
  cases h with
  | free i _ => exact sound_set hw haud hbel (fun j _ => hno j) hcontext (putAlarm_alarm w i _)
  | displaces _ i => exact sound_set hw haud hbel (fun j _ => hno j) hcontext (putAlarm_alarm w i _)
  | counted => exact hw.congr hcontext fun _ => rfl

theorem takeCandidates_sound (s : State) {cs : List (CondType × Nat)} (hcs : cs.Nodup) {w : AlmWork} (hw : Sound w.alm)
    (hall : ∀ c ∈ cs, Eligible w.alm c ∧ NoEntry w.alm c) :
    Sound (cs.foldl (takeCandidate s) w).alm ∧ SameContext w.alm (cs.foldl (takeCandidate s) w).alm := by
  induction cs generalizing w with
  | nil => exact ⟨hw, .refl _⟩
  | cons c cs ih =>
    obtain ⟨hc, hcs⟩ := List.nodup_cons.1 hcs
    have htakes := takeCandidate_takes s w c
    obtain ⟨helig, hno⟩ := hall c (.head _)
    obtain ⟨hsound, hcontext⟩ := ih hcs (takes_sound htakes hw helig hno) fun d hd => by
      obtain ⟨hd1, hd2⟩ := hall d (.tail _ hd)
      exact ⟨hd1.congr htakes.context, takes_noEntry htakes (ne_of_mem_of_not_mem hd hc) hd2⟩
    exact ⟨hsound, htakes.context.trans hcontext⟩

theorem mem_candidates {before a : Alm} {offered : List (CondType × Nat)} {c : CondType × Nat}
    (h : c ∈ candidates before a offered) : Eligible a c ∧ NoEntry a c ∧
      (c ∈ offered ∨ before.suppressed c.1 c.2 = true ∨ (before.profileOf c.1).severity.tabled = false) := by
  obtain ⟨hmem, htests⟩ := List.mem_filter.1 h
  simp only [Bool.and_eq_true, Bool.or_eq_true, Bool.not_eq_true', List.contains_iff_mem] at htests
  obtain ⟨⟨⟨hsup, htab⟩, hno⟩, hwhy⟩ := htests
  exact ⟨⟨htab, hsup, decide_eq_true hmem⟩, (hasEntry_eq_false a c.1 c.2).1 hno, or_assoc.1 hwhy⟩

/-! ### The end of a batch, and the other events -/

theorem almFinish_ok (before : Alm) {w : AlmWork} (hw : Sound w.alm) (hpres : presentOk w.alm.present = true) :
    tableOk (almFinish before w).1 = true := by
  have hcontext := almFinish_context before w
  exact (tableOk_iff _).2 ⟨hw.congr hcontext (almFinish_alarm before w), almFinish_outputs before w,
    hcontext.present ▸ hpres⟩

/-- The work of a batch once the entries are moved. -/
def movedWork (a : Alm) (events : List JBody) (dropped : List (CondType × Nat)) : AlmWork :=
  (List.finRange 128).foldl (moveEntry dropped) { alm := a, recs := events, freed := [] }

/-- The work of a batch once the entries are moved and graded. -/
def gradedWork (s : State) (a : Alm) (events : List JBody) (dropped : List (CondType × Nat)) : AlmWork :=
  (List.finRange 128).foldl (gradeEntry s) (movedWork a events dropped)

/-- The work of a batch once the candidates have taken their entries. -/
def takenWork (s : State) (before a : Alm) (events : List JBody) (offered dropped : List (CondType × Nat)) : AlmWork :=
  (candidates before (gradedWork s a events dropped).alm offered).foldl (takeCandidate s) (gradedWork s a events dropped)

theorem almMove_eq (s : State) (before a : Alm) (events : List JBody) (offered dropped : List (CondType × Nat)) :
    almMove s before a events offered dropped = almFinish before (takenWork s before a events offered dropped) := rfl

theorem movedWork_passed (a : Alm) (events : List JBody) (dropped : List (CondType × Nat)) :
    Passed (moveRule a dropped) (List.finRange 128) { alm := a, recs := events, freed := [] } (movedWork a events dropped) :=
  table_passed (fun w i hw => moveEntry_eq dropped w i hw) (.refl a)

theorem gradedWork_passed (s : State) (a : Alm) (events : List JBody) (dropped : List (CondType × Nat)) :
    Passed (gradeRule s (movedWork a events dropped).alm) (List.finRange 128) (movedWork a events dropped)
      (gradedWork s a events dropped) :=
  table_passed (fun w i hw => gradeEntry_eq s w i hw) (.refl _)

theorem gradedWork_context (s : State) (a : Alm) (events : List JBody) (dropped : List (CondType × Nat)) :
    SameContext a (gradedWork s a events dropped).alm :=
  (movedWork_passed a events dropped).context.trans (gradedWork_passed s a events dropped).context

section
variable {s : State} {before a : Alm} {events : List JBody} {offered dropped : List (CondType × Nat)}
  (htwins : NoTwins a) (haud : EachAlarm (fun x => audibleOk x = true) a)
  (hsev : EachAlarm (fun x => x.severity.tabled = true) a)
include htwins haud hsev

theorem movedWork_sound : Sound (movedWork a events dropped).alm :=
  moved_sound (w0 := { alm := a, recs := events, freed := [] }) (movedWork_passed a events dropped) htwins haud hsev

theorem gradedWork_sound : Sound (gradedWork s a events dropped).alm :=
  graded_sound (gradedWork_passed s a events dropped) (movedWork_sound htwins haud hsev)

theorem takenWork_sound (hpres : presentOk a.present = true) : Sound (takenWork s before a events offered dropped).alm ∧
    SameContext a (takenWork s before a events offered dropped).alm := by
  have hcontext := gradedWork_context s a events dropped
  have hnodup : (candidates before (gradedWork s a events dropped).alm offered).Nodup :=
    List.Nodup.filter _ (by rw [hcontext.present]; exact ((presentOk_iff _).1 hpres).1)
  obtain ⟨hsound, hcontext'⟩ := takeCandidates_sound s hnodup (gradedWork_sound htwins haud hsev) fun c hc =>
    ⟨(mem_candidates hc).1, (mem_candidates hc).2.1⟩
  exact ⟨hsound, hcontext.trans hcontext'⟩

theorem almMove_ok (hpres : presentOk a.present = true) :
    tableOk (almMove s before a events offered dropped).1 = true ∧
    SameContext a (almMove s before a events offered dropped).1 := by
  rw [almMove_eq]
  obtain ⟨hsound, hcontext⟩ := takenWork_sound htwins haud hsev hpres (s := s) (before := before) (events := events)
    (offered := offered) (dropped := dropped)
  generalize takenWork s before a events offered dropped = w at hsound hcontext ⊢
  exact ⟨almFinish_ok before hsound (hcontext.present ▸ hpres), hcontext.trans (almFinish_context before w)⟩

end

theorem EachAlarm.mono {P Q : Alarm → Prop} {a : Alm} (h : EachAlarm P a) (hpq : ∀ x, P x → Q x) : EachAlarm Q a :=
  fun i x hx => hpq x (h i x hx)

theorem almBatch_ok {s : State} (h : tableOk s.alm = true) (b : List AlmChange) : tableOk (almBatch s b).1 = true := by
  obtain ⟨hsound, _, hpres⟩ := (tableOk_iff _).1 h
  obtain ⟨ps, st, hd, tp, gs, heq⟩ := applyChanges_eq b s.alm
  have halarm : (b.foldl applyChange s.alm).entries = s.alm.entries := by rw [heq]
  have htwins : NoTwins (b.foldl applyChange s.alm) := by unfold NoTwins; rw [halarm]; exact hsound.twins
  have haud : EachAlarm (fun x => audibleOk x = true) (b.foldl applyChange s.alm) := by
    unfold EachAlarm; rw [halarm]; exact hsound.audible
  have hsev : EachAlarm (fun x => x.severity.tabled = true) (b.foldl applyChange s.alm) := by
    unfold EachAlarm; rw [halarm]; exact fun i x hx => (hsound.belongs i x hx).severity
  exact (almMove_ok htwins haud hsev (applyChanges_ok b hpres)).1

/-- A profile entry of the same severity is as good. -/
theorem tableOk_reprofile {a : Alm} (h : tableOk a = true) {t : Fin 24} {pf : AlarmProfile}
    (hsame : pf.severity = a.profile[t].severity) : tableOk { a with profile := a.profile.set t pf } = true := by
  obtain ⟨⟨htwins, haud, hbel⟩, hout, hpres⟩ := (tableOk_iff _).1 h
  have hseverity : ∀ u : CondType, (Alm.profileOf { a with profile := a.profile.set t pf } u).severity =
      (a.profileOf u).severity := by
    intro u
    have hget : (a.profile.set t pf)[u.index] = if u.index = t then pf else a.profile[u.index] := getElem_set_fin _ _ _ _
    simp only [Alm.profileOf]
    rw [hget]
    split
    · next hu => simp only [hsame, hu]
    · rfl
  refine (tableOk_iff _).2 ⟨⟨htwins, haud, fun i x hx => ?_⟩, hout, hpres⟩
  obtain ⟨htab, hsup, hsev, hagrees⟩ := hbel i x hx
  exact ⟨by rw [hseverity, htab], hsup, hsev, hagrees⟩

theorem almProfile_ok {s : State} (h : tableOk s.alm = true) (t : Fin 24) (pf : AlarmProfile) :
    tableOk (almProfile s t pf).1 = true := by
  obtain ⟨hsound, _, hpres⟩ := (tableOk_iff _).1 h
  obtain ⟨hok, hcontext⟩ := almMove_ok (s := s) (before := s.alm) (events := []) (offered := []) (dropped := [])
    (a := { s.alm with profile := s.alm.profile.set t { s.alm.profile[t] with severity := pf.severity } })
    hsound.twins hsound.audible (hsound.belongs.mono fun _ hx => hx.severity) hpres
  refine tableOk_reprofile hok ?_
  have hget : (s.alm.profile.set t { s.alm.profile[t] with severity := pf.severity })[t] =
      { s.alm.profile[t] with severity := pf.severity } := by rw [getElem_set_fin, if_pos rfl]
  rw [hcontext.profile, hget]

theorem almRaise_ok {s : State} (h : tableOk s.alm = true) (i : EntryIx) : tableOk (almRaise s i).1 = true := by
  obtain ⟨hsound, _, hpres⟩ := (tableOk_iff _).1 h
  unfold almRaise
  split
  · next x hx =>
    split
    · next n hst =>
      obtain ⟨htab, hsup, hsev, hagrees⟩ := hsound.belongs i x hx
      refine almFinish_ok s.alm (w := activate s.now _ i x) (sound_replace (x := x) hsound hx ⟨rfl, rfl⟩ ?_ ⟨htab, hsup, hsev, ?_⟩) hpres
      · refine (audibleOk_iff _).2 fun hring => ?_
        obtain ⟨hr, hack⟩ := Bool.and_eq_true_iff.1 hring
        exact ⟨rfl, hr, by simpa using hack⟩
      · have hpresent : s.alm.isPresent x.type x.obj = true := hagrees.2 fun m => by rw [hst]; nofun
        exact ⟨fun _ => nofun, fun _ => hpresent⟩
    · exact h
    · exact h
  · exact h

theorem almClear_ok {s : State} (h : tableOk s.alm = true) (i : EntryIx) : tableOk (almClear s i).1 = true := by
  obtain ⟨hsound, _, hpres⟩ := (tableOk_iff _).1 h
  unfold almClear
  split
  · next x hx =>
    split
    · exact almFinish_ok s.alm (w := freeEntry _ i x .cleared) (sound_free hsound i x .cleared) hpres
    · exact h
    · exact h
  · exact h

/-- An alarm that stops ringing belongs where it did. -/
theorem sound_quiet {w : AlmWork} (h : Sound w.alm) {i : EntryIx} {x : Alarm} (hx : w.alm.entries[i].alarm = some x)
    (ack : Bool) : Sound (putAlarm w i { x with ack := ack, audible := false }).alm := by
  obtain ⟨htab, hsup, hsev, hagrees⟩ := h.belongs i x hx
  exact sound_replace h hx ⟨rfl, rfl⟩ ((audibleOk_iff _).2 nofun) ⟨htab, hsup, hsev, hagrees⟩

theorem ackEntry_sound (w : AlmWork) (i : EntryIx) (h : Sound w.alm ∧ presentOk w.alm.present = true) :
    Sound (ackEntry w i).alm ∧ presentOk (ackEntry w i).alm.present = true := by
  unfold ackEntry
  split
  · next x hx => exact ⟨sound_quiet h.1 hx true, h.2⟩
  · exact h

theorem silenceEntry_sound (w : AlmWork) (i : EntryIx) (h : Sound w.alm ∧ presentOk w.alm.present = true) :
    Sound (silenceEntry w i).alm ∧ presentOk (silenceEntry w i).alm.present = true := by
  unfold silenceEntry
  split
  · next x hx =>
    split
    · exact ⟨sound_quiet h.1 hx x.ack, h.2⟩
    · exact h
  · exact h

/-- A pass that keeps the table sound. -/
theorem pass_ok {s : State} (h : tableOk s.alm = true) {f : AlmWork → EntryIx → AlmWork}
    (hf : ∀ w i, Sound w.alm ∧ presentOk w.alm.present = true → Sound (f w i).alm ∧ presentOk (f w i).alm.present = true)
    (is : List EntryIx) : tableOk (almFinish s.alm (is.foldl f { alm := s.alm, recs := [], freed := [] })).1 = true := by
  obtain ⟨hsound, _, hpres⟩ := (tableOk_iff _).1 h
  obtain ⟨hsound', hpres'⟩ := foldl_keeps (f := f)
    (P := fun w : AlmWork => Sound w.alm ∧ presentOk w.alm.present = true) hf is
    (a := { alm := s.alm, recs := [], freed := [] }) ⟨hsound, hpres⟩
  exact almFinish_ok s.alm hsound' hpres'

theorem almEvent_ok {s : State} {r : Alm × List Msg} (he : AlmEvent s r) (h : tableOk s.alm = true) :
    tableOk r.1 = true := by
  cases he with
  | batch b => exact almBatch_ok h b
  | profile t pf => exact almProfile_ok h t pf
  | raise i => exact almRaise_ok h i
  | clear i => exact almClear_ok h i
  | ack is => exact pass_ok h ackEntry_sound is
  | cutOff => exact pass_ok h silenceEntry_sound _

/-! ### Reset and time -/

theorem almReset_ok : tableOk Alm.reset = true := by
  have hnone : ∀ i : EntryIx, Alm.reset.entries[i].alarm = none := fun i => by simp [Alm.reset]
  have hnever : ∀ (i : EntryIx) x, Alm.reset.entries[i].alarm ≠ some x := fun i x hx => by
    rw [hnone] at hx
    cases hx
  have hquiet : ∀ v, Alm.reset.shows v = false := fun v => by
    simp only [Alm.shows, hnone, List.any_eq_false, Bool.false_eq_true, not_false_eq_true, implies_true]
  have hrings : Alm.reset.rings = false := by
    simp only [Alm.rings, hnone, List.any_eq_false, Bool.false_eq_true, not_false_eq_true, implies_true]
  refine (tableOk_iff _).2 ⟨⟨fun i _ x _ hx => absurd hx (hnever i x), fun i x hx => absurd hx (hnever i x),
    fun i x hx => absurd hx (hnever i x)⟩, ?_, rfl⟩
  simp only [formOutputs, hquiet, hrings]
  rfl

/-- A period takes an alarm's soak down and leaves the rest. -/
theorem tickAlarm_eq (x : Alarm) : ∃ st, tickAlarm x = { x with state := st } ∧
    (tickAlarm x).shown = x.shown ∧ ((∀ n, st ≠ .clearing n) ↔ ∀ n, x.state ≠ .clearing n) := by
  refine ⟨(tickAlarm x).state, rfl, ?_, ?_⟩
  · unfold Alarm.shown tickAlarm
    cases x.state <;> rfl
  · unfold tickAlarm
    cases x.state <;> simp

theorem tickAlm_alarm (a : Alm) (i : EntryIx) : (tickAlm a).entries[i].alarm = a.entries[i].alarm.map tickAlarm := by
  have hget : (tickAlm a).entries[i] = { a.entries[i] with alarm := a.entries[i].alarm.map tickAlarm } := ofFn_fin _ i
  rw [hget]

theorem tickAlm_outputs (a : Alm) : formOutputs (tickAlm a) = formOutputs a := by
  have hshows : ∀ v, (tickAlm a).shows v = a.shows v := by
    intro v
    unfold Alm.shows
    refine congrArg (List.any _) (funext fun i => ?_)
    rw [tickAlm_alarm]
    cases a.entries[i].alarm with
    | none => rfl
    | some x =>
      obtain ⟨st, heq, hshown, _⟩ := tickAlarm_eq x
      have hsev : (tickAlarm x).severity = x.severity := rfl
      simp only [Option.map_some, hshown, hsev]
  have hrings : (tickAlm a).rings = a.rings := by
    unfold Alm.rings
    refine congrArg (List.any _) (funext fun i => ?_)
    rw [tickAlm_alarm]
    cases a.entries[i].alarm <;> rfl
  have hover : (tickAlm a).overflow = a.overflow := by unfold tickAlm; rfl
  simp only [formOutputs, hshows, hrings, hover]

theorem tickAlm_ok {a : Alm} (h : tableOk a = true) : tableOk (tickAlm a) = true := by
  obtain ⟨hsound, hout, hpres⟩ := (tableOk_iff _).1 h
  have hcontext : SameContext a (tickAlm a) := by unfold tickAlm; exact ⟨rfl, rfl, rfl, rfl, rfl, rfl⟩
  have hfrom : ∀ (i : EntryIx) y, (tickAlm a).entries[i].alarm = some y → ∃ x, a.entries[i].alarm = some x ∧ tickAlarm x = y := by
    intro i y hy
    rw [tickAlm_alarm] at hy
    exact Option.map_eq_some_iff.1 hy
  refine (tableOk_iff _).2 ⟨⟨?_, ?_, ?_⟩, ?_, by rw [hcontext.present]; exact hpres⟩
  · intro i j y y' hy hy' ht ho
    obtain ⟨x, hx, rfl⟩ := hfrom i y hy
    obtain ⟨x', hx', rfl⟩ := hfrom j y' hy'
    exact hsound.twins i j x x' hx hx' ht ho
  · intro i y hy
    obtain ⟨x, hx, rfl⟩ := hfrom i y hy
    obtain ⟨st, _, hshown, _⟩ := tickAlarm_eq x
    refine (audibleOk_iff _).2 fun hring => ?_
    obtain ⟨hs, hr, hack⟩ := (audibleOk_iff x).1 (hsound.audible i x hx) hring
    exact ⟨hshown.trans hs, hr, hack⟩
  · intro i y hy
    obtain ⟨x, hx, rfl⟩ := hfrom i y hy
    obtain ⟨htab, hsup, hsev, hagrees⟩ := hsound.belongs i x hx
    obtain ⟨st, heq, _, hst⟩ := tickAlarm_eq x
    refine Belongs.congr hcontext ⟨htab, hsup, hsev, ?_⟩
    rw [heq]
    exact Iff.trans hagrees hst.symm
  · rw [tickAlm_outputs, ← hout]
    unfold tickAlm
    rfl

theorem kept_table : Kept fun s => tableOk s.alm = true where
  change s t h hok := by
    cases h with
    | leaves h => exact h.alm ▸ hok
    | alm h => exact almEvent_ok h hok
    | warm => exact almReset_ok
    | _ => exact hok
  cold _ _ _ _ := almReset_ok
  tick _ h := tickAlm_ok h
  queue _ _ h := h

/-- Settles O57: each step of a batch leaves entries that belong under the context the batch has formed.
`Tests.test_invariants_alarms` meets the hypothesis. -/
theorem theAlarmTableStaysTrue : Obligations.TheAlarmTableStaysTrue := by
  intro s t hok hstep
  exact kept_table.step hstep hok

end Sys2Proof.Proofs
end

