-- ==== Sys2Proof/Proofs/RegisterWords.lean ====
section
/-! Frames of single changes, the reset state, and the completed writes of register words (R156, R158). -/

namespace Sys2Proof.Proofs

open Sys2Proof.Machine Sys2Proof.Safety Sys2Proof.Laws

/-- Settles O60: block by block. -/
theorem resetMeetsEveryInvariant : Obligations.ResetMeetsEveryInvariant :=
  ⟨(right_iff _).1 reset_right |>.1, (right_iff _).1 reset_right |>.2, (cbcOk_iff _).2 reset_holdsOk,
    (prcSettled_iff _).2 (reset_settled _), tselReset_ok, rfl, almReset_ok, reset_jrnOk, rfl⟩

/-! ### Frames of single changes -/

/-- A change of the host port's data. -/
theorem hpi_unchanged (s : State) (h : Hpi) : unchangedBut [.port, .attn] s { s with hpi := h } := by
  intro q hq
  cases q with
  | port => exact absurd (by decide) hq
  | attn => exact absurd (by decide) hq
  | _ => rfl

/-- A change of the host port's data apart from ATTN. -/
theorem port_unchanged (s : State) {h : Hpi} (hattn : h.attn = s.hpi.attn) : unchangedBut [.port] s { s with hpi := h } := by
  intro q hq
  cases q with
  | port => exact absurd (by decide) hq
  | attn => exact hattn
  | _ => rfl

/-! ### Register words -/

theorem whenever_true {b : Bool} (h : b = true) (s t : State) : whenever b s t = .next t := by rw [h]; rfl

theorem whenever_false {b : Bool} (h : b = false) (s t : State) : whenever b s t = .next s := by rw [h]; rfl

theorem regionOf_register {a : Nat} (h : 0x7FF0 ≤ a) : regionOf a = .register := by
  unfold regionOf
  repeat rw [if_neg (by omega)]

/-- R155: a completed write to a register word spends the held byte. -/
theorem hostWordWrite_register (s : State) {a : Nat} (h : 0x7FF0 ≤ a) (w : Word) :
    hostWordWrite s a w = registerWrite { s with hpi := { s.hpi with held := none } } (a - 0x7FF0) w := by
  simp only [hostWordWrite, hostWord, regionOf_register h]

theorem otherRegister_ready {s : State} (h : s.start.ready = true) {a : Addr} (ha : a ∈ otherRegisters) :
    (s.start.ready && otherRegisters.contains a) = true := by
  rw [h, Bool.true_and]
  exact List.contains_iff_mem.2 ha

theorem low6 (w : Word) : w.setWidth 6 = w.extractLsb' 0 6 := BitVec.setWidth_eq_extractLsb' (by decide)

/-- Settles O41: each write goes to its register word. -/
theorem registerWrites : Obligations.RegisterWrites := by
  intro w s
  refine ⟨fun hready => ⟨?clr, ?mask, fun a ha => ?other, fun a ha => ?reserved⟩, fun hinit =>
    ⟨whenever_false hinit _ _, whenever_false hinit _ _, fun a => whenever_false (by rw [hinit]; rfl) _ _⟩⟩
  case clr =>
    refine ⟨_, whenever_true hready s _, ?_⟩
    rw [hostWordWrite_register s (by decide), ← low6]
    exact ⟨rfl, hpi_unchanged s _⟩
  case mask =>
    refine ⟨_, whenever_true hready s _, ?_⟩
    rw [hostWordWrite_register s (by decide), ← low6]
    exact ⟨rfl, port_unchanged s rfl⟩
  case other =>
    have hreg : a ∈ otherRegisters := by obtain rfl | rfl | rfl := ha <;> decide
    have haddr : 0x7FF0 ≤ a.toNat ∧ (a.toNat - 0x7FF0 = 0 ∨ a.toNat - 0x7FF0 = 2 ∨ a.toNat - 0x7FF0 = 4) := by
      obtain rfl | rfl | rfl := ha <;> decide
    refine ⟨_, whenever_true (otherRegister_ready hready hreg) s _, ?_⟩
    rw [hostWordWrite_register s haddr.1, registerWrite, if_pos haddr.2]
    exact ⟨rfl, port_unchanged s rfl⟩
  case reserved =>
    have hreg : a ∈ otherRegisters := by obtain rfl | rfl := ha <;> decide
    have haddr : 0x7FF0 ≤ a.toNat ∧ (a.toNat - 0x7FF0 = 12 ∨ a.toNat - 0x7FF0 = 14) := by
      obtain rfl | rfl := ha <;> decide
    refine ⟨_, whenever_true (otherRegister_ready hready hreg) s _, ?_⟩
    have hno : registerWrite { s with hpi := { s.hpi with held := none } } (a.toNat - 0x7FF0) w =
        { s with hpi := { s.hpi with held := none } } := by
      obtain ⟨_, h | h⟩ := haddr <;> rw [h] <;> rfl
    rw [hostWordWrite_register s haddr.1, hno]
    exact ⟨rfl, port_unchanged s rfl⟩

end Sys2Proof.Proofs
end

