-- ==== Sys2Proof/Proofs/PortStages.lean ====
section
/-! The stages of a valid sample (R1, R3 to R8, R11 to R17): what each of them leaves of a port's record. -/

namespace Sys2Proof.Proofs

open Sys2Proof.Machine Sys2Proof.Safety Sys2Proof.Laws

/-! ### Confirmation (R4, R5, R16, R17) -/

theorem replicate_prefix_le {n k : Nat} {rest : List Bool} (h : List.replicate n true <+: List.replicate k true ++ false :: rest) :
    n ≤ k := by
  obtain ⟨tail, htail⟩ := h
  by_contra hlt
  have hk : (List.replicate k true ++ false :: rest)[k]? = some false := by
    rw [List.getElem?_append_right (by simp), List.length_replicate, Nat.sub_self, List.getElem?_cons_zero]
  rw [← htail, List.getElem?_append_left (by simpa using hlt), List.getElem?_replicate, if_pos (by omega)] at hk
  cases hk

/-- A run longer than what stands before a break lies past the break. -/
theorem run_past_break {n k : Nat} (hk : k < n) (rest : List Bool) :
    List.replicate n true <:+: List.replicate k true ++ false :: rest ↔ List.replicate n true <:+: rest := by
  have hno : ∀ j, j ≤ k → ¬List.replicate n true <+: List.replicate j true ++ false :: rest := fun j hj hp =>
    absurd (replicate_prefix_le hp) (by omega)
  induction k with
  | zero =>
    rw [List.replicate_zero, List.nil_append, List.infix_cons_iff]
    exact or_iff_right (by simpa using hno 0 (le_refl 0))
  | succ k ih =>
    have hrest := ih (by omega) fun j hj => hno j (by omega)
    refine Iff.trans ?_ hrest
    rw [List.replicate_succ, List.cons_append, List.infix_cons_iff, ← List.cons_append, ← List.replicate_succ]
    exact or_iff_right (hno (k + 1) (le_refl _))

/-- A sample's step of a confirmed flag. -/
def confirmStep (n : Nat) (x : Bool × Nat) (b : Bool × Bool) : Bool × Nat := confirm x.1 x.2 n b.1 b.2

/-- A clear flag whose run stands at `k` is declared just when the run, continued, reaches `n`. -/
theorem declared_iff (n : Nat) (bs : List (Bool × Bool)) {k : Nat} (hk : k < n) :
    (∃ pre, pre <+: bs ∧ (pre.foldl (confirmStep n) (false, k)).1 = true) ↔
      List.replicate n true <:+: List.replicate k true ++ bs.map (·.1) := by
  induction bs generalizing k with
  | nil =>
    constructor
    · rintro ⟨pre, hpre, htrue⟩
      rw [List.prefix_nil.1 hpre] at htrue
      cases htrue
    · intro h
      have hlen := h.length_le
      simp at hlen
      omega
  | cons b bs ih =>
    have hsplit : (∃ pre, pre <+: b :: bs ∧ (pre.foldl (confirmStep n) (false, k)).1 = true) ↔
        ∃ pre, pre <+: bs ∧ (pre.foldl (confirmStep n) (confirmStep n (false, k) b)).1 = true := by
      constructor
      · rintro ⟨pre, hpre, htrue⟩
        obtain rfl | ⟨t, rfl, ht⟩ := List.prefix_cons_iff.1 hpre
        · cases htrue
        · exact ⟨t, ht, htrue⟩
      · rintro ⟨t, ht, htrue⟩
        exact ⟨b :: t, List.prefix_cons_iff.2 (.inr ⟨t, rfl, ht⟩), htrue⟩
    rw [hsplit, List.map_cons]
    obtain ⟨raises, clears⟩ := b
    cases raises with
    | false =>
      have hstep : confirmStep n (false, k) (false, clears) = (false, 0) := rfl
      rw [hstep, ih (by omega), run_past_break hk]
      rfl
    | true =>
      have hjoin : List.replicate k true ++ true :: bs.map (·.1) = List.replicate (k + 1) true ++ bs.map (·.1) := by
        rw [List.replicate_succ', List.append_assoc]
        rfl
      rw [hjoin]
      by_cases hn : n ≤ k + 1
      · obtain rfl : n = k + 1 := by omega
        have hstep : confirmStep (k + 1) (false, k) (true, clears) = (true, 0) := by simp [confirmStep, confirm]
        rw [hstep]
        exact ⟨fun _ => (List.prefix_append _ _).isInfix, fun _ => ⟨[], List.nil_prefix, rfl⟩⟩
      · have hstep : confirmStep n (false, k) (true, clears) = (false, k + 1) := by simp [confirmStep, confirm, hn]
        rw [hstep, ih (by omega)]

/-- Settles O4: the counter is the length of the run that the last samples form. -/
theorem aFlagIsDeclaredByARunOfN : Obligations.AFlagIsDeclaredByARunOfN := fun n bs hn => declared_iff n bs (k := 0) hn

/-! ### What each stage leaves -/

section
variable (pf : Profile) (card : CardState) (held : Bool) (r : PortRec)

theorem stageFilter_eq : ∃ v sp n, stageFilter pf r = { r with smoothed := v, spike := sp, spikes := n } := by
  have hsmooth : ∀ q : PortRec, ∃ v, stageSmooth pf q = { q with smoothed := v } := fun q => by
    unfold stageSmooth
    split <;> exact ⟨_, rfl⟩
  unfold stageFilter
  split
  · obtain ⟨v, hv⟩ := hsmooth { r with spike := .clear }
    exact ⟨v, .clear, r.spikes, hv⟩
  · simp only
    split
    · generalize (if 0 < r.power - _ then Spike.rising else Spike.falling) = sign
      split <;> exact ⟨_, _, _, rfl⟩
    · obtain ⟨v, hv⟩ := hsmooth { r with spike := .clear }
      exact ⟨v, .clear, r.spikes, hv⟩

theorem stageTrack_eq : ∃ b n, stageTrack pf card held r = { r with baseline := b, track := n } := by
  unfold stageTrack
  split
  · simp only
    split
    · split <;> exact ⟨_, _, rfl⟩
    · exact ⟨_, _, rfl⟩
  · exact ⟨_, _, rfl⟩

theorem stageCollect_eq : ∃ b n m k c, (stageCollect r).1 =
    { r with baseline := b, failCnt := n, degCnt := m, track := k, cal := c } := by
  unfold stageCollect
  split
  · split
    · exact ⟨_, _, _, _, _, rfl⟩
    · split <;> exact ⟨_, _, _, _, _, rfl⟩
  · exact ⟨_, _, _, _, _, rfl⟩

theorem stageDeficit_eq : ∃ f n g m, stageDeficit pf r = { r with fail := f, failCnt := n, degrade := g, degCnt := m } := by
  unfold stageDeficit
  split
  · split <;> exact ⟨_, _, _, _, rfl⟩
  · exact ⟨_, _, _, _, rfl⟩

/-- Without a calibration in progress the collection stage does nothing. -/
theorem stageCollect_idle {r : PortRec} (h : r.cal = none) : stageCollect r = (r, none) := by
  unfold stageCollect
  split
  · next hc _ => rw [h] at hc; cases hc
  · rfl

theorem stageCollect_los {r : PortRec} (h : r.los = true) : stageCollect r = (r, none) := by
  unfold stageCollect
  split
  · rw [if_pos h]
  · rfl

theorem stageDeficit_los {r : PortRec} (h : r.los = true) : stageDeficit pf r = r := by
  unfold stageDeficit
  split
  · rw [if_pos h]
  · rfl

/-- R16, R17: a sample without LOS, B and S present, takes part in both runs. -/
theorem stageDeficit_takes {r : PortRec} (h : r.los = false) {b v : Int} (hb : r.baseline = some b) (hv : r.smoothed = some v) :
    stageDeficit pf r =
      let d := b - v
      let f := confirm r.fail r.failCnt pf.defN (decide (pf.failThr ≤ d)) (decide (d ≤ pf.failThr - pf.hyst))
      let g := confirm r.degrade r.degCnt pf.defN (decide (pf.degThr ≤ d)) (decide (d ≤ pf.degThr - pf.hyst))
      { r with fail := f.1, failCnt := f.2, degrade := g.1, degCnt := g.2 } := by
  simp only [stageDeficit, hb, hv, h, Bool.false_eq_true, if_false]

theorem stageDeficit_noBaseline {r : PortRec} (h : r.baseline = none) : stageDeficit pf r = r := by
  simp only [stageDeficit, h]

/-- R3, R4. -/
theorem stageConvert_eq (code : BitVec 12) : stageConvert pf code r =
    { r with
      power := rawPower code, overRange := overRange code
      overload := (confirm r.overload r.ovlCnt pf.losN (overRange code) (!overRange code)).1
      ovlCnt := (confirm r.overload r.ovlCnt pf.losN (overRange code) (!overRange code)).2 } := rfl

end

/-! ### A sample through the stages -/

section
variable (pf : Profile) (card : CardState) (held : Bool) (code : BitVec 12) (r : PortRec)

/-- R1, R3, R4: the record as the conversion stage leaves it. -/
def convertedRec : PortRec := stageConvert pf code { r with run := 0, monLost := false }

/-- R5: LOS and its counter after the sample. -/
def losAfter : Bool × Nat :=
  confirm r.los r.losCnt pf.losN (decide (rawPower code ≤ pf.losThr)) (decide (pf.losThr + 200 ≤ rawPower code))

/-- The record with LOS and its counter brought up to date. -/
def litRec : PortRec :=
  { convertedRec pf code r with los := (losAfter pf code r).1, losCnt := (losAfter pf code r).2 }

/-- R6, R7, R8: the record as stages 2 to 4 leave it. -/
def filteredRec : PortRec :=
  if r.los then
    if (losAfter pf code r).1 then litRec pf code r
    else { litRec pf code r with smoothed := some (rawPower code), spike := .clear }
  else if (losAfter pf code r).1 then
    { litRec pf code r with fail := false, failCnt := 0, degrade := false, degCnt := 0, cal := none }
  else stageFilter pf (litRec pf code r)

/-- The record of a sample after stages 5 and 6. -/
def finishedRec (q : PortRec) : PortRec := stageDeficit pf (stageCollect (stageTrack pf card held q)).1

/-- R6, R15: what the loss of light does to a calibration in progress. -/
def losOutcome : Option CalOutcome :=
  if r.los = false ∧ (losAfter pf code r).1 = true ∧ r.cal.isSome = true then some .failedLos else none

theorem portValid_eq : portValid pf card held code r = (finishedRec pf card held (filteredRec pf code r),
    losOutcome pf code r <|> (stageCollect (stageTrack pf card held (filteredRec pf code r))).2) := by
  have hlos : stageLos pf (convertedRec pf code r) =
      if !r.los && (losAfter pf code r).1 then
        { litRec pf code r with fail := false, failCnt := 0, degrade := false, degCnt := 0 }
      else if r.los && !(losAfter pf code r).1 then { litRec pf code r with smoothed := some (rawPower code), spike := .clear }
      else litRec pf code r := rfl
  have hended : ∀ q : PortRec, endCal .failedLos q = ({ q with cal := none }, if q.cal.isSome then some .failedLos else none) :=
    fun q => by
      unfold endCal
      split
      · rfl
      · next h =>
        rw [Option.not_isSome_iff_eq_none] at h
        simp only [← h]
  have hvalid : portValid pf card held code r =
      let r2 := stageLos pf (convertedRec pf code r)
      let e := if !r.los && r2.los then endCal .failedLos r2 else (r2, none)
      let q := if r.los || r2.los then e.1 else stageFilter pf e.1
      (finishedRec pf card held q, e.2 <|> (stageCollect (stageTrack pf card held q)).2) := rfl
  have hlit : (litRec pf code r).los = (losAfter pf code r).1 ∧ (litRec pf code r).cal = r.cal := ⟨rfl, rfl⟩
  rw [hvalid, hlos]
  unfold filteredRec losOutcome
  cases hold : r.los <;> cases hnew : (losAfter pf code r).1 <;>
    simp only [hlit, hnew, hended, Bool.not_true, Bool.not_false, Bool.and_true, Bool.and_false, Bool.or_false, Bool.or_true,
      Bool.false_eq_true, Bool.true_eq_false, if_true, if_false, true_and, false_and]

theorem portValid_rec : (portValid pf card held code r).1 = finishedRec pf card held (filteredRec pf code r) := by
  rw [portValid_eq]

/-- R11 to R17: the last two stages leave the conversion, LOS, the filter and the run. -/
theorem finishedRec_eq (q : PortRec) : ∃ b f n g m k c, finishedRec pf card held q =
    { q with baseline := b, fail := f, failCnt := n, degrade := g, degCnt := m, track := k, cal := c } := by
  obtain ⟨b, k, ht⟩ := stageTrack_eq pf card held q
  obtain ⟨b', n, m, k', c, hc⟩ := stageCollect_eq (stageTrack pf card held q)
  obtain ⟨f, n', g, m', hd⟩ := stageDeficit_eq pf (stageCollect (stageTrack pf card held q)).1
  exact ⟨_, _, _, _, _, _, _, by rw [finishedRec, hd, hc, ht]⟩

/-- While LOS is declared and no calibration is in progress, the last two stages track alone. -/
theorem finishedRec_los {q : PortRec} (h : q.los = true) : finishedRec pf card held q = stageTrack pf card held q := by
  have hlos : (stageTrack pf card held q).los = true := by
    obtain ⟨b, k, ht⟩ := stageTrack_eq pf card held q
    rw [ht, h]
  rw [finishedRec, stageCollect_los hlos]
  exact stageDeficit_los pf hlos

theorem finishedRec_idle {q : PortRec} (h : q.cal = none) :
    finishedRec pf card held q = stageDeficit pf (stageTrack pf card held q) := by
  have hcal : (stageTrack pf card held q).cal = none := by
    obtain ⟨b, k, ht⟩ := stageTrack_eq pf card held q
    rw [ht, h]
  rw [finishedRec, stageCollect_idle hcal]

theorem filteredRec_los : (filteredRec pf code r).los = (losAfter pf code r).1 := by
  obtain ⟨v, sp, n, hf⟩ := stageFilter_eq pf (litRec pf code r)
  unfold filteredRec
  cases r.los <;> cases hnew : (losAfter pf code r).1 <;> simp only [Bool.false_eq_true, if_true, if_false, hf] <;> exact hnew

theorem portValid_los : (portValid pf card held code r).1.los = (losAfter pf code r).1 := by
  obtain ⟨b, f, n, g, m, k, c, h⟩ := finishedRec_eq pf card held (filteredRec pf code r)
  rw [portValid_rec, h]
  exact filteredRec_los pf code r

/-- The stages before tracking leave tracking, the baseline and, without LOS declared by this sample, the calibration and
the deficit runs. -/
theorem filteredRec_kept : (filteredRec pf code r).baseline = r.baseline ∧ (filteredRec pf code r).track = r.track ∧
    (filteredRec pf code r).power = rawPower code ∧ (filteredRec pf code r).overRange = overRange code ∧
    ((filteredRec pf code r).overload, (filteredRec pf code r).ovlCnt) =
      confirm r.overload r.ovlCnt pf.losN (overRange code) (!overRange code) ∧
    (filteredRec pf code r).losCnt = (losAfter pf code r).2 ∧ (filteredRec pf code r).monLost = false := by
  obtain ⟨v, sp, n, hf⟩ := stageFilter_eq pf (litRec pf code r)
  unfold filteredRec
  cases r.los <;> cases (losAfter pf code r).1 <;> simp only [Bool.false_eq_true, if_true, if_false, hf] <;>
    exact ⟨rfl, rfl, rfl, rfl, rfl, rfl, rfl⟩

theorem filteredRec_calm (h : r.los = true ∨ (losAfter pf code r).1 = false) : (filteredRec pf code r).cal = r.cal ∧
    (filteredRec pf code r).fail = r.fail ∧ (filteredRec pf code r).failCnt = r.failCnt ∧
    (filteredRec pf code r).degrade = r.degrade ∧ (filteredRec pf code r).degCnt = r.degCnt := by
  obtain ⟨v, sp, n, hf⟩ := stageFilter_eq pf (litRec pf code r)
  unfold filteredRec
  cases hold : r.los <;> cases hnew : (losAfter pf code r).1 <;> simp only [Bool.false_eq_true, if_true, if_false, hf]
  case false.true => rw [hold, hnew] at h; simp at h
  all_goals exact ⟨rfl, rfl, rfl, rfl, rfl⟩

end

/-! ### R3 to R8 -/

theorem rawPower_bounds (code : BitVec 12) : 2 * (rawPower code + 5000) ≤ 3 * min code.toNat 4000 ∧
    (3 * min code.toNat 4000 : Int) < 2 * (rawPower code + 5000) + 2 := by
  unfold rawPower
  omega

/-- The last two stages leave the filter's result. -/
theorem portValid_filter (pf : Profile) (card : CardState) (held : Bool) (code : BitVec 12) (r : PortRec) :
    let q := (portValid pf card held code r).1
    q.smoothed = (filteredRec pf code r).smoothed ∧ q.spike = (filteredRec pf code r).spike ∧
    q.spikes = (filteredRec pf code r).spikes := by
  obtain ⟨b, f, n, g, m, k, c, h⟩ := finishedRec_eq pf card held (filteredRec pf code r)
  rw [portValid_rec, h]
  exact ⟨rfl, rfl, rfl⟩

section
variable (pf : Profile) (card : CardState) (held : Bool) (code : BitVec 12) {r : PortRec}

theorem filteredRec_declares (hold : r.los = false) (hnew : (losAfter pf code r).1 = true) : filteredRec pf code r =
    { litRec pf code r with fail := false, failCnt := 0, degrade := false, degCnt := 0, cal := none } := by
  simp only [filteredRec, hold, hnew, Bool.false_eq_true, if_true, if_false]

theorem filteredRec_dark (hold : r.los = true) (hnew : (losAfter pf code r).1 = true) :
    filteredRec pf code r = litRec pf code r := by simp only [filteredRec, hold, hnew, if_true]

theorem filteredRec_clears (hold : r.los = true) (hnew : (losAfter pf code r).1 = false) : filteredRec pf code r =
    { litRec pf code r with smoothed := some (rawPower code), spike := .clear } := by
  simp only [filteredRec, hold, hnew, Bool.false_eq_true, if_true, if_false]

theorem filteredRec_light (hold : r.los = false) (hnew : (losAfter pf code r).1 = false) :
    filteredRec pf code r = stageFilter pf (litRec pf code r) := by
  simp only [filteredRec, hold, hnew, Bool.false_eq_true, if_false]

/-- R6: a sample that leaves LOS declared tracks alone. -/
theorem portValid_dark (hnew : (losAfter pf code r).1 = true) :
    portValid pf card held code r = (stageTrack pf card held (filteredRec pf code r), losOutcome pf code r) := by
  have hlos : (filteredRec pf code r).los = true := (filteredRec_los pf code r).trans hnew
  have htrack : (stageTrack pf card held (filteredRec pf code r)).los = true := by
    obtain ⟨b, k, ht⟩ := stageTrack_eq pf card held (filteredRec pf code r)
    rw [ht, hlos]
  rw [portValid_eq, finishedRec_los pf card held hlos, stageCollect_los htrack]
  simp

end

/-- Settles O5: LOS decides which of the stages that follow take the sample. -/
theorem lossOfLightAndDeficits : Obligations.LossOfLightAndDeficits := by
  refine ⟨fun pf card held code r => ?_, fun pf card held code r => ?_⟩
  · have hlos := portValid_los pf card held code r
    have hfilter := portValid_filter pf card held code r
    have hconvert : let q := (portValid pf card held code r).1
        q.power = rawPower code ∧ q.overRange = overRange code ∧ q.losCnt = (losAfter pf code r).2 ∧
        (q.overload, q.ovlCnt) = confirm r.overload r.ovlCnt pf.losN (overRange code) (!overRange code) := by
      obtain ⟨b, f, n, g, m, k, c, hq⟩ := finishedRec_eq pf card held (filteredRec pf code r)
      obtain ⟨_, _, hpower, hover, hovl, hcnt, _⟩ := filteredRec_kept pf code r
      rw [portValid_rec, hq]
      exact ⟨hpower, hover, hcnt, hovl⟩
    obtain ⟨hpower, hover, hcnt, hovl⟩ := hconvert
    obtain ⟨hsm, hsp, hn⟩ := hfilter
    have hlow : (!overRange code) = decide (code.toNat ≤ 4000) := by
      simp only [overRange, ← decide_not, not_lt]
    obtain ⟨hmin, hmax⟩ := rawPower_bounds code
    refine ⟨hpower, hpower ▸ hmin, hpower ▸ hmax, hover, hovl.trans (by rw [hlow]; rfl), Prod.ext hlos hcnt,
      fun hold hnew => ?_, fun hold hnew => ?_, fun hold hnew => ?_⟩ <;> rw [hlos] at hnew
    · have hf := filteredRec_declares pf code hold hnew
      obtain ⟨b, k, ht⟩ := stageTrack_eq pf card held (filteredRec pf code r)
      rw [portValid_dark pf card held code hnew, ht, hf]
      exact ⟨rfl, rfl, rfl, rfl, rfl, rfl, rfl, rfl, by simp [losOutcome, hold, hnew]⟩
    · have hf := filteredRec_dark pf code hold hnew
      obtain ⟨b, k, ht⟩ := stageTrack_eq pf card held (filteredRec pf code r)
      rw [portValid_dark pf card held code hnew, ht, hf]
      exact ⟨rfl, rfl, rfl, rfl, rfl, rfl, rfl⟩
    · rw [hsm, hsp, hn, filteredRec_clears pf code hold hnew]
      exact ⟨rfl, rfl, rfl⟩
  · intro q hcal hlos
    have hnew : (losAfter pf code r).1 = false := (portValid_los pf card held code r).symm.trans hlos
    obtain ⟨hfcal, hfail, hfcnt, hdeg, hdcnt⟩ := filteredRec_calm pf code r (.inr hnew)
    have hq : q = stageDeficit pf (stageTrack pf card held (filteredRec pf code r)) :=
      (portValid_rec pf card held code r).trans (finishedRec_idle pf card held (hfcal.trans hcal))
    obtain ⟨b, k, ht⟩ := stageTrack_eq pf card held (filteredRec pf code r)
    have htlos : (stageTrack pf card held (filteredRec pf code r)).los = false := by
      rw [ht]; exact (filteredRec_los pf code r).trans hnew
    obtain ⟨f, n, g, m, hd⟩ := stageDeficit_eq pf (stageTrack pf card held (filteredRec pf code r))
    have hkept : q.baseline = (stageTrack pf card held (filteredRec pf code r)).baseline ∧
        q.smoothed = (stageTrack pf card held (filteredRec pf code r)).smoothed := by
      rw [hq, hd]
      exact ⟨rfl, rfl⟩
    have hruns : (stageTrack pf card held (filteredRec pf code r)).fail = r.fail ∧
        (stageTrack pf card held (filteredRec pf code r)).failCnt = r.failCnt ∧
        (stageTrack pf card held (filteredRec pf code r)).degrade = r.degrade ∧
        (stageTrack pf card held (filteredRec pf code r)).degCnt = r.degCnt := by
      rw [ht]
      exact ⟨hfail, hfcnt, hdeg, hdcnt⟩
    obtain ⟨h1, h2, h3, h4⟩ := hruns
    refine ⟨fun b v hb hv => ?_, fun hb => ?_⟩
    · rw [hkept.1] at hb
      rw [hkept.2] at hv
      rw [hq, stageDeficit_takes pf htlos hb hv, ← h1, ← h2, ← h3, ← h4]
      exact ⟨rfl, rfl⟩
    · rw [hkept.1] at hb
      rw [hq, stageDeficit_noBaseline pf hb]
      exact ⟨h1, h2, h3, h4⟩

/-- Settles O6: what the filter does to the record that LOS has left. -/
theorem spikeHoldingAndSmoothing : Obligations.SpikeHoldingAndSmoothing := by
  intro pf card held code r q p hold hlos
  have hnew : (losAfter pf code r).1 = false := (portValid_los pf card held code r).symm.trans hlos
  obtain ⟨hsm, hsp, hn⟩ := portValid_filter pf card held code r
  have hf := filteredRec_light pf code hold hnew
  have hlit : (litRec pf code r).smoothed = r.smoothed ∧ (litRec pf code r).spike = r.spike ∧
      (litRec pf code r).spikes = r.spikes ∧ (litRec pf code r).power = p := ⟨rfl, rfl, rfl, rfl⟩
  obtain ⟨hls, hlp, hln, hpow⟩ := hlit
  simp only [q, hsm, hsp, hn, hf]
  generalize litRec pf code r = l at *
  refine ⟨fun hnone => ?_, fun v hv => ?_⟩
  · rw [hnone] at hls
    simp only [stageFilter, stageSmooth, hls, hpow, hln, and_self]
  · rw [hv] at hls
    have hsign : (if 0 < l.power - v then Spike.rising else .falling) = if v < p then .rising else .falling := by
      simp only [hpow, Int.sub_pos]
    generalize (if v < p then Spike.rising else .falling) = sign at hsign ⊢
    refine ⟨fun hlim hgap hne => ?_, fun hlim hgap heq => ?_, fun hsmall => ?_⟩
    · have hheld : stageFilter pf l = { l with spike := sign, spikes := count16 l.spikes } := by
        simp only [stageFilter, hls, hsign]
        rw [if_pos ⟨hlim, hpow ▸ hgap⟩, if_neg (hlp ▸ hne)]
      rw [hheld]
      exact ⟨hls, rfl, by simp only [hln]; rfl⟩
    · have hheld : stageFilter pf l = { l with smoothed := some l.power, spike := .clear } := by
        simp only [stageFilter, hls, hsign]
        rw [if_pos ⟨hlim, hpow ▸ hgap⟩, if_pos (hlp.trans heq)]
      rw [hheld]
      exact ⟨congrArg some hpow, rfl, hln⟩
    · have hmoved : stageFilter pf l = { l with
          smoothed := some (v + truncAtLeastOne ((l.power - v) * pf.alpha) 16), spike := .clear } := by
        simp only [stageFilter, hls]
        rw [if_neg fun h => ?_]
        · simp only [stageSmooth]
        · obtain ⟨hlim, hgap⟩ := h
          rw [hpow] at hgap
          obtain h0 | h0 := hsmall
          · exact hlim h0
          · omega
      rw [hmoved, hpow]
      exact ⟨rfl, rfl, hln⟩

/-- R14: the mean a full calibration sets leaves the deficit stage's fields alone. -/
theorem stageDeficit_kept (pf : Profile) (r : PortRec) : (stageDeficit pf r).baseline = r.baseline ∧
    (stageDeficit pf r).track = r.track ∧ (stageDeficit pf r).smoothed = r.smoothed ∧ (stageDeficit pf r).cal = r.cal ∧
    (stageDeficit pf r).los = r.los := by
  obtain ⟨f, n, g, m, hd⟩ := stageDeficit_eq pf r
  rw [hd]
  exact ⟨rfl, rfl, rfl, rfl, rfl⟩

/-- R11: a sample that does not fill the tracking counter. -/
theorem stageTrack_counts (pf : Profile) (card : CardState) (held : Bool) {r : PortRec} (h : r.track + 1 < 2 ^ pf.k) :
    stageTrack pf card held r = { r with track := r.track + 1 } := by
  unfold stageTrack
  rw [if_neg (by omega)]

/-- R12: a tracking point with B and S. -/
theorem stageTrack_moves (pf : Profile) (card : CardState) (held : Bool) {r : PortRec} (h : 2 ^ pf.k ≤ r.track + 1)
    {b v : Int} (hb : r.baseline = some b) (hv : r.smoothed = some v) : stageTrack pf card held r =
      { r with track := 0, baseline :=
          if 0 < pf.beta ∧ portStateOf card r = .clear ∧ held = false ∧ r.cal = none ∧ ((v - b).natAbs : Int) < pf.degThr then
            some (b + truncAtLeastOne ((v - b) * pf.beta) 64)
          else some b } := by
  unfold stageTrack
  rw [if_pos h]
  simp only [hb, hv]
  split
  · rfl
  · rw [← hb]

theorem stageTrack_still (pf : Profile) (card : CardState) (held : Bool) {r : PortRec} (h : 2 ^ pf.k ≤ r.track + 1)
    (hno : r.baseline = none ∨ r.smoothed = none) : stageTrack pf card held r = { r with track := 0 } := by
  unfold stageTrack
  rw [if_pos h]
  simp only
  split
  · next hb hv =>
    rw [hb, hv] at hno
    simp at hno
  · rfl

/-- R12, R14: tracking leaves the baseline of a collecting port. -/
theorem stageTrack_collecting (pf : Profile) (card : CardState) (held : Bool) {r : PortRec} {c : CalRec}
    (h : r.cal = some c) : (stageTrack pf card held r).baseline = r.baseline := by
  unfold stageTrack
  split
  · simp only
    split
    · rw [if_neg (by rw [h]; simp)]
    · rfl
  · rfl

theorem portStateOf_clear (card : CardState) {r : PortRec} (hmon : r.monLost = false) :
    portStateOf card r = .clear ↔ card ≠ .out ∧ card ≠ .faulty ∧ r.los = false ∧ r.fail = false ∧ r.degrade = false := by
  unfold portStateOf
  cases card <;> cases r.los <;> cases r.fail <;> cases r.degrade <;> simp [hmon]

/-- Settles O7: tracking reads the record that the filter has left, collection the one that tracking has. -/
theorem theBaselineTracksAndIsCalibrated : Obligations.TheBaselineTracksAndIsCalibrated := by
  refine ⟨fun pf card held code r => ?_, fun pf card held code r c v => ?_⟩
  · intro q hcal
    have hfcal : (filteredRec pf code r).cal = none := by
      by_cases h : r.los = true ∨ (losAfter pf code r).1 = false
      · exact (filteredRec_calm pf code r h).1.trans hcal
      · rw [not_or, Bool.not_eq_true, Bool.not_eq_false] at h
        rw [filteredRec_declares pf code h.1 h.2]
    have hq : q = stageDeficit pf (stageTrack pf card held (filteredRec pf code r)) :=
      (portValid_rec pf card held code r).trans (finishedRec_idle pf card held hfcal)
    obtain ⟨hdb, hdt, hds, _, hdl⟩ := stageDeficit_kept pf (stageTrack pf card held (filteredRec pf code r))
    obtain ⟨hbase, htrack, _, _, _, _, hmon⟩ := filteredRec_kept pf code r
    have hsm : q.smoothed = (filteredRec pf code r).smoothed := (portValid_filter pf card held code r).1
    have hlos : q.los = (filteredRec pf code r).los :=
      (portValid_los pf card held code r).trans (filteredRec_los pf code r).symm
    rw [← hq] at hdb hdt
    refine ⟨fun hk => ?_, fun hk => ⟨?_, fun hb => ?_, fun hv => ?_, fun b v hb hv => ?_⟩⟩
    · rw [hdb, hdt, stageTrack_counts pf card held (by rw [htrack]; exact hk)]
      exact ⟨congrArg (· + 1) htrack, hbase⟩
    · rw [hdt]
      unfold stageTrack
      rw [if_pos (by rw [htrack]; exact hk)]
      simp only
      split
      · split <;> rfl
      · rfl
    · rw [hdb, stageTrack_still pf card held (by rw [htrack]; exact hk) (.inl (hbase.trans hb))]
      exact hbase.trans hb
    · rw [hdb, stageTrack_still pf card held (by rw [htrack]; exact hk) (.inr (hsm.symm.trans hv))]
      exact hbase
    · rw [hdb, stageTrack_moves pf card held (by rw [htrack]; exact hk) (hbase.trans hb) (hsm.symm.trans hv)]
      have hfails : (filteredRec pf code r).los = false → (filteredRec pf code r).fail = r.fail ∧
          (filteredRec pf code r).degrade = r.degrade := fun h => by
        obtain ⟨_, hf, _, hd, _⟩ := filteredRec_calm pf code r (.inr ((filteredRec_los pf code r).symm.trans h))
        exact ⟨hf, hd⟩
      refine if_congr ?_ rfl rfl
      rw [portStateOf_clear card hmon, hlos]
      constructor
      · rintro ⟨h1, ⟨h2, h3, h4, h5, h6⟩, h7, _, h8⟩
        obtain ⟨hf, hd⟩ := hfails h4
        exact ⟨h1, h2, h3, h4, hf ▸ h5, hd ▸ h6, h7, h8⟩
      · rintro ⟨h1, h2, h3, h4, h5, h6, h7, h8⟩
        obtain ⟨hf, hd⟩ := hfails h4
        exact ⟨h1, ⟨h2, h3, h4, hf.trans h5, hd.trans h6⟩, h7, hfcal, h8⟩
  · intro x hcal hlos hv
    have hnew : (losAfter pf code r).1 = false := (portValid_los pf card held code r).symm.trans hlos
    have hfcal := (filteredRec_calm pf code r (.inr hnew)).1.trans hcal
    have hfv : (filteredRec pf code r).smoothed = some v := (portValid_filter pf card held code r).1.symm.trans hv
    have hbase := (stageTrack_collecting pf card held hfcal).trans (filteredRec_kept pf code r).1
    obtain ⟨b, k, ht⟩ := stageTrack_eq pf card held (filteredRec pf code r)
    have htrack : (stageTrack pf card held (filteredRec pf code r)).cal = some c ∧
        (stageTrack pf card held (filteredRec pf code r)).smoothed = some v ∧
        (stageTrack pf card held (filteredRec pf code r)).los = false := by
      rw [ht]
      exact ⟨hfcal, hfv, (filteredRec_los pf code r).trans hnew⟩
    obtain ⟨htcal, htv, htlos⟩ := htrack
    have hout : losOutcome pf code r = none := by simp [losOutcome, hnew]
    have hx : x = (finishedRec pf card held (filteredRec pf code r),
        (stageCollect (stageTrack pf card held (filteredRec pf code r))).2) := by
      rw [show x = portValid pf card held code r from rfl, portValid_eq, hout]
      rfl
    rw [hx]
    simp only [finishedRec]
    generalize stageTrack pf card held (filteredRec pf code r) = q at *
    obtain ⟨hdb, hdt, _, hdc, _⟩ := stageDeficit_kept pf (stageCollect q).1
    rw [hdb, hdt, hdc]
    refine ⟨fun hfew => ?_, fun hfull => ?_⟩
    · have hcollect : stageCollect q = ({ q with cal := some { c with count := c.count + 1, sum := c.sum + v } }, none) := by
        simp only [stageCollect, htcal, htv, htlos, Bool.false_eq_true, if_false]
        rw [if_neg (by omega)]
      rw [hcollect]
      exact ⟨rfl, hbase, rfl⟩
    · have hcollect : stageCollect q = ({ q with
          baseline := some (roundNearest (c.sum + v) 64), failCnt := 0, degCnt := 0, track := 0, cal := none },
            some .calibrated) := by
        simp only [stageCollect, htcal, htv, htlos, Bool.false_eq_true, if_false]
        rw [if_pos hfull]
      rw [hcollect]
      exact ⟨rfl, rfl, rfl, rfl⟩

end Sys2Proof.Proofs
end

