-- ==== Sys2Proof/Proofs/TagFrames.lean ====
section
/-! Tag frames (R24, R25, R36 to R38): the bits of a frame read back as its fields, and the frame a port latches. -/

namespace Sys2Proof.Proofs

open Sys2Proof.Machine Sys2Proof.Safety Sys2Proof.Laws

/-! ### Bits of a frame -/

/-- A piece above the low part of a pair. -/
theorem extract_high {v w : Nat} (hi : BitVec v) (lo : BitVec w) {start len : Nat} (h : w ≤ start) :
    (hi ++ lo).extractLsb' start len = hi.extractLsb' (start - w) len := BitVec.extractLsb'_append_eq_of_le h

/-- A piece inside the low part of a pair. -/
theorem extract_low {v w : Nat} (hi : BitVec v) (lo : BitVec w) {start len : Nat} (h : start + len ≤ w) :
    (hi ++ lo).extractLsb' start len = lo.extractLsb' start len := BitVec.extractLsb'_append_eq_of_add_le h

/-- The low part of a pair. -/
theorem extract_all {v w : Nat} (hi : BitVec v) (lo : BitVec w) : (hi ++ lo).extractLsb' 0 w = lo :=
  BitVec.extractLsb'_append_eq_right

theorem extract_self {w : Nat} (x : BitVec w) : x.extractLsb' 0 w = x := BitVec.extractLsb'_eq_self

/-- A piece of the body in the frame. -/
theorem frameBits_body (f : TagFrame) {start len : Nat} (h : 8 ≤ start) (h' : start - 8 + len ≤ 40) :
    (frameBits f).extractLsb' start len = (bodyOf f).extractLsb' (start - 8) len := by
  unfold frameBits
  rw [extract_high _ _ h, extract_low _ _ h']

/-- The sync pattern of the frame. -/
theorem frameBits_sync (f : TagFrame) : (frameBits f).extractLsb' 48 8 = syncPattern := by
  unfold frameBits
  rw [extract_high _ _ (by decide), extract_high _ _ (by decide)]
  exact extract_self _

/-- The check byte of the frame. -/
theorem frameBits_check (f : TagFrame) : (frameBits f).extractLsb' 0 8 = checkOf (bodyOf f) := extract_all _ _

/-- R25: body bytes and check byte sum to 255. -/
theorem checkRight_frameBits (f : TagFrame) : checkRight (frameBits f) = true := by
  have hsum : ∀ sum : Byte, sum + (255 - sum) = 255 := fun sum => by bv_omega
  unfold checkRight
  rw [frameBits_check, frameBits_body f (by decide) (by decide), frameBits_body f (by decide) (by decide),
    frameBits_body f (by decide) (by decide), frameBits_body f (by decide) (by decide),
    frameBits_body f (by decide) (by decide), beq_iff_eq]
  exact hsum _

theorem frameBits_valid (f : TagFrame) : frameValid (frameBits f) = true := by
  simp only [frameValid, frameBits_sync, checkRight_frameBits, BEq.rfl, Bool.and_self]

/-- R24: the fields read back, each from its place in the body. -/
theorem frameOf_frameBits (f : TagFrame) : frameOf (frameBits f) = f := by
  have hfield : ∀ start len : Nat, 8 ≤ start → start - 8 + len ≤ 40 →
      (frameBits f).extractLsb' start len = (bodyOf f).extractLsb' (start - 8) len := fun _ _ => frameBits_body f
  have hshelf : (bodyOf f).extractLsb' 24 16 = f.shelf := by
    unfold bodyOf
    simp (disch := decide) only [extract_high, extract_self, Nat.reduceSub]
  have hport : (bodyOf f).extractLsb' 18 6 = f.port := by
    unfold bodyOf
    simp (disch := decide) only [extract_high, extract_low, extract_self, Nat.reduceSub]
  have hcls : (bodyOf f).extractLsb' 14 4 = f.cls := by
    unfold bodyOf
    simp (disch := decide) only [extract_high, extract_low, extract_self, Nat.reduceSub]
  have hkind : (bodyOf f).extractLsb' 10 2 = f.kind := by
    unfold bodyOf
    simp (disch := decide) only [extract_high, extract_low, extract_self, Nat.reduceSub]
  have hrequest : (bodyOf f).extractLsb' 6 4 = f.request := by
    unfold bodyOf
    simp (disch := decide) only [extract_high, extract_low, extract_self, Nat.reduceSub]
  have hmember : (bodyOf f).extractLsb' 3 3 = f.member := by
    unfold bodyOf
    simp (disch := decide) only [extract_high, extract_low, extract_self, Nat.reduceSub]
  have hbridged : (bodyOf f).extractLsb' 0 3 = f.bridged := by
    unfold bodyOf
    simp (disch := decide) only [extract_low, extract_self]
  have hlos : (frameBits f).getLsbD 21 = f.feLos := by
    simp only [frameBits, bodyOf, BitVec.getLsbD_append, Nat.reduceSub, Nat.reduceLT, if_true,
      if_false, BitVec.getLsbD_ofBool, decide_true, Bool.true_and]
    rfl
  have htest : (frameBits f).getLsbD 20 = f.test := by
    simp only [frameBits, bodyOf, BitVec.getLsbD_append, Nat.reduceSub, Nat.reduceLT, if_true,
      if_false, BitVec.getLsbD_ofBool, decide_true, Bool.true_and]
    rfl
  simp only [frameOf, hfield, Nat.reduceSub, Nat.reduceLeDiff, Nat.reduceAdd, hshelf, hport, hcls, hkind, hrequest, hmember,
    hbridged, hlos, htest]

/-! ### What a port latches -/

/-- R38: whether a group's switch fields go out on a port. -/
def Protects (p : Port) (g : Group) : Prop := g.prot = p ∧ g.kind ≠ .uni

theorem switchFieldsOf_some {prc : Prc} {p : Port} {gi : GroupIx} {g : Group} (hg : prc.groups[gi] = some g)
    (hp : Protects p g) (hone : ∀ (j : GroupIx) h, prc.groups[j] = some h → Protects p h → j = gi) :
    switchFieldsOf prc p = some g.sent := by
  cases hfound : switchFieldsOf prc p with
  | none =>
    have hno := List.findSome?_eq_none_iff.1 hfound gi (List.mem_finRange gi)
    simp only [hg] at hno
    exact absurd (hno.symm.trans (if_pos hp)) nofun
  | some x =>
    obtain ⟨j, _, hj⟩ := List.exists_of_findSome?_eq_some hfound
    cases hgj : prc.groups[j] with
    | none => simp only [hgj] at hj; cases hj
    | some h =>
      simp only [hgj] at hj
      split at hj
      · next hp' =>
        obtain rfl := hone j h hgj hp'
        rw [hg] at hgj
        cases hgj
        exact hj.symm
      · cases hj

theorem switchFieldsOf_none {prc : Prc} {p : Port} (h : ∀ (gi : GroupIx) g, prc.groups[gi] = some g → ¬Protects p g) :
    switchFieldsOf prc p = none := by
  refine List.findSome?_eq_none_iff.2 fun gi _ => ?_
  cases hg : prc.groups[gi] with
  | none => rfl
  | some g => exact if_neg (h gi g hg)

theorem ofNat_toNat {w n : Nat} (h : n < 2 ^ w) : (BitVec.ofNat w n).toNat = n := by
  rw [BitVec.toNat_ofNat, Nat.mod_eq_of_lt h]

/-- Settles O11: a latched frame is the frame of the fields that R37 and R38 name. -/
theorem everyTagFrameReadsBack : Obligations.EveryTagFrameReadsBack := by
  refine ⟨fun f => ⟨frameBits_valid f, frameOf_frameBits f⟩, fun s p => ⟨fun hpop => ?_, fun hpop => ?_⟩⟩
  · simp only [latchFrame, hpop, Bool.false_eq_true, if_false]
  · have hlatch : latchFrame s p = frameBits (latchFields s p) := by simp only [latchFrame, hpop, if_true]
    rw [hlatch]
    intro f protects
    have hf : f = latchFields s p := frameOf_frameBits _
    rw [hf]
    refine ⟨frameBits_valid _, ofNat_toNat (by omega), rfl, fun hseven => ?_, fun hload hline huse hcls => ?_, rfl, rfl,
      fun gi g hg hp hone => ?_, fun hnone => ?_⟩
    · have hclass : sentClass s p = 7 := by
        unfold sentClass
        obtain h | h | h := hseven
        · rw [if_pos (by rw [h]; rfl)]
        · rw [if_pos h, ite_self]
        · rw [if_pos (List.contains_iff_mem.2 h), ite_self, ite_self]
      simp only [latchFields, hclass]
      rfl
    · have hclass : sentClass s p = s.tsel.outClass := by
        unfold sentClass
        rw [if_neg (by rw [hload]; simp), if_neg (not_not.2 hline), if_neg (mt List.contains_iff_mem.1 huse)]
      simp only [latchFields, hclass]
      exact ofNat_toNat (by omega)
    · have hsw := switchFieldsOf_some hg hp hone
      simp only [latchFields, hsw, Option.isSome_some, if_true, Option.map_some, Option.getD_some]
      exact ⟨trivial, fun h => ofNat_toNat (by omega), fun h => ofNat_toNat (by omega), fun h => ofNat_toNat (by omega)⟩
    · have hsw := switchFieldsOf_none hnone
      simp only [latchFields, hsw]
      exact ⟨rfl, rfl, rfl, rfl⟩

end Sys2Proof.Proofs
end

