-- ==== Sys2Proof/Proofs/Decoder.lean ====
section
/-! The decoder (R26 to R35): what a run of bits collects, what a found frame makes of the record, what a sample at TCD hands
on. -/

namespace Sys2Proof.Proofs

open Sys2Proof.Machine Sys2Proof.Safety Sys2Proof.Laws

/-! ### Bits collected (R26) -/

/-- A bit at the newest end. -/
def pushBit (x : BitVec 56) (b : Bool) : BitVec 56 := (x <<< 1) ||| (BitVec.ofBool b).setWidth 56

theorem collectBit_eq (d : Decoder) (b : Bool) : collectBit d b =
    { d with bits := pushBit d.bits b, count := min 56 (d.count + 1), nextEnd := d.nextEnd.map (· - 1) } := rfl

theorem pushBit_getLsbD (x : BitVec 56) (b : Bool) (i : Nat) :
    (pushBit x b).getLsbD i = if i = 0 then b else decide (i < 56) && x.getLsbD (i - 1) := by
  simp only [pushBit, BitVec.getLsbD_or, BitVec.getLsbD_shiftLeft, BitVec.getLsbD_setWidth, BitVec.getLsbD_ofBool]
  by_cases h : i = 0
  · subst h; simp
  · by_cases h56 : i < 56 <;> simp [h, h56]

theorem pushBit_eq (x : BitVec 56) (b : Bool) : pushBit x b = x.extractLsb' 0 55 ++ BitVec.ofBool b := by
  refine BitVec.eq_of_getLsbD_eq fun i hi => ?_
  rw [pushBit_getLsbD, BitVec.getLsbD_append, BitVec.getLsbD_ofBool, BitVec.getLsbD_extractLsb']
  by_cases h : i = 0
  · subst h; simp
  · have h1 : ¬i < 1 := by omega
    have h2 : i - 1 < 55 := by omega
    simp [h, h1, h2, hi]

/-- Bits joined one after the other, the last the newest. -/
def pushBits (x : BitVec 56) (bs : List Bool) : BitVec 56 := bs.foldl pushBit x

theorem pushBits_getLsbD (bs : List Bool) (x : BitVec 56) (i : Nat) (hi : i < 56) :
    (pushBits x bs).getLsbD i = if h : i < bs.length then bs[bs.length - 1 - i] else x.getLsbD (i - bs.length) := by
  induction bs using List.reverseRecOn generalizing i with
  | nil => simp [pushBits]
  | append_singleton bs b ih =>
    have hstep : pushBits x (bs ++ [b]) = pushBit (pushBits x bs) b := List.foldl_append
    rw [hstep, pushBit_getLsbD]
    by_cases h0 : i = 0
    · subst h0; simp
    · rw [if_neg h0, ih (i - 1) (by omega)]
      by_cases hlen : i - 1 < bs.length
      · have hlen' : i < bs.length + 1 := by omega
        have hidx : bs.length - i < bs.length := by omega
        simp only [hi, decide_true, Bool.true_and, hlen, dif_pos, List.length_append, List.length_singleton, hlen']
        rw [List.getElem_append_left (by omega)]
        congr 1
        omega
      · have hlen' : ¬i < bs.length + 1 := by omega
        simp only [hi, decide_true, Bool.true_and, hlen, dif_neg, not_false_eq_true, List.length_append,
          List.length_singleton, hlen']
        congr 1
        omega

/-- R24: 56 bits sent most significant first are the frame. -/
theorem pushBits_sent (x f : BitVec 56) : pushBits x ((List.range 56).map f.getMsbD) = f := by
  refine BitVec.eq_of_getLsbD_eq fun i hi => ?_
  rw [pushBits_getLsbD _ _ _ hi]
  have hlen : i < ((List.range 56).map f.getMsbD).length := by simpa using hi
  rw [dif_pos hlen]
  simp only [List.length_map, List.length_range, List.getElem_map, List.getElem_range, BitVec.getMsbD_eq_getLsbD]
  have hlt : 56 - 1 - i < 56 := by omega
  have hback : 56 - 1 - (56 - 1 - i) = i := by omega
  simp only [hlt, hback, decide_true, Bool.true_and]

/-! ### One sample (R26, R27, R31) -/

section
variable {d : Decoder} {bit : Bool}

theorem decoderSample_missed : decoderSample d bit false = lossPeriod { d with bits := 0, count := 0, nextEnd := none } := rfl

theorem decoderSample_los (h : d.los = true) : decoderSample d bit true = lossPeriod d := by
  simp only [decoderSample, h, Bool.not_true, Bool.false_eq_true, if_true, if_false]

theorem decoderSample_waits (h : d.los = false) (hno : testsNow (collectBit d bit) = false) :
    decoderSample d bit true = lossPeriod (collectBit d bit) := by
  simp only [decoderSample, h, hno, Bool.not_true, Bool.false_eq_true, if_false]

theorem decoderSample_finds (h : d.los = false) (htest : testsNow (collectBit d bit) = true)
    (hvalid : frameValid (collectBit d bit).bits = true) :
    decoderSample d bit true = frameFound (collectBit d bit) (frameOf (collectBit d bit).bits) := by
  simp only [decoderSample, h, htest, hvalid, Bool.not_true, Bool.false_eq_true, if_true, if_false]

theorem decoderSample_misses (h : d.los = false) (htest : testsNow (collectBit d bit) = true)
    (hvalid : frameValid (collectBit d bit).bits = false) :
    decoderSample d bit true = lossPeriod { collectBit d bit with nextEnd := none } := by
  simp only [decoderSample, h, htest, hvalid, Bool.not_true, Bool.false_eq_true, if_true, if_false]

/-- R31: below the 168th period, and in HUNT, the counter alone moves. -/
theorem lossPeriod_counts (h : d.st = .hunt ∨ d.loss < 167) : lossPeriod d = { d with loss := d.loss + 1 } := by
  simp only [lossPeriod]
  rw [if_neg]
  rintro ⟨hloss, hst⟩
  obtain h | h := h
  · exact hst h
  · omega

/-- R31: the 168th period. -/
theorem lossPeriod_loses (hst : d.st ≠ .hunt) (hloss : 167 ≤ d.loss) :
    lossPeriod d = { d with loss := d.loss + 1, st := .hunt, nextEnd := none } := by
  simp only [lossPeriod]
  exact if_pos ⟨by omega, hst⟩

/-- R31: what a period without a valid frame leaves. -/
theorem lossPeriod_eq (d : Decoder) : ∃ st n, lossPeriod d = { d with loss := d.loss + 1, st := st, nextEnd := n } := by
  simp only [lossPeriod]
  split <;> exact ⟨_, _, rfl⟩

end

/-! ### A run of bits before a test -/

/-- Whether a decoder tests nowhere among the next `n` bits, and is not lost meanwhile. -/
def Undisturbed (d : Decoder) (n : Nat) : Prop :=
  d.los = false ∧ (match d.nextEnd with | none => d.count + n < 56 | some k => n < k) ∧ (d.st = .hunt ∨ d.loss + n < 168)

theorem undisturbed_step {d : Decoder} {n : Nat} (h : Undisturbed d (n + 1)) (b : Bool) :
    decoderSample d b true =
      { d with bits := pushBit d.bits b, count := min 56 (d.count + 1), nextEnd := d.nextEnd.map (· - 1), loss := d.loss + 1 } ∧
    Undisturbed (decoderSample d b true) n := by
  obtain ⟨hlos, hnext, hloss⟩ := h
  have hno : testsNow (collectBit d b) = false := by
    rw [collectBit_eq]
    cases hn : d.nextEnd with
    | none =>
      rw [hn] at hnext
      simp only [testsNow, Option.map_none, decide_eq_false_iff_not]
      simp only at hnext
      omega
    | some k =>
      rw [hn] at hnext
      simp only [testsNow, Option.map_some, beq_eq_false_iff_ne]
      simp only at hnext
      omega
  have hstep : decoderSample d b true =
      { d with bits := pushBit d.bits b, count := min 56 (d.count + 1), nextEnd := d.nextEnd.map (· - 1), loss := d.loss + 1 } := by
    rw [decoderSample_waits hlos hno, collectBit_eq]
    exact lossPeriod_counts (hloss.imp id fun h => by simp only; omega)
  refine ⟨hstep, ?_⟩
  rw [hstep]
  refine ⟨hlos, ?_, hloss.imp id fun h => by simp only; omega⟩
  cases hn : d.nextEnd with
  | none => rw [hn] at hnext; simp only [Option.map_none] at hnext ⊢; omega
  | some k => rw [hn] at hnext; simp only [Option.map_some] at hnext ⊢; omega

theorem collect_run (bs : List Bool) {d : Decoder} (h : Undisturbed d bs.length) (hcount : d.count ≤ 56) :
    bs.foldl (fun d b => decoderSample d b true) d =
      { d with
        bits := pushBits d.bits bs, count := min 56 (d.count + bs.length), nextEnd := d.nextEnd.map (· - bs.length)
        loss := d.loss + bs.length } := by
  induction bs generalizing d with
  | nil =>
    have hmap : d.nextEnd.map (· - 0) = d.nextEnd := by cases d.nextEnd <;> rfl
    simp only [List.foldl_nil, pushBits, List.length_nil, Nat.add_zero, Nat.min_eq_right hcount, hmap]
  | cons b bs ih =>
    obtain ⟨hstep, hrest⟩ := undisturbed_step (n := bs.length) h b
    rw [List.foldl_cons, ih hrest (by rw [hstep]; exact Nat.min_le_left _ _), hstep]
    have hmap : (d.nextEnd.map (· - 1)).map (· - bs.length) = d.nextEnd.map (· - (bs.length + 1)) := by
      cases d.nextEnd with
      | none => rfl
      | some k => simp only [Option.map_some, Nat.sub_sub, Nat.add_comm]
    have hmin : min 56 (min 56 (d.count + 1) + bs.length) = min 56 (d.count + (bs.length + 1)) := by omega
    simp only [hmap, hmin, List.length_cons, Nat.add_assoc, Nat.add_comm 1 bs.length]
    rfl

/-- R27: the bits of a frame sent whole are found as the frame. -/
theorem frame_found {d : Decoder} (hlos : d.los = false) (hcount : d.count ≤ 56)
    (hends : match d.nextEnd with | none => d.count = 0 | some k => k = 56) (hloss : d.st = .hunt ∨ d.loss = 0)
    {f : BitVec 56} (hf : frameValid f = true) :
    ∃ n, ((List.range 56).map f.getMsbD).foldl (fun d b => decoderSample d b true) d =
      frameFound { d with bits := f, count := 56, nextEnd := n, loss := d.loss + 55 } (frameOf f) := by
  have hsplit : (List.range 56).map f.getMsbD = (List.range 55).map f.getMsbD ++ [f.getMsbD 55] := by
    rw [List.range_succ (n := 55), List.map_append]
    rfl
  have hlen : ((List.range 55).map f.getMsbD).length = 55 := by simp
  have hcalm : Undisturbed d ((List.range 55).map f.getMsbD).length := by
    rw [hlen]
    refine ⟨hlos, ?_, hloss.imp id fun h => by omega⟩
    cases hn : d.nextEnd with
    | none => rw [hn] at hends; simp only at hends ⊢; omega
    | some k => rw [hn] at hends; simp only at hends ⊢; omega
  have hbits : pushBit (pushBits d.bits ((List.range 55).map f.getMsbD)) (f.getMsbD 55) = f := by
    have hall := pushBits_sent d.bits f
    rw [hsplit] at hall
    exact (List.foldl_append (f := pushBit)).symm.trans hall
  have hmin : min 56 (min 56 (d.count + 55) + 1) = 56 := by omega
  have hcollect : ∃ n, collectBit { d with
        bits := pushBits d.bits ((List.range 55).map f.getMsbD), count := min 56 (d.count + 55)
        nextEnd := d.nextEnd.map (· - 55), loss := d.loss + 55 } (f.getMsbD 55) =
      { d with bits := f, count := 56, nextEnd := n, loss := d.loss + 55 } ∧ (n = none ∨ n = some 0) := by
    refine ⟨(d.nextEnd.map (· - 55)).map (· - 1), by simp only [collectBit_eq, hbits, hmin], ?_⟩
    cases hn : d.nextEnd with
    | none => exact .inl rfl
    | some k => rw [hn] at hends; obtain rfl := hends; exact .inr rfl
  obtain ⟨n, hcollect, hn⟩ := hcollect
  refine ⟨n, ?_⟩
  rw [hsplit, List.foldl_append, collect_run _ hcalm hcount, hlen, List.foldl_cons, List.foldl_nil]
  have htest : testsNow { d with bits := f, count := 56, nextEnd := n, loss := d.loss + 55 } = true := by
    obtain rfl | rfl := hn <;> rfl
  refine (decoderSample_finds ?_ ?_ ?_).trans ?_
  · exact hlos
  · rw [hcollect]; exact htest
  · rw [hcollect]; exact hf
  · rw [hcollect]

/-! ### A valid frame found (R28, R29) -/

section
variable {d : Decoder} {f g : TagFrame}

theorem frameFound_hunt (h : d.st = .hunt) :
    frameFound d f = { d with loss := 0, nextEnd := some 56, st := .candidate f } := by simp only [frameFound, h]

theorem frameFound_candidate_same (h : d.st = .candidate g) (hsame : g.shelf = f.shelf ∧ g.port = f.port) :
    frameFound d f = { d with
      loss := 0, nextEnd := some 56, st := .locked (tagOf none f).1 none, badSig := countUp d.badSig (tagOf none f).2 } := by
  simp only [frameFound, h, if_pos ((sameId_iff g f).2 hsame)]

theorem frameFound_candidate_other (h : d.st = .candidate g) (hother : ¬(g.shelf = f.shelf ∧ g.port = f.port)) :
    frameFound d f = { d with loss := 0, nextEnd := some 56, st := .candidate f } := by
  simp only [frameFound, h, if_neg (mt (sameId_iff g f).1 hother)]

/-- R29: the fields of a record that do not depend on the kind. -/
theorem tagOf_fields (before : Option Tag) (f : TagFrame) : (tagOf before f).1.shelf = f.shelf ∧
    (tagOf before f).1.port = f.port ∧ (tagOf before f).1.cls = f.cls ∧ (tagOf before f).1.feLos = f.feLos ∧
    (tagOf before f).1.test = f.test := by
  unfold tagOf
  simp only
  split
  · split
    · exact ⟨rfl, rfl, rfl, rfl, rfl⟩
    · split <;> exact ⟨rfl, rfl, rfl, rfl, rfl⟩
  · exact ⟨rfl, rfl, rfl, rfl, rfl⟩

end

/-- The switch fields of a record. -/
def switchOf (t : Tag) : Bool × BitVec 4 × BitVec 3 × BitVec 3 := (t.signalling, t.request, t.member, t.bridged)

theorem tagOf_otherKind (before : Option Tag) {f : TagFrame} (h : f.kind ≠ 1) :
    switchOf (tagOf before f).1 = (false, 0, 0, 0) ∧ (tagOf before f).2 = 0 := by
  simp only [tagOf, if_neg h, switchOf, and_self]

theorem tagOf_signals (before : Option Tag) {f : TagFrame} (h : f.kind = 1) (hr : f.request.toNat ≤ 11) :
    switchOf (tagOf before f).1 = (true, f.request, f.member, f.bridged) ∧ (tagOf before f).2 = 0 := by
  simp only [tagOf, if_pos h, if_pos hr, switchOf, and_self]

theorem tagOf_bad (before : Option Tag) {f : TagFrame} (h : f.kind = 1) (hr : 11 < f.request.toNat) :
    switchOf (tagOf before f).1 = (match before with | some b => switchOf b | none => (false, 0, 0, 0)) ∧
    (tagOf before f).2 = 1 := by
  have hr' : ¬f.request.toNat ≤ 11 := by omega
  cases before <;> simp only [tagOf, if_pos h, if_neg hr', switchOf, and_self]

/-- R29: the frame that locks, refreshes or changes the record. -/
theorem frameFound_locks {d : Decoder} {f : TagFrame} {before : Option Tag}
    (h : (∃ c, d.st = .candidate c ∧ c.shelf = f.shelf ∧ c.port = f.port ∧ before = none) ∨
      (∃ tag pending, d.st = .locked tag pending ∧ tag.shelf = f.shelf ∧ tag.port = f.port ∧ before = some tag) ∨
      ∃ tag g, d.st = .locked tag (some g) ∧ ¬(tag.shelf = f.shelf ∧ tag.port = f.port) ∧ g.shelf = f.shelf ∧
        g.port = f.port ∧ before = none) :
    (frameFound d f).st = .locked (tagOf before f).1 none ∧
    (frameFound d f).badSig = countUp d.badSig (tagOf before f).2 := by
  obtain ⟨c, hst, hs, hp, rfl⟩ | ⟨tag, pending, hst, hs, hp, rfl⟩ | ⟨tag, g, hst, hother, hs, hp, rfl⟩ := h
  · rw [frameFound_candidate_same hst ⟨hs, hp⟩]
    exact ⟨rfl, rfl⟩
  · rw [frameFound_locked_refresh hst ⟨hs, hp⟩]
    exact ⟨rfl, rfl⟩
  · rw [frameFound_locked_change hst hother ⟨hs, hp⟩]
    exact ⟨rfl, rfl⟩

theorem frameFound_moves (d : Decoder) (f : TagFrame) :
    (frameFound d f).loss = 0 ∧ (frameFound d f).nextEnd = some 56 ∧ (frameFound d f).los = d.los ∧
    (frameFound d f).bits = d.bits ∧ (frameFound d f).count = d.count ∧ (frameFound d f).st ≠ .hunt := by
  unfold frameFound
  simp only
  split
  · exact ⟨rfl, rfl, rfl, rfl, rfl, nofun⟩
  · split <;> exact ⟨rfl, rfl, rfl, rfl, rfl, nofun⟩
  · split
    · exact ⟨rfl, rfl, rfl, rfl, rfl, nofun⟩
    · split
      · exact ⟨rfl, rfl, rfl, rfl, rfl, nofun⟩
      · split <;> exact ⟨rfl, rfl, rfl, rfl, rfl, nofun⟩

/-! ### What a sample at TCD hands on (R34, R35) -/

theorem tcdPut_dec (t : Tcd) (p q : Port) (d : Decoder) : (tcdPut t p d).1.decs[q] = if q = p then d else t.decs[q] :=
  getElem_set_fin _ _ _ _

theorem felos_iff (x : Option Tag) : felos x = true ↔ ∃ t, x = some t ∧ t.feLos = true := by
  cases x <;> simp [felos]

theorem mem_toAlm_iff {m : Msg} {batch : List AlmChange} : m ∈ toAlm batch ↔ batch ≠ [] ∧ m = .alm batch := by
  unfold toAlm
  cases batch <;> simp

theorem tcdHandOn_records (p : Port) (old new : Decoder) :
    (old.tag = new.tag → .cbcTag p ∉ tcdHandOn p old new ∧ .prcTag p ∉ tcdHandOn p old new ∧ .tselTag p ∉ tcdHandOn p old new) ∧
    (old.tag ≠ new.tag → .cbcTag p ∈ tcdHandOn p old new ∧ .prcTag p ∈ tcdHandOn p old new ∧ .tselTag p ∈ tcdHandOn p old new) := by
  have halm : ∀ m : Msg, (∀ b, m ≠ .alm b) → m ∉ toAlm (flagChange .feLos p (felos old.tag) (felos new.tag)) := fun m hm h =>
    hm _ (mem_toAlm_iff.1 h).2
  unfold tcdHandOn
  constructor
  · intro h
    rw [if_pos h, List.nil_append]
    exact ⟨halm _ nofun, halm _ nofun, halm _ nofun⟩
  · intro h
    rw [if_neg h]
    simp

theorem tcdHandOn_alarms (p : Port) (old new : Decoder) (b : List AlmChange) : .alm b ∈ tcdHandOn p old new ↔
    b ≠ [] ∧ b = flagChange .feLos p (felos old.tag) (felos new.tag) := by
  unfold tcdHandOn
  rw [List.mem_append, mem_toAlm_iff]
  constructor
  · rintro (h | ⟨hne, h⟩)
    · split at h <;> simp at h
    · cases h
      exact ⟨hne, rfl⟩
  · rintro ⟨hne, rfl⟩
    exact .inr ⟨hne, rfl⟩

/-- Settles O12: a fresh decoder's two tests, one equation per way a frame is found, and the hand-on of a decoder's change. -/
theorem twoFramesLockAFreshDecoder : Obligations.TwoFramesLockAFreshDecoder := by
  refine ⟨fun f => ?_, fun d f => ⟨fun hst => ?_, fun c hst hother => ?_, fun before h => ?_⟩, fun s p bit valid => ?_⟩
  · have hvalid := frameBits_valid f
    have hfields := frameOf_frameBits f
    intro bits d sw
    obtain ⟨n, hfirst⟩ := frame_found (d := Decoder.reset) rfl (by decide) rfl (.inl rfl) hvalid
    rw [hfields, frameFound_hunt rfl] at hfirst
    have hd : d = bits.foldl (fun d b => decoderSample d b true) (bits.foldl (fun d b => decoderSample d b true) Decoder.reset) :=
      List.foldl_append
    obtain ⟨m, hsecond⟩ := frame_found (d := bits.foldl (fun d b => decoderSample d b true) Decoder.reset)
      (by rw [hfirst]; rfl) (by rw [hfirst]) (by rw [hfirst]) (by rw [hfirst]; exact .inr rfl) hvalid
    rw [← hd, hfields, hfirst, frameFound_candidate_same rfl ⟨rfl, rfl⟩] at hsecond
    rw [hsecond]
    refine ⟨congrArg some ?_, rfl, rfl, rfl, rfl⟩
    unfold tagOf
    by_cases hkind : f.kind = 1
    · by_cases hreq : f.request.toNat ≤ 11
      · have hsw : sw = true := decide_eq_true ⟨hkind, hreq⟩
        simp only [if_pos hkind, if_pos hreq, hsw, if_true]
      · have hsw : sw = false := decide_eq_false fun h => hreq h.2
        simp only [if_pos hkind, if_neg hreq, hsw, Bool.false_eq_true, if_false]
    · have hsw : sw = false := decide_eq_false fun h => hkind h.1
      simp only [if_neg hkind, hsw, Bool.false_eq_true, if_false]
  · rw [frameFound_hunt hst]
    exact ⟨rfl, rfl⟩
  · rw [frameFound_candidate_other hst hother]
    exact ⟨rfl, rfl⟩
  · intro switch
    obtain ⟨hst, hbad⟩ := frameFound_locks h
    obtain ⟨h1, h2, h3, h4, h5⟩ := tagOf_fields before f
    refine ⟨_, hst, h1, h2, h3, h4, h5, fun hk => ?_, fun hk hr => ?_, fun hk hr => ?_⟩
    · obtain ⟨hsw, hn⟩ := tagOf_otherKind before hk
      exact ⟨hsw, by rw [hbad, hn]; rfl⟩
    · obtain ⟨hsw, hn⟩ := tagOf_signals before hk hr
      exact ⟨hsw, by rw [hbad, hn]; rfl⟩
    · obtain ⟨hsw, hn⟩ := tagOf_bad before hk hr
      exact ⟨hsw.trans (by cases before <;> rfl), by rw [hbad, hn]; rfl⟩
  · intro r old new felos'
    have hdec : ∀ q, r.1.decs[q] = if q = p then decoderSample s.tcd.decs[p] bit valid else s.tcd.decs[q] := fun q =>
      tcdPut_dec _ _ _ _
    have hp : r.1.decs[p] = decoderSample s.tcd.decs[p] bit valid := (hdec p).trans (if_pos rfl)
    have hmsgs : r.2 = tcdHandOn p s.tcd.decs[p] r.1.decs[p] := by rw [hp]; rfl
    obtain ⟨hsame, hother⟩ := tcdHandOn_records p s.tcd.decs[p] r.1.decs[p]
    have hf : ∀ x, felos' x ↔ felos x = true := fun x => (felos_iff x).symm
    rw [hmsgs]
    refine ⟨hp, fun q hq => (hdec q).trans (if_neg hq), rfl, rfl, hsame, hother, fun ho hn => ?_, fun ho hn => ?_,
      fun hiff b hb => ?_⟩
    · rw [hf, Bool.not_eq_true] at ho
      rw [hf] at hn
      rw [tcdHandOn_alarms, ho, hn]
      exact ⟨nofun, rfl⟩
    · rw [hf] at ho
      rw [hf, Bool.not_eq_true] at hn
      rw [tcdHandOn_alarms, ho, hn]
      exact ⟨nofun, rfl⟩
    · rw [hf, hf] at hiff
      obtain ⟨hne, hb⟩ := (tcdHandOn_alarms _ _ _ _).1 hb
      have heq : felos old = felos new := Bool.eq_iff_iff.2 hiff
      rw [show s.tcd.decs[p].tag = old from rfl, show r.1.decs[p].tag = new from rfl, heq] at hb
      refine hne (hb.trans ?_)
      cases felos new <;> rfl

end Sys2Proof.Proofs
end

