-- ==== Sys2Proof/Proofs/SampleOrder.lean ====
section
/-! What a sample sets off, whichever order its readers take it in: the power part and the card flags at PMON, the bit
and the loss of light at TCD, and the blocks below them, which leave both alone (R1, R19, R31, R46). -/

namespace Sys2Proof.Proofs

open Sys2Proof.Machine Sys2Proof.Safety Sys2Proof.Laws

/-! ### One message of an event among the others -/

/-- A message with everything it sets off. -/
def taken (n : Nat) (m : Msg) (s : State) : State := settle n (deliver m s).2 (deliver m s).1

/-- Where one message of an event makes `R` of `P`, the others keeping either, the event makes `R` of `P`. -/
theorem settle_once {P R : State → Prop} {n : Nat} {m : Msg} {ms rest : List Msg} (hone : m.expand = [m])
    (hperm : ms.Perm (m :: rest)) (hchoice : ∀ t, P t → P { t with choices := t.choices + 1 })
    (hbefore : ∀ x ∈ rest.flatMap Msg.expand, ∀ t, P t → P (taken n x t))
    (hmakes : ∀ t, P t → R (taken n m t))
    (hafter : ∀ x ∈ rest.flatMap Msg.expand, ∀ t, R t → R (taken n x t)) {s : State} (h : P s) :
    R (settle (n + 1) ms s) := by
  have hfree : P (freely ms s).2 := by
    rcases freely_state ms s with hs | hs <;> rw [hs]
    · exact h
    · exact hchoice s h
  have horder : ((freely ms s).1.flatMap Msg.expand).Perm (m :: rest.flatMap Msg.expand) := by
    have := ((freely_perm ms s).trans hperm).flatMap_right Msg.expand
    rwa [List.flatMap_cons, hone, List.singleton_append] at this
  change R (((freely ms s).1.flatMap Msg.expand).foldl (fun t x => taken n x t) (freely ms s).2)
  generalize (freely ms s).1.flatMap Msg.expand = l at horder
  obtain ⟨a, b, rfl⟩ := List.append_of_mem (horder.mem_iff.2 List.mem_cons_self)
  have hrest : (a ++ b).Perm (rest.flatMap Msg.expand) := (List.perm_middle.symm.trans horder).cons_inv
  have hfold {Q : State → Prop} (hq : ∀ x ∈ rest.flatMap Msg.expand, ∀ t, Q t → Q (taken n x t)) (l : List Msg)
      (hl : ∀ x ∈ l, x ∈ a ++ b) (t : State) (ht : Q t) : Q (l.foldl (fun t x => taken n x t) t) := by
    induction l generalizing t with
    | nil => exact ht
    | cons x l ih =>
      exact ih (fun y hy => hl y (List.mem_cons_of_mem _ hy)) _ (hq x (hrest.mem_iff.1 (hl x List.mem_cons_self)) t ht)
  rw [List.foldl_append, List.foldl_cons]
  exact hfold hafter b (fun _ => List.mem_append_right _) _ (hmakes _ (hfold hbefore a (fun _ => List.mem_append_left _) _ hfree))

/-! ### The messages that leave PMON and the decoders -/

/-- A message below TCD that places no hold. -/
def Quiet (m : Msg) : Prop := m.rank < 8 ∧ ∀ ps, m ≠ .pmonHold ps true

theorem quiet_of_rank {m : Msg} (h : m.rank < 6) : Quiet m := by
  refine ⟨by omega, ?_⟩
  rintro ps rfl
  simp [Msg.rank] at h

theorem cbcEnd_quiet (w : CbcWork) : ∀ m ∈ (cbcEnd w).2, Quiet m := by
  intro m hm
  refine ⟨Nat.lt_trans (cbcEnd_below w m hm) (by omega), ?_⟩
  rintro ps rfl
  simp only [cbcEnd, handHolds, toAlm, toJrn, List.mem_append] at hm
  rcases hm with ((hm | hm) | hm) | hm
  all_goals
    split at hm <;> simp at hm

/-- What is handed on of a message below TCD places no hold. -/
theorem quiet_next {m : Msg} (h : Quiet m) (s : State) : ∀ x ∈ (deliver m s).2, Quiet x := by
  intro x hx
  by_cases hrank : m.rank ≤ 6
  · exact quiet_of_rank (Nat.lt_of_lt_of_le (deliver_below m s x hx) hrank)
  · have hseven : m.rank = 7 := by have := h.1; omega
    cases m <;> simp only [Msg.rank, reduceCtorEq, Nat.reduceEqDiff] at hseven
    all_goals exact cbcEnd_quiet _ x hx

theorem quiet_expand {m : Msg} (h : Quiet m) : ∀ x ∈ m.expand, Quiet x := by
  intro x hx
  cases m <;> simp only [Msg.expand, List.mem_singleton, List.mem_map] at hx
  case tselGroups => obtain ⟨_, _, rfl⟩ := hx; exact quiet_of_rank (by simp [Msg.rank])
  all_goals exact hx ▸ h

/-! ### What they keep -/

/-- A decoder but for its bad-signalling count, which PRC's reports move (R33). -/
def SameDec (d e : Decoder) : Prop := e = { d with badSig := e.badSig }

theorem SameDec.refl (d : Decoder) : SameDec d d := rfl

theorem SameDec.trans {d e f : Decoder} (h : SameDec d e) (k : SameDec e f) : SameDec d f := by
  unfold SameDec at *
  rw [k, h]

theorem tcdReport_same (s : State) (ps : List Port) : (tcdReport s ps).pos = s.tcd.pos ∧
    (tcdReport s ps).latched = s.tcd.latched ∧ ∀ q : Port, SameDec s.tcd.decs[q] (tcdReport s ps).decs[q] := by
  induction ps with
  | nil => exact ⟨rfl, rfl, fun _ => .refl _⟩
  | cons p ps ih =>
    obtain ⟨hpos, hlatched, hdecs⟩ := ih
    refine ⟨hpos, hlatched, fun q => (hdecs q).trans ?_⟩
    simp only [tcdReport, getElem_set_fin]
    split
    · next hq => subst hq; rfl
    · exact .refl _

/-- A port that no order holds stays so. -/
def StaysFree (c d : Cbc) : Prop := ∀ p : Port, c.ports[p].hold = none → d.ports[p].hold = none

theorem StaysFree.refl (c : Cbc) : StaysFree c c := fun _ h => h

theorem StaysFree.of_same {c d : Cbc} (h : ∀ p : Port, d.ports[p].hold = c.ports[p].hold) : StaysFree c d :=
  fun p hp => (h p).trans hp

theorem StaysFree.of_released {c d : Cbc} {P : Port → Prop} [DecidablePred P]
    (h : ∀ p : Port, d.ports[p].hold = if P p then none else c.ports[p].hold) : StaysFree c d := by
  intro p hp
  rw [h]
  split
  · rfl
  · exact hp

theorem reevaluate_hold (s : State) (w : CbcWork) (p q : Port) :
    (reevaluate s w p).cbc.ports[q].hold = w.cbc.ports[q].hold := by
  rw [reevaluate_port]
  split
  · next hq => rw [hq, judgedRec_hold]
  · rfl

theorem startTagWait_hold (s : State) (w : CbcWork) (p q : Port) :
    (startTagWait s w p).cbc.ports[q].hold = w.cbc.ports[q].hold := by
  rw [startTagWait_port]
  split
  · next hq => rw [hq]; rfl
  · rfl

theorem closeGood_free (s : State) (w : CbcWork) (i : OrderIx) (o : Order) :
    StaysFree w.cbc (closeGood s w i o).cbc := .of_released (releaseHolds_hold s w o.ports)

theorem judgeOrder_free_holds (s : State) (ports : List Port) (w : CbcWork) (i : OrderIx) :
    StaysFree w.cbc (judgeOrder s ports w i).cbc := by
  cases hi : w.cbc.orders[i] with
  | none => rw [judgeOrder_free hi]; exact .refl _
  | some o =>
    by_cases hsame : o.state ≠ .verifying ∨ judgedItems s ports o = o.items
    · rw [judgeOrder_stays hi hsame]; exact .refl _
    · obtain ⟨hst, hitems⟩ := not_or.1 hsame
      rw [judgeOrder_moves hi (not_not.1 hst) hitems]
      split
      · exact closeGood_free s w i _
      · exact .refl _

theorem enterVerifying_free (s : State) (w : CbcWork) (i : OrderIx) (o : Order) (why : Reason) :
    StaysFree w.cbc (enterVerifying s w i o why).cbc := by
  have hin : StaysFree w.cbc (putOrder (installItems s w o.items).1 i (verifyingOrder s w o why)).cbc :=
    .of_same (installItems_hold s w o.items)
  rw [enterVerifying_eq]
  split
  · exact fun p hp => closeGood_free s _ i _ p (hin p hp)
  · exact hin

section
variable (s : State)

/-- Work of CBC that places no hold. -/
def WorkFree (w : CbcWork) : Prop := StaysFree s.cbc w.cbc

theorem judged_free (ports : List Port) {w : CbcWork} (h : WorkFree s w) :
    WorkFree s (allOrders.foldl (judgeOrder s ports) w) :=
  foldl_keeps (P := WorkFree s) (fun w i hw p hp => judgeOrder_free_holds s ports w i p (hw p hp)) _ h

theorem cbcPort_free {w : CbcWork} (c : PortChange) (h : WorkFree s w) : WorkFree s (cbcPort s w c) := by
  intro p hp
  simp only [cbcPort, reevaluate_hold]
  split
  · rw [startTagWait_hold]; exact h p hp
  · exact h p hp

theorem cbcPorts_free (cs : List PortChange) : StaysFree s.cbc (cbcPorts s cs).1 := by
  have hports : WorkFree s (cs.foldl (cbcPort s) (cbcBegin s)) :=
    foldl_keeps (P := WorkFree s) (fun _ c hw => cbcPort_free s c hw) cs (StaysFree.refl _)
  simp only [cbcPorts, cbcEnd]
  exact judged_free s _ hports

theorem cbcTag_free (p : Port) : StaysFree s.cbc (cbcTag s p).1 := by
  simp only [cbcTag, cbcEnd]
  exact judged_free s [p] (StaysFree.of_same fun q => reevaluate_hold s (cbcBegin s) p q)

theorem cbcRole_free (p : Port) (old : Role) : StaysFree s.cbc (cbcRole s p old).1 := by
  simp only [cbcRole, cbcEnd]
  refine .of_same fun q => (reevaluate_hold s _ p q).trans ?_
  split
  · exact startTagWait_hold s (cbcBegin s) p q
  · rfl

theorem frameOrder_free (f : Nat) {w : CbcWork} (i : OrderIx) (h : WorkFree s w) : WorkFree s (frameOrder s f w i) := by
  unfold frameOrder
  split
  · exact h
  · split
    · exact fun p hp => enterVerifying_free s w i _ _ p (h p hp)
    · exact h

theorem cbcFrame_free (f : Nat) : StaysFree s.cbc (cbcFrame s f).1 := by
  simp only [cbcFrame, cbcEnd]
  have hbegin : WorkFree s (cbcBegin s) := StaysFree.refl _
  exact foldl_keeps (f := frameOrder s f) (P := WorkFree s) (fun _ i hw => frameOrder_free s f i hw) _ hbegin

/-- Every event of CBC that a message brings. -/
theorem deliver_cbc_free (m : Msg) : StaysFree s.cbc (deliver m s).1.cbc := by
  cases m with
  | cbcPorts cs => simp only [deliver, putCbc_cbc, cbcPorts_free]
  | cbcTag p => simp only [deliver, putCbc_cbc, cbcTag_free]
  | cbcRole p old => simp only [deliver, putCbc_cbc, cbcRole_free]
  | cbcFrame f => simp only [deliver, putCbc_cbc, cbcFrame_free]
  | _ => simp only [deliver, putSample_cbc, putPmon_cbc, putTcd_cbc, putPrc_cbc, putTsel_cbc, putTselFrom_cbc, putAlm_cbc,
      putJrn_cbc, StaysFree.refl]

end

/-- What a quiet message leaves: PMON, MBP, the decoders but for their bad-signalling counts, and every free port. -/
structure Calm (s t : State) : Prop where
  pmon    : t.pmon = s.pmon
  mbp     : t.mbp = s.mbp
  decs    : ∀ q : Port, SameDec s.tcd.decs[q] t.tcd.decs[q]
  pos     : t.tcd.pos = s.tcd.pos
  latched : t.tcd.latched = s.tcd.latched
  free    : StaysFree s.cbc t.cbc

theorem Calm.refl (s : State) : Calm s s := ⟨rfl, rfl, fun _ => .refl _, rfl, rfl, .refl _⟩

theorem Calm.trans {s t u : State} (h : Calm s t) (k : Calm t u) : Calm s u :=
  ⟨k.pmon.trans h.pmon, k.mbp.trans h.mbp, fun q => (h.decs q).trans (k.decs q), k.pos.trans h.pos,
    k.latched.trans h.latched, fun p hp => k.free p (h.free p hp)⟩

theorem quiet_pmon {m : Msg} (h : Quiet m) (s : State) : (deliver m s).1.pmon = s.pmon := by
  obtain ⟨hrank, hhold⟩ := h
  by_cases hlow : m.rank < 6
  · exact deliver_unchanged 6 m s hlow .pmon (by decide)
  · cases m with
    | pmonHold ps held =>
      cases held with
      | true => exact absurd rfl (hhold ps)
      | false => simp [deliver, pmonHold]
    | cbcPorts cs => simp only [deliver, putCbc_pmon]
    | cbcTag p => simp only [deliver, putCbc_pmon]
    | cbcRole p old => simp only [deliver, putCbc_pmon]
    | cbcFrame f => simp only [deliver, putCbc_pmon]
    | _ => simp [Msg.rank] at hrank hlow

theorem quiet_tcd {m : Msg} (h : Quiet m) (s : State) : (deliver m s).1.tcd.pos = s.tcd.pos ∧
    (deliver m s).1.tcd.latched = s.tcd.latched ∧ ∀ q : Port, SameDec s.tcd.decs[q] (deliver m s).1.tcd.decs[q] := by
  by_cases hreport : ∃ ps, m = .tcdReport ps
  · obtain ⟨ps, rfl⟩ := hreport
    simp only [deliver, putTcd_tcd]
    exact tcdReport_same s ps
  · have hsame : (deliver m s).1.tcd = s.tcd := by
      cases m with
      | tcdReport ps => exact absurd ⟨ps, rfl⟩ hreport
      | tcdBit p b v => exact absurd h.1 (by simp [Msg.rank])
      | tcdLos p b => exact absurd h.1 (by simp [Msg.rank])
      | _ => simp only [deliver, putSample_tcd, putPmon_tcd, putCbc_tcd, putPrc_tcd, putTsel_tcd, putTselFrom_tcd,
          putAlm_tcd, putJrn_tcd]
    rw [hsame]
    exact ⟨rfl, rfl, fun _ => .refl _⟩

theorem quiet_calm {m : Msg} (h : Quiet m) (s : State) : Calm s (deliver m s).1 := by
  obtain ⟨hpos, hlatched, hdecs⟩ := quiet_tcd h s
  exact ⟨quiet_pmon h s, deliver_unchanged 8 m s h.1 .mbp (by decide), hdecs, hpos, hlatched, deliver_cbc_free s m⟩

/-- Quiet messages with everything they set off. -/
theorem settle_calm (n : Nat) {ms : List Msg} (h : ∀ m ∈ ms, Quiet m) (s : State) : Calm s (settle n ms s) :=
  settle_rel (Q := Quiet) .refl (fun _ _ _ => .trans) (fun s => ⟨rfl, rfl, fun _ => .refl _, rfl, rfl, .refl _⟩)
    (fun _ hm => quiet_expand hm) (fun _ _ hm => quiet_next hm _) (fun _ s hm => quiet_calm hm s) n ms s h

theorem taken_calm (n : Nat) {m : Msg} (h : Quiet m) (s : State) : Calm s (taken n m s) :=
  (quiet_calm h s).trans (settle_calm n (quiet_next h s) _)

end Sys2Proof.Proofs
end

