-- ==== Sys2Proof/Proofs/SampleEvents.lean ====
section
/-! The three events of a sample at PMON and TCD, and the decoder a sample leaves (R1, R19, R31, R32). -/

namespace Sys2Proof.Proofs

open Sys2Proof.Machine Sys2Proof.Safety Sys2Proof.Laws

/-! ### PMON's own records (R1, R19, R20) -/

/-- R20: a port's record with its state formed again. -/
def formedRec (m : Pmon) (p : Port) (r : PortRec) : PortRec :=
  { r with handed := portStateOf m.cards[cardOf p].accepted r }

@[simp] theorem formedRec_los (m : Pmon) (p : Port) (r : PortRec) : (formedRec m p r).los = r.los := rfl

theorem portStateOf_handed (card : CardState) (r : PortRec) (st : PortState) :
    portStateOf card { r with handed := st } = portStateOf card r := rfl

section
variable (m : Pmon) (p : Port)

theorem reformPort_port (q : Port) :
    (reformPort m p).1.ports[q] = if q = p then formedRec m p m.ports[p] else m.ports[q] := by
  simp only [reformPort]
  split
  · next h =>
    split
    · next hq => subst hq; exact congrArg (fun st => { m.ports[q] with handed := st }) h.symm
    · rfl
  · exact getElem_set_fin _ _ _ _

@[simp] theorem reformPort_cards : (reformPort m p).1.cards = m.cards := by
  simp only [reformPort]
  split <;> rfl

@[simp] theorem reformPort_profiles : (reformPort m p).1.profiles = m.profiles := by
  simp only [reformPort]
  split <;> rfl

@[simp] theorem reformPort_outcomes : (reformPort m p).1.outcomes = m.outcomes := by
  simp only [reformPort]
  split <;> rfl

theorem reformPort_changes : (reformPort m p).2 =
    if portStateOf m.cards[cardOf p].accepted m.ports[p] = m.ports[p].handed then []
    else [⟨p, m.ports[p].handed, portStateOf m.cards[cardOf p].accepted m.ports[p]⟩] := by
  simp only [reformPort]
  split <;> rfl

end

theorem reformPorts_kept (ps : List Port) (m : Pmon) : (reformPorts ps m).1.cards = m.cards ∧
    (reformPorts ps m).1.profiles = m.profiles ∧ (reformPorts ps m).1.outcomes = m.outcomes := by
  induction ps generalizing m with
  | nil => exact ⟨rfl, rfl, rfl⟩
  | cons p ps ih => simpa [reformPorts] using ih (reformPort m p).1

theorem reformPorts_port (ps : List Port) (m : Pmon) (q : Port) :
    (reformPorts ps m).1.ports[q] = if q ∈ ps then formedRec m q m.ports[q] else m.ports[q] := by
  induction ps generalizing m with
  | nil => rfl
  | cons p ps ih =>
    refine (ih (reformPort m p).1).trans ?_
    have hformed (r : PortRec) : formedRec (reformPort m p).1 q r = formedRec m q r := by
      rw [formedRec, reformPort_cards, formedRec]
    rw [reformPort_port, hformed]
    by_cases hq : q = p
    · subst hq
      rw [if_pos rfl, if_pos List.mem_cons_self]
      split <;> rfl
    · rw [if_neg hq]
      simp only [List.mem_cons, hq, false_or]

theorem cardPorts_kept (old new : CardState) (ps : List Port) (m : Pmon) :
    (cardPorts old new ps m).cards = m.cards ∧ (cardPorts old new ps m).profiles = m.profiles := by
  induction ps generalizing m with
  | nil => exact ⟨rfl, rfl⟩
  | cons p ps ih => exact ih _

/-- R19: what acceptance makes of a port twice is what it makes once. -/
theorem cardPort_idem (old new : CardState) (r : PortRec) :
    (cardPort old new (cardPort old new r).1).1 = (cardPort old new r).1 := by
  by_cases hin : old = .out ∧ (new = .inService ∨ new = .faulty) <;> by_cases hout : new = .out ∨ new = .faulty <;>
    cases hcal : r.cal <;> simp [cardPort, endCal, hin, hout, hcal]

theorem cardPorts_port (old new : CardState) (ps : List Port) (m : Pmon) (q : Port) :
    (cardPorts old new ps m).ports[q] = if q ∈ ps then (cardPort old new m.ports[q]).1 else m.ports[q] := by
  induction ps generalizing m with
  | nil => rfl
  | cons p ps ih =>
    refine (ih _).trans ?_
    by_cases hq : q = p
    · subst hq
      rw [(put_puts m q _ _).port_same, if_pos List.mem_cons_self, cardPort_idem]
      split <;> rfl
    · rw [(put_puts m p _ _).port_other hq]
      simp only [List.mem_cons, hq, false_or]

section
variable (s : State) (p : Port)

/-- R1, R2: what a sample makes of its port's record, with the calibration outcome it brings. -/
def sampledRec (code : BitVec 12) (valid : Bool) : PortRec × Option CalOutcome :=
  if valid then
    portValid s.pmon.profiles[s.pmon.ports[p].profile] s.pmon.cards[cardOf p].accepted s.cbc.ports[p].hold.isSome code
      s.pmon.ports[p]
  else portMissed s.pmon.ports[p]

variable (code : BitVec 12) (valid : Bool)

theorem pmonPower_eq : pmonPower s p code valid =
    ((reformPort (s.pmon.put p (sampledRec s p code valid).1 (sampledRec s p code valid).2) p).1,
      (if s.pmon.ports[p].los = (sampledRec s p code valid).1.los then []
        else [.tcdLos p (sampledRec s p code valid).1.los]) ++
      handPorts (reformPort (s.pmon.put p (sampledRec s p code valid).1 (sampledRec s p code valid).2) p).2
        (portConditions p s.pmon.ports[p] (sampledRec s p code valid).1)) := rfl

theorem pmonPower_port : (pmonPower s p code valid).1.ports[p] = formedRec s.pmon p (sampledRec s p code valid).1 := by
  rw [pmonPower_eq, reformPort_port, if_pos rfl, (put_puts _ _ _ _).port_same]
  rfl

theorem pmonPower_other {q : Port} (h : q ≠ p) : (pmonPower s p code valid).1.ports[q] = s.pmon.ports[q] := by
  rw [pmonPower_eq, reformPort_port, if_neg h, (put_puts _ _ _ _).port_other h]

@[simp] theorem pmonPower_cards : (pmonPower s p code valid).1.cards = s.pmon.cards := by
  rw [pmonPower_eq, reformPort_cards]
  rfl

@[simp] theorem pmonPower_profiles : (pmonPower s p code valid).1.profiles = s.pmon.profiles := by
  rw [pmonPower_eq, reformPort_profiles]
  rfl

theorem put_outcome (m : Pmon) (r : PortRec) (o : Option CalOutcome) :
    (m.put p r o).outcomes[p] = (o <|> m.outcomes[p]) := by
  cases o with
  | none => rfl
  | some o => exact (getElem_set_fin _ _ _ _).trans (if_pos rfl)

theorem pmonPower_outcome : (pmonPower s p code valid).1.outcomes[p] =
    ((sampledRec s p code valid).2 <|> s.pmon.outcomes[p]) := by
  rw [pmonPower_eq, reformPort_outcomes, put_outcome]

end

section
variable (s : State) (p : Port) (present fault : Bool)

/-- R19: a card's record after the reading of a sample. -/
def readCard : CardRec := cardReading present fault s.mbp.scan s.pmon.cards[cardOf p]

theorem pmonCard_seen (h : s.pmon.cards[cardOf p].scan = some s.mbp.scan) : pmonCard s p present fault = (s.pmon, []) :=
  if_pos h

theorem pmonCard_same (h : s.pmon.cards[cardOf p].scan ≠ some s.mbp.scan)
    (hsame : (readCard s p present fault).accepted = s.pmon.cards[cardOf p].accepted) :
    pmonCard s p present fault =
      ({ s.pmon with cards := s.pmon.cards.set (cardOf p) (readCard s p present fault) }, []) :=
  (if_neg h).trans (if_pos hsame)

/-- R19: PMON once a card's new state is accepted. -/
def acceptedPmon : Pmon × List PortChange :=
  reformPorts (portsOfCard (cardOf p))
    (cardPorts s.pmon.cards[cardOf p].accepted (readCard s p present fault).accepted (portsOfCard (cardOf p))
      { s.pmon with cards := s.pmon.cards.set (cardOf p) (readCard s p present fault) })

theorem pmonCard_accepts (h : s.pmon.cards[cardOf p].scan ≠ some s.mbp.scan)
    (hnew : (readCard s p present fault).accepted ≠ s.pmon.cards[cardOf p].accepted) :
    pmonCard s p present fault = ((acceptedPmon s p present fault).1, handPorts (acceptedPmon s p present fault).2
      (cardConditions (cardOf p) s.pmon.cards[cardOf p].accepted (readCard s p present fault).accepted)) :=
  (if_neg h).trans (if_neg hnew)

theorem acceptedPmon_cards : (acceptedPmon s p present fault).1.cards =
    s.pmon.cards.set (cardOf p) (readCard s p present fault) := by
  rw [acceptedPmon, (reformPorts_kept _ _).1, (cardPorts_kept _ _ _ _).1]

theorem acceptedPmon_profiles : (acceptedPmon s p present fault).1.profiles = s.pmon.profiles := by
  rw [acceptedPmon, (reformPorts_kept _ _).2.1, (cardPorts_kept _ _ _ _).2]

theorem mem_portsOfCard_iff (q : Port) (c : Card) : q ∈ portsOfCard c ↔ cardOf q = c := by
  constructor
  · simp only [portsOfCard, cardOf, List.mem_cons, Fin.ext_iff, List.not_mem_nil, or_false]
    intro h
    omega
  · rintro rfl
    exact mem_portsOfCard q

/-- R19, R20: what acceptance makes of a port of the card; the ports of other cards stay. -/
theorem acceptedPmon_port (q : Port) : (acceptedPmon s p present fault).1.ports[q] =
    if cardOf q = cardOf p then
      formedRec (acceptedPmon s p present fault).1 q
        (cardPort s.pmon.cards[cardOf p].accepted (readCard s p present fault).accepted s.pmon.ports[q]).1
    else s.pmon.ports[q] := by
  rw [formedRec, acceptedPmon_cards]
  simp only [acceptedPmon, reformPorts_port, cardPorts_port, mem_portsOfCard_iff, formedRec, (cardPorts_kept _ _ _ _).1]
  split <;> rfl

theorem cardPort_los (old new : CardState) (r : PortRec) : (cardPort old new r).1.los = r.los := by
  by_cases hin : old = .out ∧ (new = .inService ∨ new = .faulty) <;> by_cases hout : new = .out ∨ new = .faulty <;>
    cases hcal : r.cal <;> simp [cardPort, endCal, hin, hout, hcal]

theorem pmonCard_los (q : Port) : (pmonCard s p present fault).1.ports[q].los = s.pmon.ports[q].los := by
  by_cases hscan : s.pmon.cards[cardOf p].scan = some s.mbp.scan
  · rw [pmonCard_seen s p present fault hscan]
  · by_cases hsame : (readCard s p present fault).accepted = s.pmon.cards[cardOf p].accepted
    · rw [pmonCard_same s p present fault hscan hsame]
    · rw [pmonCard_accepts s p present fault hscan hsame, acceptedPmon_port]
      by_cases hcard : cardOf q = cardOf p
      · rw [if_pos hcard, formedRec_los, cardPort_los]
      · rw [if_neg hcard]

theorem handPorts_quiet (cs : List PortChange) (cd : List AlmChange) : ∀ m ∈ handPorts cs cd, Quiet m := by
  intro m hm
  refine ⟨handPorts_below 8 cs cd (by omega) m hm, ?_⟩
  rintro ps rfl
  simp only [handPorts, toAlm, List.mem_append] at hm
  rcases hm with hm | hm
  all_goals
    split at hm <;> simp at hm

theorem pmonCard_quiet : ∀ m ∈ (pmonCard s p present fault).2, Quiet m := by
  simp only [pmonCard]
  split
  · simp
  · split
    · simp
    · exact handPorts_quiet _ _

end

/-! ### The events taken -/

theorem taken_card (n : Nat) (p : Port) (present fault : Bool) (s : State) :
    Calm (putPmon s (pmonCard s p present fault)).1 (taken n (.pmonCard p present fault) s) :=
  settle_calm n (pmonCard_quiet s p present fault) _

theorem taken_bit (n : Nat) (p : Port) (bit valid : Bool) (s : State) :
    Calm (putTcd s (tcdBit s p bit valid)).1 (taken n (.tcdBit p bit valid) s) := by
  refine settle_calm n (fun m hm => ⟨tcdBit_below s p bit valid m hm, ?_⟩) _
  rintro ps rfl
  simp only [tcdBit, tcdPut, tcdHandOn, toAlm, List.mem_append] at hm
  rcases hm with hm | hm
  all_goals
    split at hm <;> simp at hm

theorem taken_los (n : Nat) (p : Port) (declared : Bool) (s : State) :
    Calm (putTcd s (tcdLos s p declared)).1 (taken n (.tcdLos p declared) s) := by
  refine settle_calm n (fun m hm => ⟨tcdLos_below s p declared m hm, ?_⟩) _
  rintro ps rfl
  simp only [tcdLos, tcdPut, tcdHandOn, toAlm, List.mem_append] at hm
  rcases hm with hm | hm
  all_goals
    split at hm <;> simp at hm

/-- What an event of TCD makes of port `p`'s decoder: `d` but for the bad-signalling count; nothing else of what `Calm`
names moves. -/
structure OneDec (p : Port) (d : Decoder) (s t : State) : Prop where
  pmon    : t.pmon = s.pmon
  mbp     : t.mbp = s.mbp
  same    : SameDec d t.tcd.decs[p]
  others  : ∀ q, q ≠ p → SameDec s.tcd.decs[q] t.tcd.decs[q]
  pos     : t.tcd.pos = s.tcd.pos
  latched : t.tcd.latched = s.tcd.latched
  free    : StaysFree s.cbc t.cbc

theorem OneDec.of_put {p : Port} {d : Decoder} {s t : State}
    (h : Calm (putTcd s (tcdPut s.tcd p d)).1 t) : OneDec p d s t where
  pmon := by simpa using h.pmon
  mbp := by simpa using h.mbp
  same := by
    have := h.decs p
    rwa [putTcd_tcd, tcdPut_dec, if_pos rfl] at this
  others q hq := by
    have := h.decs q
    rwa [putTcd_tcd, tcdPut_dec, if_neg hq] at this
  pos := by simpa [tcdPut] using h.pos
  latched := by simpa [tcdPut] using h.latched
  free := by simpa using h.free

theorem bit_oneDec (n : Nat) (p : Port) (bit valid : Bool) (s : State) :
    OneDec p (decoderSample s.tcd.decs[p] bit valid) s (taken n (.tcdBit p bit valid) s) :=
  .of_put (taken_bit n p bit valid s)

theorem los_oneDec (n : Nat) (p : Port) (declared : Bool) (s : State) :
    OneDec p (decoderLos s.tcd.decs[p] declared) s (taken n (.tcdLos p declared) s) :=
  .of_put (taken_los n p declared s)

theorem OneDec.before {p : Port} {d : Decoder} {s t u : State} (h : Calm s t) (k : OneDec p d t u) : OneDec p d s u :=
  ⟨k.pmon.trans h.pmon, k.mbp.trans h.mbp, k.same, fun q hq => (h.decs q).trans (k.others q hq), k.pos.trans h.pos,
    k.latched.trans h.latched, fun q hq => k.free q (h.free q hq)⟩

theorem OneDec.after {p : Port} {d : Decoder} {s t u : State} (h : OneDec p d s t) (k : Calm t u) : OneDec p d s u :=
  ⟨k.pmon.trans h.pmon, k.mbp.trans h.mbp, h.same.trans (k.decs p), fun q hq => (h.others q hq).trans (k.decs q),
    k.pos.trans h.pos, k.latched.trans h.latched, fun q hq => k.free q (h.free q hq)⟩

theorem OneDec.of_calm {p : Port} {s t : State} (h : Calm s t) : OneDec p s.tcd.decs[p] s t :=
  ⟨h.pmon, h.mbp, h.decs p, fun q _ => h.decs q, h.pos, h.latched, h.free⟩

theorem decoderLos_same {d e : Decoder} (h : SameDec d e) (b : Bool) : SameDec (decoderLos d b) (decoderLos e b) := by
  unfold SameDec at *
  rw [h]
  cases b <;> rfl

theorem OneDec.of_same {p : Port} {d e : Decoder} {s t : State} (h : OneDec p e s t) (k : SameDec d e) : OneDec p d s t :=
  { h with same := k.trans h.same }

/-- R32: what the power part of a sample leaves of its port's decoder. -/
def toldDec (s : State) (p : Port) (code : BitVec 12) (valid : Bool) : Decoder :=
  if s.pmon.ports[p].los = (sampledRec s p code valid).1.los then s.tcd.decs[p]
  else decoderLos s.tcd.decs[p] (sampledRec s p code valid).1.los

/-- The power part of a sample, with everything it sets off. -/
theorem taken_power (n : Nat) (p : Port) (code : BitVec 12) (valid : Bool) (s : State) :
    OneDec p (toldDec s p code valid) (putSample s p (pmonPower s p code valid)).1
      (taken (n + 1) (.pmonPower p code valid) s) := by
  have hquiet := handPorts_quiet (reformPort (s.pmon.put p (sampledRec s p code valid).1 (sampledRec s p code valid).2) p).2
    (portConditions p s.pmon.ports[p] (sampledRec s p code valid).1)
  have hmsgs : (putSample s p (pmonPower s p code valid)).2 = (pmonPower s p code valid).2 := rfl
  have hdeliver : deliver (.pmonPower p code valid) s = putSample s p (pmonPower s p code valid) := rfl
  unfold taken toldDec
  rw [hdeliver, hmsgs]
  generalize hfirst : (putSample s p (pmonPower s p code valid)).1 = s'
  have hdec : s'.tcd = s.tcd := by rw [← hfirst, putSample_tcd]
  rw [pmonPower_eq]
  dsimp only
  split
  · rw [← hdec]
    exact .of_calm (settle_calm _ hquiet _)
  · refine settle_once (P := fun t => Calm s' t) rfl (.refl _) (fun t h => h.trans ⟨rfl, rfl, fun _ => .refl _, rfl, rfl, .refl _⟩)
      (fun x hx t h => h.trans (taken_calm n ?_ t)) (fun t h => ?_) (fun x hx t h => h.after (taken_calm n ?_ t)) (.refl s')
    · obtain ⟨m, hm, hx⟩ := List.mem_flatMap.1 hx
      exact quiet_expand (hquiet m hm) x hx
    · have := h.decs p
      rw [hdec] at this
      exact .before h ((los_oneDec n p _ t).of_same (decoderLos_same this _))
    · obtain ⟨m, hm, hx⟩ := List.mem_flatMap.1 hx
      exact quiet_expand (hquiet m hm) x hx

end Sys2Proof.Proofs
end

