-- ==== Sys2Proof/Proofs/DecoderLoss.lean ====
section
/-! A sample as a whole: its messages in any order, the decoder it leaves, and the loss of a decoder (R1, R26, R31, R32). -/

namespace Sys2Proof.Proofs

open Sys2Proof.Machine Sys2Proof.Safety Sys2Proof.Laws

/-! ### A sample by one of its messages -/

/-- Where MBP has kept the sample. -/
def heard (s : State) (x : Sample) : State := { s with mbp := mbpTake s.mbp x }

/-- The card flags a sample hands on. -/
def cardMsgs (x : Sample) : List Msg := if x.valid then [.pmonCard x.port x.present x.fault] else []

section
variable {s : State} {x : Sample} {P R : State → Prop}

theorem takeSample_eq (hpop : s.populated x.port = true) :
    takeSample s x = settle 10 (.pmonPower x.port x.code x.valid :: (cardMsgs x ++ [.tcdBit x.port x.tagBit x.valid]))
      (heard s x) := by
  unfold takeSample settled
  rw [if_pos hpop]
  rfl

theorem mem_cardMsgs {m : Msg} : m ∈ cardMsgs x ↔ x.valid = true ∧ m = .pmonCard x.port x.present x.fault := by
  unfold cardMsgs
  cases x.valid <;> simp

theorem cardMsgs_expand : (cardMsgs x).flatMap Msg.expand = cardMsgs x := by
  unfold cardMsgs
  cases x.valid <;> rfl

/-- A sample by its power part. -/
theorem sample_by_power (hpop : s.populated x.port = true) (hchoice : ∀ t, P t → P { t with choices := t.choices + 1 })
    (hcard : x.valid = true → ∀ t, (P t → P (taken 9 (.pmonCard x.port x.present x.fault) t)) ∧
      (R t → R (taken 9 (.pmonCard x.port x.present x.fault) t)))
    (hbit : ∀ t, (P t → P (taken 9 (.tcdBit x.port x.tagBit x.valid) t)) ∧
      (R t → R (taken 9 (.tcdBit x.port x.tagBit x.valid) t)))
    (hpower : ∀ t, P t → R (taken 9 (.pmonPower x.port x.code x.valid) t)) (h : P (heard s x)) : R (takeSample s x) := by
  have hrest : ∀ m ∈ (cardMsgs x ++ [Msg.tcdBit x.port x.tagBit x.valid]).flatMap Msg.expand, ∀ t,
      (P t → P (taken 9 m t)) ∧ (R t → R (taken 9 m t)) := by
    intro m hm
    rw [List.flatMap_append, cardMsgs_expand, List.mem_append] at hm
    rcases hm with hm | hm
    · obtain ⟨hvalid, rfl⟩ := mem_cardMsgs.1 hm
      exact hcard hvalid
    · obtain rfl : m = Msg.tcdBit x.port x.tagBit x.valid := by simpa [Msg.expand] using hm
      exact hbit
  rw [takeSample_eq hpop]
  exact settle_once rfl (.refl _) hchoice (fun m hm t => (hrest m hm t).1) hpower (fun m hm t => (hrest m hm t).2) h

/-- A sample by its tag bit. -/
theorem sample_by_bit (hpop : s.populated x.port = true) (hchoice : ∀ t, P t → P { t with choices := t.choices + 1 })
    (hcard : x.valid = true → ∀ t, (P t → P (taken 9 (.pmonCard x.port x.present x.fault) t)) ∧
      (R t → R (taken 9 (.pmonCard x.port x.present x.fault) t)))
    (hpower : ∀ t, (P t → P (taken 9 (.pmonPower x.port x.code x.valid) t)) ∧
      (R t → R (taken 9 (.pmonPower x.port x.code x.valid) t)))
    (hbit : ∀ t, P t → R (taken 9 (.tcdBit x.port x.tagBit x.valid) t)) (h : P (heard s x)) : R (takeSample s x) := by
  have hrest : ∀ m ∈ (.pmonPower x.port x.code x.valid :: cardMsgs x).flatMap Msg.expand, ∀ t,
      (P t → P (taken 9 m t)) ∧ (R t → R (taken 9 m t)) := by
    intro m hm
    rw [List.flatMap_cons, cardMsgs_expand, List.mem_append] at hm
    rcases hm with hm | hm
    · obtain rfl : m = .pmonPower x.port x.code x.valid := by simpa [Msg.expand] using hm
      exact hpower
    · obtain ⟨hvalid, rfl⟩ := mem_cardMsgs.1 hm
      exact hcard hvalid
  rw [takeSample_eq hpop, ← List.cons_append]
  exact settle_once rfl (List.perm_append_singleton _ _) hchoice (fun m hm t => (hrest m hm t).1) hbit
    (fun m hm t => (hrest m hm t).2) h

/-- A valid sample by its card flags. -/
theorem sample_by_card (hpop : s.populated x.port = true) (hvalid : x.valid = true)
    (hchoice : ∀ t, P t → P { t with choices := t.choices + 1 })
    (hpower : ∀ t, (P t → P (taken 9 (.pmonPower x.port x.code x.valid) t)) ∧
      (R t → R (taken 9 (.pmonPower x.port x.code x.valid) t)))
    (hbit : ∀ t, (P t → P (taken 9 (.tcdBit x.port x.tagBit x.valid) t)) ∧
      (R t → R (taken 9 (.tcdBit x.port x.tagBit x.valid) t)))
    (hcard : ∀ t, P t → R (taken 9 (.pmonCard x.port x.present x.fault) t)) (h : P (heard s x)) : R (takeSample s x) := by
  have hrest : ∀ m ∈ [Msg.pmonPower x.port x.code x.valid, .tcdBit x.port x.tagBit x.valid].flatMap Msg.expand, ∀ t,
      (P t → P (taken 9 m t)) ∧ (R t → R (taken 9 m t)) := by
    intro m hm
    obtain rfl | rfl : m = .pmonPower x.port x.code x.valid ∨ m = .tcdBit x.port x.tagBit x.valid := by
      simpa [Msg.expand] using hm
    · exact hpower
    · exact hbit
  rw [takeSample_eq hpop, cardMsgs, if_pos hvalid]
  exact settle_once rfl (.swap _ _ _) hchoice (fun m hm t => (hrest m hm t).1) hcard
    (fun m hm t => (hrest m hm t).2) h

/-! ### What a sample leaves -/

/-- The parts a sample leaves alone. -/
theorem takeSample_unchanged (s : State) (x : Sample) :
    unchangedBut [.mbp, .pmon, .tcd, .cbc, .prc, .tsel, .tsp, .alm, .jrn, .attn, .gens, .choices] s (takeSample s x) := by
  refine unchangedBut_trans (t := heard s x) ?_ (unchangedBut_mono (settled_unchanged _) (by decide))
  intro q hq
  cases q <;> simp [Part.same, heard] at hq ⊢

theorem takeSample_mbp (s : State) (x : Sample) : (takeSample s x).mbp = mbpTake s.mbp x :=
  settled_unchanged _ .mbp (by decide)

theorem mbpTake_last (m : Mbp) (x : Sample) : (mbpTake m x).last[x.port] = x :=
  (getElem_set_fin _ _ _ _).trans (if_pos rfl)

end

/-! ### The bit and the loss of light at TCD -/

/-- Nothing collected, not aligned, in HUNT: what LOS leaves (R32). -/
structure Dark (d : Decoder) : Prop where
  st      : d.st = .hunt
  bits    : d.bits = 0
  count   : d.count = 0
  nextEnd : d.nextEnd = none

theorem decoderLos_los (d : Decoder) (b : Bool) : (decoderLos d b).los = b := by cases b <;> rfl

theorem decoderLos_dark (d : Decoder) : Dark (decoderLos d true) := ⟨rfl, rfl, rfl, rfl⟩

theorem decoderLos_clear {d : Decoder} (h : d.los = false) : decoderLos d false = d := by
  cases d
  subst h
  rfl

/-- Everything a decoder keeps but for its bad-signalling count. -/
theorem SameDec.fields {d e : Decoder} (h : SameDec d e) :
    e.st = d.st ∧ e.los = d.los ∧ e.nextEnd = d.nextEnd ∧ e.loss = d.loss := by
  unfold SameDec at h
  rw [h]
  exact ⟨rfl, rfl, rfl, rfl⟩

theorem SameDec.dark {d e : Decoder} (h : SameDec d e) (hd : Dark d) : Dark e := by
  unfold SameDec at h
  rw [h]
  exact ⟨hd.st, hd.bits, hd.count, hd.nextEnd⟩

theorem SameDec.lossPeriod {d e : Decoder} (h : SameDec d e) : SameDec (lossPeriod d) (lossPeriod e) := by
  unfold SameDec at h
  rw [h]
  simp only [Machine.lossPeriod]
  split <;> rfl

theorem SameDec.frameFound {d e : Decoder} (h : SameDec d e) (f : TagFrame) :
    SameDec (frameFound d f) (frameFound e f) := by
  unfold SameDec at h
  rw [h]
  simp only [Machine.frameFound]
  split
  · rfl
  · split <;> rfl
  · split
    · rfl
    · split
      · rfl
      · split <;> rfl

theorem SameDec.sample {d e : Decoder} (h : SameDec d e) (bit valid : Bool) :
    SameDec (decoderSample d bit valid) (decoderSample e bit valid) := by
  have hcollect : SameDec (collectBit d bit) (collectBit e bit) := by
    unfold SameDec at h ⊢
    rw [h]
    rfl
  have hend (x y : Decoder) (k : SameDec x y) : SameDec { x with nextEnd := none } { y with nextEnd := none } := by
    unfold SameDec at k ⊢
    rw [k]
  have hbits : (collectBit e bit).bits = (collectBit d bit).bits ∧
      testsNow (collectBit e bit) = testsNow (collectBit d bit) := by
    unfold SameDec at hcollect
    rw [hcollect]
    exact ⟨rfl, rfl⟩
  obtain ⟨hbits, htests⟩ := hbits
  cases valid with
  | false =>
    rw [decoderSample_missed, decoderSample_missed]
    refine SameDec.lossPeriod ?_
    unfold SameDec at h ⊢
    rw [h]
  | true =>
    have hlos := h.fields.2.1
    cases hd : d.los with
    | true =>
      rw [decoderSample_los hd, decoderSample_los (hlos.trans hd)]
      exact h.lossPeriod
    | false =>
      cases htest : testsNow (collectBit d bit) with
      | false =>
        rw [decoderSample_waits hd htest, decoderSample_waits (hlos.trans hd) (htests.trans htest)]
        exact hcollect.lossPeriod
      | true =>
        cases hvalid : frameValid (collectBit d bit).bits with
        | false =>
          rw [decoderSample_misses hd htest hvalid,
            decoderSample_misses (hlos.trans hd) (htests.trans htest) (hbits ▸ hvalid)]
          exact (hend _ _ hcollect).lossPeriod
        | true =>
          rw [decoderSample_finds hd htest hvalid,
            decoderSample_finds (hlos.trans hd) (htests.trans htest) (hbits ▸ hvalid), hbits]
          exact hcollect.frameFound _

/-- R26 to R31: a sample is a period without a valid frame or a valid frame found, on the decoder with other collected
bits. -/
theorem decoderSample_cases (d : Decoder) (bit valid : Bool) : ∃ d' : Decoder, d'.st = d.st ∧ d'.loss = d.loss ∧
    d'.los = d.los ∧ (decoderSample d bit valid = lossPeriod d' ∨ ∃ f, decoderSample d bit valid = frameFound d' f) := by
  cases valid with
  | false => exact ⟨{ d with bits := 0, count := 0, nextEnd := none }, rfl, rfl, rfl, .inl decoderSample_missed⟩
  | true =>
    cases hd : d.los with
    | true => exact ⟨d, rfl, rfl, hd, .inl (decoderSample_los hd)⟩
    | false =>
      cases htest : testsNow (collectBit d bit) with
      | false => exact ⟨collectBit d bit, rfl, rfl, hd, .inl (decoderSample_waits hd htest)⟩
      | true =>
        cases hvalid : frameValid (collectBit d bit).bits with
        | false => exact ⟨{ collectBit d bit with nextEnd := none }, rfl, rfl, hd, .inl (decoderSample_misses hd htest hvalid)⟩
        | true => exact ⟨collectBit d bit, rfl, rfl, hd, .inr ⟨_, decoderSample_finds hd htest hvalid⟩⟩

theorem lossPeriod_fields (d : Decoder) : (lossPeriod d).loss = d.loss + 1 ∧ (lossPeriod d).los = d.los ∧
    (lossPeriod d).bits = d.bits ∧ (lossPeriod d).count = d.count := by
  obtain ⟨st, n, h⟩ := lossPeriod_eq d
  rw [h]
  exact ⟨rfl, rfl, rfl, rfl⟩

theorem lossPeriod_hunt_iff (d : Decoder) : (lossPeriod d).st = .hunt ↔ d.st = .hunt ∨ 167 ≤ d.loss := by
  by_cases h : d.st = .hunt ∨ d.loss < 167
  · rw [lossPeriod_counts h]
    exact ⟨.inl, fun k => h.elim id fun hlt => k.elim id fun hge => absurd hlt (by omega)⟩
  · obtain ⟨hst, hloss⟩ := not_or.1 h
    rw [lossPeriod_loses hst (by omega)]
    exact ⟨fun _ => .inr (by omega), fun _ => rfl⟩

theorem decoderSample_los_kept (d : Decoder) (bit valid : Bool) : (decoderSample d bit valid).los = d.los := by
  obtain ⟨d', _, _, hlos, h | ⟨f, h⟩⟩ := decoderSample_cases d bit valid
  · rw [h, (lossPeriod_fields d').2.1, hlos]
  · rw [h, (frameFound_moves d' f).2.2.1, hlos]

/-- R31: the sample that takes a decoder to HUNT leaves it unaligned. -/
theorem decoderSample_lost {d : Decoder} {bit valid : Bool} (hst : d.st ≠ .hunt)
    (h : (decoderSample d bit valid).st = .hunt) : (decoderSample d bit valid).nextEnd = none := by
  obtain ⟨d', hst', _, _, hloss | ⟨f, hfound⟩⟩ := decoderSample_cases d bit valid
  · rw [hloss] at h ⊢
    rcases (lossPeriod_hunt_iff d').1 h with hhunt | hge
    · exact absurd (hst' ▸ hhunt) hst
    · rw [lossPeriod_loses (hst' ▸ hst) hge]
  · rw [hfound] at h
    obtain ⟨_, _, _, _, _, hnot⟩ := frameFound_moves d' f
    exact absurd h hnot

/-- R32: a decoder LOS has emptied goes on hunting, at a sample taken before LOS moves again or one discarded. -/
theorem decoderSample_dark {d : Decoder} (h : Dark d) (bit valid : Bool) :
    (decoderSample d bit valid).st = .hunt ∧ (decoderSample d bit valid).nextEnd = none ∧
    (d.los = true → Dark (decoderSample d bit valid)) := by
  obtain ⟨hst, hbits, hcount, hend⟩ := h
  cases valid with
  | false =>
    rw [decoderSample_missed, lossPeriod_counts (d := { d with bits := 0, count := 0, nextEnd := none }) (.inl hst)]
    exact ⟨hst, rfl, fun _ => ⟨hst, rfl, rfl, rfl⟩⟩
  | true =>
    cases hlos : d.los with
    | true =>
      rw [decoderSample_los hlos, lossPeriod_counts (.inl hst)]
      exact ⟨hst, hend, fun _ => ⟨hst, hbits, hcount, hend⟩⟩
    | false =>
      have hwaits : testsNow (collectBit d bit) = false := by simp [testsNow, collectBit, hend, hcount]
      have hcollect : (collectBit d bit).nextEnd = none := by simp [collectBit, hend]
      rw [decoderSample_waits hlos hwaits, lossPeriod_counts (d := collectBit d bit) (.inl hst)]
      exact ⟨hst, hcollect, nofun⟩

theorem hunt_no_tag {d : Decoder} (h : d.st = .hunt) : d.tag = none := by simp only [Decoder.tag, h]

/-! ### LOS at TCD while a sample is taken (R32) -/

/-- While the power part of a sample of port `p` is still due: LOS as `s` has it at PMON and at TCD. -/
structure LosDue (s : State) (p : Port) (t : State) : Prop where
  pmon : t.pmon.ports[p].los = s.pmon.ports[p].los
  tcd  : t.tcd.decs[p].los = s.tcd.decs[p].los

/-- Once it is taken: TCD's mark moved where PMON's did, and a declaration has emptied the decoder. -/
structure LosTaken (s : State) (p : Port) (t : State) : Prop where
  same     : t.pmon.ports[p].los = s.pmon.ports[p].los → t.tcd.decs[p].los = s.tcd.decs[p].los
  moved    : t.pmon.ports[p].los ≠ s.pmon.ports[p].los → t.tcd.decs[p].los = t.pmon.ports[p].los
  declared : s.pmon.ports[p].los = false → t.pmon.ports[p].los = true → Dark t.tcd.decs[p]

section
variable {s t u : State} {p : Port}

theorem LosDue.of_same (h : LosDue s p t) (hpmon : u.pmon.ports[p].los = t.pmon.ports[p].los)
    (htcd : u.tcd.decs[p].los = t.tcd.decs[p].los) : LosDue s p u := ⟨hpmon.trans h.pmon, htcd.trans h.tcd⟩

theorem LosTaken.of_same (h : LosTaken s p t) (hpmon : u.pmon.ports[p].los = t.pmon.ports[p].los)
    (htcd : u.tcd.decs[p].los = t.tcd.decs[p].los)
    (hdark : t.tcd.decs[p].los = true → Dark t.tcd.decs[p] → Dark u.tcd.decs[p]) : LosTaken s p u where
  same k := htcd.trans (h.same (hpmon ▸ k))
  moved k := htcd.trans ((h.moved (hpmon ▸ k)).trans hpmon.symm)
  declared hwas hnow := by
    rw [hpmon] at hnow
    have hmoved : t.pmon.ports[p].los ≠ s.pmon.ports[p].los := by rw [hwas, hnow]; decide
    exact hdark ((h.moved hmoved).trans hnow) (h.declared hwas hnow)

end

theorem card_los (p : Port) (present fault : Bool) (t : State) :
    (taken 9 (.pmonCard p present fault) t).pmon.ports[p].los = t.pmon.ports[p].los ∧
    SameDec t.tcd.decs[p] (taken 9 (.pmonCard p present fault) t).tcd.decs[p] := by
  have h := taken_card 9 p present fault t
  refine ⟨?_, ?_⟩
  · rw [h.pmon, putPmon_pmon, pmonCard_los]
  · have := h.decs p
    rwa [putPmon_tcd] at this

theorem bit_los (p : Port) (bit valid : Bool) (t : State) :
    (taken 9 (.tcdBit p bit valid) t).pmon.ports[p].los = t.pmon.ports[p].los ∧
    (taken 9 (.tcdBit p bit valid) t).tcd.decs[p].los = t.tcd.decs[p].los ∧
    (t.tcd.decs[p].los = true → Dark t.tcd.decs[p] → Dark (taken 9 (.tcdBit p bit valid) t).tcd.decs[p]) := by
  have h := bit_oneDec 9 p bit valid t
  obtain ⟨_, hlos, _, _⟩ := h.same.fields
  refine ⟨by rw [h.pmon], by rw [hlos, decoderSample_los_kept], fun hlos hdark => ?_⟩
  exact h.same.dark ((decoderSample_dark hdark bit valid).2.2 hlos)

theorem power_los (s : State) (p : Port) (code : BitVec 12) (valid : Bool) {t : State} (h : LosDue s p t) :
    LosTaken s p (taken 9 (.pmonPower p code valid) t) := by
  have hdec := taken_power 8 p code valid t
  have hpmon : (taken 9 (.pmonPower p code valid) t).pmon.ports[p].los = (sampledRec t p code valid).1.los := by
    rw [hdec.pmon, putSample_pmon, pmonPower_port, formedRec_los]
  obtain ⟨_, hlos, _, _⟩ := hdec.same.fields
  by_cases hsame : t.pmon.ports[p].los = (sampledRec t p code valid).1.los
  · have htold : toldDec t p code valid = t.tcd.decs[p] := if_pos hsame
    have hkept := hpmon.trans (hsame.symm.trans h.pmon)
    refine ⟨fun _ => ?_, fun k => absurd hkept k, fun hwas hnow => ?_⟩
    · rw [hlos, htold, h.tcd]
    · rw [hkept, hwas] at hnow
      exact absurd hnow (by decide)
  · have htold : toldDec t p code valid = decoderLos t.tcd.decs[p] (sampledRec t p code valid).1.los := if_neg hsame
    have hmoved : (taken 9 (.pmonPower p code valid) t).pmon.ports[p].los ≠ s.pmon.ports[p].los := by
      rw [hpmon, ← h.pmon]
      exact Ne.symm hsame
    refine ⟨fun k => absurd k hmoved, fun _ => ?_, fun _ hnow => ?_⟩
    · rw [hlos, htold, decoderLos_los, hpmon]
    · have hdark : Dark (toldDec t p code valid) := by
        rw [htold, ← hpmon, hnow]
        exact decoderLos_dark _
      exact hdec.same.dark hdark

/-- R32: a sample and its port's mark of LOS at TCD, in whichever order its messages are taken. -/
theorem takeSample_los (s : State) (x : Sample) (hpop : s.populated x.port = true) :
    LosTaken s x.port (takeSample s x) := by
  refine sample_by_power (P := LosDue s x.port) (R := LosTaken s x.port) hpop (fun t h => ⟨h.pmon, h.tcd⟩)
    (fun _ t => ?_) (fun t => ?_) (fun t h => power_los s x.port x.code x.valid h) ⟨rfl, rfl⟩
  · obtain ⟨hpmon, hdec⟩ := card_los x.port x.present x.fault t
    obtain ⟨_, hlos, _, _⟩ := hdec.fields
    exact ⟨fun h => h.of_same hpmon hlos, fun h => h.of_same hpmon hlos fun _ => hdec.dark⟩
  · obtain ⟨hpmon, hlos, hdark⟩ := bit_los x.port x.tagBit x.valid t
    exact ⟨fun h => h.of_same hpmon hlos, fun h => h.of_same hpmon hlos hdark⟩

/-! ### A decoder lost (R31) -/

/-- The other ports' decoders, the frame position and the latched frames are those of `s`. -/
structure OthersKept (s : State) (p : Port) (t : State) : Prop where
  others  : ∀ q, q ≠ p → SameDec s.tcd.decs[q] t.tcd.decs[q]
  pos     : t.tcd.pos = s.tcd.pos
  latched : t.tcd.latched = s.tcd.latched

section
variable {s t u : State} {p : Port} {d : Decoder}

theorem OthersKept.oneDec (h : OthersKept s p t) (k : OneDec p d t u) : OthersKept s p u :=
  ⟨fun q hq => (h.others q hq).trans (k.others q hq), k.pos.trans h.pos, k.latched.trans h.latched⟩

theorem OthersKept.calm (h : OthersKept s p t) (k : Calm t u) : OthersKept s p u := h.oneDec (.of_calm k)

end

/-- Before the bit of the sample: the decoder as it was, or emptied by LOS. -/
def BitDue (s : State) (p : Port) (t : State) : Prop :=
  OthersKept s p t ∧ (SameDec s.tcd.decs[p] t.tcd.decs[p] ∨ Dark t.tcd.decs[p])

/-- After it: hunting, not aligned. -/
def Lost (s : State) (p : Port) (t : State) : Prop :=
  OthersKept s p t ∧ t.tcd.decs[p].st = .hunt ∧ t.tcd.decs[p].nextEnd = none

theorem card_lost (s : State) (p : Port) (present fault : Bool) (t : State) :
    (BitDue s p t → BitDue s p (taken 9 (.pmonCard p present fault) t)) ∧
    (Lost s p t → Lost s p (taken 9 (.pmonCard p present fault) t)) := by
  have hcalm := taken_card 9 p present fault t
  have hdec := (card_los p present fault t).2
  obtain ⟨hst, _, hend, _⟩ := hdec.fields
  have hothers (h : OthersKept s p t) : OthersKept s p (taken 9 (.pmonCard p present fault) t) := by
    refine OthersKept.calm (t := (putPmon t (pmonCard t p present fault)).1) ⟨fun q hq => ?_, ?_, ?_⟩ hcalm
    · rw [putPmon_tcd]
      exact h.others q hq
    · rw [putPmon_tcd]
      exact h.pos
    · rw [putPmon_tcd]
      exact h.latched
  exact ⟨fun ⟨ho, hd⟩ => ⟨hothers ho, hd.imp (fun k => k.trans hdec) hdec.dark⟩,
    fun ⟨ho, h1, h2⟩ => ⟨hothers ho, hst.trans h1, hend.trans h2⟩⟩

theorem toldDec_cases (t : State) (p : Port) (code : BitVec 12) (valid : Bool) :
    toldDec t p code valid = t.tcd.decs[p] ∨ ∃ b, toldDec t p code valid = decoderLos t.tcd.decs[p] b := by
  unfold toldDec
  split
  · exact .inl rfl
  · exact .inr ⟨_, rfl⟩

theorem power_lost (s : State) (p : Port) (code : BitVec 12) (valid : Bool) (hclear : s.tcd.decs[p].los = false) (t : State) :
    (BitDue s p t → BitDue s p (taken 9 (.pmonPower p code valid) t)) ∧
    (Lost s p t → Lost s p (taken 9 (.pmonPower p code valid) t)) := by
  have hdec := taken_power 8 p code valid t
  have hothers (h : OthersKept s p t) : OthersKept s p (taken 9 (.pmonPower p code valid) t) :=
    OthersKept.oneDec (t := (putSample t p (pmonPower t p code valid)).1)
      ⟨fun q hq => by rw [putSample_tcd]; exact h.others q hq, by rw [putSample_tcd]; exact h.pos,
        by rw [putSample_tcd]; exact h.latched⟩ hdec
  obtain ⟨hst, _, hend, _⟩ := hdec.same.fields
  rcases toldDec_cases t p code valid with htold | ⟨b, htold⟩
  · rw [htold] at hst hend
    have hsame := htold ▸ hdec.same
    exact ⟨fun ⟨ho, hd⟩ => ⟨hothers ho, hd.imp (fun k => k.trans hsame) hsame.dark⟩,
      fun ⟨ho, h1, h2⟩ => ⟨hothers ho, hst.trans h1, hend.trans h2⟩⟩
  · have hsame := htold ▸ hdec.same
    rw [htold] at hst hend
    cases b with
    | true =>
      have hdark := hsame.dark (decoderLos_dark _)
      exact ⟨fun ⟨ho, _⟩ => ⟨hothers ho, .inr hdark⟩, fun ⟨ho, _⟩ => ⟨hothers ho, hdark.st, hdark.nextEnd⟩⟩
    | false =>
      refine ⟨fun ⟨ho, hd⟩ => ⟨hothers ho, ?_⟩, fun ⟨ho, h1, h2⟩ => ⟨hothers ho, hst.trans h1, hend.trans h2⟩⟩
      rcases hd with hd | hd
      · obtain ⟨_, hlos, _, _⟩ := hd.fields
        rw [decoderLos_clear (hlos.trans hclear)] at hsame
        exact .inl (hd.trans hsame)
      · exact .inr (hsame.dark ⟨hd.st, hd.bits, hd.count, hd.nextEnd⟩)

theorem bit_lost (s : State) (p : Port) (bit valid : Bool) (hst : s.tcd.decs[p].st ≠ .hunt)
    (hlost : (decoderSample s.tcd.decs[p] bit valid).st = .hunt) {t : State} (h : BitDue s p t) :
    Lost s p (taken 9 (.tcdBit p bit valid) t) := by
  obtain ⟨hothers, hdec⟩ := h
  have hone := bit_oneDec 9 p bit valid t
  obtain ⟨hst', _, hend', _⟩ := hone.same.fields
  refine ⟨hothers.oneDec hone, ?_⟩
  rw [hst', hend']
  rcases hdec with hsame | hdark
  · obtain ⟨hst'', _, hend'', _⟩ := (hsame.sample bit valid).fields
    rw [hst'', hend'']
    exact ⟨hlost, decoderSample_lost hst hlost⟩
  · obtain ⟨h1, h2, _⟩ := decoderSample_dark hdark bit valid
    exact ⟨h1, h2⟩

theorem takeSample_lost (s : State) (x : Sample) (hpop : s.populated x.port = true)
    (hst : s.tcd.decs[x.port].st ≠ .hunt) (hlost : (decoderSample s.tcd.decs[x.port] x.tagBit x.valid).st = .hunt)
    (hclear : s.tcd.decs[x.port].los = false) : Lost s x.port (takeSample s x) :=
  sample_by_bit (P := BitDue s x.port) (R := Lost s x.port) hpop
    (fun _ ⟨ho, hd⟩ => ⟨⟨ho.others, ho.pos, ho.latched⟩, hd⟩)
    (fun _ t => card_lost s x.port x.present x.fault t) (fun t => power_lost s x.port x.code x.valid hclear t)
    (fun _ h => bit_lost s x.port x.tagBit x.valid hst hlost h) ⟨⟨fun _ _ => .refl _, rfl, rfl⟩, .inl (.refl _)⟩

/-! ### The statement -/

theorem exec_sample {s : State} (x : Sample) (h : s.start.ready = true) : exec (.sample x) s = .next (takeSample s x) := by
  exact whenever_true h _ _

/-- Settles O14: the decoder's own moves, and the sample's messages in any order. -/
theorem aLostDecoderReturnsToHunt : Obligations.ALostDecoderReturnsToHunt := by
  unfold Obligations.ALostDecoderReturnsToHunt
  refine ⟨fun d => ⟨rfl, rfl, fun bit => ⟨decoderSample_missed, decoderSample_los, fun hlos => ?_⟩⟩,
    fun s p q b valid => ⟨?_, ?_⟩, fun x s hready hpop => ?_, fun d => ⟨fun hst hloss => lossPeriod_loses hst hloss,
      fun h => lossPeriod_counts h, fun f => ?_, fun bit valid => ?_⟩, fun x s hloses hclear => ?_⟩
  · have hcollected : (decoderSample d bit true).bits = pushBit d.bits bit ∧
        (decoderSample d bit true).count = min 56 (d.count + 1) := by
      cases htest : testsNow (collectBit d bit) with
      | false =>
        rw [decoderSample_waits hlos htest, (lossPeriod_fields _).2.2.1, (lossPeriod_fields _).2.2.2]
        exact ⟨rfl, rfl⟩
      | true =>
        cases hvalid : frameValid (collectBit d bit).bits with
        | false =>
          rw [decoderSample_misses hlos htest hvalid, (lossPeriod_fields _).2.2.1, (lossPeriod_fields _).2.2.2]
          exact ⟨rfl, rfl⟩
        | true =>
          obtain ⟨_, _, _, hbits, hcount, _⟩ := frameFound_moves (collectBit d bit) (frameOf (collectBit d bit).bits)
          rw [decoderSample_finds hlos htest hvalid, hbits, hcount]
          exact ⟨rfl, rfl⟩
    exact ⟨hcollected.1.trans (pushBit_eq _ _), hcollected.2, (decoderSample_los_kept _ _ _).trans hlos⟩
  · refine (tcdPut_dec _ _ _ _).trans ?_
    split
    · next hq => rw [hq]
    · rfl
  · refine (tcdPut_dec _ _ _ _).trans ?_
    split
    · next hq => rw [hq]
    · rfl
  · obtain ⟨hsame, hmoved, hdeclared⟩ := takeSample_los s x hpop
    refine ⟨takeSample s x, exec_sample x hready, hsame, hmoved, fun hwas hnow => ?_⟩
    obtain ⟨hst, hbits, hcount, hend⟩ := hdeclared hwas hnow
    exact ⟨hst, hunt_no_tag hst, hbits, hcount, hend⟩
  · obtain ⟨hloss, _, _, _, _, hst⟩ := frameFound_moves d f
    exact ⟨hloss, hst⟩
  · obtain ⟨d', hst, hloss, _, he | ⟨f, he⟩⟩ := decoderSample_cases d bit valid
    · have hcount := (lossPeriod_fields d').1
      have hhunt := lossPeriod_hunt_iff d'
      rw [hst, hloss] at hhunt
      rw [hloss] at hcount
      simp only [he]
      exact ⟨.inl hcount, fun h => ⟨fun k => ⟨(hhunt.1 k).resolve_left h, hcount⟩, fun k => hhunt.2 (.inr k.1)⟩,
        fun h _ => hhunt.2 (.inl h)⟩
    · obtain ⟨hzero, _, _, _, _, hnot⟩ := frameFound_moves d' f
      simp only [he, hzero]
      exact ⟨.inr ⟨trivial, hnot⟩, fun _ => ⟨fun k => absurd k hnot, fun k => absurd k.2 (by omega)⟩, fun _ k => absurd k (by omega)⟩
  · obtain ⟨⟨⟨hready, hpop⟩, hst⟩, hlost⟩ :
        ((s.start.ready = true ∧ s.populated x.port = true) ∧ s.tcd.decs[x.port].st ≠ .hunt) ∧
          (decoderSample s.tcd.decs[x.port] x.tagBit x.valid).st = .hunt := by
      simpa only [losesDecoder, sampleTaken, Bool.and_eq_true, decide_eq_true_eq] using hloses
    obtain ⟨hothers, hhunt, hend⟩ := takeSample_lost s x hpop hst hlost hclear
    refine ⟨takeSample s x, whenever_true hloses _ _, hhunt, hend, hunt_no_tag hhunt, fun q hq => ?_, hothers.pos,
      hothers.latched, takeSample_unchanged s x⟩
    obtain ⟨h1, _, h2, h3⟩ := (hothers.others q hq).fields
    exact ⟨h1, h2, h3⟩

end Sys2Proof.Proofs
end

