-- ==== Sys2Proof/Proofs/Samples.lean ====
section
/-! What a sample leaves at PMON: a missed one (R2), a valid one (R1, R20), the acceptance of a card's state (R19). -/

namespace Sys2Proof.Proofs

open Sys2Proof.Machine Sys2Proof.Safety Sys2Proof.Laws

/-! ### Missed samples -/

theorem sampledRec_missed (s : State) (p : Port) (code : BitVec 12) : sampledRec s p code false = portMissed s.pmon.ports[p] :=
  rfl

/-- R2, R15: a missed sample at its port. -/
theorem portMissed_eq (r : PortRec) : portMissed r =
    ({ r with
        missed := count16 r.missed, run := r.run + 1, monLost := r.monLost || decide (64 ≤ r.run + 1)
        cal := if decide (64 ≤ r.run + 1) && !r.monLost then none else r.cal },
      if (decide (64 ≤ r.run + 1) && !r.monLost) && r.cal.isSome then some .failedMonlost else none) := by
  cases hmon : r.monLost <;> cases hcal : r.cal <;> by_cases hlost : 64 ≤ r.run + 1 <;>
    simp [portMissed, endCal, hmon, hcal, hlost]

/-- What a missed sample makes of PMON, whenever its power part is taken. -/
def missedPmon (m : Pmon) (p : Port) : Pmon :=
  (reformPort (m.put p (portMissed m.ports[p]).1 (portMissed m.ports[p]).2) p).1

theorem takeSample_missed (s : State) (x : Sample) (hpop : s.populated x.port = true) (hmissed : x.valid = false) :
    (takeSample s x).pmon = missedPmon s.pmon x.port := by
  refine sample_by_power (P := fun t => t.pmon = s.pmon) (R := fun t => t.pmon = missedPmon s.pmon x.port) hpop
    (fun t h => h) (fun hvalid => ?_) (fun t => ?_) (fun t h => ?_) rfl
  · rw [hmissed] at hvalid
    exact absurd hvalid (by decide)
  · have hsame := (bit_oneDec 9 x.port x.tagBit x.valid t).pmon
    exact ⟨fun h => hsame.trans h, fun h => hsame.trans h⟩
  · refine (taken_power 8 x.port x.code x.valid t).pmon.trans ?_
    rw [putSample_pmon, pmonPower_eq, hmissed, sampledRec_missed, ← h]
    rfl

/-- Settles O9: PMON after a missed sample, whatever the order of its two messages. -/
theorem aMissedSampleMovesTheRunAlone : Obligations.AMissedSampleMovesTheRunAlone := by
  unfold Obligations.AMissedSampleMovesTheRunAlone
  intro x s c hc hready hpop hmissed r lost q
  have hexec : exec c s = .next (takeSample s x) := by
    rcases hc with rfl | ⟨rfl, hdeclares⟩
    · exact exec_sample x hready
    · exact whenever_true hdeclares _ _
  have hpmon := takeSample_missed s x hpop hmissed
  have hq : (portMissed r).1 = q := by rw [portMissed_eq]; rfl
  have hport : (takeSample s x).pmon.ports[x.port] = { q with handed := portStateOf s.pmon.cards[cardOf x.port].accepted q } := by
    rw [hpmon, missedPmon, reformPort_port, if_pos rfl, (put_puts _ _ _ _).port_same, ← hq]
    rfl
  refine ⟨takeSample s x, hexec, hport, fun hlost => ?_, fun hlost hnot hcal => ?_, fun p hp => ?_, ?_, ?_, ?_,
    takeSample_unchanged s x⟩
  · rcases hc with hsample | ⟨_, hdeclares⟩
    · exact absurd (hsample.symm.trans hlost) nofun
    · simp only [declaresMonLost, Bool.and_eq_true, decide_eq_true_eq] at hdeclares
      rw [hport]
      exact Bool.or_eq_true_iff.2 (.inr (decide_eq_true hdeclares.2))
  · have ho : (portMissed r).2 = some .failedMonlost := by
      have hends : (lost && !r.monLost && r.cal.isSome) = true := by
        simp only [hlost, hnot, Option.isSome_iff_ne_none.2 hcal, Bool.not_false, Bool.and_self]
      rw [portMissed_eq]
      exact if_pos hends
    rw [hpmon, missedPmon, reformPort_outcomes, put_outcome]
    exact congrArg (· <|> _) ho
  · rw [hpmon, missedPmon, reformPort_port, if_neg hp, (put_puts _ _ _ _).port_other hp]
  · rw [hpmon, missedPmon, reformPort_cards]
    rfl
  · rw [hpmon, missedPmon, reformPort_profiles]
    rfl
  · rw [takeSample_mbp, mbpTake_last]

/-! ### Card readings (R19) -/

section
variable {present fault : Bool} {c : CardRec}

theorem cardReading_scan (n : Nat) : (cardReading present fault n c).scan = some n := by
  unfold cardReading
  simp only
  generalize (if c.cand = (present, fault) then c.count + 1 else 1) = k
  split
  · rfl
  · split <;> rfl

/-- R19: a reading whose pair is not that of the accepted state. -/
theorem cardReading_differs (n : Nat) (h : cardStateOf present fault ≠ c.accepted) :
    cardReading present fault n c =
      if 8 ≤ (if c.cand = (present, fault) then c.count + 1 else 1) then
        { c with scan := some n, accepted := cardStateOf present fault, cand := (present, fault), count := 0 }
      else { c with
        scan := some n, cand := (present, fault), count := if c.cand = (present, fault) then c.count + 1 else 1 } :=
  if_neg h

/-- R19: a reading that changes the accepted state accepts the pair. -/
theorem cardReading_accepts {n : Nat} (h : (cardReading present fault n c).accepted ≠ c.accepted) :
    (cardReading present fault n c).accepted = cardStateOf present fault ∧ (cardReading present fault n c).count = 0 := by
  by_cases hsame : cardStateOf present fault = c.accepted
  · have : cardReading present fault n c = { c with scan := some n, count := 0 } := if_pos hsame
    rw [this] at h
    exact absurd rfl h
  · rw [cardReading_differs n hsame] at h ⊢
    generalize (if c.cand = (present, fault) then c.count + 1 else 1) = k at h ⊢
    split
    · exact ⟨rfl, rfl⟩
    · next hfew => rw [if_neg hfew] at h; exact absurd rfl h

/-- R19: seven readings in a row with one pair make its count; the state stays. -/
theorem cardReadings_count (hpair : cardStateOf present fault ≠ c.accepted) (hcount : c.count = 0) (scans : List Nat)
    (hpos : 1 ≤ scans.length) (hlen : scans.length ≤ 7) :
    let d := scans.foldl (fun x n => cardReading present fault n x) c
    d.cand = (present, fault) ∧ d.accepted = c.accepted ∧ d.count = scans.length := by
  induction scans using List.reverseRecOn with
  | nil => exact absurd hpos (by simp)
  | append_singleton scans n ih =>
    rw [List.length_append, List.length_singleton] at hlen ⊢
    simp only [List.foldl_append, List.foldl_cons, List.foldl_nil]
    rcases Nat.eq_zero_or_pos scans.length with hzero | hmore
    · obtain rfl := List.length_eq_zero_iff.1 hzero
      rw [List.foldl_nil, cardReading_differs n hpair, hcount]
      split <;> simp
    · obtain ⟨hcand, hacc, hn⟩ := ih hmore (by omega)
      generalize scans.foldl (fun x n => cardReading present fault n x) c = d at hcand hacc hn
      rw [cardReading_differs n (hacc ▸ hpair), if_pos hcand, hn, if_neg (by omega)]
      exact ⟨rfl, hacc, rfl⟩

theorem cardReadings_accept (hpair : cardStateOf present fault ≠ c.accepted) (hcount : c.count = 0) (scans : List Nat)
    (hlen : scans.length = 8) :
    let d := scans.foldl (fun x n => cardReading present fault n x) c
    d.cand = (present, fault) ∧ d.accepted = cardStateOf present fault ∧ d.count = 0 := by
  obtain rfl | ⟨before, n, hscans⟩ := List.eq_nil_or_concat scans
  · exact absurd hlen (by simp)
  · rw [List.concat_eq_append] at hscans
    subst hscans
    have hseven : before.length = 7 := by simpa using hlen
    obtain ⟨hcand, hacc, hn⟩ := cardReadings_count hpair hcount before (by omega) (by omega)
    simp only [List.foldl_append, List.foldl_cons, List.foldl_nil]
    generalize before.foldl (fun x n => cardReading present fault n x) c = d at hcand hacc hn
    rw [cardReading_differs n (hacc ▸ hpair), if_pos hcand, hn, if_pos (by omega)]
    exact ⟨rfl, rfl, rfl⟩

end

/-! ### A valid sample among its messages -/

/-- R1, R15: without a calibration in progress a valid sample brings none about. -/
theorem portValid_idle (pf : Profile) (card : CardState) (held : Bool) (code : BitVec 12) {r : PortRec}
    (h : r.cal = none) : (portValid pf card held code r).1.cal = none := by
  have hfiltered : (filteredRec pf code r).cal = none := by
    obtain ⟨v, sp, n, hf⟩ := stageFilter_eq pf (litRec pf code r)
    have hlit : (litRec pf code r).cal = none := h
    unfold filteredRec
    rw [hf]
    split
    · split <;> exact hlit
    · split
      · rfl
      · exact hlit
  obtain ⟨b, k, ht⟩ := stageTrack_eq pf card held (filteredRec pf code r)
  obtain ⟨f, n, g, m, hd⟩ := stageDeficit_eq pf (stageTrack pf card held (filteredRec pf code r))
  rw [portValid_rec, finishedRec_idle _ _ _ hfiltered, hd, ht]
  exact hfiltered

theorem stageCollect_track {r : PortRec} (h : r.track = 0) : (stageCollect r).1.track = 0 := by
  unfold stageCollect
  split
  · split
    · exact h
    · split
      · rfl
      · exact h
  · exact h

/-- R11: a tracking point restarts the tracking counter. -/
theorem portValid_tracks (pf : Profile) (card : CardState) (held : Bool) (code : BitVec 12) {r : PortRec}
    (h : 2 ^ pf.k ≤ r.track + 1) : (portValid pf card held code r).1.track = 0 := by
  have htrack : (stageTrack pf card held (filteredRec pf code r)).track = 0 := by
    have hsame : (filteredRec pf code r).track = r.track := (filteredRec_kept pf code r).2.1
    unfold stageTrack
    rw [hsame, if_pos h]
    simp only
    split
    · split <;> rfl
    · rfl
  obtain ⟨f, n, g, m, hd⟩ := stageDeficit_eq pf (stageCollect (stageTrack pf card held (filteredRec pf code r))).1
  rw [portValid_rec, finishedRec, hd]
  exact stageCollect_track htrack

/-- R14: the sample that calibrates its port ends the collection. -/
theorem portValid_calibrates (pf : Profile) (card : CardState) (held : Bool) (code : BitVec 12) {r : PortRec}
    (h : (portValid pf card held code r).2 = some .calibrated) : (portValid pf card held code r).1.cal = none := by
  have hcollect : (stageCollect (stageTrack pf card held (filteredRec pf code r))).2 = some .calibrated := by
    rw [portValid_eq] at h
    unfold losOutcome at h
    split at h
    · exact absurd h (by simp)
    · simpa using h
  have hcal : (stageCollect (stageTrack pf card held (filteredRec pf code r))).1.cal = none := by
    generalize stageTrack pf card held (filteredRec pf code r) = q at hcollect
    unfold stageCollect at hcollect ⊢
    split at hcollect
    · split at hcollect
      · exact absurd hcollect (by simp)
      · split at hcollect
        · next hnot hfull => rw [if_neg hnot, if_pos hfull]
        · exact absurd hcollect (by simp)
    · exact absurd hcollect (by simp)
  obtain ⟨f, n, g, m, hd⟩ := stageDeficit_eq pf (stageCollect (stageTrack pf card held (filteredRec pf code r))).1
  rw [portValid_rec, finishedRec, hd]
  exact hcal

/-- What a valid sample that accepts no card state leaves of PMON around port `p`, before and after its power part: the
other ports and cards, the profiles, the card's accepted state; and its card flags accept nothing. -/
structure AroundSample (s : State) (x : Sample) (t : State) : Prop where
  profiles : t.pmon.profiles = s.pmon.profiles
  others   : ∀ q, q ≠ x.port → t.pmon.ports[q] = s.pmon.ports[q]
  cards    : ∀ d, d ≠ cardOf x.port → t.pmon.cards[d] = s.pmon.cards[d]
  accepted : t.pmon.cards[cardOf x.port].accepted = s.pmon.cards[cardOf x.port].accepted
  rejects  : t.pmon.cards[cardOf x.port].scan = some t.mbp.scan ∨
               (readCard t x.port x.present x.fault).accepted = t.pmon.cards[cardOf x.port].accepted

/-- The port's record is still the one before the sample, and no order holds the port. -/
structure PowerDue (s : State) (x : Sample) (t : State) : Prop where
  around : AroundSample s x t
  port   : t.pmon.ports[x.port] = s.pmon.ports[x.port]
  free   : t.cbc.ports[x.port].hold = none

/-- R1: a record through the stages with the profile it names. -/
def stagesOf (profiles : Vector Profile 8) (card : CardState) (held : Bool) (code : BitVec 12) (r : PortRec) :
    PortRec × Option CalOutcome := portValid profiles[r.profile] card held code r

theorem sampledRec_valid (s : State) (p : Port) (code : BitVec 12) : sampledRec s p code true =
    stagesOf s.pmon.profiles s.pmon.cards[cardOf p].accepted s.cbc.ports[p].hold.isSome code s.pmon.ports[p] := rfl

/-- R1: the record of the sample's port through the stages, the port not held. -/
def stagedRec (s : State) (x : Sample) : PortRec × Option CalOutcome :=
  stagesOf s.pmon.profiles s.pmon.cards[cardOf x.port].accepted false x.code s.pmon.ports[x.port]

/-- The port's record is the one the stages make of it. -/
structure PowerTaken (s : State) (x : Sample) (t : State) : Prop where
  around  : AroundSample s x t
  port    : t.pmon.ports[x.port] = formedRec s.pmon x.port (stagedRec s x).1
  outcome : ∀ o, (stagedRec s x).2 = some o → t.pmon.outcomes[x.port] = some o

section
variable {s t u : State} {x : Sample}

theorem AroundSample.of_pmon (h : AroundSample s x t) (hp : u.pmon = t.pmon) (hm : u.mbp = t.mbp) : AroundSample s x u := by
  obtain ⟨h1, h2, h3, h4, h5⟩ := h
  refine ⟨hp ▸ h1, hp ▸ h2, hp ▸ h3, hp ▸ h4, ?_⟩
  rw [readCard, hp, hm]
  exact h5

theorem pmonCard_rejects (p : Port) (present fault : Bool) (h : t.pmon.cards[cardOf p].scan = some t.mbp.scan ∨
      (readCard t p present fault).accepted = t.pmon.cards[cardOf p].accepted) :
    pmonCard t p present fault = (t.pmon, []) ∨
    pmonCard t p present fault = ({ t.pmon with cards := t.pmon.cards.set (cardOf p) (readCard t p present fault) }, []) ∧
      (readCard t p present fault).accepted = t.pmon.cards[cardOf p].accepted := by
  by_cases hscan : t.pmon.cards[cardOf p].scan = some t.mbp.scan
  · exact .inl (pmonCard_seen t p present fault hscan)
  · have hsame := h.resolve_left hscan
    exact .inr ⟨pmonCard_same t p present fault hscan hsame, hsame⟩

theorem AroundSample.card (h : AroundSample s x t) :
    AroundSample s x (taken 9 (.pmonCard x.port x.present x.fault) t) ∧
    (taken 9 (.pmonCard x.port x.present x.fault) t).pmon.ports = t.pmon.ports ∧
    (taken 9 (.pmonCard x.port x.present x.fault) t).pmon.outcomes = t.pmon.outcomes := by
  have hcalm := taken_card 9 x.port x.present x.fault t
  have hpmon : (taken 9 (.pmonCard x.port x.present x.fault) t).pmon = (pmonCard t x.port x.present x.fault).1 := by
    rw [hcalm.pmon, putPmon_pmon]
  have hmbp : (taken 9 (.pmonCard x.port x.present x.fault) t).mbp = t.mbp := by
    rw [hcalm.mbp, putPmon_mbp]
  generalize taken 9 (.pmonCard x.port x.present x.fault) t = u at hpmon hmbp
  rcases pmonCard_rejects x.port x.present x.fault h.rejects with hcard | ⟨hcard, hsame⟩
  · rw [hcard] at hpmon
    exact ⟨h.of_pmon hpmon hmbp, by rw [hpmon], by rw [hpmon]⟩
  · rw [hcard] at hpmon
    have hread : u.pmon.cards[cardOf x.port] = readCard t x.port x.present x.fault := by
      rw [hpmon]
      exact (getElem_set_fin _ _ _ _).trans (if_pos rfl)
    refine ⟨⟨by rw [hpmon]; exact h.profiles, fun q hq => by rw [hpmon]; exact h.others q hq, fun d hd => ?_, ?_, .inl ?_⟩,
      by rw [hpmon], by rw [hpmon]⟩
    · rw [hpmon]
      exact ((getElem_set_fin _ _ _ _).trans (if_neg hd)).trans (h.cards d hd)
    · rw [hread, hsame, h.accepted]
    · rw [hread, hmbp]
      exact cardReading_scan _

theorem power_stages (hvalid : x.valid = true) (h : PowerDue s x t) :
    PowerTaken s x (taken 9 (.pmonPower x.port x.code x.valid) t) := by
  have hone := taken_power 8 x.port x.code x.valid t
  have hpmon : (taken 9 (.pmonPower x.port x.code x.valid) t).pmon = (pmonPower t x.port x.code x.valid).1 := by
    rw [hone.pmon, putSample_pmon]
  have hmbp : (taken 9 (.pmonPower x.port x.code x.valid) t).mbp = t.mbp := by rw [hone.mbp, putSample_mbp]
  have hstaged : sampledRec t x.port x.code x.valid = stagedRec s x := by
    have hheld : t.cbc.ports[x.port].hold.isSome = false := by rw [h.free]; rfl
    rw [hvalid, sampledRec_valid, h.port, h.around.profiles, h.around.accepted, hheld, stagedRec]
  generalize taken 9 (.pmonPower x.port x.code x.valid) t = u at hpmon hmbp
  have hcards : u.pmon.cards = t.pmon.cards := by rw [hpmon, pmonPower_cards]
  refine ⟨⟨?_, fun q hq => ?_, fun d hd => ?_, ?_, ?_⟩, ?_, fun o ho => ?_⟩
  · rw [hpmon, pmonPower_profiles, h.around.profiles]
  · rw [hpmon, pmonPower_other t x.port x.code x.valid hq, h.around.others q hq]
  · rw [hcards, h.around.cards d hd]
  · rw [hcards, h.around.accepted]
  · rw [readCard, hcards, hmbp]
    exact h.around.rejects
  · rw [hpmon, pmonPower_port, hstaged, formedRec, h.around.accepted]
    rfl
  · rw [hpmon, pmonPower_outcome, hstaged, ho]
    rfl

/-- R1: a valid sample of a port that is not held, its card's state not moving. -/
theorem takeSample_valid (hpop : s.populated x.port = true) (hvalid : x.valid = true)
    (hrejects : s.pmon.cards[cardOf x.port].scan = some (mbpTake s.mbp x).scan ∨
      (cardReading x.present x.fault (mbpTake s.mbp x).scan s.pmon.cards[cardOf x.port]).accepted =
        s.pmon.cards[cardOf x.port].accepted)
    (hfree : s.cbc.ports[x.port].hold = none) : PowerTaken s x (takeSample s x) := by
  refine sample_by_power (P := PowerDue s x) (R := PowerTaken s x) hpop
    (fun t h => ⟨h.around.of_pmon rfl rfl, h.port, h.free⟩) (fun _ t => ?_) (fun t => ?_) (fun t h => power_stages hvalid h)
    ⟨⟨rfl, fun _ _ => rfl, fun _ _ => rfl, rfl, hrejects⟩, rfl, hfree⟩
  · have hcalm := taken_card 9 x.port x.present x.fault t
    constructor
    · intro h
      obtain ⟨haround, hports, _⟩ := h.around.card
      refine ⟨haround, hports ▸ h.port, hcalm.free x.port ?_⟩
      rw [putPmon_cbc]
      exact h.free
    · intro h
      obtain ⟨haround, hports, houtcomes⟩ := h.around.card
      exact ⟨haround, hports ▸ h.port, houtcomes ▸ h.outcome⟩
  · have hone := bit_oneDec 9 x.port x.tagBit x.valid t
    exact ⟨fun h => ⟨h.around.of_pmon hone.pmon hone.mbp, hone.pmon ▸ h.port, hone.free x.port h.free⟩,
      fun h => ⟨h.around.of_pmon hone.pmon hone.mbp, hone.pmon ▸ h.port, hone.pmon ▸ h.outcome⟩⟩

end

/-! ### What is handed on (R20, R21) -/

section
variable {t u : CondType} {o k : Nat} {a b : Bool}

theorem offer_mem_flagChange : AlmChange.offer u k ∈ flagChange t o a b ↔ (u = t ∧ k = o) ∧ a = false ∧ b = true := by
  cases a <;> cases b <;> simp [flagChange]

theorem withdraw_mem_flagChange : AlmChange.withdraw u k ∈ flagChange t o a b ↔ (u = t ∧ k = o) ∧ a = true ∧ b = false := by
  cases a <;> cases b <;> simp [flagChange]

theorem portState_notMem_flagChange {p : Port} {st : PortState} : AlmChange.portState p st ∉ flagChange t o a b := by
  cases a <;> cases b <;> simp [flagChange]

end

/-- A batch for ALM of what PMON hands on. -/
theorem told_iff {cs : List PortChange} {cd : List AlmChange} {before : List Msg} (hbefore : ∀ b, .alm b ∉ before)
    (c : AlmChange) : (∃ batch, .alm batch ∈ before ++ handPorts cs cd ∧ c ∈ batch) ↔
      c ∈ cd ∨ ∃ d ∈ cs, c = .portState d.port d.new := by
  have hmem (b : List AlmChange) : Msg.alm b ∈ before ++ handPorts cs cd ↔
      Msg.alm b ∈ toAlm (cd ++ cs.map fun c => .portState c.port c.new) := by
    simp only [handPorts, List.mem_append, hbefore, false_or]
    constructor
    · rintro (h | h)
      · split at h <;> simp at h
      · exact h
    · exact .inr
  simp only [hmem, mem_toAlm_iff, Msg.alm.injEq]
  constructor
  · rintro ⟨batch, ⟨_, rfl⟩, hc⟩
    rcases List.mem_append.1 hc with hc | hc
    · exact .inl hc
    · obtain ⟨d, hd, rfl⟩ := List.mem_map.1 hc
      exact .inr ⟨d, hd, rfl⟩
  · intro h
    refine ⟨cd ++ cs.map fun c => .portState c.port c.new, ⟨?_, rfl⟩, ?_⟩
    · rintro hnil
      obtain ⟨rfl, hmap⟩ := List.append_eq_nil_iff.1 hnil
      obtain rfl := List.map_eq_nil_iff.1 hmap
      simp at h
    · rw [List.mem_append, List.mem_map]
      exact h.imp id fun ⟨d, hd, hc⟩ => ⟨d, hd, hc.symm⟩

section
variable (s : State) (p : Port) (code : BitVec 12) (valid : Bool)

/-- R20: the change of the port's state that the power part hands on. -/
theorem pmonPower_change : (reformPort (s.pmon.put p (sampledRec s p code valid).1 (sampledRec s p code valid).2) p).2 =
    if (pmonPower s p code valid).1.ports[p].handed = (sampledRec s p code valid).1.handed then []
    else [⟨p, (sampledRec s p code valid).1.handed, (pmonPower s p code valid).1.ports[p].handed⟩] := by
  rw [reformPort_changes, pmonPower_port, (put_puts _ _ _ _).port_same]
  rfl

theorem portValid_handed (pf : Profile) (card : CardState) (held : Bool) (code : BitVec 12) (r : PortRec) :
    (portValid pf card held code r).1.handed = r.handed := by
  obtain ⟨b, f, n, g, m, k, c, h⟩ := finishedRec_eq pf card held (filteredRec pf code r)
  obtain ⟨v, sp, n', hf⟩ := stageFilter_eq pf (litRec pf code r)
  rw [portValid_rec, h]
  unfold filteredRec
  rw [hf]
  split
  · split <;> rfl
  · split <;> rfl

theorem sampledRec_handed : (sampledRec s p code valid).1.handed = s.pmon.ports[p].handed := by
  cases valid with
  | true => exact portValid_handed _ _ _ _ _
  | false => rw [sampledRec_missed, portMissed_eq]

/-- R21: the conditions of the power part are those its port's flags moved by. -/
theorem pmonPower_tells (c : AlmChange) : (∃ batch, .alm batch ∈ (pmonPower s p code valid).2 ∧ c ∈ batch) ↔
    c ∈ portConditions p s.pmon.ports[p] (pmonPower s p code valid).1.ports[p] ∨
    ((pmonPower s p code valid).1.ports[p].handed ≠ s.pmon.ports[p].handed ∧
      c = .portState p (pmonPower s p code valid).1.ports[p].handed) := by
  have hflags : portConditions p s.pmon.ports[p] (pmonPower s p code valid).1.ports[p] =
      portConditions p s.pmon.ports[p] (sampledRec s p code valid).1 := by
    rw [pmonPower_port]
    rfl
  have hnoAlm (b : List AlmChange) : Msg.alm b ∉ (if s.pmon.ports[p].los = (sampledRec s p code valid).1.los then []
      else [Msg.tcdLos p (sampledRec s p code valid).1.los]) := by split <;> simp
  rw [hflags]
  refine (told_iff (cs := (reformPort (s.pmon.put p (sampledRec s p code valid).1 (sampledRec s p code valid).2) p).2)
    hnoAlm c).trans (or_congr Iff.rfl ?_)
  rw [pmonPower_change, sampledRec_handed]
  generalize (pmonPower s p code valid).1.ports[p].handed = new
  generalize s.pmon.ports[p].handed = old
  split
  · next h => simp [h]
  · next h => simp [h]

/-- R20, R32: what the power part hands on besides its batch. -/
theorem pmonPower_hands : ∀ m, (∀ b, m ≠ .alm b) → (m ∈ (pmonPower s p code valid).2 ↔
    (s.pmon.ports[p].los ≠ (pmonPower s p code valid).1.ports[p].los ∧
      m = .tcdLos p (pmonPower s p code valid).1.ports[p].los) ∨
    ((pmonPower s p code valid).1.ports[p].handed ≠ s.pmon.ports[p].handed ∧
      (m = .cbcPorts [⟨p, s.pmon.ports[p].handed, (pmonPower s p code valid).1.ports[p].handed⟩] ∨
       m = .prcPorts [⟨p, s.pmon.ports[p].handed, (pmonPower s p code valid).1.ports[p].handed⟩] ∨
       m = .tselPorts [p]))) := by
  intro m hm
  have hlos : (pmonPower s p code valid).1.ports[p].los = (sampledRec s p code valid).1.los := by
    rw [pmonPower_port, formedRec_los]
  have hmsgs : (pmonPower s p code valid).2 =
      (if s.pmon.ports[p].los = (pmonPower s p code valid).1.ports[p].los then []
        else [.tcdLos p (pmonPower s p code valid).1.ports[p].los]) ++
      handPorts (if (pmonPower s p code valid).1.ports[p].handed = s.pmon.ports[p].handed then []
        else [⟨p, s.pmon.ports[p].handed, (pmonPower s p code valid).1.ports[p].handed⟩])
        (portConditions p s.pmon.ports[p] (sampledRec s p code valid).1) := by
    rw [hlos, ← sampledRec_handed s p code valid, ← pmonPower_change]
    rfl
  have halm (batch : List AlmChange) : m ∉ toAlm batch := fun h => (mem_toAlm_iff.1 h).elim fun _ h => hm _ h
  rw [hmsgs]
  generalize (pmonPower s p code valid).1.ports[p] = new
  simp only [handPorts, List.mem_append, halm, or_false]
  refine or_congr ?_ ?_
  · split
    · next h => simp only [h, List.not_mem_nil, ne_eq, not_true_eq_false, false_and]
    · next h => simp only [h, List.mem_singleton, ne_eq, not_false_eq_true, true_and]
  · split
    · next h => simp only [h, List.isEmpty_nil, if_true, List.not_mem_nil, ne_eq, not_true_eq_false, false_and]
    · next h =>
      simp only [h, List.isEmpty_cons, Bool.false_eq_true, if_false, List.mem_cons, List.not_mem_nil, or_false, ne_eq,
        not_false_eq_true, true_and, List.map_cons, List.map_nil]

end

/-- R21: a card's conditions as its flags' acceptance moves them. -/
theorem pmonCard_tells (s : State) (p : Port) (present fault : Bool) (c : AlmChange) (hc : ∀ q st, c ≠ .portState q st) :
    (∃ batch, .alm batch ∈ (pmonCard s p present fault).2 ∧ c ∈ batch) ↔
      c ∈ cardConditions (cardOf p) s.pmon.cards[cardOf p].accepted (pmonCard s p present fault).1.cards[cardOf p].accepted := by
  have hsame (x : CardState) : c ∉ cardConditions (cardOf p) x x := by
    cases x <;> simp [cardConditions, flagChange]
  by_cases hscan : s.pmon.cards[cardOf p].scan = some s.mbp.scan
  · rw [pmonCard_seen s p present fault hscan]
    simp only [hsame, List.not_mem_nil, false_and, exists_false]
  · by_cases hacc : (readCard s p present fault).accepted = s.pmon.cards[cardOf p].accepted
    · rw [pmonCard_same s p present fault hscan hacc, getElem_set_fin, if_pos rfl, hacc]
      simp only [hsame, List.not_mem_nil, false_and, exists_false]
    · rw [pmonCard_accepts s p present fault hscan hacc, acceptedPmon_cards, getElem_set_fin, if_pos rfl]
      refine (told_iff (before := []) (fun _ => List.not_mem_nil) c).trans ?_
      simp only [hc, and_false, exists_false, or_false]

theorem acceptsCard_iff (s : State) (x : Sample) : acceptsCard s x = true ↔
    s.start.ready = true ∧ s.populated x.port = true ∧ x.valid = true ∧
    s.pmon.cards[cardOf x.port].scan ≠ some (mbpTake s.mbp x).scan ∧
    (cardReading x.present x.fault (mbpTake s.mbp x).scan s.pmon.cards[cardOf x.port]).accepted ≠
      s.pmon.cards[cardOf x.port].accepted := by
  simp only [acceptsCard, sampleTaken, Bool.and_eq_true, decide_eq_true_eq, and_assoc]

theorem card_rejects {s : State} {x : Sample} (hready : s.start.ready = true) (hpop : s.populated x.port = true)
    (hvalid : x.valid = true) (h : acceptsCard s x = false) :
    s.pmon.cards[cardOf x.port].scan = some (mbpTake s.mbp x).scan ∨
    (cardReading x.present x.fault (mbpTake s.mbp x).scan s.pmon.cards[cardOf x.port]).accepted =
      s.pmon.cards[cardOf x.port].accepted := by
  by_contra hnot
  obtain ⟨hscan, hacc⟩ := not_or.1 hnot
  rw [(acceptsCard_iff s x).2 ⟨hready, hpop, hvalid, hscan, hacc⟩] at h
  exact absurd h (by decide)

/-- Settles O8: the stages of a valid sample, what its two parts hand on, and the sample in any order of its messages. -/
theorem aValidSampleTakesItsPortThroughTheStages : Obligations.AValidSampleTakesItsPortThroughTheStages := by
  unfold Obligations.AValidSampleTakesItsPortThroughTheStages
  refine ⟨fun card r => rfl, fun s p code valid => ?_, fun s p present fault => ?_,
    fun x s c hc hready hpop hvalid hnot hfree => ?_⟩
  · have htells := pmonPower_tells s p code valid
    have hhands := pmonPower_hands s p code valid
    simp only
    generalize (pmonPower s p code valid).1.ports[p] = new at htells hhands ⊢
    generalize s.pmon.ports[p] = old at htells hhands ⊢
    simp only [htells, portConditions, List.mem_append, offer_mem_flagChange, withdraw_mem_flagChange,
      portState_notMem_flagChange, reduceCtorEq, and_false, false_and, or_false, false_or, true_and]
    refine ⟨fun b => ?_, fun hmoved => ?_, fun hsame cs ps st => ?_⟩
    · rw [hhands (.tcdLos p b) nofun]
      simp only [Msg.tcdLos.injEq, reduceCtorEq, true_and, or_false, and_false]
      constructor
      · rintro ⟨h, rfl⟩
        exact ⟨h, rfl⟩
      · rintro ⟨h, rfl⟩
        exact ⟨h, rfl⟩
    · rw [hhands (.cbcPorts _) nofun, hhands (.prcPorts _) nofun, hhands (.tselPorts _) nofun]
      exact ⟨.inr ⟨hmoved, .inl rfl⟩, .inr ⟨hmoved, .inr (.inl rfl)⟩, .inr ⟨hmoved, .inr (.inr rfl)⟩, hmoved, trivial⟩
    · rw [hhands (.cbcPorts cs) nofun, hhands (.prcPorts cs) nofun, hhands (.tselPorts ps) nofun]
      simp only [hsame, ne_eq, not_true_eq_false, reduceCtorEq, and_false, false_and, or_self, not_false_eq_true, and_self]
  · have htells := pmonCard_tells s p present fault
    simp only
    rw [htells (.offer .cardOut _) nofun, htells (.withdraw .cardOut _) nofun, htells (.offer .cardFault _) nofun,
      htells (.withdraw .cardFault _) nofun]
    generalize (pmonCard s p present fault).1.cards[cardOf p].accepted = new
    generalize s.pmon.cards[cardOf p].accepted = old
    simp only [cardConditions, List.mem_append, offer_mem_flagChange, withdraw_mem_flagChange, reduceCtorEq, false_and,
      or_false, false_or, true_and, decide_eq_true_eq, decide_eq_false_iff_not, ne_eq, and_self]
  · obtain ⟨haround, hport, houtcome⟩ := takeSample_valid hpop hvalid (card_rejects hready hpop hvalid hnot) hfree
    have hexec : exec c s = .next (takeSample s x) := by
      obtain rfl | ⟨rfl, hc⟩ | ⟨rfl, hc⟩ := hc
      · exact exec_sample x hready
      · exact whenever_true hc _ _
      · exact whenever_true hc _ _
    refine ⟨takeSample s x, hexec, hport, fun htrack => ?_, fun hcal => ?_, haround.others, haround.profiles, haround.cards,
      ?_, takeSample_unchanged s x⟩
    · obtain rfl | ⟨_, hc⟩ | ⟨rfl, _⟩ := hc
      · exact absurd htrack nofun
      · simp only [isTrackingPoint, Bool.and_eq_true, decide_eq_true_eq] at hc
        rw [hport]
        exact portValid_tracks _ _ _ _ hc.2
      · exact absurd htrack nofun
    · obtain rfl | ⟨rfl, _⟩ | ⟨_, hc⟩ := hc
      · exact absurd hcal nofun
      · exact absurd hcal nofun
      · simp only [calibratesPort, Bool.and_eq_true, decide_eq_true_eq, hfree] at hc
        refine ⟨?_, houtcome _ hc.2⟩
        rw [hport]
        exact portValid_calibrates _ _ _ _ hc.2
    · rw [takeSample_mbp, mbpTake_last]

/-! ### A card state accepted (R19) -/

/-- Before the card flags of the sample are taken: the cards are as they were, and so are the other ports. -/
structure CardDue (s : State) (x : Sample) (t : State) : Prop where
  profiles : t.pmon.profiles = s.pmon.profiles
  cards    : t.pmon.cards = s.pmon.cards
  others   : ∀ q, q ≠ x.port → t.pmon.ports[q] = s.pmon.ports[q]
  mbp      : t.mbp = mbpTake s.mbp x

/-- After them: the card in the state `new`, its ports formed, emptied and idle as that asks. -/
structure CardTaken (s : State) (x : Sample) (new : CardState) (m : Pmon) : Prop where
  accepted : m.cards[cardOf x.port].accepted = new
  count    : m.cards[cardOf x.port].count = 0
  cards    : ∀ d, d ≠ cardOf x.port → m.cards[d] = s.pmon.cards[d]
  profiles : m.profiles = s.pmon.profiles
  formed   : ∀ q, cardOf q = cardOf x.port → m.ports[q].handed = portStateOf new m.ports[q]
  idle     : new ≠ .inService → ∀ q, cardOf q = cardOf x.port → m.ports[q].cal = none
  emptied  : s.pmon.cards[cardOf x.port].accepted = .out → ∀ q, cardOf q = cardOf x.port → q ≠ x.port →
               m.ports[q].smoothed = none ∧ m.ports[q].spike = .clear
  others   : ∀ q, cardOf q ≠ cardOf x.port → m.ports[q] = s.pmon.ports[q]

theorem cardStateOf_cases (present fault : Bool) : cardStateOf present fault = .inService ∨
    cardStateOf present fault = .out ∨ cardStateOf present fault = .faulty := by
  cases present <;> cases fault <;> simp [cardStateOf]

theorem cardPort_cal {new : CardState} (old : CardState) (r : PortRec) (h : new = .out ∨ new = .faulty) :
    (cardPort old new r).1.cal = none := by
  have hend (q : PortRec) : (endCal .failedEquip q).1.cal = none := by
    unfold endCal
    split
    · rfl
    · next hcal => exact Option.not_isSome_iff_eq_none.1 hcal
  unfold cardPort
  simp only
  rw [if_pos h]
  exact hend _

theorem cardPort_inserted {new : CardState} (r : PortRec) (h : new = .inService ∨ new = .faulty) :
    (cardPort .out new r).1.smoothed = none ∧ (cardPort .out new r).1.spike = .clear := by
  have hend (q : PortRec) : (endCal .failedEquip q).1.smoothed = q.smoothed ∧ (endCal .failedEquip q).1.spike = q.spike := by
    unfold endCal
    split <;> exact ⟨rfl, rfl⟩
  unfold cardPort
  simp only [h, and_self, if_true]
  split
  · exact hend _
  · exact ⟨rfl, rfl⟩

theorem formedRec_handed (m : Pmon) (p : Port) (r : PortRec) :
    (formedRec m p r).handed = portStateOf m.cards[cardOf p].accepted (formedRec m p r) := rfl

section
variable {s t : State} {x : Sample}

theorem card_accepts (hscan : s.pmon.cards[cardOf x.port].scan ≠ some (mbpTake s.mbp x).scan)
    (hacc : (cardReading x.present x.fault (mbpTake s.mbp x).scan s.pmon.cards[cardOf x.port]).accepted ≠
      s.pmon.cards[cardOf x.port].accepted) (h : CardDue s x t) :
    CardTaken s x (cardStateOf x.present x.fault) (taken 9 (.pmonCard x.port x.present x.fault) t).pmon := by
  have hread : readCard t x.port x.present x.fault =
      cardReading x.present x.fault (mbpTake s.mbp x).scan s.pmon.cards[cardOf x.port] := by
    rw [readCard, h.mbp, h.cards]
  obtain ⟨hnew, hcount⟩ := cardReading_accepts hacc
  rw [← hread] at hnew hcount hacc
  have hcard : pmonCard t x.port x.present x.fault = _ :=
    pmonCard_accepts t x.port x.present x.fault (by rw [h.mbp, h.cards]; exact hscan) (by rw [h.cards]; exact hacc)
  have hpmon : (taken 9 (.pmonCard x.port x.present x.fault) t).pmon = (acceptedPmon t x.port x.present x.fault).1 := by
    rw [(taken_card 9 x.port x.present x.fault t).pmon, putPmon_pmon, hcard]
  have hport := acceptedPmon_port t x.port x.present x.fault
  have hcards := acceptedPmon_cards t x.port x.present x.fault
  have hprofiles := acceptedPmon_profiles t x.port x.present x.fault
  rw [hpmon]
  generalize (acceptedPmon t x.port x.present x.fault).1 = m at hport hcards hprofiles
  have hown : m.cards[cardOf x.port] = readCard t x.port x.present x.fault := by
    rw [hcards]
    exact (getElem_set_fin _ _ _ _).trans (if_pos rfl)
  refine ⟨by rw [hown, hnew], by rw [hown, hcount], fun d hd => ?_, hprofiles.trans h.profiles, fun q hq => ?_,
    fun hout q hq => ?_, fun hwas q hq hne => ?_, fun q hq => ?_⟩
  · rw [hcards, getElem_set_fin, if_neg hd, h.cards]
  · have hcard : m.cards[cardOf q] = m.cards[cardOf x.port] := congrArg (fun c : Card => m.cards[c]) hq
    rw [hport, if_pos hq, formedRec_handed, hcard, hown, hnew]
  · rw [hport, if_pos hq, hnew]
    exact cardPort_cal _ _ ((cardStateOf_cases x.present x.fault).resolve_left hout)
  · rw [hport, if_pos hq, hnew, h.cards, hwas]
    have hout : cardStateOf x.present x.fault ≠ .out := by rwa [← hnew, ← hwas]
    exact cardPort_inserted _ ((cardStateOf_cases x.present x.fault).imp_right fun k => k.resolve_left hout)
  · rw [hport, if_neg hq]
    exact h.others q fun heq => hq (congrArg cardOf heq)

theorem power_keeps_card (hvalid : x.valid = true) (new : CardState) (t : State) :
    (CardDue s x t → CardDue s x (taken 9 (.pmonPower x.port x.code x.valid) t)) ∧
    (CardTaken s x new t.pmon → CardTaken s x new (taken 9 (.pmonPower x.port x.code x.valid) t).pmon) := by
  have hone := taken_power 8 x.port x.code x.valid t
  have hpmon : (taken 9 (.pmonPower x.port x.code x.valid) t).pmon = (pmonPower t x.port x.code x.valid).1 := by
    rw [hone.pmon, putSample_pmon]
  have hmbp : (taken 9 (.pmonPower x.port x.code x.valid) t).mbp = t.mbp := by rw [hone.mbp, putSample_mbp]
  generalize taken 9 (.pmonPower x.port x.code x.valid) t = u at hpmon hmbp
  have hcards : u.pmon.cards = t.pmon.cards := by rw [hpmon, pmonPower_cards]
  have hprofiles : u.pmon.profiles = t.pmon.profiles := by rw [hpmon, pmonPower_profiles]
  have hother (q : Port) (hq : q ≠ x.port) : u.pmon.ports[q] = t.pmon.ports[q] := by
    rw [hpmon, pmonPower_other t x.port x.code x.valid hq]
  have hown : u.pmon.ports[x.port] = formedRec t.pmon x.port (sampledRec t x.port x.code x.valid).1 := by
    rw [hpmon, pmonPower_port]
  refine ⟨fun h => ⟨hprofiles.trans h.profiles, hcards.trans h.cards, fun q hq => (hother q hq).trans (h.others q hq),
    hmbp.trans h.mbp⟩, fun h => ⟨by rw [hcards, h.accepted], by rw [hcards, h.count], fun d hd => by rw [hcards, h.cards d hd],
    hprofiles.trans h.profiles, fun q hq => ?_, fun hout q hq => ?_, fun hwas q hq hne => ?_, fun q hq => ?_⟩⟩
  · by_cases hsame : q = x.port
    · subst hsame
      rw [hown, formedRec_handed, h.accepted]
    · rw [hother q hsame]
      exact h.formed q hq
  · by_cases hsame : q = x.port
    · subst hsame
      rw [hown, hvalid, sampledRec_valid]
      exact portValid_idle _ _ _ _ (h.idle hout _ rfl)
    · rw [hother q hsame]
      exact h.idle hout q hq
  · rw [hother q hne]
    exact h.emptied hwas q hq hne
  · rw [hother q fun heq => hq (congrArg cardOf heq)]
    exact h.others q hq

/-- R19: a valid sample whose card flags are accepted. -/
theorem takeSample_accepts (hpop : s.populated x.port = true) (hvalid : x.valid = true)
    (hscan : s.pmon.cards[cardOf x.port].scan ≠ some (mbpTake s.mbp x).scan)
    (hacc : (cardReading x.present x.fault (mbpTake s.mbp x).scan s.pmon.cards[cardOf x.port]).accepted ≠
      s.pmon.cards[cardOf x.port].accepted) :
    CardTaken s x (cardStateOf x.present x.fault) (takeSample s x).pmon := by
  refine sample_by_card (P := CardDue s x) (R := fun t => CardTaken s x (cardStateOf x.present x.fault) t.pmon) hpop hvalid
    (fun t h => ⟨h.profiles, h.cards, h.others, h.mbp⟩) (fun t => power_keeps_card hvalid _ t) (fun t => ?_)
    (fun t h => card_accepts hscan hacc h) ⟨rfl, rfl, fun _ _ => rfl, rfl⟩
  have hone := bit_oneDec 9 x.port x.tagBit x.valid t
  exact ⟨fun h => ⟨hone.pmon ▸ h.profiles, hone.pmon ▸ h.cards, hone.pmon ▸ h.others, hone.mbp.trans h.mbp⟩,
    fun h => hone.pmon ▸ h⟩

end

/-- Settles O10: eight readings in a row, and the sample that accepts in any order of its messages. -/
theorem cardStatesAreAccepted : Obligations.CardStatesAreAccepted := by
  unfold Obligations.CardStatesAreAccepted
  refine ⟨fun present fault c scans hpair hcount hpos hlen => ?_, fun x s haccepts => ?_⟩
  · rcases Nat.lt_or_ge scans.length 8 with hfew | hfull
    · obtain ⟨hcand, hacc, hn⟩ := cardReadings_count hpair hcount scans hpos (by omega)
      exact ⟨hcand, fun _ => ⟨hacc, hn⟩, fun h => absurd h (by omega)⟩
    · obtain ⟨hcand, hacc, hn⟩ := cardReadings_accept hpair hcount scans (by omega)
      exact ⟨hcand, fun h => absurd h (by omega), fun _ => ⟨hacc, hn⟩⟩
  · obtain ⟨_, hpop, hvalid, hscan, hacc⟩ := (acceptsCard_iff s x).1 haccepts
    have h := takeSample_accepts hpop hvalid hscan hacc
    refine ⟨takeSample s x, whenever_true haccepts _ _, h.accepted, h.count, h.formed, fun hout q hq => ⟨h.idle hout q hq, ?_⟩,
      h.emptied, h.others, h.cards, h.profiles, takeSample_unchanged s x⟩
    rw [h.formed q hq]
    exact if_pos ((cardStateOf_cases x.present x.fault).resolve_left hout)

end Sys2Proof.Proofs
end

