-- ==== Sys2Proof/Proofs/Clock.lean ====
section
/-! A step on an empty queue: what is due is queued, or a period passes (logs 1, 33, 40, 59). -/

namespace Sys2Proof.Proofs

open Sys2Proof.Machine Sys2Proof.Safety Sys2Proof.Laws

/-! ### What a period leaves of the blocks' tables -/

theorem tickTsel_ref (t : Tsel) (r : RefIx) :
    (tickTsel t).refs[r] = { t.refs[r] with silence := countDown t.refs[r].silence } := ofFn_fin _ r

theorem tickTsel_eq (t : Tsel) : tickTsel t = { t with
    refs := (tickTsel t).refs, warmUp := countDown t.warmUp, steer := countDown t.steer, age := tickAge t } := rfl

theorem tickAlm_entry (a : Alm) (i : EntryIx) :
    (tickAlm a).entries[i] = { a.entries[i] with alarm := a.entries[i].alarm.map tickAlarm } := ofFn_fin _ i

theorem tickAlm_eq (a : Alm) : tickAlm a = { a with entries := (tickAlm a).entries } := rfl

theorem tickCiu_input (v : Vector ContactIn 8) (i : InputIx) :
    (tickCiu v)[i] = { v[i] with timer := countDown v[i].timer } := ofFn_fin _ i

theorem tickGroup_eq (g : Group) : tickGroup g =
    { g with mons := (tickGroup g).mons, wait := (tickGroup g).wait, confirm := (tickGroup g).confirm } := rfl

theorem tickGroup_restore {g : Group} {m : Nat} {n : Option Nat} (h : g.wait = some (.restore m n)) :
    (tickGroup g).wait = some (.restore m (countDown n)) := by simp only [tickGroup, h, Option.map_some]

theorem tickGroup_noRestore {g : Group} (h : ∀ m n, g.wait ≠ some (.restore m n)) : (tickGroup g).wait = g.wait := by
  cases hw : g.wait with
  | none => simp only [tickGroup, hw, Option.map_none]
  | some w =>
    cases w with
    | restore m n => exact absurd hw (h m n)
    | stay m => simp only [tickGroup, hw, Option.map_some]

theorem tickGroup_running {g : Group} {n : Nat} (h : g.confirm = .running n) :
    (tickGroup g).confirm = .running (n - 1) := by simp only [tickGroup, h]

theorem tickGroup_notRunning {g : Group} (h : ∀ n, g.confirm ≠ .running n) : (tickGroup g).confirm = g.confirm := by
  cases hc : g.confirm with
  | idle => simp only [tickGroup, hc]
  | running n => exact absurd hc (h n)
  | expired => simp only [tickGroup, hc]

section
variable (s : State)

/-- The state before its generation words are stamped. -/
def tickedState : State := { s with
  start := { s.start with periods := s.start.periods + 1, frameDue := true }
  cbc := tickCbc s.cbc, prc := tickPrc s.prc, tsel := tickTsel s.tsel, alm := tickAlm s.alm, ciu := tickCiu s.ciu }

theorem tickReady_eq : tickReady s = { tickedState s with gens := (tickReady s).gens } := by
  unfold tickReady stampTiming stampOrders stampGroups
  rfl

theorem tickReady_ports : (tickReady s).gens.ports = s.gens.ports := by
  unfold tickReady stampTiming stampOrders stampGroups
  rfl

theorem tickReady_unchanged : unchangedBut [.start, .cbc, .prc, .tsel, .alm, .ciu, .gens] s (tickReady s) := by
  intro q hq
  rw [tickReady_eq]
  cases q <;> simp [Part.same, tickedState] at hq ⊢

/-- What is due is queued, one command of it. -/
theorem tick_due (h : due s ≠ []) : ∃ c ∈ due s, (tick s).pending = [c] ∧ unchangedBut [.pending, .choices] s (tick s) := by
  unfold tick
  have hperm := freely_perm (due s) s
  simp only
  split
  · next c cs hcs =>
    refine ⟨c, hperm.mem_iff.1 (hcs ▸ List.mem_cons_self), rfl, ?_⟩
    intro q hq
    rcases freely_state (due s) s with hs | hs <;> rw [hs] <;> cases q <;> simp [Part.same] at hq ⊢
  · next hcs =>
    rw [hcs] at hperm
    exact absurd hperm.nil_eq.symm h

theorem tick_idle (h : due s = []) : tick s = if s.start.ready then tickReady s else tickInit s := by
  unfold tick
  rw [h]
  rfl

end

/-- Settles O2: each timer by the rule for its block. -/
theorem anEmptyQueueTakesWhatIsDue : Obligations.AnEmptyQueueTakesWhatIsDue := by
  unfold Obligations.AnEmptyQueueTakesWhatIsDue
  intro s hempty
  have hstep : step s = .next (tick s) := by
    unfold step
    rw [hempty]
  refine ⟨fun hdue => ?_, fun hidle hready => ?_, fun hidle hinit => ?_⟩
  · obtain ⟨c, hc, hpending, hrest⟩ := tick_due s hdue
    exact ⟨c, hc, tick s, hstep, hpending, hrest⟩
  · rw [tick_idle s hidle, if_pos hready] at hstep
    refine ⟨tickReady s, hstep, ?_⟩
    have hframe := tickReady_unchanged s
    have hports := tickReady_ports s
    generalize hgens : (tickReady s).gens = gens at hports
    have heq : tickReady s = { tickedState s with gens := gens } := by rw [← hgens]; exact tickReady_eq s
    rw [heq] at hframe ⊢
    refine ⟨rfl, tickCbc_port s.cbc, tickCbc_order s.cbc, fun gi => ⟨fun hg => ?_, fun g hg => ?_⟩, rfl,
      tickTsel_ref s.tsel, tickTsel_eq s.tsel, fun i => ?_, tickAlm_eq s.alm, tickCiu_input s.ciu, hports, hframe⟩
    · exact (tickPrc_group s.prc gi).trans (by rw [hg]; rfl)
    · refine ⟨tickGroup g, (tickPrc_group s.prc gi).trans (by rw [hg]; rfl), tickGroup_mon g, fun m n => tickGroup_restore,
        tickGroup_noRestore, fun n => tickGroup_running, tickGroup_notRunning, tickGroup_eq g⟩
    · have hentry : (tickedState s).alm.entries[i] = { s.alm.entries[i] with alarm := s.alm.entries[i].alarm.map tickAlarm } :=
        tickAlm_entry s.alm i
      simp only
      rw [hentry]
      refine ⟨rfl, fun hnone => by rw [hnone]; rfl, fun x hx => ?_⟩
      rw [hx]
      refine ⟨fun n hn => ?_, fun hn => ?_, fun n hn => ?_⟩
      all_goals simp only [Option.map_some, tickAlarm, hn]
      rw [← hn]
  · rw [tick_idle s hidle, hinit] at hstep
    exact hstep

end Sys2Proof.Proofs
end

