-- ==== Sys2Proof/Proofs/LineFrames.lean ====
section
/-! Line control frames: what each carries, and a tag frame sent whole (R36, R92, R96, R101). -/

namespace Sys2Proof.Proofs

open Sys2Proof.Machine Sys2Proof.Safety Sys2Proof.Laws

/-! ### Members (R79) -/

section
variable {g : Group} {p : Port} {m : Nat}

theorem memberOf_prot (h : g.prot = p) : g.memberOf p = some 0 := if_pos h

/-- R61, R79: the number of a working member. -/
theorem memberOf_work (hnd : (g.prot :: g.work).Nodup) (h : g.work[m]? = some p) : g.memberOf p = some (m + 1) := by
  obtain ⟨hm, hget⟩ := List.getElem?_eq_some_iff.1 h
  obtain ⟨hprot, hwork⟩ := List.nodup_cons.1 hnd
  have hne : g.prot ≠ p := fun heq => hprot (heq ▸ hget ▸ List.getElem_mem hm)
  have hfind : g.work.findIdx? (· == p) = some m := by
    rw [List.findIdx?_eq_some_iff_getElem]
    refine ⟨hm, by simp [hget], fun j hj => ?_⟩
    have hjm : g.work[j] ≠ g.work[m] := fun heq => by
      have := (hwork.getElem_inj_iff (hi := by omega) (hj := hm)).1 heq
      omega
    simpa [hget] using hjm
  unfold Group.memberOf
  rw [if_neg hne, hfind]
  rfl

theorem memberOf_notWork (h : p ∉ g.work) : g.memberOf p = none ∨ g.memberOf p = some 0 := by
  unfold Group.memberOf
  split
  · exact .inr rfl
  · have hfind : g.work.findIdx? (· == p) = none := by
      rw [List.findIdx?_eq_none_iff]
      intro q hq
      simpa using fun heq : q = p => h (heq ▸ hq)
    rw [hfind]
    exact .inl rfl

end

section
variable {c : Prc} {p : Port}

/-- R79: the one group a port is a working member of. -/
theorem workingOf_some {gi : GroupIx} {g : Group} {m : Nat} (hg : c.groups[gi] = some g) (hm : g.memberOf p = some (m + 1))
    (hothers : ∀ (j : GroupIx) h, c.groups[j] = some h → j ≠ gi → p ∉ h.work) : workingOf c p = some (gi, g, m + 1) := by
  unfold workingOf
  obtain ⟨before, after, hsplit⟩ := List.append_of_mem (List.mem_finRange gi)
  have hnd : (before ++ gi :: after).Nodup := hsplit ▸ List.nodup_finRange 16
  have hne : ∀ j ∈ before, j ≠ gi := by
    rintro j hj rfl
    exact (List.nodup_append.1 hnd).2.2 j hj j List.mem_cons_self rfl
  refine List.findSome?_eq_some_iff.2 ⟨before, gi, after, hsplit, ?_, fun j hj => ?_⟩
  · simp only [hg, hm, Nat.add_one_ne_zero, if_false]
  · cases hj' : c.groups[j] with
    | none => rfl
    | some h =>
      rcases memberOf_notWork (hothers j h hj' (hne j hj)) with hno | hzero
      · simp only [hno]
      · simp only [hzero, if_true]

theorem workingOf_none (h : ∀ (j : GroupIx) g, c.groups[j] = some g → p ∉ g.work) : workingOf c p = none := by
  unfold workingOf
  refine List.findSome?_eq_none_iff.2 fun j _ => ?_
  cases hj : c.groups[j] with
  | none => rfl
  | some g =>
    rcases memberOf_notWork (h j g hj) with hno | hzero
    · simp only [hno]
    · simp only [hzero, if_true]

theorem protOut_frozen {o : ProtOut} (h : c.frozen[p] = some o) : protOut c p = o := by
  unfold protOut
  rw [h]

theorem protOut_member {gi : GroupIx} {g : Group} {m : Nat} (h : c.frozen[p] = none) (hw : workingOf c p = some (gi, g, m)) :
    protOut c p = { partner := some g.prot, bridge := g.bridged == m, select := g.selected == m } := by
  unfold protOut
  rw [h, hw]

theorem protOut_none (h : c.frozen[p] = none) (hw : workingOf c p = none) :
    protOut c p = { partner := none, bridge := false, select := false } := by
  unfold protOut
  rw [h, hw]

end

/-! ### Frames sent -/

theorem getLsbD_bits (a b c d : Bool) (i : Fin 4) :
    (BitVec.ofNat 4 (bitsNat [a, b, c, d])).getLsbD i = [a, b, c, d][i] := by
  revert a b c d i
  decide

theorem tapsOf_bit (t : Tsel) (p : Port) (i : Fin 4) :
    (tapsOf t p).getLsbD i = decide (t.refs[i.val + 2].tap = some p) := by
  refine (getLsbD_bits _ _ _ _ i).trans ?_
  fin_cases i <;> rfl

section
variable (s : State)

/-- R36: TCD as a frame in READY leaves it. -/
def sentTcd : Tcd := { tcdLatch s with pos := nextPos (tcdLatch s).pos }

theorem sendFrame_ready (h : s.start.ready = true) : sendFrame s = { s with
    start := { s.start with frameDue := false }, lcp := Vector.ofFn (lcpPort s (tcdLatch s)), tcd := sentTcd s } := by
  unfold sendFrame
  exact if_pos h

theorem sendFrame_init (h : s.start.ready = false) : sendFrame s = { s with
    start := { s.start with frameDue := false }, lcp := Vector.ofFn (lcpInit s) } := by
  unfold sendFrame
  refine if_neg ?_
  simp [h]

theorem tcdLatch_pos : (tcdLatch s).pos = s.tcd.pos := by
  unfold tcdLatch
  split <;> rfl

theorem tcdLatch_decs : (tcdLatch s).decs = s.tcd.decs := by
  unfold tcdLatch
  split <;> rfl

theorem tcdLatch_frame (p : Port) :
    (tcdLatch s).latched[p] = if s.tcd.pos = 0 then latchFrame s p else s.tcd.latched[p] := by
  unfold tcdLatch
  split
  · exact ofFn_fin _ _
  · rfl

theorem sendFrame_bit (h : s.start.ready = true) (p : Port) : (sendFrame s).lcp[p].tagBit =
    (if s.tcd.pos = 0 then latchFrame s p else s.tcd.latched[p]).getMsbD s.tcd.pos := by
  rw [sendFrame_ready s h, ← tcdLatch_frame, ← tcdLatch_pos]
  exact congrArg LcpPort.tagBit (ofFn_fin _ _)

/-- R36: what `k + 1` frames from frame position 0 leave of a port. -/
theorem frames_sent (p : Port) (hready : s.start.ready = true) (hpos : s.tcd.pos = 0) {k : Nat} (hk : k < 56) :
    (sendFrame^[k + 1] s).start.ready = true ∧ (sendFrame^[k + 1] s).tcd.pos = nextPos k ∧
    (sendFrame^[k + 1] s).tcd.latched[p] = latchFrame s p ∧
    (sendFrame^[k + 1] s).lcp[p].tagBit = (latchFrame s p).getMsbD k := by
  induction k with
  | zero =>
    refine ⟨?_, ?_, ?_, ?_⟩
    · rw [Function.iterate_one, sendFrame_ready s hready]
      exact hready
    · rw [Function.iterate_one, sendFrame_ready s hready, ← hpos, ← tcdLatch_pos s]
      rfl
    · rw [Function.iterate_one, sendFrame_ready s hready]
      exact (tcdLatch_frame s p).trans (if_pos hpos)
    · rw [Function.iterate_one, sendFrame_bit s hready, if_pos hpos, hpos]
  | succ k ih =>
    obtain ⟨hr, hp, hl, _⟩ := ih (by omega)
    have hnext : nextPos k = k + 1 := if_pos (by omega)
    rw [hnext] at hp
    rw [Function.iterate_succ_apply']
    generalize sendFrame^[k + 1] s = t at hr hp hl
    refine ⟨?_, ?_, ?_, ?_⟩
    · rw [sendFrame_ready t hr]
      exact hr
    · rw [sendFrame_ready t hr, ← hp, ← tcdLatch_pos t]
      rfl
    · rw [sendFrame_ready t hr]
      exact (tcdLatch_frame t p).trans ((if_neg (by omega)).trans hl)
    · rw [sendFrame_bit t hr, if_neg (by omega), hl, hp]

end

/-- Settles O15: the group a port works in, the two kinds of frame, and 56 frames by induction. -/
theorem lineControlFrames : Obligations.LineControlFrames := by
  unfold Obligations.LineControlFrames
  refine ⟨fun c p => ⟨fun o => protOut_frozen, fun gi g m hfrozen hg hm hnd hothers => ?_, fun hfrozen hno => ?_⟩,
    fun s => ⟨sendFrame s, rfl, fun hready => ?_, fun hinit => ?_, ?_, ?_⟩, fun s p hready hpos => ⟨fun k hk => ?_, ?_⟩⟩
  · rw [protOut_member hfrozen (workingOf_some hg (memberOf_work hnd hm) hothers)]
    rfl
  · exact protOut_none hfrozen (workingOf_none hno)
  · refine ⟨fun p => ⟨sendFrame_bit s hready p, ?_⟩, ?_, ?_⟩
    · rw [sendFrame_ready s hready]
      have hport : (Vector.ofFn (lcpPort s (tcdLatch s)))[p] = lcpPort s (tcdLatch s) p := ofFn_fin _ _
      simp only
      rw [hport]
      exact ⟨rfl, rfl, rfl, tapsOf_bit s.tsel p⟩
    · rw [sendFrame_ready s hready, ← tcdLatch_pos s]
      rfl
    · rw [sendFrame_ready s hready, ← tcdLatch_decs s]
      rfl
  · rw [sendFrame_init s hinit]
    refine ⟨fun p => ?_, rfl⟩
    have hport : (Vector.ofFn (lcpInit s))[p] = lcpInit s p := ofFn_fin _ _
    simp only
    rw [hport]
    unfold lcpInit
    cases s.prc.frozen[p] <;> exact ⟨rfl, rfl, rfl, rfl, rfl⟩
  · cases hready : s.start.ready with
    | true => rw [sendFrame_ready s hready]
    | false => rw [sendFrame_init s hready]
  · intro q hq
    cases hready : s.start.ready with
    | true =>
      rw [sendFrame_ready s hready]
      cases q <;> simp [Part.same] at hq ⊢
    | false =>
      rw [sendFrame_init s hready]
      cases q <;> simp [Part.same] at hq ⊢
  · obtain ⟨_, _, _, hbit⟩ := frames_sent s p hready hpos hk
    exact hbit
  · obtain ⟨_, hend, _, _⟩ := frames_sent s p hready hpos (k := 55) (by decide)
    have hzero : nextPos 55 = 0 := rfl
    rw [hzero] at hend
    simpa only [Nat.reduceAdd] using hend

end Sys2Proof.Proofs
end

