-- ==== Sys2Proof/Proofs/Presence.lean ====
section
/-! Which conditions an event leaves present (R125, R126): the batch it hands ALM decides, whatever its other hand-ons. -/

namespace Sys2Proof.Proofs

open Sys2Proof.Machine Sys2Proof.Safety Sys2Proof.Laws

/-! ### The present set after a batch -/

theorem takenWork_context (s : State) (before a : Alm) (events : List JBody) (offered dropped : List (CondType × Nat)) :
    SameContext a (takenWork s before a events offered dropped).alm := by
  refine foldl_keeps (f := takeCandidate s) (P := fun w => SameContext a w.alm) (fun w c hw => ?_) _
    (gradedWork_context s a events dropped)
  exact hw.trans (takeCandidate_takes s w c).context

theorem almMove_context (s : State) (before a : Alm) (events : List JBody) (offered dropped : List (CondType × Nat)) :
    SameContext a (almMove s before a events offered dropped).1 := by
  rw [almMove_eq]
  exact (takenWork_context s before a events offered dropped).trans (almFinish_context before _)

/-- R126: a batch leaves the present set and the copies as its changes make them. -/
theorem almBatch_context (s : State) (b : List AlmChange) : SameContext (b.foldl applyChange s.alm) (almBatch s b).1 :=
  almMove_context s s.alm _ _ _ _

/-! ### One condition -/

/-- The changes that put a condition into the present set or take it out. -/
def names (t : CondType) (o : Nat) : AlmChange → Bool
  | .offer u k | .withdraw u k | .drop u k => decide (u = t ∧ k = o)
  | .event _ _ _ _ | .portState _ _ | .hold _ _ | .tap _ _ | .group _ _ | .role _ => false

section
variable {t : CondType} {o : Nat}

theorem mem_erase_other {c d : CondType × Nat} (h : c ≠ d) (l : List (CondType × Nat)) : c ∈ l.erase d ↔ c ∈ l :=
  List.mem_erase_of_ne h

theorem ne_of_names {u : CondType} {k : Nat} (h : ¬(u = t ∧ k = o)) : (t, o) ≠ (u, k) := fun heq =>
  h ⟨(congrArg Prod.fst heq).symm, (congrArg Prod.snd heq).symm⟩

theorem isPresent_other {c : AlmChange} (h : names t o c = false) (a : Alm) :
    (applyChange a c).isPresent t o = a.isPresent t o := by
  unfold Alm.isPresent
  refine decide_eq_decide.2 ?_
  cases c with
  | offer u k =>
    have hne := ne_of_names (of_decide_eq_false h)
    exact (mem_insertCond _ _ _).trans (or_iff_right hne)
  | withdraw u k =>
    have hne := ne_of_names (of_decide_eq_false h)
    exact mem_erase_other hne _
  | drop u k =>
    have hne := ne_of_names (of_decide_eq_false h)
    exact mem_erase_other hne _
  | _ => exact Iff.rfl

theorem isPresent_offer (a : Alm) : (applyChange a (.offer t o)).isPresent t o = true :=
  decide_eq_true ((mem_insertCond _ _ _).2 (.inl rfl))

theorem isPresent_others {cs : List AlmChange} (h : ∀ c ∈ cs, names t o c = false) (a : Alm) :
    (cs.foldl applyChange a).isPresent t o = a.isPresent t o := by
  induction cs generalizing a with
  | nil => rfl
  | cons c cs ih =>
    rw [List.foldl_cons, ih fun d hd => h d (List.mem_cons_of_mem _ hd)]
    exact isPresent_other (h c List.mem_cons_self) a

/-- A batch that offers a condition, and does not take it back, leaves it present. -/
theorem isPresent_offered {before after : List AlmChange} (h : ∀ c ∈ after, names t o c = false) (a : Alm) :
    ((before ++ .offer t o :: after).foldl applyChange a).isPresent t o = true := by
  rw [List.foldl_append, List.foldl_cons, isPresent_others h]
  exact isPresent_offer _

/-! ### An event's batch among its hand-ons -/

/-- A message that leaves the condition present or absent, with everything it sets off. -/
def KeepsCond (t : CondType) (o : Nat) (m : Msg) : Prop :=
  ∀ n s, (taken n m s).alm.isPresent t o = s.alm.isPresent t o

theorem taken_alm_low {m : Msg} (h : m.rank < 2) (n : Nat) (s : State) : (taken n m s).alm = s.alm := by
  have hdeliver : (deliver m s).1.alm = s.alm := deliver_unchanged 2 m s h .alm (by decide)
  have hrest : (taken n m s).alm = (deliver m s).1.alm :=
    settle_unchanged 2 n _ _ (fun x hx => Nat.lt_trans (deliver_below m s x hx) h) .alm (by decide)
  rw [hrest, hdeliver]

theorem keepsCond_low {m : Msg} (h : m.rank < 2) : KeepsCond t o m := fun n s => by rw [taken_alm_low h]

theorem taken_batch (n : Nat) (b : List AlmChange) (s : State) : (taken n (.alm b) s).alm = (almBatch s b).1 := by
  have hrest : (taken n (.alm b) s).alm = (deliver (.alm b) s).1.alm :=
    settle_unchanged 2 n _ _ (deliver_below (.alm b) s) .alm (by decide)
  rw [hrest]
  rfl

/-- Where a batch of an event settles a condition, and no other hand-on moves it, the event does. -/
theorem settle_present {ms rest : List Msg} {b : List AlmChange} {present : Bool} (hperm : ms.Perm (.alm b :: rest))
    (hrest : ∀ m ∈ rest.flatMap Msg.expand, KeepsCond t o m) {s : State}
    (hb : ∀ a : Alm, a.isPresent t o = s.alm.isPresent t o → (b.foldl applyChange a).isPresent t o = present) (n : Nat) :
    (settle (n + 1) ms s).alm.isPresent t o = present := by
  refine settle_once (P := fun u => u.alm.isPresent t o = s.alm.isPresent t o)
    (R := fun u => u.alm.isPresent t o = present) rfl hperm (fun u hu => hu) (fun m hm u hu => ?_) (fun u hu => ?_)
    (fun m hm u hu => ?_) rfl
  · rw [hrest m hm n u, hu]
  · rw [taken_batch, (almBatch_context u b).isPresent]
    exact hb u.alm hu
  · rw [hrest m hm n u, hu]

end

end Sys2Proof.Proofs
end

