-- ==== Sys2Proof/Proofs/TagWaits.lean ====
section
/-! The events that judge a port's cabling again: tag waits, port states, tag records, roles (R42 to R44). -/

namespace Sys2Proof.Proofs

open Sys2Proof.Machine Sys2Proof.Safety Sys2Proof.Laws

/-! ### What CBC tells ALM of one port (R44) -/

/-- Whether a change offers or withdraws a condition of the port. -/
def isAbout (p : Port) : AlmChange → Bool
  | .offer _ o | .withdraw _ o => o == p.val
  | .drop _ _ | .event _ _ _ _ | .portState _ _ | .hold _ _ | .tap _ _ | .group _ _ | .role _ => false

/-- The offers and withdrawals of a port's conditions, in order. -/
def toldOf (p : Port) (cs : List AlmChange) : List AlmChange := cs.filter (isAbout p)

theorem toldOf_append (p : Port) (a b : List AlmChange) : toldOf p (a ++ b) = toldOf p a ++ toldOf p b :=
  List.filter_append _ _

theorem offer_mem_told {p : Port} {t : CondType} {cs : List AlmChange} :
    AlmChange.offer t p ∈ cs ↔ AlmChange.offer t p ∈ toldOf p cs := by simp [toldOf, isAbout]

theorem withdraw_mem_told {p : Port} {t : CondType} {cs : List AlmChange} :
    AlmChange.withdraw t p ∈ cs ↔ AlmChange.withdraw t p ∈ toldOf p cs := by simp [toldOf, isAbout]

theorem toldOf_holds (p : Port) (ps : List Port) (h : Bool) : toldOf p (ps.map fun q => .hold q h) = [] := by
  simp [toldOf, isAbout]

theorem mem_cabChange {p : Port} {old new : CabState} {c : AlmChange} : c ∈ cabChange p old new ↔
    cabCondition old ≠ cabCondition new ∧
    ((∃ t, cabCondition old = some t ∧ c = .withdraw t p) ∨ ∃ t, cabCondition new = some t ∧ c = .offer t p) := by
  unfold cabChange
  split
  · next h => simp [h]
  · next h =>
    rw [List.mem_append]
    refine ⟨fun hc => ⟨h, hc.imp ?_ ?_⟩, fun hc => hc.2.imp ?_ ?_⟩
    · cases cabCondition old <;> simp
    · cases cabCondition new <;> simp
    · cases cabCondition old <;> simp
    · cases cabCondition new <;> simp

theorem toldOf_cabChange_same (p : Port) (old new : CabState) : toldOf p (cabChange p old new) = cabChange p old new := by
  refine List.filter_eq_self.2 fun c hc => ?_
  obtain ⟨_, ⟨t, _, rfl⟩ | ⟨t, _, rfl⟩⟩ := mem_cabChange.1 hc <;> simp [isAbout]

theorem toldOf_cabChange_other {p q : Port} (h : q ≠ p) (old new : CabState) : toldOf p (cabChange q old new) = [] := by
  refine List.filter_eq_nil_iff.2 fun c hc => ?_
  obtain ⟨_, ⟨t, _, rfl⟩ | ⟨t, _, rfl⟩⟩ := mem_cabChange.1 hc <;> simpa [isAbout, Fin.ext_iff] using h

theorem offer_mem_cabChange {p : Port} {old new : CabState} {t : CondType} :
    AlmChange.offer t p ∈ cabChange p old new ↔ cabCondition new = some t ∧ cabCondition old ≠ some t := by
  rw [mem_cabChange]
  constructor
  · rintro ⟨hne, ⟨u, _, hu⟩ | ⟨u, hnew, hu⟩⟩
    · cases hu
    · cases hu
      exact ⟨hnew, fun hold => hne (hold.trans hnew.symm)⟩
  · rintro ⟨hnew, hold⟩
    exact ⟨fun h => hold (h.trans hnew), .inr ⟨t, hnew, rfl⟩⟩

theorem withdraw_mem_cabChange {p : Port} {old new : CabState} {t : CondType} :
    AlmChange.withdraw t p ∈ cabChange p old new ↔ cabCondition old = some t ∧ cabCondition new ≠ some t := by
  rw [mem_cabChange]
  constructor
  · rintro ⟨hne, ⟨u, hold, hu⟩ | ⟨u, _, hu⟩⟩
    · cases hu
      exact ⟨hold, fun hnew => hne (hold.trans hnew.symm)⟩
    · cases hu
  · rintro ⟨hold, hnew⟩
    exact ⟨fun h => hnew (h.symm.trans hold), .inl ⟨t, hold, rfl⟩⟩

/-- The batch CBC hands ALM. -/
theorem cbcEnd_tells (w : CbcWork) (c : AlmChange) : (∃ b, .alm b ∈ (cbcEnd w).2 ∧ c ∈ b) ↔ c ∈ w.alm := by
  have hmem (b : List AlmChange) : Msg.alm b ∈ (cbcEnd w).2 ↔ w.alm ≠ [] ∧ b = w.alm := by
    have hholds : Msg.alm b ∉ handHolds w.released false := by
      unfold handHolds
      split <;> simp
    have hexpect : Msg.alm b ∉ (if w.expected.isEmpty then [] else [Msg.prcExpect w.expected]) := by split <;> simp
    have hjrn : Msg.alm b ∉ toJrn w.recs := by
      unfold toJrn
      split <;> simp
    simp only [cbcEnd, List.mem_append, hholds, hexpect, hjrn, or_false, false_or, mem_toAlm_iff, Msg.alm.injEq]
  simp only [hmem]
  constructor
  · rintro ⟨b, ⟨_, rfl⟩, hc⟩
    exact hc
  · exact fun hc => ⟨w.alm, ⟨List.ne_nil_of_mem hc, rfl⟩, hc⟩

/-! ### A port that an event judges (R44) -/

section
variable (s : State) (w : CbcWork) (p q : Port)

theorem reevaluate_told_other (h : q ≠ p) : toldOf p (reevaluate s w q).alm = toldOf p w.alm := by
  rw [reevaluate_alm, toldOf_append, toldOf_cabChange_other h, List.append_nil]

theorem reevaluate_told_same : toldOf p (reevaluate s w p).alm =
    toldOf p w.alm ++ cabChange p w.cbc.ports[p].state (reevaluate s w p).cbc.ports[p].state := by
  rw [reevaluate_alm, toldOf_append, toldOf_cabChange_same, reevaluate_port, if_pos rfl]
  rfl

/-- No order of the work lists the port. -/
def UnlistedIn : Prop := ∀ (i : OrderIx) (o : Order), w.cbc.orders[i] = some o → p ∉ o.ports

/-- The port shows the cabling state of the table over its record. -/
def JudgedIn : Prop := w.cbc.ports[p].state = cablingState s w.cbc.ports[p] p

theorem judgedIn_of_rec {r : CabRec} (h : w.cbc.ports[p] = judgedRec s p r) : JudgedIn s w p := by
  rw [JudgedIn, h]
  exact judgedRec_state s p r

end

/-- Work that goes on without the port: its record and what was told of it stay, and no order comes to list it. -/
structure Spares (p : Port) (w w' : CbcWork) : Prop where
  port     : w'.cbc.ports[p] = w.cbc.ports[p]
  told     : toldOf p w'.alm = toldOf p w.alm
  unlisted : UnlistedIn w p → UnlistedIn w' p

section
variable {s : State} {w w' w'' : CbcWork} {p : Port}

theorem Spares.refl (p : Port) (w : CbcWork) : Spares p w w := ⟨rfl, rfl, id⟩

theorem Spares.trans (h : Spares p w w') (k : Spares p w' w'') : Spares p w w'' :=
  ⟨k.port.trans h.port, k.told.trans h.told, fun hu => k.unlisted (h.unlisted hu)⟩

theorem reevaluate_spares (w : CbcWork) {q : Port} (h : q ≠ p) : Spares p w (reevaluate s w q) :=
  ⟨by rw [reevaluate_port, if_neg (Ne.symm h)], reevaluate_told_other s w p q h, id⟩

theorem releaseHolds_spares (w : CbcWork) {ps : List Port} (h : p ∉ ps) : Spares p w (releaseHolds s w ps) := by
  refine ⟨by rw [releaseHolds_port, if_neg h], ?_, fun hu i o ho => hu i o ?_⟩
  · have hfree : (ps.foldl (unholdPort s) w).alm = w.alm :=
      foldl_same (f := unholdPort s) (v := fun w : CbcWork => w.alm) (fun _ _ => rfl) ps w
    have hjudged (qs : List Port) (hq : p ∉ qs) (v : CbcWork) :
        toldOf p (qs.foldl (reevaluate s) v).alm = toldOf p v.alm := by
      induction qs generalizing v with
      | nil => rfl
      | cons q qs ih =>
        obtain ⟨hpq, hqs⟩ := not_or.1 (mt List.mem_cons.2 hq)
        rw [List.foldl_cons, ih hqs, reevaluate_told_other s v p q (Ne.symm hpq)]
    refine (hjudged ps h _).trans ?_
    simp only
    rw [hfree, toldOf_append, toldOf_holds, List.append_nil]
  · rwa [releaseHolds_orders] at ho

theorem putOrder_spares (w : CbcWork) (i : OrderIx) {o : Order} (h : UnlistedIn w p → p ∉ o.ports) :
    Spares p w (putOrder w i o) := by
  refine ⟨rfl, rfl, fun hu j o' ho' => ?_⟩
  rw [putOrder_order] at ho'
  split at ho'
  · cases ho'
    exact h hu
  · exact hu j o' ho'

theorem closeGood_spares (w : CbcWork) (i : OrderIx) {o : Order} (h : p ∉ o.ports) : Spares p w (closeGood s w i o) :=
  (releaseHolds_spares w h).trans (putOrder_spares _ i fun _ => h)

/-- R54: an order's items judged leave the ports of no order. -/
theorem judgeOrder_spares (ports : List Port) (hu : UnlistedIn w p) (i : OrderIx) :
    Spares p w (judgeOrder s ports w i) := by
  cases hi : w.cbc.orders[i] with
  | none => rw [judgeOrder_free hi]; exact .refl p w
  | some o =>
    by_cases hsame : o.state ≠ .verifying ∨ judgedItems s ports o = o.items
    · rw [judgeOrder_stays hi hsame]; exact .refl p w
    · obtain ⟨hst, hitems⟩ := not_or.1 hsame
      have hports : p ∉ ({ o with items := judgedItems s ports o } : Order).ports := by
        have := hu i o hi
        rwa [← judgedItems_ports s ports o] at this
      rw [judgeOrder_moves hi (not_not.1 hst) hitems]
      split
      · exact closeGood_spares w i hports
      · refine ⟨rfl, rfl, fun hu j o' ho' => ?_⟩
        have ho' := (getElem_set_fin _ _ _ _).symm.trans ho'
        split at ho'
        · cases ho'
          exact hports
        · exact hu j o' ho'

theorem judgeOrders_spares (ports : List Port) (hu : UnlistedIn w p) :
    Spares p w (allOrders.foldl (judgeOrder s ports) w) :=
  foldl_keeps (f := judgeOrder s ports) (P := Spares p w)
    (fun _ i h => h.trans (judgeOrder_spares ports (h.unlisted hu) i)) _ (.refl p w)

/-- R43, R46: an order that closes judges its ports again; the others stay. -/
theorem judgeOrder_judged (ports : List Port) (h : JudgedIn s w p) (i : OrderIx) : JudgedIn s (judgeOrder s ports w i) p := by
  cases hi : w.cbc.orders[i] with
  | none => rwa [judgeOrder_free hi]
  | some o =>
    by_cases hsame : o.state ≠ .verifying ∨ judgedItems s ports o = o.items
    · rwa [judgeOrder_stays hi hsame]
    · obtain ⟨hst, hitems⟩ := not_or.1 hsame
      rw [judgeOrder_moves hi (not_not.1 hst) hitems]
      split
      · unfold JudgedIn closeGood
        rw [putOrder_ports, releaseHolds_port]
        split
        · exact judgedRec_state s p _
        · exact h
      · exact h

theorem judgeOrders_judged (ports : List Port) (h : JudgedIn s w p) :
    JudgedIn s (allOrders.foldl (judgeOrder s ports) w) p :=
  foldl_keeps (f := judgeOrder s ports) (P := fun w => JudgedIn s w p) (fun _ i h => judgeOrder_judged ports h i) _ h

end

/-! ### The three events that judge ports -/

/-- R44: what an event makes of a port it judges, whose record was `r` and is `r'` once its tag wait is restarted. -/
structure Rejudges (s : State) (p : Port) (r r' : CabRec) (w : CbcWork) : Prop where
  judged : JudgedIn s w p
  alone  : (∀ (i : OrderIx) o, s.cbc.orders[i] = some o → p ∉ o.ports) →
             w.cbc.ports[p] = judgedRec s p r' ∧ toldOf p w.alm = cabChange p r.state w.cbc.ports[p].state

/-- R42: a record with its tag wait restarted, if it is. -/
def restartedRec (s : State) (restart : Bool) (r : CabRec) : CabRec := if restart then waitingRec s r else r

section
variable (s : State)

@[simp] theorem restartedRec_state (b : Bool) (r : CabRec) : (restartedRec s b r).state = r.state := by
  cases b <;> rfl

theorem cbcPort_eq (w : CbcWork) (c : PortChange) : cbcPort s w c =
    reevaluate s (if !c.old.lit && c.new.lit then startTagWait s w c.port else w) c.port := rfl

theorem cbcPort_port (w : CbcWork) (c : PortChange) (q : Port) : (cbcPort s w c).cbc.ports[q] =
    if q = c.port then judgedRec s q (restartedRec s (!c.old.lit && c.new.lit) w.cbc.ports[q]) else w.cbc.ports[q] := by
  rw [cbcPort_eq, reevaluate_port]
  by_cases hq : q = c.port
  · subst hq
    rw [if_pos rfl, if_pos rfl, restartedRec]
    split
    · rw [startTagWait_port, if_pos rfl]
    · rfl
  · rw [if_neg hq, if_neg hq]
    split
    · rw [startTagWait_port, if_neg hq]
    · rfl

theorem cbcPort_orders (w : CbcWork) (c : PortChange) : (cbcPort s w c).cbc.orders = w.cbc.orders := by
  rw [cbcPort_eq, reevaluate_orders]
  split <;> rfl

theorem cbcPort_told_other (w : CbcWork) (c : PortChange) {p : Port} (h : c.port ≠ p) :
    toldOf p (cbcPort s w c).alm = toldOf p w.alm := by
  rw [cbcPort_eq, reevaluate_told_other s _ p c.port h]
  split <;> rfl

theorem cbcPort_told_same (w : CbcWork) (c : PortChange) : toldOf c.port (cbcPort s w c).alm =
    toldOf c.port w.alm ++ cabChange c.port w.cbc.ports[c.port].state (cbcPort s w c).cbc.ports[c.port].state := by
  rw [cbcPort_eq, reevaluate_told_same]
  split
  · rw [startTagWait_port, if_pos rfl, startTagWait_alm]
    rfl
  · rfl

theorem cbcPort_spares (w : CbcWork) (c : PortChange) {p : Port} (h : c.port ≠ p) : Spares p w (cbcPort s w c) := by
  refine ⟨by rw [cbcPort_port, if_neg (Ne.symm h)], cbcPort_told_other s w c h, fun hu i o ho => hu i o ?_⟩
  rwa [cbcPort_orders] at ho

theorem cbcPorts_spares (cs : List PortChange) {p : Port} (h : p ∉ cs.map (·.port)) (w : CbcWork) :
    Spares p w (cs.foldl (cbcPort s) w) := by
  induction cs generalizing w with
  | nil => exact .refl p w
  | cons c cs ih =>
    rw [List.map_cons, List.mem_cons, not_or] at h
    exact (cbcPort_spares s w c (Ne.symm h.1)).trans (ih h.2 _)

theorem rejudges_orders (ports : List Port) {p : Port} {r r' : CabRec} {w : CbcWork} (h : Rejudges s p r r' w)
    (horders : w.cbc.orders = s.cbc.orders) : Rejudges s p r r' (allOrders.foldl (judgeOrder s ports) w) := by
  refine ⟨judgeOrders_judged ports h.judged, fun hu => ?_⟩
  obtain ⟨hport, htold⟩ := h.alone hu
  have hspares := judgeOrders_spares (s := s) (w := w) (p := p) ports fun i o ho => hu i o (horders ▸ ho)
  rw [hspares.port, hspares.told]
  exact ⟨hport, htold⟩

/-- R44: the port of one change among several. -/
theorem cbcPorts_rejudges {cs : List PortChange} (hnd : (cs.map (·.port)).Nodup) {c : PortChange} (hc : c ∈ cs) :
    Rejudges s c.port s.cbc.ports[c.port] (restartedRec s (!c.old.lit && c.new.lit) s.cbc.ports[c.port])
      (allOrders.foldl (judgeOrder s (cs.map (·.port))) (cs.foldl (cbcPort s) (cbcBegin s))) := by
  have horders : (cs.foldl (cbcPort s) (cbcBegin s)).cbc.orders = s.cbc.orders :=
    foldl_same (f := cbcPort s) (v := fun w : CbcWork => w.cbc.orders) (cbcPort_orders s) cs (cbcBegin s)
  refine rejudges_orders s _ ?_ horders
  obtain ⟨before, after, rfl⟩ := List.append_of_mem hc
  rw [List.map_append, List.map_cons] at hnd
  obtain ⟨_, hafter, hapart⟩ := List.nodup_append.1 hnd
  have hbefore : c.port ∉ before.map (·.port) := fun h => hapart _ h _ List.mem_cons_self rfl
  have hfirst := cbcPorts_spares s before hbefore (cbcBegin s)
  have hlast := cbcPorts_spares s after (List.nodup_cons.1 hafter).1
    (cbcPort s (before.foldl (cbcPort s) (cbcBegin s)) c)
  rw [List.foldl_append, List.foldl_cons]
  have hport : (after.foldl (cbcPort s) (cbcPort s (before.foldl (cbcPort s) (cbcBegin s)) c)).cbc.ports[c.port] =
      judgedRec s c.port (restartedRec s (!c.old.lit && c.new.lit) s.cbc.ports[c.port]) := by
    rw [hlast.port, cbcPort_port, if_pos rfl, hfirst.port]
    rfl
  refine ⟨judgedIn_of_rec s _ c.port hport, fun _ => ⟨hport, ?_⟩⟩
  rw [hlast.told, hlast.port, cbcPort_told_same, hfirst.told, hfirst.port]
  rfl

omit s in
theorem cbcEnd_port (w : CbcWork) (q : Port) : (cbcEnd w).1.ports[q] = w.cbc.ports[q] := rfl

theorem cbcPorts_eq (cs : List PortChange) : cbcPorts s cs =
    cbcEnd (allOrders.foldl (judgeOrder s (cs.map (·.port))) (cs.foldl (cbcPort s) (cbcBegin s))) := rfl

theorem cbcTag_eq (p : Port) : cbcTag s p = cbcEnd (allOrders.foldl (judgeOrder s [p]) (reevaluate s (cbcBegin s) p)) := rfl

theorem cbcTag_rejudges (p : Port) : Rejudges s p s.cbc.ports[p] s.cbc.ports[p]
    (allOrders.foldl (judgeOrder s [p]) (reevaluate s (cbcBegin s) p)) := by
  refine rejudges_orders s _ ?_ rfl
  have hport : (reevaluate s (cbcBegin s) p).cbc.ports[p] = judgedRec s p s.cbc.ports[p] := by
    rw [reevaluate_port, if_pos rfl]
    rfl
  exact ⟨judgedIn_of_rec s _ p hport, fun _ => ⟨hport, reevaluate_told_same s (cbcBegin s) p⟩⟩

/-- R42, R44: the work of a changed role. -/
def roleWork (p : Port) (old : Role) : CbcWork :=
  reevaluate s (if old = .spare then startTagWait s (cbcBegin s) p else cbcBegin s) p

theorem cbcRole_eq (p : Port) (old : Role) : cbcRole s p old = cbcEnd (roleWork s p old) := rfl

theorem cbcRole_rejudges (p : Port) (old : Role) : Rejudges s p s.cbc.ports[p]
    (restartedRec s (decide (old = .spare)) s.cbc.ports[p]) (roleWork s p old) := by
  have hport : (roleWork s p old).cbc.ports[p] = judgedRec s p (restartedRec s (decide (old = .spare)) s.cbc.ports[p]) := by
    rw [roleWork, reevaluate_port, if_pos rfl]
    by_cases h : old = .spare
    · rw [if_pos h, startTagWait_port, if_pos rfl, decide_eq_true h]
      rfl
    · rw [if_neg h, decide_eq_false h]
      rfl
  refine ⟨judgedIn_of_rec s _ p hport, fun _ => ⟨hport, ?_⟩⟩
  have htold := reevaluate_told_same s (if old = .spare then startTagWait s (cbcBegin s) p else cbcBegin s) p
  rw [roleWork, htold]
  by_cases h : old = .spare
  · rw [if_pos h, startTagWait_port, if_pos rfl, startTagWait_alm]
    rfl
  · rw [if_neg h]
    rfl

theorem cbcRole_spares {p q : Port} (h : q ≠ p) (old : Role) : Spares q (cbcBegin s) (roleWork s p old) := by
  refine Spares.trans (w' := if old = .spare then startTagWait s (cbcBegin s) p else cbcBegin s) ?_
    (reevaluate_spares _ (Ne.symm h))
  split
  · exact ⟨by rw [startTagWait_port, if_neg h], rfl, id⟩
  · exact .refl _ _

end

/-- What `Rejudges` says of the event's state and of what it tells ALM. -/
theorem Rejudges.said {s : State} {p : Port} {restart : Bool} {w : CbcWork}
    (h : Rejudges s p s.cbc.ports[p] (restartedRec s restart s.cbc.ports[p]) w) :
    (cbcEnd w).1.ports[p].state = cablingState s (cbcEnd w).1.ports[p] p ∧
    ((∀ (i : OrderIx) o, s.cbc.orders[i] = some o → p ∉ o.items.map (·.port)) →
      (cbcEnd w).1.ports[p] = { s.cbc.ports[p] with
        state := (cbcEnd w).1.ports[p].state, tagWait := (cbcEnd w).1.ports[p].tagWait } ∧
      (restart = true → (cbcEnd w).1.ports[p].tagWait = some (s.rqu.shelf.tagWait * 4)) ∧
      (restart = false → (cbcEnd w).1.ports[p].tagWait = s.cbc.ports[p].tagWait) ∧
      ∀ t, ((∃ b, .alm b ∈ (cbcEnd w).2 ∧ .offer t p ∈ b) ↔
          cabCondition (cbcEnd w).1.ports[p].state = some t ∧ cabCondition s.cbc.ports[p].state ≠ some t) ∧
        ((∃ b, .alm b ∈ (cbcEnd w).2 ∧ .withdraw t p ∈ b) ↔
          cabCondition s.cbc.ports[p].state = some t ∧ cabCondition (cbcEnd w).1.ports[p].state ≠ some t)) := by
  refine ⟨h.judged, fun hu => ?_⟩
  obtain ⟨hport, htold⟩ := h.alone hu
  refine ⟨?_, ?_, ?_, fun t => ⟨?_, ?_⟩⟩
  · refine hport.trans ?_
    rw [show (cbcEnd w).1.ports[p] = w.cbc.ports[p] from rfl, hport]
    cases restart <;> rfl
  · rintro rfl
    exact congrArg CabRec.tagWait hport
  · rintro rfl
    exact (congrArg CabRec.tagWait hport).trans rfl
  · rw [cbcEnd_tells, offer_mem_told, htold, offer_mem_cabChange]
    rfl
  · rw [cbcEnd_tells, withdraw_mem_told, htold, withdraw_mem_cabChange]
    rfl

theorem lit_iff (st : PortState) : st.lit = true ↔ st = .clear ∨ st = .degrade ∨ st = .fail := by
  cases st <;> simp [PortState.lit]

/-! ### A tag wait that runs out (R42) -/

section
variable (s : State) (p : Port)

/-- R42: the work of a tag wait that has elapsed. -/
def elapsedWork : CbcWork :=
  reevaluate s ((cbcBegin s).put p { s.cbc.ports[p] with tagWait := none }) p

theorem cbcTagWait_eq : cbcTagWait s p = cbcEnd (elapsedWork s p) := rfl

theorem elapsedWork_port (q : Port) : (elapsedWork s p).cbc.ports[q] =
    if q = p then judgedRec s p { s.cbc.ports[p] with tagWait := none } else s.cbc.ports[q] := by
  rw [elapsedWork, reevaluate_port, put_port, put_port]
  by_cases hq : q = p
  · rw [if_pos hq, if_pos hq, if_pos rfl]
  · rw [if_neg hq, if_neg hq, if_neg hq]
    rfl

theorem elapsedWork_alm : (elapsedWork s p).alm =
    cabChange p s.cbc.ports[p].state (cablingState s { s.cbc.ports[p] with tagWait := none } p) := by
  have hput : ((cbcBegin s).put p { s.cbc.ports[p] with tagWait := none }).cbc.ports[p] =
      { s.cbc.ports[p] with tagWait := none } := by rw [put_port, if_pos rfl]
  rw [elapsedWork, reevaluate_alm, hput]
  rfl

theorem cbcTagWait_msgs : (cbcTagWait s p).2 = toAlm (elapsedWork s p).alm := by
  rw [cbcTagWait_eq]
  simp only [cbcEnd]
  have hrest : (elapsedWork s p).released = [] ∧ (elapsedWork s p).expected = [] ∧ (elapsedWork s p).recs = [] := ⟨rfl, rfl, rfl⟩
  obtain ⟨hreleased, hexpected, hrecs⟩ := hrest
  rw [hreleased, hexpected, hrecs]
  simp [handHolds, toJrn]

/-- A batch alone that offers a condition in the place of another. -/
theorem cabChange_presents {old new : CabState} {t : CondType} (hnew : cabCondition new = some t)
    (hold : cabCondition old ≠ some t) {n : Nat} {u : State} :
    (settle (n + 1) (toAlm (cabChange p old new)) u).alm.isPresent t p = true := by
  obtain ⟨before, hbatch⟩ : ∃ before, cabChange p old new = before ++ [.offer t p] := by
    unfold cabChange
    rw [if_neg (by rw [hnew]; exact hold)]
    refine ⟨_, congrArg (HAppend.hAppend _) ?_⟩
    simp only [hnew]
  have hmsgs : toAlm (cabChange p old new) = [.alm (cabChange p old new)] := by
    rw [hbatch]
    unfold toAlm
    simp
  rw [hmsgs]
  refine settle_present (rest := []) (.refl _) (by simp) (fun a _ => ?_) n
  rw [hbatch]
  exact isPresent_offered (by simp) a

theorem tagWait_untagged (h : Judged s { s.cbc.ports[p] with tagWait := none } p ∧
      s.cbc.ports[p].expect.kind = .tag ∧ s.pmon.ports[p].handed ≠ .dark) (htag : s.tcd.decs[p].tag = none) :
    cablingState s { s.cbc.ports[p] with tagWait := none } p = .untagged := by
  rw [cablingState_expectTag h, htag]
  rfl

end

theorem exec_tagWaitExpiry {s : State} {p : Port} {n : Nat} (hready : s.start.ready = true)
    (hwait : s.cbc.ports[p].tagWait = some n) :
    exec (.tagWaitExpiry p) s = .next (settled (putCbc s (cbcTagWait s p))) :=
  whenever_true (by rw [hready, hwait]; rfl) _ _

/-- Settles O17: each event by the port it judges. -/
theorem aTagWaitRunsOut : Obligations.ATagWaitRunsOut := by
  unfold Obligations.ATagWaitRunsOut
  refine ⟨fun s => ⟨fun cs hnd => ⟨fun c hc => ?_, fun q hq hu => ?_⟩, fun p => ⟨?_, fun q hq hu => ?_, fun old =>
    ⟨?_, fun q hq hu => ?_⟩⟩⟩, fun p s n hready hwait => ?_⟩
  · rw [cbcPorts_eq]
    obtain ⟨hstate, hrest⟩ := (cbcPorts_rejudges s hnd hc).said
    refine ⟨hstate, fun hu => ?_⟩
    obtain ⟨heq, hyes, hno, htells⟩ := hrest hu
    have hrestart : (!c.old.lit && c.new.lit) = true ↔
        ¬(c.old = .clear ∨ c.old = .degrade ∨ c.old = .fail) ∧ (c.new = .clear ∨ c.new = .degrade ∨ c.new = .fail) := by
      rw [Bool.and_eq_true, Bool.not_eq_true', ← lit_iff, ← lit_iff, Bool.not_eq_true]
    exact ⟨heq, fun h => hyes (hrestart.2 h), fun h => hno (Bool.eq_false_iff.2 (mt hrestart.1 h)), htells⟩
  · have hfirst := cbcPorts_spares s cs hq (cbcBegin s)
    rw [cbcPorts_eq]
    exact (cbcEnd_port _ q).trans (hfirst.trans (judgeOrders_spares _ (hfirst.unlisted hu))).port
  · rw [cbcTag_eq]
    obtain ⟨hstate, hrest⟩ := Rejudges.said (restart := false) (cbcTag_rejudges s p)
    refine ⟨hstate, fun hu => ?_⟩
    obtain ⟨heq, _, hno, htells⟩ := hrest hu
    exact ⟨heq, False.elim, fun _ => hno rfl, htells⟩
  · have hfirst := reevaluate_spares (s := s) (cbcBegin s) (Ne.symm hq)
    rw [cbcTag_eq]
    exact (cbcEnd_port _ q).trans (hfirst.trans (judgeOrders_spares _ (hfirst.unlisted hu))).port
  · rw [cbcRole_eq]
    obtain ⟨hstate, hrest⟩ := (cbcRole_rejudges s p old).said
    refine ⟨hstate, fun hu => ?_⟩
    obtain ⟨heq, hyes, hno, htells⟩ := hrest hu
    exact ⟨heq, fun h => hyes (decide_eq_true h), fun h => hno (decide_eq_false h), htells⟩
  · rw [cbcRole_eq]
    exact (cbcEnd_port _ q).trans (cbcRole_spares s hq old).port
  · refine ⟨settled (putCbc s (cbcTagWait s p)), exec_tagWaitExpiry hready hwait, ?_⟩
    have hbelow : Below 3 (cbcTagWait s p).2 := by rw [cbcTagWait_msgs]; exact below_toAlm 3 _ (by decide)
    have hcbc : (settled (putCbc s (cbcTagWait s p))).cbc = (cbcTagWait s p).1 :=
      settled_same 3 .cbc (putCbc s (cbcTagWait s p)) hbelow (by decide)
    have hport (q : Port) := (congrArg (fun c : Cbc => c.ports[q]) hcbc).trans (elapsedWork_port s p q)
    refine ⟨(hport p).trans (if_pos rfl), fun hfree hpop hrole hkind hlit htag => ?_, fun q hq => (hport q).trans (if_neg hq), ?_, ?_⟩
    · have hstate : s.pmon.ports[p].handed ≠ .equipOut ∧ s.pmon.ports[p].handed ≠ .monLost ∧ s.pmon.ports[p].handed ≠ .dark := by
        have := (lit_iff _).1 hlit
        rcases this with h | h | h <;> rw [h] <;> decide
      obtain ⟨hin, hmon, hdark⟩ := hstate
      have hany : s.cbc.ports[p].expect.kind ≠ .any := fun h => by rw [show s.cbc.ports[p].expect.kind = .tag from hkind] at h; cases h
      have hun := tagWait_untagged s p ⟨⟨hfree, hpop, hrole, hany, hin, hmon⟩, hkind, hdark⟩ htag
      refine ⟨?_, fun hold => ?_⟩
      · rw [show (settled (putCbc s (cbcTagWait s p))).cbc.ports[p] = _ from (hport p).trans (if_pos rfl)]
        exact hun
      · have hmsgs : (putCbc s (cbcTagWait s p)).2 = toAlm (elapsedWork s p).alm := cbcTagWait_msgs s p
        unfold settled
        rw [hmsgs, elapsedWork_alm, hun]
        refine cabChange_presents p rfl ?_
        revert hold
        generalize s.cbc.ports[p].state = old
        cases old <;> simp [cabCondition]
    · rw [hcbc]
      rfl
    · refine unchangedBut_trans (t := (putCbc s (cbcTagWait s p)).1) (fun q hq => ?_)
        (unchangedBut_mono (settle_unchanged 3 10 _ _ hbelow) (by decide))
      cases q <;> simp [Part.same] at hq ⊢

end Sys2Proof.Proofs
end

