-- ==== Sys2Proof/Proofs/Requests.lean ====
section
/-! RQU's part in every request: the owner's event, the answer in the slot, the next slot taken (R161, R162). -/

namespace Sys2Proof.Proofs

open Sys2Proof.Machine Sys2Proof.Safety Sys2Proof.Laws

/-! ### The slots in memory -/

theorem slotBase_apart {j k : SlotIx} (h : j ≠ k) : slotBase j + 64 ≤ slotBase k ∨ slotBase k + 64 ≤ slotBase j := by
  have : j.val ≠ k.val := fun heq => h (Fin.ext heq)
  unfold slotBase
  omega

/-- R162: a slot's code words zeroed: they read 0, and every other byte stays. -/
theorem zeroCode_reads {m : List Host.Cell} (k : SlotIx) (h : memWf m = true) : memWf (zeroCode m k) = true ∧
    (∀ i, i < 4 → memRead (zeroCode m k) (slotBase k + i) = 0) ∧
    ∀ a, (a < slotBase k ∨ slotBase k + 4 ≤ a) → memRead (zeroCode m k) a = memRead m a := by
  refine ⟨memWriteAll_wf _ _ _ h, fun i hi => ?_, fun a ha => memRead_writeAll_outside _ _ _ _ ha⟩
  refine (memRead_writeAll m (slotBase k) i [0, 0, 0, 0] h hi).trans ?_
  interval_cases i <;> rfl

section
variable (s : State) (k : SlotIx) (r : Result) (d : Nat)

/-- R162: RQU and the memory once the slot's answer is in place, before it is shown. -/
def answering : State :=
  { s with rqu := { s.rqu with last := s.rqu.last.set k (r.given d) }, mem := zeroCode s.mem k }

theorem answer_eq : answer s k r d = { showSlot (answering s k r d) k r.slotState with
    hpi := s.hpi.event .req } := rfl

@[simp] theorem answer_last : (answer s k r d).rqu.last = s.rqu.last.set k (r.given d) := rfl
@[simp] theorem answer_exec : (answer s k r d).rqu.exec = s.rqu.exec := rfl
@[simp] theorem answer_hpi : (answer s k r d).hpi = s.hpi.event .req := rfl

theorem answer_sameRqu : sameRqu s (answer s k r d) := ⟨rfl, rfl, rfl⟩

theorem answer_slot (j : SlotIx) : (answer s k r d).rqu.slots[j] = if j = k then r.slotState else s.rqu.slots[j] :=
  getElem_set_fin _ _ _ _

theorem answer_unchanged : unchangedBut [.attn, .rqu, .mem] s (answer s k r d) := by
  intro q hq
  cases q <;> first | rfl | exact absurd (by decide) hq

/-- R162: what the answer leaves in memory. -/
theorem answer_mem (h : memWf s.mem = true) : memWf (answer s k r d).mem = true ∧
    (∀ i, i < 4 → memRead (answer s k r d).mem (slotBase k + i) = 0) ∧
    slotShows (answer s k r d).mem k r.slotState (r.given d) ∧
    ∀ a, (a < slotBase k ∨ slotBase k + 8 ≤ a) → memRead (answer s k r d).mem a = memRead s.mem a := by
  obtain ⟨hwf, hzero, hrest⟩ := zeroCode_reads k h
  obtain ⟨hshows, hwf', hother⟩ := showSlot_shows (answering s k r d) k r.slotState hwf
  have hgiven : (answering s k r d).rqu.last[k] = r.given d := (getElem_set_fin _ _ _ _).trans (if_pos rfl)
  rw [hgiven] at hshows
  refine ⟨hwf', fun i hi => (hother _ (.inl (by omega))).trans (hzero i hi), hshows, fun a ha => ?_⟩
  exact (hother a (by omega)).trans (hrest a (by omega))

end

/-! ### The next slot (R161) -/

section
variable {s : State} {j : SlotIx}

theorem lowestQueued_queued (h : lowestQueued s = some j) : s.rqu.slots[j] = .queued := by
  have := List.find?_some h
  exact of_decide_eq_true this

theorem lowestQueued_congr {t : State} (h : ∀ i : SlotIx, t.rqu.slots[i] = .queued ↔ s.rqu.slots[i] = .queued) :
    lowestQueued t = lowestQueued s := by
  unfold lowestQueued
  congr 1
  funext i
  exact decide_eq_decide.2 (h i)

/-- R161: RQU, its execution over. -/
def resting (s : State) : State := { s with rqu := { s.rqu with exec := none } }

theorem endExec_none (h : lowestQueued s = none) : endExec s = resting s := by
  have h' : lowestQueued (resting s) = none := h
  change takeNext (resting s) = _
  simp only [takeNext, resting, Option.isSome_none, Bool.false_eq_true, if_false]
  change (match lowestQueued (resting s) with | some k => _ | none => _) = _
  rw [h']

theorem endExec_some (h : lowestQueued s = some j) : endExec s =
    { showSlot (resting s) j .busy with rqu := { (showSlot (resting s) j .busy).rqu with exec := some j } } :=
  takeNext_idle (resting s) j rfl h

theorem endExec_unchanged (s : State) : unchangedBut [.rqu, .mem] s (endExec s) := by
  intro q hq
  cases h : lowestQueued s with
  | none =>
    rw [endExec_none h]
    cases q <;> first | rfl | exact absurd (by decide) hq
  | some j =>
    rw [endExec_some h]
    cases q <;> first | rfl | exact absurd (by decide) hq

theorem endExec_sameRqu (s : State) : sameRqu s (endExec s) := by
  cases h : lowestQueued s with
  | none => rw [endExec_none h]; exact ⟨rfl, rfl, rfl⟩
  | some j => rw [endExec_some h]; exact ⟨rfl, rfl, rfl⟩

theorem endExec_last (s : State) : (endExec s).rqu.last = s.rqu.last := by
  cases h : lowestQueued s with
  | none => rw [endExec_none h]; rfl
  | some j => rw [endExec_some h]; rfl

theorem endExec_exec (s : State) : (endExec s).rqu.exec = lowestQueued s := by
  cases h : lowestQueued s with
  | none => rw [endExec_none h]; rfl
  | some j => rw [endExec_some h]

theorem endExec_slot (s : State) (i : SlotIx) :
    (endExec s).rqu.slots[i] = if lowestQueued s = some i then .busy else s.rqu.slots[i] := by
  cases h : lowestQueued s with
  | none => rw [endExec_none h]; rfl
  | some j =>
    rw [endExec_some h]
    refine (getElem_set_fin _ _ _ _).trans ?_
    by_cases hi : i = j
    · rw [if_pos hi, if_pos (congrArg some hi.symm)]
    · rw [if_neg hi, if_neg fun heq => hi (Option.some.inj heq).symm]
      rfl

/-- R161: the slot taken next is shown BUSY with what was last given there; every other byte stays. -/
theorem endExec_mem (s : State) (h : memWf s.mem = true) : memWf (endExec s).mem = true ∧
    (∀ j, lowestQueued s = some j → slotShows (endExec s).mem j .busy s.rqu.last[j]) ∧
    ∀ a, (∀ j, lowestQueued s = some j → a < slotBase j + 4 ∨ slotBase j + 8 ≤ a) →
      memRead (endExec s).mem a = memRead s.mem a := by
  cases hj : lowestQueued s with
  | none =>
    rw [endExec_none hj]
    exact ⟨h, nofun, fun _ _ => rfl⟩
  | some j =>
    rw [endExec_some hj]
    obtain ⟨hshows, hwf, hother⟩ := showSlot_shows (resting s) j .busy h
    refine ⟨hwf, fun i hi => ?_, fun a ha => hother a (ha j rfl)⟩
    cases hi
    exact hshows

end

/-! ### The owner's part -/

/-- What a request's owner leaves of RQU, the attention register and the memory, so that its answer is due in slot `k`. -/
structure Owned (s : State) (k : SlotIx) (u : State) : Prop where
  busy  : s.rqu.slots[k] = .busy
  slots : u.rqu.slots = s.rqu.slots
  last  : u.rqu.last = s.rqu.last
  mask  : u.hpi.mask = s.hpi.mask
  req   : u.hpi.attn.getLsbD 0 = s.hpi.attn.getLsbD 0
  wf    : memWf u.mem = true

theorem hiByte_ofNat (d : Nat) : hiByte (BitVec.ofNat 16 d) = byte8 (d / 256) := by
  apply BitVec.eq_of_toNat_eq
  simp only [hiByte, byte8, BitVec.extractLsb'_toNat, BitVec.toNat_ofNat, Nat.shiftRight_eq_div_pow]
  omega

theorem loByte_ofNat (d : Nat) : loByte (BitVec.ofNat 16 d) = byte8 d := by
  apply BitVec.eq_of_toNat_eq
  simp only [loByte, byte8, BitVec.extractLsb'_toNat, BitVec.toNat_ofNat, Nat.shiftRight_zero]
  omega

theorem slotState_notQueued (r : Result) : r.slotState ≠ .queued := by cases r <;> simp [Result.slotState]

/-- R159, R162: the REQ event and its mask bit. -/
theorem event_req (h : Hpi) : (h.event .req).attn.getLsbD 0 = (h.attn.getLsbD 0 || h.mask.getLsbD 0) := by
  simp [Hpi.event, Source.bit]

section
variable {s u : State} {k : SlotIx} (h : Owned s k u) (r : Result) (d : Nat)
include h

/-- The answer makes no slot QUEUED. -/
theorem Owned.queued : lowestQueued (answer u k r d) = lowestQueued s := by
  refine lowestQueued_congr fun i => ?_
  rw [answer_slot]
  split
  · next hi =>
    subst hi
    rw [h.busy]
    exact iff_of_false (slotState_notQueued r) (by decide)
  · rw [h.slots]

/-- R161, R162: a request answered within its execution. -/
theorem finish_answered : Answered s (finish u k r d) k r d u.mem := by
  have hqueued := h.queued r d
  have hne : ∀ j, lowestQueued (answer u k r d) = some j → j ≠ k := by
    rintro j hj rfl
    rw [hqueued] at hj
    have := lowestQueued_queued hj
    rw [h.busy] at this
    cases this
  obtain ⟨hwf, hzero, hshown, hrest⟩ := answer_mem u k r d h.wf
  obtain ⟨_, htaken, hother⟩ := endExec_mem (answer u k r d) hwf
  have hown {a : Nat} (ha : slotBase k ≤ a ∧ a < slotBase k + 8) :
      memRead (finish u k r d).mem a = memRead (answer u k r d).mem a := by
    refine hother a fun j hj => ?_
    have := slotBase_apart (hne j hj)
    omega
  obtain ⟨hst, hres, hhi, hlo⟩ := hshown
  constructor
  · rw [finish, endExec_last, answer_last, h.last]
    rfl
  · intro i hi
    rw [hown (by omega), hzero i hi]
  · rw [hown (by omega), hst]
  · rw [hown (by omega), hres]
    rfl
  · rw [hown (by omega), hown (by omega), hhi, hlo]
    exact ⟨hiByte_ofNat d, loByte_ofNat d⟩
  · rw [finish, endExec_slot, answer_slot, if_pos rfl]
    exact if_neg fun hj => hne k hj rfl
  · rw [finish, endExec_exec, hqueued]
  · intro j hj
    rw [finish, endExec_slot, answer_slot, if_neg hj, hqueued, h.slots]
  · have hattn : (finish u k r d).hpi.attn = (answer u k r d).hpi.attn := endExec_unchanged (answer u k r d) .attn (by decide)
    rw [hattn, answer_hpi, event_req, h.req, h.mask]
  · intro j hj
    rw [← hqueued] at hj
    have := htaken j hj
    rwa [answer_last, getElem_set_fin, if_neg (hne j hj), h.last] at this
  · intro a hout hj
    rw [← hqueued] at hj
    exact (hother a hj).trans (hrest a hout)

end

/-! ### The attention bit of RQU in a settled event (R159) -/

theorem jrnWrite_noReq (now : Nat) (j : Jrn) (b : JBody) : Msg.attn .req ∉ (jrnWrite now j b).2 := by
  unfold jrnWrite
  split
  · exact List.not_mem_nil
  · simp only
    split
    · split <;> simp
    · simp

theorem jrnWriteAll_noReq (now : Nat) (j : Jrn) (bs : List JBody) : Msg.attn .req ∉ (jrnWriteAll now j bs).2 := by
  induction bs generalizing j with
  | nil => exact List.not_mem_nil
  | cons b bs ih =>
    simp only [jrnWriteAll, List.mem_append, not_or]
    exact ⟨jrnWrite_noReq now j b, ih _⟩

theorem almFinish_noReq (before : Alm) (w : AlmWork) : Msg.attn .req ∉ (almFinish before w).2 := by
  simp only [almFinish, toJrn, List.mem_append, not_or]
  refine ⟨⟨?_, ?_⟩, ?_⟩ <;> split <;> simp

theorem toAlm_noReq (b : List AlmChange) : Msg.attn .req ∉ toAlm b := by simp [toAlm]

theorem toJrn_noReq (b : List JBody) : Msg.attn .req ∉ toJrn b := by simp [toJrn]

theorem cbcEnd_noReq (w : CbcWork) : Msg.attn .req ∉ (cbcEnd w).2 := by
  simp [cbcEnd, handHolds, toAlm_noReq, toJrn_noReq]

theorem prcEnd_noReq (w : PrcWork) : Msg.attn .req ∉ (prcEnd w).2 := by
  simp [prcEnd, toAlm_noReq, toJrn_noReq]

theorem tselEnd_noReq (s : State) (w : TselWork) : Msg.attn .req ∉ (tselEnd s w).2 := by
  simp [tselEnd, toAlm_noReq, toJrn_noReq]

theorem tcdHandOn_noReq (p : Port) (d e : Decoder) : Msg.attn .req ∉ tcdHandOn p d e := by
  simp [tcdHandOn, toAlm_noReq]

theorem handPorts_noReq (cs : List PortChange) (cd : List AlmChange) : Msg.attn .req ∉ handPorts cs cd := by
  simp [handPorts, toAlm_noReq]

/-- RQU alone raises its attention event: no block hands it on. -/
theorem deliver_noReq (m : Msg) (s : State) : Msg.attn .req ∉ (deliver m s).2 := by
  cases m with
  | pmonPower p c v =>
    refine fun h => (List.mem_append.1 h).elim (fun h => ?_) (handPorts_noReq _ _)
    split at h <;> simp at h
  | pmonCard p a b =>
    simp only [deliver, putPmon_msgs, pmonCard]
    split
    · exact List.not_mem_nil
    · split
      · exact List.not_mem_nil
      · exact handPorts_noReq _ _
  | tcdBit p b v => exact tcdHandOn_noReq _ _ _
  | tcdLos p d => exact tcdHandOn_noReq _ _ _
  | cbcPorts cs => exact cbcEnd_noReq _
  | cbcTag p => exact cbcEnd_noReq _
  | cbcRole p r => exact cbcEnd_noReq _
  | cbcFrame f => exact cbcEnd_noReq _
  | prcPorts cs => exact prcEnd_noReq _
  | prcTag p => exact prcEnd_noReq _
  | prcHold ps h => exact prcEnd_noReq _
  | prcExpect ps => exact prcEnd_noReq _
  | tselPorts ps => exact tselEnd_noReq _ _
  | tselTag p => exact tselEnd_noReq _ _
  | tselHold ps => exact tselEnd_noReq _ _
  | tselGroup g t => exact tselEnd_noReq _ _
  | tselShelf c => exact tselEnd_noReq _ _
  | alm b => exact almFinish_noReq _ _
  | almCutOff => exact almFinish_noReq _ _
  | jrn bs => exact fun h => jrnWriteAll_noReq _ _ _ (List.mem_dedup.1 h)
  | jrnMode b =>
    simp only [deliver, putJrn_msgs, jrnMode]
    split
    · exact List.not_mem_nil
    · exact jrnWrite_noReq _ _ _
  | pmonHold ps h => exact List.not_mem_nil
  | tcdReport ps => exact List.not_mem_nil
  | tselGroups ts => exact List.not_mem_nil
  | attn a => exact List.not_mem_nil

/-- What RQU reads of HPI. -/
def SameReq (s t : State) : Prop := t.hpi.attn.getLsbD 0 = s.hpi.attn.getLsbD 0 ∧ t.hpi.mask = s.hpi.mask

theorem deliver_sameReq {m : Msg} (h : m ≠ .attn .req) (s : State) : SameReq s (deliver m s).1 := by
  by_cases hattn : ∃ a, m = .attn a
  · obtain ⟨a, rfl⟩ := hattn
    refine ⟨?_, rfl⟩
    cases a with
    | req => exact absurd rfl h
    | _ => simp [deliver, Hpi.event, Source.bit]
  · have hsame : (deliver m s).1.hpi = s.hpi := by
      cases m with
      | attn a => exact absurd ⟨a, rfl⟩ hattn
      | _ => simp only [deliver, putSample_hpi, putPmon_hpi, putTcd_hpi, putCbc_hpi, putPrc_hpi, putTsel_hpi,
          putTselFrom_hpi, putAlm_hpi, putJrn_hpi]
    rw [SameReq, hsame]
    exact ⟨rfl, rfl⟩

theorem settle_sameReq (n : Nat) {ms : List Msg} (h : Msg.attn .req ∉ ms) (s : State) : SameReq s (settle n ms s) := by
  refine settle_rel (Q := fun m => m ≠ .attn .req) (P := SameReq) (fun _ => ⟨rfl, rfl⟩)
    (fun _ _ _ h k => ⟨k.1.trans h.1, k.2.trans h.2⟩) (fun _ => ⟨rfl, rfl⟩) (fun m hm x hx => ?_)
    (fun m s _ x hx => fun heq => deliver_noReq m s (heq ▸ hx)) (fun m s hm => deliver_sameReq hm s) n ms s
    (fun m hm heq => h (heq ▸ hm))
  cases m <;> simp only [Msg.expand, List.mem_singleton, List.mem_map] at hx
  case tselGroups => obtain ⟨_, _, rfl⟩ := hx; exact nofun
  all_goals exact hx ▸ hm

/-- An owner whose event is settled leaves RQU its answer. -/
theorem owned_settled {s : State} {k : SlotIx} {r : State × List Msg} (h : Owned s k r.1) (hreq : Msg.attn .req ∉ r.2) :
    Owned s k (settled r) := by
  obtain ⟨hattn, hmask⟩ := settle_sameReq 10 hreq r.1
  have hrqu : (settled r).rqu = r.1.rqu := settled_unchanged r .rqu (by decide)
  have hmem : (settled r).mem = r.1.mem := settled_unchanged r .mem (by decide)
  exact ⟨h.busy, by rw [hrqu, h.slots], by rw [hrqu, h.last], hmask.trans h.mask, hattn.trans h.req, by rw [hmem]; exact h.wf⟩

/-! ### A request run -/

theorem serving_iff {s : State} {k : SlotIx} {r : Request} : serving s k r = true ↔
    executing s k (some r) = true ∧ s.rqu.slots[k] = .busy ∧ memWf s.mem = true := by
  simp only [serving, Bool.and_eq_true, decide_eq_true_eq, and_assoc]

theorem owned_self {s : State} {k : SlotIx} (hbusy : s.rqu.slots[k] = .busy) (hwf : memWf s.mem = true) : Owned s k s :=
  ⟨hbusy, rfl, rfl, rfl, rfl, hwf⟩

/-- The owner of each request. -/
def ownerOf (k : SlotIx) : Request → State → Reply
  | .ldsh => askLoad .shelf loadShelf k
  | .ldpf => askLoad .profiles loadProfile k
  | .ldpt => askLoad .ports loadPort k
  | .ldcr => askLoad .cabling loadCabling k
  | .ldpg => askLoad .groups loadGroup k
  | .ldtr => askLoad .refs loadRefEntry k
  | .ldap => askLoad .alarms loadAlarm k
  | .ldci => askLoad .contacts loadContact k
  | .rdtb => askRdtb k
  | .adpt => askAdpt k
  | .calb => askCalb k
  | .wkop => askWkop k
  | .wken => askWken k
  | .wkcn => askWkcn k
  | .wkdr => askWkdr k
  | .pslo => askPslo k
  | .psfs => askPsfs k
  | .psms => askPsms k
  | .pscl => askPscl k
  | .tmlk => askTmlk k
  | .tmfs => askTmfs k
  | .tmcl => askTmcl
  | .alak => askAlak k
  | .alco => askAlco
  | .abrt => askAbrt k

theorem exec_request (k : SlotIx) (r : Request) (s : State) :
    exec (r.command k) s = .next (runRequest s k r (ownerOf k r)) := by cases r <;> rfl

/-- What a request leaves after its owner's event has left the state `u`: the slot answered, RQU's other records as the
owner left them, and every other part. -/
structure Served (s : State) (k : SlotIx) (r : Result) (d : Nat) (u t : State) : Prop where
  answered  : Answered s t k r d u.mem
  rqu       : sameRqu u t
  unchanged : unchangedBut [.attn, .rqu, .mem] u t

theorem finish_served {s u : State} {k : SlotIx} (h : Owned s k u) (r : Result) (d : Nat) :
    Served s k r d u (finish u k r d) := by
  refine ⟨finish_answered h r d, ?_, ?_⟩
  · obtain ⟨h1, h2, h3⟩ := answer_sameRqu u k r d
    obtain ⟨k1, k2, k3⟩ := endExec_sameRqu (answer u k r d)
    exact ⟨k1.trans h1, k2.trans h2, k3.trans h3⟩
  · exact unchangedBut_trans (answer_unchanged u k r d) (unchangedBut_mono (endExec_unchanged _) (by decide))

/-- R161: a request whose owner answers. -/
theorem request_served {s u : State} {k : SlotIx} {r : Request} {e : Result} {d : Nat} (hs : serving s k r = true)
    (howner : ownerOf k r s = (u, some (e, d))) (hu : Owned s k u) :
    ∃ t, exec (r.command k) s = .next t ∧ Served s k e d u t := by
  obtain ⟨hexec, _, _⟩ := serving_iff.1 hs
  refine ⟨finish u k e d, ?_, finish_served hu e d⟩
  rw [exec_request, runRequest, if_pos hexec, howner]

/-- R161, R162: a refused request. -/
theorem request_refused {s : State} {k : SlotIx} {r : Request} {e : Result} {d : Nat} (hs : serving s k r = true)
    (howner : ownerOf k r s = refuse s e d) :
    ∃ t, exec (r.command k) s = .next t ∧ Answered s t k e d s.mem ∧ sameRqu s t ∧ unchangedBut [.attn, .rqu, .mem] s t := by
  obtain ⟨_, hbusy, hwf⟩ := serving_iff.1 hs
  obtain ⟨t, hexec, h1, h2, h3⟩ := request_served hs howner (owned_self hbusy hwf)
  exact ⟨t, hexec, h1, h2, h3⟩

/-- R161: a request whose owner's event is settled, its memory the one before. -/
theorem request_settled {s : State} {k : SlotIx} {r : Request} {d : Nat} {x : State × List Msg} (hs : serving s k r = true)
    (howner : ownerOf k r s = done (settled x) d) (hx : Owned s k x.1) (hreq : Msg.attn .req ∉ x.2)
    (hmem : x.1.mem = s.mem) (hrqu : sameRqu s x.1) :
    ∃ t, exec (r.command k) s = .next t ∧ Answered s t k .ok d s.mem ∧ sameRqu s t ∧
      unchangedBut [.attn, .rqu, .mem] (settled x) t := by
  obtain ⟨t, hexec, hserved⟩ := request_served hs howner (owned_settled hx hreq)
  have hsrqu : (settled x).rqu = x.1.rqu := settled_unchanged x .rqu (by decide)
  have hsmem : (settled x).mem = s.mem := (settled_unchanged x .mem (by decide)).trans hmem
  obtain ⟨h1, h2, h3⟩ := hrqu
  obtain ⟨k1, k2, k3⟩ := hserved.rqu
  rw [hsrqu] at k1 k2 k3
  exact ⟨t, hexec, hsmem ▸ hserved.answered, ⟨k1.trans h1, k2.trans h2, k3.trans h3⟩, hserved.unchanged⟩

/-- Settles O42: an unknown code is answered like any request, and any other command runs in execution alone. -/
theorem onlyARequestInExecutionActs : Obligations.OnlyARequestInExecutionActs := by
  unfold Obligations.OnlyARequestInExecutionActs
  refine fun k s => ⟨fun hexec hbusy hwf => ?_, fun hexec => whenever_false hexec _ _, fun r hexec => ?_⟩
  · obtain ⟨h1, h2, h3⟩ := finish_served (owned_self hbusy hwf) .unknown 0
    exact ⟨finish s k .unknown 0, whenever_true hexec _ _, h1, h2, h3⟩
  · rw [exec_request, runRequest, if_neg (Bool.eq_false_iff.1 hexec)]

end Sys2Proof.Proofs
end

