-- ==== Sys2Proof/Proofs/HandedOn.lean ====
section
/-! Two more things an event keeps, whatever it hands on: TCD where no tag record is among it (R33, R82), and the journal but
for the records handed to JRN (R148). -/

namespace Sys2Proof.Proofs

open Sys2Proof.Machine Sys2Proof.Safety Sys2Proof.Laws

/-! ### Events that bring TCD no report -/

/-- A message below CBC that is no tag record and no report. -/
def NoReport (m : Msg) : Prop := m.rank < 7 ∧ (∀ p, m ≠ .prcTag p) ∧ ∀ ps, m ≠ .tcdReport ps

theorem noReport_of_rank {m : Msg} (h : m.rank < 4) : NoReport m :=
  ⟨by omega, fun p heq => by subst heq; simp [Msg.rank] at h, fun ps heq => by subst heq; simp [Msg.rank] at h⟩

theorem handHolds_noReport (ps : List Port) (b : Bool) : ∀ m ∈ handHolds ps b, NoReport m := by
  intro m hm
  unfold handHolds at hm
  split at hm
  · cases hm
  · simp only [List.mem_cons, List.not_mem_nil, or_false] at hm
    rcases hm with rfl | rfl | rfl <;> exact ⟨by simp [Msg.rank], nofun, nofun⟩

theorem cbcEnd_noReport (w : CbcWork) : ∀ m ∈ (cbcEnd w).2, NoReport m := by
  intro m hm
  simp only [cbcEnd, List.mem_append] at hm
  rcases hm with ((hm | hm) | hm) | hm
  · exact handHolds_noReport _ _ m hm
  · split at hm
    · cases hm
    · rw [List.mem_singleton.1 hm]
      exact ⟨by simp [Msg.rank], nofun, nofun⟩
  · exact noReport_of_rank (below_toAlm 4 _ (by decide) m hm)
  · exact noReport_of_rank (below_toJrn 4 _ (by decide) m hm)

theorem prcEnd_noReport {w : PrcWork} (h : w.reports = []) : ∀ m ∈ (prcEnd w).2, NoReport m := by
  intro m hm
  have hbelow : Below 4 (prcEnd w).2 := by simp [prcEnd, h, Msg.rank]
  exact noReport_of_rank (hbelow m hm)

/-- The reports of PRC's event are those it began with. -/
theorem prcEach_reports (s : State) (concerns : Group → Bool) (change : Group → Group) (w : PrcWork) (gi : GroupIx) :
    (prcEach s concerns change w gi).reports = w.reports := by
  unfold prcEach
  split
  · rfl
  · split <;> rfl

theorem prcEachAll_noReport (s : State) (concerns : Group → Bool) (change : Group → Group) :
    ∀ m ∈ (prcEnd (allGroups.foldl (prcEach s concerns change) (prcBegin s))).2, NoReport m :=
  prcEnd_noReport (foldl_same (v := fun w : PrcWork => w.reports) (prcEach_reports s concerns change) _ _)

theorem prcOne_noReport (s : State) (gi : GroupIx) (change : Group → Group) : ∀ m ∈ (prcOne s gi change).2, NoReport m :=
  prcEnd_noReport (prcEach_reports s _ change (prcBegin s) gi)

/-- A message that is no report hands none on. -/
theorem noReport_next {m : Msg} (h : NoReport m) (s : State) : ∀ x ∈ (deliver m s).2, NoReport x := by
  obtain ⟨hrank, htag, _⟩ := h
  by_cases hlow : m.rank ≤ 4
  · exact fun x hx => noReport_of_rank (Nat.lt_of_lt_of_le (deliver_below m s x hx) hlow)
  · cases m with
    | prcTag p => exact absurd rfl (htag p)
    | prcPorts cs => simp only [deliver, putPrc_msgs, prcPorts]; exact prcEachAll_noReport s _ _
    | prcHold ps b => simp only [deliver, putPrc_msgs, prcHold]; exact prcEachAll_noReport s _ _
    | prcExpect ps => simp only [deliver, putPrc_msgs, prcExpect]; exact prcEachAll_noReport s _ _
    | pmonHold ps b => exact fun _ => nofun
    | _ => simp only [Msg.rank] at hrank hlow; omega

theorem noReport_expand {m : Msg} (h : NoReport m) : ∀ x ∈ m.expand, NoReport x := by
  intro x hx
  cases m <;> simp only [Msg.expand, List.mem_singleton, List.mem_map] at hx
  case tselGroups => obtain ⟨_, _, rfl⟩ := hx; exact noReport_of_rank (by simp [Msg.rank])
  all_goals exact hx ▸ h

theorem deliver_tcd {m : Msg} (h : NoReport m) (s : State) : (deliver m s).1.tcd = s.tcd := by
  obtain ⟨hrank, _, hreport⟩ := h
  cases m with
  | tcdReport ps => exact absurd rfl (hreport ps)
  | pmonPower p c v => simp [Msg.rank] at hrank
  | pmonCard p a b => simp [Msg.rank] at hrank
  | tcdBit p b v => simp [Msg.rank] at hrank
  | tcdLos p d => simp [Msg.rank] at hrank
  | _ => simp [deliver]

/-- What a work hold, an expectation and everything below them touch. -/
def handsOn : List Part := [.pmon, .prc, .tsel, .tsp, .alm, .jrn, .attn, .gens, .choices]

theorem settle_tcd (n : Nat) {ms : List Msg} (h : ∀ m ∈ ms, NoReport m) (s : State) : (settle n ms s).tcd = s.tcd :=
  settle_rel (Q := NoReport) (P := fun s t => t.tcd = s.tcd) (fun _ => rfl) (fun _ _ _ h k => k.trans h) (fun _ => rfl)
    (fun _ h => noReport_expand h) (fun _ s h => noReport_next h s) (fun _ s h => deliver_tcd h s) n ms s h

theorem settle_handsOn (n : Nat) {ms : List Msg} (h : ∀ m ∈ ms, NoReport m) (s : State) :
    unchangedBut handsOn s (settle n ms s) := by
  intro q hq
  by_cases htcd : q = .tcd
  · subst htcd
    exact settle_tcd n h s
  · refine settle_unchanged 7 n ms s (fun m hm => (h m hm).1) q ?_
    revert hq
    cases q <;> first | exact absurd rfl htcd | decide

/-- An event of CBC whose messages are all of that kind. -/
theorem settledCbc_handsOn (s : State) {r : Cbc × List Msg} (h : ∀ m ∈ r.2, NoReport m) :
    (settled (putCbc s r)).cbc = r.1 ∧ unchangedBut (.cbc :: handsOn) s (settled (putCbc s r)) := by
  refine ⟨settledCbc_cbc s r fun m hm => (h m hm).1, ?_⟩
  refine unchangedBut_trans (t := (putCbc s r).1) (fun q hq => ?_)
    (unchangedBut_mono (settle_handsOn 10 h _) fun q hq => List.mem_cons_of_mem _ hq)
  cases q <;> first | exact absurd (by decide) hq | simp [Part.same]

/-! ### The journal of an event -/

theorem jrnRecords_congr {s t : State} (h : t.start = s.start) (bs : List JBody) :
    (jrnRecords t bs).1 = (jrnRecords { s with jrn := t.jrn } bs).1 := by
  unfold jrnRecords State.now
  rw [h]

/-- Time stands and the journal has had records handed to it, event by event. -/
def Records (s t : State) : Prop := t.start = s.start ∧ ∃ events, t.jrn = journalAfter s events

theorem Records.refl (s : State) : Records s s := ⟨rfl, [], rfl⟩

theorem journalAfter_then {s t : State} {events : List (List JBody)} (hstart : t.start = s.start)
    (h : t.jrn = journalAfter s events) (more : List (List JBody)) :
    journalAfter t more = journalAfter s (events ++ more) := by
  have hsame : ∀ j : Jrn, ∀ bs, (jrnRecords { t with jrn := j } bs).1 = (jrnRecords { s with jrn := j } bs).1 :=
    fun j bs => jrnRecords_congr (s := s) (t := { t with jrn := j }) hstart bs
  unfold journalAfter at *
  rw [List.foldl_append, ← h]
  simp only [hsame]

theorem Records.trans {s t u : State} (h : Records s t) (k : Records t u) : Records s u := by
  obtain ⟨hst, es, hes⟩ := h
  obtain ⟨htu, fs, hfs⟩ := k
  exact ⟨htu.trans hst, es ++ fs, hfs.trans (journalAfter_then hst hes fs)⟩

/-- A message that is no mode change. -/
def NoMode (m : Msg) : Prop := ∀ b, m ≠ .jrnMode b

theorem toAlm_noMode (b : List AlmChange) : ∀ m ∈ toAlm b, NoMode m := by
  intro m hm c heq
  subst heq
  simp [toAlm] at hm

theorem noMode_of_rank {m : Msg} (h : m.rank ≠ 1) : NoMode m := by
  rintro b rfl
  exact h rfl

theorem toJrn_noMode (b : List JBody) : ∀ m ∈ toJrn b, NoMode m := by
  intro m hm c heq
  subst heq
  simp [toJrn] at hm

theorem cbcEnd_noMode (w : CbcWork) : ∀ m ∈ (cbcEnd w).2, NoMode m := by
  intro m hm c heq
  subst heq
  simp [cbcEnd, handHolds, toAlm, toJrn] at hm

theorem prcEnd_noMode (w : PrcWork) : ∀ m ∈ (prcEnd w).2, NoMode m := by
  intro m hm c heq
  subst heq
  simp [prcEnd, toAlm, toJrn] at hm

theorem tselEnd_noMode (s : State) (w : TselWork) : ∀ m ∈ (tselEnd s w).2, NoMode m := by
  intro m hm c heq
  subst heq
  simp [tselEnd, toAlm, toJrn] at hm

theorem almFinish_noMode (before : Alm) (w : AlmWork) : ∀ m ∈ (almFinish before w).2, NoMode m := by
  intro m hm c heq
  subst heq
  simp [almFinish, toJrn] at hm

theorem tcdHandOn_noMode (p : Port) (d e : Decoder) : ∀ m ∈ tcdHandOn p d e, NoMode m := by
  intro m hm c heq
  subst heq
  simp [tcdHandOn, toAlm] at hm

theorem handPorts_noMode (cs : List PortChange) (cd : List AlmChange) : ∀ m ∈ handPorts cs cd, NoMode m := by
  intro m hm c heq
  subst heq
  simp [handPorts, toAlm] at hm

/-- No block hands a mode change on: LDSH alone does. -/
theorem deliver_noMode (m : Msg) (s : State) : ∀ x ∈ (deliver m s).2, NoMode x := by
  cases m with
  | pmonPower p c v =>
    refine fun x hx => (List.mem_append.1 hx).elim (fun hx => ?_) (handPorts_noMode _ _ x)
    rintro b rfl
    split at hx <;> simp at hx
  | pmonCard p a b =>
    simp only [deliver, putPmon_msgs, pmonCard]
    split
    · exact fun _ => nofun
    · split
      · exact fun _ => nofun
      · exact handPorts_noMode _ _
  | tcdBit p b v => exact tcdHandOn_noMode _ _ _
  | tcdLos p d => exact tcdHandOn_noMode _ _ _
  | cbcPorts cs => exact cbcEnd_noMode _
  | cbcTag p => exact cbcEnd_noMode _
  | cbcRole p r => exact cbcEnd_noMode _
  | cbcFrame f => exact cbcEnd_noMode _
  | prcPorts cs => exact prcEnd_noMode _
  | prcTag p => exact prcEnd_noMode _
  | prcHold ps h => exact prcEnd_noMode _
  | prcExpect ps => exact prcEnd_noMode _
  | tselPorts ps => exact tselEnd_noMode _ _
  | tselTag p => exact tselEnd_noMode _ _
  | tselHold ps => exact tselEnd_noMode _ _
  | tselGroup g t => exact tselEnd_noMode _ _
  | tselShelf c => exact tselEnd_noMode _ _
  | alm b => exact almFinish_noMode _ _
  | almCutOff => exact almFinish_noMode _ _
  | jrn bs =>
    exact fun x hx => noMode_of_rank (Nat.ne_of_lt (jrnRecords_below s bs x hx))
  | jrnMode b =>
    exact fun x hx => noMode_of_rank (Nat.ne_of_lt (jrnMode_below s b x hx))
  | pmonHold ps h => exact fun _ => nofun
  | tcdReport ps => exact fun _ => nofun
  | tselGroups ts => exact fun _ => nofun
  | attn a => exact fun _ => nofun

theorem noMode_expand {m : Msg} (h : NoMode m) : ∀ x ∈ m.expand, NoMode x := by
  intro x hx
  cases m <;> simp only [Msg.expand, List.mem_singleton, List.mem_map] at hx
  case tselGroups => obtain ⟨_, _, rfl⟩ := hx; exact fun _ => nofun
  all_goals exact hx ▸ h

theorem deliver_start (m : Msg) (s : State) : (deliver m s).1.start = s.start :=
  deliver_unchanged 10 m s (below_ten [m] m List.mem_cons_self) .start (by decide)

theorem deliver_records {m : Msg} (h : NoMode m) (s : State) : Records s (deliver m s).1 := by
  refine ⟨deliver_start m s, ?_⟩
  by_cases hjrn : ∃ bs, m = .jrn bs
  · obtain ⟨bs, rfl⟩ := hjrn
    exact ⟨[bs], rfl⟩
  · refine ⟨[], ?_⟩
    cases m with
    | jrn bs => exact absurd ⟨bs, rfl⟩ hjrn
    | jrnMode b => exact absurd rfl (h b)
    | _ => simp [deliver]

/-- R148: an event without a mode change hands JRN records, and does nothing else to the journal. -/
theorem settle_records (n : Nat) {ms : List Msg} (h : ∀ m ∈ ms, NoMode m) (s : State) : Records s (settle n ms s) :=
  settle_rel (Q := NoMode) (P := Records) Records.refl (fun _ _ _ => Records.trans) (fun _ => ⟨rfl, [], rfl⟩)
    (fun _ h => noMode_expand h) (fun m s _ => deliver_noMode m s) (fun _ s h => deliver_records h s) n ms s h

theorem taken_records (n : Nat) {m : Msg} (h : NoMode m) (s : State) : Records s (taken n m s) :=
  (deliver_records h s).trans (settle_records n (deliver_noMode m s) _)

/-- The records of one batch are among those the journal has had. -/
def RecordsOf (bs : List JBody) (s t : State) : Prop :=
  t.start = s.start ∧ ∃ events, t.jrn = journalAfter s events ∧ bs ∈ events

theorem RecordsOf.then {bs : List JBody} {s t u : State} (h : RecordsOf bs s t) (k : Records t u) : RecordsOf bs s u := by
  obtain ⟨hst, es, hes, hbs⟩ := h
  obtain ⟨htu, fs, hfs⟩ := k
  exact ⟨htu.trans hst, es ++ fs, hfs.trans (journalAfter_then hst hes fs), List.mem_append_left _ hbs⟩

theorem Records.thenOf {bs : List JBody} {s t u : State} (h : Records s t) (k : RecordsOf bs t u) : RecordsOf bs s u := by
  obtain ⟨hst, es, hes⟩ := h
  obtain ⟨htu, fs, hfs, hbs⟩ := k
  exact ⟨htu.trans hst, es ++ fs, hfs.trans (journalAfter_then hst hes fs), List.mem_append_right _ hbs⟩

theorem taken_recordsOf (n : Nat) (bs : List JBody) {s t : State} (h : Records s t) : RecordsOf bs s (taken n (.jrn bs) t) := by
  obtain ⟨hst, es, hes⟩ := h
  have hone : RecordsOf bs s (deliver (.jrn bs) t).1 := by
    refine ⟨hst, es ++ [bs], ?_, by simp⟩
    rw [← journalAfter_then hst hes]
    rfl
  exact hone.then (settle_records n (deliver_noMode _ t) _)

/-- R148: records an event hands JRN reach the journal among others. -/
theorem settle_recordsOf (n : Nat) {ms : List Msg} {bs : List JBody} (h : ∀ m ∈ ms, NoMode m) (hbs : .jrn bs ∈ ms)
    (s : State) : RecordsOf bs s (settle (n + 1) ms s) := by
  have hperm := List.perm_cons_erase hbs
  have hrest : ∀ x ∈ (ms.erase (.jrn bs)).flatMap Msg.expand, NoMode x := by
    intro x hx
    obtain ⟨m, hm, hmx⟩ := List.mem_flatMap.1 hx
    exact noMode_expand (h m (List.mem_of_mem_erase hm)) x hmx
  exact settle_once (P := Records s) (R := RecordsOf bs s) rfl hperm (fun t ht => ht)
    (fun x hx t ht => ht.trans (taken_records n (hrest x hx) t)) (fun t ht => taken_recordsOf n bs ht)
    (fun x hx t ht => ht.then (taken_records n (hrest x hx) t)) (.refl s)

end Sys2Proof.Proofs
end

