-- ==== Sys2Proof/Proofs/OrderRequests.lean ====
section
/-! The requests of the cabling controller that name ports and orders: ADPT, WKOP accepted, and the refusals and the drop by
order number (R41, R48, R49, R51, R56, R57). -/

namespace Sys2Proof.Proofs

open Sys2Proof.Machine Sys2Proof.Safety Sys2Proof.Laws

/-- The first index that a test picks. -/
theorem find?_finRange_eq_some {n : Nat} {test : Fin n → Bool} {i : Fin n} :
    (List.finRange n).find? test = some i ↔ test i = true ∧ ∀ j < i, test j = false := by
  rw [List.find?_eq_some_iff_getElem]
  simp only [List.length_finRange, List.getElem_finRange, Bool.not_eq_true']
  constructor
  · rintro ⟨htest, k, hk, rfl, hbefore⟩
    exact ⟨htest, fun j hj => hbefore j hj⟩
  · rintro ⟨htest, hbefore⟩
    exact ⟨htest, i, i.isLt, rfl, fun j hj => hbefore ⟨j, hj.trans i.isLt⟩ hj⟩

/-- R161: a request that CBC takes. -/
theorem request_cbc {s : State} {k : SlotIx} {r : Request} {d : Nat} {x : Cbc × List Msg} (hs : serving s k r = true)
    (howner : ownerOf k r s = done (settled (putCbc s x)) d) (hreq : Msg.attn .req ∉ x.2) (hbelow : Below 7 x.2) :
    ∃ t, exec (r.command k) s = .next t ∧ t.cbc = x.1 ∧ Answered s t k .ok d s.mem ∧ sameRqu s t ∧
      unchangedBut [.attn, .rqu, .mem] (settled (putCbc s x)) t := by
  obtain ⟨_, hbusy, hwf⟩ := serving_iff.1 hs
  have howned : Owned s k (putCbc s x).1 :=
    ⟨hbusy, by rw [putCbc_rqu], by rw [putCbc_rqu], by rw [putCbc_hpi], by rw [putCbc_hpi], by rw [putCbc_mem]; exact hwf⟩
  obtain ⟨t, hexec, hanswered, hrqu, hsame⟩ := request_settled hs howner howned hreq (putCbc_mem s x) (by
    rw [sameRqu, putCbc_rqu]; exact ⟨rfl, rfl, rfl⟩)
  exact ⟨t, hexec, (hsame .cbc (by decide)).trans (settledCbc_cbc s x hbelow), hanswered, hrqu, hsame⟩

/-- What an event of CBC touches, by the rank of what it hands on. -/
theorem settledCbc_touched (s : State) {n : Nat} {x : Cbc × List Msg} (h : Below n x.2) :
    unchangedBut (.cbc :: .gens :: touched n) s (settled (putCbc s x)) := by
  refine unchangedBut_trans (t := (putCbc s x).1) (fun q hq => ?_)
    (unchangedBut_mono (settle_unchanged n 10 _ _ h) fun q hq => List.mem_cons_of_mem _ (List.mem_cons_of_mem _ hq))
  cases q <;> simp [Part.same] at hq ⊢

/-! ### ADPT (R41) -/

/-- R41: a port's record after it is adopted, if it is. -/
def adoptedRec (s : State) (p : Port) (r : CabRec) : CabRec :=
  if s.populated p then
    match s.tcd.decs[p].tag with
    | some t => expectedRec s p { kind := .tag, port := t.port.setWidth 8, shelf := t.shelf } r
    | none => r
  else r

section
variable (s : State) (p : Port)

/-- R40: an expectation set twice is set once. -/
theorem expectedRec_idem (e : Expectation) (r : CabRec) : expectedRec s p e (expectedRec s p e r) = expectedRec s p e r := by
  have hsame : (expectedRec s p e r).expect.same e = true := by
    rw [expectedRec_expect]
    simp [Expectation.same]
  have htaken : takenRec s e (expectedRec s p e r) = expectedRec s p e r := by
    unfold takenRec
    rw [expectedRec_tagWait]
    unfold expectedRec
    split <;> by_cases htag : e.kind = .tag <;> simp [takenRec, judgedRec, htag]
  rw [expectedRec, if_pos hsame, htaken]

theorem adoptedRec_idem (r : CabRec) : adoptedRec s p (adoptedRec s p r) = adoptedRec s p r := by
  unfold adoptedRec
  split
  · split
    · exact expectedRec_idem s p _ r
    · rfl
  · rfl

theorem adoptPort_port (w : CbcWork) (q : Port) :
    (adoptPort s w p).cbc.ports[q] = if q = p then adoptedRec s p w.cbc.ports[p] else w.cbc.ports[q] := by
  have hstays : w.cbc.ports[q] = if q = p then w.cbc.ports[p] else w.cbc.ports[q] := by
    split
    · next hq => rw [hq]
    · rfl
  unfold adoptPort adoptedRec
  by_cases hpop : s.populated p = true
  · rw [if_pos hpop, if_pos hpop]
    cases s.tcd.decs[p].tag with
    | some t => exact setExpectation_port s w p q _
    | none => exact hstays
  · rw [if_neg hpop, if_neg hpop]
    exact hstays

theorem adoptPort_orders (w : CbcWork) : (adoptPort s w p).cbc.orders = w.cbc.orders := by
  unfold adoptPort
  split
  · split
    · exact setExpectation_orders s w p _
    · rfl
  · rfl

theorem adoptPort_released (w : CbcWork) : (adoptPort s w p).released = w.released := by
  unfold adoptPort
  split
  · split
    · exact setExpectation_released s w p _
    · rfl
  · rfl

/-- R41: the work of an adoption. -/
def adoptWork (s : State) (ps : List Port) : CbcWork := ps.foldl (adoptPort s) (cbcBegin s)

theorem adoptPorts_eq (ps : List Port) : adoptPorts s ps = cbcEnd (adoptWork s ps) := rfl

theorem adoptWork_port (ps : List Port) (q : Port) :
    (adoptWork s ps).cbc.ports[q] = if q ∈ ps then adoptedRec s q s.cbc.ports[q] else s.cbc.ports[q] :=
  foldl_port (fun w p q => adoptPort_port s p w q) (adoptedRec_idem s) ps (cbcBegin s) q

theorem adoptWork_orders (ps : List Port) : (adoptWork s ps).cbc.orders = s.cbc.orders :=
  foldl_same (f := adoptPort s) (v := fun w : CbcWork => w.cbc.orders) (fun w p => adoptPort_orders s p w) ps (cbcBegin s)

theorem cbcEnd_below_of_released {w : CbcWork} (h : w.released = []) : Below 6 (cbcEnd w).2 := by
  simp [cbcEnd, h, handHolds, Msg.rank]

theorem adoptPorts_below (ps : List Port) : Below 6 (adoptPorts s ps).2 :=
  cbcEnd_below_of_released (w := adoptWork s ps)
    (foldl_same (f := adoptPort s) (v := fun w : CbcWork => w.released) (fun w p => adoptPort_released s p w) ps (cbcBegin s))

theorem adoptedRec_of_not {p : Port} (h : adoptable s p = false) (r : CabRec) : adoptedRec s p r = r := by
  unfold adoptedRec
  split
  · next hpop =>
    rw [adoptable, hpop, Bool.true_and] at h
    have htag : s.tcd.decs[p].tag = none := by simpa using h
    rw [htag]
  · rfl

end

/-- Settles O23: the three answers of ADPT, an accepted one port by port. -/
theorem portsAreAdopted : Obligations.PortsAreAdopted := by
  unfold Obligations.PortsAreAdopted
  intro k s hs set taken
  refine ⟨fun hset => ?_, fun p hp hhold hlower => ?_, fun hset hfree => ?_⟩
  · exact request_refused hs (if_pos hset)
  · have hfind : set.find? (fun p => s.cbc.ports[p].hold.isSome) = some p := by
      have hin : ∀ q : Port, q ∈ set ↔ (param8 s k (7 - q.val / 8)).getLsbD (q.val % 8) = true := by
        simp [set, portSet, allPorts]
      change (portSet s k).find? _ = _
      unfold portSet
      rw [List.find?_filter, allPorts, find?_finRange_eq_some]
      refine ⟨decide_eq_true ⟨(hin p).1 hp, Option.isSome_iff_ne_none.2 hhold⟩, fun q hq => decide_eq_false ?_⟩
      rintro ⟨hbit, hheld⟩
      rw [hlower q ((hin q).2 hbit) hq] at hheld
      cases hheld
    have hne : set ≠ [] := List.ne_nil_of_mem hp
    refine request_refused hs (?_ : askAdpt k s = _)
    unfold askAdpt
    simp only
    rw [if_neg hne, hfind]
  · have hfind : set.find? (fun p => s.cbc.ports[p].hold.isSome) = none := by
      rw [List.find?_eq_none]
      intro p hp
      simp only [hfree p hp]
      exact Bool.false_ne_true
    have howner : ownerOf k .adpt s = done (settled (putCbc s (adoptPorts s set)))
        (set.filter fun p => !adoptable s p).length := by
      change askAdpt k s = _
      unfold askAdpt
      simp only
      rw [if_neg hset, hfind]
    obtain ⟨t, hexec, hcbc, hanswered, hrqu, hsame⟩ := request_cbc hs howner (cbcEnd_noReq _) (cbcEnd_below _)
    have hport (p : Port) : t.cbc.ports[p] = if p ∈ set then adoptedRec s p s.cbc.ports[p] else s.cbc.ports[p] := by
      rw [hcbc, adoptPorts_eq]
      exact adoptWork_port s set p
    refine ⟨t, hexec, fun p v htaken htag => ?_, fun p htaken => ?_, ?_, ?_, hrqu, ?_⟩
    · simp only [taken, Bool.and_eq_true, decide_eq_true_eq] at htaken
      obtain ⟨⟨hmem, hpop⟩, _⟩ := htaken
      rw [hport, if_pos hmem, adoptedRec, if_pos hpop, htag]
      exact ⟨expectedRec_expect s p _ _, (expectedRec_tagWait s p _ _).trans (if_pos rfl),
        (expectedRec_hold s p _ _).trans (hfree p hmem)⟩
    · rw [hport]
      split
      · next hmem =>
        have hnot : adoptable s p = false := by simpa [taken, hmem, adoptable] using htaken
        exact adoptedRec_of_not s hnot _
      · rfl
    · rw [hcbc, adoptPorts_eq]
      exact adoptWork_orders s set
    · have hdetail : (set.filter fun p => !taken p) = set.filter fun p => !adoptable s p :=
        List.filter_congr fun p hp => by simp [taken, hp, adoptable]
      rw [hdetail]
      exact hanswered
    · refine unchangedBut_trans (t := settled (putCbc s (adoptPorts s set))) (fun q hq => ?_) (unchangedBut_mono hsame (by decide))
      by_cases htcd : q = .tcd
      · subst htcd
        exact (settledCbc_handsOn s (cbcEnd_noReport _)).2 .tcd (by decide)
      · refine settledCbc_touched s (adoptPorts_below s set) q ?_
        revert hq
        cases q <;> first | exact absurd rfl htcd | decide

/-! ### Orders named by their numbers (R51, R56, R57) -/

section
variable {s : State} {k : SlotIx}

theorem namedOrder_zero (h : param16 s k 0 = 0) : namedOrder s k = .error .badArg := if_pos h

theorem namedOrder_absent (h : param16 s k 0 ≠ 0) (hfind : findOrder s.cbc (param16 s k 0) = none) :
    namedOrder s k = .error .noObject := by
  unfold namedOrder
  simp only
  rw [if_neg h, hfind]

theorem namedOrder_found {i : OrderIx} {o : Order} (h : param16 s k 0 ≠ 0)
    (hfind : findOrder s.cbc (param16 s k 0) = some i) (ho : s.cbc.orders[i] = some o) : namedOrder s k = .ok (i, o) := by
  unfold namedOrder
  simp only
  rw [if_neg h, hfind]
  simp only
  rw [ho]

/-- R51, R56, R57: a request by an order number that names no order. -/
theorem named_refused {r : Request} {e : Result} (hr : r = .wken ∨ r = .wkcn ∨ r = .wkdr)
    (h : namedOrder s k = .error e) : ownerOf k r s = refuse s e 0 := by
  rcases hr with rfl | rfl | rfl
  · change askWken k s = _
    unfold askWken
    rw [h]
  · change askWkcn k s = _
    unfold askWkcn
    rw [h]
  · change askWkdr k s = _
    unfold askWkdr
    rw [h]

variable {i : OrderIx} {o : Order} (h : namedOrder s k = .ok (i, o))
include h

theorem wken_owner : ownerOf k .wken s =
    if o.state = .opened then done (settled (putCbc s (endOrder s i o))) 0 else refuse s .wrongState 0 := by
  change askWken k s = _
  unfold askWken
  rw [h]

theorem wkcn_owner : ownerOf k .wkcn s =
    if o.state = .opened ∨ o.state = .verifying then done (settled (putCbc s (cancelOrder s i o))) 0
    else refuse s .wrongState 0 := by
  change askWkcn k s = _
  unfold askWkcn
  rw [h]

theorem wkdr_owner : ownerOf k .wkdr s =
    if o.state = .opened ∨ o.state = .verifying then refuse s .wrongState 0
    else done (settled (putCbc s (dropOrder s i o))) 0 := by
  change askWkdr k s = _
  unfold askWkdr
  rw [h]

end

/-- R57: the work of a drop. -/
def dropWork (s : State) (i : OrderIx) (o : Order) : CbcWork :=
  { cbcBegin s with
    cbc := { s.cbc with orders := s.cbc.orders.set i none }
    alm := (if o.overrun then [.drop .workOverrun i] else []) ++ (if o.fault then [.drop .workFault i] else [])
    recs := [.work i o.number none none 0] }

theorem dropOrder_eq (s : State) (i : OrderIx) (o : Order) : dropOrder s i o = cbcEnd (dropWork s i o) := rfl

theorem dropWork_msgs (s : State) (i : OrderIx) (o : Order) :
    (cbcEnd (dropWork s i o)).2 = toAlm (dropWork s i o).alm ++ [.jrn [.work i o.number none none 0]] := rfl

/-- Settles O22: by the order that the number names. -/
theorem ordersAreNamedByTheirNumbers : Obligations.OrdersAreNamedByTheirNumbers := by
  unfold Obligations.OrdersAreNamedByTheirNumbers
  rintro k s r _ rfl hs refused
  refine ⟨fun hr => ⟨fun hzero => ?_, fun hne hfind => ?_⟩, fun i o hne hfind ho => ?_⟩
  · exact request_refused hs (named_refused hr (namedOrder_zero hzero))
  · exact request_refused hs (named_refused hr (namedOrder_absent hne hfind))
  · have hnamed := namedOrder_found hne hfind ho
    refine ⟨?_, ?_, ?_, ?_⟩
    · rintro rfl hst
      exact request_refused hs ((wken_owner hnamed).trans (if_neg hst))
    · rintro rfl hopen hverify
      exact request_refused hs ((wkcn_owner hnamed).trans (if_neg (by simp [hopen, hverify])))
    · rintro rfl hst
      exact request_refused hs ((wkdr_owner hnamed).trans (if_pos hst))
    · rintro rfl hopen hverify
      have howner := (wkdr_owner hnamed).trans (if_neg (by simp [hopen, hverify]))
      rw [dropOrder_eq] at howner
      obtain ⟨t, hexec, hcbc, hanswered, hrqu, hsame⟩ := request_cbc hs howner (cbcEnd_noReq _) (cbcEnd_below _)
      have hrecords : RecordsOf [.work i o.number none none 0] s (settled (putCbc s (cbcEnd (dropWork s i o)))) := by
        refine Records.thenOf (t := (putCbc s (cbcEnd (dropWork s i o))).1) ⟨rfl, [], rfl⟩ ?_
        exact settle_recordsOf 9 (cbcEnd_noMode _) (by simp [dropWork_msgs]) _
      obtain ⟨_, events, hjrn, hrecord⟩ := hrecords
      refine ⟨t, events, hexec, ?_, (hsame .jrn (by decide)).trans hjrn, ⟨none, 0, hrecord⟩, fun j hj => ?_, ?_,
        hanswered, hrqu, ?_⟩
      · rw [hcbc]
        exact (getElem_set_fin _ _ _ _).trans (if_pos rfl)
      · rw [hcbc]
        exact (getElem_set_fin _ _ _ _).trans (if_neg hj)
      · rw [hcbc]
        rfl
      · have hbelow : Below 3 (cbcEnd (dropWork s i o)).2 := by simp [dropWork_msgs, Msg.rank]
        exact unchangedBut_trans (unchangedBut_mono (settledCbc_touched s hbelow) (by decide)) (unchangedBut_mono hsame (by decide))

/-! ### An accepted WKOP (R48, R49) -/

section
variable {s : State} {k : SlotIx} {items : List (Port × Expectation)} {f : Option (Fin 8)}

theorem wkop_badForm (h : wkopItems s k = none ∨ wkopSection s k = none ∨ param16 s k 0 = 0 ∨ wkopCount s k = 0 ∨ 8 < wkopCount s k) :
    ownerOf k .wkop s = refuse s .badArg 0 := by
  change askWkop k s = _
  unfold askWkop
  simp only
  split
  · next hitems hsection =>
    rw [if_pos]
    simpa [hitems, hsection] using h
  · rfl

/-- R48: the entry that a well-read WKOP takes, or its refusal. -/
abbrev wkopEntry (s : State) (k : SlotIx) (f : Option (Fin 8)) (items : List (Port × Expectation)) :
    Except (Result × Nat) OrderIx := judgeWkop s (param16 s k 0) f (wkopOverride s k) (items.map (·.1))

section
variable (hitems : wkopItems s k = some items) (hsection : wkopSection s k = some f)
  (hform : ¬(param16 s k 0 = 0 ∨ wkopCount s k = 0 ∨ 8 < wkopCount s k))
include hitems hsection hform

theorem wkop_refused {e : Result × Nat} (h : wkopEntry s k f items = .error e) : ownerOf k .wkop s = refuse s e.1 e.2 := by
  change askWkop k s = _
  unfold askWkop
  simp only
  rw [hitems, hsection]
  simp only
  unfold wkopEntry at h
  rw [if_neg hform, h]

theorem wkop_accepted {i : OrderIx} (h : wkopEntry s k f items = .ok i) : ownerOf k .wkop s =
    done (settled (putCbc s (openOrder s i (param16 s k 0) (clampNat 1 480 (param16 s k 2)) f items)))
      (changed (param16 s k 2) (clampNat 1 480 (param16 s k 2))) := by
  change askWkop k s = _
  unfold askWkop
  simp only
  rw [hitems, hsection]
  simp only
  unfold wkopEntry at h
  rw [if_neg hform, h]

end

theorem mapM_length {α β : Type} {g : α → Option β} {xs : List α} {ys : List β} (h : xs.mapM g = some ys) :
    ys.length = xs.length := by
  induction xs generalizing ys with
  | nil => cases h; rfl
  | cons x xs ih =>
    simp only [List.mapM_cons, Option.bind_eq_bind, Option.bind_eq_some_iff, Option.pure_def, Option.some.injEq] at h
    obtain ⟨y, _, zs, hzs, rfl⟩ := h
    simp [ih hzs]

theorem wkopItems_length (h : wkopItems s k = some items) : items.length = wkopCount s k := by
  simpa using mapM_length h

end

section
variable (s : State) (i : OrderIx) (number window : Nat) (f : Option (Fin 8)) (items : List (Port × Expectation))

/-- R49: the order that an accepted WKOP opens. -/
def openedOrder : Order :=
  { number := number, state := .opened, window := window, frameSection := f
    items := items.map fun x => { port := x.1, expect := x.2, prev := none, outcome := .pending }
    reason := none, openedAt := s.now, overrun := false, fault := false, timer := some (window * 60 * perSecond) }

theorem openedOrder_ports : (openedOrder s number window f items).ports = items.map (·.1) := by
  simp [openedOrder, Order.ports]

/-- R46: ports that are marked and not yet judged. -/
def markWork (w : CbcWork) (i : OrderIx) (ps : List Port) : CbcWork :=
  { ps.foldl (holdPort i) w with alm := (ps.foldl (holdPort i) w).alm ++ ps.map fun p => .hold p true }

/-- R49: the work of an accepted WKOP. -/
def openWork (i : OrderIx) (o : Order) : CbcWork :=
  o.ports.foldl (reevaluate s) (markWork (putOrder (cbcBegin s) i o) i o.ports)

theorem openOrder_eq : openOrder s i number window f items =
    ((openWork s i (openedOrder s number window f items)).cbc,
      handHolds (openedOrder s number window f items).ports true ++
        (cbcEnd (openWork s i (openedOrder s number window f items))).2) := rfl

theorem openWork_port (o : Order) (q : Port) : (openWork s i o).cbc.ports[q] =
    if q ∈ o.ports then { s.cbc.ports[q] with hold := some i, state := .held } else s.cbc.ports[q] := by
  have hmarked : (markWork (putOrder (cbcBegin s) i o) i o.ports).cbc.ports[q] =
      if q ∈ o.ports then heldRec i s.cbc.ports[q] else s.cbc.ports[q] :=
    foldl_port (holdPort_port i) (g := fun _ => heldRec i) (fun _ _ => rfl) o.ports (putOrder (cbcBegin s) i o) q
  rw [openWork, reevaluateAll_port, hmarked]
  split
  · rw [judgedRec, cablingState_held (s := s) (r := heldRec i s.cbc.ports[q]) (p := q) nofun]
    rfl
  · rfl

theorem openWork_order (o : Order) (j : OrderIx) : (openWork s i o).cbc.orders[j] = if j = i then some o else s.cbc.orders[j] := by
  have horders : (openWork s i o).cbc.orders = (putOrder (cbcBegin s) i o).cbc.orders := by
    refine (foldl_same (f := reevaluate s) (v := fun w : CbcWork => w.cbc.orders) (fun _ _ => rfl) o.ports _).trans ?_
    exact foldl_same (f := holdPort i) (v := fun w : CbcWork => w.cbc.orders) (fun _ _ => rfl) o.ports _
  rw [horders]
  exact putOrder_order (cbcBegin s) i j o

theorem openOrder_noReport : ∀ m ∈ (openOrder s i number window f items).2, NoReport m := by
  rw [openOrder_eq]
  exact fun m hm => (List.mem_append.1 hm).elim (handHolds_noReport _ _ m) (cbcEnd_noReport _ m)

theorem openOrder_noReq : Msg.attn .req ∉ (openOrder s i number window f items).2 := by
  rw [openOrder_eq, List.mem_append, not_or]
  exact ⟨by simp [handHolds], cbcEnd_noReq _⟩

end

/-- R48: a WKOP that passes every check. -/
theorem judgeWkop_accepts {s : State} {number : Nat} {f : Option (Fin 8)} {override : Bool} {ps : List Port} {i : OrderIx}
    (hnd : ps.Nodup) (hports : ∀ p ∈ ps, outside f p = false ∧ s.populated p = true ∧ s.cbc.ports[p].hold = none)
    (hnumber : findOrder s.cbc number = none) (hfree : freeOrder s.cbc = some i)
    (htake : override = true ∨ firstNotTaken s ps [] ps 1 = none) : judgeWkop s number f override ps = .ok i := by
  have hout : positionOf (outside f) ps = none := positionOf_eq_none.2 fun p hp => (hports p hp).1
  have hpop : positionOf (fun p => !s.populated p) ps = none := positionOf_eq_none.2 fun p hp => by
    rw [(hports p hp).2.1]
    rfl
  have hheld : positionOf (fun p => s.cbc.ports[p].hold.isSome) ps = none := positionOf_eq_none.2 fun p hp => by
    rw [(hports p hp).2.2]
    rfl
  have htaken : (if override then none else firstNotTaken s ps [] ps 1) = none := by
    rcases htake with h | h
    · rw [if_pos h]
    · rw [h, ite_self]
  unfold judgeWkop
  rw [(Laws.repeated_eq_none_iff ps).2 hnd, hout, hpop, hnumber, hfree, hheld, htaken]

/-- Settles O18: the accepted WKOP's order and marks, read off the work of its event. -/
theorem anOrderIsOpened : Obligations.AnOrderIsOpened := by
  unfold Obligations.AnOrderIsOpened
  intro k s i items f hs hitems hsection hone height hnumber hnd hports hfresh hfree hlower htake w window
  have hcount := wkopItems_length hitems
  have hwindow : clampNat 1 480 (param16 s k 2) = window := rfl
  have haccept : wkopEntry s k f items = .ok i := by
    refine judgeWkop_accepts hnd (fun p hp => ?_) (findOrder_eq_none.2 hfresh) ?_ htake
    · obtain ⟨x, hx, rfl⟩ := List.mem_map.1 hp
      obtain ⟨hpop, hhold, hsec⟩ := hports x hx
      refine ⟨?_, hpop, hhold⟩
      cases f with
      | none => rfl
      | some v => simpa [outside] using hsec v rfl
    · rw [freeOrder, allOrders, find?_finRange_eq_some]
      refine ⟨by rw [hfree]; rfl, fun j hj => ?_⟩
      exact Bool.eq_false_iff.2 (mt Option.isNone_iff_eq_none.1 (hlower j hj))
  have howner := wkop_accepted hitems hsection (by omega) haccept
  rw [hwindow] at howner
  obtain ⟨t, hexec, hcbc, hanswered, hrqu, hsame⟩ := request_cbc hs howner (openOrder_noReq _ _ _ _ _ _)
    fun m hm => (openOrder_noReport _ _ _ _ _ _ m hm).1
  have hwork : t.cbc = (openWork s i (openedOrder s (param16 s k 0) window f items)).cbc := hcbc.trans (by rw [openOrder_eq])
  have hdetail : changed (param16 s k 2) window = if window = w then 0 else 1 := by
    unfold changed
    by_cases h : window = w
    · rw [if_pos h, if_pos h.symm]
    · rw [if_neg h, if_neg (Ne.symm h)]
  rw [hdetail] at hanswered
  refine ⟨t, hexec, ?_, fun j hj => ?_, fun p => ?_, hanswered, hrqu, ?_⟩
  · rw [hwork, openWork_order, if_pos rfl]
    rfl
  · rw [hwork, openWork_order, if_neg hj]
  · rw [hwork, openWork_port, openedOrder_ports]
  · exact unchangedBut_trans (unchangedBut_mono (settledCbc_handsOn s (openOrder_noReport _ _ _ _ _ _)).2 (by decide))
      (unchangedBut_mono hsame (by decide))

end Sys2Proof.Proofs
end

