-- ==== Sys2Proof/Proofs/OrderEnds.lean ====
section
/-! What becomes of a work order: its items judged, its end with the holds released, and the entry into VERIFYING
(R46, R50 to R56). -/

namespace Sys2Proof.Proofs

open Sys2Proof.Machine Sys2Proof.Safety Sys2Proof.Laws

/-! ### Items (R54) -/

theorem itemShown_any {s : State} {x : Item} (h : x.expect.kind = .any) : itemShown s x = true := by
  unfold itemShown
  rw [h]

theorem itemShown_dark {s : State} {x : Item} (h : x.expect.kind = .dark) :
    itemShown s x = true ↔ s.pmon.ports[x.port].handed = .dark := by
  unfold itemShown
  rw [h]
  exact decide_eq_true_iff

theorem itemShown_tag {s : State} {x : Item} (h : x.expect.kind = .tag) : itemShown s x = true ↔
    ∃ t, s.tcd.decs[x.port].tag = some t ∧ t.shelf = x.expect.shelf ∧ t.port.toNat = x.expect.port.toNat := by
  unfold itemShown
  rw [h]
  cases s.tcd.decs[x.port].tag <;> simp [tagMatches]

/-- Where an item does not ask what an order saved, its showing does not either. -/
theorem itemShown_congr {s : State} {x y : Item} (hport : y.port = x.port) (hexpect : y.expect = x.expect) :
    itemShown s y = itemShown s x := by
  cases x
  cases y
  cases hport
  cases hexpect
  rfl

theorem judgedItems_eq (s : State) (ports : List Port) (o : Order) : judgedItems s ports o = o.items.map fun x =>
    if x.port ∈ ports ∧ x.outcome = .pending ∧ itemShown s x = true then { x with outcome := .ok } else x := by
  unfold judgedItems
  refine List.map_congr_left fun x _ => ?_
  by_cases hport : x.port ∈ ports
  · simp [hport, judgeItem]
  · simp [hport]

theorem allOk_iff (xs : List Item) : allOk xs = true ↔ ∀ x ∈ xs, x.outcome = .ok := by simp [allOk]

/-! ### An order judged (R54) -/

/-- R54: an order after its items on the ports are judged. -/
def judgedOrder (s : State) (ports : List Port) (o : Order) : Order :=
  if o.state ≠ .verifying ∨ judgedItems s ports o = o.items then o
  else if allOk (judgedItems s ports o) then
    { o with items := judgedItems s ports o, state := .closedGood, timer := none }
  else { o with items := judgedItems s ports o }

/-- R46: a port's record with the expectation `e`, released and judged. -/
def releasedRec (s : State) (p : Port) (e : Expectation) : CabRec :=
  judgedRec s p { expect := e, state := .held, tagWait := some (tagWaitLength s), hold := none }

theorem judged_freed (s : State) (p : Port) (r : CabRec) : judgedRec s p (freedRec s r) = releasedRec s p r.expect := rfl

/-- What an event has told so far, it goes on to tell. -/
structure Grows (w w' : CbcWork) : Prop where
  alm      : w.alm ⊆ w'.alm
  recs     : w.recs ⊆ w'.recs
  released : w.released ⊆ w'.released

theorem Grows.refl (w : CbcWork) : Grows w w := ⟨fun _ h => h, fun _ h => h, fun _ h => h⟩

theorem Grows.trans {w w' w'' : CbcWork} (h : Grows w w') (k : Grows w' w'') : Grows w w'' :=
  ⟨fun _ x => k.alm (h.alm x), fun _ x => k.recs (h.recs x), fun _ x => k.released (h.released x)⟩

section
variable (s : State) (w : CbcWork) (ps : List Port)

theorem reevaluate_grows (p : Port) : Grows w (reevaluate s w p) :=
  ⟨by rw [reevaluate_alm]; exact List.subset_append_left _ _, fun _ h => h, fun _ h => h⟩

theorem reevaluateAll_grows : Grows w (ps.foldl (reevaluate s) w) :=
  foldl_keeps (P := Grows w) (fun v p h => h.trans (reevaluate_grows s v p)) ps (.refl w)

/-- R46: ports freed, with ALM's word of it, and not yet judged. -/
def freeWork (s : State) (w : CbcWork) (ps : List Port) : CbcWork :=
  { ps.foldl (unholdPort s) w with alm := (ps.foldl (unholdPort s) w).alm ++ ps.map fun p => .hold p false }

theorem releaseHolds_eq : releaseHolds s w ps = { ps.foldl (reevaluate s) (freeWork s w ps) with
    released := (ps.foldl (reevaluate s) (freeWork s w ps)).released ++ ps } := rfl

theorem freeWork_alm : (freeWork s w ps).alm = w.alm ++ ps.map fun p => .hold p false :=
  congrArg (· ++ _) (foldl_same (f := unholdPort s) (v := fun w : CbcWork => w.alm) (fun _ _ => rfl) ps w)

theorem releaseHolds_grows : Grows w (releaseHolds s w ps) := by
  refine ⟨fun c hc => ?_, by rw [releaseHolds_recs]; exact fun _ h => h, ?_⟩
  · rw [releaseHolds_eq]
    refine (reevaluateAll_grows s (freeWork s w ps) ps).alm ?_
    rw [freeWork_alm]
    exact List.mem_append_left _ hc
  · rw [releaseHolds_released]
    exact List.subset_append_left _ _

theorem releaseHolds_tells {p : Port} (h : p ∈ ps) : AlmChange.hold p false ∈ (releaseHolds s w ps).alm := by
  rw [releaseHolds_eq]
  refine (reevaluateAll_grows s (freeWork s w ps) ps).alm ?_
  rw [freeWork_alm]
  exact List.mem_append_right _ (List.mem_map_of_mem h)

theorem putOrder_grows (i : OrderIx) (o : Order) : Grows w (putOrder w i o) :=
  ⟨fun _ h => h, by rw [putOrder_recs]; exact List.subset_append_left _ _, fun _ h => h⟩

theorem closeGood_grows (i : OrderIx) (o : Order) : Grows w (closeGood s w i o) :=
  (releaseHolds_grows s w o.ports).trans (putOrder_grows _ i _)

end

section
variable {s : State} (ports : List Port)

/-- R54: how an order is judged: it stays, takes its items, or closes. -/
theorem judgeOrder_cases (w : CbcWork) (i : OrderIx) :
    (judgeOrder s ports w i = w ∧ (w.cbc.orders[i]).map (judgedOrder s ports) = w.cbc.orders[i]) ∨
    (∃ o, w.cbc.orders[i] = some o ∧ (judgeOrder s ports w i).cbc.orders = w.cbc.orders.set i (some (judgedOrder s ports o)) ∧
      (judgeOrder s ports w i).cbc.ports = w.cbc.ports ∧ Grows w (judgeOrder s ports w i)) ∨
    ∃ o, w.cbc.orders[i] = some o ∧ judgeOrder s ports w i = closeGood s w i { o with items := judgedItems s ports o } ∧
      judgedOrder s ports o = { o with items := judgedItems s ports o, state := .closedGood, timer := none } := by
  cases hi : w.cbc.orders[i] with
  | none => exact .inl ⟨judgeOrder_free hi, rfl⟩
  | some o =>
    by_cases hsame : o.state ≠ .verifying ∨ judgedItems s ports o = o.items
    · refine .inl ⟨judgeOrder_stays hi hsame, ?_⟩
      rw [Option.map_some, judgedOrder, if_pos hsame]
    · obtain ⟨hst, hitems⟩ := not_or.1 hsame
      have hmoves := judgeOrder_moves (s := s) hi (not_not.1 hst) hitems
      by_cases hok : allOk (judgedItems s ports o) = true
      · rw [if_pos hok] at hmoves
        exact .inr (.inr ⟨o, rfl, hmoves, by rw [judgedOrder, if_neg hsame, if_pos hok]⟩)
      · rw [if_neg hok] at hmoves
        refine .inr (.inl ⟨o, rfl, ?_, ?_, ?_⟩)
        · rw [hmoves, judgedOrder, if_neg hsame, if_neg hok]
        · rw [hmoves]
        · rw [hmoves]
          exact ⟨fun _ h => h, fun _ h => h, fun _ h => h⟩

theorem judgeOrder_grows (w : CbcWork) (i : OrderIx) : Grows w (judgeOrder s ports w i) := by
  rcases judgeOrder_cases (s := s) ports w i with ⟨h, _⟩ | ⟨_, _, _, _, h⟩ | ⟨_, _, h, _⟩
  · rw [h]; exact .refl w
  · exact h
  · rw [h]; exact closeGood_grows s w i _

theorem judgeOrder_orders (w : CbcWork) (i j : OrderIx) : (judgeOrder s ports w i).cbc.orders[j] =
    if j = i then (w.cbc.orders[i]).map (judgedOrder s ports) else w.cbc.orders[j] := by
  rcases judgeOrder_cases (s := s) ports w i with ⟨h, hsame⟩ | ⟨o, hi, h, _⟩ | ⟨o, hi, h, hclosed⟩
  · rw [h, hsame]
    split
    · next hj => rw [hj]
    · rfl
  · rw [h, hi]
    exact getElem_set_fin _ _ _ _
  · rw [h, hi, Option.map_some, hclosed, closeGood, putOrder_order, releaseHolds_orders]

/-- R46: an order judged keeps each port's expectation, and leaves a port that is released so. -/
theorem judgeOrder_port (w : CbcWork) (i : OrderIx) (p : Port) : (judgeOrder s ports w i).cbc.ports[p] = w.cbc.ports[p] ∨
    (judgeOrder s ports w i).cbc.ports[p] = releasedRec s p w.cbc.ports[p].expect := by
  rcases judgeOrder_cases (s := s) ports w i with ⟨h, _⟩ | ⟨o, _, _, h, _⟩ | ⟨o, _, h, _⟩
  · exact .inl (by rw [h])
  · exact .inl (by rw [h])
  · rw [h, closeGood, putOrder_ports, releaseHolds_port, judged_freed]
    split
    · exact .inr rfl
    · exact .inl rfl

theorem judgeOrder_expect (w : CbcWork) (i : OrderIx) (p : Port) :
    (judgeOrder s ports w i).cbc.ports[p].expect = w.cbc.ports[p].expect := by
  rcases judgeOrder_port (s := s) ports w i p with h | h <;> rw [h]
  rfl

theorem judgeOrder_released {w : CbcWork} {p : Port} {e : Expectation} (h : w.cbc.ports[p] = releasedRec s p e) (i : OrderIx) :
    (judgeOrder s ports w i).cbc.ports[p] = releasedRec s p e := by
  rcases judgeOrder_port (s := s) ports w i p with h' | h' <;> rw [h', h]
  rfl

theorem judgeOrders_grows (is : List OrderIx) (w : CbcWork) : Grows w (is.foldl (judgeOrder s ports) w) :=
  foldl_keeps (P := Grows w) (fun v i h => h.trans (judgeOrder_grows ports v i)) is (.refl w)

theorem judgeOrders_expect (is : List OrderIx) (w : CbcWork) (p : Port) :
    (is.foldl (judgeOrder s ports) w).cbc.ports[p].expect = w.cbc.ports[p].expect :=
  foldl_same (f := judgeOrder s ports) (v := fun w : CbcWork => w.cbc.ports[p].expect)
    (fun w i => judgeOrder_expect ports w i p) is w

theorem judgeOrders_orders (is : List OrderIx) (hnd : is.Nodup) (w : CbcWork) (j : OrderIx) :
    (is.foldl (judgeOrder s ports) w).cbc.orders[j] =
      if j ∈ is then (w.cbc.orders[j]).map (judgedOrder s ports) else w.cbc.orders[j] := by
  induction is generalizing w with
  | nil => rfl
  | cons i is ih =>
    obtain ⟨hi, hnd⟩ := List.nodup_cons.1 hnd
    rw [List.foldl_cons, ih hnd, judgeOrder_orders]
    by_cases hj : j = i
    · subst hj
      simp only [if_neg hi, if_true, List.mem_cons, true_or]
    · rw [if_neg hj]
      simp only [List.mem_cons, hj, false_or]

end

/-- R54: all orders judged, each on its own. -/
theorem allJudged_order (s : State) (ports : List Port) (w : CbcWork) (i : OrderIx) :
    (allOrders.foldl (judgeOrder s ports) w).cbc.orders[i] = (w.cbc.orders[i]).map (judgedOrder s ports) := by
  rw [judgeOrders_orders ports allOrders (List.nodup_finRange 16) w i]
  exact if_pos (List.mem_finRange i)

/-- R46, R54: what a closing order leaves of the event. -/
structure Closes (s : State) (w : CbcWork) (i : OrderIx) (o : Order) (e : Port → Expectation) : Prop where
  record   : .work i o.number (some .closedGood) o.reason 0 ∈ w.recs
  released : ∀ p ∈ o.ports, p ∈ w.released ∧ .hold p false ∈ w.alm ∧ w.cbc.ports[p] = releasedRec s p (e p)

theorem closeGood_closes (s : State) (w : CbcWork) (i : OrderIx) {o o' : Order} (hports : o'.ports = o.ports)
    (hnumber : o'.number = o.number) (hreason : o'.reason = o.reason) (hok : allOk o'.items = true) :
    Closes s (closeGood s w i o') i o fun p => w.cbc.ports[p].expect := by
  have hfailed : (o'.items.filter fun x => decide (x.outcome = .failed)) = [] := by
    refine List.filter_eq_nil_iff.2 fun x hx => ?_
    rw [(allOk_iff _).1 hok x hx]
    decide
  refine ⟨?_, fun p hp => ⟨?_, ?_, ?_⟩⟩
  · rw [closeGood, putOrder_recs, List.mem_append]
    refine .inr (List.mem_singleton.2 ?_)
    simp only [workRecord, hfailed, hnumber, hreason]
    rfl
  · refine (putOrder_grows _ i _).released ?_
    rw [releaseHolds_released, hports]
    exact List.mem_append_right _ hp
  · exact (putOrder_grows _ i _).alm (releaseHolds_tells s w _ (hports ▸ hp))
  · rw [closeGood, putOrder_ports, releaseHolds_port, if_pos (hports ▸ hp), judged_freed]

/-- R54: an order among all that the judgement closes. -/
theorem allJudged_closes (s : State) (ports : List Port) (w : CbcWork) {i : OrderIx} {o : Order}
    (hi : w.cbc.orders[i] = some o) (hst : o.state = .verifying) (hitems : judgedItems s ports o ≠ o.items)
    (hok : allOk (judgedItems s ports o) = true) :
    Closes s (allOrders.foldl (judgeOrder s ports) w) i o fun p => w.cbc.ports[p].expect := by
  obtain ⟨before, after, hsplit⟩ := List.append_of_mem (List.mem_finRange i)
  have hnd : (before ++ i :: after).Nodup := hsplit ▸ List.nodup_finRange 16
  obtain ⟨hbefore, _, hapart⟩ := List.nodup_append.1 hnd
  have hnot : i ∉ before := fun h => hapart i h i List.mem_cons_self rfl
  rw [show allOrders = before ++ i :: after from hsplit, List.foldl_append, List.foldl_cons]
  generalize hv : before.foldl (judgeOrder s ports) w = v
  have hvi : v.cbc.orders[i] = some o := by
    rw [← hv, judgeOrders_orders ports before hbefore, if_neg hnot, hi]
  have hve (p : Port) : v.cbc.ports[p].expect = w.cbc.ports[p].expect := by rw [← hv]; exact judgeOrders_expect ports before w p
  have hclose : judgeOrder s ports v i = closeGood s v i { o with items := judgedItems s ports o } := by
    rw [judgeOrder_moves hvi hst hitems, if_pos hok]
  obtain ⟨hrecord, hreleased⟩ := closeGood_closes s v i (o := o) (o' := { o with items := judgedItems s ports o })
    (judgedItems_ports s ports o) rfl rfl hok
  rw [← hclose] at hrecord hreleased
  have hgrows := judgeOrders_grows (s := s) ports after (judgeOrder s ports v i)
  refine ⟨hgrows.recs hrecord, fun p hp => ?_⟩
  obtain ⟨hrel, halm, hport⟩ := hreleased p hp
  refine ⟨hgrows.released hrel, hgrows.alm halm, ?_⟩
  rw [hve p] at hport
  exact foldl_keeps (f := judgeOrder s ports) (P := fun v => v.cbc.ports[p] = releasedRec s p w.cbc.ports[p].expect)
    (fun _ j h => judgeOrder_released ports h j) after hport

/-- What the end of an event hands on. -/
theorem cbcEnd_hands (w : CbcWork) : (w.recs ≠ [] → .jrn w.recs ∈ (cbcEnd w).2) ∧
    (w.released ≠ [] → .prcHold w.released false ∈ (cbcEnd w).2) ∧ (w.alm ≠ [] → .alm w.alm ∈ (cbcEnd w).2) := by
  refine ⟨fun h => ?_, fun h => ?_, fun h => ?_⟩
  · simp [cbcEnd, toJrn, h]
  · simp [cbcEnd, handHolds, h]
  · simp [cbcEnd, toAlm, h]

/-- R54: the judgement of all orders at the end of an event whose ports keep their expectations. -/
theorem judgement_said (s : State) (ports : List Port) {w : CbcWork} (horders : w.cbc.orders = s.cbc.orders)
    (hexpect : ∀ p : Port, w.cbc.ports[p].expect = s.cbc.ports[p].expect) {r : Cbc × List Msg}
    (hr : r = cbcEnd (allOrders.foldl (judgeOrder s ports) w)) (i : OrderIx) :
    (s.cbc.orders[i] = none → r.1.orders[i] = none) ∧
    ∀ o, s.cbc.orders[i] = some o →
      (o.state ≠ .verifying ∨ judgedItems s ports o = o.items → r.1.orders[i] = some o) ∧
      (o.state = .verifying → judgedItems s ports o ≠ o.items →
        ((∃ x ∈ judgedItems s ports o, x.outcome ≠ .ok) → r.1.orders[i] = some { o with items := judgedItems s ports o }) ∧
        ((∀ x ∈ judgedItems s ports o, x.outcome = .ok) →
          r.1.orders[i] = some { o with items := judgedItems s ports o, state := .closedGood, timer := none } ∧
          (∃ recs, .jrn recs ∈ r.2 ∧ .work i o.number (some .closedGood) o.reason 0 ∈ recs) ∧
          ∃ released batch, .prcHold released false ∈ r.2 ∧ .alm batch ∈ r.2 ∧
            ∀ x ∈ o.items, x.port ∈ released ∧ .hold x.port false ∈ batch ∧
              r.1.ports[x.port] = { s.cbc.ports[x.port] with
                hold := none, tagWait := some (s.rqu.shelf.tagWait * 4)
                state := cablingState s r.1.ports[x.port] x.port })) := by
  have hcloses (o : Order) (hi : s.cbc.orders[i] = some o) := allJudged_closes s ports w (i := i) (o := o) (horders ▸ hi)
  have horder := allJudged_order s ports w i
  generalize allOrders.foldl (judgeOrder s ports) w = v at hcloses horder hr
  subst hr
  rw [horders] at horder
  have horder : (cbcEnd v).1.orders[i] = (s.cbc.orders[i]).map (judgedOrder s ports) := horder
  refine ⟨fun hi => by rw [horder, hi]; rfl, fun o hi => ⟨fun hsame => ?_, fun hst hitems => ⟨fun hnot => ?_, fun hall => ?_⟩⟩⟩
  · rw [horder, hi, Option.map_some, judgedOrder, if_pos hsame]
  · have hsame : ¬(o.state ≠ .verifying ∨ judgedItems s ports o = o.items) := by simp [hst, hitems]
    have hok : ¬allOk (judgedItems s ports o) = true := by
      rw [allOk_iff]
      rintro h
      obtain ⟨x, hx, hne⟩ := hnot
      exact hne (h x hx)
    rw [horder, hi, Option.map_some, judgedOrder, if_neg hsame, if_neg hok]
  · have hsame : ¬(o.state ≠ .verifying ∨ judgedItems s ports o = o.items) := by simp [hst, hitems]
    have hok := (allOk_iff _).2 hall
    obtain ⟨hrecord, hreleased⟩ := hcloses o hi hst hitems hok
    obtain ⟨hjrn, hprc, halm⟩ := cbcEnd_hands v
    obtain ⟨x, hx⟩ : ∃ x, x ∈ o.items := by
      refine List.exists_mem_of_ne_nil _ fun hnil => hitems ?_
      rw [judgedItems, hnil]
      rfl
    obtain ⟨hrel, hhold, _⟩ := hreleased x.port (List.mem_map_of_mem hx)
    refine ⟨?_, ⟨_, hjrn (List.ne_nil_of_mem hrecord), hrecord⟩, _, _, hprc (List.ne_nil_of_mem hrel),
      halm (List.ne_nil_of_mem hhold), fun x hx => ?_⟩
    · rw [horder, hi, Option.map_some, judgedOrder, if_neg hsame, if_pos hok]
    · obtain ⟨hrel, hhold, hport⟩ := hreleased x.port (List.mem_map_of_mem hx)
      have hport : (cbcEnd v).1.ports[x.port] = releasedRec s x.port s.cbc.ports[x.port].expect := by
        rw [cbcEnd_port, hport, hexpect]
      refine ⟨hrel, hhold, ?_⟩
      rw [hport]
      rfl

/-! ### Entering VERIFYING (R50) -/

/-- R50: an item as its order enters VERIFYING. -/
def enteredItem (s : State) (w : CbcWork) (x : Item) : Item :=
  { x with
    prev := some w.cbc.ports[x.port].expect
    outcome := if x.expect.kind = .any ∨ (x.outcome = .pending ∧ itemShown s x = true) then .ok else x.outcome }

/-- R50: an item whose expectation is installed, before it is judged. -/
def installedItem (w : CbcWork) (x : Item) : Item :=
  { x with prev := some w.cbc.ports[x.port].expect, outcome := if x.expect.kind = .any then .ok else x.outcome }

theorem judge_installed (s : State) (w : CbcWork) (x : Item) : judgeItem s (installedItem w x) = enteredItem s w x := by
  have hshown : itemShown s (installedItem w x) = itemShown s x := itemShown_congr rfl rfl
  unfold judgeItem
  rw [hshown]
  by_cases hany : x.expect.kind = .any
  · simp [installedItem, enteredItem, hany]
  · by_cases hjudged : x.outcome = .pending ∧ itemShown s x = true <;>
      simp [installedItem, enteredItem, hany, hjudged]

section
variable (s : State)

theorem setExpectation_other (w : CbcWork) {p q : Port} (h : q ≠ p) (e : Expectation) :
    (setExpectation s w p e).cbc.ports[q] = w.cbc.ports[q] := by rw [setExpectation_port, if_neg h]

theorem setExpectation_expect (w : CbcWork) (p : Port) (e : Expectation) :
    (setExpectation s w p e).cbc.ports[p].expect = e := by rw [setExpectation_port, if_pos rfl, expectedRec_expect]

theorem installItems_other (xs : List Item) (w : CbcWork) {q : Port} (h : q ∉ xs.map (·.port)) :
    (installItems s w xs).1.cbc.ports[q] = w.cbc.ports[q] := by
  induction xs generalizing w with
  | nil => rfl
  | cons x xs ih =>
    obtain ⟨hx, hxs⟩ := not_or.1 (mt List.mem_cons.2 h)
    exact (ih _ hxs).trans (setExpectation_other s w hx x.expect)

theorem installItems_expect (xs : List Item) (hnd : (xs.map (·.port)).Nodup) (w : CbcWork) {x : Item} (hx : x ∈ xs) :
    (installItems s w xs).1.cbc.ports[x.port].expect = x.expect := by
  induction xs generalizing w with
  | nil => cases hx
  | cons y xs ih =>
    obtain ⟨hy, hnd⟩ := List.nodup_cons.1 hnd
    rcases List.mem_cons.1 hx with rfl | hx
    · exact (congrArg CabRec.expect (installItems_other s xs _ hy)).trans (setExpectation_expect s w x.port x.expect)
    · exact ih hnd _ hx

theorem installItems_items (xs : List Item) (hnd : (xs.map (·.port)).Nodup) (w : CbcWork) :
    (installItems s w xs).2 = xs.map (installedItem w) := by
  induction xs generalizing w with
  | nil => rfl
  | cons x xs ih =>
    obtain ⟨hx, hnd⟩ := List.nodup_cons.1 hnd
    refine congrArg (installedItem w x :: ·) ((ih hnd _).trans ?_)
    refine List.map_congr_left fun y hy => ?_
    have hne : y.port ≠ x.port := fun heq => hx (List.mem_map.2 ⟨y, hy, heq⟩)
    unfold installedItem
    rw [setExpectation_other s w hne]

end

/-- R50 to R52: an order as it has entered VERIFYING, or closed there. -/
def enteredOrder (s : State) (w : CbcWork) (o : Order) (why : Reason) : Order :=
  let items := o.items.map (enteredItem s w)
  { o with
    state := if allOk items then .closedGood else .verifying, reason := some why, items := items
    timer := if allOk items then none else some (s.rqu.shelf.verify * 4000) }

/-- R50: the work of an order that is in VERIFYING, before it may close. -/
def enteringWork (s : State) (w : CbcWork) (i : OrderIx) (o : Order) (why : Reason) : CbcWork :=
  putOrder (installItems s w o.items).1 i (verifyingOrder s w o why)

section
variable {s : State} {w : CbcWork} {i : OrderIx} {o : Order} {why : Reason} (hnd : (o.items.map (·.port)).Nodup)
include hnd

theorem verifyingOrder_items : (verifyingOrder s w o why).items = o.items.map (enteredItem s w) := by
  simp only [verifyingOrder, installItems_items s o.items hnd w, List.map_map]
  exact List.map_congr_left fun x _ => judge_installed s w x

theorem enterVerifying_cases :
    (allOk (o.items.map (enteredItem s w)) = true ∧ enteredOrder s w o why = { verifyingOrder s w o why with state := .closedGood, timer := none } ∧
      enterVerifying s w i o why = closeGood s (enteringWork s w i o why) i (verifyingOrder s w o why)) ∨
    (¬allOk (o.items.map (enteredItem s w)) = true ∧ enteredOrder s w o why = verifyingOrder s w o why ∧
      enterVerifying s w i o why = enteringWork s w i o why) := by
  have hitems := verifyingOrder_items (s := s) (w := w) (why := why) hnd
  by_cases hok : allOk (o.items.map (enteredItem s w)) = true
  · refine .inl ⟨hok, ?_, ?_⟩
    · simp only [enteredOrder, ← hitems, if_pos (hitems ▸ hok : allOk (verifyingOrder s w o why).items = true)]
      rfl
    · rw [enterVerifying_eq, hitems, if_pos hok]
      rfl
  · refine .inr ⟨hok, ?_, ?_⟩
    · simp only [enteredOrder, ← hitems, if_neg (hitems ▸ hok : ¬allOk (verifyingOrder s w o why).items = true)]
      rfl
    · rw [enterVerifying_eq, hitems, if_neg hok]
      rfl

omit hnd in
theorem enteringWork_order (j : OrderIx) : (enteringWork s w i o why).cbc.orders[j] =
    if j = i then some (verifyingOrder s w o why) else w.cbc.orders[j] := by
  rw [enteringWork, putOrder_order, installItems_orders]

omit hnd in
theorem enteringWork_ports : (enteringWork s w i o why).cbc.ports = (installItems s w o.items).1.cbc.ports := rfl

theorem enterVerifying_order (j : OrderIx) : (enterVerifying s w i o why).cbc.orders[j] =
    if j = i then some (enteredOrder s w o why) else w.cbc.orders[j] := by
  rcases enterVerifying_cases (s := s) (w := w) (i := i) (why := why) hnd with ⟨_, horder, hwork⟩ | ⟨_, horder, hwork⟩
  · rw [hwork, horder, closeGood, putOrder_order, releaseHolds_orders, enteringWork_order]
    split <;> rfl
  · rw [hwork, horder, enteringWork_order]

theorem enterVerifying_listed {x : Item} (hx : x ∈ o.items) :
    (enterVerifying s w i o why).cbc.ports[x.port].expect = x.expect ∧
    (enterVerifying s w i o why).cbc.ports[x.port].hold =
      if allOk (o.items.map (enteredItem s w)) then none else w.cbc.ports[x.port].hold := by
  have hexpect := installItems_expect s o.items hnd w hx
  rcases enterVerifying_cases (s := s) (w := w) (i := i) (why := why) hnd with ⟨hok, _, hwork⟩ | ⟨hok, _, hwork⟩
  · have hlisted : x.port ∈ (verifyingOrder s w o why).ports := by
      rw [verifyingOrder_ports]
      exact List.mem_map_of_mem hx
    rw [if_pos hok, hwork, closeGood, putOrder_ports, releaseHolds_port, if_pos hlisted, enteringWork_ports]
    exact ⟨hexpect, rfl⟩
  · rw [if_neg hok, hwork, enteringWork_ports]
    exact ⟨hexpect, installItems_hold s w o.items x.port⟩

theorem enterVerifying_other {p : Port} (hp : p ∉ o.items.map (·.port)) :
    (enterVerifying s w i o why).cbc.ports[p] = w.cbc.ports[p] := by
  have hinstalled := installItems_other s o.items w hp
  rcases enterVerifying_cases (s := s) (w := w) (i := i) (why := why) hnd with ⟨_, _, hwork⟩ | ⟨_, _, hwork⟩
  · have hnot : p ∉ (verifyingOrder s w o why).ports := by
      rw [verifyingOrder_ports]
      exact hp
    rw [hwork, closeGood, putOrder_ports, releaseHolds_port, if_neg hnot, enteringWork_ports]
    exact hinstalled
  · rw [hwork, enteringWork_ports]
    exact hinstalled

end

/-! ### The ends of an order (R55, R56) -/

section
variable (s : State)

theorem restoreItem_other (w : CbcWork) (x : Item) {q : Port} (h : q ≠ x.port) :
    (restoreItem s w x).cbc.ports[q] = w.cbc.ports[q] := by
  unfold restoreItem
  split
  · exact setExpectation_other s w h _
  · rfl

theorem restoreItem_expect (w : CbcWork) (x : Item) :
    (restoreItem s w x).cbc.ports[x.port].expect = x.prev.getD w.cbc.ports[x.port].expect := by
  unfold restoreItem
  cases x.prev with
  | some e => exact setExpectation_expect s w x.port e
  | none => rfl

theorem restoreItems_other (xs : List Item) (w : CbcWork) {q : Port} (h : q ∉ xs.map (·.port)) :
    (xs.foldl (restoreItem s) w).cbc.ports[q] = w.cbc.ports[q] := by
  induction xs generalizing w with
  | nil => rfl
  | cons x xs ih =>
    obtain ⟨hx, hxs⟩ := not_or.1 (mt List.mem_cons.2 h)
    exact (ih _ hxs).trans (restoreItem_other s w x hx)

theorem restoreItems_expect (xs : List Item) (hnd : (xs.map (·.port)).Nodup) (w : CbcWork) {x : Item} (hx : x ∈ xs) :
    (xs.foldl (restoreItem s) w).cbc.ports[x.port].expect = x.prev.getD w.cbc.ports[x.port].expect := by
  induction xs generalizing w with
  | nil => cases hx
  | cons y xs ih =>
    obtain ⟨hy, hnd⟩ := List.nodup_cons.1 hnd
    rcases List.mem_cons.1 hx with rfl | hx
    · exact (congrArg CabRec.expect (restoreItems_other s xs _ hy)).trans (restoreItem_expect s w x)
    · have hne : x.port ≠ y.port := fun heq => hy (List.mem_map.2 ⟨x, hx, heq⟩)
      rw [List.foldl_cons, ih hnd _ hx, restoreItem_other s w y hne]

/-- R55: an order that its verify timer closes. -/
def faultyOrder (o : Order) : Order :=
  { o with
    state := .closedFault, fault := true, timer := none
    items := o.items.map fun x => if x.outcome = .pending then { x with outcome := .failed } else x }

/-- R55: the work of a verify timer that runs out. -/
def faultyWork (i : OrderIx) (o : Order) : CbcWork :=
  putOrder (releaseHolds s { cbcBegin s with alm := [.offer .workFault i] } o.ports) i (faultyOrder o)

/-- R56: a cancelled order. -/
def cancelledOrder (o : Order) : Order :=
  { o with state := .cancelled, timer := none, reason := if o.state = .opened then some .host else o.reason }

/-- R56: the ports of an order with the saved expectations given back, as its state asks. -/
def restoredWork (o : Order) : CbcWork :=
  if o.state = .verifying then o.items.foldl (restoreItem s) (cbcBegin s) else cbcBegin s

/-- R56: the work of a cancelled order. -/
def cancelledWork (i : OrderIx) (o : Order) : CbcWork :=
  putOrder (releaseHolds s (restoredWork s o) o.ports) i (cancelledOrder o)

theorem cancelOrder_eq (i : OrderIx) (o : Order) : cancelOrder s i o = cbcEnd (cancelledWork s i o) := rfl

theorem restoredWork_orders (o : Order) : (restoredWork s o).cbc.orders = s.cbc.orders := by
  unfold restoredWork
  split
  · exact restoreItems_orders s _ _
  · rfl

theorem restoredWork_other {o : Order} {q : Port} (h : q ∉ o.items.map (·.port)) :
    (restoredWork s o).cbc.ports[q] = s.cbc.ports[q] := by
  unfold restoredWork
  split
  · exact restoreItems_other s o.items (cbcBegin s) h
  · rfl

theorem restoredWork_expect {o : Order} (hnd : (o.items.map (·.port)).Nodup) {x : Item} (hx : x ∈ o.items) :
    (restoredWork s o).cbc.ports[x.port].expect =
      if o.state = .verifying then x.prev.getD s.cbc.ports[x.port].expect else s.cbc.ports[x.port].expect := by
  unfold restoredWork
  split
  · exact restoreItems_expect s o.items hnd (cbcBegin s) hx
  · rfl

/-- R46: what an order that ends leaves of its ports, of the others and of the order table. -/
theorem ended_said (w : CbcWork) (i : OrderIx) (o o' : Order) :
    (∀ x ∈ o.items, (putOrder (releaseHolds s w o.ports) i o').cbc.ports[x.port] = releasedRec s x.port w.cbc.ports[x.port].expect) ∧
    (∀ p, p ∉ o.items.map (·.port) → (putOrder (releaseHolds s w o.ports) i o').cbc.ports[p] = w.cbc.ports[p]) ∧
    ∀ j : OrderIx, (putOrder (releaseHolds s w o.ports) i o').cbc.orders[j] = if j = i then some o' else w.cbc.orders[j] := by
  refine ⟨fun x hx => ?_, fun p hp => ?_, fun j => ?_⟩
  · have hlisted : x.port ∈ o.ports := List.mem_map_of_mem hx
    rw [putOrder_ports, releaseHolds_port, if_pos hlisted, judged_freed]
  · rw [putOrder_ports, releaseHolds_port, if_neg (show p ∉ o.ports from hp)]
  · rw [putOrder_order, releaseHolds_orders]

end

/-! ### The events -/

section
variable {s : State} {i : OrderIx} {o : Order} (ho : s.cbc.orders[i] = some o)
include ho

theorem cbcWindow_eq (hst : o.state = .opened) : cbcWindow s i =
    cbcEnd (enterVerifying s { cbcBegin s with alm := [.offer .workOverrun i] } i { o with overrun := true } .expired) := by
  unfold cbcWindow
  rw [ho]
  simp only
  rw [if_neg (not_not.2 hst)]

theorem cbcVerify_eq (hst : o.state = .verifying) : cbcVerify s i = cbcEnd (faultyWork s i o) := by
  unfold cbcVerify
  rw [ho]
  simp only
  rw [if_neg (not_not.2 hst)]
  rfl

theorem orderTimes_true {st : OrderState} (hst : o.state = st) (htimer : o.timer ≠ none) : orderTimes s i st = true := by
  unfold orderTimes
  rw [ho]
  simp only [hst, decide_true, Bool.true_and]
  exact Option.isSome_iff_ne_none.2 htimer

end

section
variable {s : State} {i : OrderIx} {o : Order} (ho : s.cbc.orders[i] = some o) (hready : s.start.ready = true)
  (htimer : o.timer ≠ none)
include ho hready htimer

theorem exec_windowExpiry (hst : o.state = .opened) :
    exec (.windowExpiry i) s = .next (settled (putCbc s (cbcWindow s i))) :=
  whenever_true (by rw [hready, orderTimes_true ho hst htimer]; rfl) _ _

theorem exec_verifyTimerExpiry (hst : o.state = .verifying) :
    exec (.verifyTimerExpiry i) s = .next (settled (putCbc s (cbcVerify s i))) :=
  whenever_true (by rw [hready, orderTimes_true ho hst htimer]; rfl) _ _

end

/-- Settles O20: the showing of items, the judgement of every order, and the entry into VERIFYING. -/
theorem anOrderEntersVerifying : Obligations.AnOrderEntersVerifying := by
  unfold Obligations.AnOrderEntersVerifying
  refine ⟨fun s x => ⟨itemShown_any, itemShown_dark, itemShown_tag⟩, fun s ports r hr i => ?_, ?_⟩
  · simp only [← judgedItems_eq]
    rcases hr with ⟨cs, rfl, rfl⟩ | ⟨p, rfl, rfl⟩
    · refine judgement_said s _ ?_ (fun p => ?_) (cbcPorts_eq s cs) i
      · exact foldl_same (f := cbcPort s) (v := fun w : CbcWork => w.cbc.orders) (cbcPort_orders s) cs (cbcBegin s)
      · refine foldl_same (f := cbcPort s) (v := fun w : CbcWork => w.cbc.ports[p].expect) (fun w c => ?_) cs (cbcBegin s)
        rw [cbcPort_port]
        split
        · unfold restartedRec
          split <;> rfl
        · rfl
    · refine judgement_said s _ rfl (fun q => ?_) (cbcTag_eq s p) i
      rw [reevaluate_port]
      split
      · next hq => rw [hq]; rfl
      · rfl
  · intro s i o ho hst hnd entered
    have hentered {t : State} {w : CbcWork} {o' : Order} (why : Reason) (hw : w.cbc = s.cbc) (hitems : o'.items = o.items)
        (ht : t.cbc = (enterVerifying s w i o' why).cbc)
        (horder : enteredOrder s (cbcBegin s) o' why = { enteredOrder s (cbcBegin s) o why with overrun := o'.overrun }) :
        entered t why o'.overrun := by
      have hsame : enteredItem s w = enteredItem s (cbcBegin s) := by
        funext x
        unfold enteredItem
        rw [hw]
        rfl
      have hnd' : (o'.items.map (·.port)).Nodup := hitems ▸ hnd
      refine ⟨?_, fun x hx => ?_, fun j hj => ?_, fun p hp => ?_⟩
      · rw [ht, enterVerifying_order hnd', if_pos rfl]
        refine congrArg some (Eq.trans ?_ horder)
        unfold enteredOrder
        rw [hsame]
      · have := enterVerifying_listed (s := s) (w := w) (i := i) (why := why) hnd' (hitems ▸ hx)
        rw [hitems, hsame, hw, ← ht] at this
        exact this
      · rw [ht, enterVerifying_order hnd', if_neg hj, hw]
      · rw [ht, enterVerifying_other hnd' (hitems ▸ hp), hw]
    refine ⟨fun hready htimer => ?_, fun k hs hne hfind => ?_⟩
    · have hexec := exec_windowExpiry ho hready htimer hst
      obtain ⟨hcbc, hframe⟩ := settledCbc_handsOn s (r := cbcWindow s i) (cbcWindow_eq ho hst ▸ cbcEnd_noReport _)
      rw [cbcWindow_eq ho hst] at hcbc
      exact ⟨_, hexec, hentered (w := { cbcBegin s with alm := [.offer .workOverrun i] }) (o' := { o with overrun := true })
        .expired rfl rfl (by rw [cbcWindow_eq ho hst]; exact hcbc) rfl, unchangedBut_mono hframe (by decide)⟩
    · have howner := (wken_owner (namedOrder_found hne hfind ho)).trans (if_pos hst)
      obtain ⟨t, hexec, hcbc, hanswered, hrqu, hsame⟩ := request_cbc hs howner (cbcEnd_noReq _) (cbcEnd_below _)
      refine ⟨t, hexec, hentered .host (w := cbcBegin s) rfl rfl hcbc rfl, hanswered, hrqu, ?_⟩
      exact unchangedBut_trans (unchangedBut_mono (settledCbc_handsOn s (cbcEnd_noReport _)).2 (by decide))
        (unchangedBut_mono hsame (by decide))

/-- Settles O21: both ends release the order's ports together. -/
theorem anOrderEndsWithItsHoldsReleased : Obligations.AnOrderEndsWithItsHoldsReleased := by
  unfold Obligations.AnOrderEndsWithItsHoldsReleased
  intro s i o ho hnd released
  have hreleased {t : State} {w : CbcWork} {o' : Order} (hports : ∀ p, p ∉ o.items.map (·.port) → w.cbc.ports[p] = s.cbc.ports[p])
      (horders : w.cbc.orders = s.cbc.orders) (ht : t.cbc = (putOrder (releaseHolds s w o.ports) i o').cbc) :
      released t ∧ t.cbc.orders[i] = some o' ∧ ∀ x ∈ o.items, t.cbc.ports[x.port].expect = w.cbc.ports[x.port].expect := by
    obtain ⟨hlisted, hother, horder⟩ := ended_said s w i o o'
    rw [← ht] at hlisted hother horder
    refine ⟨⟨fun x hx => ?_, fun j hj => ?_, fun p hp => (hother p hp).trans (hports p hp)⟩, ?_, fun x hx => ?_⟩
    · rw [hlisted x hx]
      exact ⟨rfl, rfl⟩
    · rw [horder, if_neg hj, horders]
    · rw [horder, if_pos rfl]
    · rw [hlisted x hx]
      rfl
  refine ⟨fun hready hst htimer => ?_, fun k hs hne hfind hst => ?_⟩
  · have hexec := exec_verifyTimerExpiry ho hready htimer hst
    obtain ⟨hcbc, hframe⟩ := settledCbc_handsOn s (r := cbcVerify s i) (cbcVerify_eq ho hst ▸ cbcEnd_noReport _)
    rw [cbcVerify_eq ho hst] at hcbc
    obtain ⟨hrel, horder, hexpect⟩ := hreleased (t := settled (putCbc s (cbcVerify s i)))
      (w := { cbcBegin s with alm := [.offer .workFault i] }) (o' := faultyOrder o) (fun _ _ => rfl) rfl (by rw [cbcVerify_eq ho hst]; exact hcbc)
    exact ⟨_, hexec, hrel, horder, hexpect, unchangedBut_mono hframe (by decide)⟩
  · have howner := (wkcn_owner (namedOrder_found hne hfind ho)).trans (if_pos hst)
    rw [cancelOrder_eq] at howner
    obtain ⟨t, hexec, hcbc, hanswered, hrqu, hsame⟩ := request_cbc hs howner (cbcEnd_noReq _) (cbcEnd_below _)
    obtain ⟨hrel, horder, hexpect⟩ := hreleased (t := t) (w := restoredWork s o) (o' := cancelledOrder o)
      (fun p hp => restoredWork_other s hp) (restoredWork_orders s o) hcbc
    refine ⟨t, hexec, hrel, horder, fun x hx => (hexpect x hx).trans (restoredWork_expect s hnd hx), hanswered, hrqu, ?_⟩
    exact unchangedBut_trans (unchangedBut_mono (settledCbc_handsOn s (cbcEnd_noReport _)).2 (by decide))
      (unchangedBut_mono hsame (by decide))

end Sys2Proof.Proofs
end

