-- ==== Sys2Proof/Proofs/OrderChecks.lean ====
section
/-! The checks of WKOP in their order, and the working members that cannot be taken (R48, R79). -/

namespace Sys2Proof.Proofs

open Sys2Proof.Machine Sys2Proof.Safety Sys2Proof.Laws

/-! ### A member that cannot be taken (R79) -/

theorem protRequests_isEmpty (g : Group) : g.protRequests.isEmpty = true ↔
    g.lockout = false ∧ (g.mon 0).held = false ∧ (g.mon 0).raised ≠ some .fail := by
  unfold Group.protRequests
  by_cases h1 : g.lockout = true <;> by_cases h2 : (g.mon 0).held = true <;>
    by_cases h3 : (g.mon 0).raised = some .fail <;> simp [h1, h2, h3]

theorem waitOrd_lt (w : Wait) : w.ord < ordWorkW := by cases w <;> simp [Wait.ord, ordRestoreWait, ordStay, ordWorkW]

/-- R78, R79: a member's own request is WORK-W or above just while it is in FORCE or held. -/
theorem ownRequest_low (g : Group) (k : Nat) :
    (g.ownRequest k).ord < ordWorkW ↔ g.force ≠ some k ∧ (g.mon k).held = false := by
  unfold Group.ownRequest Group.memberRequests
  by_cases hforce : g.force = some k
  · simp [hforce, ordForce, ordWorkW]
  · by_cases hheld : (g.mon k).held = true
    · simp [hforce, hheld]
    · refine iff_of_true ?_ ⟨hforce, Bool.eq_false_iff.2 hheld⟩
      rw [if_neg hforce, if_neg hheld]
      cases (g.mon k).raised with
      | some r => cases r <;> simp [ordFail, ordDegrade, ordWorkW]
      | none =>
        by_cases hmanual : g.manual = some k
        · simp [hmanual, ordManual, ordWorkW]
        · rw [if_neg hmanual]
          cases g.wait with
          | none => simp [ordIdle, ordWorkW]
          | some w =>
            by_cases hmem : w.mem = k
            · simp [hmem, waitOrd_lt]
            · simp [hmem, ordIdle, ordWorkW]

theorem portOf_succ (g : Group) (j : Nat) : g.portOf (j + 1) = g.work[j]? := rfl

/-- R79: why working member `m`, counted from 0, of a group cannot be taken by a request that lists `all`, those before it
being `earlier`. -/
def HeldBack (s : State) (all earlier : List Port) (g : Group) (m : Nat) : Prop :=
  g.lockout = true ∨ (g.mon 0).held = true ∨ (g.mon 0).raised = some .fail ∨ s.pmon.ports[g.prot].handed.sf = true ∨
  g.prot ∈ all ∨
  ∃ j q, j ≠ m ∧ g.work[j]? = some q ∧ (g.force = some (j + 1) ∨ (g.mon (j + 1)).held = true ∨ q ∈ earlier)

/-- A group whose standing requests are all of members that it has. -/
def OfMembers (g : Group) : Prop := g.n ≤ 6 ∧ ∀ j, g.n < j → g.force ≠ some j ∧ (g.mon j).held = false

section
variable {s : State} {all earlier : List Port} {g : Group} {m : Nat}

theorem canTake_iff (h : OfMembers g) : canTake s g (m + 1) all earlier = true ↔ ¬HeldBack s all earlier g m := by
  obtain ⟨hsix, hbeyond⟩ := h
  unfold canTake HeldBack
  simp only [Bool.and_eq_true, protRequests_isEmpty, portStateNow, Bool.not_eq_true', List.contains_eq_mem,
    decide_eq_false_iff_not, not_or, not_exists, not_and, Bool.not_eq_true, List.all_eq_true, List.mem_filter,
    decide_eq_true_eq, ownRequest_low]
  constructor
  · rintro ⟨⟨⟨⟨h1, h2, h3⟩, h4⟩, h5⟩, hall⟩
    refine ⟨h1, h2, h3, h4, h5, fun j q hj hq => ?_⟩
    have hlt : j < g.n := (List.getElem?_eq_some_iff.1 hq).1
    have hmem : j + 1 ∈ workingMembers := by
      have : j < 6 := by omega
      interval_cases j <;> decide
    obtain ⟨⟨hforce, hheld⟩, hport⟩ := hall (j + 1) ⟨hmem, by omega⟩
    rw [portOf_succ, hq] at hport
    have hnot : ¬g.n < j + 1 := by omega
    simp only [hnot, decide_false, Bool.false_or, Bool.not_eq_true', decide_eq_false_iff_not] at hport
    exact ⟨hforce, hheld, hport⟩
  · rintro ⟨h1, h2, h3, h4, h5, hothers⟩
    refine ⟨⟨⟨⟨h1, h2, h3⟩, h4⟩, h5⟩, fun k ⟨hk, hne⟩ => ?_⟩
    obtain ⟨j, rfl⟩ : ∃ j, k = j + 1 := ⟨k - 1, by simp [workingMembers] at hk; omega⟩
    rw [portOf_succ]
    cases hq : g.work[j]? with
    | none =>
      have hbig : g.n ≤ j := List.getElem?_eq_none_iff.1 hq
      exact ⟨hbeyond (j + 1) (by omega), rfl⟩
    | some q =>
      obtain ⟨hforce, hheld, hnot⟩ := hothers j q (by omega) hq
      exact ⟨⟨hforce, hheld⟩, by simp [hnot]⟩

end

/-- R61, R79: no port is a member of two groups, and no request stands for a member that a group does not have. -/
def GroupsApart (s : State) : Prop :=
  ∀ (gi : GroupIx) g, s.prc.groups[gi] = some g → g.n ≤ 6 ∧ (g.prot :: g.work).Nodup ∧
    (∀ j, g.n < j → g.force ≠ some j ∧ (g.mon j).held = false) ∧
    ∀ (gj : GroupIx) h, s.prc.groups[gj] = some h → gj ≠ gi → ∀ p ∈ g.prot :: g.work, p ∉ h.prot :: h.work

/-- R79: a listed port that cannot be taken. -/
def Blocks (s : State) (all earlier : List Port) (p : Port) : Prop :=
  ∃ (gi : GroupIx) (g : Group) (m : Nat), s.prc.groups[gi] = some g ∧ g.work[m]? = some p ∧ HeldBack s all earlier g m

section
variable {s : State} (hs : GroupsApart s)
include hs

theorem workingOf_member {gi : GroupIx} {g : Group} {m : Nat} {p : Port} (hg : s.prc.groups[gi] = some g)
    (hm : g.work[m]? = some p) : workingOf s.prc p = some (gi, g, m + 1) := by
  obtain ⟨_, hnd, _, happart⟩ := hs gi g hg
  refine workingOf_some hg (memberOf_work hnd hm) fun j h hj hne hp => ?_
  exact happart j h hj hne p (List.mem_cons_of_mem _ (List.mem_of_getElem? hm)) (List.mem_cons_of_mem _ hp)

theorem blocks_of_working {all earlier : List Port} {p : Port} {gi : GroupIx} {g : Group} {m : Nat}
    (h : workingOf s.prc p = some (gi, g, m)) : Blocks s all earlier p ↔ canTake s g m all earlier = false := by
  have hsome : ∃ (j : GroupIx) (g' : Group), s.prc.groups[j] = some g' ∧ p ∈ g'.work := by
    by_contra hno
    push Not at hno
    rw [workingOf_none fun j g' hj => hno j g' hj] at h
    cases h
  obtain ⟨j, g', hj, hp⟩ := hsome
  obtain ⟨m', hm'⟩ := List.getElem?_of_mem hp
  have hw := workingOf_member hs hj hm'
  rw [h] at hw
  cases hw
  obtain ⟨hsix, _, hbeyond, _⟩ := hs gi g hj
  rw [← Bool.not_eq_true, canTake_iff ⟨hsix, hbeyond⟩, not_not]
  constructor
  · rintro ⟨gi', g', m'', hg', hm'', hheld⟩
    have hw' := workingOf_member hs hg' hm''
    rw [h] at hw'
    cases hw'
    exact hheld
  · exact fun hheld => ⟨gi, g, m', hj, hm', hheld⟩

theorem not_blocks_of_none {all earlier : List Port} {p : Port} (h : workingOf s.prc p = none) : ¬Blocks s all earlier p := by
  rintro ⟨gi, g, m, hg, hm, _⟩
  rw [workingOf_member hs hg hm] at h
  cases h

theorem firstNotTaken_cons (all earlier : List Port) (p : Port) (ps : List Port) (k : Nat) :
    (Blocks s all earlier p → firstNotTaken s all earlier (p :: ps) k = some k) ∧
    (¬Blocks s all earlier p → firstNotTaken s all earlier (p :: ps) k = firstNotTaken s all (earlier ++ [p]) ps (k + 1)) := by
  cases hw : workingOf s.prc p with
  | none =>
    refine ⟨fun h => absurd h (not_blocks_of_none hs hw), fun _ => ?_⟩
    rw [firstNotTaken, hw]
  | some x =>
    obtain ⟨gi, g, m⟩ := x
    rw [blocks_of_working hs hw, firstNotTaken, hw]
    refine ⟨fun h => ?_, fun h => ?_⟩
    · simp only [h, Bool.false_eq_true, if_false]
    · simp only [Bool.eq_true_of_not_eq_false h, if_true]

/-- R79: the first of the ports still to be listed that cannot be taken. -/
theorem firstNotTaken_iff (all : List Port) (ps earlier : List Port) (k : Nat) :
    (∀ n, firstNotTaken s all earlier ps k = some n ↔ ∃ i, n = k + i ∧
      (∃ p, ps[i]? = some p ∧ Blocks s all (earlier ++ ps.take i) p) ∧
      ∀ j, j < i → ¬∃ p, ps[j]? = some p ∧ Blocks s all (earlier ++ ps.take j) p) ∧
    (firstNotTaken s all earlier ps k = none ↔ ∀ i, ¬∃ p, ps[i]? = some p ∧ Blocks s all (earlier ++ ps.take i) p) := by
  induction ps generalizing earlier k with
  | nil => simp [firstNotTaken]
  | cons p ps ih =>
    have hzero : (∃ q, (p :: ps)[0]? = some q ∧ Blocks s all (earlier ++ (p :: ps).take 0) q) ↔ Blocks s all earlier p := by simp
    have hsucc (i : Nat) : (∃ q, (p :: ps)[i + 1]? = some q ∧ Blocks s all (earlier ++ (p :: ps).take (i + 1)) q) ↔
        ∃ q, ps[i]? = some q ∧ Blocks s all (earlier ++ [p] ++ ps.take i) q := by simp
    obtain ⟨hyes, hno⟩ := firstNotTaken_cons hs all earlier p ps k
    by_cases hb : Blocks s all earlier p
    · rw [hyes hb]
      refine ⟨fun n => ⟨?_, ?_⟩, ?_⟩
      · rintro ⟨⟩
        exact ⟨0, rfl, hzero.2 hb, fun j hj => absurd hj (Nat.not_lt_zero j)⟩
      · rintro ⟨i, rfl, _, hbefore⟩
        cases i with
        | zero => rfl
        | succ i => exact absurd (hzero.2 hb) (hbefore 0 (Nat.succ_pos i))
      · exact iff_of_false nofun fun h => h 0 (hzero.2 hb)
    · obtain ⟨ih1, ih2⟩ := ih (earlier ++ [p]) (k + 1)
      rw [hno hb]
      refine ⟨fun n => (ih1 n).trans ⟨?_, ?_⟩, ih2.trans ⟨fun h i => ?_, fun h i => ?_⟩⟩
      · rintro ⟨i, rfl, hat, hbefore⟩
        refine ⟨i + 1, by omega, (hsucc i).2 hat, fun j hj => ?_⟩
        cases j with
        | zero => exact mt hzero.1 hb
        | succ j => exact mt (hsucc j).1 (hbefore j (by omega))
      · rintro ⟨i, rfl, hat, hbefore⟩
        cases i with
        | zero => exact absurd (hzero.1 hat) hb
        | succ i =>
          exact ⟨i, by omega, (hsucc i).1 hat, fun j hj => mt (hsucc j).2 (hbefore (j + 1) (by omega))⟩
      · cases i with
        | zero => exact mt hzero.1 hb
        | succ i => exact mt (hsucc i).1 (h i)
      · exact mt (hsucc i).2 (h (i + 1))

end

/-! ### The checks in their order (R48) -/

section
variable {s : State} {number : Nat} {f : Option (Fin 8)} {override : Bool} {ps : List Port} {n : Nat}

theorem judgeWkop_repeated (h : repeated ps = some n) : judgeWkop s number f override ps = .error (.badArg, n) := by
  unfold judgeWkop
  rw [h]

variable (hnd : repeated ps = none)
include hnd

theorem judgeWkop_outside (h : positionOf (outside f) ps = some n) :
    judgeWkop s number f override ps = .error (.badArg, n) := by
  unfold judgeWkop
  rw [hnd, h]

variable (hin : positionOf (outside f) ps = none)
include hin

theorem judgeWkop_unpopulated (h : positionOf (fun p => !s.populated p) ps = some n) :
    judgeWkop s number f override ps = .error (.noObject, n) := by
  unfold judgeWkop
  rw [hnd, hin, h]

variable (hpop : positionOf (fun p => !s.populated p) ps = none)
include hpop

theorem judgeWkop_number (h : findOrder s.cbc number ≠ none) : judgeWkop s number f override ps = .error (.conflict, 0) := by
  obtain ⟨i, hi⟩ := Option.ne_none_iff_exists'.1 h
  unfold judgeWkop
  rw [hnd, hin, hpop, hi]

variable (hnumber : findOrder s.cbc number = none)
include hnumber

theorem judgeWkop_full (h : freeOrder s.cbc = none) : judgeWkop s number f override ps = .error (.full, 0) := by
  unfold judgeWkop
  rw [hnd, hin, hpop, hnumber, h]

variable {i : OrderIx} (hfree : freeOrder s.cbc = some i)
include hfree

theorem judgeWkop_held (h : positionOf (fun p => s.cbc.ports[p].hold.isSome) ps = some n) :
    judgeWkop s number f override ps = .error (.conflict, n) := by
  unfold judgeWkop
  rw [hnd, hin, hpop, hnumber, hfree, h]

theorem judgeWkop_notTaken (hheld : positionOf (fun p => s.cbc.ports[p].hold.isSome) ps = none)
    (h : firstNotTaken s ps [] ps 1 = some n) : judgeWkop s number f false ps = .error (.conflict, 16 + n) := by
  unfold judgeWkop
  rw [hnd, hin, hpop, hnumber, hfree, hheld, h]
  rfl

end

/-- Settles O19: the ports that cannot be taken, then each check with those before it passed. -/
theorem wkopChecksInOrder : Obligations.WkopChecksInOrder := by
  unfold Obligations.WkopChecksInOrder
  refine ⟨?_, ?_⟩
  · intro s ps hs blocked
    obtain ⟨hsome, hnone⟩ := firstNotTaken_iff hs ps ps [] 1
    have hblocked (i : Nat) : blocked i ↔ ∃ p, ps[i]? = some p ∧ Blocks s ps ([] ++ ps.take i) p :=
      ⟨fun ⟨p, gi, g, m, hp, hg, hm, h⟩ => ⟨p, hp, gi, g, m, hg, hm, h⟩, fun ⟨p, hp, gi, g, m, hg, hm, h⟩ => ⟨p, gi, g, m, hp, hg, hm, h⟩⟩
    simp only [← hblocked] at hsome hnone
    refine ⟨fun n => (hsome n).trans ⟨?_, ?_⟩, hnone⟩
    · rintro ⟨i, rfl, hat, hbefore⟩
      rw [Nat.add_sub_cancel_left]
      exact ⟨by omega, hat, hbefore⟩
    · rintro ⟨hpos, hat, hbefore⟩
      exact ⟨n - 1, by omega, hat, hbefore⟩
  · intro k s items f ps refused hs
    refine ⟨fun hform => request_refused hs (wkop_badForm hform), fun hitems hsection hnumber hzero height => ?_⟩
    have hrefused (e : Result × Nat) (h : wkopEntry s k f items = .error e) : refused e :=
      request_refused hs (wkop_refused hitems hsection (by omega) h)
    refine ⟨fun n p hp hbefore hnd => ?_, fun hnd => ?_⟩
    · exact hrefused _ (judgeWkop_repeated ((Laws.repeated_eq_some_iff ps n).2 ⟨⟨p, hp, hbefore⟩, hnd⟩))
    have hnd := (Laws.repeated_eq_none_iff ps).2 hnd
    refine ⟨fun n h => hrefused _ (judgeWkop_outside hnd h), fun hin => ?_⟩
    refine ⟨fun n h => hrefused _ (judgeWkop_unpopulated hnd hin h), fun hpop => ?_⟩
    refine ⟨fun h => hrefused _ (judgeWkop_number hnd hin hpop h), fun hnew => ?_⟩
    refine ⟨fun h => hrefused _ (judgeWkop_full hnd hin hpop hnew h), fun hfree => ?_⟩
    obtain ⟨i, hfree⟩ := Option.ne_none_iff_exists'.1 hfree
    refine ⟨fun n h => hrefused _ (judgeWkop_held hnd hin hpop hnew hfree h), fun hheld hoverride n h => ?_⟩
    refine hrefused _ ?_
    unfold wkopEntry
    rw [hoverride]
    exact judgeWkop_notTaken hnd hin hpop hnew hfree hheld h

end Sys2Proof.Proofs
end

