-- ==== Sys2Proof/Proofs/TimingCommands.lean ====
section
/-! The timing commands TMLK, TMFS and TMCL (R114). -/

namespace Sys2Proof.Proofs

open Sys2Proof.Machine Sys2Proof.Safety Sys2Proof.Laws

/-- What an event of TSEL touches. -/
def byTsel : List Part := [.tsel, .tsp, .alm, .jrn, .attn, .gens, .choices]

theorem settledTsel_said (s : State) {x : Tsel × List Msg} (h : Below 3 x.2) :
    (settled (putTsel s x)).tsel = x.1 ∧ unchangedBut byTsel s (settled (putTsel s x)) := by
  refine ⟨settledTsel_tsel s x h, unchangedBut_trans (t := (putTsel s x).1) (fun q hq => ?_)
    (unchangedBut_mono (settle_unchanged 3 10 _ _ h) (by decide))⟩
  cases q <;> first | exact absurd (by decide) hq | simp [Part.same]

/-- R161: a request that TSEL takes. -/
theorem request_tsel {s : State} {k : SlotIx} {r : Request} {d : Nat} {x : Tsel × List Msg} (hs : serving s k r = true)
    (howner : ownerOf k r s = done (settled (putTsel s x)) d) (hreq : Msg.attn .req ∉ x.2) (hbelow : Below 3 x.2) :
    ∃ t, exec (r.command k) s = .next t ∧ t.tsel = x.1 ∧ Answered s t k .ok d s.mem ∧ sameRqu s t ∧
      unchangedBut (.rqu :: .mem :: byTsel) s t := by
  obtain ⟨_, hbusy, hwf⟩ := serving_iff.1 hs
  have howned : Owned s k (putTsel s x).1 :=
    ⟨hbusy, by rw [putTsel_rqu], by rw [putTsel_rqu], by rw [putTsel_hpi], by rw [putTsel_hpi], by rw [putTsel_mem]; exact hwf⟩
  obtain ⟨t, hexec, hanswered, hrqu, hsame⟩ := request_settled hs howner howned hreq (putTsel_mem s x) (by
    rw [sameRqu, putTsel_rqu]; exact ⟨rfl, rfl, rfl⟩)
  obtain ⟨htsel, hframe⟩ := settledTsel_said s hbelow
  exact ⟨t, hexec, (hsame .tsel (by decide)).trans htsel, hanswered, hrqu,
    unchangedBut_trans (unchangedBut_mono hframe (by decide)) (unchangedBut_mono hsame (by decide))⟩

/-! ### The standing commands -/

/-- R112, R114: the event of a change of the standing commands. -/
def standing (s : State) (t : Tsel) : Tsel × List Msg := tselEnd s (reselect s { tselBegin s with tsel := t })

section
variable (s : State)

theorem standing_stays {t : Tsel} (hrefs : t.refs = s.tsel.refs) (hsteer : t.steering = s.tsel.steering)
    (hwarm : t.warmUp = s.tsel.warmUp) : (standing s t).1.refs = s.tsel.refs ∧
    (standing s t).1.steering = s.tsel.steering ∧ (standing s t).1.warmUp = s.tsel.warmUp := by
  simp only [standing, tselEnd_refs, tselEnd_steering, tselEnd_warmUp, reselect_refs, reselect_steering, reselect_warmUp]
  exact ⟨hrefs, hsteer, hwarm⟩

theorem standing_commands (t : Tsel) : (standing s t).1.lockout = t.lockout ∧ (standing s t).1.force = t.force ∧
    (standing s t).1.selected = t.choose s.rqu.shelf.quality := by
  simp only [standing, tselEnd_lockout, tselEnd_force, tselEnd_selected, reselect_lockout, reselect_force, reselect_selected]
  exact ⟨trivial, trivial, trivial⟩

theorem tselLock_eq (r : RefIx) : tselLock s r = standing s { s.tsel with lockout := s.tsel.lockout.set r true } := rfl
theorem tselForce_eq (r : RefIx) : tselForce s r = standing s { s.tsel with force := some r } := rfl
theorem tselClear_eq : tselClear s = standing s { s.tsel with force := none, lockout := Vector.replicate 6 false } := rfl

theorem choose_forced {t : Tsel} {r : RefIx} (hforce : t.force = some r) (h : t.eligible r = true) (quality : Bool) :
    t.choose quality = some r := by
  unfold Tsel.choose
  rw [hforce]
  exact if_pos h

theorem not_eligible_locked {t : Tsel} {r : RefIx} (h : t.lockout[r] = true) : t.eligible r = false := by
  unfold Tsel.eligible
  rw [h]
  simp

variable {k : SlotIx}

theorem namedRef_unloaded {s : State} (h : s.rqu.loaded = false) : namedRef s k = .error .notReady := by
  unfold namedRef
  rw [h]
  rfl

theorem namedRef_beyond {s : State} (h : s.rqu.loaded = true) (hbig : 5 < (param8 s k 0).toNat) :
    namedRef s k = .error .badArg := by
  unfold namedRef
  rw [h, Bool.not_true, if_neg Bool.false_ne_true, dif_neg (by omega)]

theorem namedRef_found {s : State} {r : RefIx} (h : s.rqu.loaded = true) (hr : r.val = (param8 s k 0).toNat) :
    namedRef s k = .ok r := by
  unfold namedRef
  rw [h, Bool.not_true, if_neg Bool.false_ne_true, dif_pos (by omega)]
  exact congrArg Except.ok (Fin.ext hr.symm)

theorem namedRef_refused {s : State} {q : Request} (hq : q = .tmlk ∨ q = .tmfs) {e : Result} (h : namedRef s k = .error e) :
    ownerOf k q s = refuse s e 0 := by
  rcases hq with rfl | rfl
  · change askTmlk k s = _
    unfold askTmlk
    rw [h]
  · change askTmfs k s = _
    unfold askTmfs
    rw [h]

theorem tmlk_owner {s : State} {r : RefIx} (h : namedRef s k = .ok r) :
    ownerOf k .tmlk s = done (settled (putTsel s (tselLock s r))) 0 := by
  change askTmlk k s = _
  unfold askTmlk
  rw [h]

theorem tmfs_owner {s : State} {r : RefIx} (h : namedRef s k = .ok r) :
    ownerOf k .tmfs s = done (settled (putTsel s (tselForce s r))) 0 := by
  change askTmfs k s = _
  unfold askTmfs
  rw [h]

end

/-- R114: an accepted timing command. -/
theorem standing_request {s : State} {k : SlotIx} {q : Request} {t' : Tsel} {d : Nat} (hs : serving s k q = true)
    (howner : ownerOf k q s = done (settled (putTsel s (standing s t'))) d) (hrefs : t'.refs = s.tsel.refs)
    (hsteer : t'.steering = s.tsel.steering) (hwarm : t'.warmUp = s.tsel.warmUp) :
    ∃ t, exec (q.command k) s = .next t ∧
      (t.tsel.lockout = t'.lockout ∧ t.tsel.force = t'.force ∧ t.tsel.selected = t'.choose s.rqu.shelf.quality) ∧
      t.tsel.refs = s.tsel.refs ∧ t.tsel.steering = s.tsel.steering ∧ t.tsel.warmUp = s.tsel.warmUp ∧
      Answered s t k .ok d s.mem ∧ sameRqu s t ∧ unchangedBut (.rqu :: .mem :: byTsel) s t := by
  obtain ⟨t, hexec, htsel, hanswered, hrqu, hframe⟩ := request_tsel hs howner (tselEnd_noReq _ _) (tselEnd_below _ _)
  have hcommands := standing_commands s t'
  obtain ⟨hr, hu, hw⟩ := standing_stays s hrefs hsteer hwarm
  rw [← htsel] at hr hu hw hcommands
  exact ⟨t, hexec, hcommands, hr, hu, hw, hanswered, hrqu, hframe⟩

/-- Settles O31: the refusals, then each command as a change of the standing commands. -/
theorem timingCommands : Obligations.TimingCommands := by
  unfold Obligations.TimingCommands
  intro k s q hq hs number refused accepted
  have hframe {t : State} (h : unchangedBut (.rqu :: .mem :: byTsel) s t) :
      unchangedBut [.tsel, .tsp, .alm, .jrn, .attn, .gens, .choices, .rqu, .mem] s t := unchangedBut_mono h (by decide)
  refine ⟨fun h => ?_, fun h hne hbig => ?_, ?_, ?_, ?_⟩
  · refine request_refused hs ?_
    rcases hq with rfl | rfl | rfl
    · exact namedRef_refused (.inl rfl) (namedRef_unloaded h)
    · exact namedRef_refused (.inr rfl) (namedRef_unloaded h)
    · exact if_neg (by rw [h]; exact Bool.false_ne_true)
  · exact request_refused hs (namedRef_refused (by tauto) (namedRef_beyond h hbig))
  · rintro r h rfl hr
    obtain ⟨t, hexec, ⟨hlock, hforce, hsel⟩, hrefs, hsteer, hwarm, hanswered, hrqu, hsame⟩ := standing_request
      (t' := { s.tsel with lockout := s.tsel.lockout.set r true }) hs (tmlk_owner (namedRef_found h hr)) rfl rfl rfl
    have hset (j : RefIx) : t.tsel.lockout[j] = if j = r then true else s.tsel.lockout[j] := by
      rw [hlock]
      exact getElem_set_fin _ _ _ _
    refine ⟨t, hexec, ⟨by rw [hset, if_pos rfl], fun j hj => by rw [hset, if_neg hj], hforce, fun heq => ?_⟩,
      hrefs, hsteer, hwarm, hanswered, hrqu, hframe hsame⟩
    have helig := choose_eligible (hsel.symm.trans heq)
    rw [not_eligible_locked ((getElem_set_fin _ _ _ _).trans (if_pos rfl))] at helig
    cases helig
  · rintro r h rfl hr
    obtain ⟨t, hexec, ⟨hlock, hforce, hsel⟩, hrefs, hsteer, hwarm, hanswered, hrqu, hsame⟩ := standing_request
      (t' := { s.tsel with force := some r }) hs (tmfs_owner (namedRef_found h hr)) rfl rfl rfl
    refine ⟨t, hexec, ⟨hforce, hlock, fun helig => ?_⟩, hrefs, hsteer, hwarm, hanswered, hrqu, hframe hsame⟩
    rw [hsel]
    exact choose_forced (t := { s.tsel with force := some r }) rfl ((eligible_congr rfl rfl r).trans helig) _
  · rintro h rfl
    obtain ⟨t, hexec, ⟨hlock, hforce, _⟩, hrefs, hsteer, hwarm, hanswered, hrqu, hsame⟩ := standing_request
      (t' := { s.tsel with force := none, lockout := Vector.replicate 6 false }) hs (if_pos h) rfl rfl rfl
    refine ⟨t, hexec, ⟨hforce, fun r => ?_⟩, hrefs, hsteer, hwarm, hanswered, hrqu, hframe hsame⟩
    rw [hlock]
    exact Vector.getElem_replicate _

end Sys2Proof.Proofs
end

