-- ==== Sys2Proof/Proofs/GroupRules.lean ====
section
/-! What the end of an event makes of a protection group: the requests formed, and what stays (R73, R76 to R89). -/

namespace Sys2Proof.Proofs

open Sys2Proof.Machine Sys2Proof.Safety Sys2Proof.Laws

/-! ### What the end of an event leaves alone -/

/-- Two groups that agree in the definition, the monitor records, the far fields, and the lockout and force commands. -/
def SameBase (g h : Group) : Prop := sameGroup g h ∧ h.lockout = g.lockout ∧ h.force = g.force

section
variable {g h k : Group}

theorem SameBase.refl (g : Group) : SameBase g g := ⟨⟨rfl, rfl, rfl, rfl, rfl, rfl, rfl, rfl, rfl, rfl, rfl⟩, rfl, rfl⟩

theorem SameBase.trans (hgh : SameBase g h) (hhk : SameBase h k) : SameBase g k := by
  unfold SameBase sameGroup at *
  grind

theorem SameBase.same (h' : SameBase g h) : sameGroup g h := h'.1
theorem SameBase.lockout (h' : SameBase g h) : h.lockout = g.lockout := h'.2.1
theorem SameBase.force (h' : SameBase g h) : h.force = g.force := h'.2.2

theorem SameBase.mons (h' : SameBase g h) : h.mons = g.mons := by
  obtain ⟨⟨_, _, _, _, _, _, _, hmons, _⟩, _⟩ := h'
  exact hmons

theorem SameBase.kind (h' : SameBase g h) : h.kind = g.kind := by
  obtain ⟨⟨hkind, _⟩, _⟩ := h'
  exact hkind

theorem SameBase.work (h' : SameBase g h) : h.work = g.work := by
  obtain ⟨⟨_, _, hwork, _⟩, _⟩ := h'
  exact hwork

theorem SameBase.mon (h' : SameBase g h) (m : Nat) : h.mon m = g.mon m := by
  unfold Group.mon
  rw [h'.mons]

theorem SameBase.far (h' : SameBase g h) : h.farReq = g.farReq ∧ h.farBridged = g.farBridged ∧ h.sigLost = g.sigLost := by
  obtain ⟨⟨_, _, _, _, _, _, _, _, hfar⟩, _⟩ := h'
  exact hfar

theorem SameBase.farTaken (h' : SameBase g h) : h.farTaken = g.farTaken := by
  unfold Group.farTaken Group.n
  rw [h'.far.1, h'.work]

theorem SameBase.farBridgedTaken (h' : SameBase g h) : h.farBridgedTaken = g.farBridgedTaken := by
  unfold Group.farBridgedTaken Group.n
  rw [h'.far.2.1, h'.work]

end

theorem relist_same (g : Group) (m : Nat) : SameBase g (g.relist m) := by
  unfold Group.relist
  split
  · exact .refl g
  · split
    · exact .refl g
    · split <;> exact .refl g

/-- R77: a member's place in the list moves nothing but the list. -/
theorem relist_eq (g : Group) (m : Nat) : ∃ o, g.relist m = { g with order := o } := by
  unfold Group.relist
  split
  · exact ⟨_, rfl⟩
  · split
    · exact ⟨_, rfl⟩
    · split <;> exact ⟨_, rfl⟩

@[simp] theorem relist_wait (g : Group) (m : Nat) : (g.relist m).wait = g.wait := by
  obtain ⟨o, ho⟩ := relist_eq g m
  rw [ho]

@[simp] theorem relist_memberRequests (g : Group) (m j : Nat) : (g.relist m).memberRequests j = g.memberRequests j := by
  obtain ⟨o, ho⟩ := relist_eq g m
  rw [ho]
  rfl

/-- R77: a member with a request keeps its place. -/
theorem mem_relist {g : Group} {m j : Nat} (hj : j ∈ g.order) (hreq : g.memberRequests j ≠ []) : j ∈ (g.relist m).order := by
  unfold Group.relist
  split
  · exact hj
  · split
    · next hempty =>
      have hne : j ≠ m := fun heq => hreq (by rw [heq]; simpa using hempty)
      exact (List.mem_erase_of_ne hne).2 hj
    · split
      · exact hj
      · exact List.mem_append_left _ hj

/-- R77: a member whose request appears joins the list. -/
theorem mem_relist_self {g : Group} {m : Nat} (hm : m ≠ 0) (hreq : g.memberRequests m ≠ []) : m ∈ (g.relist m).order := by
  unfold Group.relist
  rw [if_neg hm, if_neg (by simpa using hreq)]
  split
  · next h => simpa using h
  · exact List.mem_append_right _ (by simp)

theorem normWait_same (g : Group) : SameBase g g.normWait := by
  unfold Group.normWait
  split
  · split
    · unfold Group.endWait
      split
      · exact (SameBase.refl g).trans (relist_same { g with wait := none } _)
      · exact .refl g
    · exact .refl g
  · exact .refl g

theorem dropManual_same (g : Group) (gi : GroupIx) (m : Nat) (f : Group → Req) : SameBase g (g.dropManual gi m f).1 :=
  (SameBase.refl g).trans (relist_same { g with manual := none } m)

theorem dropManualLocal_same (g : Group) (gi : GroupIx) : SameBase g (g.dropManualLocal gi).1 := by
  unfold Group.dropManualLocal
  split
  · split
    · exact dropManual_same g gi _ _
    · exact .refl g
  · exact .refl g

theorem dropManualFar_same (g : Group) (gi : GroupIx) : SameBase g (g.dropManualFar gi).1 := by
  unfold Group.dropManualFar
  split
  · split
    · exact dropManual_same g gi _ fun _ => g.win
    · exact .refl g
  · exact .refl g

theorem moveSelector_same (g : Group) : SameBase g g.moveSelector := by
  obtain ⟨b, sel, c, heq⟩ := moveSelector_eq g
  rw [heq]
  exact .refl g

/-- R73, R76, R83: the group with its requests formed, before bridge and selector move. -/
def formedGroup (gi : GroupIx) (g : Group) : Group :=
  (({ (g.normWait.dropManualLocal gi).1 with top := (g.normWait.dropManualLocal gi).1.formTop }.formWin).dropManualFar gi).1

section
variable (s : State) (gi : GroupIx) (g : Group)

theorem settle_fst : (g.settle s gi).1 =
    { (formedGroup gi g).moveSelector with sent := (formedGroup gi g).moveSelector.sentFields }.judge s := rfl

theorem formedGroup_same : SameBase g (formedGroup gi g) :=
  ((normWait_same g).trans (dropManualLocal_same _ gi)).trans
    (SameBase.trans (h := { (g.normWait.dropManualLocal gi).1 with top := (g.normWait.dropManualLocal gi).1.formTop }.formWin)
      (.refl _) (dropManualFar_same _ gi))

/-- The end of an event keeps the group's definition, records and standing commands but the manual. -/
theorem settle_same : SameBase g (g.settle s gi).1 := by
  rw [settle_fst]
  exact ((formedGroup_same gi g).trans (moveSelector_same _)).trans (.refl _)

theorem countSwitch_eq (base : Group) : ∃ n, base.countSwitch g = { g with switches := n } := by
  unfold Group.countSwitch
  split <;> exact ⟨_, rfl⟩

end

/-! ### The wait and the manual -/

theorem endWait_wait (g : Group) : g.endWait.wait = none := by
  unfold Group.endWait
  split
  · rw [relist_wait]
  · next h => exact h

theorem normWait_wait (g : Group) : g.normWait.wait =
    if (∃ w, g.wait = some w ∧ g.above w.ord = true) then none else g.wait := by
  unfold Group.normWait
  split
  · next w hw =>
    by_cases h : g.above w.ord = true
    · rw [if_pos h, if_pos ⟨w, hw, h⟩, endWait_wait]
    · rw [if_neg h, if_neg]
      rintro ⟨v, hv, habove⟩
      cases hw.symm.trans hv
      exact h habove
  · next hnone =>
    split
    · next h =>
      obtain ⟨w, hw, _⟩ := h
      rw [hnone] at hw
      cases hw
    · rfl

theorem dropManualLocal_wait (g : Group) (gi : GroupIx) : (g.dropManualLocal gi).1.wait = g.wait := by
  unfold Group.dropManualLocal
  split
  · split
    · exact relist_wait { g with manual := none } _
    · rfl
  · rfl

theorem dropManualFar_wait (g : Group) (gi : GroupIx) : (g.dropManualFar gi).1.wait = g.wait := by
  unfold Group.dropManualFar
  split
  · split
    · exact relist_wait { g with manual := none } _
    · rfl
  · rfl

theorem moveSelector_wait (g : Group) : g.moveSelector.wait = g.wait := by
  obtain ⟨b, sel, c, heq⟩ := moveSelector_eq g
  rw [heq]

theorem formedGroup_wait (gi : GroupIx) (g : Group) : (formedGroup gi g).wait = g.normWait.wait := by
  rw [formedGroup, dropManualFar_wait]
  exact dropManualLocal_wait _ gi

/-- R76: the wait after an event: none once a request above it is present. -/
theorem settle_wait (s : State) (gi : GroupIx) (g : Group) : (g.settle s gi).1.wait =
    if (∃ w, g.wait = some w ∧ g.above w.ord = true) then none else g.wait := by
  rw [settle_fst, ← normWait_wait, ← formedGroup_wait gi]
  exact moveSelector_wait _

/-! ### Requests above an ordinal -/

/-- R78: a request above MANUAL is one of member 0, a force, a work hold or a raised request. -/
theorem above_manual_iff (g : Group) : g.above ordManual = true ↔
    g.lockout = true ∨ (g.mon 0).held = true ∨ (g.mon 0).raised = some .fail ∨
    ∃ m, 1 ≤ m ∧ m ≤ 6 ∧ (g.force = some m ∨ (g.mon m).held = true ∨ (g.mon m).raised ≠ none) := by
  have hmember (m : Nat) : ((g.memberRequests m).any fun r => decide (ordManual < r.ord)) = true ↔
      g.force = some m ∨ (g.mon m).held = true ∨ (g.mon m).raised ≠ none := by
    have hwait : ∀ w : Wait, ¬ordManual < w.ord := by
      intro w
      cases w <;> simp [Wait.ord, ordManual, ordRestoreWait, ordStay]
    unfold Group.memberRequests
    by_cases hforce : g.force = some m
    · simp [hforce, ordForce, ordManual]
    · by_cases hheld : (g.mon m).held = true
      · simp [hheld, ordManual, ordWorkW]
      · rw [if_neg hforce, if_neg hheld]
        cases hraised : (g.mon m).raised with
        | some r => cases r <;> simp [ordManual, ordFail, ordDegrade]
        | none =>
          have hmanual : ((if g.manual = some m then [(⟨ordManual, m⟩ : Req)] else []).any fun r => decide (ordManual < r.ord)) = false := by
            split <;> simp [ordManual]
          cases hw : g.wait with
          | none => simp [hforce, hheld, hmanual]
          | some w =>
            by_cases hmem : w.mem = m <;> simp [hforce, hheld, hmanual, hmem, hwait w]
  have hprot : (g.protRequests.any fun r => decide (ordManual < r.ord)) = true ↔
      g.lockout = true ∨ (g.mon 0).held = true ∨ (g.mon 0).raised = some .fail := by
    unfold Group.protRequests
    by_cases h1 : g.lockout = true <;> by_cases h2 : (g.mon 0).held = true <;>
      by_cases h3 : (g.mon 0).raised = some .fail <;> simp [h1, h2, h3, ordManual, ordLockout, ordHoldP, ordFailP]
  have hmem (m : Nat) : m ∈ workingMembers ↔ 1 ≤ m ∧ m ≤ 6 := by
    simp only [workingMembers, List.mem_cons, List.not_mem_nil, or_false]
    omega
  unfold Group.above Group.localRequests
  rw [List.any_append, Bool.or_eq_true, hprot, List.any_flatMap, List.any_eq_true]
  simp only [hmember, hmem, and_assoc, or_assoc]

theorem SameBase.above_manual {g h : Group} (h' : SameBase g h) : h.above ordManual = g.above ordManual := by
  rw [Bool.eq_iff_iff, above_manual_iff, above_manual_iff, h'.lockout, h'.force]
  simp only [h'.mon]

end Sys2Proof.Proofs
end

