-- ==== Sys2Proof/Proofs/GroupRequests.lean ====
section
/-! The top local and the winning request, the far request, the fields sent, and the hand-ons of an event at a group
(R78, R81 to R84, R91, R93, R94). -/

namespace Sys2Proof.Proofs

open Sys2Proof.Machine Sys2Proof.Safety Sys2Proof.Laws

/-! ### The top local request (R78) -/

section
variable {g : Group}

theorem formTop_lockout (h : g.lockout = true) : g.formTop = ⟨ordLockout, 0⟩ := by
  have hreq : g.protRequests = ⟨ordLockout, 0⟩ :: ((if (g.mon 0).held then [⟨ordHoldP, 0⟩] else []) ++
      if (g.mon 0).raised = some .fail then [⟨ordFailP, 0⟩] else []) := by
    unfold Group.protRequests
    rw [if_pos h]
    rfl
  unfold Group.formTop
  rw [hreq]

theorem formTop_held (h : g.lockout = false) (hheld : (g.mon 0).held = true) : g.formTop = ⟨ordHoldP, 0⟩ := by
  have hreq : g.protRequests = ⟨ordHoldP, 0⟩ :: if (g.mon 0).raised = some .fail then [⟨ordFailP, 0⟩] else [] := by
    unfold Group.protRequests
    rw [h, hheld]
    rfl
  unfold Group.formTop
  rw [hreq]

theorem formTop_failP (h : g.lockout = false) (hheld : (g.mon 0).held = false) (hfail : (g.mon 0).raised = some .fail) :
    g.formTop = ⟨ordFailP, 0⟩ := by
  have hreq : g.protRequests = [⟨ordFailP, 0⟩] := by
    unfold Group.protRequests
    rw [h, hheld, if_pos hfail]
    rfl
  unfold Group.formTop
  rw [hreq]

/-- R78: the better of a request and a member's own. -/
def better (g : Group) (best : Req) (m : Nat) : Req := if best.ord < (g.ownRequest m).ord then g.ownRequest m else best

theorem formTop_order (h : g.protRequests = []) : g.formTop = g.order.foldl (better g) ⟨ordIdle, 0⟩ := by
  unfold Group.formTop
  rw [h]
  rfl

theorem better_ord (g : Group) (best : Req) (m : Nat) :
    best.ord ≤ (better g best m).ord ∧ (g.ownRequest m).ord ≤ (better g best m).ord := by
  unfold better
  split <;> omega

/-- R78: of a list of members the highest own request, the first of several, over a request that stands before them. -/
theorem better_fold (g : Group) (ms : List Nat) (best : Req) :
    best.ord ≤ (ms.foldl (better g) best).ord ∧ (∀ m ∈ ms, (g.ownRequest m).ord ≤ (ms.foldl (better g) best).ord) ∧
    (ms.foldl (better g) best = best ∨ ∃ pre m post, ms = pre ++ m :: post ∧ ms.foldl (better g) best = g.ownRequest m ∧
      best.ord < (g.ownRequest m).ord ∧ ∀ j ∈ pre, (g.ownRequest j).ord < (ms.foldl (better g) best).ord) := by
  induction ms generalizing best with
  | nil => exact ⟨Nat.le_refl _, nofun, .inl rfl⟩
  | cons m ms ih =>
    obtain ⟨hbest, hall, hfrom⟩ := ih (better g best m)
    obtain ⟨hb, hm⟩ := better_ord g best m
    rw [List.foldl_cons]
    refine ⟨hb.trans hbest, fun j hj => ?_, ?_⟩
    · rcases List.mem_cons.1 hj with rfl | hj
      · exact hm.trans hbest
      · exact hall j hj
    · rcases hfrom with hsame | ⟨pre, j, post, rfl, htop, hless, hbefore⟩
      · rw [hsame]
        unfold better
        split
        · next hlt => exact .inr ⟨[], m, ms, rfl, rfl, hlt, nofun⟩
        · exact .inl rfl
      · refine .inr ⟨m :: pre, j, post, rfl, htop, by omega, fun i hi => ?_⟩
        rcases List.mem_cons.1 hi with rfl | hi
        · rw [htop]
          omega
        · exact hbefore i hi

theorem protRequests_nil (h1 : g.lockout = false) (h2 : (g.mon 0).held = false) (h3 : (g.mon 0).raised ≠ some .fail) :
    g.protRequests = [] := by
  have := (protRequests_isEmpty g).2 ⟨h1, h2, h3⟩
  simpa using this

theorem formTop_ranked (h1 : g.lockout = false) (h2 : (g.mon 0).held = false) (h3 : (g.mon 0).raised ≠ some .fail) :
    (∀ m ∈ g.order, (g.ownRequest m).ord ≤ g.formTop.ord) ∧
    (g.formTop = ⟨ordIdle, 0⟩ ∨ ∃ pre m post, g.order = pre ++ m :: post ∧ g.formTop = g.ownRequest m ∧
      ∀ j ∈ pre, (g.ownRequest j).ord < g.formTop.ord) := by
  obtain ⟨_, hall, hfrom⟩ := better_fold g g.order ⟨ordIdle, 0⟩
  rw [formTop_order (protRequests_nil h1 h2 h3)]
  refine ⟨hall, hfrom.imp id ?_⟩
  rintro ⟨pre, m, post, hsplit, htop, _, hbefore⟩
  exact ⟨pre, m, post, hsplit, htop, hbefore⟩

end

/-! ### The far request (R81, R82) -/

section
variable (g : Group)

theorem farTaken_takes (hfits : farFits g.n g.farReq = true) (h : 2 ≤ g.farReq.ord) : g.farTaken = g.farReq :=
  if_pos ⟨hfits, h⟩

theorem farTaken_idle (h : ¬(farFits g.n g.farReq = true ∧ 2 ≤ g.farReq.ord)) : g.farTaken = ⟨0, 0⟩ := if_neg h

/-- R82: which far requests fit. -/
theorem farFits_iff (n : Nat) (r : Req) : farFits n r = true ↔
    (r.ord = 0 ∧ r.mem ≤ n) ∨ (1 ≤ r.ord ∧ r.ord ≤ 8 ∧ 1 ≤ r.mem ∧ r.mem ≤ n) ∨ (9 ≤ r.ord ∧ r.ord ≤ 11 ∧ r.mem = 0) := by
  unfold farFits
  split
  · simp only [decide_eq_true_eq]
    omega
  · split <;> simp only [decide_eq_true_eq] <;> omega

/-- R82: what is taken of a far request. -/
theorem farTaken_said :
    (2 ≤ g.farReq.ord → g.farReq.ord ≤ 8 → 1 ≤ g.farReq.mem → g.farReq.mem ≤ g.n → g.farTaken = g.farReq) ∧
    (9 ≤ g.farReq.ord → g.farReq.ord ≤ 11 → g.farReq.mem = 0 → g.farTaken = g.farReq) ∧
    (g.farReq.ord ≤ 1 ∨ 11 < g.farReq.ord ∨ (g.farReq.ord ≤ 8 ∧ (g.farReq.mem = 0 ∨ g.n < g.farReq.mem)) ∨
      (9 ≤ g.farReq.ord ∧ g.farReq.mem ≠ 0) → g.farTaken = ⟨0, 0⟩) := by
  have hfits := farFits_iff g.n g.farReq
  refine ⟨fun h1 h2 h3 h4 => farTaken_takes g (hfits.2 (by omega)) h1,
    fun h1 h2 h3 => farTaken_takes g (hfits.2 (by omega)) (by omega), fun h => farTaken_idle g ?_⟩
  rw [hfits]
  omega

theorem farTaken_bound : g.farTaken.ord ≤ 11 ∧ (9 ≤ g.farTaken.ord → g.farTaken.mem = 0) := by
  by_cases h : farFits g.n g.farReq = true ∧ 2 ≤ g.farReq.ord
  · obtain ⟨hfits, h2⟩ := h
    rw [farTaken_takes g hfits h2]
    have := (farFits_iff _ _).1 hfits
    omega
  · rw [farTaken_idle g h]
    exact ⟨by decide, by decide⟩

end

/-- R81: whether a record carries signalling from the expected end. -/
def Trusts (s : State) (p : Port) (t : Tag) : Prop :=
  t.signalling = true ∧ (s.cbc.ports[p].expect.kind ≠ .tag ∨
    (t.shelf = s.cbc.ports[p].expect.shelf ∧ t.port.toNat = s.cbc.ports[p].expect.port.toNat))

section
variable {s : State} {g : Group}

theorem trusted_some {t : Tag} (h : s.tcd.decs[g.prot].tag = some t) : trusted s g = true ↔ Trusts s g.prot t := by
  unfold trusted
  rw [h]
  simp [Trusts]

theorem trusted_none (h : s.tcd.decs[g.prot].tag = none) : trusted s g = false := by
  unfold trusted
  rw [h]

theorem readFar_uni (h : g.kind = .uni) : g.readFar s = { g with farReq := ⟨0, 0⟩, farBridged := 0, sigLost := false } :=
  if_pos h

theorem readFar_trusted (h : g.kind ≠ .uni) {t : Tag} (ht : s.tcd.decs[g.prot].tag = some t) (htrust : Trusts s g.prot t) :
    g.readFar s = { g with farReq := ⟨t.request.toNat, t.member.toNat⟩, farBridged := t.bridged.toNat, sigLost := false } := by
  have := (trusted_some ht).2 htrust
  unfold Group.readFar
  rw [if_neg h, ht]
  exact if_pos this

theorem readFar_lost (h : g.kind ≠ .uni) (hno : ∀ t, s.tcd.decs[g.prot].tag = some t → ¬Trusts s g.prot t) :
    g.readFar s = { g with farReq := ⟨0, 0⟩, farBridged := 0, sigLost := true } := by
  unfold Group.readFar
  rw [if_neg h]
  cases ht : s.tcd.decs[g.prot].tag with
  | none => rfl
  | some t => exact if_neg (mt (trusted_some ht).1 (hno t ht))

end

/-! ### Reports of a faulty record (R82) -/

/-- R82: a group that reads its far request from the port, whose record is trusted and faulty for it. -/
def Reported (s : State) (p : Port) (g : Group) : Prop :=
  g.prot = p ∧ g.kind ≠ .uni ∧ ∃ t, s.tcd.decs[p].tag = some t ∧
    t.signalling = true ∧ (s.cbc.ports[p].expect.kind ≠ .tag ∨
      (t.shelf = s.cbc.ports[p].expect.shelf ∧ t.port.toNat = s.cbc.ports[p].expect.port.toNat)) ∧
    ((t.request.toNat = 0 ∧ g.n < t.member.toNat) ∨
      (1 ≤ t.request.toNat ∧ t.request.toNat ≤ 8 ∧ (t.member.toNat = 0 ∨ g.n < t.member.toNat)) ∨
      (9 ≤ t.request.toNat ∧ t.member.toNat ≠ 0) ∨ 11 < t.request.toNat ∨ g.n < t.bridged.toNat)

/-- R82: the test of a report. -/
def reportTest (s : State) (p : Port) (g : Group) : Bool := readsFar [p] g && trusted s g && (g.readFar s).farFaulty

theorem reportTest_iff (s : State) (p : Port) (g : Group) : reportTest s p g = true ↔ Reported s p g := by
  have hreads : readsFar [p] g = true ↔ g.kind ≠ .uni ∧ g.prot = p := by simp [readsFar]
  rw [reportTest, Bool.and_eq_true, Bool.and_eq_true, hreads, Reported]
  constructor
  · rintro ⟨⟨⟨hkind, rfl⟩, htrust⟩, hfaulty⟩
    cases ht : s.tcd.decs[g.prot].tag with
    | none => rw [trusted_none ht] at htrust; cases htrust
    | some t =>
      have htrusts := (trusted_some ht).1 htrust
      rw [readFar_trusted hkind ht htrusts] at hfaulty
      obtain ⟨hsig, hid⟩ := htrusts
      refine ⟨rfl, hkind, t, rfl, hsig, hid, ?_⟩
      rw [Group.farFaulty, Bool.or_eq_true, Bool.not_eq_true', ← Bool.not_eq_true, farFits_iff, decide_eq_true_eq] at hfaulty
      simp only [Group.n] at hfaulty ⊢
      omega
  · rintro ⟨rfl, hkind, t, ht, hsig, hid, hfaulty⟩
    have htrusts : Trusts s g.prot t := ⟨hsig, hid⟩
    refine ⟨⟨⟨hkind, rfl⟩, (trusted_some ht).2 htrusts⟩, ?_⟩
    rw [readFar_trusted hkind ht htrusts, Group.farFaulty, Bool.or_eq_true, Bool.not_eq_true', ← Bool.not_eq_true, farFits_iff,
      decide_eq_true_eq]
    simp only [Group.n] at hfaulty ⊢
    omega

/-- R82: the report of one group. -/
def reportOf (s : State) (p : Port) (gi : GroupIx) : Option Port :=
  (s.prc.groups[gi]).bind fun g => if reportTest s p g then some p else none

theorem farReports_eq (s : State) (p : Port) : farReports s p = allGroups.filterMap (reportOf s p) :=
  List.filterMap_filterMap

theorem reportOf_some {s : State} {p : Port} {gi : GroupIx} {g : Group} (hg : s.prc.groups[gi] = some g)
    (h : Reported s p g) : reportOf s p gi = some p := by
  rw [reportOf, hg]
  exact if_pos ((reportTest_iff s p g).2 h)

theorem reportOf_none {s : State} {p : Port} {gi : GroupIx} (h : ∀ g, s.prc.groups[gi] = some g → ¬Reported s p g) :
    reportOf s p gi = none := by
  unfold reportOf
  cases hg : s.prc.groups[gi] with
  | none => rfl
  | some g => exact if_neg (mt (reportTest_iff s p g).1 (h g hg))

theorem farReports_one {s : State} {p : Port} {gi : GroupIx} {g : Group} (hg : s.prc.groups[gi] = some g) (h : Reported s p g)
    (honly : ∀ (j : GroupIx) k, s.prc.groups[j] = some k → Reported s p k → j = gi) : farReports s p = [p] := by
  have hsplit := List.append_of_mem (List.mem_finRange gi)
  obtain ⟨before, after, hsplit⟩ := hsplit
  have hnd : (before ++ gi :: after).Nodup := hsplit ▸ List.nodup_finRange 16
  obtain ⟨_, hafter, hapart⟩ := List.nodup_append.1 hnd
  have hno (l : List GroupIx) (hl : ∀ j ∈ l, j ≠ gi) : l.filterMap (reportOf s p) = [] :=
    List.filterMap_eq_nil_iff.2 fun j hj => reportOf_none fun k hk hr => hl j hj (honly j k hk hr)
  rw [farReports_eq, show allGroups = before ++ gi :: after from hsplit, List.filterMap_append, List.filterMap_cons,
    hno before fun j hj => hapart j hj gi List.mem_cons_self,
    hno after fun j hj heq => (List.nodup_cons.1 hafter).1 (heq ▸ hj), reportOf_some hg h]
  rfl

theorem farReports_none {s : State} {p : Port} (h : ∀ (gi : GroupIx) g, s.prc.groups[gi] = some g → ¬Reported s p g) :
    farReports s p = [] := by
  rw [farReports_eq]
  exact List.filterMap_eq_nil_iff.2 fun gi _ => reportOf_none (h gi)

/-- R82: what PRC tells TCD at a hand-on of a record. -/
theorem prcTag_reports (s : State) (p : Port) : (farReports s p ≠ [] → .tcdReport (farReports s p) ∈ (prcTag s p).2) ∧
    (farReports s p = [] → ∀ ps, .tcdReport ps ∉ (prcTag s p).2) := by
  have hreports := foldl_same (f := prcEach s (readsFar [p]) (Group.readFar s)) (v := fun w : PrcWork => w.reports)
    (prcEach_reports s _ _) allGroups { prcBegin s with reports := farReports s p }
  unfold prcTag
  generalize List.foldl (prcEach s (readsFar [p]) (Group.readFar s)) { prcBegin s with reports := farReports s p } allGroups = w
    at hreports
  simp only at hreports
  refine ⟨fun h => ?_, fun h ps hps => ?_⟩
  · rw [← hreports] at h ⊢
    simp [prcEnd, h]
  · rw [← hreports] at h
    simp [prcEnd, h, toAlm, toJrn] at hps

theorem tcdReport_one (s : State) (p q : Port) : (tcdReport s [p]).decs[q] = { s.tcd.decs[q] with
    badSig := if q = p then (if s.tcd.decs[q].badSig < 65535 then s.tcd.decs[q].badSig + 1 else 65535)
      else s.tcd.decs[q].badSig } := by
  simp only [tcdReport]
  rw [getElem_set_fin]
  split
  · next hq => subst hq; rfl
  · rfl

/-! ### The fields sent (R84) -/

theorem sentFields_said (g : Group) :
    (g.kind = .uni → g.sentFields = { request := 0, member := 0, bridged := 0 }) ∧
    (g.kind ≠ .uni → g.sentFields.bridged = g.bridged ∧
      (g.side = .localEnd ∨ g.side = .both → g.sentFields.request = g.top.ord ∧ g.sentFields.member = g.top.mem) ∧
      (g.side = .farEnd → g.win.mem ≠ 0 → g.sentFields.request = 1 ∧ g.sentFields.member = g.win.mem) ∧
      (g.side = .farEnd → g.win.mem = 0 → g.sentFields.request = g.top.ord ∧ g.sentFields.member = g.top.mem)) := by
  refine ⟨fun h => if_pos h, fun h => ?_⟩
  have hsent : g.sentFields = if g.side = .farEnd ∧ g.win.mem ≠ 0 then
      { request := ordEcho, member := g.win.mem, bridged := g.bridged }
      else { request := g.top.ord, member := g.top.mem, bridged := g.bridged } := if_neg h
  rw [hsent]
  refine ⟨by split <;> rfl, fun hside => ?_, fun hside hmem => ?_, fun hside hmem => ?_⟩
  · rw [if_neg fun hfar => by rcases hside with hs | hs <;> rw [hs] at hfar <;> cases hfar.1]
    exact ⟨rfl, rfl⟩
  · rw [if_pos ⟨hside, hmem⟩]
    exact ⟨rfl, rfl⟩
  · rw [if_neg fun hfar => hfar.2 hmem]
    exact ⟨rfl, rfl⟩

/-! ### Arbitration (R83) -/

theorem arbitrate_said (kind : GroupKind) (top far : Req) :
    (kind = .uni → arbitrate kind top far = (top, .localEnd)) ∧
    (kind ≠ .uni →
      (top = far → arbitrate kind top far = (top, .both)) ∧
      (far.ord < top.ord → arbitrate kind top far = (top, .localEnd)) ∧
      (top.ord < far.ord → arbitrate kind top far = (far, .farEnd)) ∧
      (top.ord = far.ord → top.mem < far.mem → arbitrate kind top far = (top, .localEnd)) ∧
      (top.ord = far.ord → far.mem < top.mem → arbitrate kind top far = (far, .farEnd))) := by
  have hne (h : top.ord ≠ far.ord ∨ top.mem ≠ far.mem) : top ≠ far := by
    rintro rfl
    rcases h with h | h <;> exact h rfl
  unfold arbitrate
  refine ⟨fun h => if_pos h, fun h => ?_⟩
  rw [if_neg h]
  refine ⟨fun heq => if_pos heq, fun hlt => ?_, fun hlt => ?_, fun heq hlt => ?_, fun heq hlt => ?_⟩
  · rw [if_neg (hne (by omega)), if_pos hlt]
  · rw [if_neg (hne (by omega)), if_neg (by omega), if_pos hlt]
  · rw [if_neg (hne (by omega)), if_neg (by omega), if_neg (by omega), if_pos hlt]
  · rw [if_neg (hne (by omega)), if_neg (by omega), if_neg (by omega), if_neg (by omega)]

/-- R83: two ends that each hold the other's request come to the same winning request. -/
theorem arbitrate_comm {kind : GroupKind} (h : kind ≠ .uni) (top far : Req) :
    (arbitrate kind top far).1 = (arbitrate kind far top).1 := by
  obtain ⟨_, hab⟩ := arbitrate_said kind top far
  obtain ⟨_, hba⟩ := arbitrate_said kind far top
  obtain ⟨h1, h2, h3, h4, h5⟩ := hab h
  obtain ⟨k1, k2, k3, k4, k5⟩ := hba h
  rcases Nat.lt_trichotomy top.ord far.ord with hord | hord | hord
  · rw [h3 hord, k2 hord]
  · rcases Nat.lt_trichotomy top.mem far.mem with hmem | hmem | hmem
    · rw [h4 hord hmem, k5 hord.symm hmem]
    · have heq : top = far := by
        cases top
        cases far
        simp only at hord hmem
        rw [hord, hmem]
      rw [h1 heq, k1 heq.symm, heq]
    · rw [h5 hord hmem, k4 hord.symm hmem]
  · rw [h2 hord, k3 hord]

/-! ### The end of an event at a group (R91, R93, R94) -/

theorem relist_switches (g : Group) (m : Nat) : (g.relist m).switches = g.switches := by
  obtain ⟨o, ho⟩ := relist_eq g m
  rw [ho]

theorem dropManual_switches (g : Group) (gi : GroupIx) (m : Nat) (f : Group → Req) :
    (g.dropManual gi m f).1.switches = g.switches := relist_switches { g with manual := none } m

theorem dropManual_records (g : Group) (gi : GroupIx) (m : Nat) (f : Group → Req) :
    ∀ b ∈ (g.dropManual gi m f).2, ∃ m r, b = .manualDropped gi m r :=
  fun _ hb => ⟨m, _, List.mem_singleton.1 hb⟩

theorem normWait_switches (g : Group) : g.normWait.switches = g.switches := by
  unfold Group.normWait
  split
  · split
    · unfold Group.endWait
      split
      · exact relist_switches { g with wait := none } _
      · rfl
    · rfl
  · rfl

theorem dropManualLocal_switches (g : Group) (gi : GroupIx) : (g.dropManualLocal gi).1.switches = g.switches := by
  unfold Group.dropManualLocal
  split
  · split
    · exact dropManual_switches g gi _ _
    · rfl
  · rfl

theorem dropManualFar_switches (g : Group) (gi : GroupIx) : (g.dropManualFar gi).1.switches = g.switches := by
  unfold Group.dropManualFar
  split
  · split
    · exact dropManual_switches g gi _ _
    · rfl
  · rfl

theorem settle_switches (s : State) (gi : GroupIx) (g : Group) : (g.settle s gi).1.switches = g.switches := by
  have hformed : (formedGroup gi g).switches = g.switches := by
    rw [formedGroup, dropManualFar_switches]
    exact (dropManualLocal_switches _ gi).trans (normWait_switches g)
  obtain ⟨b, sel, c, heq⟩ := moveSelector_eq (formedGroup gi g)
  rw [settle_fst, ← hformed, heq]
  rfl

theorem dropManualLocal_records (g : Group) (gi : GroupIx) :
    ∀ b ∈ (g.dropManualLocal gi).2, ∃ m r, b = .manualDropped gi m r := by
  unfold Group.dropManualLocal
  split
  · split
    · exact dropManual_records g gi _ _
    · exact fun _ => nofun
  · exact fun _ => nofun

theorem dropManualFar_records (g : Group) (gi : GroupIx) :
    ∀ b ∈ (g.dropManualFar gi).2, ∃ m r, b = .manualDropped gi m r := by
  unfold Group.dropManualFar
  split
  · split
    · exact dropManual_records g gi _ fun _ => g.win
    · exact fun _ => nofun
  · exact fun _ => nofun

/-- R73: the group with its requests formed, before a far request may take a manual away. -/
def wonGroup (gi : GroupIx) (g : Group) : Group :=
  { (g.normWait.dropManualLocal gi).1 with top := (g.normWait.dropManualLocal gi).1.formTop }.formWin

theorem settle_snd (s : State) (gi : GroupIx) (g : Group) :
    (g.settle s gi).2 = (g.normWait.dropManualLocal gi).2 ++ ((wonGroup gi g).dropManualFar gi).2 := rfl

/-- R73: the end of an event records the manual it drops, and nothing else. -/
theorem settle_records_manual (s : State) (gi : GroupIx) (g : Group) :
    ∀ b ∈ (g.settle s gi).2, ∃ m r, b = .manualDropped gi m r := by
  intro b hb
  rw [settle_snd, List.mem_append] at hb
  exact hb.elim (dropManualLocal_records _ gi b) (dropManualFar_records _ gi b)

/-- A group after an event, its switch counted. -/
def endedGroup (s : State) (gi : GroupIx) (base g : Group) : Group := base.countSwitch (g.settle s gi).1

section
variable (s : State) (gi : GroupIx) (base g : Group)

/-- R91: the count is the one thing the end of an event adds to the settled group. -/
theorem endedGroup_eq : endedGroup s gi base g = { (g.settle s gi).1 with
    switches := if base.selected = (g.settle s gi).1.selected then g.switches
      else if g.switches < 65535 then g.switches + 1 else 65535 } := by
  have hsw := settle_switches s gi g
  unfold endedGroup Group.countSwitch
  split
  · rw [← hsw]
  · simp only [count16, hsw]

theorem endedGroup_same : SameBase g (endedGroup s gi base g) := by
  rw [endedGroup_eq]
  exact (settle_same s gi g).trans (.refl _)

theorem endedGroup_settled : groupSettled (endedGroup s gi base g) = true := countSwitch_settled base (settle_settled s gi g)

/-- R93, R94: the conditions as an event leaves them. -/
theorem endedGroup_conditions : (endedGroup s gi base g).svcLoss = (endedGroup s gi base g).judgeSvcLoss s ∧
    (endedGroup s gi base g).protUnavail = (endedGroup s gi base g).judgeProtUnavail s ∧
    (endedGroup s gi base g).sigFail = (endedGroup s gi base g).sigLost ∧
    (endedGroup s gi base g).bridgeMis = decide ((endedGroup s gi base g).confirm = .expired) := by
  rw [endedGroup_eq, settle_fst]
  exact ⟨rfl, rfl, rfl, rfl⟩

end

theorem mem_workingNumbers {g : Group} (h : g.n ≤ 6) {k : Nat} : k ∈ g.workingNumbers ↔ 1 ≤ k ∧ k ≤ g.n := by
  have hmem : k ∈ workingMembers ↔ 1 ≤ k ∧ k ≤ 6 := by
    simp only [workingMembers, List.mem_cons, List.not_mem_nil, or_false]
    omega
  rw [Group.workingNumbers, List.mem_filter, hmem, decide_eq_true_eq]
  omega

theorem stateOf_working {s : State} {g : Group} {m : Nat} {p : Port} (h : g.work[m]? = some p) :
    g.stateOf s (m + 1) = s.pmon.ports[p].handed := by
  unfold Group.stateOf
  rw [portOf_succ, h]
  rfl

/-- R93: a group's protection port that can carry traffic. -/
def Healthy (s : State) (h : Group) : Prop := s.pmon.ports[h.prot].handed.sf = false ∧ (h.mon 0).held = false

/-- R93: a working member that is served. -/
def Served93 (s : State) (h : Group) (m : Nat) : Prop :=
  Healthy s h ∧ (if h.kind = .oneToN then h.selected = m ∨ (h.bridged = m ∧ ∃ n, h.confirm = .running n) else h.selected = 1)

theorem healthy_iff (s : State) (h : Group) : h.healthy s = true ↔ Healthy s h := by
  simp [Group.healthy, Healthy, portStateNow]

theorem served_iff (s : State) (h : Group) (m : Nat) : h.served s m = true ↔ Served93 s h m := by
  rw [Group.served, Bool.and_eq_true, healthy_iff, Served93]
  refine and_congr_right fun _ => ?_
  cases hk : h.kind with
  | uni => simp
  | bi => simp
  | oneToN => cases h.confirm <;> simp

/-- The working members of a group, as its ports. -/
theorem exists_working {h : Group} (hsix : h.n ≤ 6) (P : Nat → Prop) : (∃ k ∈ h.workingNumbers, P k) ↔
    ∃ m p, h.work[m]? = some p ∧ P (m + 1) := by
  constructor
  · rintro ⟨k, hk, hp⟩
    obtain ⟨hone, hn⟩ := (mem_workingNumbers hsix).1 hk
    have hlt : k - 1 < h.work.length := by
      have : h.n = h.work.length := rfl
      omega
    refine ⟨k - 1, h.work[k - 1], List.getElem?_eq_getElem hlt, ?_⟩
    rwa [Nat.sub_add_cancel hone]
  · rintro ⟨m, p, hm, hp⟩
    have hlt : m < h.n := (List.getElem?_eq_some_iff.1 hm).1
    exact ⟨m + 1, (mem_workingNumbers hsix).2 ⟨by omega, hlt⟩, hp⟩

theorem judgeSvcLoss_iff (s : State) {h : Group} (hsix : h.n ≤ 6) : h.judgeSvcLoss s = true ↔ ∃ m p, h.work[m]? = some p ∧
    (s.pmon.ports[p].handed.sf = true ∨ (h.mon (m + 1)).held = true) ∧ ¬Served93 s h (m + 1) := by
  have hany : h.judgeSvcLoss s = true ↔ ∃ k ∈ h.workingNumbers,
      ((h.stateOf s k).sf = true ∨ (h.mon k).held = true) ∧ ¬Served93 s h k := by
    simp only [Group.judgeSvcLoss, Group.outOfService, List.any_eq_true, Bool.and_eq_true, Bool.or_eq_true, Bool.not_eq_true',
      ← Bool.not_eq_true, served_iff]
  rw [hany, exists_working hsix]
  refine exists_congr fun m => exists_congr fun p => and_congr_right fun hm => ?_
  rw [stateOf_working hm]

theorem sd_iff (st : PortState) : st.sd = true ↔ st = .degrade := by cases st <;> simp [PortState.sd]

theorem judgeProtUnavail_iff (s : State) {h : Group} (hsix : h.n ≤ 6) : h.judgeProtUnavail s = true ↔
    (¬Healthy s h ∨ h.lockout = true) ∧
    ∃ p ∈ h.work, s.pmon.ports[p].handed.sf = true ∨ s.pmon.ports[p].handed = .degrade := by
  have hany : h.judgeProtUnavail s = true ↔ (¬Healthy s h ∨ h.lockout = true) ∧
      ∃ k ∈ h.workingNumbers, (h.stateOf s k).sf = true ∨ (h.stateOf s k).sd = true := by
    simp only [Group.judgeProtUnavail, Bool.and_eq_true, Bool.or_eq_true, Bool.not_eq_true', ← Bool.not_eq_true, healthy_iff,
      List.any_eq_true]
  rw [hany, exists_working hsix]
  refine and_congr_right fun _ => ?_
  constructor
  · rintro ⟨m, p, hm, hp⟩
    rw [stateOf_working hm] at hp
    exact ⟨p, List.mem_of_getElem? hm, hp.imp id (sd_iff _).1⟩
  · rintro ⟨p, hp, hst⟩
    obtain ⟨m, hm⟩ := List.getElem?_of_mem hp
    refine ⟨m, p, hm, ?_⟩
    rw [stateOf_working hm]
    exact hst.imp id (sd_iff _).2

/-! ### The hand-ons of a group (R91) -/

/-- Whether a change is an event. -/
def isEvent : AlmChange → Bool
  | .event .. => true
  | .offer _ _ | .withdraw _ _ | .drop _ _ | .portState _ _ | .hold _ _ | .tap _ _ | .group _ _ | .role _ => false

/-- Whether a record is a SWITCH record. -/
def isSwitch (b : JBody) : Bool := match b with | .switch .. => true | _ => false

theorem groupConditions_noEvent (gi : GroupIx) (old new : Group) : (groupConditions gi old new).filter isEvent = [] := by
  have hflag (t : CondType) (o : Nat) (a b : Bool) : (flagChange t o a b).filter isEvent = [] := by
    cases a <;> cases b <;> rfl
  unfold groupConditions
  rw [List.filter_append, List.filter_append, List.filter_append, hflag, hflag, hflag, hflag]
  rfl

section
variable (s : State) (w : PrcWork) (gi : GroupIx) (base g : Group) (fresh : Bool)

theorem prcSettle_prc : (prcSettle s w gi base g fresh).prc =
    { w.prc with groups := w.prc.groups.set gi (some (endedGroup s gi base g)) } := rfl

theorem prcSettle_group (j : GroupIx) : (prcSettle s w gi base g fresh).prc.groups[j] =
    if j = gi then some (endedGroup s gi base g) else w.prc.groups[j] := by
  simp only [prcSettle_prc]
  exact getElem_set_fin _ _ _ _

theorem prcSettle_alm : (prcSettle s w gi base g fresh).alm = w.alm ++ groupConditions gi base (endedGroup s gi base g) ++
    (if decide (base.selected ≠ (endedGroup s gi base g).selected) then
      [.event .switch gi (memberOrNone base.selected) (memberOrNone (endedGroup s gi base g).selected)] else []) ++
    (if decide (base.selected ≠ (endedGroup s gi base g).selected) || fresh then
      [.group gi (some (endedGroup s gi base g).copy)] else []) := rfl

theorem prcSettle_recs : (prcSettle s w gi base g fresh).recs =
    w.recs ++ (g.settle s gi).2 ++ switchRecord gi base (endedGroup s gi base g) := rfl

theorem prcSettle_taps : (prcSettle s w gi base g fresh).taps = w.taps ++
    (if decide (base.selected ≠ (endedGroup s gi base g).selected) || fresh then
      [(gi, (endedGroup s gi base g).tapPort)] else []) := rfl

/-- R91, R100: the copy and the tap handed on where the selected member moved or the group is fresh. -/
theorem prcSettle_hands (h : base.selected ≠ (endedGroup s gi base g).selected ∨ fresh = true) :
    .group gi (some (endedGroup s gi base g).copy) ∈ (prcSettle s w gi base g fresh).alm ∧
    (gi, (endedGroup s gi base g).tapPort) ∈ (prcSettle s w gi base g fresh).taps := by
  have hif : (decide (base.selected ≠ (endedGroup s gi base g).selected) || fresh) = true := by simpa using h
  rw [prcSettle_alm, prcSettle_taps, if_pos hif, if_pos hif]
  exact ⟨List.mem_append_right _ List.mem_cons_self, List.mem_append_right _ List.mem_cons_self⟩

/-- R91: the SWITCH offer of an event at a group. -/
theorem prcSettle_events : (prcSettle s w gi base g fresh).alm.filter isEvent = w.alm.filter isEvent ++
    if base.selected = (endedGroup s gi base g).selected then []
    else [.event .switch gi (if base.selected = 0 then none else some base.selected)
      (if (endedGroup s gi base g).selected = 0 then none else some (endedGroup s gi base g).selected)] := by
  rw [prcSettle_alm, List.filter_append, List.filter_append, List.filter_append, groupConditions_noEvent, List.append_nil]
  have hcopy : (if decide (base.selected ≠ (endedGroup s gi base g).selected) || fresh then
      [AlmChange.group gi (some (endedGroup s gi base g).copy)] else []).filter isEvent = [] := by
    split <;> rfl
  rw [hcopy, List.append_nil]
  refine congrArg (w.alm.filter isEvent ++ ·) ?_
  by_cases h : base.selected = (endedGroup s gi base g).selected
  · rw [if_pos h, if_neg (by simpa using h)]
    rfl
  · rw [if_neg h, if_pos (by simpa using h)]
    rfl

/-- R91, R149: the SWITCH record of an event at a group. -/
theorem prcSettle_switches : (prcSettle s w gi base g fresh).recs.filter isSwitch = w.recs.filter isSwitch ++
    if base.selected = (endedGroup s gi base g).selected ∧ base.bridged = (endedGroup s gi base g).bridged then []
    else [.switch gi base.selected (endedGroup s gi base g).selected base.bridged (endedGroup s gi base g).bridged
      (endedGroup s gi base g).win (endedGroup s gi base g).side] := by
  have hmanual : (g.settle s gi).2.filter isSwitch = [] := by
    refine List.filter_eq_nil_iff.2 fun b hb => ?_
    obtain ⟨m, r, rfl⟩ := settle_records_manual s gi g b hb
    exact Bool.false_ne_true
  rw [prcSettle_recs, List.filter_append, List.filter_append, hmanual, List.append_nil]
  refine congrArg (w.recs.filter isSwitch ++ ·) ?_
  unfold switchRecord
  split <;> rfl

end

theorem tapPort_of {h : Group} (hk : h.kind ≠ .oneToN) : h.tapPort = if h.selected = 0 then h.work.head? else some h.prot := by
  unfold Group.tapPort
  cases hkind : h.kind with
  | oneToN => exact absurd hkind hk
  | _ => rfl

/-- Settles O26: each part by the rule of its function. -/
theorem topAndWinningRequest : Obligations.TopAndWinningRequest := by
  unfold Obligations.TopAndWinningRequest
  refine ⟨sentFields_said, fun s g => ?_, fun s p => ?_, ?_, fun g => ?_, fun kind top far => ?_⟩
  · refine ⟨?_, fun h => ?_, fun h t ht htrust => ?_, fun h hno => ?_, ?_⟩
    · unfold Group.readFar
      split
      · rfl
      · split
        · split <;> rfl
        · rfl
    · rw [readFar_uni h]
      exact ⟨rfl, rfl, rfl⟩
    · rw [readFar_trusted h ht htrust]
      exact ⟨rfl, rfl, rfl⟩
    · rw [readFar_lost h hno]
      exact ⟨rfl, rfl, rfl⟩
    · obtain ⟨h1, h2, h3⟩ := farTaken_said g
      exact ⟨h1, h2, h3, rfl⟩
  · obtain ⟨hsome, hnone⟩ := prcTag_reports s p
    refine ⟨fun gi g hg h honly => ?_, fun h => hnone (farReports_none h), fun q => tcdReport_one s p q⟩
    have hone := farReports_one hg h honly
    exact hone ▸ hsome (by rw [hone]; exact List.cons_ne_nil _ _)
  · intro s w gi base g fresh hsix x sw event
    have hsame := endedGroup_same s gi base g
    have hsixh : (endedGroup s gi base g).n ≤ 6 := by
      unfold Group.n
      rw [hsame.work]
      exact hsix
    obtain ⟨hsvc, hprot, hsig, hbridge⟩ := endedGroup_conditions s gi base g
    have hevent : event = isEvent := by
      funext c
      cases c <;> rfl
    have hsw : sw = isSwitch := by
      funext b
      cases b <;> rfl
    rw [hevent, hsw]
    refine ⟨endedGroup s gi base g, ?_, fun j hj => ?_, rfl, endedGroup_settled s gi base g, hsame.mons, hsame.lockout,
      hsame.force, hsame.far.1, ?_, prcSettle_events s w gi base g fresh, fun hmoved => ?_,
      prcSettle_switches s w gi base g fresh, ?_, ?_, hsig, ?_⟩
    · rw [show x = _ from rfl, prcSettle_group, if_pos rfl]
    · rw [show x = _ from rfl, prcSettle_group, if_neg hj]
    · rw [endedGroup_eq]
    · obtain ⟨hcopy, htap⟩ := prcSettle_hands s w gi base g fresh hmoved
      refine ⟨hcopy, fun hk _ => ?_⟩
      rw [← hsame.kind] at hk
      rwa [tapPort_of hk] at htap
    · rw [hsvc, judgeSvcLoss_iff s hsixh, hsame.work]
      rfl
    · rw [hprot, judgeProtUnavail_iff s hsixh, hsame.work]
      rfl
    · rw [hbridge]
      exact decide_eq_true_iff
  · exact ⟨formTop_lockout, formTop_held, formTop_failP, formTop_ranked⟩
  · obtain ⟨huni, hother⟩ := arbitrate_said kind top far
    refine ⟨huni, fun h => ?_⟩
    obtain ⟨h1, h2, h3, h4, h5⟩ := hother h
    exact ⟨h1, h2, h3, h4, h5, arbitrate_comm h top far⟩

end Sys2Proof.Proofs
end

