-- ==== Sys2Proof/Proofs/GroupCommands.lean ====
section
/-! One event at one group, and the protection commands PSLO, PSFS, PSMS and PSCL (R70 to R74). -/

namespace Sys2Proof.Proofs

open Sys2Proof.Machine Sys2Proof.Safety Sys2Proof.Laws

/-! ### One event at one group -/

/-- What an event at a group touches. -/
def byPrc : List Part := [.prc, .tsel, .tsp, .alm, .jrn, .attn, .gens, .choices]

theorem settledPrc_said (s : State) {x : Prc × List Msg} (hbelow : Below 5 x.2) (hno : ∀ m ∈ x.2, NoReport m) :
    (settled (putPrc s x)).prc = x.1 ∧ unchangedBut byPrc s (settled (putPrc s x)) := by
  refine ⟨settledPrc_prc s x hbelow, unchangedBut_trans (t := (putPrc s x).1) (fun q hq => ?_) (fun q hq => ?_)⟩
  · cases q <;> first | exact absurd (by decide) hq | simp [Part.same]
  · by_cases htcd : q = .tcd
    · subst htcd
      exact settle_tcd 10 hno _
    · refine settle_unchanged 5 10 _ _ hbelow q ?_
      revert hq
      cases q <;> first | exact absurd rfl htcd | decide

section
variable {s : State} {gi : GroupIx} {g : Group} (hg : s.prc.groups[gi] = some g) (change : Group → Group)
include hg

theorem prcOne_eq : prcOne s gi change = prcEnd (prcSettle s (prcBegin s) gi g (change g) false) := by
  have heach : prcEach s (fun _ => true) change (prcBegin s) gi = prcSettle s (prcBegin s) gi g (change g) false := by
    unfold prcEach
    have hbegin : (prcBegin s).prc.groups[gi] = some g := hg
    rw [hbegin]
    rfl
  rw [prcOne, heach]

theorem prcOne_group (j : GroupIx) : (prcOne s gi change).1.groups[j] =
    if j = gi then some (endedGroup s gi g (change g)) else s.prc.groups[j] := by
  rw [prcOne_eq hg change]
  exact prcSettle_group s (prcBegin s) gi g (change g) false j

theorem prcOne_frozen : (prcOne s gi change).1.frozen = s.prc.frozen := by
  rw [prcOne_eq hg change]
  rfl

theorem prcOne_below : Below 5 (prcOne s gi change).2 := by
  rw [prcOne_eq hg change]
  exact prcEnd_below _

/-- R161 aside: an event that one group takes and PRC settles. -/
theorem settledOne_said : onlyGroup s (settled (putPrc s (prcOne s gi change))) gi (endedGroup s gi g (change g)) ∧
    unchangedBut byPrc s (settled (putPrc s (prcOne s gi change))) := by
  obtain ⟨hprc, hframe⟩ := settledPrc_said s (prcOne_below hg change) (prcOne_noReport s gi change)
  refine ⟨⟨?_, fun j hj => ?_, ?_⟩, hframe⟩
  · rw [hprc, prcOne_group hg change, if_pos rfl]
  · rw [hprc, prcOne_group hg change, if_neg hj]
  · rw [hprc, prcOne_frozen hg change]

/-- R161: a request that PRC takes at one group. -/
theorem request_prc {k : SlotIx} {r : Request} {d : Nat} (hs : serving s k r = true)
    (howner : ownerOf k r s = done (atNamed s gi change) d) :
    ∃ t, exec (r.command k) s = .next t ∧ onlyGroup s t gi (endedGroup s gi g (change g)) ∧ Answered s t k .ok d s.mem ∧
      sameRqu s t ∧ unchangedBut (.rqu :: .mem :: byPrc) s t := by
  obtain ⟨_, hbusy, hwf⟩ := serving_iff.1 hs
  have hreq : Msg.attn .req ∉ (prcOne s gi change).2 := by
    rw [prcOne_eq hg change]
    exact prcEnd_noReq _
  have howned : Owned s k (putPrc s (prcOne s gi change)).1 :=
    ⟨hbusy, by rw [putPrc_rqu], by rw [putPrc_rqu], by rw [putPrc_hpi], by rw [putPrc_hpi], by rw [putPrc_mem]; exact hwf⟩
  obtain ⟨t, hexec, hanswered, hrqu, hsame⟩ := request_settled hs howner howned hreq (putPrc_mem s _) (by
    rw [sameRqu, putPrc_rqu]; exact ⟨rfl, rfl, rfl⟩)
  obtain ⟨⟨h1, h2, h3⟩, hframe⟩ := settledOne_said hg change
  have hprc := hsame .prc (by decide)
  refine ⟨t, hexec, ⟨?_, fun j hj => ?_, ?_⟩, hanswered, hrqu,
    unchangedBut_trans (unchangedBut_mono hframe (by decide)) (unchangedBut_mono hsame (by decide))⟩
  · rw [hprc, h1]
  · rw [hprc, h2 j hj]
  · rw [hprc, h3]

end

/-! ### The requests after a command -/

section
variable {g h : Group}

theorem sameGroup_trans {k : Group} (hgh : sameGroup g h) (hhk : sameGroup h k) : sameGroup g k := by
  unfold sameGroup at *
  grind

theorem SameBase.protRequests (h' : SameBase g h) : h.protRequests = g.protRequests := by
  unfold Group.protRequests
  rw [h'.lockout, h'.mon]

theorem memberRequests_forced {m : Nat} (h : g.force = some m) : g.memberRequests m ≠ [] ∧ g.ownRequest m = ⟨ordForce, m⟩ := by
  have hreq : ∃ rest, g.memberRequests m = ⟨ordForce, m⟩ :: rest := by
    unfold Group.memberRequests
    rw [if_pos h]
    exact ⟨_, rfl⟩
  obtain ⟨rest, hreq⟩ := hreq
  rw [Group.ownRequest, hreq]
  exact ⟨List.cons_ne_nil _ _, rfl⟩

/-- R78: the own request of a member that is not in FORCE. -/
theorem ownRequest_le {m : Nat} (h : g.force ≠ some m) : (g.ownRequest m).ord ≤ ordWorkW := by
  by_cases hheld : (g.mon m).held = true
  · have hreq : ∃ rest, g.memberRequests m = ⟨ordWorkW, m⟩ :: rest := by
      unfold Group.memberRequests
      rw [if_neg h, if_pos hheld]
      exact ⟨_, rfl⟩
    obtain ⟨rest, hreq⟩ := hreq
    rw [Group.ownRequest, hreq]
    exact Nat.le_refl _
  · exact Nat.le_of_lt ((ownRequest_low g m).2 ⟨h, Bool.eq_false_iff.2 hheld⟩)

/-- R78: a force is the top local request where no request of member 0 stands. -/
theorem formTop_forced {m : Nat} (hprot : g.protRequests = []) (hforce : g.force = some m) (hm : m ∈ g.order) :
    g.formTop = ⟨ordForce, m⟩ := by
  obtain ⟨_, hown⟩ := memberRequests_forced hforce
  obtain ⟨_, hall, hfrom⟩ := better_fold g g.order ⟨ordIdle, 0⟩
  have hhigh := hall m hm
  rw [hown] at hhigh
  rw [formTop_order hprot]
  rcases hfrom with hidle | ⟨_, j, _, _, htop, _⟩
  · rw [hidle] at hhigh
    exact absurd hhigh (by simp [ordForce, ordIdle])
  · rw [htop] at hhigh ⊢
    by_cases hj : g.force = some j
    · rw [hforce] at hj
      cases hj
      exact hown
    · have hle := ownRequest_le hj
      have : ordForce ≤ ordWorkW := le_trans hhigh hle
      exact absurd this (by decide)

/-- R77, R76: member `m` has a request that the end of an event does not take away. -/
def Standing (g : Group) (m : Nat) : Prop := g.force = some m ∨ (g.mon m).held = true

theorem memberRequests_standing {m : Nat} (h : Standing g m) : g.memberRequests m ≠ [] := by
  unfold Group.memberRequests
  rcases h with h | h <;> simp [h]

theorem SameBase.standing (h' : SameBase g h) {m : Nat} (hs : Standing g m) : Standing h m := by
  unfold Standing
  rwa [h'.force, h'.mon]

/-- R77: a member with a standing request keeps its place in the list. -/
theorem formedGroup_order {gi : GroupIx} {m : Nat} (hs : Standing g m) (hm : m ∈ g.order) : m ∈ (formedGroup gi g).order := by
  have hlisted {k : Group} (hk : Standing k m) (hmem : m ∈ k.order) (j : Nat) : m ∈ (k.relist j).order :=
    mem_relist hmem (memberRequests_standing hk)
  have hwait : m ∈ g.normWait.order := by
    unfold Group.normWait
    split
    · split
      · unfold Group.endWait
        split
        · exact hlisted (k := { g with wait := none }) hs hm _
        · exact hm
      · exact hm
    · exact hm
  have hdrop {k : Group} (f : Group → Req) (j : Nat) (hk : Standing k m) (hmem : m ∈ k.order) :
      m ∈ (k.dropManual gi j f).1.order := hlisted (k := { k with manual := none }) hk hmem j
  have hlocal : m ∈ (g.normWait.dropManualLocal gi).1.order := by
    unfold Group.dropManualLocal
    split
    · split
      · exact hdrop _ _ ((normWait_same g).standing hs) hwait
      · exact hwait
    · exact hwait
  have hwon : Standing (wonGroup gi g) m ∧ m ∈ (wonGroup gi g).order :=
    ⟨((normWait_same g).trans (dropManualLocal_same g.normWait gi)).standing hs, hlocal⟩
  change m ∈ ((wonGroup gi g).dropManualFar gi).1.order
  generalize wonGroup gi g = k at hwon
  obtain ⟨hk, hmem⟩ := hwon
  unfold Group.dropManualFar
  split
  · split
    · exact hdrop (fun _ => k.win) _ hk hmem
    · exact hmem
  · exact hmem

theorem endedGroup_order {s : State} {gi : GroupIx} {base : Group} {m : Nat} (hs : Standing g m) (hm : m ∈ g.order) :
    m ∈ (endedGroup s gi base g).order := by
  obtain ⟨b, sel, c, heq⟩ := moveSelector_eq (formedGroup gi g)
  rw [endedGroup_eq, settle_fst, heq]
  exact formedGroup_order hs hm

/-! ### The manual after an event (R73) -/

theorem arbitrate_far {kind : GroupKind} {top far : Req} (h : (arbitrate kind top far).2 = .farEnd) :
    kind ≠ .uni ∧ (arbitrate kind top far).1 = far := by
  unfold arbitrate at *
  split at h
  · cases h
  · next hk =>
    rw [if_neg hk]
    refine ⟨hk, ?_⟩
    split at h
    · cases h
    · next hne =>
      rw [if_neg hne]
      split at h
      · cases h
      · next hlt =>
        rw [if_neg hlt]
        split at h
        · next hgt => rw [if_pos hgt]
        · next hgt =>
          rw [if_neg hgt]
          split at h
          · cases h
          · next hmem => rw [if_neg hmem]

theorem normWait_manual (g : Group) : g.normWait.manual = g.manual := by
  unfold Group.normWait
  split
  · split
    · unfold Group.endWait
      split
      · exact relist_manual { g with wait := none } _
      · rfl
    · rfl
  · rfl

theorem dropManual_manual (g : Group) (gi : GroupIx) (m : Nat) (f : Group → Req) : (g.dropManual gi m f).1.manual = none :=
  relist_manual { g with manual := none } m

theorem dropManualFar_manual (g : Group) (gi : GroupIx) : (g.dropManualFar gi).1.manual =
    if g.side = .farEnd ∧ ordManual < g.win.ord then none else g.manual := by
  unfold Group.dropManualFar
  split
  · split
    · exact dropManual_manual g gi _ fun _ => g.win
    · rfl
  · next h => rw [h, ite_self]

theorem formedGroup_manual (gi : GroupIx) (g : Group) : (formedGroup gi g).manual =
    if (wonGroup gi g).side = .farEnd ∧ ordManual < (wonGroup gi g).win.ord then none else (wonGroup gi g).manual :=
  dropManualFar_manual _ gi

theorem endedGroup_manual (s : State) (gi : GroupIx) (base g : Group) : (endedGroup s gi base g).manual = (formedGroup gi g).manual := by
  obtain ⟨b, sel, c, heq⟩ := moveSelector_eq (formedGroup gi g)
  rw [endedGroup_eq, settle_fst, heq]
  rfl

theorem endedGroup_wait (s : State) (gi : GroupIx) (base g : Group) : (endedGroup s gi base g).wait =
    if (∃ w, g.wait = some w ∧ g.above w.ord = true) then none else g.wait := by
  rw [← settle_wait s gi, endedGroup_eq]

/-- R73: a manual stands until a local request above it, or a far winning request above it, comes. -/
theorem manual_after {s : State} {gi : GroupIx} {base : Group} {m : Nat} (hm : g.manual = some m)
    (habove : g.above ordManual = false) : (endedGroup s gi base g).manual = some m ∨
      ((endedGroup s gi base g).manual = none ∧ g.kind ≠ .uni ∧ ordManual < g.farTaken.ord) := by
  have hlocal : (g.normWait.dropManualLocal gi).1 = g.normWait := by
    have hno : ¬g.normWait.above ordManual = true := by
      rw [(normWait_same g).above_manual, habove]
      exact Bool.false_ne_true
    unfold Group.dropManualLocal
    split
    · rw [if_neg hno]
    · rfl
  have hwon : wonGroup gi g = { g.normWait with top := g.normWait.formTop }.formWin := by rw [wonGroup, hlocal]
  have hmanual : (wonGroup gi g).manual = some m := by
    rw [hwon]
    exact (normWait_manual g).trans hm
  rw [endedGroup_manual, formedGroup_manual, hmanual]
  split
  · next hfar =>
    obtain ⟨hside, hord⟩ := hfar
    rw [hwon] at hside hord
    have hsame := normWait_same g
    obtain ⟨hkind, hwin⟩ := arbitrate_far (kind := g.normWait.kind) hside
    refine .inr ⟨rfl, hsame.kind ▸ hkind, ?_⟩
    have hord : ordManual < (arbitrate g.normWait.kind g.normWait.formTop g.normWait.farTaken).1.ord := hord
    have hwin : (arbitrate g.normWait.kind g.normWait.formTop g.normWait.farTaken).1 = g.normWait.farTaken := hwin
    rwa [hwin, hsame.farTaken] at hord
  · exact .inl rfl

theorem manual_none_after {s : State} {gi : GroupIx} {base : Group} (hm : g.manual = none) :
    (endedGroup s gi base g).manual = none := by
  have hwon : (wonGroup gi g).manual = none := by
    have hn := (normWait_manual g).trans hm
    change (g.normWait.dropManualLocal gi).1.manual = none
    unfold Group.dropManualLocal
    split
    · next h => rw [hn] at h; cases h
    · exact hn
  rw [endedGroup_manual, formedGroup_manual, hwon, ite_self]

theorem above_of_manual {m n : Nat} (hm : g.manual = some m) (hone : 1 ≤ m) (hsix : m ≤ 6) (hn : n < ordManual) :
    g.above n = true := by
  unfold Group.above Group.localRequests
  rw [List.any_eq_true]
  refine ⟨⟨ordManual, m⟩, List.mem_append_right _ (List.mem_flatMap.2 ⟨m, ?_, ?_⟩), decide_eq_true hn⟩
  · interval_cases m <;> decide
  · unfold Group.memberRequests
    rw [if_pos hm]
    simp

theorem waitOrd_lt_manual (w : Wait) : w.ord < ordManual := by cases w <;> simp [Wait.ord, ordRestoreWait, ordStay, ordManual]

end

/-! ### The commands (R71 to R74) -/

section
variable {g : Group} {m : Nat}

theorem setForce_force (g : Group) (m : Nat) : (g.setForce m).force = some m := by
  unfold Group.setForce
  split
  · next old hold =>
    split
    · next h => rw [hold, h]
    · rw [(relist_same _ _).force, (relist_same _ _).force]
  · rw [(relist_same _ _).force]

theorem setForce_same (g : Group) (m : Nat) : sameGroup g (g.setForce m) ∧ (g.setForce m).lockout = g.lockout := by
  have hset : sameGroup g { g with force := some m } := (SameBase.refl g).same
  unfold Group.setForce
  split
  · next old _ =>
    split
    · exact ⟨(SameBase.refl g).same, rfl⟩
    · have h := (relist_same { g with force := some m } old).trans (relist_same _ m)
      exact ⟨sameGroup_trans hset h.same, h.lockout⟩
  · have h := relist_same { g with force := some m } m
    exact ⟨sameGroup_trans hset h.same, h.lockout⟩

theorem mem_setForce (hm : m ≠ 0) (hne : g.force ≠ some m) : m ∈ (g.setForce m).order := by
  have hself {k : Group} (hk : k.force = some m) : m ∈ (k.relist m).order :=
    mem_relist_self hm (memberRequests_forced hk).1
  unfold Group.setForce
  split
  · next old hold =>
    have hdiff : old ≠ m := fun heq => hne (by rw [hold, heq])
    rw [if_neg hdiff]
    refine hself ?_
    rw [(relist_same _ _).force]
  · exact hself rfl

theorem setManual_same (g : Group) (m : Nat) : SameBase g (g.setManual m) ∧ (g.setManual m).manual = some m ∧
    (g.setManual m).wait = g.wait := by
  unfold Group.setManual
  split
  · next old hold =>
    split
    · next h => exact ⟨.refl g, by rw [hold, h], rfl⟩
    · refine ⟨(SameBase.refl g).trans ((relist_same { g with manual := some m } old).trans (relist_same _ m)), ?_, ?_⟩
      · rw [relist_manual, relist_manual]
      · rw [relist_wait, relist_wait]
  · exact ⟨(SameBase.refl g).trans (relist_same { g with manual := some m } m), by rw [relist_manual], by rw [relist_wait]⟩

theorem relists_same (ms : List Nat) (g : Group) : SameBase g (ms.foldl Group.relist g) ∧
    (ms.foldl Group.relist g).manual = g.manual ∧ (ms.foldl Group.relist g).wait = g.wait := by
  refine foldl_keeps (f := Group.relist) (P := fun h => SameBase g h ∧ h.manual = g.manual ∧ h.wait = g.wait) (fun h m hh => ?_) ms
    ⟨.refl g, rfl, rfl⟩
  obtain ⟨hsame, hmanual, hwait⟩ := hh
  exact ⟨hsame.trans (relist_same h m), (relist_manual h m).trans hmanual, (relist_wait h m).trans hwait⟩

end

section
variable {s : State} {k : SlotIx}

theorem namedGroup_unloaded (h : s.rqu.loaded = false) : namedGroup s k = .error .notReady := by
  unfold namedGroup
  rw [h]
  rfl

theorem namedGroup_beyond (h : s.rqu.loaded = true) (hbig : 15 < (param8 s k 0).toNat) : namedGroup s k = .error .badArg := by
  unfold namedGroup
  rw [h, Bool.not_true, if_neg Bool.false_ne_true, dif_neg (by omega)]

variable {gi : GroupIx} (hload : s.rqu.loaded = true) (hgi : gi.val = (param8 s k 0).toNat)
include hload hgi

theorem namedGroup_absent (h : s.prc.groups[gi] = none) : namedGroup s k = .error .noObject := by
  obtain ⟨v, hv⟩ := gi
  simp only at hgi
  subst hgi
  unfold namedGroup
  rw [hload, Bool.not_true, if_neg Bool.false_ne_true, dif_pos hv, h]

theorem namedGroup_found {g : Group} (h : s.prc.groups[gi] = some g) : namedGroup s k = .ok (gi, g) := by
  obtain ⟨v, hv⟩ := gi
  simp only at hgi
  subst hgi
  unfold namedGroup
  rw [hload, Bool.not_true, if_neg Bool.false_ne_true, dif_pos hv, h]

end

section
variable {s : State} {k : SlotIx}

theorem namedGroup_refused {r : Request} (hr : r = .pslo ∨ r = .psfs ∨ r = .psms ∨ r = .pscl) {e : Result}
    (h : namedGroup s k = .error e) : ownerOf k r s = refuse s e 0 := by
  rcases hr with rfl | rfl | rfl | rfl
  · change askPslo k s = _
    unfold askPslo
    rw [h]
  · change askPsfs k s = _
    unfold askPsfs
    rw [h]
  · change askPsms k s = _
    unfold askPsms
    rw [h]
  · change askPscl k s = _
    unfold askPscl
    rw [h]

variable {gi : GroupIx} {g : Group} (h : namedGroup s k = .ok (gi, g))
include h

theorem pslo_owner : ownerOf k .pslo s = done (atNamed s gi Group.setLockout) 0 := by
  change askPslo k s = _
  unfold askPslo
  rw [h]

theorem psfs_owner : ownerOf k .psfs s =
    if (param8 s k 1).toNat = 0 ∨ g.n < (param8 s k 1).toNat then refuse s .badArg 0
    else if !g.protRequests.isEmpty then refuse s .superseded 0
    else done (atNamed s gi fun g => g.setForce (param8 s k 1).toNat) 0 := by
  change askPsfs k s = _
  unfold askPsfs
  rw [h]

theorem psms_owner : ownerOf k .psms s =
    if (param8 s k 1).toNat = 0 ∨ g.n < (param8 s k 1).toNat then refuse s .badArg 0
    else if g.above ordManual then refuse s .superseded 0
    else done (atNamed s gi fun g => g.setManual (param8 s k 1).toNat) 0 := by
  change askPsms k s = _
  unfold askPsms
  rw [h]

theorem pscl_owner : ownerOf k .pscl s = done (atNamed s gi Group.clearCommands) g.clearCount := by
  change askPscl k s = _
  unfold askPscl
  rw [h]

end

/-- R71, R85 to R89: a group with its lockout mark after an event. -/
theorem lockedOut_after {h : Group} (hset : groupSettled h = true) (hlock : h.lockout = true) :
    h.top = ⟨ordLockout, 0⟩ ∧ h.win.mem = 0 ∧ h.selected = 0 := by
  obtain ⟨⟨htop, hwin, _⟩, hplaced, _⟩ := (groupSettled_iff h).1 hset
  have htop := htop.trans (formTop_lockout hlock)
  obtain ⟨hord, hmem⟩ := farTaken_bound h
  have hwon : h.win = ⟨ordLockout, 0⟩ := by
    have hw : h.win = (arbitrate h.kind h.top h.farTaken).1 := congrArg Prod.fst hwin
    obtain ⟨huni, hother⟩ := arbitrate_said h.kind h.top h.farTaken
    rw [hw]
    by_cases hk : h.kind = .uni
    · rw [huni hk, htop]
    · obtain ⟨h1, h2, _⟩ := hother hk
      by_cases hlt : h.farTaken.ord < 11
      · rw [h2 (by rw [htop]; exact hlt), htop]
      · have hfar : h.farTaken = ⟨ordLockout, 0⟩ := by
          have ho : h.farTaken.ord = 11 := by omega
          have hm := hmem (by omega)
          cases hf : h.farTaken with
          | mk o m =>
            rw [hf] at ho hm
            simp only at ho hm
            rw [ho, hm]
            rfl
        rw [h1 (by rw [htop, hfar]), htop]
  refine ⟨htop, by rw [hwon], ?_⟩
  unfold Placed at hplaced
  rw [hwon] at hplaced
  cases hk : h.kind with
  | oneToN =>
    rw [hk] at hplaced
    obtain ⟨hb, hsel⟩ := hplaced
    have hb : h.bridged = 0 := hb
    rw [hsel, hb, ite_self]
  | _ =>
    rw [hk] at hplaced
    obtain ⟨_, hsel⟩ := hplaced
    exact hsel

/-- Settles O25: the refusals in order, then each command as a change of its group. -/
theorem protectionCommands : Obligations.ProtectionCommands := by
  unfold Obligations.ProtectionCommands
  intro k s r hr hs number m refused accepted
  refine ⟨fun h => ?_, fun h hbig => ?_, fun gi hload hgi => ⟨fun hg => ?_, fun g hg hsix => ?_⟩⟩
  · exact request_refused hs (namedGroup_refused hr (namedGroup_unloaded h))
  · exact request_refused hs (namedGroup_refused hr (namedGroup_beyond h hbig))
  · exact request_refused hs (namedGroup_refused hr (namedGroup_absent hload hgi hg))
  have hnamed := namedGroup_found hload hgi hg
  have hframe {t : State} (h : unchangedBut (.rqu :: .mem :: byPrc) s t) :
      unchangedBut [.prc, .tsel, .tsp, .alm, .jrn, .attn, .gens, .choices, .rqu, .mem] s t := unchangedBut_mono h (by decide)
  refine ⟨?_, ?_, ?_, ?_, ?_, ?_, ?_⟩
  · rintro (rfl | rfl) hbad
    · exact request_refused hs ((psfs_owner hnamed).trans (if_pos hbad))
    · exact request_refused hs ((psms_owner hnamed).trans (if_pos hbad))
  · rintro rfl hone hn hprot
    refine request_refused hs ((psfs_owner hnamed).trans ((if_neg (by omega)).trans (if_pos ?_)))
    simpa using hprot
  · rintro rfl hone hn habove
    exact request_refused hs ((psms_owner hnamed).trans ((if_neg (by omega)).trans (if_pos habove)))
  · rintro rfl
    obtain ⟨t, hexec, honly, hanswered, hrqu, hsame⟩ := request_prc hg Group.setLockout hs (pslo_owner hnamed)
    have hbase := endedGroup_same s gi g g.setLockout
    obtain ⟨htop, hwin, hsel⟩ := lockedOut_after (endedGroup_settled s gi g g.setLockout) hbase.lockout
    exact ⟨t, _, hexec, honly, sameGroup_trans (SameBase.refl g).same hbase.same,
      ⟨hbase.lockout, hbase.force, htop, hwin, hsel⟩, hanswered, hrqu, hframe hsame⟩
  · rintro rfl hone hn hprot
    obtain ⟨t, hexec, honly, hanswered, hrqu, hsame⟩ := request_prc hg (fun g => g.setForce m) hs
      ((psfs_owner hnamed).trans ((if_neg (by omega)).trans (if_neg (by rw [hprot]; decide))))
    have hbase := endedGroup_same s gi g (g.setForce m)
    obtain ⟨hgroup, hlock⟩ := setForce_same g m
    have hforce := setForce_force g m
    refine ⟨t, _, hexec, honly, sameGroup_trans hgroup hbase.same, ⟨hbase.force.trans hforce, hbase.lockout.trans hlock,
      fun hnew => ?_⟩, hanswered, hrqu, hframe hsame⟩
    obtain ⟨⟨htop, hwin, _⟩, hplaced, _⟩ := (groupSettled_iff _).1 (endedGroup_settled s gi g (g.setForce m))
    have hprot' : (endedGroup s gi g (g.setForce m)).protRequests = [] := by
      rw [hbase.protRequests, ← hprot]
      obtain ⟨_, _, _, _, _, _, _, hmons, _⟩ := hgroup
      unfold Group.protRequests Group.mon
      rw [hmons, hlock]
    have htop := htop.trans (formTop_forced hprot' (hbase.force.trans hforce)
      (endedGroup_order (.inl hforce) (mem_setForce (by omega) hnew)))
    refine ⟨htop, fun hk => ?_⟩
    have hkind : (endedGroup s gi g (g.setForce m)).kind = .uni := by
      rw [hbase.kind]
      obtain ⟨hkind, _⟩ := hgroup
      rw [hkind, hk]
    unfold Placed at hplaced
    rw [hkind] at hplaced
    obtain ⟨_, hsel⟩ := hplaced
    obtain ⟨huni, _⟩ := arbitrate_said (endedGroup s gi g (g.setForce m)).kind (endedGroup s gi g (g.setForce m)).top
      (endedGroup s gi g (g.setForce m)).farTaken
    have hw : (endedGroup s gi g (g.setForce m)).win = ⟨ordForce, m⟩ := by
      rw [← htop]
      exact congrArg Prod.fst (hwin.trans (huni hkind))
    rw [hsel, hw, if_neg]
    rintro (h | h)
    · exact absurd h (by change m ≠ 0; omega)
    · exact absurd h (by decide : ordForce ≠ 0)
  · rintro rfl hone hn habove
    obtain ⟨t, hexec, honly, hanswered, hrqu, hsame⟩ := request_prc hg (fun g => g.setManual m) hs
      ((psms_owner hnamed).trans ((if_neg (by omega)).trans (if_neg (by rw [habove]; exact Bool.false_ne_true))))
    obtain ⟨hset, hmanual, hwait⟩ := setManual_same g m
    have hbase := hset.trans (endedGroup_same s gi g (g.setManual m))
    refine ⟨t, _, hexec, honly, hbase.same, ⟨hbase.force, hbase.lockout, ?_, ?_⟩, hanswered, hrqu, hframe hsame⟩
    · rw [endedGroup_wait]
      split
      · rfl
      · next hno =>
        cases hw : (g.setManual m).wait with
        | none => rfl
        | some w => exact absurd ⟨w, hw, above_of_manual hmanual hone (by omega) (waitOrd_lt_manual w)⟩ hno
    · have := manual_after (s := s) (gi := gi) (base := g) hmanual (hset.above_manual.trans habove)
      rwa [hset.kind, hset.farTaken] at this
  · rintro rfl
    obtain ⟨t, hexec, honly, hanswered, hrqu, hsame⟩ := request_prc hg Group.clearCommands hs (pscl_owner hnamed)
    obtain ⟨hcleared, hmanual, hwait⟩ := relists_same workingMembers
      { g with lockout := false, force := none, manual := none, wait := none }
    have hbase := endedGroup_same s gi g g.clearCommands
    refine ⟨t, _, hexec, honly, sameGroup_trans (SameBase.refl g).same (sameGroup_trans hcleared.same hbase.same),
      ⟨hbase.lockout.trans hcleared.lockout, hbase.force.trans hcleared.force, manual_none_after hmanual, ?_⟩,
      hanswered, hrqu, hframe hsame⟩
    have hw : g.clearCommands.wait = none := hwait
    rw [endedGroup_wait, hw, ite_self]

end Sys2Proof.Proofs
end

