-- ==== Sys2Proof/Proofs/JournalRelease.lean ====
section
/-! A release of journal records (R151, R152): the release word in each of its cases. -/

namespace Sys2Proof.Proofs

open Sys2Proof.Machine Sys2Proof.Safety Sys2Proof.Laws

theorem jrnStamp_eq (old new : Jrn) : ∃ g, jrnStamp old new = { new with gen := g } := by
  unfold jrnStamp
  split
  · exact ⟨new.gen, rfl⟩
  · exact ⟨genNext old.gen, rfl⟩

theorem releasePoint_none {j : Jrn} {v : Nat} (h : v = 0 ∨ ∀ k, k < j.unrel → (ringBack j k).seq ≠ v) :
    releasePoint j v = none := by
  unfold releasePoint
  split
  · rfl
  · next hv =>
    have hnone := h.resolve_left hv
    refine List.find?_eq_none.2 fun k hk => ?_
    simpa using hnone k (List.mem_range.1 hk)

theorem releasePoint_some {j : Jrn} {v k : Nat} (hv : v ≠ 0) (hk : k < j.unrel) (hseq : (ringBack j k).seq = v)
    (hfirst : ∀ i, i < k → (ringBack j i).seq ≠ v) : releasePoint j v = some k := by
  unfold releasePoint
  rw [if_neg hv, List.find?_range_eq_some]
  exact ⟨by simpa using hseq, List.mem_range.2 hk, fun i hi => by simpa using hfirst i hi⟩

/-- R151: the journal with the records from `k` on released. -/
def released (j : Jrn) (k : Nat) : Jrn := { j with unrel := k, full := if k < 256 then false else j.full }

theorem jrnOk_released {j : Jrn} {k : Nat} (hok : jrnOk j = true) (hstop : j.stop = true) (hk : k < j.unrel) :
    jrnOk (released j k) = true ∧ k < 256 := by
  obtain ⟨hpos, hseq, hunrel, -, hlost, hbad⟩ := (jrnOk_iff j).1 hok
  refine ⟨(jrnOk_iff _).2 ⟨hpos, hseq, by change k ≤ 256; omega, ?_, hlost, hbad⟩, by omega⟩
  change if j.stop then (if k < 256 then false else j.full) = decide (k = 256) else _
  rw [if_pos hstop, if_pos (by omega)]
  exact (decide_eq_false (by omega)).symm

section
variable {s : State} {v k : Nat} (hstop : s.jrn.stop = true) (h : releasePoint s.jrn v = some k)
include hstop h

theorem jrnRelease_quiet (hquiet : s.jrn.full = false ∨ s.jrn.lost = 0) :
    jrnRelease s v = (jrnStamp s.jrn (released s.jrn k), []) := by
  have hc : (s.jrn.full && decide (k < 256) && decide (0 < s.jrn.lost)) = false := by
    rcases hquiet with h | h <;> rw [h] <;> simp
  unfold jrnRelease
  rw [if_neg (by rw [hstop]; decide)]
  simp only [h]
  rw [if_neg (by rw [hc]; decide)]
  rfl

theorem jrnRelease_lost (hfull : s.jrn.full = true) (hlost : 0 < s.jrn.lost) (hk : k < 256) :
    jrnRelease s v = (jrnStamp s.jrn { (jrnWrite s.now (released s.jrn k) (.lost s.jrn.lost)).1 with lost := 0 },
      (jrnWrite s.now (released s.jrn k) (.lost s.jrn.lost)).2) := by
  have hc : (s.jrn.full && decide (k < 256) && decide (0 < s.jrn.lost)) = true := by simp [hfull, hk, hlost]
  unfold jrnRelease
  rw [if_neg (by rw [hstop]; decide)]
  simp only [h]
  rw [if_pos hc]
  rfl

end

/-- Settles O37: WRAP, a value without a record, and the two releases, each by its equation of `jrnRelease`. -/
theorem aReleaseOfRecords : Obligations.AReleaseOfRecords := by
  unfold Obligations.AReleaseOfRecords
  intro s v hok j x
  refine ⟨fun hwrap => ?_, fun hstop hnone => ?_, fun k hstop hv hk hseq hfirst => ?_⟩
  · change jrnRelease s v = _
    simp only [jrnRelease, j] at hwrap ⊢
    rw [hwrap]
    rfl
  · have hx : x = (jrnStamp j { j with badRel := count16 j.badRel }, []) := by
      change jrnRelease s v = _
      simp only [jrnRelease, releasePoint_none hnone, hstop, Bool.not_true, Bool.false_eq_true, if_false, j]
    obtain ⟨g, hg⟩ := jrnStamp_eq j { j with badRel := count16 j.badRel }
    rw [hx, hg]
    exact ⟨rfl, rfl, rfl, rfl, rfl, rfl, rfl, rfl⟩
  · have hpoint := releasePoint_some hv hk hseq hfirst
    obtain ⟨hok', hlow⟩ := jrnOk_released hok hstop hk
    obtain ⟨hpos, -⟩ := (jrnOk_iff _).1 hok
    have hfull' : (released j k).full = false := if_pos hlow
    by_cases hlost : j.full = true ∧ 0 < j.lost
    · obtain ⟨hfull, hlost⟩ := hlost
      have hx : x = _ := jrnRelease_lost hstop hpoint hfull hlost hlow
      rw [jrnWrite_stop hok' hstop hlow] at hx
      obtain ⟨g, hg⟩ := jrnStamp_eq s.jrn { recorded s.now (released s.jrn k) (.lost s.jrn.lost) (k + 1)
        (decide (k + 1 = 256)) with lost := 0 }
      have hx : x = ({ recorded s.now (released s.jrn k) (.lost s.jrn.lost) (k + 1) (decide (k + 1 = 256)) with
          lost := 0, gen := g }, .attn .jrn :: if k + 1 = 256 then [.attn .jfull] else []) :=
        hx.trans (congrArg (·, _) hg)
      rw [hx]
      refine ⟨rfl, fun hquiet => ?_, fun _ _ => ⟨recorded_ring (unrel := k + 1) (full := decide (k + 1 = 256)) hok', nextPosition_eq hpos, rfl, rfl, rfl, rfl,
        List.mem_cons_self, ?_⟩⟩
      · rcases hquiet with h | h
        · rw [hfull] at h; cases h
        · omega
      · change _ ∈ Msg.attn .jrn :: (if k + 1 = 256 then [.attn .jfull] else []) ↔ _
        split <;> simp [*]
    · have hquiet : j.full = false ∨ j.lost = 0 := by
        cases hf : j.full with
        | false => exact .inl rfl
        | true => exact .inr (Nat.eq_zero_of_not_pos fun h => hlost ⟨hf, h⟩)
      have hx : x = _ := jrnRelease_quiet hstop hpoint hquiet
      obtain ⟨g, hg⟩ := jrnStamp_eq s.jrn (released s.jrn k)
      rw [hx, hg]
      exact ⟨rfl, fun _ => ⟨rfl, rfl, hfull', rfl, rfl, rfl, rfl⟩, fun hfull hpos => absurd ⟨hfull, hpos⟩ hlost⟩

end Sys2Proof.Proofs
end

