-- ==== Sys2Proof/Proofs/TableLoads.lean ====
section
/-! The loop of a table load (R165). -/

namespace Sys2Proof.Proofs

open Sys2Proof.Machine Sys2Proof.Safety Sys2Proof.Laws

/-! ### What an applied entry leaves to RQU -/

/-- What no block's event moves: the slots, what was last given in them, RQU's attention and the memory. -/
structure ForRqu (s u : State) : Prop where
  slots : u.rqu.slots = s.rqu.slots
  last  : u.rqu.last = s.rqu.last
  mask  : u.hpi.mask = s.hpi.mask
  req   : u.hpi.attn.getLsbD 0 = s.hpi.attn.getLsbD 0
  mem   : u.mem = s.mem

theorem ForRqu.refl (s : State) : ForRqu s s := ⟨rfl, rfl, rfl, rfl, rfl⟩

theorem ForRqu.trans {s t u : State} (h : ForRqu s t) (k : ForRqu t u) : ForRqu s u :=
  ⟨k.slots.trans h.slots, k.last.trans h.last, k.mask.trans h.mask, k.req.trans h.req, k.mem.trans h.mem⟩

theorem forRqu_settled {s : State} {r : State × List Msg} (h : ForRqu s r.1) (hreq : Msg.attn .req ∉ r.2) :
    ForRqu s (settled r) := by
  obtain ⟨hattn, hmask⟩ := settle_sameReq 10 hreq r.1
  have hrqu : (settled r).rqu = r.1.rqu := settled_unchanged r .rqu (by decide)
  have hmem : (settled r).mem = r.1.mem := settled_unchanged r .mem (by decide)
  exact ⟨by rw [hrqu, h.slots], by rw [hrqu, h.last], hmask.trans h.mask, hattn.trans h.req, hmem.trans h.mem⟩

/-- A table whose entries leave RQU its slots and its memory. -/
def LeavesRqu (take : State → Nat → List Byte → Option (State × Nat)) : Prop :=
  ∀ (s : State) (i : Nat) (e : List Byte), ∀ x ∈ take s i e, ForRqu s x.1

theorem forRqu_of_mem_map {α : Type} {o : Option α} {f : α → State} {g : α → Nat} {s : State}
    (hf : ∀ y ∈ o, ForRqu s (f y)) : ∀ x ∈ o.map (fun y => (f y, g y)), ForRqu s x.1 := by
  rintro x hx
  obtain ⟨y, hy, rfl⟩ := Option.mem_map.1 hx
  exact hf y hy

theorem pmonLoad_noReq (s : State) (p : Port) (e : PortEntry) : Msg.attn .req ∉ (pmonLoad s p e).2 := by
  simp only [pmonLoad, List.mem_append, not_or]
  refine ⟨?_, handPorts_noReq _ _⟩
  split <;> simp

theorem ciuLoad_noReq (s : State) (i : InputIx) (role : ContactRole) (f : Nat) (high : Bool) (d : Nat) :
    Msg.attn .req ∉ (ciuLoad s i role f high d).2 := by
  simp [ciuLoad, toAlm_noReq]

theorem prcLoad_noReq (s : State) (gi : GroupIx) (d : Option GroupDef) : Msg.attn .req ∉ (prcLoad s gi d).2 := by
  simp only [prcLoad]
  split
  · exact List.not_mem_nil
  · exact prcEnd_noReq _
  · exact prcEnd_noReq _
  · split <;> exact prcEnd_noReq _

theorem almProfile_noReq (s : State) (t : Fin 24) (pf : AlarmProfile) : Msg.attn .req ∉ (almProfile s t pf).2 := by
  unfold almProfile
  simp only [almMove_eq]
  exact almFinish_noReq _ _

theorem loadShelf_leavesRqu : LeavesRqu loadShelf :=
  fun _ _ _ => forRqu_of_mem_map fun _ _ => forRqu_settled ⟨rfl, rfl, rfl, rfl, rfl⟩ (by simp)

theorem loadProfile_leavesRqu : LeavesRqu loadProfile := by
  intro s i e x hx
  cases hx
  exact ⟨rfl, rfl, rfl, rfl, rfl⟩

theorem loadPort_leavesRqu : LeavesRqu loadPort :=
  fun _ _ _ => forRqu_of_mem_map fun _ _ => forRqu_settled ⟨rfl, rfl, rfl, rfl, rfl⟩ (pmonLoad_noReq _ _ _)

theorem loadCabling_leavesRqu : LeavesRqu loadCabling :=
  fun _ _ _ => forRqu_of_mem_map fun _ _ => forRqu_settled ⟨rfl, rfl, rfl, rfl, rfl⟩ (cbcEnd_noReq _)

theorem loadGroup_leavesRqu : LeavesRqu loadGroup :=
  fun _ _ _ => forRqu_of_mem_map fun _ _ => forRqu_settled ⟨rfl, rfl, rfl, rfl, rfl⟩ (prcLoad_noReq _ _ _)

theorem loadRefEntry_leavesRqu : LeavesRqu loadRefEntry :=
  fun _ _ _ => forRqu_of_mem_map fun _ _ => forRqu_settled ⟨rfl, rfl, rfl, rfl, rfl⟩ (tselEnd_noReq _ _)

theorem forRqu_putAlm (s : State) (r : Alm × List Msg) : ForRqu s (putAlm s r).1 := ⟨rfl, rfl, rfl, rfl, rfl⟩

theorem loadAlarm_leavesRqu : LeavesRqu loadAlarm := by
  intro s i e x hx
  unfold loadAlarm at hx
  refine forRqu_of_mem_map (fun y _ => forRqu_settled ?_ ?_) x hx
  · exact forRqu_putAlm _ _
  · rw [putAlm_msgs]
    exact almProfile_noReq _ _ _

theorem loadContact_leavesRqu : LeavesRqu loadContact :=
  fun _ _ _ => forRqu_of_mem_map fun _ _ => forRqu_settled ⟨rfl, rfl, rfl, rfl, rfl⟩ (ciuLoad_noReq _ _ _ _ _ _)

/-! ### The loop -/

section
variable {take : State → Nat → List Byte → Option (State × Nat)} {size base first n k clamps : Nat} {s : State}

theorem loadEntries_take {x : State × Nat} (h : take s (first + k) (stagedEntry s base size k) = some x) :
    loadEntries take size base first (n + 1) k clamps s = loadEntries take size base first n (k + 1) (clamps + x.2) x.1 := by
  rw [loadEntries, h]

theorem loadEntries_fault (h : take s (first + k) (stagedEntry s base size k) = none) :
    loadEntries take size base first (n + 1) k clamps s = (s, some (.partLoad, k)) := by
  rw [loadEntries, h]

end

section
variable {take : State → Nat → List Byte → Option (State × Nat)} {size base first count n : Nat} {s : State}
variable {st : Nat → State} {clamps : Nat → Nat}

/-- The entries as the load takes them, one after the other. -/
def Taken (take : State → Nat → List Byte → Option (State × Nat)) (size base first : Nat) (s : State)
    (st : Nat → State) (clamps : Nat → Nat) (n : Nat) : Prop :=
  ∀ j, j < n → take (st j) (first + j) (stagedEntry s base size j) = some (st (j + 1), clamps j)

theorem taken_forRqu (hkeep : LeavesRqu take) (h0 : st 0 = s) (h : Taken take size base first s st clamps n) (j : Nat)
    (hj : j ≤ n) : ForRqu s (st j) := by
  induction j with
  | zero => rw [h0]; exact .refl s
  | succ j ih => exact (ih (by omega)).trans (hkeep _ _ _ _ (h j (by omega)))

theorem stagedEntry_congr {u : State} (h : u.mem = s.mem) (base size i : Nat) :
    stagedEntry u base size i = stagedEntry s base size i := by
  unfold stagedEntry
  rw [h]

theorem loadEntries_taken (hkeep : LeavesRqu take) (h0 : st 0 = s) (h : Taken take size base first s st clamps n)
    (hn : n ≤ count) (j : Nat) (hj : j ≤ n) : loadEntries take size base first count 0 0 s =
      loadEntries take size base first (count - j) j ((List.range j).map clamps).sum (st j) := by
  induction j with
  | zero =>
    rw [h0]
    rfl
  | succ j ih =>
    have hstep := h j (by omega)
    rw [← stagedEntry_congr (taken_forRqu hkeep h0 h j (by omega)).mem] at hstep
    rw [ih (by omega), show count - j = count - (j + 1) + 1 by omega, loadEntries_take hstep, List.range_succ,
      List.map_append, List.sum_append]
    rfl

end

section
variable {table : Table} {take : State → Nat → List Byte → Option (State × Nat)} {k : SlotIx} {s : State}

theorem fits_iff (r : LoadRange) (t : Table) : r.fits t = true ↔
    r.offset % 2 = 0 ∧ r.count ≠ 0 ∧ r.first + r.count ≤ t.entries ∧ r.offset + r.count * t.size ≤ 4096 := by
  simp [LoadRange.fits, and_assoc]

theorem askLoad_unfit (h : (loadRange s k).fits table = false) : askLoad table take k s = refuse s .badArg 0 :=
  if_neg (Bool.eq_false_iff.1 h)

theorem askLoad_fit (h : (loadRange s k).fits table = true) : askLoad table take k s =
    loadEntries take table.size (param16 s k 0) (param8 s k 2).toNat (param8 s k 3).toNat 0 0 s := if_pos h

end

/-- R162, R165: a load that ends in the state `u`. -/
theorem load_ends {s u : State} {k : SlotIx} {r : Request} {e : Result} {d : Nat} (hs : serving s k r = true)
    (howner : ownerOf k r s = (u, some (e, d))) (hu : ForRqu s u) :
    ∃ t, exec (r.command k) s = .next t ∧ Answered u t k e d s.mem ∧ sameRqu u t ∧ unchangedBut [.attn, .rqu, .mem] u t := by
  obtain ⟨hexec, hbusy, hwf⟩ := serving_iff.1 hs
  have hserved := finish_served (owned_self (s := u) (k := k) (by rw [hu.slots, hbusy]) (by rw [hu.mem, hwf])) e d
  refine ⟨finish u k e d, ?_, ?_, hserved.rqu, hserved.unchanged⟩
  · rw [exec_request, runRequest, if_pos hexec, howner]
  · rw [← hu.mem]
    exact hserved.answered

/-- Settles O43: the range is refused or the entries are applied in order, up to the end or the first fault. -/
theorem aLoadAppliesItsEntriesInOrder : Obligations.ALoadAppliesItsEntriesInOrder := by
  unfold Obligations.ALoadAppliesItsEntriesInOrder
  intro k s r table take hrow hs offset first count fits
  obtain ⟨howner, hkeep⟩ : ownerOf k r = askLoad table take k ∧ LeavesRqu take := by
    simp only [List.mem_cons, Prod.mk.injEq, List.not_mem_nil, or_false] at hrow
    rcases hrow with ⟨rfl, rfl, rfl⟩ | ⟨rfl, rfl, rfl⟩ | ⟨rfl, rfl, rfl⟩ | ⟨rfl, rfl, rfl⟩ | ⟨rfl, rfl, rfl⟩ |
      ⟨rfl, rfl, rfl⟩ | ⟨rfl, rfl, rfl⟩ | ⟨rfl, rfl, rfl⟩
    exacts [⟨rfl, loadShelf_leavesRqu⟩, ⟨rfl, loadProfile_leavesRqu⟩, ⟨rfl, loadPort_leavesRqu⟩,
      ⟨rfl, loadCabling_leavesRqu⟩, ⟨rfl, loadGroup_leavesRqu⟩, ⟨rfl, loadRefEntry_leavesRqu⟩,
      ⟨rfl, loadAlarm_leavesRqu⟩, ⟨rfl, loadContact_leavesRqu⟩]
  have hfits : (loadRange s k).fits table = true ↔ fits := fits_iff _ _
  refine ⟨fun hno => ?_, fun hfit n st clamps hn h0 htaken => ?_⟩
  · refine request_refused hs ((congrFun howner s).trans (askLoad_unfit ?_))
    exact Bool.eq_false_iff.2 fun h => hno (hfits.1 h)
  · have hrun : ownerOf k r s = _ := (congrFun howner s).trans (askLoad_fit (hfits.2 hfit))
    have hstate := taken_forRqu hkeep h0 htaken n le_rfl
    rw [loadEntries_taken hkeep h0 htaken hn n le_rfl] at hrun
    refine ⟨fun hall => ?_, fun hlt hfault => ?_⟩
    · have hnone : (param8 s k 3).toNat - n = 0 := by omega
      rw [hnone] at hrun
      exact load_ends hs hrun hstate
    · have hmore : (param8 s k 3).toNat - n = (param8 s k 3).toNat - n - 1 + 1 := by
        change count - n = _
        omega
      rw [hmore, loadEntries_fault (by rw [stagedEntry_congr hstate.mem]; exact hfault)] at hrun
      exact load_ends hs hrun hstate

end Sys2Proof.Proofs
end

