-- ==== Sys2Proof/Proofs/CalibrationJobs.lean ====
section
/-! Calibration jobs: CALB, CALB_JOB_DONE and ABRT (R13, R14, R163, R164). -/

namespace Sys2Proof.Proofs

open Sys2Proof.Machine Sys2Proof.Safety Sys2Proof.Laws

/-! ### The ports of a job at PMON -/

/-- R13: what the start of a calibration makes of a port's record and its outcome. -/
def startedRec (k : SlotIx) (r : PortRec) : PortRec × Option CalOutcome :=
  match r.handed with
  | .dark => (r, some .failedLos)
  | .monLost => (r, some .failedMonlost)
  | .equipOut => (r, some .failedEquip)
  | .clear | .degrade | .fail => ({ r with cal := some { slot := k, count := 0, sum := 0 } }, none)

theorem startCals_cons (k : SlotIx) (p : Port) (ps : List Port) (pm : Pmon) : startCals k (p :: ps) pm =
    startCals k ps { pm with
      ports := pm.ports.set p (startedRec k pm.ports[p]).1
      outcomes := pm.outcomes.set p (startedRec k pm.ports[p]).2 } := by
  simp only [startCals, startedRec]
  cases pm.ports[p].handed <;> rfl

theorem startedRec_twice (k : SlotIx) (r : PortRec) : startedRec k (startedRec k r).1 = startedRec k r := by
  cases hr : r.handed <;> simp [startedRec, hr]

theorem startCals_context (k : SlotIx) (ps : List Port) (pm : Pmon) :
    (startCals k ps pm).cards = pm.cards ∧ (startCals k ps pm).profiles = pm.profiles := by
  induction ps generalizing pm with
  | nil => exact ⟨rfl, rfl⟩
  | cons p ps ih => rw [startCals_cons]; exact ih _

theorem startCals_port (k : SlotIx) (ps : List Port) (pm : Pmon) (q : Port) :
    (startCals k ps pm).ports[q] = (if q ∈ ps then (startedRec k pm.ports[q]).1 else pm.ports[q]) ∧
    (startCals k ps pm).outcomes[q] = (if q ∈ ps then (startedRec k pm.ports[q]).2 else pm.outcomes[q]) := by
  induction ps generalizing pm with
  | nil => exact ⟨rfl, rfl⟩
  | cons p ps ih =>
    rw [startCals_cons]
    obtain ⟨hport, hout⟩ := ih { pm with
      ports := pm.ports.set p (startedRec k pm.ports[p]).1
      outcomes := pm.outcomes.set p (startedRec k pm.ports[p]).2 }
    rw [hport, hout]
    simp only [getElem_set_fin, List.mem_cons]
    by_cases hq : q = p
    · subst hq
      simp only [true_or, if_true, startedRec_twice, ite_self]
      exact ⟨trivial, trivial⟩
    · simp only [hq, false_or, if_false]
      exact ⟨trivial, trivial⟩

theorem endCals_context (o : CalOutcome) (ps : List Port) (pm : Pmon) :
    (endCals o ps pm).cards = pm.cards ∧ (endCals o ps pm).profiles = pm.profiles := by
  induction ps generalizing pm with
  | nil => exact ⟨rfl, rfl⟩
  | cons p ps ih => exact ih _

theorem endCal_of_none {o : CalOutcome} {r : PortRec} (h : r.cal = none) : endCal o r = (r, none) := by simp [endCal, h]

theorem endCal_of_some {o : CalOutcome} {r : PortRec} (h : r.cal ≠ none) : endCal o r = ({ r with cal := none }, some o) :=
  if_pos (Option.isSome_iff_ne_none.2 h)

/-- R15: the ports named lose their calibration. -/
theorem endCals_port (o : CalOutcome) (ps : List Port) (pm : Pmon) (q : Port) :
    (endCals o ps pm).ports[q] = (if q ∈ ps then { pm.ports[q] with cal := none } else pm.ports[q]) ∧
    (endCals o ps pm).outcomes[q] = (if q ∈ ps ∧ pm.ports[q].cal ≠ none then some o else pm.outcomes[q]) := by
  induction ps generalizing pm with
  | nil => exact ⟨rfl, (if_neg fun h => List.not_mem_nil h.1).symm⟩
  | cons p ps ih =>
    change (endCals o ps (pm.put p (endCal o pm.ports[p]).1 (endCal o pm.ports[p]).2)).ports[q] = _ ∧
      (endCals o ps (pm.put p (endCal o pm.ports[p]).1 (endCal o pm.ports[p]).2)).outcomes[q] = _
    obtain ⟨hport, hout⟩ := ih (pm.put p (endCal o pm.ports[p]).1 (endCal o pm.ports[p]).2)
    rw [hport, hout]
    by_cases hcal : pm.ports[p].cal = none
    · have hsame : pm.put p (endCal o pm.ports[p]).1 (endCal o pm.ports[p]).2 = pm := by
        rw [endCal_of_none hcal]
        simp [Pmon.put]
      rw [hsame]
      by_cases hq : q = p
      · subst hq
        simp only [List.mem_cons, true_or, if_true, hcal, ne_eq, not_true_eq_false, and_false, if_false, and_true]
        split
        · rfl
        · cases h : pm.ports[q]
          simp_all
      · simp only [List.mem_cons, hq, false_or, and_self]
    · rw [endCal_of_some hcal]
      simp only [Pmon.put, Option.isSome_some, if_true, getElem_set_fin]
      by_cases hq : q = p
      · subst hq
        simp only [if_true, ne_eq, not_true_eq_false, and_false, List.mem_cons, true_or, ite_self, hcal,
          not_false_eq_true, and_self]
      · simp only [hq, if_false, List.mem_cons, false_or, and_self]

theorem clearOutcomes_context (ps : List Port) (pm : Pmon) : (clearOutcomes ps pm).ports = pm.ports ∧
    (clearOutcomes ps pm).cards = pm.cards ∧ (clearOutcomes ps pm).profiles = pm.profiles := by
  induction ps generalizing pm with
  | nil => exact ⟨rfl, rfl, rfl⟩
  | cons p ps ih => exact ih _

/-! ### A port set -/

theorem mem_portSet (s : State) (k : SlotIx) (p : Port) :
    p ∈ portSet s k ↔ (param8 s k (7 - p.val / 8)).getLsbD (p.val % 8) = true := by
  simp [portSet, allPorts]

/-- The lowest port of a set with a property. -/
theorem portSet_find {s : State} {k : SlotIx} {test : Port → Bool} {p : Port} (hp : p ∈ portSet s k) (htest : test p = true)
    (hlow : ∀ q ∈ portSet s k, q < p → test q = false) : (portSet s k).find? test = some p := by
  unfold portSet
  rw [List.find?_filter, allPorts, find?_finRange_eq_some]
  refine ⟨decide_eq_true ⟨(mem_portSet s k p).1 hp, htest⟩, fun q hq => decide_eq_false ?_⟩
  rintro ⟨hbit, hyes⟩
  rw [hlow q ((mem_portSet s k q).2 hbit) hq] at hyes
  cases hyes

theorem find?_of_none {α : Type} {l : List α} {test : α → Bool} (h : ∀ x ∈ l, test x = false) : l.find? test = none :=
  List.find?_eq_none.2 fun x hx => Bool.eq_false_iff.1 (h x hx)

/-! ### CALB -/

theorem settled_quiet {r : State × List Msg} (h : r.2 = []) : settled r = r.1 := by
  obtain ⟨s, ms⟩ := r
  cases h
  rfl

section
variable {s : State} {k : SlotIx}

/-- R13: whether a port is under work hold or in a running job. -/
def engaged (s : State) (p : Port) : Bool := (s.rqu.jobs.any fun j => j.ports.contains p) || s.cbc.ports[p].hold.isSome

theorem engaged_iff (p : Port) : engaged s p = true ↔ s.cbc.ports[p].hold ≠ none ∨ ∃ j ∈ s.rqu.jobs, p ∈ j.ports := by
  simp only [engaged, Bool.or_eq_true, List.any_eq_true, List.contains_iff_mem, Option.isSome_iff_ne_none]
  exact or_comm

/-- R13: the state an accepted CALB leaves RQU to go on from. -/
def calibrating (s : State) (k : SlotIx) : State × List Msg :=
  putPmon { s with rqu := { s.rqu with
      jobs := s.rqu.jobs ++ [{ slot := k, ports := portSet s k, offset := param16 s k 8 }] } }
    (startCals k (portSet s k) s.pmon, [])

theorem askCalb_form (h : portSet s k = [] ∨ 4096 < param16 s k 8 + 64) : askCalb k s = refuse s .badArg 0 := if_pos h

variable (hset : portSet s k ≠ []) (hoff : param16 s k 8 + 64 ≤ 4096)
include hset hoff

theorem askCalb_unpopulated {p : Port} (h : ((portSet s k).find? fun p => !s.populated p) = some p) :
    askCalb k s = refuse s .noObject p.val := by
  unfold askCalb
  simp only
  rw [if_neg (by simp only [hset, false_or]; omega), h]

variable (hpop : ((portSet s k).find? fun p => !s.populated p) = none)
include hpop

theorem askCalb_full (h : 2 ≤ s.rqu.jobs.length) : askCalb k s = refuse s .full 0 := by
  unfold askCalb
  simp only
  rw [if_neg (by simp only [hset, false_or]; omega), hpop]
  simp only
  rw [if_pos h]

theorem askCalb_conflict (h : s.rqu.jobs.length < 2) {p : Port} (hp : (portSet s k).find? (engaged s) = some p) :
    askCalb k s = refuse s .conflict p.val := by
  unfold engaged at hp
  unfold askCalb
  simp only
  rw [if_neg (by simp only [hset, false_or]; omega), hpop]
  simp only
  rw [if_neg (by omega), hp]

theorem askCalb_accepted (h : s.rqu.jobs.length < 2) (hp : (portSet s k).find? (engaged s) = none) :
    askCalb k s = (settled (calibrating s k), none) := by
  unfold engaged at hp
  unfold askCalb
  simp only
  rw [if_neg (by simp only [hset, false_or]; omega), hpop]
  simp only
  rw [if_neg (by omega), hp]
  rfl

end

/-- R161: a request that goes on as a job: its slot stays BUSY and RQU takes the next. -/
theorem request_goesOn {s u : State} {k : SlotIx} {r : Request} (hs : serving s k r = true)
    (howner : ownerOf k r s = (u, none)) : exec (r.command k) s = .next (endExec u) := by
  obtain ⟨hexec, _, _⟩ := serving_iff.1 hs
  rw [exec_request, runRequest, if_pos hexec, howner]

theorem calibrating_said (s : State) (k : SlotIx) :
    (settled (calibrating s k)).rqu = { s.rqu with
      jobs := s.rqu.jobs ++ [{ slot := k, ports := portSet s k, offset := param16 s k 8 }] } ∧
    (settled (calibrating s k)).mem = s.mem ∧
    (settled (calibrating s k)).pmon = startCals k (portSet s k) s.pmon ∧
    unchangedBut [.pmon, .gens, .rqu] s (settled (calibrating s k)) := by
  rw [settled_quiet (putPmon_msgs _ _)]
  unfold calibrating
  refine ⟨putPmon_rqu _ _, putPmon_mem _ _, putPmon_pmon _ _, fun q hq => ?_⟩
  cases q <;> first | exact absurd (by decide) hq | simp [Part.same]

/-- Settles O47: the refusals in order, then the start of the job, port by port. -/
theorem aCalibrationJobStarts : Obligations.ACalibrationJobStarts := by
  unfold Obligations.ACalibrationJobStarts
  intro k s hs set offset taken refused
  refine ⟨fun h => request_refused hs (askCalb_form h), fun hset hoff => ⟨fun p hp hno hlow => ?_, fun hpop => ?_⟩⟩
  · refine request_refused hs (askCalb_unpopulated hset hoff (portSet_find hp ?_ fun q hq hlt => ?_))
    · rw [hno]; rfl
    · rw [hlow q hq hlt]; rfl
  have hnone : ((portSet s k).find? fun p => !s.populated p) = none :=
    find?_of_none fun p hp => by rw [hpop p hp]; rfl
  refine ⟨fun hfull => request_refused hs (askCalb_full hset hoff hnone hfull), fun hroom => ⟨fun p hp htaken hlow => ?_,
    fun hfree => ?_⟩⟩
  · refine request_refused hs (askCalb_conflict hset hoff hnone hroom (portSet_find hp ((engaged_iff p).2 htaken)
      fun q hq hlt => Bool.eq_false_iff.2 fun h => hlow q hq hlt ((engaged_iff q).1 h)))
  have howner := askCalb_accepted hset hoff hnone hroom
    (find?_of_none fun p hp => Bool.eq_false_iff.2 fun h => hfree p hp ((engaged_iff p).1 h))
  obtain ⟨_, hbusy, hwf⟩ := serving_iff.1 hs
  obtain ⟨hrqu, hmem, hstarted, hframe⟩ := calibrating_said s k
  generalize settled (calibrating s k) = u at howner hrqu hmem hstarted hframe
  have hqueued : lowestQueued u = lowestQueued s := lowestQueued_congr fun i => by rw [hrqu]
  have hrest := endExec_unchanged u
  have hpmon : (endExec u).pmon = startCals k set s.pmon := (hrest .pmon (by decide)).trans hstarted
  obtain ⟨hcards, hprofiles⟩ := startCals_context k set s.pmon
  obtain ⟨hshelf, hloaded, hjobs⟩ := endExec_sameRqu u
  obtain ⟨_, hshows, hbytes⟩ := endExec_mem u (by rw [hmem, hwf])
  rw [hqueued, hmem] at hbytes
  rw [hqueued, hrqu] at hshows
  rw [hrqu] at hshelf hloaded hjobs
  refine ⟨endExec u, request_goesOn hs howner, hjobs, ?_, (endExec_exec u).trans hqueued, hshelf, hloaded, fun j _ => ?_,
    (endExec_last u).trans (by rw [hrqu]), hshows, hbytes, fun p hp => ?_, fun p hp => ?_, ?_, ?_, ?_⟩
  · rw [endExec_slot, hrqu]
    split
    · rfl
    · exact hbusy
  · rw [endExec_slot, hqueued, hrqu]
  · obtain ⟨hport, hout⟩ := startCals_port k set s.pmon p
    rw [if_pos hp] at hport hout
    simp only [hpmon]
    rw [hport, hout]
    refine ⟨fun h => ?_, fun h => ?_, fun h => ?_, fun h => ?_⟩
    iterate 3 simp only [startedRec, h]; exact ⟨trivial, trivial⟩
    rcases h with h | h | h <;> simp only [startedRec, h] <;> exact ⟨trivial, trivial⟩
  · obtain ⟨hport, hout⟩ := startCals_port k set s.pmon p
    rw [if_neg hp] at hport hout
    rw [hpmon]
    exact ⟨hport, hout⟩
  · rw [hpmon, hcards]
  · rw [hpmon, hprofiles]
  · exact unchangedBut_trans (unchangedBut_mono hframe (by decide)) (unchangedBut_mono hrest (by decide))

/-! ### The end of a job -/

section
variable {s : State} {j : Job} {r : Result}

/-- R163: the slot answered once the outcome table is written. -/
def outcomesAnswered (s : State) (j : Job) (r : Result) : State :=
  answer (writeOutcomes s j) j.slot r (jobCalibrated s.pmon j)

theorem endJob_eq (s : State) (j : Job) (r : Result) : endJob s j r = { outcomesAnswered s j r with
    rqu := { (outcomesAnswered s j r).rqu with
      jobs := (outcomesAnswered s j r).rqu.jobs.filter fun x => x.slot != j.slot }
    pmon := clearOutcomes j.ports (outcomesAnswered s j r).pmon } := by
  unfold endJob outcomesAnswered
  rfl

theorem writeOutcomes_frame (s : State) (j : Job) : unchangedBut [.mem] s (writeOutcomes s j) := by
  unfold writeOutcomes
  generalize memWriteAll s.mem _ _ = m
  intro q hq
  cases q <;> first | rfl | exact absurd (by decide) hq

theorem writeOutcomes_hpi (s : State) (j : Job) : (writeOutcomes s j).hpi = s.hpi := by
  unfold writeOutcomes
  generalize memWriteAll s.mem _ _ = m
  rfl

theorem outcomesAnswered_frame (s : State) (j : Job) (r : Result) :
    unchangedBut [.attn, .rqu, .mem] s (outcomesAnswered s j r) :=
  unchangedBut_trans (unchangedBut_mono (writeOutcomes_frame s j) (by decide)) (answer_unchanged _ _ _ _)

theorem outcomesAnswered_rqu (s : State) (j : Job) (r : Result) : (outcomesAnswered s j r).rqu = { s.rqu with
    slots := s.rqu.slots.set j.slot r.slotState
    last := s.rqu.last.set j.slot (r.given (jobCalibrated s.pmon j)) } := by
  have hrqu : (writeOutcomes s j).rqu = s.rqu := writeOutcomes_frame s j .rqu (by decide)
  rw [← hrqu]
  rfl

theorem endJob_rqu (s : State) (j : Job) (r : Result) : (endJob s j r).rqu = { s.rqu with
    slots := s.rqu.slots.set j.slot r.slotState
    last := s.rqu.last.set j.slot (r.given (jobCalibrated s.pmon j))
    jobs := s.rqu.jobs.filter fun x => x.slot != j.slot } := by
  rw [endJob_eq]
  simp only [outcomesAnswered_rqu]

theorem endJob_hpi (s : State) (j : Job) (r : Result) : (endJob s j r).hpi = s.hpi.event .req := by
  rw [endJob_eq]
  simp only [outcomesAnswered, answer_hpi, writeOutcomes_hpi]

theorem endJob_pmon (s : State) (j : Job) (r : Result) : (endJob s j r).pmon.ports = s.pmon.ports ∧
    (endJob s j r).pmon.cards = s.pmon.cards ∧ (endJob s j r).pmon.profiles = s.pmon.profiles := by
  have hpmon : (outcomesAnswered s j r).pmon = s.pmon := outcomesAnswered_frame s j r .pmon (by decide)
  rw [endJob_eq]
  simp only [hpmon]
  exact clearOutcomes_context j.ports s.pmon

theorem endJob_unchanged (s : State) (j : Job) (r : Result) : unchangedBut [.pmon, .attn, .rqu, .mem] s (endJob s j r) := by
  rw [endJob_eq]
  refine unchangedBut_trans (unchangedBut_mono (outcomesAnswered_frame s j r) (by decide)) fun q hq => ?_
  generalize outcomesAnswered s j r = t
  cases q <;> first | rfl | exact absurd (by decide) hq

theorem writeOutcomes_reads (hwf : memWf s.mem = true) : memWf (writeOutcomes s j).mem = true ∧
    (∀ p : Port, memRead (writeOutcomes s j).mem (0x300 + j.offset + p.val) = outcomeByte s.pmon j p) ∧
    ∀ a, a < 0x300 + j.offset ∨ 0x300 + j.offset + 64 ≤ a → memRead (writeOutcomes s j).mem a = memRead s.mem a := by
  have hbyte (p : Port) : (allPorts.map (outcomeByte s.pmon j))[p.val]? = some (outcomeByte s.pmon j p) := by
    simp [allPorts]
  have hlen : (allPorts.map (outcomeByte s.pmon j)).length = 64 := by simp [allPorts]
  unfold writeOutcomes
  generalize allPorts.map (outcomeByte s.pmon j) = vs at hbyte hlen
  refine ⟨memWriteAll_wf _ _ _ hwf, fun p => ?_, fun a ha => memRead_writeAll_outside _ _ _ _ (by rw [hlen]; exact ha)⟩
  have hp : p.val < vs.length := by rw [hlen]; exact p.isLt
  exact (memRead_writeAll s.mem (0x300 + j.offset) p.val vs hwf hp).trans
    (Option.some.inj ((List.getElem?_eq_getElem hp).symm.trans (hbyte p)))

/-- R14, R163: what the end of a job leaves in memory. -/
theorem endJob_mem (hwf : memWf s.mem = true) (hoff : j.offset + 64 ≤ 4096) : memWf (endJob s j r).mem = true ∧
    (∀ i, i < 4 → memRead (endJob s j r).mem (slotBase j.slot + i) = 0) ∧
    slotShows (endJob s j r).mem j.slot r.slotState (r.given (jobCalibrated s.pmon j)) ∧
    (∀ p : Port, memRead (endJob s j r).mem (0x300 + j.offset + p.val) = outcomeByte s.pmon j p) ∧
    ∀ a, a < slotBase j.slot ∨ slotBase j.slot + 8 ≤ a → a < 0x300 + j.offset ∨ 0x300 + j.offset + 64 ≤ a →
      memRead (endJob s j r).mem a = memRead s.mem a := by
  obtain ⟨hwf', htable, houtside⟩ := writeOutcomes_reads (j := j) hwf
  obtain ⟨hwf'', hzero, hshows, hother⟩ := answer_mem (writeOutcomes s j) j.slot r (jobCalibrated s.pmon j) hwf'
  have hbelow : slotBase j.slot + 8 ≤ 0x300 := by
    unfold slotBase
    omega
  have hmem : (endJob s j r).mem = (outcomesAnswered s j r).mem := by rw [endJob_eq]
  rw [hmem]
  exact ⟨hwf'', hzero, hshows, fun p => (hother _ (.inr (by omega))).trans (htable p),
    fun a ha hout => (hother a ha).trans (houtside a hout)⟩

end

theorem jobIn_slot {s : State} {k : SlotIx} {j : Job} (h : jobIn s k = some j) : j.slot = k := by
  simpa using List.find?_some h

theorem outcomeByte_listed {pm : Pmon} {j : Job} {p : Port} {o : CalOutcome} (hp : p ∈ j.ports) (h : pm.outcomes[p] = some o) :
    outcomeByte pm j p = byte8 o.code := by
  unfold outcomeByte
  rw [if_pos (List.contains_iff_mem.2 hp), h]
  rfl

theorem outcomeByte_unlisted {pm : Pmon} {j : Job} {p : Port} (hp : p ∉ j.ports) : outcomeByte pm j p = 0 :=
  if_neg fun h => hp (List.contains_iff_mem.1 h)

/-- The answer's bytes as the host reads them. -/
theorem slotShows_given {m : List Host.Cell} {k : SlotIx} {r : Result} {d : Nat}
    (h : slotShows m k r.slotState (r.given d)) : memRead m (slotBase k + 4) = byte8 r.slotState.code ∧
    memRead m (slotBase k + 5) = byte8 r.code ∧ memRead m (slotBase k + 6) = byte8 (d / 256) ∧
    memRead m (slotBase k + 7) = byte8 d := by
  obtain ⟨hst, hres, hhi, hlo⟩ := h
  exact ⟨hst, hres, hhi.trans (hiByte_ofNat d), hlo.trans (loByte_ofNat d)⟩

/-- Settles O48: the end of a job, its outcome table and its slot's answer. -/
theorem aCalibrationJobEnds : Obligations.ACalibrationJobEnds := by
  unfold Obligations.ACalibrationJobEnds
  intro k s j hready hwf hjob hoff houtcomes n
  obtain rfl := jobIn_slot hjob
  have hfinished : jobFinished s.pmon j = true := by
    unfold jobFinished
    rw [List.all_eq_true]
    exact fun p hp => Option.isSome_iff_ne_none.2 (houtcomes p hp)
  have hexec : exec (.calbJobDone j.slot) s = .next (endJob s j .ok) := by
    change Host.Outcome.next (jobDone s j.slot) = _
    unfold jobDone
    rw [hjob]
    simp only
    rw [hready, hfinished]
    rfl
  obtain ⟨_, hzero, hshows, htable, hbytes⟩ := endJob_mem (r := .ok) hwf hoff
  obtain ⟨h4, h5, h6, h7⟩ := slotShows_given hshows
  obtain ⟨hports, hcards, hprofiles⟩ := endJob_pmon s j .ok
  have hrqu := endJob_rqu s j .ok
  refine ⟨_, hexec, fun p o ho => ?_, fun p hp => (htable p).trans (outcomeByte_unlisted hp), hzero, h4, h5, h6, h7,
    by rw [hrqu]; rfl, hbytes, ?_, fun i hi => ?_, by rw [hrqu], by rw [hrqu], by rw [hrqu], by rw [hrqu], ?_, hports, hcards,
    hprofiles, endJob_unchanged s j .ok⟩
  · rw [htable p]
    split
    · next hp => exact outcomeByte_listed hp ho
    · next hp => exact outcomeByte_unlisted hp
  · rw [hrqu]
    exact (getElem_set_fin _ _ _ _).trans (if_pos rfl)
  · rw [hrqu]
    exact (getElem_set_fin _ _ _ _).trans (if_neg hi)
  · rw [endJob_hpi, event_req]

/-! ### ABRT -/

/-- An answer stands over whatever state has the same slots, last answers and attention after the event. -/
theorem answered_over {s u t : State} {k : SlotIx} {r : Result} {d : Nat} {base : List Host.Cell}
    (h : Answered u t k r d base) (hslots : u.rqu.slots = s.rqu.slots) (hlast : u.rqu.last = s.rqu.last)
    (hattn : (u.hpi.attn.getLsbD 0 || u.hpi.mask.getLsbD 0) = (s.hpi.attn.getLsbD 0 || s.hpi.mask.getLsbD 0)) :
    Answered s t k r d base := by
  have hqueued : lowestQueued u = lowestQueued s := lowestQueued_congr fun i => by rw [hslots]
  exact {
    last := by rw [h.last, hlast]
    codes := h.codes
    shown := h.shown
    result := h.result
    detail := h.detail
    held := h.held
    next := h.next.trans hqueued
    others := fun j hj => by rw [h.others j hj, hqueued, hslots]
    attn := h.attn.trans hattn
    taken := fun j hj => by rw [← hlast]; exact h.taken j (hqueued.trans hj)
    bytes := fun a ha hj => h.bytes a ha fun j hu => hj j (hqueued.symm.trans hu) }

section
variable {s : State} {k m : SlotIx}

theorem askAbrt_above (h : 7 < (param8 s k 0).toNat) : askAbrt k s = refuse s .badArg 0 := if_pos h

/-- R164: the state whose slot ABRT has ended as ABORTED. -/
def abortedSlot (s : State) (m : SlotIx) (n : Nat) : State :=
  { s with rqu := { s.rqu with
      slots := s.rqu.slots.set m .refused
      last := s.rqu.last.set m { result := 8, detail := BitVec.ofNat 16 n } } }

variable (hm : m.val = (param8 s k 0).toNat)
include hm

theorem abrt_named : (Fin.ofNat 8 (param8 s k 0).toNat : SlotIx) = m :=
  Fin.ext (by rw [Fin.val_ofNat, ← hm]; exact Nat.mod_eq_of_lt m.isLt)

theorem askAbrt_queued (h : s.rqu.slots[m] = .queued) : askAbrt k s = done (answer s m .aborted 0) 0 := by
  unfold askAbrt
  simp only
  obtain rfl := abrt_named hm
  rw [if_neg (by omega), h]

theorem askAbrt_job {j : Job} (h : s.rqu.slots[m] = .busy) (hjob : jobIn s m = some j) : askAbrt k s =
    done (endJob (settled (putPmon s (endCals .aborted (unfinished s j) s.pmon, []))) j .aborted) 0 := by
  unfold askAbrt
  simp only
  obtain rfl := abrt_named hm
  rw [if_neg (by omega), h, hjob]

theorem askAbrt_other (hq : s.rqu.slots[m] ≠ .queued) (hb : s.rqu.slots[m] ≠ .busy ∨ jobIn s m = none) :
    askAbrt k s = refuse s .wrongState 0 := by
  unfold askAbrt
  simp only
  obtain rfl := abrt_named hm
  rw [if_neg (by omega)]
  split
  · next h => exact absurd h hq
  · next h hjob =>
    rcases hb with hb | hb
    · exact absurd h hb
    · rw [hb] at hjob
      cases hjob
  · rfl

end

section
variable {s : State} {k m : SlotIx}

/-- R164: an ABRT that has ended a slot is itself answered. -/
theorem abrt_answered {u : State} {n : Nat} (hs : serving s k .abrt = true) (hne : m ≠ k)
    (howner : askAbrt k s = done u 0) (hslots : u.rqu.slots = s.rqu.slots.set m .refused)
    (hlast : u.rqu.last = s.rqu.last.set m { result := 8, detail := BitVec.ofNat 16 n })
    (hhpi : u.hpi = s.hpi.event .req) (hwf : memWf u.mem = true) :
    ∃ t, exec (.abrt k) s = .next t ∧ Answered (abortedSlot s m n) t k .ok 0 u.mem ∧ sameRqu u t ∧
      unchangedBut [.attn, .rqu, .mem] u t := by
  obtain ⟨hexec, hbusy, _⟩ := serving_iff.1 hs
  have hkbusy : u.rqu.slots[k] = .busy := by
    rw [hslots]
    exact (getElem_set_fin _ _ _ _).trans ((if_neg (Ne.symm hne)).trans hbusy)
  have hserved := finish_served (owned_self hkbusy hwf) .ok 0
  have hrun : exec (.abrt k) s = .next (finish u k .ok 0) := by
    have h := exec_request k .abrt s
    rw [runRequest, if_pos hexec, show ownerOf k .abrt s = _ from howner] at h
    exact h
  refine ⟨_, hrun, answered_over hserved.answered hslots hlast ?_, hserved.rqu, hserved.unchanged⟩
  have hmask : u.hpi.mask = s.hpi.mask := by rw [hhpi]; rfl
  rw [hmask, hhpi, event_req, Bool.or_assoc, Bool.or_self]
  rfl

end

/-- R164: the ports of a job whose other calibrations ABRT has ended. -/
theorem aborted_outcome {s : State} {j : Job} (h : ∀ p ∈ j.ports, s.pmon.outcomes[p] = none → s.pmon.ports[p].cal ≠ none)
    {p : Port} (hp : p ∈ j.ports) : (endCals .aborted (unfinished s j) s.pmon).outcomes[p] =
      some (s.pmon.outcomes[p].getD .aborted) := by
  obtain ⟨_, hout⟩ := endCals_port .aborted (unfinished s j) s.pmon p
  rw [hout]
  cases ho : s.pmon.outcomes[p] with
  | none =>
    rw [if_pos ⟨List.mem_filter.2 ⟨hp, by rw [ho]; rfl⟩, h p hp ho⟩]
    rfl
  | some o =>
    rw [if_neg]
    · rfl
    · rintro ⟨hmem, _⟩
      have := (List.mem_filter.1 hmem).2
      rw [ho] at this
      cases this

/-- Settles O49: a queued slot, a running job, and the refusals. -/
theorem aRequestIsAborted : Obligations.ARequestIsAborted := by
  unfold Obligations.ARequestIsAborted
  intro k s hs number refused ended
  refine ⟨fun h => request_refused hs (askAbrt_above h), fun m hm => ⟨fun hq => ?_, fun j hbusy hne hjob hoff hcal => ?_,
    fun hq hb => request_refused hs (askAbrt_other hm hq hb)⟩⟩
  all_goals obtain ⟨_, hkbusy, hwf⟩ := serving_iff.1 hs
  · have hne : m ≠ k := by
      rintro rfl
      rw [hkbusy] at hq
      cases hq
    obtain ⟨hwf', hzero, hshows, hother⟩ := answer_mem s m .aborted 0 hwf
    obtain ⟨h4, h5, h6, h7⟩ := slotShows_given hshows
    obtain ⟨t, hexec, hanswered, hrqu, hframe⟩ := abrt_answered hs hne (askAbrt_queued hm hq) rfl rfl rfl hwf'
    obtain ⟨h1, h2, h3⟩ := answer_sameRqu s m .aborted 0
    obtain ⟨k1, k2, k3⟩ := hrqu
    exact ⟨t, _, ⟨hexec, hanswered, hwf', hzero, h4, h5, h6, h7⟩, hother, ⟨k1.trans h1, k2.trans h2, k3.trans h3⟩,
      unchangedBut_trans (answer_unchanged s m .aborted 0) hframe⟩
  · have howner := askAbrt_job hm hbusy hjob
    obtain rfl := jobIn_slot hjob
    have hcount : jobCalibrated (endCals .aborted (unfinished s j) s.pmon) j =
        (j.ports.filter fun p => decide (s.pmon.outcomes[p] = some .calibrated)).length := by
      unfold jobCalibrated
      congr 1
      refine List.filter_congr fun p hp => ?_
      simp only [aborted_outcome hcal hp]
      cases s.pmon.outcomes[p] with
      | none => rfl
      | some o => rfl
    have hports := fun p => (endCals_port .aborted (unfinished s j) s.pmon p).1
    obtain ⟨hcards, hprofiles⟩ := endCals_context .aborted (unfinished s j) s.pmon
    rw [settled_quiet (putPmon_msgs _ _)] at howner
    have hvmem : (putPmon s (endCals .aborted (unfinished s j) s.pmon, [])).1.mem = s.mem := putPmon_mem _ _
    have hvrqu : (putPmon s (endCals .aborted (unfinished s j) s.pmon, [])).1.rqu = s.rqu := putPmon_rqu _ _
    have hvhpi : (putPmon s (endCals .aborted (unfinished s j) s.pmon, [])).1.hpi = s.hpi := putPmon_hpi _ _
    have hvpmon : (putPmon s (endCals .aborted (unfinished s j) s.pmon, [])).1.pmon =
        endCals .aborted (unfinished s j) s.pmon := putPmon_pmon _ _
    have hvframe : unchangedBut [.pmon, .gens] s (putPmon s (endCals .aborted (unfinished s j) s.pmon, [])).1 := by
      intro q hq
      cases q <;> first | exact absurd (by decide) hq | simp [Part.same]
    generalize (putPmon s (endCals .aborted (unfinished s j) s.pmon, [])).1 = v at howner hvmem hvrqu hvhpi hvpmon hvframe
    obtain ⟨hwf', hzero, hshows, htable, hother⟩ := endJob_mem (s := v) (r := .aborted) (by rw [hvmem, hwf]) hoff
    obtain ⟨h4, h5, h6, h7⟩ := slotShows_given hshows
    have hrqu := endJob_rqu v j .aborted
    obtain ⟨hjports, hjcards, hjprofiles⟩ := endJob_pmon v j .aborted
    rw [hvpmon, hcount] at h6 h7
    rw [hvpmon, hcount, hvrqu] at hrqu
    rw [hvmem] at hother
    obtain ⟨t, hexec, hanswered, ⟨k1, k2, k3⟩, hframe⟩ := abrt_answered hs hne howner
      (by rw [hrqu]; rfl) (by rw [hrqu]; rfl) (by rw [endJob_hpi, hvhpi]) hwf'
    have htpmon : t.pmon = (endJob v j .aborted).pmon := hframe .pmon (by decide)
    refine ⟨t, _, ⟨hexec, hanswered, hwf', hzero, h4, h5, h6, h7⟩, fun p => ?_, hother, fun p => ?_, ?_, ?_, ?_, ?_, ?_, ?_⟩
    · rw [htable p]
      split
      · next hp =>
        rw [outcomeByte_listed hp (by rw [hvpmon]; exact aborted_outcome hcal hp)]
        cases s.pmon.outcomes[p] <;> rfl
      · next hp => exact outcomeByte_unlisted hp
    · rw [htpmon, hjports, hvpmon, hports p]
      simp only [unfinished, List.mem_filter, Option.isNone_iff_eq_none]
    · rw [k3, hrqu]
    · rw [k1, hrqu]
    · rw [k2, hrqu]
    · rw [htpmon, hjcards, hvpmon, hcards]
    · rw [htpmon, hjprofiles, hvpmon, hprofiles]
    · exact unchangedBut_trans (unchangedBut_mono hvframe (by decide)) (unchangedBut_trans
        (unchangedBut_mono (endJob_unchanged v j .aborted) (by decide)) (unchangedBut_mono hframe (by decide)))

end Sys2Proof.Proofs
end

