-- ==== Sys2Proof/Proofs/HostWrites.lean ====
section
/-! Bytes that make words, and the arrival of a request (R154 to R156, R160, R161). -/

namespace Sys2Proof.Proofs

open Sys2Proof.Machine Sys2Proof.Safety Sys2Proof.Laws

/-! ### Words and their bytes (R154) -/

theorem evenOf_toNat (a : Addr) : (evenOf a).toNat = 2 * (a.toNat / 2) := by
  have hshift : evenOf a = (a >>> 1) <<< 1 := by
    apply BitVec.eq_of_getLsbD_eq
    intro i hi
    simp only [evenOf, BitVec.getLsbD_and, BitVec.getLsbD_shiftLeft, BitVec.getLsbD_ushiftRight]
    interval_cases i <;> simp
  rw [hshift, BitVec.toNat_shiftLeft, BitVec.toNat_ushiftRight, Nat.shiftLeft_eq, Nat.shiftRight_eq_div_pow]
  have := a.isLt
  omega

theorem isLow_iff (a : Addr) : isLow a = true ↔ a ≠ evenOf a := by
  have hlow : isLow a = decide (a.toNat % 2 = 1) := by
    rw [isLow, BitVec.getLsbD, Nat.testBit_zero]
  rw [hlow, decide_eq_true_eq, ne_eq, ← BitVec.toNat_inj, evenOf_toNat]
  omega

theorem wordOf_toNat (hi lo : Byte) : (wordOf hi lo).toNat = nat16 hi lo := by
  have := lo.isLt
  rw [wordOf, BitVec.toNat_append, ← Nat.shiftLeft_add_eq_or_of_lt lo.isLt, Nat.shiftLeft_eq]
  rfl

theorem hiByte_wordOf (hi lo : Byte) : hiByte (wordOf hi lo) = hi := by
  apply BitVec.eq_of_toNat_eq
  have := hi.isLt
  have := lo.isLt
  rw [hiByte, BitVec.extractLsb'_toNat, wordOf_toNat, nat16, Nat.shiftRight_eq_div_pow]
  omega

theorem loByte_wordOf (hi lo : Byte) : loByte (wordOf hi lo) = lo := by
  apply BitVec.eq_of_toNat_eq
  have := lo.isLt
  rw [loByte, BitVec.extractLsb'_toNat, wordOf_toNat, nat16, Nat.shiftRight_zero]
  omega

theorem wordOf_eq_zero {hi lo : Byte} : wordOf hi lo = 0 ↔ hi = 0 ∧ lo = 0 := by
  constructor
  · intro h
    have hhi := hiByte_wordOf hi lo
    have hlo := loByte_wordOf hi lo
    rw [h] at hhi hlo
    exact ⟨hhi.symm, hlo.symm⟩
  · rintro ⟨rfl, rfl⟩
    rfl

/-- R155: the word a byte makes with the held one, even address's byte first. -/
theorem joinBytes_eq (a : Addr) (b v : Byte) :
    joinBytes a b v = wordOf (if a = evenOf a then b else v) (if a = evenOf a then v else b) := by
  unfold joinBytes
  by_cases h : a = evenOf a
  · rw [if_pos h, if_pos h, if_neg fun hl => (isLow_iff a).1 hl h]
  · rw [if_neg h, if_neg h, if_pos ((isLow_iff a).2 h)]

/-- R154: a word put in memory. -/
theorem putWord_reads {m : List Host.Cell} (base : Nat) (hi lo : Byte) (hwf : memWf m = true) :
    memRead (memPutWord m base (wordOf hi lo)) base = hi ∧ memRead (memPutWord m base (wordOf hi lo)) (base + 1) = lo ∧
    ∀ c, c ≠ base → c ≠ base + 1 → memRead (memPutWord m base (wordOf hi lo)) c = memRead m c := by
  simp only [memPutWord, hiByte_wordOf, loByte_wordOf]
  refine ⟨?_, memRead_write_same _ _ _ (memWrite_wf _ _ _ hwf), fun c h h1 => ?_⟩
  · rw [memRead_write_other _ _ _ _ (by omega), memRead_write_same _ _ _ hwf]
  · rw [memRead_write_other _ _ _ _ h1, memRead_write_other _ _ _ _ h]

/-! ### A host byte written (R155) -/

/-- The state with the held byte set. -/
def holding (s : State) (x : Option (Addr × Byte)) : State := { s with hpi := { s.hpi with held := x } }

/-- The state with its serial run at another place. -/
def running (s : State) (run : Option SerialRun) : State := { s with hpi := { s.hpi with run := run } }

theorem pastByte_eq (s : State) (write : Bool) (x : HostAddr) (a : Addr) :
    ∃ run, pastByte s write x a = running s run := by
  cases x with
  | strobe _ => exact ⟨s.hpi.run, rfl⟩
  | start _ => exact ⟨_, rfl⟩
  | next => exact ⟨_, rfl⟩

theorem hostByteWrite_completes {s : State} {a h : Addr} {b v : Byte} (hheld : s.hpi.held = some (h, v)) (hne : h ≠ a)
    (hword : evenOf h = evenOf a) :
    hostByteWrite s a b = hostWord (holding s none) (evenOf a).toNat (joinBytes a b v) := by
  unfold hostByteWrite
  rw [hheld]
  exact if_pos ⟨hne, hword⟩

theorem hostByteWrite_holds {s : State} {a : Addr} {b : Byte}
    (h : ∀ h v, s.hpi.held = some (h, v) → h = a ∨ evenOf h ≠ evenOf a) : hostByteWrite s a b = holding s (some (a, b)) := by
  unfold hostByteWrite
  cases hheld : s.hpi.held with
  | none => rfl
  | some x =>
    obtain ⟨h', v⟩ := x
    refine if_neg ?_
    rintro ⟨hne, hword⟩
    exact (h h' v hheld).elim hne fun hno => hno hword

theorem exec_hostByteWrite {s : State} {x : HostAddr} {a : Addr} (b : Byte) (h : handedAddr s true x = some a) :
    exec (.hostByteWrite x b) s = whenever (pastByte s true x a).start.ready (pastByte s true x a)
      (hostByteWrite (pastByte s true x a) a b) := by
  change execHostByteWrite x b s = _
  rw [execHostByteWrite, byteAccess_eq, h]
  simp only [advanceRun_eq]

/-! ### What a completed word does (R156) -/

section
variable (s : State) {a : Nat} (w : Word)

theorem hostWord_staging (h : 0x300 ≤ a) (h' : a < 0x1300) : hostWord s a w = { s with mem := memPutWord s.mem a w } := by
  have hr : regionOf a = .staging := by
    unfold regionOf
    rw [if_neg (by omega), if_neg (by omega), if_pos (by omega)]
  simp only [hostWord, hr]

theorem hostWord_foreign (h : a < 0x100 ∨ (0x1300 ≤ a ∧ a < 0x3A00)) : hostWord s a w = foreign s := by
  unfold hostWord regionOf
  rcases h with h | ⟨h, h'⟩
  · rw [if_pos h]
  · rw [if_neg (by omega), if_neg (by omega), if_neg (by omega)]
    by_cases h1 : a < 0x1B00
    · rw [if_pos h1]
    by_cases h2 : a < 0x1D00
    · rw [if_neg h1, if_pos h2]
    by_cases h3 : a < 0x1E00
    · rw [if_neg h1, if_neg h2, if_pos h3]
    by_cases h4 : a < 0x2200
    · rw [if_neg h1, if_neg h2, if_neg h3, if_pos h4]
    by_cases h5 : a < 0x2A00
    · rw [if_neg h1, if_neg h2, if_neg h3, if_neg h4, if_pos h5]
    · rw [if_neg h1, if_neg h2, if_neg h3, if_neg h4, if_neg h5, if_pos h']

theorem hostWord_unassigned (h : 0x3A02 ≤ a) (h' : a < 0x7FF0) : hostWord s a w = s := by
  have hr : regionOf a = .unassigned := by
    unfold regionOf
    iterate 10 rw [if_neg (by omega)]
    rw [if_pos h']
  simp only [hostWord, hr]

/-- R151: the state with the release word written. -/
def releasing : State := { s with mem := memPutWord s.mem 0x3A00 w }

theorem hostWord_release : hostWord s 0x3A00 w =
    settled (putJrn (releasing s w) (jrnRelease (releasing s w) w.toNat)) := by
  have hr : regionOf 0x3A00 = .release := by decide
  simp only [hostWord, hr, releasing]

theorem hostWord_register (h : 0x7FF0 ≤ a) : hostWord s a w = registerWrite s (a - 0x7FF0) w := by
  simp only [hostWord, regionOf_register h]

theorem hostWord_slot {k : SlotIx} (h : slotBase k ≤ a) (h' : a < slotBase k + 64) : hostWord s a w = slotWrite s k a w := by
  have hk := k.isLt
  unfold slotBase at h h'
  have hr : regionOf a = .slot k := by
    unfold regionOf
    rw [if_neg (by omega), if_pos (by omega)]
    exact congrArg _ (Fin.ext (by rw [Fin.val_ofNat]; omega))
  simp only [hostWord, hr]

variable {k : SlotIx}

theorem slotWrite_foreign (h : s.rqu.slots[k] = .queued ∨ s.rqu.slots[k] = .busy) : slotWrite s k a w = foreign s := by
  unfold slotWrite
  rcases h with h | h <;> rw [h] <;> rfl

theorem hostOwned_of {st : SlotState} (hq : st ≠ .queued) (hb : st ≠ .busy) : st.hostOwned = true := by
  cases st with
  | queued => exact absurd rfl hq
  | busy => exact absurd rfl hb
  | _ => rfl

variable (hq : s.rqu.slots[k] ≠ .queued) (hb : s.rqu.slots[k] ≠ .busy)
include hq hb

theorem slotWrite_quiet (h : arrives (memPutWord s.mem a w) k a = false) :
    slotWrite s k a w = { s with mem := memPutWord s.mem a w } := by
  unfold slotWrite
  rw [if_pos (hostOwned_of hq hb)]
  simp only
  rw [if_neg (Bool.eq_false_iff.1 h)]

theorem slotWrite_arrives (h : arrives (memPutWord s.mem a w) k a = true) :
    slotWrite s k a w = arrive { s with mem := memPutWord s.mem a w } k := by
  unfold slotWrite
  rw [if_pos (hostOwned_of hq hb)]
  simp only
  rw [if_pos h]

end

/-- R160: when the second code word completes a request. -/
theorem arrives_iff {m : List Host.Cell} {k : SlotIx} {base : Nat} {hi lo : Byte} (hwf : memWf m = true) :
    arrives (memPutWord m base (wordOf hi lo)) k base = true ↔
      base = slotBase k + 2 ∧ (hi ≠ 0 ∨ lo ≠ 0 ∨ memWord m (slotBase k) ≠ 0) := by
  obtain ⟨hhi, hlo, hother⟩ := putWord_reads base hi lo hwf
  simp only [arrives, Bool.and_eq_true, Bool.or_eq_true, beq_iff_eq, bne_iff_ne]
  refine and_congr_right fun hbase => ?_
  have hfirst : memWord (memPutWord m base (wordOf hi lo)) (slotBase k) = memWord m (slotBase k) := by
    simp only [memWord, hother (slotBase k) (by omega) (by omega), hother (slotBase k + 1) (by omega) (by omega)]
  have hsecond : memWord (memPutWord m base (wordOf hi lo)) (slotBase k + 2) = wordOf hi lo := by
    rw [← hbase]
    simp only [memWord, hhi, hlo]
  rw [hfirst, hsecond, ne_eq (wordOf hi lo), wordOf_eq_zero]
  tauto

/-! ### The statements -/

theorem written_unchanged (s : State) (run : Option SerialRun) (m : List Host.Cell) :
    unchangedBut [.port, .mem] s { holding (running s run) none with mem := m } := by
  intro q hq
  cases q <;> first | rfl | exact absurd (by decide) hq

/-- An event of JRN: the journal as it leaves it, and what else moves. -/
theorem settledJrn_said (t : State) {r : Jrn × List Msg} (h : Below 1 r.2) : (settled (putJrn t r)).jrn = r.1 ∧
    unchangedBut [.jrn, .attn, .choices] t (settled (putJrn t r)) := by
  refine ⟨settledJrn_jrn t r h, unchangedBut_trans (t := (putJrn t r).1) (fun q hq => ?_)
    (unchangedBut_mono (settle_unchanged 1 10 _ _ h) (by decide))⟩
  cases q <;> first | exact absurd (by decide) hq | simp [Part.same]

/-- Settles O38: the byte held, or the word it completes, by the region of its address. -/
theorem bytesMakeWords : Obligations.BytesMakeWords := by
  unfold Obligations.BytesMakeWords
  intro x b s
  refine ⟨fun hnone => ?_, fun a ha => ?_⟩
  · obtain ⟨hunheard, _⟩ := hostByte_unheard s x b
    exact hunheard (by rw [byteAccess_eq, hnone])
  intro u word base
  have hexec := exec_hostByteWrite b ha
  obtain ⟨run, hu⟩ : ∃ run, u = running s run := pastByte_eq s true x a
  change exec (.hostByteWrite x b) s = whenever u.start.ready u (hostByteWrite u a b) at hexec
  clear_value u
  subst hu
  refine ⟨fun hinit => hexec.trans (whenever_false hinit _ _), fun hready hother => ?_,
    fun h v hready hheld hne hword hwf => ?_⟩
  · refine ⟨_, hexec.trans (whenever_true hready _ _), ?_⟩
    rw [hostByteWrite_holds (s := running s run) hother]
    exact ⟨rfl, port_unchanged s rfl⟩
  intro hi lo kept counted put
  have hjoin : joinBytes a b v = wordOf hi lo := joinBytes_eq a b v
  have hexec := hexec.trans (whenever_true hready _ _)
  rw [hostByteWrite_completes (s := running s run) hheld hne hword, hjoin] at hexec
  have hregister : ∀ off, base = 0x7FF0 + off → hostWord (holding (running s run) none) base
      (wordOf hi lo) = registerWrite (holding (running s run) none) off (wordOf hi lo) :=
    fun off hoff => (hostWord_register _ _ (by omega)).trans (by rw [hoff, Nat.add_sub_cancel_left])
  have heven : base % 2 = 0 := by
    have := evenOf_toNat a
    change (evenOf a).toNat % 2 = 0
    omega
  have hput := putWord_reads base hi lo hwf
  refine ⟨_, hexec, fun h1 h2 => ?_, fun hforeign => ?_, fun hnothing => ?_, fun hrelease => ?_, fun hreg => ?_, fun hreg => ?_,
    fun hreg hone => ?_, fun hreg hnot => ?_, fun k h1 h2 => ⟨fun hheld => ?_, fun hq hb hquiet => ?_⟩⟩
  · change put _ ∧ kept (hostWord _ base _) ∧ _
    rw [hostWord_staging _ _ h1 h2]
    exact ⟨hput, rfl, written_unchanged s run _⟩
  · have ht : hostWord (holding (running s run) none) base (wordOf hi lo) =
        foreign (holding (running s run) none) := by
      by_cases hlow : base < 0x7FF0
      · exact hostWord_foreign _ _ (by omega)
      · obtain hoff | hoff | hoff : base = 0x7FF0 + 0 ∨ base = 0x7FF0 + 2 ∨ base = 0x7FF0 + 4 := by omega
        all_goals rw [hregister _ hoff]; rfl
    change counted (hostWord _ base _) ∧ unchangedBut [.port] s (hostWord _ base _)
    rw [ht]
    exact ⟨rfl, port_unchanged s rfl⟩
  · have ht : hostWord (holding (running s run) none) base (wordOf hi lo) =
        holding (running s run) none := by
      rcases hnothing with ⟨h1, h2⟩ | h1
      · exact hostWord_unassigned _ _ h1 h2
      · obtain ⟨off, hoff⟩ : ∃ off, base = 0x7FF0 + off := ⟨base - 0x7FF0, by omega⟩
        rw [hregister off hoff, registerWrite, if_neg (by omega), if_neg (by omega), if_neg (by omega), if_neg (by omega)]
    change kept (hostWord _ base _) ∧ unchangedBut [.port] s (hostWord _ base _)
    rw [ht]
    exact ⟨rfl, port_unchanged s rfl⟩
  · have hw := wordOf_toNat hi lo
    change put (hostWord _ base _) ∧ kept (hostWord _ base _) ∧ (hostWord _ base _).jrn = _ ∧ unchangedBut _ s (hostWord _ base _)
    simp only [put]
    rw [hrelease] at hput ⊢
    rw [hostWord_release, hw]
    obtain ⟨hjrn, hframe⟩ := settledJrn_said (releasing (holding (running s run) none)
      (wordOf hi lo)) (jrnRelease_below (releasing (holding (running s run) none) (wordOf hi lo)) (nat16 hi lo))
    have hmem := hframe .mem (by decide)
    have hport := hframe .port (by decide)
    refine ⟨hmem ▸ hput, hport, hjrn, ?_⟩
    exact unchangedBut_trans (unchangedBut_mono (written_unchanged s run _) (by decide)) (unchangedBut_mono hframe (by decide))
  · change _ = Host.Outcome.next (hostWord _ base _)
    rw [hreg]
    exact whenever_true hready _ _
  · change _ = Host.Outcome.next (hostWord _ base _)
    rw [hreg]
    exact whenever_true hready _ _
  · change _ = Host.Outcome.next (hostWord _ base _)
    rw [hreg, hone]
    exact whenever_true hready _ _
  · have ht : hostWord (holding (running s run) none) base (wordOf hi lo) =
        holding (running s run) none := by
      rw [hregister 10 hreg, registerWrite, if_neg (by omega), if_neg (by omega), if_neg (by omega), if_pos rfl, if_neg hnot]
    change kept (hostWord _ base _) ∧ unchangedBut [.port] s (hostWord _ base _)
    rw [ht]
    exact ⟨rfl, port_unchanged s rfl⟩
  · change counted (hostWord _ base _) ∧ unchangedBut [.port] s (hostWord _ base _)
    rw [hostWord_slot _ _ h1 h2, slotWrite_foreign (holding (running s run) none) _ hheld]
    exact ⟨rfl, port_unchanged s rfl⟩
  · have hno : arrives (memPutWord s.mem base (wordOf hi lo)) k base = false := by
      refine Bool.eq_false_iff.2 fun h => ?_
      obtain ⟨hbase, hnonzero⟩ := (arrives_iff hwf).1 h
      rcases hquiet with h | ⟨h1, h2, h3⟩
      · exact h hbase
      · exact hnonzero.elim (· h1) (Or.elim · (· h2) (· h3))
    change put (hostWord _ base _) ∧ kept (hostWord _ base _) ∧ unchangedBut _ s (hostWord _ base _)
    rw [hostWord_slot _ _ h1 h2, slotWrite_quiet (holding (running s run) none) _ hq hb hno]
    exact ⟨hput, rfl, written_unchanged s run _⟩

/-! ### The arrival of a request (R160, R161) -/

section
variable {s : State} {k : SlotIx}

/-- A slot that is QUEUED alone. -/
theorem lowestQueued_arrived (h : ∀ j : SlotIx, s.rqu.slots[j] ≠ .queued) :
    lowestQueued (showSlot s k .queued) = some k := by
  have hslot (j : SlotIx) : (showSlot s k .queued).rqu.slots[j] = if j = k then .queued else s.rqu.slots[j] :=
    getElem_set_fin _ _ _ _
  unfold lowestQueued
  refine find?_finRange_eq_some.2 ⟨?_, fun j hj => ?_⟩
  · rw [hslot, if_pos rfl]
    rfl
  · rw [hslot, if_neg hj.ne]
    exact decide_eq_false (h j)

theorem arrive_busy (h : s.rqu.exec.isSome = true) : arrive s k = showSlot s k .queued := takeNext_busy _ h

theorem arrive_idle (h : s.rqu.exec = none) (hq : ∀ j : SlotIx, s.rqu.slots[j] ≠ .queued) : arrive s k =
    { showSlot (showSlot s k .queued) k .busy with
      rqu := { (showSlot (showSlot s k .queued) k .busy).rqu with exec := some k } } :=
  takeNext_idle (showSlot s k .queued) k h (lowestQueued_arrived hq)

/-- R161: the state of a slot whose request has arrived. -/
def arrivedState (s : State) : SlotState := if s.rqu.exec.isNone then .busy else .queued

variable (hq : s.rqu.exec = none → ∀ j : SlotIx, s.rqu.slots[j] ≠ .queued)
include hq

theorem arrive_rqu : (arrive s k).rqu = { s.rqu with
    slots := s.rqu.slots.set k (arrivedState s)
    exec := if s.rqu.exec.isNone then some k else s.rqu.exec } := by
  cases hexec : s.rqu.exec with
  | none =>
    rw [arrive_idle hexec (hq hexec)]
    simp only [showSlot, arrivedState, hexec, Vector.set_set, Option.isNone_none, if_true]
  | some j =>
    rw [arrive_busy (by rw [hexec]; rfl)]
    simp only [showSlot, arrivedState, hexec, Option.isNone_some, Bool.false_eq_true, if_false]

theorem arrive_unchanged : unchangedBut [.rqu, .mem] s (arrive s k) := by
  intro q hno
  cases hexec : s.rqu.exec with
  | none =>
    rw [arrive_idle hexec (hq hexec)]
    cases q <;> first | rfl | exact absurd (by decide) hno
  | some j =>
    rw [arrive_busy (by rw [hexec]; rfl)]
    cases q <;> first | rfl | exact absurd (by decide) hno

theorem arrive_mem (hwf : memWf s.mem = true) : slotShows (arrive s k).mem k (arrivedState s) s.rqu.last[k] ∧
    ∀ c, c < slotBase k + 4 ∨ slotBase k + 8 ≤ c → memRead (arrive s k).mem c = memRead s.mem c := by
  obtain ⟨hshows, hwf', hother⟩ := showSlot_shows s k .queued hwf
  cases hexec : s.rqu.exec with
  | none =>
    obtain ⟨hshows', _, hother'⟩ := showSlot_shows (showSlot s k .queued) k .busy hwf'
    rw [arrive_idle hexec (hq hexec), arrivedState, hexec]
    exact ⟨hshows', fun c hc => (hother' c hc).trans (hother c hc)⟩
  | some j =>
    rw [arrive_busy (by rw [hexec]; rfl), arrivedState, hexec]
    exact ⟨hshows, hother⟩

end

/-- Settles O39: the completed word is put and the slot's request arrives. -/
theorem aSecondCodeWordArrives : Obligations.ASecondCodeWordArrives := by
  unfold Obligations.ASecondCodeWordArrives
  intro k x h b v s a ha hready hheld hne hword hbase hfree hidle hcode hwf hqueued idle
  obtain ⟨run, hu⟩ := pastByte_eq s true x a
  have hexec := exec_hostByteWrite b ha
  rw [hu] at hexec ⊢
  have hexec := hexec.trans (whenever_true hready _ _)
  rw [hostByteWrite_completes (s := running s run) hheld hne hword, joinBytes_eq] at hexec
  obtain ⟨hhi, hlo, hother⟩ := putWord_reads (evenOf a).toNat (if a = evenOf a then b else v) (if a = evenOf a then v else b) hwf
  have harrives : arrives (memPutWord s.mem (evenOf a).toNat (wordOf (if a = evenOf a then b else v)
      (if a = evenOf a then v else b))) k (evenOf a).toNat = true := by
    refine (arrives_iff hwf).2 ⟨hbase, ?_⟩
    split
    · exact hcode
    · exact hcode.elim (fun hb => .inr (.inl hb)) (Or.elim · .inl fun hm => .inr (.inr hm))
  have hbelow : (evenOf a).toNat < slotBase k + 64 := by omega
  rw [hostWord_slot _ _ (k := k) (by omega) hbelow, slotWrite_arrives (holding (running s run) none) _ hfree hidle harrives] at hexec
  generalize hm : memPutWord (holding (running s run) none).mem (evenOf a).toNat _ = m at hexec
  have hm : memPutWord s.mem (evenOf a).toNat (wordOf (if a = evenOf a then b else v) (if a = evenOf a then v else b)) = m := hm
  have hmwf : memWf m = true := hm ▸ memPutWord_wf _ _ _ hwf
  rw [hm] at hhi hlo hother
  have hrqu : (arrive { holding (running s run) none with mem := m } k).rqu = { s.rqu with
      slots := s.rqu.slots.set k (arrivedState s)
      exec := if s.rqu.exec.isNone then some k else s.rqu.exec } := arrive_rqu hqueued
  obtain ⟨hshows, hbytes⟩ := arrive_mem (s := { holding (running s run) none with mem := m }) (k := k) hqueued hmwf
  have hframe := arrive_unchanged (s := { holding (running s run) none with mem := m }) (k := k) hqueued
  have hhpi : (arrive { holding (running s run) none with mem := m } k).hpi = (holding (running s run) none).hpi := by
    have hattn := hframe .attn (by decide)
    have hport := hframe .port (by decide)
    simp only [Part.same] at hattn hport
    rw [← hattn] at hport
    exact hport
  refine ⟨_, hexec, ?_, by rw [hrqu], hshows, by rw [hrqu], ?_, ?_, fun j hj => ?_, ?_, fun c hc => ?_, hhpi,
    unchangedBut_trans (unchangedBut_mono (written_unchanged s run m) (by decide)) (unchangedBut_mono hframe (by decide))⟩
  · rw [hrqu]
    exact (getElem_set_fin _ _ _ _).trans (if_pos rfl)
  · rw [hbytes _ (by omega), ← hbase]
    exact hhi
  · rw [hbytes _ (by omega), show slotBase k + 3 = (evenOf a).toNat + 1 by omega]
    exact hlo
  · rw [hrqu]
    exact (getElem_set_fin _ _ _ _).trans (if_neg hj)
  · rw [sameRqu, hrqu]
    exact ⟨rfl, rfl, rfl⟩
  · rw [hbytes _ (by omega)]
    exact hother c (by omega) (by omega)

end Sys2Proof.Proofs
end

