-- ==== Sys2Proof/Proofs/Resets.lean ====
section
/-! The resets and the entry into READY (R124, R170, R171). -/

namespace Sys2Proof.Proofs

open Sys2Proof.Machine Sys2Proof.Safety Sys2Proof.Laws

/-! ### A cold reset (R170) -/

theorem change_straps {s t : State} (h : Change s t) : t.straps = s.straps := by
  cases h with
  | leaves h => exact h.straps
  | cbc h => exact putCbc_straps _ _
  | prc h => exact putPrc_straps _ _
  | tsel old h => exact putTselFrom_straps _ _ _
  | alm h => exact putAlm_straps _ _
  | jrn h => exact putJrn_straps _ _
  | warm => rfl
  | readyTimers => rfl
  | readyTiming => rfl

theorem changes_straps {s t : State} (h : Changes s t) : t.straps = s.straps := by
  induction h with
  | refl => rfl
  | tail _ hc ih => exact (change_straps hc).trans ih

/-- R170: a cold reset and the reset state differ in the straps, the pins, the choices and the commands that wait. -/
theorem cold_unchanged (straps : Straps) (pins : Vector Bool 8) (choices : Nat) (pending : List Instr) :
    unchangedBut [.straps, .ciu, .rqu, .choices, .pending] State.reset (State.cold straps pins choices pending) := by
  intro q hq
  cases q <;> first | rfl | exact absurd (by decide) hq

theorem coldPort_said (p : Port) : Pmon.reset.ports[p] = .reset ∧ Tcd.reset.decs[p] = .reset ∧ Cbc.reset.ports[p] = .reset := by
  simp only [Pmon.reset, Tcd.reset, Cbc.reset, Fin.getElem_fin, Vector.getElem_replicate, and_self]

/-- Settles O50: the sampled straps, and the reset values block by block. -/
theorem aColdReset : Obligations.AColdReset := by
  unfold Obligations.AColdReset
  refine ⟨fun c s t hcold hexec => ?_, fun a b d s => ⟨_, rfl, rfl, cold_unchanged _ _ _ _, fun i => ?_, rfl, rfl, rfl, rfl, rfl,
    fun p => ?_, fun x => ?_, fun i => ?_, fun gi => ?_, fun r => ?_, rfl, rfl, rfl, fun i => ?_, rfl, rfl, rfl, fun i => ?_,
    fun i => ?_, rfl, rfl, rfl, rfl, rfl, rfl, fun _ => rfl⟩⟩
  · obtain ⟨u, hu, hchanges⟩ := exec_changes c s hcold
    rw [hexec] at hu
    cases hu
    exact changes_straps hchanges
  · simp only [State.cold, Fin.getElem_fin, Vector.getElem_ofFn]
  · obtain ⟨hpmon, htcd, hcbc⟩ := coldPort_said p
    simp only [State.cold, hpmon, htcd, hcbc]
    exact ⟨rfl, rfl, rfl, rfl, rfl, rfl, rfl, rfl, by simp only [Prc.reset, Fin.getElem_fin, Vector.getElem_replicate]⟩
  all_goals simp only [State.cold, Pmon.reset, Cbc.reset, Prc.reset, Tsel.reset, Alm.reset, Jrn.reset, Rqu.reset, CardRec.reset,
    RefRec.reset, JRecord.empty, Fin.getElem_fin, Vector.getElem_replicate, and_self]

/-! ### A warm restart (R171) -/

/-- R171: the slots that a warm restart leaves as they are. -/
theorem hostOwned_iff (st : SlotState) : st.hostOwned = false ↔ st = .queued ∨ st = .busy := by
  cases st <;> simp [SlotState.hostOwned]

theorem mem_abortedSlots (s : State) (k : SlotIx) : k ∈ abortedSlots s ↔ s.rqu.slots[k] = .queued ∨ s.rqu.slots[k] = .busy := by
  unfold abortedSlots
  rw [List.mem_filter, ← hostOwned_iff, Bool.not_eq_true']
  exact and_iff_right (List.mem_finRange k)

/-- The bytes of a slot that a warm restart has aborted. -/
def AbortShown (m : List Host.Cell) (k : SlotIx) : Prop :=
  (∀ i, i < 4 → memRead m (slotBase k + i) = 0) ∧ slotShows m k .refused (Result.aborted.given 0)

theorem abortShown_congr {m n : List Host.Cell} {k : SlotIx}
    (h : ∀ a, slotBase k ≤ a → a < slotBase k + 8 → memRead n a = memRead m a) (hm : AbortShown m k) : AbortShown n k := by
  obtain ⟨hzero, h4, h5, h6, h7⟩ := hm
  exact ⟨fun i hi => (h _ (by omega) (by omega)).trans (hzero i hi), (h _ (by omega) (by omega)).trans h4,
    (h _ (by omega) (by omega)).trans h5, (h _ (by omega) (by omega)).trans h6, (h _ (by omega) (by omega)).trans h7⟩

theorem abortSlot_reads {m : List Host.Cell} (k : SlotIx) (hwf : memWf m = true) : memWf (abortSlot m k) = true ∧
    AbortShown (abortSlot m k) k ∧
    ∀ a, a < slotBase k ∨ slotBase k + 8 ≤ a → memRead (abortSlot m k) a = memRead m a := by
  obtain ⟨hwf', hzero, hrest⟩ := zeroCode_reads k hwf
  have houtside : ∀ a, a < slotBase k + 4 ∨ slotBase k + 8 ≤ a → memRead (abortSlot m k) a = memRead (zeroCode m k) a :=
    fun a ha => memRead_writeAll_outside _ _ _ _ (by rw [slotWords_length]; omega)
  have hinside (n : Nat) (hn : n < 4) : memRead (abortSlot m k) (slotBase k + 4 + n) =
      (slotWords .refused (Result.aborted.given 0))[n]'(by rw [slotWords_length]; exact hn) :=
    memRead_writeAll (zeroCode m k) (slotBase k + 4) n (slotWords .refused (Result.aborted.given 0)) hwf' _
  refine ⟨memWriteAll_wf _ _ _ hwf', ⟨fun i hi => (houtside _ (by omega)).trans (hzero i hi), hinside 0 (by decide),
    hinside 1 (by decide), hinside 2 (by decide), hinside 3 (by decide)⟩, fun a ha => ?_⟩
  exact (houtside a (by omega)).trans (hrest a (by omega))

theorem abortSlots_reads (ks : List SlotIx) {m : List Host.Cell} (hwf : memWf m = true) :
    (∀ k ∈ ks, AbortShown (ks.foldl abortSlot m) k) ∧
    ∀ a, (∀ k ∈ ks, a < slotBase k ∨ slotBase k + 8 ≤ a) → memRead (ks.foldl abortSlot m) a = memRead m a := by
  induction ks generalizing m with
  | nil => exact ⟨nofun, fun _ _ => rfl⟩
  | cons j ks ih =>
    obtain ⟨hwf', hshown, hrest⟩ := abortSlot_reads j hwf
    obtain ⟨hks, hother⟩ := ih hwf'
    refine ⟨fun k hk => ?_, fun a ha => ?_⟩
    · by_cases hin : k ∈ ks
      · exact hks k hin
      · obtain rfl := (List.mem_cons.1 hk).resolve_right hin
        refine abortShown_congr (fun a hlow hhigh => hother a fun i hi => ?_) hshown
        have := slotBase_apart (j := i) (k := k) (by rintro rfl; exact hin hi)
        omega
    · exact (hother a fun i hi => ha i (List.mem_cons_of_mem _ hi)).trans (hrest a (ha j List.mem_cons_self))

/-- R124: TSEL's reset state with the parts that a warm restart sets. -/
def warmed (steering : Int) (state : TimingState) (value : Option Int) (age : Nat) (aged : Bool) : Tsel :=
  { Tsel.reset with steering := steering, state := state, holdValue := value, age := age, aged := aged }

/-- R124: what a warm restart leaves of TSEL, by the timing state before it. -/
theorem warm_eq (t : Tsel) (shelf : ShelfRec) : ∃ state value age aged,
    t.warm shelf = { warmed t.steering state value age aged with
      outClass := (warmed t.steering state value age aged).quality shelf } ∧
    (t.state = .freeRun → state = .freeRun ∧ value = none) ∧
    (t.state ≠ .freeRun → state = .holdover ∧ value = some t.steering) ∧
    (t.state = .holdover → age = t.age ∧ aged = t.aged) ∧
    (t.state ≠ .holdover → age = 0 ∧ aged = false) := by
  unfold Tsel.warm
  cases t.state with
  | freeRun => exact ⟨.freeRun, none, 0, false, rfl, fun _ => ⟨rfl, rfl⟩, fun h => absurd rfl h, nofun, fun _ => ⟨rfl, rfl⟩⟩
  | acquiring => exact ⟨.holdover, _, 0, false, rfl, nofun, fun _ => ⟨rfl, rfl⟩, nofun, fun _ => ⟨rfl, rfl⟩⟩
  | locked => exact ⟨.holdover, _, 0, false, rfl, nofun, fun _ => ⟨rfl, rfl⟩, nofun, fun _ => ⟨rfl, rfl⟩⟩
  | holdover => exact ⟨.holdover, _, _, _, rfl, nofun, fun _ => ⟨rfl, rfl⟩, fun _ => ⟨rfl, rfl⟩, fun h => absurd rfl h⟩

theorem exec_warmRestart {s : State} (h : s.start.ready = true) :
    exec .warmRestart s = .next (warmRestart (holding s none)) := by
  refine (whenever_true h s _).trans (congrArg _ ?_)
  exact hostWord_register (holding s none) 1 (a := 0x7FFA) (by decide)

theorem warmRestart_unchanged (s : State) : unchangedBut [.start, .mbp, .pmon, .tcd, .cbc, .prc, .tsel, .alm, .jrn, .ciu, .lcp,
    .rqu, .port, .attn, .gens, .mem] s (warmRestart s) := by
  intro q hq
  cases q <;> first | exact absurd (by decide) hq | rfl

/-- R96: what LCP sends for a port in INIT. -/
theorem lcpInit_frozen {s : State} {p : Port} {o : ProtOut} (h : s.prc.frozen[p] = some o) :
    lcpInit s p = { tagBit := false, partner := o.partner, bridge := o.bridge, select := o.select, taps := 0 } := by
  unfold lcpInit
  rw [h]
  rfl

theorem warmRestart_frozen (s : State) (p : Port) : (warmRestart s).prc.frozen[p] = some (freezePort s p) := by
  simp only [warmRestart, Prc.reset, Fin.getElem_fin, Vector.getElem_ofFn]

/-- R171: the parts of a warm restart that are reset whole. -/
theorem warmRestart_blocks (s : State) :
    (warmRestart s).start.ready = false ∧ (warmRestart s).start.cold = false ∧ (warmRestart s).start.initPeriods = 0 ∧
    (warmRestart s).start.periods = 0 ∧ (warmRestart s).mbp = .reset ∧ (warmRestart s).pmon = .reset ∧
    (warmRestart s).tcd = .reset ∧ (warmRestart s).cbc = .reset ∧ (warmRestart s).alm = .reset ∧ (warmRestart s).jrn = .reset ∧
    (warmRestart s).hpi = { Hpi.reset with run := s.hpi.run } ∧ (warmRestart s).gens = .reset ∧
    (warmRestart s).rqu.exec = none ∧ (warmRestart s).rqu.jobs = [] ∧ (warmRestart s).rqu.loaded = false ∧
    (warmRestart s).rqu.shelf = .default s.straps.shid := ⟨rfl, rfl, rfl, rfl, rfl, rfl, rfl, rfl, rfl, rfl, rfl, rfl, rfl, rfl, rfl, rfl⟩

theorem warmRestart_lcp (s : State) {p : Port} {o : ProtOut} (h : (warmRestart s).prc.frozen[p] = some o) :
    (warmRestart s).lcp[p] =
      { tagBit := false, partner := o.partner, bridge := o.bridge, select := o.select, taps := 0 } := by
  have hlcp : (warmRestart s).lcp = Vector.ofFn (lcpInit
      { State.cold s.straps (Vector.ofFn fun i => s.ciu[i].pin) s.choices s.pending with
        prc := (warmRestart s).prc }) := by
    simp only [warmRestart]
  rw [hlcp]
  simp only [Fin.getElem_fin, Vector.getElem_ofFn]
  exact lcpInit_frozen h

/-- Settles O52: what a warm restart resets, what it keeps, and what it freezes. -/
theorem aWarmRestart : Obligations.AWarmRestart := by
  unfold Obligations.AWarmRestart
  refine fun s => ⟨fun hinit => whenever_false hinit _ _, fun hready hwf => ⟨_, exec_warmRestart hready, ?_⟩⟩
  obtain ⟨h1, h2, h3, h4, h5, h6, h7, h8, h9, h10, h11, h12, h13, h14, h15, h16⟩ := warmRestart_blocks (holding s none)
  obtain ⟨state, value, age, aged, htsel, hfree, hother, hhold, hnot⟩ := warm_eq s.tsel (ShelfRec.default s.straps.shid)
  have htsel : (warmRestart (holding s none)).tsel = _ := htsel
  obtain ⟨haborted, hbytes⟩ := abortSlots_reads (abortedSlots s) hwf
  refine ⟨h1, h2, h3, h4, h5, h6, h7, h8, h9, h10, h11, h12, h13, h14, h15, h16, fun i => ?_, fun gi => ?_, fun p => ?_,
    fun p o ho => ?_, ?_⟩
  · simp only [warmRestart, State.cold, Fin.getElem_fin, Vector.getElem_ofFn]
    rfl
  · simp only [warmRestart, Prc.reset, Fin.getElem_fin, Vector.getElem_replicate]
  · rw [warmRestart_frozen]
    rfl
  · exact warmRestart_lcp _ ho
  rw [htsel]
  refine ⟨rfl, rfl, rfl, rfl, rfl, rfl, rfl, rfl, rfl, rfl, rfl, rfl, ?_, fun r => ?_, hfree, hother, hhold, hnot, fun k =>
    ⟨fun hk => ?_, fun hq hb => ?_⟩, fun a ha => hbytes a fun k hk => ha k ((mem_abortedSlots s k).1 hk), ?_⟩
  · change (warmed s.tsel.steering state value age aged).quality (ShelfRec.default s.straps.shid) =
      if state = .holdover ∧ aged = false then 4 else 6
    by_cases hstate : s.tsel.state = .freeRun
    · obtain ⟨rfl, _⟩ := hfree hstate
      rfl
    · obtain ⟨rfl, _⟩ := hother hstate
      cases aged <;> rfl
  · simp only [warmed, Tsel.reset, Fin.getElem_fin, Vector.getElem_replicate, and_self]
  · obtain ⟨hzero, g4, g5, g6, g7⟩ := haborted k ((mem_abortedSlots s k).2 hk)
    have howned := (hostOwned_iff _).2 hk
    refine ⟨?_, hzero, g4, g5, g6, g7, ?_⟩
    · simp only [warmRestart, holding, Fin.getElem_fin, Vector.getElem_ofFn]
      exact if_neg (Bool.eq_false_iff.1 howned)
    · simp only [warmRestart, holding, Fin.getElem_fin, Vector.getElem_ofFn]
      exact if_neg (Bool.eq_false_iff.1 howned)
  · have howned := hostOwned_of hq hb
    simp only [warmRestart, holding, Fin.getElem_fin, Vector.getElem_ofFn]
    exact ⟨if_pos howned, if_pos howned⟩
  · exact unchangedBut_trans (t := holding s none) (unchangedBut_mono (port_unchanged s rfl) (by decide)) (warmRestart_unchanged (holding s none))

/-! ### The entry into READY (R170) -/

/-! #### The journal's records in one line -/

theorem jrnWrite_gen (now : Nat) (j : Jrn) (g : Word) (b : JBody) :
    (jrnWrite now { j with gen := g } b).1 = { (jrnWrite now j b).1 with gen := g } := by
  unfold jrnWrite
  simp only
  repeat' split
  all_goals rfl

theorem jrnWriteAll_gen (now : Nat) (j : Jrn) (g : Word) (bs : List JBody) :
    (jrnWriteAll now { j with gen := g } bs).1 = { (jrnWriteAll now j bs).1 with gen := g } := by
  induction bs generalizing j with
  | nil => rfl
  | cons b bs ih =>
    simp only [jrnWriteAll]
    rw [jrnWrite_gen, ih]

theorem jrnWriteAll_append (now : Nat) (j : Jrn) (bs cs : List JBody) :
    (jrnWriteAll now j (bs ++ cs)).1 = (jrnWriteAll now (jrnWriteAll now j bs).1 cs).1 := by
  induction bs generalizing j with
  | nil => rfl
  | cons b bs ih => exact ih _

/-- Records handed event by event are the same records handed at once, but for the generation word. -/
theorem journalAfter_flatten (s : State) (events : List (List JBody)) :
    ∃ g, journalAfter s events = { (jrnWriteAll s.now s.jrn events.flatten).1 with gen := g } := by
  suffices h : ∀ j : Jrn, ∃ g, events.foldl (fun j bs => (jrnRecords { s with jrn := j } bs).1) j =
      { (jrnWriteAll s.now j events.flatten).1 with gen := g } from h s.jrn
  induction events with
  | nil => exact fun j => ⟨j.gen, rfl⟩
  | cons bs events ih =>
    intro j
    obtain ⟨g, hg⟩ := jrnStamp_eq j (jrnWriteAll s.now j bs).1
    obtain ⟨g', hg'⟩ := ih { (jrnWriteAll s.now j bs).1 with gen := g }
    refine ⟨g', ?_⟩
    have hfirst : (jrnRecords { s with jrn := j } bs).1 = { (jrnWriteAll s.now j bs).1 with gen := g } := hg
    rw [List.foldl_cons, hfirst, hg', List.flatten_cons, jrnWriteAll_append, jrnWriteAll_gen]

/-! #### The attention bit of the restart (R159) -/

theorem jrnWriteAll_attn (now : Nat) (j : Jrn) (bs : List JBody) :
    ∀ m ∈ (jrnWriteAll now j bs).2, m = .attn .jrn ∨ m = .attn .jfull := by
  induction bs generalizing j with
  | nil => exact fun _ => nofun
  | cons b bs ih =>
    intro m hm
    rcases List.mem_append.1 hm with hm | hm
    · unfold jrnWrite at hm
      split at hm
      · cases hm
      · simp only at hm
        split at hm
        · split at hm <;> simp at hm <;> tauto
        · simp at hm
          exact .inl hm
    · exact ih _ m hm

theorem jrnRecords_noRst (s : State) (bs : List JBody) : Msg.attn .rst ∉ (jrnRecords s bs).2 := by
  intro h
  rcases jrnWriteAll_attn s.now s.jrn bs _ (List.mem_dedup.1 h) with h | h <;> cases h

theorem almFinish_noRst (before : Alm) (w : AlmWork) : Msg.attn .rst ∉ (almFinish before w).2 := by
  simp only [almFinish, toJrn, List.mem_append, not_or]
  refine ⟨⟨?_, ?_⟩, ?_⟩ <;> split <;> simp

/-- A batch, records, or an attention event but that of the restart. -/
def NoRst (m : Msg) : Prop := (∃ b, m = .alm b) ∨ (∃ bs, m = .jrn bs) ∨ ∃ a, m = .attn a ∧ a ≠ .rst

theorem deliver_noRst {m : Msg} (h : NoRst m) (s : State) : ∀ x ∈ (deliver m s).2, NoRst x := by
  intro x hx
  rcases h with ⟨b, rfl⟩ | ⟨bs, rfl⟩ | ⟨a, rfl, _⟩
  · have hno : x ≠ .attn .rst := fun heq => almFinish_noRst _ _ (heq ▸ hx)
    have hx : x ∈ (almFinish s.alm _).2 := hx
    simp only [almFinish, toJrn, List.mem_append] at hx
    rcases hx with (hx | hx) | hx
    · split at hx
      · cases hx
      · exact .inr (.inl ⟨_, List.mem_singleton.1 hx⟩)
    · split at hx
      · exact .inr (.inr ⟨_, List.mem_singleton.1 hx, nofun⟩)
      · cases hx
    · split at hx
      · cases hx
      · exact .inr (.inr ⟨_, List.mem_singleton.1 hx, nofun⟩)
  · have hx := jrnWriteAll_attn _ _ _ x (List.mem_dedup.1 hx)
    exact .inr (.inr (hx.elim (fun h => ⟨_, h, nofun⟩) fun h => ⟨_, h, nofun⟩))
  · cases hx

theorem settle_rstBit (n : Nat) {ms : List Msg} (h : ∀ m ∈ ms, NoRst m) (s : State) :
    (settle n ms s).hpi.attn.getLsbD 5 = s.hpi.attn.getLsbD 5 := by
  refine settle_rel (Q := NoRst) (P := fun s t => t.hpi.attn.getLsbD 5 = s.hpi.attn.getLsbD 5) (fun _ => rfl)
    (fun _ _ _ h k => k.trans h) (fun _ => rfl) (fun m hm x hx => ?_) (fun m s h => deliver_noRst h s) (fun m s hm => ?_) n ms s h
  · rcases hm with ⟨b, rfl⟩ | ⟨bs, rfl⟩ | ⟨a, rfl, ha⟩ <;> rw [List.mem_singleton.1 hx]
    · exact .inl ⟨b, rfl⟩
    · exact .inr (.inl ⟨bs, rfl⟩)
    · exact .inr (.inr ⟨a, rfl, ha⟩)
  · rcases hm with ⟨b, rfl⟩ | ⟨bs, rfl⟩ | ⟨a, rfl, ha⟩
    · simp only [deliver, putAlm_hpi]
    · simp only [deliver, putJrn_hpi]
    · cases a with
      | rst => exact absurd rfl ha
      | _ => simp [deliver, Hpi.event, Source.bit]

/-! #### The timing state at READY -/

/-- R121, R122: what an event that moves no reference hands ALM. -/
def stateChanges (s : State) : List AlmChange :=
  flagChange .holdover 0 s.tsel.holdover (decide (s.tsel.state = .holdover)) ++
    flagChange .freeRun 0 s.tsel.freeRun s.tsel.runsFree

theorem flagChange_same (t : CondType) (o : Nat) (b : Bool) : flagChange t o b b = [] := by cases b <;> rfl

theorem refChanges_same {old new : Tsel} (h : new.refs = old.refs) (r : RefIx) : refChanges old new r = [] := by
  unfold refChanges
  rw [h, flagChange_same, flagChange_same, if_pos rfl]
  rfl

/-- R106, R124: TSEL as the H3 enters READY. -/
def readyTsel (s : State) : Tsel :=
  { s.tsel with
    warmUp := if s.start.cold then some (s.rqu.shelf.warmUp * 4096) else none
    steer := some 4096
    outClass := s.tsel.quality s.rqu.shelf
    doNotUse := s.tsel.avoid s.prc
    holdover := decide (s.tsel.state = .holdover)
    freeRun := s.tsel.runsFree }

theorem tselReady_eq (s : State) : tselReady s = (readyTsel s, toAlm (stateChanges s)) := by
  have hrefs : allRefs.flatMap (refChanges s.tsel (readyTsel s)) = [] :=
    List.flatMap_eq_nil_iff.2 fun r _ => refChanges_same rfl r
  have hmsgs : (tselReady s).2 = toAlm (allRefs.flatMap (refChanges s.tsel (readyTsel s)) ++ stateChanges s ++ []) ++ toJrn [] := by
    unfold stateChanges
    rw [← List.append_assoc]
    rfl
  refine Prod.ext rfl ?_
  rw [hmsgs, hrefs, List.nil_append, List.append_nil]
  exact List.append_nil _

/-! #### The state at READY -/

/-- R170: the clock, the frame position, and the timers that start as the H3 enters READY. -/
def readyTimers (s : State) : State :=
  { s with
    start := { s.start with ready := true, periods := 0 }
    tcd := { s.tcd with pos := 0 }
    cbc := startTagWaits s s.cbc
    ciu := startDebounce s.ciu }

theorem event_rst (h : Hpi) : (h.event .rst).attn.getLsbD 5 = (h.attn.getLsbD 5 || h.mask.getLsbD 5) := by
  simp [Hpi.event, Source.bit]

/-- R153, R159: the RESTART record written and the restart's attention event raised. -/
def restarted (s : State) : State :=
  let s2 := settled (putJrn (readyTimers s) (jrnRecords (readyTimers s) [.restart (restartCode s)]))
  { s2 with hpi := s2.hpi.event .rst }

theorem enterReady_eq (s : State) : enterReady s =
    settled ({ restarted s with tsel := readyTsel (restarted s) }, toAlm (stateChanges (restarted s))) := by
  have h : enterReady s = settled ({ restarted s with tsel := (tselReady (restarted s)).1 }, (tselReady (restarted s)).2) := rfl
  rw [h, tselReady_eq]

theorem restarted_said (s : State) : unchangedBut [.jrn, .attn, .choices] (readyTimers s) (restarted s) ∧
    (restarted s).jrn = (jrnRecords (readyTimers s) [.restart (restartCode s)]).1 ∧
    (restarted s).hpi.attn.getLsbD 5 = (s.hpi.attn.getLsbD 5 || s.hpi.mask.getLsbD 5) := by
  obtain ⟨hjrn, hframe⟩ := settledJrn_said (readyTimers s) (jrnRecords_below (readyTimers s) [.restart (restartCode s)])
  have hbit : (settled (putJrn (readyTimers s) (jrnRecords (readyTimers s) [.restart (restartCode s)]))).hpi.attn.getLsbD 5 =
      s.hpi.attn.getLsbD 5 := by
    refine (settle_rstBit 10 (fun m hm => ?_) _).trans (by rw [putJrn_hpi]; rfl)
    have hm := jrnWriteAll_attn _ _ _ m (List.mem_dedup.1 hm)
    exact .inr (.inr (hm.elim (fun h => ⟨_, h, nofun⟩) fun h => ⟨_, h, nofun⟩))
  have hport := hframe .port (by decide)
  unfold restarted
  generalize settled (putJrn (readyTimers s) (jrnRecords (readyTimers s) [.restart (restartCode s)])) = u at hjrn hframe hbit hport
  refine ⟨fun q hq => ?_, hjrn, ?_⟩
  · cases q with
    | attn => exact absurd (by decide) hq
    | port => exact hport
    | _ => exact hframe _ hq
  · have hmask : u.hpi.mask = s.hpi.mask := congrArg (·.mask) (show { u.hpi with attn := s.hpi.attn } = s.hpi from hport)
    change (u.hpi.event .rst).attn.getLsbD 5 = _
    rw [event_rst, hbit, hmask]

/-- R124: the state in READY, before its conditions are handed on. -/
def readied (s : State) : State := { restarted s with tsel := readyTsel s }

theorem ready_holdover (s : State) (hoff : s.tsel.holdover = false) (hstate : s.tsel.state = .holdover) :
    (settled (readied s, toAlm (stateChanges s))).alm.isPresent .holdover 0 = true := by
  have hb : stateChanges s = [] ++ .offer .holdover 0 :: flagChange .freeRun 0 s.tsel.freeRun s.tsel.runsFree := by
    unfold stateChanges
    rw [hoff, hstate]
    rfl
  have hone : (toAlm (stateChanges s)).Perm [.alm (stateChanges s)] := by
    rw [hb]
    exact .refl _
  refine settle_present hone (fun m hm => absurd hm List.not_mem_nil) (fun a _ => ?_) 9
  rw [hb]
  refine isPresent_offered (fun c hc => ?_) a
  unfold flagChange at hc
  split at hc
  · rw [List.mem_singleton.1 hc]
    rfl
  · rw [List.mem_singleton.1 hc]
    rfl
  · cases hc

/-- R153: the RESTART record comes first, and what the conditions write comes after it. -/
theorem ready_journal (s : State) {r : State} {b : JBody} (hjrn : (restarted s).jrn = (jrnRecords r [b]).1)
    (hstart : (restarted s).start = r.start) : ∃ more,
      (settled (readied s, toAlm (stateChanges s))).jrn = { (jrnRecords r (b :: more)).1 with
        gen := (settled (readied s, toAlm (stateChanges s))).jrn.gen } := by
  obtain ⟨_, events, hevents⟩ := settle_records 10 (toAlm_noMode (stateChanges s)) (readied s)
  obtain ⟨g, hg⟩ := journalAfter_flatten (readied s) events
  obtain ⟨g1, hg1⟩ := jrnStamp_eq r.jrn (jrnWriteAll r.now r.jrn [b]).1
  obtain ⟨g2, hg2⟩ := jrnStamp_eq r.jrn (jrnWriteAll r.now r.jrn (b :: events.flatten)).1
  have hfinal : (settled (readied s, toAlm (stateChanges s))).jrn = _ := hevents.trans hg
  have hnow : (readied s).now = r.now := by
    unfold State.now
    rw [← hstart]
    rfl
  have hwritten : (readied s).jrn = { (jrnWriteAll r.now r.jrn [b]).1 with gen := g1 } := hjrn.trans hg1
  have hall : (jrnRecords r (b :: events.flatten)).1 = _ := hg2
  have happend : (jrnWriteAll r.now r.jrn (b :: events.flatten)).1 = _ := jrnWriteAll_append r.now r.jrn [b] events.flatten
  refine ⟨events.flatten, ?_⟩
  rw [hall, hfinal, hnow, hwritten, jrnWriteAll_gen, happend]

/-- Settles O51: the restart's record and attention, then TSEL's conditions. -/
theorem theH3EntersReady : Obligations.TheH3EntersReady := by
  unfold Obligations.TheH3EntersReady
  intro s hinit r
  have hexec : exec .enterReady s = .next (enterReady s) := whenever_true (by rw [hinit]; rfl) _ _
  obtain ⟨hframe, hjrn, hbit⟩ := restarted_said s
  have hjrn : (restarted s).jrn = (jrnRecords r [.restart (if s.start.cold then .cold else .warm)]).1 := hjrn
  have hstart : (restarted s).start = r.start := hframe .start (by decide)
  have htsel : (restarted s).tsel = s.tsel := hframe .tsel (by decide)
  have hprc : (restarted s).prc = s.prc := hframe .prc (by decide)
  have hrqu : (restarted s).rqu = s.rqu := hframe .rqu (by decide)
  have halm : (restarted s).alm = s.alm := hframe .alm (by decide)
  have hready : readyTsel (restarted s) = readyTsel s := by
    unfold readyTsel
    rw [htsel, hprc, hrqu, hstart]
  have hchanges : stateChanges (restarted s) = stateChanges s := by
    unfold stateChanges
    rw [htsel]
  have heq := enterReady_eq s
  rw [hready, hchanges] at heq
  change enterReady s = settled (readied s, toAlm (stateChanges s)) at heq
  rw [heq] at hexec
  have hnoRst : ∀ m ∈ toAlm (stateChanges s), NoRst m := fun m hm => by
    unfold toAlm at hm
    split at hm
    · cases hm
    · exact .inl ⟨_, List.mem_singleton.1 hm⟩
  have hrest : unchangedBut (touched 3) (readied s) (settled (readied s, toAlm (stateChanges s))) :=
    settle_unchanged 3 10 _ _ (below_toAlm 3 _ (by decide))
  have hlast : unchangedBut [.start, .tcd, .cbc, .ciu, .jrn, .attn, .choices, .tsel, .alm] s
      (settled (readied s, toAlm (stateChanges s))) := by
    refine unchangedBut_trans (t := readyTimers s) (fun q hq => ?_) (unchangedBut_trans (unchangedBut_mono hframe (by decide))
      (unchangedBut_trans (t := readied s) (fun q hq => ?_) (unchangedBut_mono hrest (by decide))))
    · cases q <;> first | exact absurd (by decide) hq | rfl
    · cases q <;> first | exact absurd (by decide) hq | rfl
  have hfinal : (settled (readied s, toAlm (stateChanges s))).hpi.attn.getLsbD 5 =
      (s.hpi.attn.getLsbD 5 || s.hpi.mask.getLsbD 5) := (settle_rstBit 10 hnoRst (readied s)).trans hbit
  have hquiet : s.tsel.holdover = decide (s.tsel.state = .holdover) → s.tsel.freeRun = s.tsel.runsFree →
      settled (readied s, toAlm (stateChanges s)) = readied s := fun hsame hfree => by
    have hnone : stateChanges s = [] := by
      unfold stateChanges
      rw [hsame, hfree, flagChange_same, flagChange_same]
      rfl
    rw [hnone]
    rfl
  have hoffered := ready_holdover s
  obtain ⟨events, hrecords⟩ := ready_journal s hjrn hstart
  generalize settled (readied s, toAlm (stateChanges s)) = t at hexec hrest hlast hfinal hquiet hoffered hrecords
  have hcbc : t.cbc = startTagWaits s s.cbc := (hrest .cbc (by decide)).trans (hframe .cbc (by decide))
  have hciu : t.ciu = startDebounce s.ciu := (hrest .ciu (by decide)).trans (hframe .ciu (by decide))
  refine ⟨t, hexec, (hrest .start (by decide)).trans hstart, fun p => ?_, ?_, fun i => ?_,
    (hrest .tcd (by decide)).trans (hframe .tcd (by decide)), hrest .tsel (by decide), hfinal,
    fun hsame hfree => ?_, fun hoff hstate => ⟨hoffered hoff hstate, events, hrecords⟩, unchangedBut_mono hlast (by decide)⟩
  · rw [hcbc]
    simp only [startTagWaits, Fin.getElem_fin, Vector.getElem_ofFn]
    rfl
  · rw [hcbc]
    simp only [startTagWaits]
  · rw [hciu]
    simp only [startDebounce, Fin.getElem_fin, Vector.getElem_ofFn]
    rfl
  · rw [hquiet hsame hfree]
    exact ⟨halm, hjrn⟩

end Sys2Proof.Proofs
end

