-- ==== Sys2Proof/Proofs/AlarmEvents.lean ====
section
/-! The end of an event of ALM: the generation words (R140, R157), the records it hands JRN and the attention it raises (R140,
R142); then the two soaks, acknowledgement and cut-off (R133, R134, R139, R144). -/

namespace Sys2Proof.Proofs

open Sys2Proof.Machine Sys2Proof.Safety Sys2Proof.Laws

/-! ### Generation words (R140, R157) -/

/-- An entry `n` that was `o` before the event, with its generation word; `freed` marks one freed in the event. -/
def stampedEntry (o n : Entry) (freed : Bool) : Entry :=
  if freed && n.alarm.isSome then { n with gen := genNext (genNext o.gen) }
  else if o.alarm = n.alarm then n else { n with gen := genNext o.gen }

section
variable (before : Alm) (freed : List EntryIx)

theorem stampEntry_eq (a : Alm) (i : EntryIx) : stampEntry before freed a i =
    { a with entries := a.entries.set i (stampedEntry before.entries[i] a.entries[i] (freed.contains i)) } := by
  have hself : a.entries.set i a.entries[i] = a.entries := Vector.set_getElem_self i.isLt
  simp only [stampEntry, stampedEntry]
  split
  · rfl
  · split
    · rw [hself]
    · rfl

theorem stampEntry_entry (a : Alm) (i j : EntryIx) : (stampEntry before freed a i).entries[j] =
    if j = i then stampedEntry before.entries[i] a.entries[i] (freed.contains i) else a.entries[j] := by
  rw [stampEntry_eq]
  exact getElem_set_fin _ _ _ _

theorem stampEntries_entry (a : Alm) (j : EntryIx) : (stampEntries before freed a).entries[j] =
    stampedEntry before.entries[j] a.entries[j] (freed.contains j) := by
  suffices h : ∀ is : List EntryIx, is.Nodup → ∀ b : Alm, (is.foldl (stampEntry before freed) b).entries[j] =
      if j ∈ is then stampedEntry before.entries[j] b.entries[j] (freed.contains j) else b.entries[j] by
    have hall := h _ allEntries_nodup a
    rwa [if_pos (List.mem_finRange j)] at hall
  intro is his
  induction is with
  | nil => exact fun b => (if_neg List.not_mem_nil).symm
  | cons i is ih =>
    obtain ⟨hi, his⟩ := List.nodup_cons.1 his
    intro b
    rw [List.foldl_cons, ih his, stampEntry_entry]
    by_cases hj : j = i
    · subst hj
      rw [if_neg hi, if_pos rfl, if_pos List.mem_cons_self]
    · simp only [hj, if_false, List.mem_cons, false_or]

variable (w : AlmWork)

theorem almFinish_entry (j : EntryIx) : (almFinish before w).1.entries[j] =
    stampedEntry before.entries[j] w.alm.entries[j] (w.freed.contains j) := by
  simp only [almFinish, settleOverflow_eq]
  exact stampEntries_entry before w.freed w.alm j

end

/-- An entry that was not taken anew: its word moves by two where its alarm changed. -/
theorem almFinish_kept {before : Alm} {w : AlmWork} {j : EntryIx} (hgen : w.alm.entries[j].gen = before.entries[j].gen)
    (hfreed : j ∈ w.freed → w.alm.entries[j].alarm = none) : (almFinish before w).1.entries[j] =
      { alarm := w.alm.entries[j].alarm
        gen := if w.alm.entries[j].alarm = before.entries[j].alarm then before.entries[j].gen else before.entries[j].gen + 2 } := by
  have hnot : (w.freed.contains j && w.alm.entries[j].alarm.isSome) = false := by
    rw [Bool.and_eq_false_iff]
    by_cases hj : j ∈ w.freed
    · exact .inr (by rw [hfreed hj]; rfl)
    · exact .inl (by simpa using hj)
  rw [almFinish_entry, stampedEntry, hnot, if_neg Bool.false_ne_true]
  split
  · next h => rw [if_pos h.symm, ← hgen]
  · next h => rw [if_neg (Ne.symm h)]; rfl

/-! ### What the end of an event hands on -/

section
variable (before : Alm) (w : AlmWork)

theorem attn_alm_mem : .attn .alm ∈ (almFinish before w).2 ↔ ∃ j : EntryIx, (almFinish before w).1.entries[j] ≠ before.entries[j] := by
  have hwrote : wroteEntry before (almFinish before w).1 = true ↔
      ∃ j : EntryIx, (almFinish before w).1.entries[j] ≠ before.entries[j] := by
    simp only [wroteEntry, List.any_eq_true, List.mem_finRange, true_and, decide_eq_true_eq, ne_comm]
  have hmem : Msg.attn .alm ∈ (almFinish before w).2 ↔ wroteEntry before (almFinish before w).1 = true := by
    change Msg.attn .alm ∈ toJrn w.recs ++ (if wroteEntry before (almFinish before w).1 then [Msg.attn .alm] else []) ++
      (if (almFinish before w).1.outputs = before.outputs then [] else [Msg.attn .bay]) ↔ _
    generalize wroteEntry before (almFinish before w).1 = wrote
    by_cases hout : (almFinish before w).1.outputs = before.outputs <;> cases wrote <;> simp [hout, toJrn]
  rw [hmem, hwrote]

theorem attn_bay_mem : .attn .bay ∈ (almFinish before w).2 ↔ (almFinish before w).1.outputs ≠ before.outputs := by
  change Msg.attn .bay ∈ toJrn w.recs ++ (if wroteEntry before (almFinish before w).1 then [Msg.attn .alm] else []) ++
    (if (almFinish before w).1.outputs = before.outputs then [] else [Msg.attn .bay]) ↔ _
  generalize wroteEntry before (almFinish before w).1 = wrote
  by_cases hout : (almFinish before w).1.outputs = before.outputs <;> cases wrote <;> simp [hout, toJrn]

theorem jrn_mem (recs : List JBody) : .jrn recs ∈ (almFinish before w).2 ↔ recs = w.recs ∧ w.recs ≠ [] := by
  simp only [almFinish, toJrn, List.mem_append]
  cases w.recs with
  | nil => simp
  | cons b bs => simp

/-- The records an event of ALM writes. -/
theorem writes_iff (x : JBody) : (∃ recs, .jrn recs ∈ (almFinish before w).2 ∧ x ∈ recs) ↔ x ∈ w.recs := by
  constructor
  · rintro ⟨recs, hmem, hx⟩
    rw [((jrn_mem before w recs).1 hmem).1] at hx
    exact hx
  · exact fun hx => ⟨w.recs, (jrn_mem before w _).2 ⟨rfl, List.ne_nil_of_mem hx⟩, hx⟩

end

/-! ### Attention (R159) -/

/-- A source's bit number. -/
def sourceBit : Source → Nat
  | .req => 0 | .jrn => 1 | .alm => 2 | .bay => 3 | .jfull => 4 | .rst => 5

theorem event_bit (h : Hpi) (a b : Source) : (h.event a).attn.getLsbD (sourceBit b) =
    (h.attn.getLsbD (sourceBit b) || (decide (a = b) && h.mask.getLsbD (sourceBit b))) := by
  cases a <;> cases b <;> simp [Hpi.event, Source.bit, sourceBit]


/-- Records for JRN, or an attention event: all that an event of ALM or of JRN hands on. -/
def Minor (m : Msg) : Prop := (∃ bs, m = .jrn bs) ∨ ∃ a, m = .attn a

theorem minor_expand {m : Msg} (h : Minor m) : m.expand = [m] := by
  rcases h with ⟨bs, rfl⟩ | ⟨a, rfl⟩ <;> rfl

/-- The attention register of `t` is that of `s` with the bit of `b` raised where `raised` and its mask bit is 1. -/
structure BitRaised (b : Source) (raised : Bool) (s t : State) : Prop where
  mask : t.hpi.mask = s.hpi.mask
  bit  : t.hpi.attn.getLsbD (sourceBit b) =
    (s.hpi.attn.getLsbD (sourceBit b) || (raised && s.hpi.mask.getLsbD (sourceBit b)))

theorem BitRaised.refl (b : Source) (s : State) : BitRaised b false s s := ⟨rfl, by simp⟩

theorem BitRaised.trans {b : Source} {x y : Bool} {s t u : State} (h : BitRaised b x s t) (k : BitRaised b y t u) :
    BitRaised b (x || y) s u := by
  refine ⟨k.mask.trans h.mask, ?_⟩
  rw [k.bit, h.bit, h.mask, Bool.or_assoc, ← Bool.and_or_distrib_right]

section
variable {b : Source} (hb : b ≠ .jrn ∧ b ≠ .jfull)
include hb

theorem deliver_minor {m : Msg} (h : Minor m) (s : State) : (∀ x ∈ (deliver m s).2, Minor x ∧ x ≠ .attn b) ∧
    BitRaised b (decide (m = .attn b)) s (deliver m s).1 := by
  rcases h with ⟨bs, rfl⟩ | ⟨a, rfl⟩
  · have hno : decide (Msg.jrn bs = .attn b) = false := decide_eq_false nofun
    rw [hno]
    refine ⟨fun x hx => ?_, (BitRaised.refl b s).mask, (BitRaised.refl b s).bit⟩
    rcases jrnWriteAll_attn _ _ _ x (List.mem_dedup.1 hx) with rfl | rfl
    · exact ⟨.inr ⟨_, rfl⟩, fun heq => hb.1 (Msg.attn.inj heq).symm⟩
    · exact ⟨.inr ⟨_, rfl⟩, fun heq => hb.2 (Msg.attn.inj heq).symm⟩
  · refine ⟨fun _ => nofun, rfl, ?_⟩
    have hsame : decide (Msg.attn a = .attn b) = decide (a = b) := decide_eq_decide.2 (by rw [Msg.attn.injEq])
    rw [hsame]
    exact event_bit s.hpi a b

theorem settle_bitKept (n : Nat) {ms : List Msg} (h : ∀ m ∈ ms, Minor m ∧ m ≠ .attn b) (s : State) :
    BitRaised b false s (settle n ms s) := by
  refine settle_rel (Q := fun m => Minor m ∧ m ≠ .attn b) (P := BitRaised b false) (BitRaised.refl b)
    (fun _ _ _ h k => h.trans k) (fun s => ⟨rfl, (BitRaised.refl b s).bit⟩) (fun m hm x hx => ?_)
    (fun m s hm => (deliver_minor hb hm.1 s).1) (fun m s hm => ?_) n ms s h
  · rw [minor_expand hm.1] at hx
    rwa [List.mem_singleton.1 hx]
  · have hraised := (deliver_minor hb hm.1 s).2
    rwa [decide_eq_false hm.2] at hraised

theorem taken_minor (n : Nat) {m : Msg} (h : Minor m) (s : State) : BitRaised b (decide (m = .attn b)) s (taken n m s) := by
  obtain ⟨hnext, hraised⟩ := deliver_minor hb h s
  have := hraised.trans (settle_bitKept hb n hnext _)
  rwa [Bool.or_false] at this

/-- R159: a source's attention event among an event's hand-ons raises its bit, whatever their order. -/
theorem settle_bitRaised (n : Nat) {ms : List Msg} (h : ∀ m ∈ ms, Minor m) (s : State) :
    BitRaised b (decide (.attn b ∈ ms)) s (settle (n + 1) ms s) := by
  by_cases hin : Msg.attn b ∈ ms
  · have hrest : ∀ x ∈ (ms.erase (.attn b)).flatMap Msg.expand, Minor x := by
      intro x hx
      obtain ⟨m, hm, hmx⟩ := List.mem_flatMap.1 hx
      have hminor := h m (List.mem_of_mem_erase hm)
      rw [minor_expand hminor] at hmx
      rwa [List.mem_singleton.1 hmx]
    rw [decide_eq_true hin]
    refine settle_once (P := fun t => ∃ x, BitRaised b x s t) (R := BitRaised b true s) rfl (List.perm_cons_erase hin)
      (fun t ⟨x, ht⟩ => ⟨x, ht.mask, ht.bit⟩) (fun x hx t ⟨y, ht⟩ => ⟨_, ht.trans (taken_minor hb n (hrest x hx) t)⟩)
      (fun t ⟨x, ht⟩ => ?_) (fun x hx t ht => ?_) ⟨false, .refl b s⟩
    · have := ht.trans (taken_minor hb n (.inr ⟨b, rfl⟩) t)
      rwa [decide_eq_true rfl, Bool.or_true] at this
    · exact ht.trans (taken_minor hb n (hrest x hx) t)
  · rw [decide_eq_false hin]
    exact settle_bitKept hb _ (fun m hm => ⟨h m hm, fun heq => hin (heq ▸ hm)⟩) s

end

/-! ### A settled event of ALM -/

/-- What an event of ALM leaves of the other blocks, its work done as `w`. -/
structure AlmSaid (s : State) (w : AlmWork) (t : State) : Prop where
  alm   : t.alm = (almFinish s.alm w).1
  jrn   : t.jrn = (jrnRecords s w.recs).1
  attn  : BitRaised .alm (decide (∃ j : EntryIx, t.alm.entries[j] ≠ s.alm.entries[j])) s t
  bay   : BitRaised .bay (decide (t.alm.outputs ≠ s.alm.outputs)) s t
  frame : unchangedBut [.alm, .jrn, .attn, .choices] s t

theorem jrnRecords_nil (s : State) : (jrnRecords s []).1 = s.jrn := if_pos rfl

theorem settle_jrnRecords (n : Nat) {ms : List Msg} {recs : List JBody} (hms : ∀ m ∈ ms, Minor m)
    (hjrn : ∀ bs, .jrn bs ∈ ms ↔ bs = recs ∧ recs ≠ []) (hcount : ms.count (.jrn recs) ≤ 1) (s : State) :
    (settle (n + 1) ms s).jrn = (jrnRecords s recs).1 := by
  have hattn (l : List Msg) (hl : ∀ m ∈ l, Minor m) (hno : ∀ bs, Msg.jrn bs ∉ l) : Below 1 l := by
    intro m hm
    rcases hl m hm with ⟨bs, rfl⟩ | ⟨a, rfl⟩
    · exact absurd hm (hno bs)
    · simp [Msg.rank]
  by_cases hrecs : recs = []
  · subst hrecs
    rw [jrnRecords_nil]
    exact settle_unchanged 1 _ ms s (hattn ms hms fun bs hbs => ((hjrn bs).1 hbs).2 rfl) .jrn (by decide)
  · have hin := (hjrn recs).2 ⟨rfl, hrecs⟩
    have hrest : Below 1 ((ms.erase (.jrn recs)).flatMap Msg.expand) := by
      have hbelow := hattn (ms.erase (.jrn recs)) (fun m hm => hms m (List.mem_of_mem_erase hm)) fun bs hbs => by
        obtain ⟨rfl, _⟩ := (hjrn bs).1 (List.mem_of_mem_erase hbs)
        have := List.count_pos_iff.2 hbs
        rw [List.count_erase_self] at this
        omega
      intro x hx
      obtain ⟨m, hm, hmx⟩ := List.mem_flatMap.1 hx
      rw [minor_expand (hms m (List.mem_of_mem_erase hm))] at hmx
      rw [List.mem_singleton.1 hmx]
      exact hbelow m hm
    have hlow {x : Msg} (hx : x.rank < 1) (t : State) : (taken n x t).jrn = t.jrn ∧ (taken n x t).start = t.start := by
      have hone : Below 1 (deliver x t).2 := fun y hy => Nat.lt_trans (deliver_below x t y hy) hx
      exact ⟨(settle_unchanged 1 n _ _ hone .jrn (by decide)).trans (deliver_unchanged 1 x t hx .jrn (by decide)),
        (settle_unchanged 1 n _ _ hone .start (by decide)).trans (deliver_unchanged 1 x t hx .start (by decide))⟩
    refine settle_once (P := fun t => t.jrn = s.jrn ∧ t.start = s.start) (R := fun t => t.jrn = (jrnRecords s recs).1) rfl
      (List.perm_cons_erase hin) (fun t ht => ht) (fun x hx t ht => ?_) (fun t ht => ?_) (fun x hx t ht => ?_) ⟨rfl, rfl⟩
    · obtain ⟨h1, h2⟩ := hlow (hrest x hx) t
      exact ⟨h1.trans ht.1, h2.trans ht.2⟩
    · have hjrn' : (taken n (.jrn recs) t).jrn = (jrnRecords t recs).1 :=
        settle_unchanged 1 n _ _ (jrnRecords_below t recs) .jrn (by decide)
      rw [hjrn', jrnRecords_congr ht.2, ht.1]
    · exact (hlow (hrest x hx) t).1.trans ht

theorem almFinish_minor (before : Alm) (w : AlmWork) : ∀ m ∈ (almFinish before w).2, Minor m := by
  intro m hm
  simp only [almFinish, toJrn, List.mem_append] at hm
  rcases hm with (hm | hm) | hm <;> split at hm
  · cases hm
  · exact .inl ⟨_, List.mem_singleton.1 hm⟩
  · exact .inr ⟨_, List.mem_singleton.1 hm⟩
  · cases hm
  · cases hm
  · exact .inr ⟨_, List.mem_singleton.1 hm⟩

theorem almFinish_jrn_count (before : Alm) (w : AlmWork) (recs : List JBody) : (almFinish before w).2.count (.jrn recs) ≤ 1 := by
  change (toJrn w.recs ++ (if wroteEntry before (almFinish before w).1 then [Msg.attn .alm] else []) ++
    (if (almFinish before w).1.outputs = before.outputs then [] else [Msg.attn .bay])).count (.jrn recs) ≤ 1
  have hwrote : ∀ c : Prop, [Decidable c] → ∀ a b, (if c then [Msg.attn a] else []).count (.jrn recs) = 0 ∧
      (if c then [] else [Msg.attn b]).count (.jrn recs) = 0 := by
    intro c _ a b
    split <;> simp
  rw [List.count_append, List.count_append, (hwrote _ .alm .bay).1, (hwrote _ .alm .bay).2]
  unfold toJrn
  split
  · simp
  · exact List.count_le_length

theorem settleAlm_said (n : Nat) (s : State) (w : AlmWork) :
    AlmSaid s w (settle (n + 1) (almFinish s.alm w).2 { s with alm := (almFinish s.alm w).1 }) := by
  have hbelow := almFinish_below s.alm w
  have hminor := almFinish_minor s.alm w
  have hframe := settle_unchanged 2 (n + 1) (almFinish s.alm w).2 { s with alm := (almFinish s.alm w).1 } hbelow
  have halm : (settle (n + 1) (almFinish s.alm w).2 { s with alm := (almFinish s.alm w).1 }).alm = (almFinish s.alm w).1 :=
    hframe .alm (by decide)
  have hbit {b : Source} (hb : b ≠ .jrn ∧ b ≠ .jfull) :=
    settle_bitRaised hb n hminor { s with alm := (almFinish s.alm w).1 }
  refine ⟨halm, ?_, ?_, ?_, ?_⟩
  · exact settle_jrnRecords n hminor (jrn_mem s.alm w) (almFinish_jrn_count s.alm w _) _
  · rw [halm, decide_eq_decide.2 (attn_alm_mem s.alm w).symm]
    exact ⟨(hbit (b := .alm) (by decide)).mask, (hbit (b := .alm) (by decide)).bit⟩
  · rw [halm, decide_eq_decide.2 (attn_bay_mem s.alm w).symm]
    exact ⟨(hbit (b := .bay) (by decide)).mask, (hbit (b := .bay) (by decide)).bit⟩
  · refine unchangedBut_trans (t := { s with alm := (almFinish s.alm w).1 }) (fun q hq => ?_)
      (unchangedBut_mono hframe (by decide))
    cases q <;> first | exact absurd (by decide) hq | rfl

theorem settledAlm_said (s : State) (w : AlmWork) : AlmSaid s w (settled (putAlm s (almFinish s.alm w))) :=
  settleAlm_said 9 s w

/-! ### The bay outputs (R142) -/

theorem shown_iff (x : Alarm) : x.shown = true ↔ x.state = .active ∨ ∃ n, x.state = .clearing n := by
  unfold Alarm.shown
  cases x.state <;> simp

theorem shown_of_pending {x : Alarm} {n : Nat} (h : x.state = .pending n) : x.shown = false := by rw [Alarm.shown, h]

theorem shown_of_active {x : Alarm} (h : x.state = .active) : x.shown = true := by rw [Alarm.shown, h]

theorem shown_of_clearing {x : Alarm} {n : Nat} (h : x.state = .clearing n) : x.shown = true := by rw [Alarm.shown, h]

theorem anyAlarm_iff (a : Alm) (p : Alarm → Bool) : ((List.finRange 128).any fun i =>
    match a.entries[i].alarm with
    | some x => p x
    | none => false) = true ↔ ∃ (i : EntryIx) (x : Alarm), a.entries[i].alarm = some x ∧ p x = true := by
  rw [List.any_eq_true]
  constructor
  · rintro ⟨i, _, h⟩
    split at h
    · next x hx => exact ⟨i, x, hx, h⟩
    · cases h
  · rintro ⟨i, x, hx, h⟩
    refine ⟨i, List.mem_finRange i, ?_⟩
    split
    · next y hy =>
      obtain rfl := Option.some.inj (hx.symm.trans hy)
      exact h
    · next hy =>
      rw [hx] at hy
      cases hy

theorem shows_iff (a : Alm) (v : Severity) : a.shows v = true ↔ ∃ (i : EntryIx) (x : Alarm), a.entries[i].alarm = some x ∧
    x.severity = v ∧ (x.state = .active ∨ ∃ n, x.state = .clearing n) := by
  have h := anyAlarm_iff a fun x => x.shown && decide (x.severity = v)
  simp only [Bool.and_eq_true, decide_eq_true_eq, shown_iff] at h
  refine Iff.trans h ?_
  simp only [and_comm]

theorem rings_iff (a : Alm) : a.rings = true ↔ ∃ (i : EntryIx) (x : Alarm), a.entries[i].alarm = some x ∧ x.audible = true :=
  anyAlarm_iff a (·.audible)

/-! ### One entry's soak (R133, R134) -/

/-- The work of an event that gives one entry another alarm. -/
def oneWork (s : State) (i : EntryIx) (alarm : Option Alarm) (recs : List JBody) (freed : List EntryIx) : AlmWork :=
  { alm := { s.alm with entries := s.alm.entries.set i { s.alm.entries[i] with alarm := alarm } }, recs := recs, freed := freed }

section
variable {s t : State} {i : EntryIx} {alarm : Option Alarm} {recs : List JBody} {freed : List EntryIx}

theorem oneWork_entries (j : EntryIx) : (oneWork s i alarm recs freed).alm.entries[j] =
    if j = i then { s.alm.entries[i] with alarm := alarm } else s.alm.entries[j] := getElem_set_fin _ _ _ _

/-- What such an event leaves. -/
theorem oneWork_said (h : AlmSaid s (oneWork s i alarm recs freed) t) (hne : alarm ≠ s.alm.entries[i].alarm)
    (hfreed : ∀ j ∈ freed, j = i ∧ alarm = none) :
    t.alm.entries[i].alarm = alarm ∧ t.alm.entries[i].gen = s.alm.entries[i].gen + 2 ∧
    (∀ j, j ≠ i → t.alm.entries[j] = s.alm.entries[j]) ∧ t.alm.present = s.alm.present ∧ t.alm.profile = s.alm.profile ∧
    t.alm.overflows = s.alm.overflows ∧ t.alm.outputs = formOutputs t.alm ∧ t.jrn = (jrnRecords s recs).1 ∧
    t.hpi.attn.getLsbD 2 = (s.hpi.attn.getLsbD 2 || s.hpi.mask.getLsbD 2) ∧
    t.hpi.attn.getLsbD 3 = (s.hpi.attn.getLsbD 3 || (decide (t.alm.outputs ≠ s.alm.outputs) && s.hpi.mask.getLsbD 3)) := by
  have hentry (j : EntryIx) : t.alm.entries[j] = if j = i then { alarm := alarm, gen := s.alm.entries[i].gen + 2 } else
      s.alm.entries[j] := by
    rw [h.alm]
    have hgen : (oneWork s i alarm recs freed).alm.entries[j].gen = s.alm.entries[j].gen := by
      rw [oneWork_entries]
      split
      · next hj => rw [hj]
      · rfl
    refine (almFinish_kept hgen fun hj => ?_).trans ?_
    · obtain ⟨rfl, rfl⟩ := hfreed j hj
      rw [oneWork_entries, if_pos rfl]
    · rw [oneWork_entries]
      split
      · next hj => subst hj; simp only [if_neg hne]
      · simp only [if_true]
  have hcontext : SameContext (oneWork s i alarm recs freed).alm t.alm := h.alm ▸ almFinish_context s.alm _
  have hchanged : (∃ j : EntryIx, t.alm.entries[j] ≠ s.alm.entries[j]) := by
    refine ⟨i, fun heq => hne ?_⟩
    rw [← heq, hentry, if_pos rfl]
  have hattn := h.attn.bit
  rw [decide_eq_true hchanged, Bool.true_and] at hattn
  refine ⟨by rw [hentry, if_pos rfl], by rw [hentry, if_pos rfl], fun j hj => by rw [hentry, if_neg hj], hcontext.present,
    hcontext.profile, ?_, ?_, h.jrn, hattn, h.bay.bit⟩
  · rw [h.alm, almFinish_overflows]
    rfl
  · rw [h.alm, almFinish_outputs]

end

theorem almRaise_eq {s : State} {i : EntryIx} {x : Alarm} {n : Nat} (hx : s.alm.entries[i].alarm = some x)
    (hst : x.state = .pending n) : almRaise s i = almFinish s.alm (oneWork s i
      (some { x with state := .active, activeTime := some s.now, audible := x.severity.rings && !x.ack })
      [.alarmOn i x.type x.obj x.severity x.nsa] []) := by
  simp only [almRaise, hx, hst]
  rfl

theorem almClear_eq {s : State} {i : EntryIx} {x : Alarm} {n : Nat} (hx : s.alm.entries[i].alarm = some x)
    (hst : x.state = .clearing n) : almClear s i = almFinish s.alm (oneWork s i none
      [.alarmOff i x.type x.obj x.severity .cleared] [i]) := by
  have hshown := shown_of_clearing hst
  simp only [almClear, hx, hst, freeEntry, hshown, if_true]
  rfl

theorem lowestFree_isSome {a : Alm} {i : EntryIx} (h : a.entries[i].alarm = none) : a.lowestFree.isSome = true := by
  rw [← Option.isNone_eq_false_iff, Bool.eq_false_iff, ne_eq, Option.isNone_iff_eq_none, lowestFree_eq_none]
  exact fun hall => hall i h

/-! ### Acknowledgement and cut-off (R139, R144) -/

/-- What an event leaves that changes each entry's alarm by a map and writes no record. -/
structure EachSaid (f : EntryIx → Alarm → Alarm) (s t : State) : Prop where
  entry     : ∀ i : EntryIx, t.alm.entries[i].alarm = s.alm.entries[i].alarm.map (f i) ∧ t.alm.entries[i].gen =
    if t.alm.entries[i].alarm = s.alm.entries[i].alarm then s.alm.entries[i].gen else s.alm.entries[i].gen + 2
  present   : t.alm.present = s.alm.present
  profile   : t.alm.profile = s.alm.profile
  overflows : t.alm.overflows = s.alm.overflows
  outputs   : t.alm.outputs = formOutputs t.alm
  changed   : (∃ i : EntryIx, t.alm.entries[i].alarm ≠ s.alm.entries[i].alarm) →
    t.hpi.attn.getLsbD 2 = (s.hpi.attn.getLsbD 2 || s.hpi.mask.getLsbD 2)
  same      : (∀ i : EntryIx, t.alm.entries[i].alarm = s.alm.entries[i].alarm) → t.hpi.attn.getLsbD 2 = s.hpi.attn.getLsbD 2
  bay       : t.hpi.attn.getLsbD 3 = (s.hpi.attn.getLsbD 3 || (decide (t.alm.outputs ≠ s.alm.outputs) && s.hpi.mask.getLsbD 3))
  jrn       : t.jrn = s.jrn
  frame     : unchangedBut [.alm, .attn, .choices] s t

/-- The work of an event before its first step. -/
def noWork (s : State) : AlmWork := { alm := s.alm, recs := [], freed := [] }

theorem eachSaid {f : Alarm → Alarm} {is : List EntryIx} {s t : State} {w : AlmWork}
    (h : Passed (alarmRule f) is (noWork s) w) (ht : AlmSaid s w t) :
    EachSaid (fun j x => if j ∈ is then f x else x) s t := by
  have hrecs : w.recs = [] := by
    rw [h.recs]
    exact List.flatMap_eq_nil_iff.2 fun _ _ => rfl
  have hfreed (j : EntryIx) : j ∉ w.freed := fun hj => by
    rcases (h.freed j).1 hj with hj | hj
    · cases hj
    · cases hj.2
  have halarm (j : EntryIx) : w.alm.entries[j].alarm = s.alm.entries[j].alarm.map fun x => if j ∈ is then f x else x := by
    rw [h.entries]
    by_cases hj : j ∈ is
    · simp only [hj, if_true]
      rfl
    · simp only [hj, if_false, Option.map_id']
      rfl
  have hgen (j : EntryIx) : w.alm.entries[j].gen = s.alm.entries[j].gen := by
    rw [h.entries]
    split <;> rfl
  have hentry (j : EntryIx) : t.alm.entries[j] =
      { alarm := w.alm.entries[j].alarm
        gen := if w.alm.entries[j].alarm = s.alm.entries[j].alarm then s.alm.entries[j].gen else s.alm.entries[j].gen + 2 } := by
    rw [ht.alm]
    exact almFinish_kept (hgen j) fun hj => absurd hj (hfreed j)
  have hcontext : SameContext w.alm t.alm := ht.alm ▸ almFinish_context s.alm _
  have hjrn : t.jrn = s.jrn := by rw [ht.jrn, hrecs, jrnRecords_nil]
  have hdiffers (j : EntryIx) : t.alm.entries[j] = s.alm.entries[j] ↔ t.alm.entries[j].alarm = s.alm.entries[j].alarm := by
    refine ⟨congrArg _, fun heq => ?_⟩
    rw [hentry] at heq ⊢
    simp only at heq
    rw [if_pos heq, heq]
  have hattn := ht.attn.bit
  refine ⟨fun j => ?_, hcontext.present.trans h.context.present, hcontext.profile.trans h.context.profile, ?_, ?_, fun hch => ?_,
    fun hsame => ?_, ht.bay.bit, hjrn, ?_⟩
  · have hj : t.alm.entries[j].alarm = w.alm.entries[j].alarm := by rw [hentry]
    refine ⟨hj.trans (halarm j), ?_⟩
    rw [hj, hentry]
  · rw [ht.alm, almFinish_overflows, h.alm]
    rfl
  · rw [ht.alm, almFinish_outputs]
  · simp only [ne_eq, hdiffers] at hattn
    rwa [decide_eq_true hch, Bool.true_and] at hattn
  · simp only [ne_eq, hdiffers] at hattn
    rwa [decide_eq_false (by simpa using hsame), Bool.false_and, Bool.or_false] at hattn
  · intro q hq
    by_cases hj : q = .jrn
    · subst hj
      exact hjrn
    · exact ht.frame q fun hin => hq (by revert hin hj; cases q <;> decide)

theorem almAck_said (s : State) {is : List EntryIx} (his : is.Nodup) :
    EachSaid (fun j x => if j ∈ is then ackedAlarm x else x) s (settled (putAlm s (almAck s is))) :=
  eachSaid (foldl_passed (a := s.alm) (fun w i _ => ackEntry_eq w i) his (.refl _)) (settledAlm_said s _)

theorem almCutOff_said (s : State) :
    EachSaid (fun j x => if j ∈ List.finRange 128 then silencedAlarm x else x) s (settled (putAlm s (almCutOff s))) :=
  eachSaid (table_passed (a := s.alm) (fun w i _ => silenceEntry_eq w i) (.refl _)) (settledAlm_said s _)

/-! ### What a request leaves of the attention register (R159) -/

theorem request_bit {s u t : State} {k : SlotIx} {r : Request} {e : Result} {d : Nat} (hs : serving s k r = true)
    (howner : ownerOf k r s = (u, some (e, d))) (hexec : exec (r.command k) s = .next t) {b : Source} (hb : b ≠ .req) :
    t.hpi.attn.getLsbD (sourceBit b) = u.hpi.attn.getLsbD (sourceBit b) := by
  obtain ⟨hin, _, _⟩ := serving_iff.1 hs
  have hfinish : exec (r.command k) s = .next (finish u k e d) := by
    rw [exec_request, runRequest, if_pos hin, howner]
  rw [hfinish] at hexec
  obtain rfl := Host.Outcome.next.inj hexec
  have hattn : (finish u k e d).hpi.attn = (answer u k e d).hpi.attn := endExec_unchanged (answer u k e d) .attn (by decide)
  rw [hattn, answer_hpi, event_bit, decide_eq_false (Ne.symm hb), Bool.false_and, Bool.or_false]

/-- R161: a request whose owner changes each alarm by a map. -/
theorem request_each {s : State} {k : SlotIx} {r : Request} {d : Nat} {x : Alm × List Msg} {f : EntryIx → Alarm → Alarm}
    (hs : serving s k r = true) (howner : ownerOf k r s = done (settled (putAlm s x)) d) (hno : Msg.attn .req ∉ x.2)
    (hsaid : EachSaid f s (settled (putAlm s x))) :
    ∃ t, exec (r.command k) s = .next t ∧ Answered s t k .ok d s.mem ∧ (∀ i : EntryIx,
        t.alm.entries[i].alarm = s.alm.entries[i].alarm.map (f i) ∧ t.alm.entries[i].gen =
          if t.alm.entries[i].alarm = s.alm.entries[i].alarm then s.alm.entries[i].gen else s.alm.entries[i].gen + 2) ∧
      t.alm.present = s.alm.present ∧ t.alm.profile = s.alm.profile ∧ t.alm.overflows = s.alm.overflows ∧
      t.alm.outputs = formOutputs t.alm ∧
      ((∃ i : EntryIx, t.alm.entries[i].alarm ≠ s.alm.entries[i].alarm) →
        t.hpi.attn.getLsbD 2 = (s.hpi.attn.getLsbD 2 || s.hpi.mask.getLsbD 2)) ∧
      ((∀ i : EntryIx, t.alm.entries[i].alarm = s.alm.entries[i].alarm) → t.hpi.attn.getLsbD 2 = s.hpi.attn.getLsbD 2) ∧
      t.hpi.attn.getLsbD 3 = (s.hpi.attn.getLsbD 3 || (decide (t.alm.outputs ≠ s.alm.outputs) && s.hpi.mask.getLsbD 3)) ∧
      sameRqu s t ∧ unchangedBut [.alm, .attn, .choices, .rqu, .mem] s t := by
  obtain ⟨_, hbusy, hwf⟩ := serving_iff.1 hs
  obtain ⟨t, hexec, hanswered, hrqu, hframe⟩ := request_settled hs howner (x := putAlm s x) ⟨hbusy, rfl, rfl, rfl, rfl, hwf⟩ hno
    rfl ⟨rfl, rfl, rfl⟩
  have hbit2 : t.hpi.attn.getLsbD 2 = _ := request_bit hs howner hexec (b := .alm) (by decide)
  have hbit3 : t.hpi.attn.getLsbD 3 = _ := request_bit hs howner hexec (b := .bay) (by decide)
  have halm : t.alm = (settled (putAlm s x)).alm := hframe .alm (by decide)
  generalize settled (putAlm s x) = u at *
  obtain ⟨h1, h2, h3, h4, h5, h6, h7, h8, _, h10⟩ := hsaid
  refine ⟨t, hexec, hanswered, ?_⟩
  rw [halm, hbit2, hbit3]
  exact ⟨h1, h2, h3, h4, h5, h6, h7, h8, hrqu, unchangedBut_trans (unchangedBut_mono h10 (by decide))
    (unchangedBut_mono hframe (by decide))⟩

end Sys2Proof.Proofs
end

