-- ==== Sys2Proof/Proofs/AlarmBatches.lean ====
section
/-! A batch on the alarm table (R126, R130, R132 to R138): what becomes of every entry, and which conditions take one. -/

namespace Sys2Proof.Proofs

open Sys2Proof.Machine Sys2Proof.Safety Sys2Proof.Laws

/-! ### What a change makes present (R125) -/

theorem isPresent_iff (a : Alm) (t : CondType) (o : Nat) : a.isPresent t o = true ↔ (t, o) ∈ a.present := decide_eq_true_iff

theorem isPresent_after_offer (a : Alm) (t u : CondType) (o v : Nat) :
    (applyChange a (.offer t o)).isPresent u v = true ↔ a.isPresent u v = true ∨ (u, v) = (t, o) := by
  rw [isPresent_iff, isPresent_iff]
  exact (mem_insertCond _ _ _).trans or_comm

theorem isPresent_after_withdraw {a : Alm} (h : presentOk a.present = true) (t u : CondType) (o v : Nat) :
    (applyChange a (.withdraw t o)).isPresent u v = true ↔ a.isPresent u v = true ∧ (u, v) ≠ (t, o) := by
  rw [isPresent_iff, isPresent_iff]
  exact (List.Nodup.mem_erase_iff ((presentOk_iff _).1 h).1).trans and_comm

theorem isPresent_mono {a : Alm} {t : CondType} {o : Nat} {c : AlmChange} (h : (applyChange a c).isPresent t o = true)
    (hc : c ≠ .offer t o) : a.isPresent t o = true := by
  rw [isPresent_iff] at *
  cases c with
  | offer u k =>
    refine ((mem_insertCond _ _ _).1 h).resolve_left fun heq => hc ?_
    obtain ⟨rfl, rfl⟩ := Prod.mk.inj heq
    rfl
  | withdraw u k => exact List.mem_of_mem_erase h
  | drop u k => exact List.mem_of_mem_erase h
  | _ => exact h

/-- A condition absent before a batch that offers it is newly offered. -/
theorem offer_fresh {t : CondType} {o : Nat} (cs : List AlmChange) {a : Alm} (ha : a.isPresent t o = false)
    (h : .offer t o ∈ cs) : .offer t o ∈ freshOffers a cs := by
  induction cs generalizing a with
  | nil => cases h
  | cons c cs ih =>
    by_cases hc : c = .offer t o
    · subst hc
      simp [freshOffers, ha]
    · refine List.mem_append_right _ (ih ?_ ((List.mem_cons.1 h).resolve_left (Ne.symm hc)))
      exact Bool.eq_false_iff.2 fun hp => absurd (isPresent_mono hp hc) (Bool.eq_false_iff.1 ha)

/-- A condition absent before a batch and present after it is offered in it. -/
theorem offered_of_appears {t : CondType} {o : Nat} (cs : List AlmChange) {a : Alm} (ha : a.isPresent t o = false)
    (h : (cs.foldl applyChange a).isPresent t o = true) : .offer t o ∈ cs := by
  induction cs generalizing a with
  | nil => exact absurd h (Bool.eq_false_iff.1 ha)
  | cons c cs ih =>
    by_cases hc : c = .offer t o
    · exact hc ▸ List.mem_cons_self
    · refine List.mem_cons_of_mem _ (ih (Bool.eq_false_iff.2 fun hp => ?_) h)
      exact absurd (isPresent_mono hp hc) (Bool.eq_false_iff.1 ha)

theorem freshOffers_subset (cs : List AlmChange) (a : Alm) : ∀ c ∈ freshOffers a cs, c ∈ cs := by
  induction cs generalizing a with
  | nil => exact fun _ => nofun
  | cons d cs ih =>
    intro c hc
    rcases List.mem_append.1 hc with hc | hc
    · have hd : c = d := by
        revert hc
        cases d <;> simp
      exact hd ▸ List.mem_cons_self
    · exact List.mem_cons_of_mem _ (ih _ c hc)

theorem event_fresh {t : CondType} {o : Nat} {old new : Option Nat} (cs : List AlmChange) {a : Alm}
    (h : .event t o old new ∈ cs) : .event t o old new ∈ freshOffers a cs := by
  induction cs generalizing a with
  | nil => cases h
  | cons c cs ih =>
    rcases List.mem_cons.1 h with rfl | h
    · exact List.mem_append_left _ (List.mem_singleton.2 rfl)
    · exact List.mem_append_right _ (ih h)

theorem mem_newlyOffered {a : Alm} {cs : List AlmChange} {c : CondType × Nat} :
    c ∈ newlyOffered a cs ↔ .offer c.1 c.2 ∈ freshOffers a cs := by
  unfold newlyOffered
  rw [List.mem_filterMap]
  constructor
  · rintro ⟨d, hd, hc⟩
    cases d <;> simp only [Option.some.injEq, reduceCtorEq] at hc
    subst hc
    exact hd
  · exact fun h => ⟨_, h, rfl⟩

theorem mem_droppedConds {cs : List AlmChange} {t : CondType} {o : Nat} : (t, o) ∈ droppedConds cs ↔ .drop t o ∈ cs := by
  unfold droppedConds
  rw [List.mem_filterMap]
  constructor
  · rintro ⟨d, hd, hc⟩
    cases d <;> simp only [Option.some.injEq, reduceCtorEq, Prod.mk.injEq] at hc
    obtain ⟨rfl, rfl⟩ := hc
    exact hd
  · exact fun h => ⟨_, h, rfl⟩

/-! ### The EVENT records (R135) -/

theorem mem_eventRecords {before a : Alm} {cs : List AlmChange} {r : JBody} : r ∈ eventRecords before a cs ↔
    (∃ t o, r = .event t o none ∧ .offer t o ∈ freshOffers before cs ∧ (a.profileOf t).severity = .event ∧
      a.suppressed t o = false) ∨
    ∃ t o old new, r = .event t o (some (old, new)) ∧ .event t o old new ∈ cs ∧ (a.profileOf t).severity = .event := by
  unfold eventRecords
  rw [List.mem_filterMap]
  constructor
  · rintro ⟨d, hd, hr⟩
    cases d with
    | offer t o =>
      simp only [Option.ite_none_right_eq_some, Bool.and_eq_true, decide_eq_true_eq, Bool.not_eq_true', Option.some.injEq] at hr
      obtain ⟨⟨hev, hsup⟩, rfl⟩ := hr
      exact .inl ⟨t, o, rfl, hd, hev, hsup⟩
    | event t o old new =>
      simp only [Option.ite_none_right_eq_some, Option.some.injEq] at hr
      obtain ⟨hev, rfl⟩ := hr
      exact .inr ⟨t, o, old, new, rfl, freshOffers_subset cs before _ hd, hev⟩
    | _ => cases hr
  · rintro (⟨t, o, rfl, hd, hev, hsup⟩ | ⟨t, o, old, new, rfl, hd, hev⟩)
    · exact ⟨_, hd, by simp [hev, hsup]⟩
    · exact ⟨_, event_fresh cs hd, by simp [hev]⟩

/-! ### Candidates, one after the other (R132, R138) -/

theorem takenAlarm_congr (s : State) {a b : Alm} (h : SameContext a b) (t : CondType) (o : Nat) :
    takenAlarm s b t o = takenAlarm s a t o := by simp only [takenAlarm, h.gradeOf, h.profileOf]

theorem takenRecs_congr (s : State) {a b : Alm} (h : SameContext a b) (i : EntryIx) (t : CondType) (o : Nat) :
    takenRecs s b i t o = takenRecs s a i t o := by simp only [takenRecs, h.gradeOf, h.profileOf]

/-- Some entry is FREE. -/
def Room (a : Alm) : Prop := ∃ j : EntryIx, a.entries[j].alarm = none

theorem not_room {a : Alm} : a.lowestFree = none ↔ ¬Room a := by
  rw [lowestFree_eq_none, Room, not_exists]

/-- What a run of candidates leaves, whether or not the table fills up. -/
structure Ran (s : State) (a : Alm) (cs : List (CondType × Nat)) (w w' : AlmWork) : Prop where
  origin : ∀ (i : EntryIx) y, w'.alm.entries[i].alarm = some y →
    w.alm.entries[i].alarm = some y ∨ ∃ c ∈ cs, y = takenAlarm s a c.1 c.2
  shown  : ∀ (i : EntryIx) y, w.alm.entries[i].alarm = some y → y.shown = true → w'.alm.entries[i].alarm = some y
  recs   : ∃ on, w'.recs = w.recs ++ on ∧ ∀ r ∈ on, ∃ i t o v n, r = .alarmOn i t o v n
  filled : ∀ i : EntryIx, w.alm.entries[i].alarm ≠ none → w'.alm.entries[i].alarm ≠ none
  context : SameContext w.alm w'.alm

theorem takenRecs_on (s : State) (a : Alm) (i : EntryIx) (t : CondType) (o : Nat) :
    ∀ r ∈ takenRecs s a i t o, ∃ i t o v n, r = .alarmOn i t o v n := by
  intro r hr
  unfold takenRecs at hr
  split at hr
  · exact ⟨_, _, _, _, _, List.mem_singleton.1 hr⟩
  · cases hr

theorem takes_ran {s : State} {a : Alm} {w w' : AlmWork} {c : CondType × Nat} (ha : SameContext a w.alm)
    (h : Takes s w c w') : Ran s a [c] w w' := by
  have halarm := takenAlarm_congr s ha c.1 c.2
  have hput {i : EntryIx} (hi : ∀ y, w.alm.entries[i].alarm = some y → y.shown = false) :
      (∀ (j : EntryIx) y, (putAlarm w i (takenAlarm s w.alm c.1 c.2)).alm.entries[j].alarm = some y →
        w.alm.entries[j].alarm = some y ∨ ∃ d ∈ [c], y = takenAlarm s a d.1 d.2) ∧
      (∀ (j : EntryIx) y, w.alm.entries[j].alarm = some y → y.shown = true →
        (putAlarm w i (takenAlarm s w.alm c.1 c.2)).alm.entries[j].alarm = some y) ∧
      (∀ j : EntryIx, w.alm.entries[j].alarm ≠ none →
        (putAlarm w i (takenAlarm s w.alm c.1 c.2)).alm.entries[j].alarm ≠ none) := by
    refine ⟨fun j y hy => ?_, fun j y hy hs => ?_, fun j hj => ?_⟩
    · rw [putAlarm_alarm] at hy
      split at hy
      · exact .inr ⟨c, List.mem_singleton.2 rfl, (Option.some.inj hy).symm.trans halarm⟩
      · exact .inl hy
    · rw [putAlarm_alarm]
      split
      · next hj =>
        subst hj
        rw [hi y hy] at hs
        cases hs
      · exact hy
    · rw [putAlarm_alarm]
      split
      · nofun
      · exact hj
  have hcontext := h.context
  cases h with
  | free i hfree =>
    obtain ⟨h1, h2, h3⟩ := hput (i := i) fun y hy => by
      rw [(lowestFree_eq_some hfree).1] at hy
      cases hy
    exact ⟨h1, h2, ⟨_, rfl, takenRecs_on s w.alm i c.1 c.2⟩, h3, hcontext⟩
  | displaces hfull i x hfirst hx hs hrank =>
    obtain ⟨h1, h2, h3⟩ := hput (i := i) fun y hy => by
      obtain rfl := Option.some.inj (hx.symm.trans hy)
      exact hs
    exact ⟨h1, h2, ⟨_, rfl, takenRecs_on s w.alm i c.1 c.2⟩, h3, hcontext⟩
  | counted hfull hnone =>
    exact ⟨fun _ _ hy => .inl hy, fun _ _ hy _ => hy, ⟨[], (List.append_nil _).symm, fun _ => nofun⟩, fun _ hi => hi, hcontext⟩

theorem takeCandidates_ran (s : State) {a : Alm} (cs : List (CondType × Nat)) {w : AlmWork} (ha : SameContext a w.alm) :
    Ran s a cs w (cs.foldl (takeCandidate s) w) := by
  induction cs generalizing w with
  | nil =>
    exact ⟨fun _ _ hy => .inl hy, fun _ _ hy _ => hy, ⟨[], (List.append_nil _).symm, fun _ => nofun⟩, fun _ hi => hi, .refl _⟩
  | cons c cs ih =>
    obtain ⟨horigin, hshown, ⟨on, hon, hons⟩, hfilled, hcontext⟩ := takes_ran ha (takeCandidate_takes s w c)
    obtain ⟨horigin', hshown', ⟨on', hon', hons'⟩, hfilled', hcontext'⟩ := ih (ha.trans hcontext)
    refine ⟨fun i y hy => ?_, fun i y hy hs => hshown' i y (hshown i y hy hs) hs, ⟨on ++ on', ?_, ?_⟩,
      fun i hi => hfilled' i (hfilled i hi), hcontext.trans hcontext'⟩
    · rcases horigin' i y hy with hy | ⟨d, hd, hy⟩
      · rcases horigin i y hy with hy | ⟨d, hd, hy⟩
        · exact .inl hy
        · exact .inr ⟨d, List.mem_singleton.1 hd ▸ List.mem_cons_self, hy⟩
      · exact .inr ⟨d, List.mem_cons_of_mem _ hd, hy⟩
    · rw [List.foldl_cons, hon', hon, List.append_assoc]
    · exact fun r hr => (List.mem_append.1 hr).elim (hons r) (hons' r)

/-- What a run of candidates leaves when some entry is FREE at its end: each candidate took the lowest FREE entry. -/
structure Filled (s : State) (a : Alm) (cs : List (CondType × Nat)) (w w' : AlmWork) : Prop where
  kept   : ∀ (i : EntryIx) y, w.alm.entries[i].alarm = some y → w'.alm.entries[i].alarm = some y
  takes  : ∀ c ∈ cs, ∃ i : EntryIx, w'.alm.entries[i].alarm = some (takenAlarm s a c.1 c.2) ∧
    ∀ r ∈ takenRecs s a i c.1 c.2, r ∈ w'.recs
  lowest : ∀ (i : EntryIx) y, w.alm.entries[i].alarm = none → w'.alm.entries[i].alarm = some y →
    ∀ j : EntryIx, j < i → w'.alm.entries[j].alarm ≠ none
  order  : (cs.Pairwise fun c d => condKey c ≤ condKey d) → ∀ (i j : EntryIx) x y, w.alm.entries[i].alarm = none →
    w.alm.entries[j].alarm = none → w'.alm.entries[i].alarm = some x → w'.alm.entries[j].alarm = some y → j < i →
    condKey (y.type, y.obj) ≤ condKey (x.type, x.obj)
  counts : w'.alm.overflows = w.alm.overflows

theorem takeCandidates_filled (s : State) {a : Alm} (cs : List (CondType × Nat)) {w : AlmWork} (ha : SameContext a w.alm)
    (hroom : Room (cs.foldl (takeCandidate s) w).alm) : Filled s a cs w (cs.foldl (takeCandidate s) w) := by
  induction cs generalizing w with
  | nil =>
    refine ⟨fun _ _ hy => hy, fun _ => nofun, fun i y hn hy => ?_, fun _ i j x y hn _ hx _ _ => ?_, rfl⟩
    · rw [List.foldl_nil, hn] at hy
      cases hy
    · rw [List.foldl_nil, hn] at hx
      cases hx
  | cons c cs ih =>
    have htakes := takeCandidate_takes s w c
    have hran := takeCandidates_ran s cs (w := takeCandidate s w c) (.refl _)
    have hran1 := takes_ran (.refl _) htakes
    rw [List.foldl_cons] at hroom ⊢
    have hfree : ∃ i, w.alm.lowestFree = some i := by
      obtain ⟨j, hj⟩ := hroom
      cases hl : w.alm.lowestFree with
      | some i => exact ⟨i, rfl⟩
      | none => exact absurd hj (hran.filled j (hran1.filled j (lowestFree_eq_none.1 hl j)))
    obtain ⟨i0, hi0⟩ := hfree
    obtain ⟨hnone, hlow⟩ := lowestFree_eq_some hi0
    have heq : takeCandidate s w c = { putAlarm w i0 (takenAlarm s w.alm c.1 c.2) with
        recs := w.recs ++ takenRecs s w.alm i0 c.1 c.2 } := by
      simp only [takeCandidate, hi0, takeEntry_eq]
    have hget (j : EntryIx) : (takeCandidate s w c).alm.entries[j].alarm =
        if j = i0 then some (takenAlarm s a c.1 c.2) else w.alm.entries[j].alarm := by
      rw [heq, ← takenAlarm_congr s ha]
      exact putAlarm_alarm w i0 _ j
    obtain ⟨hkept, htaken, hlowest, horder, hcounts⟩ := ih (ha.trans hran1.context) hroom
    have hlast : (cs.foldl (takeCandidate s) (takeCandidate s w c)).alm.entries[i0].alarm =
        some (takenAlarm s a c.1 c.2) := hkept i0 _ (by rw [hget, if_pos rfl])
    refine ⟨fun i y hy => hkept i y ?_, fun d hd => ?_, fun i y hn hy j hj => ?_, fun hsorted i j x y hi hj hx hy hlt => ?_, ?_⟩
    · rw [hget, if_neg]
      · exact hy
      · rintro rfl
        rw [hnone] at hy
        cases hy
    · rcases List.mem_cons.1 hd with rfl | hd
      · refine ⟨i0, hlast, fun r hr => ?_⟩
        obtain ⟨on, hon, _⟩ := hran.recs
        rw [hon, heq, ← takenRecs_congr s ha] at *
        exact List.mem_append_left _ (List.mem_append_right _ hr)
      · exact htaken d hd
    · by_cases hi : i = i0
      · subst hi
        exact hran.filled j (by rw [hget, if_neg hj.ne]; exact hlow j hj)
      · exact hlowest i y (by rw [hget, if_neg hi]; exact hn) hy j hj
    · obtain ⟨hfirst, hrest⟩ := List.pairwise_cons.1 hsorted
      have hine : i ≠ i0 := by
        rintro rfl
        exact hlow j hlt hj
      by_cases hje : j = i0
      · subst hje
        obtain rfl := Option.some.inj (hlast.symm.trans hy)
        rcases (takeCandidates_ran s cs (ha.trans hran1.context)).origin i x hx with hx | ⟨d, hd, rfl⟩
        · rw [hget, if_neg hine, hi] at hx
          cases hx
        · exact hfirst d hd
      · exact horder hrest i j x y (by rw [hget, if_neg hine]; exact hi) (by rw [hget, if_neg hje]; exact hj) hx hy hlt
    · rw [hcounts, heq]
      rfl


/-! ### The fate of an entry (R130, R134, R137) -/

section
variable {s : State} {before a : Alm} {events : List JBody} {offered dropped : List (CondType × Nat)}

theorem gradedAlarm_congr {b : Alm} (h : SameContext a b) (x : Alarm) : gradedAlarm s b x = gradedAlarm s a x := by
  simp only [gradedAlarm, h.gradeOf]

theorem gradedWork_alarm (i : EntryIx) : (gradedWork s a events dropped).alm.entries[i].alarm =
    (a.entries[i].alarm.bind fun x => (moveOf a dropped x).toOption).map (gradedAlarm s a) := by
  rw [(gradedWork_passed s a events dropped).alarm i, (movedWork_passed a events dropped).alarm i]
  have hcongr : gradedAlarm s (movedWork a events dropped).alm = gradedAlarm s a :=
    funext fun x => gradedAlarm_congr (movedWork_passed a events dropped).context x
  change Option.map (gradedAlarm s (movedWork a events dropped).alm) _ = _
  rw [hcongr]
  rfl

/-- The records of the entries that go. -/
def goneRecs (a : Alm) (dropped : List (CondType × Nat)) : List JBody :=
  (List.finRange 128).flatMap fun i => (moveRule a dropped).recs i a.entries[i].alarm

/-- The records of the entries whose severity or mark changes. -/
def severityRecs (s : State) (a : Alm) (dropped : List (CondType × Nat)) : List JBody :=
  (List.finRange 128).flatMap fun i =>
    (gradeRule s a).recs i (a.entries[i].alarm.bind fun x => (moveOf a dropped x).toOption)

theorem gradeRule_congr {b : Alm} (h : SameContext a b) : (gradeRule s b).recs = (gradeRule s a).recs := by
  funext i x
  simp only [gradeRule, h.gradeOf]

theorem gradedWork_recs : (gradedWork s a events dropped).recs = events ++ goneRecs a dropped ++ severityRecs s a dropped := by
  rw [(gradedWork_passed s a events dropped).recs, (movedWork_passed a events dropped).recs,
    gradeRule_congr (movedWork_passed a events dropped).context]
  simp only [(movedWork_passed a events dropped).alarm]
  rfl

/-- R130, R134, R137: the records an event of ALM writes, by their kinds. -/
theorem mem_goneRecs {r : JBody} : r ∈ goneRecs a dropped ↔ ∃ (i : EntryIx) (x : Alarm) (reason : OffReason),
    a.entries[i].alarm = some x ∧ x.shown = true ∧ moveOf a dropped x = .error reason ∧
    r = .alarmOff i x.type x.obj x.severity reason := by
  unfold goneRecs
  rw [List.mem_flatMap]
  constructor
  · rintro ⟨i, _, hr⟩
    cases hx : a.entries[i].alarm with
    | none =>
      rw [hx] at hr
      cases hr
    | some x =>
      simp only [moveRule, hx] at hr
      cases hm : moveOf a dropped x with
      | ok y =>
        rw [hm] at hr
        cases hr
      | error reason =>
        rw [hm] at hr
        simp only [List.mem_ite_nil_right, List.mem_singleton] at hr
        exact ⟨i, x, reason, hx, hr.1, hm, hr.2⟩
  · rintro ⟨i, x, reason, hx, hs, hm, rfl⟩
    refine ⟨i, List.mem_finRange i, ?_⟩
    simp only [moveRule, hx, hm, hs, if_true, List.mem_singleton]

theorem mem_severityRecs {r : JBody} : r ∈ severityRecs s a dropped ↔ ∃ (i : EntryIx) (x y : Alarm),
    a.entries[i].alarm = some x ∧ moveOf a dropped x = .ok y ∧ y.shown = true ∧
    ¬((gradeOf s a y.type y.obj).1 = y.severity ∧ (gradeOf s a y.type y.obj).2 = y.nsa) ∧
    r = .severity i y.type y.obj y.severity (gradeOf s a y.type y.obj).1 (gradeOf s a y.type y.obj).2 := by
  unfold severityRecs
  rw [List.mem_flatMap]
  constructor
  · rintro ⟨i, _, hr⟩
    cases hx : a.entries[i].alarm with
    | none =>
      rw [hx] at hr
      cases hr
    | some x =>
      cases hm : moveOf a dropped x with
      | error reason =>
        rw [hx, Option.bind_some, hm] at hr
        cases hr
      | ok y =>
        rw [hx, Option.bind_some, hm] at hr
        simp only [gradeRule, Except.toOption] at hr
        split at hr
        · cases hr
        · next hno =>
          obtain ⟨hdiff, hs⟩ := not_or.1 hno
          exact ⟨i, x, y, hx, hm, by simpa using hs, hdiff, List.mem_singleton.1 hr⟩
  · rintro ⟨i, x, y, hx, hm, hs, hdiff, rfl⟩
    refine ⟨i, List.mem_finRange i, ?_⟩
    rw [hx, Option.bind_some, hm]
    simp only [gradeRule, Except.toOption]
    rw [if_neg (not_or.2 ⟨hdiff, by rw [hs]; decide⟩)]
    exact List.mem_singleton.2 rfl

theorem takenWork_ran : Ran s a (candidates before (gradedWork s a events dropped).alm offered) (gradedWork s a events dropped)
    (takenWork s before a events offered dropped) := takeCandidates_ran s _ (gradedWork_context s a events dropped)

theorem takenWork_filled (h : Room (takenWork s before a events offered dropped).alm) :
    Filled s a (candidates before (gradedWork s a events dropped).alm offered) (gradedWork s a events dropped)
      (takenWork s before a events offered dropped) :=
  takeCandidates_filled s _ (gradedWork_context s a events dropped) h

theorem mem_takenWork_recs {r : JBody} (h : r ∈ events ∨ r ∈ goneRecs a dropped ∨ r ∈ severityRecs s a dropped) :
    r ∈ (takenWork s before a events offered dropped).recs := by
  obtain ⟨on, hon, _⟩ := (takenWork_ran (s := s) (before := before) (a := a) (events := events) (offered := offered)
    (dropped := dropped)).recs
  rw [hon, gradedWork_recs]
  simp only [List.mem_append]
  rcases h with h | h | h
  · exact .inl (.inl (.inl h))
  · exact .inl (.inl (.inr h))
  · exact .inl (.inr h)

theorem of_mem_takenWork_recs {r : JBody} (h : r ∈ (takenWork s before a events offered dropped).recs) :
    r ∈ events ∨ r ∈ goneRecs a dropped ∨ r ∈ severityRecs s a dropped ∨ ∃ i t o v n, r = .alarmOn i t o v n := by
  obtain ⟨on, hon, hons⟩ := (takenWork_ran (s := s) (before := before) (a := a) (events := events) (offered := offered)
    (dropped := dropped)).recs
  rw [hon, gradedWork_recs] at h
  simp only [List.mem_append] at h
  rcases h with ((h | h) | h) | h
  · exact .inl h
  · exact .inr (.inl h)
  · exact .inr (.inr (.inl h))
  · exact .inr (.inr (.inr (hons r h)))

theorem audibleAfter_congr {x : Alarm} {st : AlarmState} (h : ({ x with state := st } : Alarm).shown = x.shown) (v : Severity) :
    audibleAfter { x with state := st } v = audibleAfter x v := by
  simp only [audibleAfter, h]

/-- R143: whether an alarm rings after a change of its severity. -/
theorem audibleAfter_cases {x : Alarm} (h : audibleOk x = true) (v : Severity) :
    (v = x.severity → audibleAfter x v = x.audible) ∧ (v = .min → audibleAfter x v = false) ∧
    (x.severity = .min → v = .crit ∨ v = .maj → x.shown = true → audibleAfter x v = !x.ack) ∧
    (x.severity = .crit ∨ x.severity = .maj → v = .crit ∨ v = .maj → audibleAfter x v = x.audible) := by
  have hloud {v : Severity} (hv : v = .crit ∨ v = .maj) : v.rings = true := by rcases hv with rfl | rfl <;> rfl
  have hquiet (hr : x.severity.rings = false) : x.audible = false := by
    rw [audibleOk_iff, hr] at h
    simpa using h
  refine ⟨fun hv => ?_, fun hv => ?_, fun hmin hv hs => ?_, fun hx hv => ?_⟩
  · subst hv
    unfold audibleAfter
    cases hr : x.severity.rings with
    | true => simp
    | false => rw [hquiet hr]; rfl
  · subst hv
    rfl
  · have hsilent : x.audible = false := hquiet (by rw [hmin]; rfl)
    have hlow : x.severity.rings = false := by rw [hmin]; rfl
    simp only [audibleAfter, hloud hv, hs, hlow, hsilent]
    cases x.ack <;> rfl
  · simp only [audibleAfter, hloud hv, hloud hx]
    simp

/-- Shown entries are never displaced, and none is while an entry is FREE. -/
theorem kept_of (i : EntryIx) (x : Alarm) (hstay : x.shown = true ∨ Room (takenWork s before a events offered dropped).alm)
    {y : Alarm} (hy : y.shown = x.shown) (hg : (gradedWork s a events dropped).alm.entries[i].alarm = some y) :
    (takenWork s before a events offered dropped).alm.entries[i].alarm = some y := by
  rcases hstay with hs | hroom
  · exact takenWork_ran.shown i y hg (hy.trans hs)
  · exact (takenWork_filled hroom).kept i y hg

section
variable {i : EntryIx} {x : Alarm} (hx : a.entries[i].alarm = some x)
include hx

/-- An entry that goes, its condition being none that the event makes a candidate. -/
theorem gone_said {reason : OffReason} (htwins : NoTwins a) (hmove : moveOf a dropped x = .error reason)
    (hno : ¬Eligible a (x.type, x.obj)) :
    (∀ (j : EntryIx) y, (takenWork s before a events offered dropped).alm.entries[j].alarm = some y →
      (y.type, y.obj) ≠ (x.type, x.obj)) ∧
    (x.shown = true → .alarmOff i x.type x.obj x.severity reason ∈ (takenWork s before a events offered dropped).recs) ∧
    (x.shown = false → (∀ any, JBody.alarmOff i x.type x.obj x.severity any ∉ events) →
      ∀ any, JBody.alarmOff i x.type x.obj x.severity any ∉ (takenWork s before a events offered dropped).recs) := by
  refine ⟨fun j y hy heq => ?_, fun hs => ?_, fun hs hev any hin => ?_⟩
  · rcases takenWork_ran.origin j y hy with hy | ⟨c, hc, rfl⟩
    · rw [gradedWork_alarm] at hy
      obtain ⟨z, hz, rfl⟩ := Option.map_eq_some_iff.1 hy
      obtain ⟨x', hx', hm⟩ := Option.bind_eq_some_iff.1 hz
      cases hm' : moveOf a dropped x' with
      | error e =>
        rw [hm'] at hm
        cases hm
      | ok z' =>
        rw [hm'] at hm
        obtain rfl := Option.some.inj hm
        obtain ⟨⟨st, rfl, _⟩, _⟩ := moveOf_ok hm'
        obtain ⟨au, hg, _⟩ := gradedAlarm_eq s a { x' with state := st }
        rw [hg] at heq
        obtain ⟨ht, ho⟩ := Prod.mk.inj heq
        obtain rfl := htwins j i x' x hx' hx ht ho
        obtain rfl := Option.some.inj (hx.symm.trans hx')
        rw [hm'] at hmove
        cases hmove
    · have helig := (mem_candidates hc).1.congr (gradedWork_context s a events dropped).symm
      have heq : c = (x.type, x.obj) := heq
      exact hno (heq ▸ helig)
  · exact mem_takenWork_recs (.inr (.inl (mem_goneRecs.2 ⟨i, x, reason, hx, hs, hmove, rfl⟩)))
  · rcases of_mem_takenWork_recs hin with h | h | h | ⟨_, _, _, _, _, h⟩
    · exact hev any h
    · obtain ⟨j, y, e, hy, hys, _, heq⟩ := mem_goneRecs.1 h
      obtain rfl := Fin.ext (JBody.alarmOff.inj heq).1
      obtain rfl := Option.some.inj (hx.symm.trans hy)
      rw [hs] at hys
      cases hys
    · obtain ⟨_, _, _, _, _, _, _, heq⟩ := mem_severityRecs.1 h
      cases heq
    · cases h

/-- An entry that stays, no candidate displacing it. -/
theorem stays_said {st : AlarmState} (haud : audibleOk x = true) (hmove : moveOf a dropped x = .ok { x with state := st })
    (hshown : ({ x with state := st } : Alarm).shown = x.shown)
    (hkeep : ∀ y : Alarm, y.shown = x.shown → (gradedWork s a events dropped).alm.entries[i].alarm = some y →
      (takenWork s before a events offered dropped).alm.entries[i].alarm = some y) :
    ∃ y, (takenWork s before a events offered dropped).alm.entries[i].alarm = some y ∧
      y = { x with state := st, severity := y.severity, nsa := y.nsa, audible := y.audible } ∧
      (y.severity, y.nsa) = gradeOf s a x.type x.obj ∧
      (y.severity = x.severity → y.audible = x.audible) ∧ (y.severity = .min → y.audible = false) ∧
      (x.severity = .min → y.severity = .crit ∨ y.severity = .maj → x.shown = true → y.audible = !x.ack) ∧
      (x.severity = .crit ∨ x.severity = .maj → y.severity = .crit ∨ y.severity = .maj → y.audible = x.audible) ∧
      (y.severity ≠ x.severity ∨ y.nsa ≠ x.nsa → x.shown = true →
        .severity i x.type x.obj x.severity y.severity y.nsa ∈ (takenWork s before a events offered dropped).recs) := by
  have hgraded : (gradedWork s a events dropped).alm.entries[i].alarm = some (gradedAlarm s a { x with state := st }) := by
    rw [gradedWork_alarm, hx, Option.bind_some, hmove]
    rfl
  have haud' : audibleOk { x with state := st } = true := by
    rw [audibleOk_iff] at haud ⊢
    rw [hshown]
    exact haud
  obtain ⟨au, heq, _⟩ := gradedAlarm_eq s a { x with state := st }
  have hau := gradedAlarm_audible s a haud'
  have hlast : (takenWork s before a events offered dropped).alm.entries[i].alarm =
      some (gradedAlarm s a { x with state := st }) := hkeep _ (by rw [heq]; exact hshown) hgraded
  rw [audibleAfter_congr hshown] at hau
  rw [heq] at hau hlast
  obtain ⟨hsame, hmin, hrise, hloud⟩ := audibleAfter_cases haud (gradeOf s a x.type x.obj).1
  have hau : au = audibleAfter x (gradeOf s a x.type x.obj).1 := hau
  rw [← hau] at hsame hmin hrise hloud
  refine ⟨_, hlast, rfl, rfl, hsame, hmin, hrise, hloud, fun hdiff hs => ?_⟩
  refine mem_takenWork_recs (.inr (.inr (mem_severityRecs.2 ⟨i, x, { x with state := st }, hx, hmove, hshown.trans hs, ?_, rfl⟩)))
  exact fun heq => hdiff.elim (fun h => h heq.1) fun h => h heq.2

end

end

end Sys2Proof.Proofs
end

