-- ==== Sys2Proof/Proofs/AlarmSoaks.lean ====
section
/-! The soaks, the batches and the bay outputs (R126, R130 to R143). -/

namespace Sys2Proof.Proofs

open Sys2Proof.Machine Sys2Proof.Safety Sys2Proof.Laws

/-! ### What becomes of an entry, case by case (R130, R134) -/

section
variable {a : Alm} {dropped : List (CondType × Nat)} {x : Alarm} (htab : (a.profileOf x.type).severity.tabled = true)
include htab

theorem moveOf_suppressed (hsup : a.suppressed x.type x.obj = true) : moveOf a dropped x = .error .suppressed := by
  simp [moveOf, htab, hsup]

variable (hsup : a.suppressed x.type x.obj = false)
include hsup

theorem moveOf_present (hpres : a.isPresent x.type x.obj = true) : moveOf a dropped x = .ok { x with state := returned x.state } := by
  simp [moveOf, htab, hsup, hpres]

variable (hpres : a.isPresent x.type x.obj = false)
include hpres

theorem moveOf_dropped (hdrop : (x.type, x.obj) ∈ dropped) : moveOf a dropped x = .error .dropped := by
  simp [moveOf, htab, hsup, hpres, hdrop]

variable (hdrop : (x.type, x.obj) ∉ dropped)
include hdrop

theorem moveOf_pending {n : Nat} (hst : x.state = .pending n) : moveOf a dropped x = .error .cleared := by
  simp [moveOf, htab, hsup, hpres, hdrop, hst]

theorem moveOf_active_zero (hst : x.state = .active) (hclear : (a.profileOf x.type).clear = 0) :
    moveOf a dropped x = .error .cleared := by
  simp [moveOf, htab, hsup, hpres, hdrop, hst, hclear]

theorem moveOf_active (hst : x.state = .active) (hclear : (a.profileOf x.type).clear ≠ 0) :
    moveOf a dropped x = .ok { x with state := .clearing ((a.profileOf x.type).clear * perMs) } := by
  simp [moveOf, htab, hsup, hpres, hdrop, hst, hclear]

theorem moveOf_clearing {n : Nat} (hst : x.state = .clearing n) : moveOf a dropped x = .ok x := by
  simp [moveOf, htab, hsup, hpres, hdrop, hst]

end

/-! ### A batch as work on the table -/

/-- ALM with the present set and the copies as the batch makes them. -/
def batchAlm (s : State) (batch : List AlmChange) : Alm := batch.foldl applyChange s.alm

/-- The batch's EVENT records. -/
def batchEvents (s : State) (batch : List AlmChange) : List JBody := eventRecords s.alm (batchAlm s batch) batch

/-- The batch's work once its candidates have taken their entries. -/
def batchWork (s : State) (batch : List AlmChange) : AlmWork :=
  takenWork s s.alm (batchAlm s batch) (batchEvents s batch) (newlyOffered s.alm batch) (droppedConds batch)

/-- The batch's work before its candidates take their entries. -/
def batchGraded (s : State) (batch : List AlmChange) : AlmWork :=
  gradedWork s (batchAlm s batch) (batchEvents s batch) (droppedConds batch)

/-- The batch's candidates. -/
def batchCandidates (s : State) (batch : List AlmChange) : List (CondType × Nat) :=
  candidates s.alm (batchGraded s batch).alm (newlyOffered s.alm batch)

section
variable (s : State) (batch : List AlmChange)

theorem almBatch_eq : almBatch s batch = almFinish s.alm (batchWork s batch) := rfl

theorem batchWork_ran : Ran s (batchAlm s batch) (batchCandidates s batch) (batchGraded s batch) (batchWork s batch) :=
  takenWork_ran (s := s) (before := s.alm) (a := batchAlm s batch) (events := batchEvents s batch)
    (offered := newlyOffered s.alm batch) (dropped := droppedConds batch)

theorem batchWork_filled (h : Room (batchWork s batch).alm) :
    Filled s (batchAlm s batch) (batchCandidates s batch) (batchGraded s batch) (batchWork s batch) :=
  takenWork_filled (s := s) (before := s.alm) (a := batchAlm s batch) (events := batchEvents s batch)
    (offered := newlyOffered s.alm batch) (dropped := droppedConds batch) h

theorem batchGraded_context : SameContext (batchAlm s batch) (batchGraded s batch).alm :=
  gradedWork_context s (batchAlm s batch) (batchEvents s batch) (droppedConds batch)

theorem batchAlm_kept : (batchAlm s batch).entries = s.alm.entries ∧ (batchAlm s batch).profile = s.alm.profile ∧
    (batchAlm s batch).overflows = s.alm.overflows := by
  obtain ⟨ps, st, hd, tp, gs, heq⟩ := applyChanges_eq batch s.alm
  have heq : batchAlm s batch = _ := heq
  rw [heq]
  exact ⟨rfl, rfl, rfl⟩

theorem almBatch_alarm (j : EntryIx) : (almBatch s batch).1.entries[j].alarm = (batchWork s batch).alm.entries[j].alarm :=
  almFinish_alarm s.alm (batchWork s batch) j

theorem almBatch_room : Room (almBatch s batch).1 ↔ Room (batchWork s batch).alm := by
  unfold Room
  simp only [almBatch_alarm]

theorem almBatch_reads : SameContext (batchAlm s batch) (almBatch s batch).1 := almBatch_context s batch

/-- R138: a batch that leaves an entry FREE moves no overflow count and clears the flag. -/
theorem almBatch_overflow (h : Room (almBatch s batch).1) :
    (almBatch s batch).1.overflows = s.alm.overflows ∧ (almBatch s batch).1.overflow = false := by
  have hroom := (almBatch_room s batch).1 h
  obtain ⟨j, hj⟩ := hroom
  rw [almBatch_eq, almFinish_overflows, almFinish_overflow]
  refine ⟨?_, ?_⟩
  · have hcounts := (batchWork_filled s batch ((almBatch_room s batch).1 h)).counts
    have hgraded : (batchGraded s batch).alm.overflows = (batchAlm s batch).overflows := by
      unfold batchGraded
      rw [(gradedWork_passed s _ _ _).alm, (movedWork_passed _ _ _).alm]
    exact hcounts.trans (hgraded.trans (batchAlm_kept s batch).2.2)
  · have hsome := lowestFree_isSome hj
    rw [Option.isNone_eq_false_iff.2 hsome, Bool.and_false]

end

section
variable {s : State} {a : Alm} {events : List JBody} {dropped : List (CondType × Nat)}

/-- A graded entry is that of a condition that had one. -/
theorem gradedWork_origin {i : EntryIx} {y : Alarm} (hy : (gradedWork s a events dropped).alm.entries[i].alarm = some y) :
    ∃ x, a.entries[i].alarm = some x ∧ (y.type, y.obj) = (x.type, x.obj) ∧ (y.severity, y.nsa) = gradeOf s a y.type y.obj := by
  rw [gradedWork_alarm] at hy
  obtain ⟨z, hz, rfl⟩ := Option.map_eq_some_iff.1 hy
  obtain ⟨x, hx, hm⟩ := Option.bind_eq_some_iff.1 hz
  cases hm' : moveOf a dropped x with
  | error e =>
    rw [hm'] at hm
    cases hm
  | ok z' =>
    rw [hm'] at hm
    obtain rfl := Option.some.inj hm
    obtain ⟨⟨st, rfl, _⟩, _⟩ := moveOf_ok hm'
    obtain ⟨au, hg, _⟩ := gradedAlarm_eq s a { x with state := st }
    rw [hg]
    exact ⟨x, hx, rfl, rfl⟩

theorem gradedWork_noEntry {c : CondType × Nat} (h : NoEntry a c) : NoEntry (gradedWork s a events dropped).alm c := by
  intro i y hy
  obtain ⟨x, hx, heq, _⟩ := gradedWork_origin hy
  rw [heq]
  exact h i x hx

/-- R137: after an event of ALM that forms severities, every entry has that which coverage gives. -/
theorem takenWork_graded {before : Alm} {offered : List (CondType × Nat)} {i : EntryIx} {y : Alarm}
    (hy : (takenWork s before a events offered dropped).alm.entries[i].alarm = some y) :
    (y.severity, y.nsa) = gradeOf s a y.type y.obj := by
  rcases takenWork_ran.origin i y hy with hy | ⟨c, _, rfl⟩
  · obtain ⟨_, _, _, hg⟩ := gradedWork_origin hy
    exact hg
  · rfl

/-- R132: a present condition without an entry that is tabled and not suppressed is a candidate, if it is newly offered, was
suppressed or was not tabled. -/
theorem candidate_of {before : Alm} {offered : List (CondType × Nat)} {c : CondType × Nat} (helig : Eligible a c)
    (hno : NoEntry a c) (hwhy : c ∈ offered ∨ before.suppressed c.1 c.2 = true ∨ (before.profileOf c.1).severity.tabled = false) :
    c ∈ candidates before (gradedWork s a events dropped).alm offered := by
  obtain ⟨htab, hsup, hpres⟩ := helig.congr (gradedWork_context s a events dropped)
  have hnone := (hasEntry_eq_false _ _ _).2 (gradedWork_noEntry (s := s) (events := events) (dropped := dropped) hno)
  refine List.mem_filter.2 ⟨(isPresent_iff _ _ _).1 hpres, ?_⟩
  simp only [Bool.and_eq_true, Bool.or_eq_true, Bool.not_eq_true', List.contains_iff_mem]
  exact ⟨⟨⟨hsup, htab⟩, hnone⟩, or_assoc.2 hwhy⟩

end

section
variable {s : State} {batch : List AlmChange} (h : tableOk s.alm = true)
include h

theorem batch_twins : NoTwins (batchAlm s batch) := by
  have hsound := ((tableOk_iff _).1 h).1
  unfold NoTwins
  rw [(batchAlm_kept s batch).1]
  exact hsound.twins

omit h in
theorem batchGraded_origin {i : EntryIx} {y : Alarm} (hy : (batchGraded s batch).alm.entries[i].alarm = some y) :
    ∃ x, s.alm.entries[i].alarm = some x ∧ (y.type, y.obj) = (x.type, x.obj) := by
  unfold batchGraded at hy
  obtain ⟨x, hx, heq, _⟩ := gradedWork_origin hy
  rw [(batchAlm_kept s batch).1] at hx
  exact ⟨x, hx, heq⟩

theorem batch_present : presentOk (batchAlm s batch).present = true := applyChanges_ok batch ((tableOk_iff _).1 h).2.2

omit h in
/-- The conditions without an entry that a batch gives one are newly offered or no longer suppressed (R132). -/
theorem batch_new {i : EntryIx} {y : Alarm} (hy : (batchWork s batch).alm.entries[i].alarm = some y)
    (hno : NoEntry s.alm (y.type, y.obj)) :
    Eligible (batchAlm s batch) (y.type, y.obj) ∧
    (s.alm.isPresent y.type y.obj = false ∨ s.alm.suppressed y.type y.obj = true ∨ .offer y.type y.obj ∈ batch) := by
  rcases (batchWork_ran s batch).origin i y hy with hy | ⟨c, hc, rfl⟩
  · obtain ⟨x, hx, heq⟩ := batchGraded_origin hy
    exact absurd heq.symm (hno i x hx)
  · obtain ⟨helig, _, hwhy⟩ := mem_candidates hc
    have helig := helig.congr (batchGraded_context s batch).symm
    refine ⟨helig, ?_⟩
    rcases hwhy with hoff | hsup | htab
    · exact .inr (.inr (freshOffers_subset batch s.alm _ (mem_newlyOffered.1 hoff)))
    · exact .inr (.inl hsup)
    · have := helig.tabled
      simp only [Alm.profileOf, (batchAlm_kept s batch).2.1] at this
      simp only [Alm.profileOf] at htab
      rw [htab] at this
      cases this

theorem candidates_sorted : (batchCandidates s batch).Pairwise fun c d => condKey c ≤ condKey d := by
  refine List.Pairwise.filter _ ?_
  rw [(batchGraded_context s batch).present]
  exact ((presentOk_iff _).1 (batch_present h)).2

end

theorem condKey_lt {t u : CondType} {o v : Nat} (ho : o < 64) (h : t.index < u.index ∨ (t = u ∧ o < v)) :
    condKey (t, o) < condKey (u, v) := by
  unfold condKey
  rcases h with h | ⟨rfl, h⟩
  · have : t.index.val < u.index.val := h
    simp only
    omega
  · simp only
    omega


/-! ### What a batch does (R126) -/

section
variable {s : State} {batch : List AlmChange}

theorem batch_writes (r : JBody) : (∃ recs, .jrn recs ∈ (almBatch s batch).2 ∧ r ∈ recs) ↔ r ∈ (batchWork s batch).recs :=
  writes_iff s.alm (batchWork s batch) r

theorem mem_batchEvents {r : JBody} (h : r ∈ batchEvents s batch) : ∃ t o d, r = .event t o d := by
  rcases mem_eventRecords.1 h with ⟨t, o, rfl, _⟩ | ⟨t, o, old, new, rfl, _⟩
  · exact ⟨_, _, _, rfl⟩
  · exact ⟨_, _, _, rfl⟩

/-- An EVENT record that a batch writes is one of its offers or events. -/
theorem batch_event {t : CondType} {o : Nat} {d : Option (Option Nat × Option Nat)} :
    .event t o d ∈ (batchWork s batch).recs ↔ .event t o d ∈ batchEvents s batch := by
  refine ⟨fun h => ?_, fun h => mem_takenWork_recs (.inl h)⟩
  unfold batchWork at h
  rcases of_mem_takenWork_recs h with h | h | h | ⟨_, _, _, _, _, h⟩
  · exact h
  · obtain ⟨_, _, _, _, _, _, heq⟩ := mem_goneRecs.1 h
    cases heq
  · obtain ⟨_, _, _, _, _, _, _, heq⟩ := mem_severityRecs.1 h
    cases heq
  · cases h

section
variable (h : tableOk s.alm = true) {i : EntryIx} {x : Alarm} (hx : s.alm.entries[i].alarm = some x)
include h hx

theorem batch_tabled : ((batchAlm s batch).profileOf x.type).severity.tabled = true := by
  have htab := (((tableOk_iff _).1 h).1.belongs i x hx).tabled
  rwa [Alm.profileOf, (batchAlm_kept s batch).2.1]

theorem batch_gone {reason : OffReason} (hmove : moveOf (batchAlm s batch) (droppedConds batch) x = .error reason)
    (hno : ¬Eligible (batchAlm s batch) (x.type, x.obj)) :
    (∀ (j : EntryIx) y, (almBatch s batch).1.entries[j].alarm = some y → (y.type, y.obj) ≠ (x.type, x.obj)) ∧
    (x.shown = true → ∃ recs, .jrn recs ∈ (almBatch s batch).2 ∧ .alarmOff i x.type x.obj x.severity reason ∈ recs) ∧
    (x.shown = false → ∀ any, ¬∃ recs, .jrn recs ∈ (almBatch s batch).2 ∧
      .alarmOff i x.type x.obj x.severity any ∈ recs) := by
  have hx' : (batchAlm s batch).entries[i].alarm = some x := by rw [(batchAlm_kept s batch).1, hx]
  simp only [batch_writes, almBatch_alarm]
  obtain ⟨h1, h2, h3⟩ := gone_said (s := s) (before := s.alm) (events := batchEvents s batch)
    (offered := newlyOffered s.alm batch) hx' (batch_twins h) hmove hno
  unfold batchWork
  refine ⟨h1, h2, fun hs => h3 hs fun any hin => ?_⟩
  obtain ⟨_, _, _, heq⟩ := mem_batchEvents hin
  cases heq

theorem batch_stays {st : AlarmState} (hmove : moveOf (batchAlm s batch) (droppedConds batch) x = .ok { x with state := st })
    (hshown : ({ x with state := st } : Alarm).shown = x.shown) (hstay : x.shown = true ∨ Room (almBatch s batch).1) :
    ∃ y, (almBatch s batch).1.entries[i].alarm = some y ∧
      y = { x with state := st, severity := y.severity, nsa := y.nsa, audible := y.audible } ∧
      (y.severity = x.severity → y.audible = x.audible) ∧ (y.severity = .min → y.audible = false) ∧
      (x.severity = .min → y.severity = .crit ∨ y.severity = .maj → x.shown = true → y.audible = !x.ack) ∧
      (x.severity = .crit ∨ x.severity = .maj → y.severity = .crit ∨ y.severity = .maj → y.audible = x.audible) ∧
      (y.severity ≠ x.severity ∨ y.nsa ≠ x.nsa → x.shown = true →
        ∃ recs, .jrn recs ∈ (almBatch s batch).2 ∧ .severity i x.type x.obj x.severity y.severity y.nsa ∈ recs) := by
  have hx' : (batchAlm s batch).entries[i].alarm = some x := by rw [(batchAlm_kept s batch).1, hx]
  have haud := ((tableOk_iff _).1 h).1.audible i x hx
  rw [almBatch_room] at hstay
  simp only [batch_writes, almBatch_alarm]
  obtain ⟨y, hy, heq, _, hrest⟩ := stays_said (s := s) (before := s.alm) (events := batchEvents s batch)
    (offered := newlyOffered s.alm batch) hx' haud hmove hshown fun y hy hg => kept_of i x hstay hy hg
  unfold batchWork
  exact ⟨y, hy, heq, hrest⟩

end

/-- R132: a condition that becomes a candidate has an entry after a batch that leaves one FREE. -/
theorem batch_takes {t : CondType} {o : Nat} (hroom : Room (almBatch s batch).1) (helig : Eligible (batchAlm s batch) (t, o))
    (hno : NoEntry s.alm (t, o)) (hwhy : s.alm.isPresent t o = false ∨ s.alm.suppressed t o = true) :
    ∃ i : EntryIx, (almBatch s batch).1.entries[i].alarm = some (takenAlarm s (batchAlm s batch) t o) ∧
      ∀ r ∈ takenRecs s (batchAlm s batch) i t o, r ∈ (batchWork s batch).recs := by
  have hno' : NoEntry (batchAlm s batch) (t, o) := by
    unfold NoEntry
    rw [(batchAlm_kept s batch).1]
    exact hno
  have hcand : (t, o) ∈ batchCandidates s batch := by
    refine candidate_of helig hno' (hwhy.imp (fun habsent => ?_) .inl)
    exact mem_newlyOffered.2 (offer_fresh batch habsent (offered_of_appears batch habsent helig.present))
  have hfilled := batchWork_filled s batch ((almBatch_room s batch).1 hroom)
  obtain ⟨i, hi, hrecs⟩ := hfilled.takes _ hcand
  exact ⟨i, (almBatch_alarm s batch i).trans hi, hrecs⟩

/-- R132: the entries taken are the FREE ones of lowest index, in the order of the conditions. -/
theorem batch_lowest (h : tableOk s.alm = true) (hroom : Room (almBatch s batch).1) {i : EntryIx} {x : Alarm}
    (hx : (almBatch s batch).1.entries[i].alarm = some x) (hno : NoEntry s.alm (x.type, x.obj)) :
    (∀ j : EntryIx, j < i → (almBatch s batch).1.entries[j].alarm ≠ none) ∧
    ∀ (j : EntryIx) y, (almBatch s batch).1.entries[j].alarm = some y → NoEntry s.alm (y.type, y.obj) →
      condKey (x.type, x.obj) < condKey (y.type, y.obj) → i < j := by
  have hfilled := batchWork_filled s batch ((almBatch_room s batch).1 hroom)
  have hfree {k : EntryIx} {z : Alarm} (hz : (batchWork s batch).alm.entries[k].alarm = some z)
      (hnoz : NoEntry s.alm (z.type, z.obj)) : (batchGraded s batch).alm.entries[k].alarm = none := by
    cases hg : (batchGraded s batch).alm.entries[k].alarm with
    | none => rfl
    | some z' =>
      have hsame := hfilled.kept k z' hg
      obtain rfl := Option.some.inj (hsame.symm.trans hz)
      obtain ⟨x', hx', heq⟩ := batchGraded_origin hg
      exact absurd heq.symm (hnoz k x' hx')
  simp only [almBatch_alarm] at *
  refine ⟨hfilled.lowest i x (hfree hx hno) hx, fun j y hy hnoy hkey => ?_⟩
  by_contra hle
  rcases Nat.lt_or_eq_of_le (Nat.le_of_not_lt hle) with hlt | heq
  · have := hfilled.order (candidates_sorted h) i j x y (hfree hx hno) (hfree hy hnoy) hx hy hlt
    omega
  · obtain rfl := Fin.ext heq
    obtain rfl := Option.some.inj (hx.symm.trans hy)
    omega

end

/-! ### A displaced entry (R138) -/

theorem entryAge_of_le {now : Nat} {a : Alm} {i : EntryIx} {x : Alarm} (hx : a.entries[i].alarm = some x)
    (hle : x.raiseTime ≤ now) (hnow : now < 2 ^ 32) : entryAge now a i = now - x.raiseTime := by
  simp only [entryAge, hx]
  omega

theorem now_lt (s : State) : s.now < 2 ^ 32 := Nat.mod_lt _ (by decide)

/-- A fold that keeps the first of a list against every later one, and puts it in the place of every earlier one. -/
theorem foldl_pick {α : Type} (before : α → α → Bool) {f : Option α → α → Option α}
    (hnone : ∀ j, f none j = some j) (hsome : ∀ i j, f (some i) j = if before i j then some i else some j)
    (pre post : List α) {i : α} (hpre : ∀ j ∈ pre, before j i = false) (hpost : ∀ j ∈ post, before i j = true) :
    (pre ++ i :: post).foldl f none = some i := by
  have hafter : post.foldl f (some i) = some i := by
    induction post with
    | nil => rfl
    | cons j post ih =>
      rw [List.foldl_cons, hsome, hpost j List.mem_cons_self]
      exact ih fun k hk => hpost k (List.mem_cons_of_mem _ hk)
  have hpick : ∀ b r c, f b r = some c → c = r ∨ b = some c := by
    intro b r c hc
    cases b with
    | none => exact .inl ((Option.some.inj ((hnone r).symm.trans hc)).symm)
    | some b =>
      rw [hsome] at hc
      split at hc
      · exact .inr hc
      · exact .inl (Option.some.inj hc).symm
  rw [List.foldl_append, List.foldl_cons]
  cases hb : pre.foldl f none with
  | none => rw [hnone, hafter]
  | some j =>
    rcases foldl_pick_mem hpick pre hb with hj | hj
    · rw [hsome, hpre j hj, if_neg Bool.false_ne_true, hafter]
    · cases hj

theorem firstDisplaced_eq {now : Nat} {a : Alm} {i : EntryIx} {x : Alarm} (hx : a.entries[i].alarm = some x)
    (hs : x.shown = false) (hnow : now < 2 ^ 32)
    (htimes : ∀ (j : EntryIx) y, a.entries[j].alarm = some y → y.shown = false → y.raiseTime ≤ now)
    (hfirst : ∀ (j : EntryIx) y, a.entries[j].alarm = some y → y.shown = false → x.severity.rank ≤ y.severity.rank ∧
      (y.severity.rank = x.severity.rank → x.raiseTime < y.raiseTime ∨ (x.raiseTime = y.raiseTime ∧ i ≤ j))) :
    firstDisplaced now a = some i := by
  have hpend : pendingSeverity a i = some x.severity := pendingSeverity_eq_some.2 ⟨x, hx, hs, rfl⟩
  have hage := entryAge_of_le hx (htimes i x hx hs) hnow
  have hmem : i ∈ (List.finRange 128).filter fun i => (pendingSeverity a i).isSome :=
    List.mem_filter.2 ⟨List.mem_finRange i, by rw [hpend]; rfl⟩
  have hsorted : ((List.finRange 128).filter fun i => (pendingSeverity a i).isSome).Pairwise (· < ·) :=
    (List.pairwise_lt_finRange 128).filter _
  have hwaits {j : EntryIx} (hj : j ∈ (List.finRange 128).filter fun i => (pendingSeverity a i).isSome) :
      ∃ y, a.entries[j].alarm = some y ∧ y.shown = false := by
    obtain ⟨v, hv⟩ := Option.isSome_iff_exists.1 (List.mem_filter.1 hj).2
    obtain ⟨y, hy, hys, _⟩ := pendingSeverity_eq_some.1 hv
    exact ⟨y, hy, hys⟩
  obtain ⟨pre, post, hsplit⟩ := List.append_of_mem hmem
  unfold firstDisplaced
  rw [hsplit] at hsorted ⊢
  have hlt := List.pairwise_append.1 hsorted
  refine foldl_pick (displacedBefore now a) (fun _ => rfl) (fun _ _ => rfl) pre post (fun j hj => ?_) fun j hj => ?_
  · obtain ⟨y, hy, hys⟩ := hwaits (hsplit ▸ List.mem_append_left _ hj)
    obtain ⟨hrank, htie⟩ := hfirst j y hy hys
    have hji : j < i := hlt.2.2 j hj i List.mem_cons_self
    have hagej := entryAge_of_le hy (htimes j y hy hys) hnow
    have hyt := htimes j y hy hys
    simp only [displacedBefore, hpend, pendingSeverity_eq_some.2 ⟨y, hy, hys, rfl⟩, hage, hagej, Bool.or_eq_false_iff,
      decide_eq_false_iff_not, Bool.and_eq_false_iff, beq_eq_false_iff_ne]
    refine ⟨by omega, ?_⟩
    by_cases heq : y.severity.rank = x.severity.rank
    · refine .inr ?_
      rcases htie heq with h | ⟨_, h⟩
      · omega
      · exact absurd hji (not_lt.2 h)
    · exact .inl heq
  · obtain ⟨y, hy, hys⟩ := hwaits (hsplit ▸ List.mem_append_right _ (List.mem_cons_of_mem _ hj))
    obtain ⟨hrank, htie⟩ := hfirst j y hy hys
    have hagej := entryAge_of_le hy (htimes j y hy hys) hnow
    simp only [displacedBefore, hpend, pendingSeverity_eq_some.2 ⟨y, hy, hys, rfl⟩, hage, hagej, Bool.or_eq_true,
      decide_eq_true_eq, Bool.and_eq_true, beq_iff_eq]
    by_cases heq : y.severity.rank = x.severity.rank
    · refine .inr ⟨heq.symm, ?_⟩
      rcases htie heq with h | ⟨h, _⟩ <;> omega
    · exact .inl (by omega)

/-- R142: a batch leaves the present set and the copies as its changes make them, the outputs formed of the table. -/
theorem batch_frame (s : State) (batch : List AlmChange) :
    (almBatch s batch).1.present = (batchAlm s batch).present ∧ (almBatch s batch).1.profile = s.alm.profile := by
  have hreads := almBatch_reads s batch
  exact ⟨hreads.present, hreads.profile.trans (batchAlm_kept s batch).2.1⟩

/-- R137, R130, R134: what a batch makes of an entry. -/
def EntryFate (s : State) (batch : List AlmChange) (i : EntryIx) (x : Alarm) : Prop :=
  let a := (almBatch s batch).1
  let writes (x : JBody) : Prop := ∃ recs, .jrn recs ∈ (almBatch s batch).2 ∧ x ∈ recs
  let room : Prop := ∃ j : EntryIx, a.entries[j].alarm = none
  let gone (reason : OffReason) : Prop :=
    (∀ (j : EntryIx) y, a.entries[j].alarm = some y → (y.type, y.obj) ≠ (x.type, x.obj)) ∧
    (x.shown = true → writes (.alarmOff i x.type x.obj x.severity reason)) ∧
    (x.shown = false → ∀ any, ¬writes (.alarmOff i x.type x.obj x.severity any))
  let stays (st : AlarmState) : Prop := ∃ y, a.entries[i].alarm = some y ∧
    y = { x with state := st, severity := y.severity, nsa := y.nsa, audible := y.audible } ∧
    (y.severity = x.severity → y.audible = x.audible) ∧
    (y.severity = .min → y.audible = false) ∧
    (x.severity = .min → y.severity = .crit ∨ y.severity = .maj → x.shown = true → y.audible = !x.ack) ∧
    (x.severity = .crit ∨ x.severity = .maj → y.severity = .crit ∨ y.severity = .maj → y.audible = x.audible) ∧
    (y.severity ≠ x.severity ∨ y.nsa ≠ x.nsa → x.shown = true →
      writes (.severity i x.type x.obj x.severity y.severity y.nsa))
  let clear := s.alm.profile[x.type.index].clear
  (a.suppressed x.type x.obj = true → gone .suppressed) ∧
  (a.suppressed x.type x.obj = false → a.isPresent x.type x.obj = true →
    (x.shown = true → stays .active) ∧ (x.shown = false → room → stays x.state)) ∧
  (a.suppressed x.type x.obj = false → a.isPresent x.type x.obj = false →
    (.drop x.type x.obj ∈ batch → gone .dropped) ∧
    (.drop x.type x.obj ∉ batch →
      (x.shown = false → gone .cleared) ∧ (x.state = .active → clear = 0 → gone .cleared) ∧
      (x.state = .active → clear ≠ 0 → stays (.clearing (clear * 4))) ∧
      ∀ n, x.state = .clearing n → stays x.state))

theorem batch_fate {s : State} {batch : List AlmChange} (hok : tableOk s.alm = true) {i : EntryIx} {x : Alarm}
    (hx : s.alm.entries[i].alarm = some x) : EntryFate s batch i x := by
  have hreads := almBatch_reads s batch
  have htab := batch_tabled (batch := batch) hok hx
  have hprofile : (batchAlm s batch).profileOf x.type = s.alm.profile[x.type.index] := by
    rw [Alm.profileOf, (batchAlm_kept s batch).2.1]
  simp only [EntryFate, hreads.suppressed, hreads.isPresent]
  refine ⟨fun hsup => ?_, fun hsup hpres => ⟨fun hs => ?_, fun hs hroom => ?_⟩, fun hsup habsent => ⟨fun hdrop => ?_,
    fun hdrop => ⟨fun hs => ?_, fun hst hclear => ?_, fun hst hclear => ?_, fun n hst => ?_⟩⟩⟩
  · exact batch_gone hok hx (moveOf_suppressed htab hsup) fun he => by rw [he.allowed] at hsup; cases hsup
  · have hactive : returned x.state = .active := by
      revert hs
      unfold Alarm.shown
      cases x.state <;> simp [returned]
    have hmove := moveOf_present (dropped := droppedConds batch) htab hsup hpres
    rw [hactive] at hmove
    exact batch_stays hok hx hmove (by rw [hs]; rfl) (.inl hs)
  · have hsame : returned x.state = x.state := by
      revert hs
      unfold Alarm.shown
      cases x.state <;> simp [returned]
    have hmove := moveOf_present (dropped := droppedConds batch) htab hsup hpres
    rw [hsame] at hmove
    exact batch_stays hok hx hmove rfl (.inr hroom)
  all_goals
    have hno : ¬Eligible (batchAlm s batch) (x.type, x.obj) := fun he => by
      have := he.present
      rw [habsent] at this
      cases this
  · exact batch_gone hok hx (moveOf_dropped htab hsup habsent (mem_droppedConds.2 hdrop)) hno
  all_goals
    have hkept : (x.type, x.obj) ∉ droppedConds batch := fun hin => hdrop (mem_droppedConds.1 hin)
  · obtain ⟨n, hst⟩ : ∃ n, x.state = .pending n := by
      revert hs
      unfold Alarm.shown
      cases x.state <;> simp
    exact batch_gone hok hx (moveOf_pending htab hsup habsent hkept hst) hno
  · exact batch_gone hok hx (moveOf_active_zero htab hsup habsent hkept hst (by rw [hprofile, hclear])) hno
  · have hmove := moveOf_active htab hsup habsent hkept hst (by rw [hprofile]; exact hclear)
    rw [hprofile] at hmove
    exact batch_stays hok hx hmove (shown_of_active hst).symm (.inl (shown_of_active hst))
  · exact batch_stays hok hx (moveOf_clearing htab hsup habsent hkept hst) rfl (.inl (shown_of_clearing hst))

/-- R132: an entry taken in a batch is that of the condition, with its raise soak or ACTIVE at once. -/
theorem batch_candidate {s : State} {batch : List AlmChange} {t : CondType} {o : Nat} (hroom : Room (almBatch s batch).1)
    (hpres : (batchAlm s batch).isPresent t o = true) (hsup : (batchAlm s batch).suppressed t o = false)
    (htab : (s.alm.profile[t.index].severity).tabled = true) (hno : NoEntry s.alm (t, o))
    (hwhy : s.alm.isPresent t o = false ∨ s.alm.suppressed t o = true) :
    let raise := s.alm.profile[t.index].raise
    ∃ (i : EntryIx) (y : Alarm), (almBatch s batch).1.entries[i].alarm = some y ∧
      y = { type := t, obj := o, state := if raise = 0 then .active else .pending (raise * 4), severity := y.severity
            ack := false, nsa := y.nsa, audible := decide (raise = 0) && y.severity.rings, raiseTime := s.now
            activeTime := if raise = 0 then some s.now else none } ∧
      (raise = 0 → ∃ recs, .jrn recs ∈ (almBatch s batch).2 ∧ .alarmOn i t o y.severity y.nsa ∈ recs) := by
  have hprofile : (batchAlm s batch).profileOf t = s.alm.profile[t.index] := by
    rw [Alm.profileOf, (batchAlm_kept s batch).2.1]
  have helig : Eligible (batchAlm s batch) (t, o) := ⟨by rw [hprofile]; exact htab, hsup, hpres⟩
  obtain ⟨i, hi, hrecs⟩ := batch_takes hroom helig hno hwhy
  refine ⟨i, _, hi, ?_, fun hraise => ?_⟩
  · simp only [takenAlarm, hprofile]
    rfl
  · refine (batch_writes _).2 (hrecs _ ?_)
    simp only [takenRecs, hprofile, hraise, if_true]
    exact List.mem_singleton.2 rfl

section
variable {s : State} {w : AlmWork} {c : CondType × Nat} (hfull : w.alm.lowestFree = none)
include hfull

/-- R138: a candidate that finds no FREE entry and none to displace. -/
theorem candidate_counted (hrank : ∀ (j : EntryIx) y, w.alm.entries[j].alarm = some y → y.shown = false →
    (gradeOf s w.alm c.1 c.2).1.rank ≤ y.severity.rank) : takeCandidate s w c = overflowed w := by
  have htakes := takeCandidate_takes s w c
  generalize takeCandidate s w c = r at htakes
  cases htakes with
  | free j hj => rw [hfull] at hj; cases hj
  | displaces _ j y _ hy hys hlt => exact absurd hlt (not_lt.2 (hrank j y hy hys))
  | counted _ _ => rfl

/-- R138: a candidate that displaces the PENDING entry to be displaced first. -/
theorem candidate_displaces {i : EntryIx} {x : Alarm} (hx : w.alm.entries[i].alarm = some x)
    (hi : firstDisplaced s.now w.alm = some i) (hlow : x.severity.rank < (gradeOf s w.alm c.1 c.2).1.rank) :
    takeCandidate s w c = overflowed { putAlarm w i (takenAlarm s w.alm c.1 c.2) with
      recs := w.recs ++ takenRecs s w.alm i c.1 c.2, freed := i :: w.freed } := by
  have htakes := takeCandidate_takes s w c
  generalize takeCandidate s w c = r at htakes
  cases htakes with
  | free j hj => rw [hfull] at hj; cases hj
  | displaces _ j y hj hy hys hlt =>
    obtain rfl := Option.some.inj (hi.symm.trans hj)
    rfl
  | counted _ hno => exact absurd hlow (not_lt.2 (hno i x hi hx))

end

/-- Settles O33: the bay outputs, the two soaks, a batch entry by entry and candidate by candidate, and displacement. -/
theorem soaksRunOut : Obligations.SoaksRunOut := by
  unfold Obligations.SoaksRunOut
  refine ⟨fun a => ?_, fun i s x hready hx => ⟨fun n hst => ?_, fun n hst => ?_⟩, fun a t u o v hok => ?_,
    fun s batch hok => ?_, fun s w c hfull => ?_⟩
  · refine ⟨shows_iff a .crit, ?_, shows_iff a .min, rings_iff a⟩
    exact Bool.or_eq_true_iff.trans (or_congr (shows_iff a .maj) Iff.rfl)
  · have hpending : (s.start.ready && isPending s i) = true := by
      simp only [hready, isPending, alarmAt, hx, hst, Bool.and_self]
    refine ⟨_, whenever_true hpending s _, ?_⟩
    rw [almRaise_eq hx hst]
    have hsaid := settledAlm_said s (oneWork s i
      (some { x with state := .active, activeTime := some s.now, audible := x.severity.rings && !x.ack })
      [.alarmOn i x.type x.obj x.severity x.nsa] [])
    obtain ⟨h1, h2⟩ := oneWork_said hsaid (by rw [hx]; rintro h; rw [← Option.some.inj h] at hst; cases hst) fun _ => nofun
    obtain ⟨h2, h3, h4, h5, h6, h7, h8, h9, h10⟩ := h2
    exact ⟨h1, h2, h3, h4, h5, h6, h7, h8, h9, h10, hsaid.frame⟩
  · have hclearing : (s.start.ready && isClearing s i) = true := by
      simp only [hready, isClearing, alarmAt, hx, hst, Bool.and_self]
    refine ⟨_, whenever_true hclearing s _, ?_⟩
    rw [almClear_eq hx hst]
    have hsaid := settledAlm_said s (oneWork s i none [.alarmOff i x.type x.obj x.severity .cleared] [i])
    obtain ⟨h1, h2, h3, h4, h5, h6, h7, h8, h9, h10⟩ := oneWork_said hsaid (by rw [hx]; nofun)
      fun j hj => ⟨List.mem_singleton.1 hj, rfl⟩
    refine ⟨h1, ?_, h2, h3, h4, h5, h6, h7, h8, h9, h10, hsaid.frame⟩
    have hfree : (oneWork s i none [.alarmOff i x.type x.obj x.severity .cleared] [i]).alm.entries[i].alarm = none := by
      rw [oneWork_entries, if_pos rfl]
    rw [hsaid.alm, almFinish_overflow, Option.isNone_eq_false_iff.2 (lowestFree_isSome hfree), Bool.and_false]
  · exact ⟨isPresent_after_offer a t u o v, isPresent_after_withdraw hok t u o v, isPresent_after_withdraw hok t u o v⟩
  · have hreads := almBatch_reads s batch
    have hprofile (t : CondType) : (batchAlm s batch).profileOf t = s.alm.profile[t.index] := by
      rw [Alm.profileOf, (batchAlm_kept s batch).2.1]
    refine ⟨hreads.present, hreads.portState, hreads.held, hreads.taps, hreads.groups,
      hreads.profile.trans (batchAlm_kept s batch).2.1, almFinish_outputs s.alm (batchWork s batch),
      attn_bay_mem s.alm (batchWork s batch), attn_alm_mem s.alm (batchWork s batch), almBatch_overflow s batch,
      fun i x hx => batch_fate hok hx, fun i y hy => ?_, fun t o hroom hpres hsup htab hno hwhy => ?_, fun i x hx hno => ?_,
      fun t o hev hoff habsent hsup => ?_, fun t o old new hev hin => ?_, fun t o d hev hw => ?_, fun t o hsup hw => ?_⟩
    · rw [hreads.gradeOf]
      rw [almBatch_alarm] at hy
      unfold batchWork at hy
      exact takenWork_graded hy
    · rw [hreads.isPresent] at hpres
      rw [hreads.suppressed] at hsup
      exact batch_candidate hroom hpres hsup htab hno hwhy
    · obtain ⟨⟨htab, hsup, hpres⟩, hwhy⟩ := batch_new ((almBatch_alarm s batch i).symm.trans hx) hno
      rw [hprofile] at htab
      refine ⟨(hreads.isPresent _ _).trans hpres, (hreads.suppressed _ _).trans hsup, htab, hwhy, fun hroom => ?_⟩
      obtain ⟨hlow, horder⟩ := batch_lowest hok hroom hx hno
      exact ⟨hlow, fun j y hy hnoy ho _ hlt => horder j y hy hnoy (condKey_lt ho hlt)⟩
    · rw [hreads.suppressed] at hsup
      refine (batch_writes _).2 (batch_event.2 (mem_eventRecords.2 (.inl ⟨t, o, rfl, offer_fresh batch habsent hoff, ?_, hsup⟩)))
      rw [hprofile]; exact hev
    · refine (batch_writes _).2 (batch_event.2 (mem_eventRecords.2 (.inr ⟨t, o, old, new, rfl, hin, ?_⟩)))
      rw [hprofile]; exact hev
    · rcases mem_eventRecords.1 (batch_event.1 ((batch_writes _).1 hw)) with ⟨t', o', heq, _, hev', _⟩ | ⟨t', o', old, new, heq, _, hev'⟩
      all_goals
        obtain ⟨rfl, _⟩ := JBody.event.inj heq
        rw [hprofile] at hev'
        exact hev hev'
    · rw [hreads.suppressed] at hsup
      rcases mem_eventRecords.1 (batch_event.1 ((batch_writes _).1 hw)) with ⟨t', o', heq, _, _, hsup'⟩ | ⟨_, _, _, _, heq, _, _⟩
      · obtain ⟨rfl, rfl, _⟩ := JBody.event.inj heq
        rw [hsup] at hsup'
        cases hsup'
      · cases (JBody.event.inj heq).2.2
  · have hnone := lowestFree_eq_none.2 hfull
    refine ⟨fun hrank => ?_, fun i x ⟨hx, hs⟩ hlow htimes hfirst => ?_⟩
    · rw [candidate_counted hnone fun j y hy hys => hrank j y ⟨hy, hys⟩]
      exact ⟨rfl, rfl⟩
    · have hi := firstDisplaced_eq hx hs (now_lt s) (fun j y hy hys => htimes j y ⟨hy, hys⟩)
        fun j y hy hys => hfirst j y ⟨hy, hys⟩
      rw [candidate_displaces hnone hx hi hlow]
      refine ⟨takenAlarm s w.alm c.1 c.2, (putAlarm_alarm w i _ i).trans (if_pos rfl), rfl, rfl, rfl, fun k hk => ?_, rfl, rfl, rfl⟩
      exact (getElem_set_fin _ _ _ _).trans (if_neg hk)

end Sys2Proof.Proofs
end

