-- ==== Sys2Proof/Proofs/AlarmSuppression.lean ====
section
/-! Suppression and coverage (R129, R136), an applied profile entry (R128), acknowledgement and cut-off (R139, R144). -/

namespace Sys2Proof.Proofs

open Sys2Proof.Machine Sys2Proof.Safety Sys2Proof.Laws

/-! ### Suppression (R129) -/

theorem portOfNat_port (p : Port) : portOfNat p = some p := dif_pos p.isLt

section
variable (a : Alm)

theorem suppressed_port {t : CondType} (p : Port) (h : t.index.val < 9) : a.suppressed t p = true ↔
    a.held[p] = true ∨ a.portState[p] = .equipOut ∨
    ((t = .fail ∨ t = .degrade ∨ t = .untagged ∨ t = .misconn ∨ t = .feLos) ∧ a.isPresent .los p = true) ∨
    (t = .degrade ∧ a.isPresent .fail p = true) := by
  have hport : t.isPort = true := by
    revert h
    cases t <;> decide
  simp only [Alm.suppressed, hport, if_true, portOfNat_port, Bool.or_eq_true, decide_eq_true_eq, or_assoc]
  refine or_congr_right (or_congr_right ?_)
  cases t <;> simp

theorem suppressed_ref (r : RefIx) : a.suppressed .refLos r = true ↔
    2 ≤ r.val ∧ ∃ p, a.taps[r] = some p ∧ (a.portState[p] = .dark ∨ a.portState[p] = .equipOut) := by
  have hr : r.val < 6 := r.isLt
  have htap : a.taps[(⟨r.val, hr⟩ : RefIx)] = a.taps[r] := rfl
  simp only [Alm.suppressed, CondType.isPort, Bool.false_eq_true, if_false, if_true, hr, dif_pos, htap]
  cases a.taps[r] with
  | none => simp
  | some p => simp

theorem suppressed_other {t : CondType} (o : Nat) (h : 9 ≤ t.index.val) (hne : t ≠ .refLos) : a.suppressed t o = false := by
  have hport : t.isPort = false := by
    revert h
    cases t <;> decide
  simp only [Alm.suppressed, hport, Bool.false_eq_true, if_false, hne]

/-! ### Coverage (R136) -/

/-- R136: a port whose service a group carries elsewhere. -/
def Covered (p : Port) : Prop := ∃ (gi : GroupIx) (c : GroupCopy), a.groups[gi] = some c ∧
  ((c.prot = p ∧ c.selected = 0) ∨ ∃ m, c.selected = m + 1 ∧ c.work[m]? = some p ∧ (a.portState[c.prot]).sf = false)

theorem mem_copies (c : GroupCopy) : c ∈ a.copies ↔ ∃ gi : GroupIx, a.groups[gi] = some c := by
  simp only [Alm.copies, List.mem_filterMap, List.mem_finRange, true_and]

theorem copyCovers_iff (c : GroupCopy) (p : Port) : copyCovers a c p = true ↔ (c.prot = p ∧ c.selected = 0) ∨
    ∃ m, c.selected = m + 1 ∧ c.work[m]? = some p ∧ (a.portState[c.prot]).sf = false := by
  simp only [copyCovers, Bool.or_eq_true, Bool.and_eq_true, decide_eq_true_eq, beq_iff_eq, Bool.not_eq_true']
  refine or_congr_right ⟨fun ⟨⟨hpos, hwork⟩, hsf⟩ => ⟨c.selected - 1, by omega, hwork, hsf⟩, ?_⟩
  rintro ⟨m, hm, hwork, hsf⟩
  rw [hm]
  exact ⟨⟨Nat.succ_pos m, hwork⟩, hsf⟩

theorem covers_iff (p : Port) : a.covers p = true ↔ Covered a p := by
  simp only [Alm.covers, List.any_eq_true, mem_copies, copyCovers_iff, Covered]
  exact ⟨fun ⟨c, ⟨gi, hg⟩, h⟩ => ⟨gi, c, hg, h⟩, fun ⟨gi, c, hg, h⟩ => ⟨c, ⟨gi, hg⟩, h⟩⟩

variable (s : State)

/-- R136: a card with a populated port in a group, all its populated ports but the SPARE ones covered. -/
def CardCovered (d : Card) : Prop :=
  (∃ p, cardOf p = d ∧ s.populated p = true ∧
    ∃ (gi : GroupIx) (c : GroupCopy), a.groups[gi] = some c ∧ (c.prot = p ∨ p ∈ c.work)) ∧
  ∀ p, cardOf p = d → s.populated p = true → s.pmon.ports[p].role ≠ .spare → Covered a p

theorem cardCovered_iff (d : Card) : cardCovered s a d = true ↔ CardCovered a s d := by
  simp only [cardCovered, CardCovered, Bool.and_eq_true, List.any_eq_true, List.all_eq_true, List.mem_filter,
    mem_portsOfCard_iff, mem_copies, copyHas, Bool.or_eq_true, decide_eq_true_eq, List.contains_iff_mem, covers_iff]
  refine and_congr ⟨?_, ?_⟩ ⟨fun h p hp hpop hrole => (h p ⟨hp, hpop⟩).resolve_left hrole, fun h p hp => ?_⟩
  · rintro ⟨p, ⟨hp, hpop⟩, c, ⟨gi, hg⟩, hc⟩
    exact ⟨p, hp, hpop, gi, c, hg, hc⟩
  · rintro ⟨p, hp, hpop, gi, c, hg, hc⟩
    exact ⟨p, ⟨hp, hpop⟩, c, ⟨gi, hg⟩, hc⟩
  · by_cases hrole : s.pmon.ports[p].role = .spare
    · exact .inl hrole
    · exact .inr (h p hp.1 hp.2 hrole)

/-- R136: the severity of a type whose object's coverage is `covered`. -/
theorem gradeOf_of {t : CondType} {o : Nat} {covered : Prop} (hgraded : t.graded = true)
    (h : objCovered s a t o = true ↔ covered) :
    (covered → gradeOf s a t o = (.min, true)) ∧ (¬covered → gradeOf s a t o = (a.profile[t.index].severity, false)) := by
  unfold gradeOf
  rw [hgraded, Bool.true_and]
  exact ⟨fun hc => if_pos (h.2 hc), fun hc => if_neg fun ho => hc (h.1 ho)⟩

theorem gradeOf_port {t : CondType} (p : Port) (h : t = .los ∨ t = .fail ∨ t = .degrade ∨ t = .monLost) :
    (Covered a p → gradeOf s a t p = (.min, true)) ∧
    (¬Covered a p → gradeOf s a t p = (a.profile[t.index].severity, false)) := by
  obtain ⟨hgraded, hport⟩ : t.graded = true ∧ t.isPort = true := by rcases h with rfl | rfl | rfl | rfl <;> decide
  refine gradeOf_of a s hgraded ?_
  simp only [objCovered, hport, if_true, portOfNat_port, covers_iff]

theorem gradeOf_card {t : CondType} (d : Card) (h : t = .cardOut ∨ t = .cardFault) :
    (CardCovered a s d → gradeOf s a t d = (.min, true)) ∧
    (¬CardCovered a s d → gradeOf s a t d = (a.profile[t.index].severity, false)) := by
  obtain ⟨hgraded, hport, hcard⟩ : t.graded = true ∧ t.isPort = false ∧ t.isCard = true := by
    rcases h with rfl | rfl <;> decide
  refine gradeOf_of a s hgraded ?_
  have hd : d.val < 16 := d.isLt
  simp only [objCovered, hport, hcard, Bool.false_eq_true, if_false, if_true, dif_pos hd]
  exact cardCovered_iff a s d

theorem gradeOf_other {t : CondType} (o : Nat) (h : t ∉ [.los, .fail, .degrade, .monLost, .cardOut, .cardFault]) :
    gradeOf s a t o = (a.profile[t.index].severity, false) := by
  have hgraded : t.graded = false := by
    revert h
    cases t <;> decide
  simp only [gradeOf, hgraded, Bool.false_and, Bool.false_eq_true, if_false]
  rfl

end

/-! ### An applied profile entry (R128) -/

/-- The profile with the new severity of one type, its soaks as they stood. -/
def regraded (s : State) (y : Fin 24) (pf : AlarmProfile) : Alm :=
  { s.alm with profile := s.alm.profile.set y { s.alm.profile[y] with severity := pf.severity } }

/-- The work of an applied profile entry. -/
def profileWork (s : State) (y : Fin 24) (pf : AlarmProfile) : AlmWork := takenWork s s.alm (regraded s y pf) [] [] []

section
variable (s : State) (y : Fin 24) (pf : AlarmProfile)

theorem almProfile_eq : almProfile s y pf =
    ({ (almFinish s.alm (profileWork s y pf)).1 with
      profile := (almFinish s.alm (profileWork s y pf)).1.profile.set y pf },
      (almFinish s.alm (profileWork s y pf)).2) := rfl

theorem regraded_profile (z : Fin 24) : (regraded s y pf).profile[z] =
    if z = y then { s.alm.profile[y] with severity := pf.severity } else s.alm.profile[z] := getElem_set_fin _ _ _ _

theorem profileWork_context : SameContext (regraded s y pf) (almFinish s.alm (profileWork s y pf)).1 :=
  (takenWork_context s s.alm (regraded s y pf) [] [] []).trans (almFinish_context s.alm _)

theorem almProfile_profile (z : Fin 24) : (almProfile s y pf).1.profile[z] = if z = y then pf else s.alm.profile[z] := by
  have hset : (almProfile s y pf).1.profile[z] = if z = y then pf else (almFinish s.alm (profileWork s y pf)).1.profile[z] :=
    getElem_set_fin _ _ _ _
  rw [hset, (profileWork_context s y pf).profile, regraded_profile]
  split
  · rfl
  · rfl

theorem almProfile_alarm (j : EntryIx) : (almProfile s y pf).1.entries[j].alarm = (profileWork s y pf).alm.entries[j].alarm := by
  have h := almFinish_alarm s.alm (profileWork s y pf) j
  rw [almProfile_eq]
  generalize almFinish s.alm (profileWork s y pf) = r at h ⊢
  exact h

theorem almProfile_reads : (almProfile s y pf).1.present = s.alm.present ∧ (almProfile s y pf).1.groups = s.alm.groups ∧
    (almProfile s y pf).1.portState = s.alm.portState := by
  have hcontext := profileWork_context s y pf
  rw [almProfile_eq]
  generalize almFinish s.alm (profileWork s y pf) = r at hcontext ⊢
  exact ⟨hcontext.present, hcontext.groups, hcontext.portState⟩

/-- The new soaks move no severity. -/
theorem almProfile_gradeOf (t : CondType) (o : Nat) : gradeOf s (almProfile s y pf).1 t o = gradeOf s (regraded s y pf) t o := by
  obtain ⟨_, hgroups, hstates⟩ := almProfile_reads s y pf
  have hcovers : (almProfile s y pf).1.covers = (regraded s y pf).covers := by
    funext p
    simp only [Alm.covers, copyCovers, Alm.copies, hgroups, hstates]
    rfl
  have hcopies : (almProfile s y pf).1.copies = (regraded s y pf).copies := by
    simp only [Alm.copies, hgroups]
    rfl
  have hcard : cardCovered s (almProfile s y pf).1 = cardCovered s (regraded s y pf) := by
    funext c
    simp only [cardCovered, hcovers, hcopies]
  have hseverity : ((almProfile s y pf).1.profileOf t).severity = ((regraded s y pf).profileOf t).severity := by
    simp only [Alm.profileOf, almProfile_profile, regraded_profile]
    split <;> rfl
  simp only [gradeOf, objCovered, hcovers, hcard, hseverity]
  rfl

theorem almProfile_writes (r : JBody) : (∃ recs, .jrn recs ∈ (almProfile s y pf).2 ∧ r ∈ recs) ↔ r ∈ (profileWork s y pf).recs := by
  rw [almProfile_eq]
  exact writes_iff s.alm (profileWork s y pf) r

theorem regraded_suppressed (t : CondType) (o : Nat) : (regraded s y pf).suppressed t o = s.alm.suppressed t o := rfl

end

section
variable {s : State} {y : Fin 24} {pf : AlarmProfile} (hok : tableOk s.alm = true)

theorem regraded_tabled {t : CondType} (ht : t.index = y) :
    ((regraded s y pf).profileOf t).severity.tabled = pf.severity.tabled := by
  rw [Alm.profileOf, regraded_profile, if_pos ht]

theorem regraded_raise {t : CondType} (ht : t.index = y) :
    ((regraded s y pf).profileOf t).raise = (s.alm.profile[y]).raise := by
  rw [Alm.profileOf, regraded_profile, if_pos ht]

/-- Every entry after a profile load is of a type that is tabled then. -/
theorem profileWork_tabled {j : EntryIx} {z : Alarm} (hz : (profileWork s y pf).alm.entries[j].alarm = some z) :
    ((regraded s y pf).profileOf z.type).severity.tabled = true := by
  unfold profileWork at hz
  rcases takenWork_ran.origin j z hz with hz | ⟨c, hc, rfl⟩
  · rw [gradedWork_alarm] at hz
    obtain ⟨z', hz', rfl⟩ := Option.map_eq_some_iff.1 hz
    obtain ⟨x, hx, hm⟩ := Option.bind_eq_some_iff.1 hz'
    cases hm' : moveOf (regraded s y pf) [] x with
    | error e =>
      rw [hm'] at hm
      cases hm
    | ok z'' =>
      rw [hm'] at hm
      obtain rfl := Option.some.inj hm
      obtain ⟨⟨st, rfl, _⟩, htab, _⟩ := moveOf_ok hm'
      obtain ⟨au, hg, _⟩ := gradedAlarm_eq s (regraded s y pf) { x with state := st }
      rw [hg]
      exact htab
  · exact ((mem_candidates hc).1.congr (gradedWork_context s (regraded s y pf) [] []).symm).tabled

include hok

/-- An entry whose type stays tabled is moved by nothing. -/
theorem regraded_stays {i : EntryIx} {x : Alarm} (hx : s.alm.entries[i].alarm = some x)
    (htab : ((regraded s y pf).profileOf x.type).severity.tabled = true) :
    moveOf (regraded s y pf) [] x = .ok { x with state := x.state } := by
  obtain ⟨_, hsup, _, hagrees⟩ := ((tableOk_iff _).1 hok).1.belongs i x hx
  cases hpres : s.alm.isPresent x.type x.obj with
  | true =>
    have hnot := hagrees.1 hpres
    have hsame : returned x.state = x.state := by
      revert hnot
      cases x.state <;> simp [returned]
    rw [moveOf_present htab hsup hpres, hsame]
  | false =>
    have hclearing : ∃ n, x.state = .clearing n := by
      by_contra hno
      have := hagrees.2 fun n hn => hno ⟨n, hn⟩
      rw [hpres] at this
      cases this
    obtain ⟨n, hn⟩ := hclearing
    exact moveOf_clearing htab hsup hpres (by simp) hn

omit hok in
/-- Where the type was tabled before, the load makes no candidate. -/
theorem profile_candidates (events : List JBody) (dropped : List (CondType × Nat)) (htab : (s.alm.profile[y]).severity.tabled = true) :
    candidates s.alm (gradedWork s (regraded s y pf) events dropped).alm [] = [] := by
  refine List.eq_nil_iff_forall_not_mem.2 fun c hc => ?_
  obtain ⟨helig, _, hwhy⟩ := mem_candidates hc
  obtain ⟨htab', hsup, _⟩ := helig.congr (gradedWork_context s (regraded s y pf) events dropped).symm
  rcases hwhy with h | h | h
  · cases h
  · rw [regraded_suppressed, h] at hsup
    cases hsup
  · by_cases hy : c.1.index = y
    · simp only [Alm.profileOf] at h
      subst hy
      rw [h] at htab
      cases htab
    · simp only [Alm.profileOf, regraded_profile, if_neg hy] at htab' h
      rw [h] at htab'
      cases htab'

end


/-! ### The entries of the type (R128) -/

section
variable {s : State} {y : Fin 24} {pf : AlarmProfile}

/-- A load whose severity is not tabled leaves no entry of the type. -/
theorem profile_leaves {j : EntryIx} {z : Alarm} (hz : (profileWork s y pf).alm.entries[j].alarm = some z)
    (hy : z.type.index = y) (hoff : pf.severity.tabled = false) : False := by
  have := profileWork_tabled hz
  rw [regraded_tabled hy, hoff] at this
  cases this

theorem profile_gone {i : EntryIx} {x : Alarm} (hx : s.alm.entries[i].alarm = some x) (hy : x.type.index = y)
    (hoff : pf.severity.tabled = false) (hs : x.shown = true) :
    .alarmOff i x.type x.obj x.severity .profile ∈ (profileWork s y pf).recs := by
  have htab := (regraded_tabled (s := s) (pf := pf) hy).trans hoff
  have hmove : moveOf (regraded s y pf) [] x = .error .profile := by simp [moveOf, htab]
  have hx' : (regraded s y pf).entries[i].alarm = some x := hx
  exact mem_takenWork_recs (.inr (.inl (mem_goneRecs.2 ⟨i, x, .profile, hx', hs, hmove, rfl⟩)))

variable (hok : tableOk s.alm = true)
include hok

theorem profile_stays {i : EntryIx} {x : Alarm} (hx : s.alm.entries[i].alarm = some x) (hy : x.type.index = y)
    (hon : pf.severity.tabled = true) :
    ∃ z, (profileWork s y pf).alm.entries[i].alarm = some z ∧
      z = { x with severity := z.severity, nsa := z.nsa, audible := z.audible } ∧
      (z.severity, z.nsa) = gradeOf s (regraded s y pf) x.type x.obj ∧ (z.severity = .min → z.audible = false) ∧
      (x.severity = .min → z.severity = .crit ∨ z.severity = .maj → x.shown = true → z.audible = !x.ack) ∧
      (x.severity = .crit ∨ x.severity = .maj → z.severity = .crit ∨ z.severity = .maj → z.audible = x.audible) ∧
      (z.severity ≠ x.severity ∨ z.nsa ≠ x.nsa → x.shown = true →
        .severity i x.type x.obj x.severity z.severity z.nsa ∈ (profileWork s y pf).recs) := by
  have hsound := ((tableOk_iff _).1 hok).1
  have hnone := profile_candidates (s := s) (y := y) (pf := pf) [] [] (hy ▸ (hsound.belongs i x hx).tabled)
  have hwork : takenWork s s.alm (regraded s y pf) [] [] [] = gradedWork s (regraded s y pf) [] [] := by
    unfold takenWork
    rw [hnone, List.foldl_nil]
  have hx' : (regraded s y pf).entries[i].alarm = some x := hx
  obtain ⟨z, hz, heq, hgrade, _, hrest⟩ := stays_said (s := s) (before := s.alm) (a := regraded s y pf) (events := [])
    (offered := []) (dropped := []) hx' (hsound.audible i x hx) (regraded_stays hok hx ((regraded_tabled hy).trans hon)) rfl
    fun z _ hz => by rw [hwork]; exact hz
  unfold profileWork
  exact ⟨z, hz, heq, hgrade, hrest⟩

theorem profile_takes {t : CondType} {o : Nat} (ht : t.index = y) (hroom : Room (profileWork s y pf).alm)
    (hold : (s.alm.profile[y]).severity.tabled = false) (hon : pf.severity.tabled = true) (hpres : s.alm.isPresent t o = true)
    (hsup : s.alm.suppressed t o = false) :
    ∃ (i : EntryIx) (z : Alarm), (profileWork s y pf).alm.entries[i].alarm = some z ∧ z.type = t ∧ z.obj = o ∧
      z.raiseTime = s.now ∧
      z.state = (if (s.alm.profile[y]).raise = 0 then .active else .pending ((s.alm.profile[y]).raise * 4)) := by
  have hno : NoEntry (regraded s y pf) (t, o) := by
    intro i x hx heq
    obtain ⟨hxt, _⟩ := Prod.mk.inj heq
    have htab := (((tableOk_iff _).1 hok).1.belongs i x hx).tabled
    simp only [Alm.profileOf, hxt] at htab
    subst ht
    rw [hold] at htab
    cases htab
  have helig : Eligible (regraded s y pf) (t, o) := ⟨(regraded_tabled ht).trans hon, hsup, hpres⟩
  have hwhy : (s.alm.profileOf t).severity.tabled = false := by subst ht; exact hold
  have hcand := candidate_of (s := s) (events := []) (dropped := []) (before := s.alm) (offered := []) helig hno
    (.inr (.inr hwhy))
  unfold profileWork at hroom ⊢
  have hfilled := takenWork_filled (s := s) (before := s.alm) (a := regraded s y pf) (events := []) (offered := [])
    (dropped := []) hroom
  obtain ⟨i, hi, _⟩ := hfilled.takes _ hcand
  refine ⟨i, _, hi, rfl, rfl, rfl, ?_⟩
  simp only [takenAlarm, regraded_raise ht]
  rfl

end

/-! ### The commands -/

section
variable {s : State} {k : SlotIx}

theorem askAlak_all (h : param16 s k 0 = 0xFFFF) :
    ownerOf k .alak s = done (settled (putAlm s (almAck s (List.finRange 128)))) 0 := if_pos h

theorem askAlak_named {i : EntryIx} (h : i.val = param16 s k 0) : ownerOf k .alak s =
    if s.alm.entries[i].alarm.isSome then done (settled (putAlm s (almAck s [i]))) 0 else done s 1 := by
  have hi : param16 s k 0 < 128 := h ▸ i.isLt
  have hentry : (⟨param16 s k 0, hi⟩ : EntryIx) = i := Fin.ext h.symm
  change askAlak k s = _
  have hne : param16 s k 0 ≠ ackAll := by unfold ackAll; omega
  simp only [askAlak, if_neg hne, dif_pos hi, hentry]

theorem askAlak_beyond (h : 127 < param16 s k 0) (hall : param16 s k 0 ≠ 0xFFFF) : ownerOf k .alak s = refuse s .badArg 0 := by
  change askAlak k s = _
  simp only [askAlak, if_neg (show param16 s k 0 ≠ ackAll from hall), dif_neg (show ¬param16 s k 0 < 128 by omega)]

theorem audibleCount_eq (a : Alm) : a.audibleCount = (List.finRange 128).countP fun i => a.entries[i].alarm.any (·.audible) := by
  unfold Alm.audibleCount
  rw [List.countP_eq_length_filter]
  refine congrArg (fun f => (List.filter f _).length) (funext fun i => ?_)
  cases a.entries[i].alarm <;> rfl

end

/-- R144: once every entry is silenced, the audible relay is off. -/
theorem quiet_of_silenced {a b : Alm} (h : ∀ i : EntryIx, b.entries[i].alarm = a.entries[i].alarm.map silencedAlarm) :
    (formOutputs b).audible = false := by
  refine Bool.eq_false_iff.2 fun hr => ?_
  obtain ⟨i, x, hx, haud⟩ := (rings_iff _).1 hr
  rw [h] at hx
  obtain ⟨z, _, rfl⟩ := Option.map_eq_some_iff.1 hx
  cases haud

/-- Settles O34: suppression, coverage, a profile entry by the fate of its type's entries, and the two commands entry by entry. -/
theorem alarmCommands : Obligations.AlarmCommands := by
  unfold Obligations.AlarmCommands
  refine ⟨fun a => ⟨fun t p h => suppressed_port a p h, suppressed_ref a, fun t o => suppressed_other a o⟩,
    fun s a => ⟨fun t p => gradeOf_port a s p, fun t d => gradeOf_card a s d, fun t o => gradeOf_other a s o⟩,
    fun s y pf hok => ?_, fun k s => ⟨fun hs => ?_, fun hs => ?_⟩⟩
  · have hsound := ((tableOk_iff _).1 hok).1
    simp only [almProfile_writes, almProfile_alarm, almProfile_gradeOf]
    refine ⟨almProfile_profile s y pf, (almProfile_reads s y pf).1, fun t o d hw => ?_, fun i x hx hy => ⟨fun hoff => ?_,
      fun hon => ?_⟩, fun t o ht hroom hold hon hpres hsup => ?_⟩
    · unfold profileWork at hw
      rcases of_mem_takenWork_recs hw with h | h | h | ⟨_, _, _, _, _, h⟩
      · cases h
      · obtain ⟨_, _, _, _, _, _, heq⟩ := mem_goneRecs.1 h
        cases heq
      · obtain ⟨_, _, _, _, _, _, _, heq⟩ := mem_severityRecs.1 h
        cases heq
      · cases h
    · exact ⟨fun j z hz hzy => profile_leaves hz hzy hoff, fun hs => profile_gone hx hy hoff hs⟩
    · exact profile_stays hok hx hy hon
    · exact profile_takes hok ht hroom hold hon hpres hsup
  · refine ⟨fun hbig hall => request_refused hs (askAlak_beyond hbig hall), fun i hi hnone => ?_, fun i hi hsome => ?_,
      fun hall => ?_⟩
    · obtain ⟨_, hbusy, hwf⟩ := serving_iff.1 hs
      have howner := askAlak_named hi
      rw [hnone] at howner
      obtain ⟨t, hexec, h1, h2, h3⟩ := request_served hs howner (owned_self hbusy hwf)
      exact ⟨t, hexec, h1, h2, h3⟩
    · have howner := askAlak_named hi
      rw [if_pos (Option.isSome_iff_ne_none.2 hsome)] at howner
      have hsaid := almAck_said s (List.nodup_singleton i)
      simp only [List.mem_singleton] at hsaid
      exact request_each hs howner (almFinish_noReq s.alm _) hsaid
    · have hsaid := almAck_said s allEntries_nodup
      simp only [List.mem_finRange, if_true] at hsaid
      exact request_each hs (askAlak_all hall) (almFinish_noReq s.alm _) hsaid
  · have hsaid := almCutOff_said s
    simp only [List.mem_finRange, if_true] at hsaid
    have howner : ownerOf k .alco s = done (settled (putAlm s (almCutOff s)))
        ((List.finRange 128).countP fun i => s.alm.entries[i].alarm.any (·.audible)) := by
      rw [← audibleCount_eq]
      rfl
    obtain ⟨t, hexec, hanswered, heach, hrest⟩ := request_each hs howner (almFinish_noReq s.alm _) hsaid
    refine ⟨t, hexec, hanswered, ?_, heach, hrest⟩
    obtain ⟨_, _, _, hout, _⟩ := hrest
    rw [hout]
    exact quiet_of_silenced fun i => (heach i).1

end Sys2Proof.Proofs
end

