-- ==== Sys2Proof/Proofs/ContactInputs.lean ====
section
/-! CIU: a change at a contact's pin, and a debounce timer that runs out (R53, R144 to R147). -/

namespace Sys2Proof.Proofs

open Sys2Proof.Machine Sys2Proof.Safety Sys2Proof.Laws

/-! ### The order an inactive FRAME edge takes (R53) -/

/-- An OPEN order of the frame section. -/
def Framed (f : Nat) (o : Order) : Prop := o.state = .opened ∧ o.frameSection.map (·.val) = some f

section
variable (s : State) (f : Nat)

theorem enterVerifying_entered (w : CbcWork) (i : OrderIx) (o : Order) (why : Reason) :
    ∃ o' : Order, o'.number = o.number ∧ o'.reason = some why ∧ (o'.state = .verifying ∨ o'.state = .closedGood) ∧
      ∀ j : OrderIx, (enterVerifying s w i o why).cbc.orders[j] = if j = i then some o' else w.cbc.orders[j] := by
  by_cases hok : allOk (verifyingOrder s w o why).items = true
  · refine ⟨{ verifyingOrder s w o why with state := .closedGood, timer := none }, rfl, rfl, .inr rfl, fun j => ?_⟩
    rw [enterVerifying_eq, if_pos hok, closeGood, putOrder_order, releaseHolds_orders, putOrder_order, installItems_orders]
    split <;> rfl
  · refine ⟨verifyingOrder s w o why, rfl, rfl, .inl rfl, fun j => ?_⟩
    rw [enterVerifying_eq, if_neg hok, putOrder_order, installItems_orders]

theorem frameOrder_other (w : CbcWork) {i j : OrderIx} (h : j ≠ i ∨ ∀ o, w.cbc.orders[j] = some o → ¬Framed f o) :
    (frameOrder s f w i).cbc.orders[j] = w.cbc.orders[j] := by
  unfold frameOrder
  split
  · rfl
  · next o ho =>
    split
    · next hf =>
      obtain ⟨_, _, _, _, horders⟩ := enterVerifying_entered s w i o .frame
      rw [horders]
      refine if_neg fun hj => ?_
      subst hj
      exact h.elim (fun hne => hne rfl) fun hno => hno o ho hf
    · rfl

theorem frameOrder_entered (w : CbcWork) {i : OrderIx} {o : Order} (ho : w.cbc.orders[i] = some o) (h : Framed f o) :
    ∃ o', (frameOrder s f w i).cbc.orders[i] = some o' ∧ o'.number = o.number ∧ o'.reason = some .frame ∧
      (o'.state = .verifying ∨ o'.state = .closedGood) := by
  obtain ⟨o', hnumber, hreason, hstate, horders⟩ := enterVerifying_entered s w i o .frame
  refine ⟨o', ?_, hnumber, hreason, hstate⟩
  unfold frameOrder
  split
  · next hno => rw [ho] at hno; cases hno
  · next o2 ho2 =>
    obtain rfl := Option.some.inj (ho.symm.trans ho2)
    split
    · rw [horders, if_pos rfl]
    · next hf => exact absurd h hf

theorem frameOrders_other (is : List OrderIx) (w : CbcWork) {j : OrderIx}
    (h : j ∉ is ∨ ∀ o, w.cbc.orders[j] = some o → ¬Framed f o) :
    (is.foldl (frameOrder s f) w).cbc.orders[j] = w.cbc.orders[j] := by
  induction is generalizing w with
  | nil => rfl
  | cons i is ih =>
    have hstep : (frameOrder s f w i).cbc.orders[j] = w.cbc.orders[j] :=
      frameOrder_other s f w (h.imp (fun hj => List.ne_of_not_mem_cons hj) id)
    rw [List.foldl_cons, ih, hstep]
    rw [hstep]
    exact h.imp (fun hj => List.not_mem_of_not_mem_cons hj) id

theorem cbcFrame_order (j : OrderIx) {o : Order} (ho : s.cbc.orders[j] = some o) :
    (Framed f o → ∃ o', (cbcFrame s f).1.orders[j] = some o' ∧ o'.number = o.number ∧ o'.reason = some .frame ∧
      (o'.state = .verifying ∨ o'.state = .closedGood)) ∧
    (¬Framed f o → (cbcFrame s f).1.orders[j] = some o) := by
  have horders : (cbcFrame s f).1.orders = (allOrders.foldl (frameOrder s f) (cbcBegin s)).cbc.orders := by
    simp only [cbcFrame, cbcEnd]
  rw [horders]
  have hbegin : (cbcBegin s).cbc.orders[j] = some o := ho
  refine ⟨fun hf => ?_, fun hf => ?_⟩
  · obtain ⟨pre, post, hsplit⟩ := List.append_of_mem (show j ∈ allOrders from List.mem_finRange j)
    have hnd : (pre ++ j :: post).Nodup := hsplit ▸ List.nodup_finRange _
    obtain ⟨_, hpost, hapart⟩ := List.nodup_append.1 hnd
    have hpre : j ∉ pre := fun hin => hapart j hin j List.mem_cons_self rfl
    rw [hsplit, List.foldl_append, List.foldl_cons, frameOrders_other s f post _ (.inl (List.nodup_cons.1 hpost).1)]
    exact frameOrder_entered s f _ ((frameOrders_other s f pre _ (.inl hpre)).trans hbegin) hf
  · rw [frameOrders_other s f _ _ (.inr fun o' ho' => ?_), hbegin]
    obtain rfl := Option.some.inj (hbegin.symm.trans ho')
    exact hf

end

/-! ### The acceptance (R146, R147) -/

/-- An event of one hand-on. -/
theorem settled_one {m : Msg} (h : m.expand = [m]) (s : State) : settled (s, [m]) = taken 9 m s := by
  change ([m].flatMap Msg.expand).foldl (fun t m => taken 9 m t) s = _
  rw [List.flatMap_cons, h]
  rfl

section
variable (s : State) (i : InputIx)

/-- The state once the acceptance is recorded, before the role acts. -/
def accepted : State := settled (putCiu s (ciuAccept s i))

theorem exec_debounceExpiry (hready : s.start.ready = true) (htimer : s.ciu[i].timer ≠ none) :
    exec (.debounceExpiry i) s = .next (settled (accepted s i, contactActs i s.ciu[i])) := by
  refine whenever_true ?_ s _
  rw [hready, Bool.true_and]
  exact Option.isSome_iff_ne_none.2 htimer

theorem edge_iff (c : ContactIn) : c.edge = true ↔ c.stable ≠ none ∧ c.stable ≠ some c.pin := by
  simp only [ContactIn.edge, Bool.and_eq_true, decide_eq_true_eq, Option.isSome_iff_ne_none]

/-- The record an acceptance writes. -/
def contactRecs : List JBody :=
  if s.ciu[i].edge then [.contact i (s.ciu[i].pin == s.ciu[i].activeHigh) s.ciu[i].role s.ciu[i].frameSection] else []

theorem ciuAccept_msgs : (ciuAccept s i).2 = toJrn (contactRecs s i) := by
  simp only [ciuAccept, contactRecs, ContactIn.isActive]
  split <;> rfl

theorem accepted_said : (accepted s i).ciu = s.ciu.set i (contactAccept s.ciu[i]) ∧
    (accepted s i).jrn = (jrnRecords s (contactRecs s i)).1 ∧ unchangedBut [.ciu, .jrn, .attn, .choices] s (accepted s i) := by
  have hminor : ∀ m ∈ (ciuAccept s i).2, Minor m := by
    intro m hm
    rw [ciuAccept_msgs, toJrn] at hm
    split at hm
    · cases hm
    · exact .inl ⟨_, List.mem_singleton.1 hm⟩
  have hmem : ∀ bs, .jrn bs ∈ (ciuAccept s i).2 ↔ bs = contactRecs s i ∧ contactRecs s i ≠ [] := by
    intro bs
    rw [ciuAccept_msgs, toJrn]
    cases contactRecs s i <;> simp
  have hcount : (ciuAccept s i).2.count (.jrn (contactRecs s i)) ≤ 1 := by
    refine List.count_le_length.trans ?_
    rw [ciuAccept_msgs, toJrn]
    split <;> simp
  have hbelow : Below 2 (ciuAccept s i).2 := by
    rw [ciuAccept_msgs]
    exact below_toJrn 2 _ (by decide)
  refine ⟨settledCiu_ciu s (ciuAccept s i), settle_jrnRecords 9 hminor hmem hcount _, ?_⟩
  refine unchangedBut_trans (t := (putCiu s (ciuAccept s i)).1) (fun q hq => ?_)
    (unchangedBut_mono (settle_unchanged 2 10 _ _ hbelow) (by decide))
  cases q <;> first | exact absurd (by decide) hq | rfl

theorem accepted_ciu (j : InputIx) : (accepted s i).ciu[j] = if j = i then contactAccept s.ciu[i] else s.ciu[j] := by
  rw [(accepted_said s i).1]
  exact getElem_set_fin _ _ _ _

end


/-! ### What the roles do (R53, R144, R145) -/

section
variable {s : State} {i : InputIx}

theorem contactActs_quiet (h : s.ciu[i].role ≠ .generic) (hno : s.ciu[i].edge = true → s.ciu[i].role = .none ∨
    (s.ciu[i].role = .aco ∧ s.ciu[i].isActive s.ciu[i].pin = false) ∨
    (s.ciu[i].role = .frame ∧ s.ciu[i].isActive s.ciu[i].pin = true)) : contactActs i s.ciu[i] = [] := by
  generalize s.ciu[i] = c at *
  have hcond : c.condition = false ∧ (contactAccept c).condition = false := by
    unfold ContactIn.condition contactAccept
    cases hr : c.role <;> simp_all
  unfold contactActs
  rw [hcond.1, hcond.2]
  cases he : c.edge with
  | false => cases c.role <;> rfl
  | true =>
    rcases hno he with hr | ⟨hr, ha⟩ | ⟨hr, ha⟩
    · rw [hr]; rfl
    · rw [hr, ha]; rfl
    · rw [hr, ha]; rfl

theorem contactActs_aco (h : s.ciu[i].role = .aco) (he : s.ciu[i].edge = true) (ha : s.ciu[i].isActive s.ciu[i].pin = true) :
    contactActs i s.ciu[i] = [.almCutOff] := by
  generalize s.ciu[i] = c at *
  unfold contactActs ContactIn.condition contactAccept
  simp only [h, he, ha, Bool.and_self, if_true]
  rfl

theorem contactActs_frame (h : s.ciu[i].role = .frame) (he : s.ciu[i].edge = true)
    (ha : s.ciu[i].isActive s.ciu[i].pin = false) : contactActs i s.ciu[i] = [.cbcFrame s.ciu[i].frameSection] := by
  generalize s.ciu[i] = c at *
  unfold contactActs ContactIn.condition contactAccept
  simp only [h, he, ha, Bool.not_false, Bool.and_self, if_true]
  rfl

theorem contactActs_generic (h : s.ciu[i].role = .generic) : contactActs i s.ciu[i] =
    toAlm (flagChange .contact i (s.ciu[i].stable.any s.ciu[i].isActive) (s.ciu[i].isActive s.ciu[i].pin)) := by
  generalize s.ciu[i] = c at *
  have hcond : c.condition = c.stable.any c.isActive ∧ (contactAccept c).condition = c.isActive c.pin := by
    unfold ContactIn.condition contactAccept
    rw [h]
    cases c.stable <;> exact ⟨rfl, rfl⟩
  unfold contactActs
  rw [hcond.1, hcond.2, h]
  rfl

theorem contactActs_noMode : ∀ m ∈ contactActs i s.ciu[i], NoMode m := by
  intro m hm
  unfold contactActs at hm
  rcases List.mem_append.1 hm with hm | hm
  · split at hm
    · split at hm
      · rw [List.mem_singleton.1 hm]; exact nofun
      · cases hm
    · split at hm
      · rw [List.mem_singleton.1 hm]; exact nofun
      · cases hm
    · cases hm
    · cases hm
  · exact toAlm_noMode _ m hm

/-- R144: an active edge of ACO. -/
theorem taken_cutOff (u : State) : EachSaid (fun _ x => silencedAlarm x) u (taken 9 .almCutOff u) := by
  have hwork : taken 9 .almCutOff u = settle (8 + 1) (almCutOff u).2 { u with alm := (almCutOff u).1 } := rfl
  have hsaid := eachSaid (table_passed (a := u.alm) (w := noWork u) (fun w i _ => silenceEntry_eq w i) (.refl _))
    (settleAlm_said 8 u ((List.finRange 128).foldl silenceEntry (noWork u)))
  simp only [List.mem_finRange, if_true] at hsaid
  rw [hwork]
  exact hsaid

/-- R53: an inactive edge of FRAME(f). -/
theorem taken_frame (u : State) (f : Nat) : (taken 9 (.cbcFrame f) u).cbc = (cbcFrame u f).1 ∧
    unchangedBut (.cbc :: handsOn) u (taken 9 (.cbcFrame f) u) := by
  have hwork : taken 9 (.cbcFrame f) u = settle 9 (cbcFrame u f).2 (putCbc u (cbcFrame u f)).1 := rfl
  have hmsgs : ∀ m ∈ (cbcFrame u f).2, NoReport m := by
    unfold cbcFrame
    exact cbcEnd_noReport _
  rw [hwork]
  generalize cbcFrame u f = x at hmsgs
  have hbelow : Below 7 x.2 := fun m hm => (hmsgs m hm).1
  refine ⟨(settle_unchanged 7 9 x.2 (putCbc u x).1 hbelow .cbc (by decide)).trans (by simp), ?_⟩
  refine unchangedBut_trans (t := (putCbc u x).1) (fun q hq => ?_)
    (unchangedBut_mono (settle_handsOn 9 hmsgs _) fun q hq => List.mem_cons_of_mem _ hq)
  cases q <;> first | exact absurd (by decide) hq | simp [Part.same]

theorem taken_batchFrame (u : State) (b : List AlmChange) : unchangedBut [.alm, .jrn, .attn, .choices] u (taken 9 (.alm b) u) := by
  have hwork : taken 9 (.alm b) u = settle (8 + 1) (almBatch u b).2 { u with alm := (almBatch u b).1 } := rfl
  rw [hwork, almBatch_eq]
  exact (settleAlm_said 8 u (batchWork u b)).frame

end

/-- R145: CONTACT after the acceptance at a GENERIC input. -/
theorem generic_said {s u : State} {i : InputIx} (h : s.ciu[i].role = .generic) :
    let t := settled (u, contactActs i s.ciu[i])
    unchangedBut [.alm, .jrn, .attn, .choices] u t ∧
    (s.ciu[i].isActive s.ciu[i].pin = true → s.ciu[i].stable ≠ some s.ciu[i].pin → t.alm.isPresent .contact i = true) ∧
    (s.ciu[i].isActive s.ciu[i].pin = false → s.ciu[i].stable = some s.ciu[i].activeHigh → u.alm.present.Nodup →
      t.alm.isPresent .contact i = false) := by
  simp only [contactActs_generic h]
  generalize s.ciu[i] = c at *
  refine ⟨?_, fun ha hne => ?_, fun ha hst hnd => ?_⟩
  · cases c.stable.any c.isActive <;> cases c.isActive c.pin
    · exact fun q _ => by cases q <;> rfl
    · rw [show toAlm (flagChange .contact i false true) = [.alm [.offer .contact i]] from rfl, settled_one rfl]
      exact taken_batchFrame u _
    · rw [show toAlm (flagChange .contact i true false) = [.alm [.withdraw .contact i]] from rfl, settled_one rfl]
      exact taken_batchFrame u _
    · exact fun q _ => by cases q <;> rfl
  · have hbefore : c.stable.any c.isActive = false := by
      cases hst : c.stable with
      | none => rfl
      | some l =>
        have hl : l ≠ c.pin := fun heq => hne (by rw [hst, heq])
        revert ha hl
        simp only [ContactIn.isActive, Option.any_some]
        cases l <;> cases c.pin <;> cases c.activeHigh <;> simp
    rw [hbefore, ha, show toAlm (flagChange .contact i false true) = [.alm [.offer .contact i]] from rfl, settled_one rfl,
      taken_batch, (almBatch_context u _).isPresent]
    exact isPresent_offer u.alm
  · have hbefore : c.stable.any c.isActive = true := by
      rw [hst]
      simp [ContactIn.isActive]
    rw [hbefore, ha, show toAlm (flagChange .contact i true false) = [.alm [.withdraw .contact i]] from rfl, settled_one rfl,
      taken_batch, (almBatch_context u _).isPresent]
    refine decide_eq_false fun hin => ?_
    exact ((List.Nodup.mem_erase_iff hnd).1 hin).1 rfl

/-- Whatever the role, it reaches the work orders and the blocks below them alone. -/
theorem contactActs_reach (s : State) (i : InputIx) :
    unchangedBut (.cbc :: handsOn) (accepted s i) (settled (accepted s i, contactActs i s.ciu[i])) := by
  have hnothing (u : State) : unchangedBut (.cbc :: handsOn) u (settled (u, [])) := fun q _ => by cases q <;> rfl
  by_cases hgeneric : s.ciu[i].role = .generic
  · exact unchangedBut_mono (generic_said hgeneric).1 (by decide)
  by_cases haco : s.ciu[i].role = .aco ∧ s.ciu[i].edge = true ∧ s.ciu[i].isActive s.ciu[i].pin = true
  · rw [contactActs_aco haco.1 haco.2.1 haco.2.2, settled_one rfl]
    exact unchangedBut_mono (taken_cutOff _).frame (by decide)
  by_cases hframe : s.ciu[i].role = .frame ∧ s.ciu[i].edge = true ∧ s.ciu[i].isActive s.ciu[i].pin = false
  · rw [contactActs_frame hframe.1 hframe.2.1 hframe.2.2, settled_one rfl]
    exact (taken_frame _ _).2
  · rw [contactActs_quiet hgeneric fun he => ?_]
    · exact hnothing _
    · cases hr : s.ciu[i].role with
      | none => exact .inl rfl
      | generic => exact absurd hr hgeneric
      | aco => exact .inr (.inl ⟨rfl, Bool.eq_false_iff.2 fun ha => haco ⟨hr, he, ha⟩⟩)
      | frame => exact .inr (.inr ⟨rfl, (Bool.eq_false_or_eq_true _).resolve_right fun ha => hframe ⟨hr, he, ha⟩⟩)

/-- Settles O35: the record of an edge comes first, then what the input's role does. -/
theorem contactInputs : Obligations.ContactInputs := by
  unfold Obligations.ContactInputs
  refine ⟨fun i high s hne => ?_, fun i s hready htimer => ?_⟩
  · have hset (c : ContactIn) (j : InputIx) : (s.ciu.set i c)[j] = if j = i then c else s.ciu[j] := getElem_set_fin _ _ _ _
    have hframe (v : Vector ContactIn 8) : unchangedBut [.ciu] s { s with ciu := v } := by
      intro q hq
      cases q <;> first | exact absurd (by decide) hq | rfl
    cases hready : s.start.ready with
    | true =>
      refine ⟨{ s with ciu := s.ciu.set i (contactChange s.ciu[i] high) }, ?_, fun _ => ?_, nofun, fun j hj => ?_, hframe _⟩
      · change execContactPinChange i high s = _
        rw [execContactPinChange, if_pos hready]
        exact whenever_true (decide_eq_true hne) s _
      · simp only [hset, if_true, contactChange]
        split <;> rfl
      · simp only [hset, if_neg hj]
    | false =>
      refine ⟨movePin s i high, ?_, nofun, fun _ => ?_, fun j hj => ?_, hframe _⟩
      · change execContactPinChange i high s = _
        rw [execContactPinChange, hready, if_neg Bool.false_ne_true]
      · simp only [movePin, hset, if_true]
      · simp only [movePin, hset, if_neg hj]
  · obtain ⟨_, hjrn, hframe⟩ := accepted_said s i
    have hrest := settled_unchanged (accepted s i, contactActs i s.ciu[i])
    have hciu : (settled (accepted s i, contactActs i s.ciu[i])).ciu = (accepted s i).ciu := hrest .ciu (by decide)
    have hone := accepted_ciu s i
    refine ⟨_, exec_debounceExpiry s i hready htimer, ?_, fun j hj => ?_, ?_⟩
    · rw [hciu, hone, if_pos rfl]
      rfl
    · rw [hciu, hone, if_neg hj]
    rw [← edge_iff]
    have hquiet (h : contactActs i s.ciu[i] = []) : settled (accepted s i, contactActs i s.ciu[i]) = accepted s i := by
      rw [h]
      rfl
    have hrecord (he : s.ciu[i].edge = true) : (accepted s i).jrn =
        (jrnRecords s [.contact i (s.ciu[i].isActive s.ciu[i].pin) s.ciu[i].role s.ciu[i].frameSection]).1 := by
      rw [hjrn, contactRecs, if_pos he]
      rfl
    refine ⟨fun hno hrole => ?_, fun he => ?_, fun he hrole => ?_, fun he hrole => ?_,
      fun he hrole ha => ?_, fun he hrole ha j o ho => ?_, fun hrole => ?_, ?_⟩
    · have hsame : accepted s i = { s with ciu := s.ciu.set i (contactAccept s.ciu[i]) } := by
        refine settled_quiet ?_
        rw [putCiu, ciuAccept_msgs, contactRecs, if_neg hno]
        rfl
      rw [hquiet (contactActs_quiet hrole fun he => absurd he hno), hsame]
      intro q hq
      cases q <;> first | exact absurd (by decide) hq | rfl
    · obtain ⟨hstart, events, hevents⟩ := settle_records 10 (contactActs_noMode (s := s) (i := i)) (accepted s i)
      exact ⟨events, hevents.trans (journalAfter_then (events := [[_]]) (hframe .start (by decide)) (hrecord he) events)⟩
    · rw [hquiet (contactActs_quiet (by rw [hrole]; nofun) fun _ => .inl hrole)]
      exact ⟨hrecord he, hframe⟩
    · cases ha : s.ciu[i].isActive s.ciu[i].pin with
      | true =>
        rw [contactActs_aco hrole he ha, settled_one rfl]
        have hsaid := taken_cutOff (accepted s i)
        have halm : (accepted s i).alm = s.alm := hframe .alm (by decide)
        refine ⟨hsaid.jrn.trans (hrecord he), unchangedBut_trans (unchangedBut_mono hframe (by decide))
          (unchangedBut_mono hsaid.frame (by decide)), fun _ => ⟨?_, fun j => ?_⟩, fun hno => ?_⟩
        · rw [hsaid.outputs]
          exact quiet_of_silenced fun j => (hsaid.entry j).1
        · rw [(hsaid.entry j).1, halm]
          rfl
        · exact absurd (ha.symm.trans hno) (by decide)
      | false =>
        rw [hquiet (contactActs_quiet (by rw [hrole]; nofun) fun _ => .inr (.inl ⟨hrole, ha⟩))]
        refine ⟨hrecord he, unchangedBut_mono hframe (by decide), fun hon => ?_, fun _ => hframe .alm (by decide)⟩
        exact absurd (ha.symm.trans hon) (by decide)
    · rw [hquiet (contactActs_quiet (by rw [hrole]; nofun) fun _ => .inr (.inr ⟨hrole, ha⟩))]
      exact ⟨hrecord he, hframe⟩
    · rw [contactActs_frame hrole he ha, settled_one rfl, (taken_frame _ _).1]
      have ho' : (accepted s i).cbc.orders[j] = some o := by rw [hframe .cbc (by decide), ho]
      obtain ⟨hin, hout⟩ := cbcFrame_order (accepted s i) s.ciu[i].frameSection j ho'
      exact ⟨fun hopen hsec => hin ⟨hopen, hsec⟩, fun hno => hout fun hf => hno.elim (fun h => h hf.1) fun h => h hf.2⟩
    · obtain ⟨hunch, hon, hoff⟩ := generic_said (u := accepted s i) hrole
      have halm : (accepted s i).alm = s.alm := hframe .alm (by decide)
      exact ⟨hon, fun ha hst hnd => hoff ha hst (halm ▸ hnd),
        unchangedBut_trans (unchangedBut_mono hframe (by decide)) (unchangedBut_mono hunch (by decide))⟩
    · exact unchangedBut_trans (unchangedBut_mono hframe (by decide)) (unchangedBut_mono (contactActs_reach s i) (by decide))

end Sys2Proof.Proofs
end

