-- ==== Sys2Proof/Proofs/MemberEvents.lean ====
section
/-! What an event at a member's port makes of its group: the monitor record, the wait, the list (R66 to R69, R75 to R77). -/

namespace Sys2Proof.Proofs

open Sys2Proof.Machine Sys2Proof.Safety Sys2Proof.Laws

/-! ### What member events touch -/

/-- The two groups agree but for the monitor records, the wait and the list. -/
def Moved (g h : Group) : Prop := ∃ ms w o, h = { g with mons := ms, wait := w, order := o }

theorem Moved.refl (g : Group) : Moved g g := ⟨_, _, _, rfl⟩

theorem Moved.trans {g h k : Group} (hgh : Moved g h) (hhk : Moved h k) : Moved g k := by
  obtain ⟨_, _, _, rfl⟩ := hgh
  obtain ⟨_, _, _, rfl⟩ := hhk
  exact ⟨_, _, _, rfl⟩

section
variable (g : Group) (m : Nat)

theorem putMon_moved (x : Mon) : Moved g (g.putMon m x) := by
  unfold Group.putMon
  split
  · exact ⟨_, _, _, rfl⟩
  · exact .refl g

theorem relist_moved : Moved g (g.relist m) := by
  obtain ⟨o, ho⟩ := relist_eq g m
  exact ⟨_, _, o, ho⟩

theorem endWaitOf_moved : Moved g (g.endWaitOf m) := by
  unfold Group.endWaitOf
  split
  · split <;> exact ⟨_, _, _, rfl⟩
  · exact .refl g

theorem suspend_moved : Moved g (g.suspend m) := by
  unfold Group.suspend
  split
  · split <;> exact ⟨_, _, _, rfl⟩
  · exact .refl g

/-! ### Monitor records -/

theorem putMon_mon (hm : m < 7) (x : Mon) (j : Nat) : (g.putMon m x).mon j = if j = m then x else g.mon j := by
  unfold Group.mon Group.putMon
  rw [dif_pos hm]
  split
  · next hj => exact getElem_set_fin _ (⟨m, hm⟩ : Fin 7) (⟨j, hj⟩ : Fin 7) x |>.trans (if_congr Fin.ext_iff rfl rfl)
  · next hj => rw [if_neg (by omega)]

@[simp] theorem putMon_wait (x : Mon) : (g.putMon m x).wait = g.wait := by
  unfold Group.putMon
  split <;> rfl

@[simp] theorem putMon_order (x : Mon) : (g.putMon m x).order = g.order := by
  unfold Group.putMon
  split <;> rfl

@[simp] theorem relist_mon (j : Nat) : (g.relist m).mon j = g.mon j := (relist_same g m).mon j

@[simp] theorem endWaitOf_mon (j : Nat) : (g.endWaitOf m).mon j = g.mon j := by
  unfold Group.endWaitOf
  split
  · split <;> rfl
  · rfl

@[simp] theorem suspend_mon (j : Nat) : (g.suspend m).mon j = g.mon j := by
  unfold Group.suspend
  split
  · split <;> rfl
  · rfl

/-! ### The wait -/

/-- R76: the wait once that of member `m` has ended. -/
def endedWait (m : Nat) : Option Wait → Option Wait
  | some w => if w.mem = m then none else some w
  | none => none

/-- R76: the wait once the timer of member `m` is suspended. -/
def suspendedWait (m : Nat) : Option Wait → Option Wait
  | some (.restore j n) => some (.restore j (if j = m then none else n))
  | w => w

@[simp] theorem endWaitOf_wait : (g.endWaitOf m).wait = endedWait m g.wait := by
  unfold Group.endWaitOf endedWait
  cases hw : g.wait with
  | none => exact hw
  | some w =>
    simp only
    split
    · rfl
    · exact hw

@[simp] theorem suspend_wait : (g.suspend m).wait = suspendedWait m g.wait := by
  unfold Group.suspend suspendedWait
  split
  · next j n hw => by_cases h : j = m <;> simp [h, hw]
  · next hno =>
    cases hw : g.wait with
    | none => simp
    | some w =>
      cases w with
      | restore j n => exact absurd hw (hno j n)
      | stay j => simp

end

theorem endedWait_of_mem {m : Nat} {w : Wait} (h : w.mem = m) : endedWait m (some w) = none := by simp [endedWait, h]

/-! ### The hold-off (R66, R67) -/

/-- R67, R68: the request a port's state raises. -/
def raisedBy (g : Group) (m : Nat) (st : PortState) : Option Raised :=
  if st.sf then some .fail else if g.applicable m st then some .degrade else none

theorem raisedBy_eq_none {g : Group} {m : Nat} {st : PortState} : raisedBy g m st = none ↔ g.applicable m st = false := by
  unfold raisedBy
  cases hsf : st.sf with
  | true => simp [Group.applicable, hsf]
  | false => simp

section
variable (g : Group) {m : Nat} (hm : m < 7) (st : PortState)
include hm

theorem holdOffOut_raises {r : Raised} (h : raisedBy g m st = some r) : g.holdOffOut m st =
    (((g.putMon m { g.mon m with timer := none }).putMon m { g.mon m with timer := none, raised := some r }).endWaitOf m).relist m := by
  have hmon : (g.putMon m { g.mon m with timer := none }).mon m = { g.mon m with timer := none } := by
    rw [putMon_mon g m hm, if_pos rfl]
  unfold Group.holdOffOut
  unfold raisedBy at h
  simp only [h, hmon]

theorem holdOffOut_mon (j : Nat) : (g.holdOffOut m st).mon j = if j = m then
    { g.mon m with timer := none, raised := (raisedBy g m st).or (g.mon m).raised } else g.mon j := by
  cases hr : raisedBy g m st with
  | some r =>
    rw [holdOffOut_raises g hm st hr, relist_mon, endWaitOf_mon, putMon_mon _ _ hm, putMon_mon _ _ hm]
    split <;> rfl
  | none =>
    have hnone : (g.holdOffOut m st).mon j = (g.putMon m { g.mon m with timer := none }).mon j := by
      unfold Group.holdOffOut
      unfold raisedBy at hr
      simp only [hr]
      split
      · split <;> rfl
      · rfl
    rw [hnone, putMon_mon _ _ hm]
    split <;> simp

omit hm in
theorem holdOffOut_moved : Moved g (g.holdOffOut m st) := by
  unfold Group.holdOffOut
  simp only
  split
  · exact (((putMon_moved _ _ _).trans (putMon_moved _ _ _)).trans (endWaitOf_moved _ _)).trans (relist_moved _ _)
  · split
    · split
      · exact (putMon_moved _ _ _).trans ⟨_, _, _, rfl⟩
      · exact putMon_moved _ _ _
    · exact putMon_moved _ _ _

theorem holdOffOut_wait_raised (h : raisedBy g m st ≠ none) : (g.holdOffOut m st).wait = endedWait m g.wait := by
  obtain ⟨r, hr⟩ := Option.ne_none_iff_exists'.1 h
  rw [holdOffOut_raises g hm st hr, relist_wait, endWaitOf_wait, putMon_wait, putMon_wait]

omit hm in
theorem holdOffOut_wait_suspended (h : raisedBy g m st = none) (hw : g.wait = some (.restore m none)) :
    (g.holdOffOut m st).wait = some (.restore m (some (g.wtr * perSecond))) := by
  obtain ⟨ms, w, o, hput⟩ := putMon_moved g m { g.mon m with timer := none }
  have hwait : (g.putMon m { g.mon m with timer := none }).wait = some (.restore m none) := (putMon_wait g m _).trans hw
  unfold Group.holdOffOut
  unfold raisedBy at h
  simp only [h, hwait, if_true]
  rw [hput]
  rfl

end


/-! ### Appearances and losses (R66, R68, R75) -/

section
variable (g : Group) {m : Nat} (st : PortState)

theorem appear_moved : Moved g (g.appear m st) := by
  unfold Group.appear
  simp only
  split
  · exact .refl g
  · have h := (putMon_moved g m { g.mon m with timer := some g.holdOffLength }).trans (suspend_moved _ m)
    split
    · exact h.trans (holdOffOut_moved _ st)
    · exact h

theorem appear_none (h : (g.mon m).raised ≠ none ∨ (g.mon m).timer ≠ none) : g.appear m st = g := by
  unfold Group.appear
  refine if_pos ?_
  rw [Bool.or_eq_true]
  exact h.imp Option.isSome_iff_ne_none.2 Option.isSome_iff_ne_none.2

theorem raisedBy_moved {g h : Group} (hgh : Moved g h) (m : Nat) (st : PortState) : raisedBy h m st = raisedBy g m st := by
  obtain ⟨_, _, _, rfl⟩ := hgh
  rfl

variable (hm : m < 7) (hr : (g.mon m).raised = none) (ht : (g.mon m).timer = none)
include hm hr ht

omit hm in
theorem appear_starts (hoff : g.holdOff ≠ 0) :
    g.appear m st = (g.putMon m { g.mon m with timer := some (g.holdOff * 4) }).suspend m := by
  unfold Group.appear
  simp only [hr, ht, Option.isSome_none, Bool.or_self, Bool.false_eq_true, if_false, if_neg hoff]
  rfl

omit hm in
theorem appear_at_once (hoff : g.holdOff = 0) :
    g.appear m st = ((g.putMon m { g.mon m with timer := some (g.holdOff * 4) }).suspend m).holdOffOut m st := by
  unfold Group.appear
  simp only [hr, ht, Option.isSome_none, Bool.or_self, Bool.false_eq_true, if_false, if_pos hoff]
  rfl

theorem appear_mon (j : Nat) : (g.appear m st).mon j = if j = m then
    (if g.holdOff = 0 then { g.mon m with raised := raisedBy g m st } else { g.mon m with timer := some (g.holdOff * 4) })
    else g.mon j := by
  by_cases hoff : g.holdOff = 0
  · have hsame : raisedBy ((g.putMon m { g.mon m with timer := some (g.holdOff * 4) }).suspend m) m st = raisedBy g m st :=
      raisedBy_moved ((putMon_moved _ _ _).trans (suspend_moved _ _)) m st
    rw [appear_at_once g st hr ht hoff, holdOffOut_mon _ hm, hsame, suspend_mon, suspend_mon, putMon_mon _ _ hm,
      putMon_mon _ _ hm, if_pos rfl]
    simp only [hoff, if_true, hr, Option.or_none]
    split
    · rw [← ht]
    · rfl
  · rw [appear_starts g st hr ht hoff, suspend_mon, putMon_mon _ _ hm, if_neg hoff]

theorem appear_wait (happ : g.applicable m st = true) : (g.appear m st).wait =
    if g.holdOff = 0 then endedWait m g.wait else suspendedWait m g.wait := by
  by_cases hoff : g.holdOff = 0
  · have hsame : raisedBy ((g.putMon m { g.mon m with timer := some (g.holdOff * 4) }).suspend m) m st = raisedBy g m st :=
      raisedBy_moved ((putMon_moved _ _ _).trans (suspend_moved _ _)) m st
    have hraise : raisedBy ((g.putMon m { g.mon m with timer := some (g.holdOff * 4) }).suspend m) m st ≠ none := by
      rw [hsame, ne_eq, raisedBy_eq_none, happ]
      decide
    rw [appear_at_once g st hr ht hoff, holdOffOut_wait_raised _ hm st hraise, suspend_wait, putMon_wait, if_pos hoff]
    cases g.wait with
    | none => rfl
    | some w =>
      cases w with
      | restore j n => by_cases hj : j = m <;> simp [endedWait, suspendedWait, Wait.mem, hj]
      | stay j => rfl
  · rw [appear_starts g st hr ht hoff, suspend_wait, putMon_wait, if_neg hoff]

end

theorem lose_moved (g : Group) (m lost : Nat) : Moved g (g.lose m lost) := by
  unfold Group.lose
  simp only
  split
  · exact Moved.trans ⟨_, _, _, rfl⟩ (relist_moved _ m)
  · exact relist_moved g m

@[simp] theorem lose_mon (g : Group) (m lost j : Nat) : (g.lose m lost).mon j = g.mon j := by
  unfold Group.lose
  simp only [relist_mon]
  split <;> rfl

theorem lose_wait (g : Group) (m lost : Nat) : (g.lose m lost).wait =
    if g.top = ⟨lost, m⟩ ∧ g.above (g.waitFor m).ord = false then some (g.waitFor m) else g.wait := by
  unfold Group.lose
  simp only [relist_wait]
  split <;> rfl

/-! ### Requests above the wait (R75, R76) -/

/-- Nothing stands at the group but, it may be, a wait. -/
def Unrequested (g : Group) : Prop :=
  g.lockout = false ∧ g.force = none ∧ g.manual = none ∧ ∀ j, (g.mon j).held = false ∧ (g.mon j).raised = none

/-- R75: a request above every wait stands at the group. -/
def Requested (g : Group) : Prop :=
  g.lockout = true ∨ (g.mon 0).held = true ∨ (g.mon 0).raised = some .fail ∨
    ∃ j, 1 ≤ j ∧ j ≤ 6 ∧ (g.force = some j ∨ g.manual = some j ∨ (g.mon j).held = true ∨ (g.mon j).raised ≠ none)

theorem above_unrequested {g : Group} (h : Unrequested g) {n : Nat} (hw : ∀ w, g.wait = some w → w.ord ≤ n) :
    g.above n = false := by
  obtain ⟨hlock, hforce, hmanual, hmons⟩ := h
  have hprot : g.protRequests = [] := protRequests_nil hlock (hmons 0).1 (by rw [(hmons 0).2]; nofun)
  have hmember (m : Nat) : (g.memberRequests m).any (fun r => decide (n < r.ord)) = false := by
    unfold Group.memberRequests
    rw [hforce, hmanual, (hmons m).1, (hmons m).2]
    cases hwait : g.wait with
    | none => rfl
    | some w =>
      by_cases hmem : w.mem = m
      · simpa [hmem] using hw w hwait
      · simp [hmem]
  unfold Group.above Group.localRequests
  rw [hprot, List.nil_append, List.any_flatMap, List.any_eq_false]
  exact fun m _ => by rw [hmember]; exact Bool.false_ne_true

theorem above_requested {g : Group} (h : Requested g) (w : Wait) : g.above w.ord = true := by
  have hlow := waitOrd_lt_manual w
  have hmono (habove : g.above ordManual = true) : g.above w.ord = true := by
    unfold Group.above at *
    rw [List.any_eq_true] at *
    obtain ⟨r, hr, hord⟩ := habove
    exact ⟨r, hr, decide_eq_true (hlow.trans (of_decide_eq_true hord))⟩
  rcases h with h | h | h | ⟨j, hone, hsix, h | h | h | h⟩
  · exact hmono ((above_manual_iff g).2 (.inl h))
  · exact hmono ((above_manual_iff g).2 (.inr (.inl h)))
  · exact hmono ((above_manual_iff g).2 (.inr (.inr (.inl h))))
  · exact hmono ((above_manual_iff g).2 (.inr (.inr (.inr ⟨j, hone, hsix, .inl h⟩))))
  · exact above_of_manual h hone hsix hlow
  · exact hmono ((above_manual_iff g).2 (.inr (.inr (.inr ⟨j, hone, hsix, .inr (.inl h)⟩))))
  · exact hmono ((above_manual_iff g).2 (.inr (.inr (.inr ⟨j, hone, hsix, .inr (.inr h)⟩))))

section
variable {s : State} {gi : GroupIx} {base g : Group}

theorem ended_noWait (h : g.wait = none) : (endedGroup s gi base g).wait = none := by
  rw [endedGroup_wait, h, ite_self]

theorem ended_wait (h : Unrequested g) : (endedGroup s gi base g).wait = g.wait := by
  rw [endedGroup_wait, if_neg]
  rintro ⟨w, hw, habove⟩
  rw [above_unrequested h fun v hv => ?_] at habove
  · cases habove
  · obtain rfl := Option.some.inj (hw.symm.trans hv)
    exact Nat.le_refl _

end

/-- R75: the wait that the loss of member `m`'s request raises. -/
theorem waitFor_eq (g : Group) (m : Nat) : g.waitFor m = if g.revertive then .restore m (some (g.wtr * 4000)) else .stay m := rfl

/-- R75: the loss of the top local request, nothing above the wait standing. -/
theorem lose_wait_top {g : Group} {m lost : Nat} (htop : g.top = ⟨lost, m⟩) (h : Unrequested g) (hw : g.wait = none) :
    (g.lose m lost).wait = some (g.waitFor m) := by
  have hnone (w : Wait) (hwait : g.wait = some w) : w.ord ≤ (g.waitFor m).ord := by
    rw [hw] at hwait
    cases hwait
  rw [lose_wait, if_pos ⟨htop, above_unrequested h hnone⟩]

theorem lose_wait_other {g : Group} {m lost : Nat} (h : g.top ≠ ⟨lost, m⟩ ∨ Requested g) : (g.lose m lost).wait = g.wait := by
  rw [lose_wait, if_neg]
  rintro ⟨htop, habove⟩
  rcases h with h | h
  · exact h htop
  · rw [above_requested h] at habove
    cases habove

end Sys2Proof.Proofs
end

