-- ==== Sys2Proof/Proofs/GroupEvents.lean ====
section
/-! The hold-off, WTR and bridge confirmation timers of a group (R66 to R69, R75 to R77, R87 to R89). -/

namespace Sys2Proof.Proofs

open Sys2Proof.Machine Sys2Proof.Safety Sys2Proof.Laws

/-! ### Bridge and selector after an event (R85 to R89) -/

/-- The two groups agree but for wait, manual, list, top and winning request. -/
def Arranged (g h : Group) : Prop :=
  ∃ w n o t v d, h = { g with wait := w, manual := n, order := o, top := t, win := v, side := d }

theorem Arranged.refl (g : Group) : Arranged g g := ⟨_, _, _, _, _, _, rfl⟩

theorem Arranged.trans {g h k : Group} (hgh : Arranged g h) (hhk : Arranged h k) : Arranged g k := by
  obtain ⟨_, _, _, _, _, _, rfl⟩ := hgh
  obtain ⟨_, _, _, _, _, _, rfl⟩ := hhk
  exact ⟨_, _, _, _, _, _, rfl⟩

theorem relist_arranged (g : Group) (m : Nat) : Arranged g (g.relist m) := by
  obtain ⟨o, ho⟩ := relist_eq g m
  exact ⟨_, _, o, _, _, _, ho⟩

theorem endWait_arranged (g : Group) : Arranged g g.endWait := by
  unfold Group.endWait
  split
  · exact Arranged.trans ⟨_, _, _, _, _, _, rfl⟩ (relist_arranged { g with wait := none } _)
  · exact .refl g

theorem normWait_arranged (g : Group) : Arranged g g.normWait := by
  unfold Group.normWait
  split
  · split
    · exact endWait_arranged g
    · exact .refl g
  · exact .refl g

theorem dropManual_arranged (g : Group) (gi : GroupIx) (m : Nat) (f : Group → Req) : Arranged g (g.dropManual gi m f).1 :=
  Arranged.trans ⟨_, _, _, _, _, _, rfl⟩ (relist_arranged { g with manual := none } m)

theorem dropManualLocal_arranged (g : Group) (gi : GroupIx) : Arranged g (g.dropManualLocal gi).1 := by
  unfold Group.dropManualLocal
  split
  · split
    · exact dropManual_arranged g gi _ _
    · exact .refl g
  · exact .refl g

theorem dropManualFar_arranged (g : Group) (gi : GroupIx) : Arranged g (g.dropManualFar gi).1 := by
  unfold Group.dropManualFar
  split
  · split
    · exact (dropManual_arranged g gi _ fun _ => g.win).trans ⟨_, _, _, _, _, _, rfl⟩
    · exact .refl g
  · exact .refl g

/-- Forming the requests moves wait, manual, list, top and winning request alone. -/
theorem formedGroup_arranged (gi : GroupIx) (g : Group) : Arranged g (formedGroup gi g) := by
  have hwon : Arranged (g.normWait.dropManualLocal gi).1 (wonGroup gi g) := ⟨_, _, _, _, _, _, rfl⟩
  exact (((normWait_arranged g).trans (dropManualLocal_arranged _ gi)).trans hwon).trans (dropManualFar_arranged _ gi)

/-- R87: the bridged member that the winning request asks for. -/
def asked (w : Req) : Nat := if w.ord = 0 then 0 else w.mem

theorem bridgeMove_confirm (g : Group) : g.bridgeMove.confirm = if asked g.win = g.bridged then g.confirm else .idle := by
  unfold Group.bridgeMove asked
  simp only
  generalize (if g.win.ord = 0 then 0 else g.win.mem) = b
  split <;> rfl

theorem bridgeMove_far (g : Group) : g.bridgeMove.sigLost = g.sigLost ∧ g.bridgeMove.farBridgedTaken = g.farBridgedTaken := by
  unfold Group.bridgeMove
  simp only
  generalize (if g.win.ord = 0 then 0 else g.win.mem) = b
  split <;> exact ⟨rfl, rfl⟩

/-- R88, R89: nothing is to be waited for. -/
def Confirmed (g : Group) : Prop := g.bridged = 0 ∨ g.sigLost = true ∨ g.farBridgedTaken = g.bridged

theorem selectN_confirmed {g : Group} (h : Confirmed g) : g.selectN.selected = g.bridged ∧ g.selectN.confirm = .idle := by
  unfold Group.selectN
  rcases h with h | h | h
  · simp [h]
  · split
    · next hz => simp [hz]
    · exact ⟨rfl, rfl⟩
  · split
    · next hz => simp [hz]
    · split
      · exact ⟨rfl, rfl⟩
      · exact ⟨rfl, rfl⟩

theorem selectN_waits {g : Group} (h : ¬Confirmed g) : g.selectN.selected = 0 ∧
    g.selectN.confirm = if g.confirm = .idle then .running 800 else g.confirm := by
  simp only [Confirmed, not_or] at h
  obtain ⟨hb, hl, hf⟩ := h
  unfold Group.selectN
  rw [if_neg hb, if_neg hl, if_neg hf]
  cases hc : g.confirm with
  | idle => exact ⟨rfl, rfl⟩
  | running n => simp
  | expired => simp

/-- R85 to R89: bridge, selector and confirmation timer as the end of an event leaves them. -/
theorem settle_bridge (s : State) (gi : GroupIx) (g : Group) :
    let h := (g.settle s gi).1
    let b := if h.win.ord = 0 then 0 else h.win.mem
    let was := if b = g.bridged then g.confirm else .idle
    let confirmed : Prop := b = 0 ∨ g.sigLost = true ∨ g.farBridgedTaken = b
    (g.kind ≠ .oneToN → h.confirm = .idle) ∧
    (g.kind = .oneToN → h.bridged = b ∧
      (confirmed → h.selected = b ∧ h.confirm = .idle) ∧
      (¬confirmed → h.selected = 0 ∧ (was = .idle → h.confirm = .running 800) ∧ (was ≠ .idle → h.confirm = was))) := by
  intro h b was confirmed
  obtain ⟨w, n, o, t, v, d, hf⟩ := formedGroup_arranged gi g
  have hsame := formedGroup_same gi g
  have hwin : h.win = (formedGroup gi g).win := by
    obtain ⟨_, _, _, hmove⟩ := moveSelector_eq (formedGroup gi g)
    have hw : (formedGroup gi g).moveSelector.win = (formedGroup gi g).win := by rw [hmove]
    exact hw
  have hb : b = asked (formedGroup gi g).win := congrArg asked hwin
  have hwas : (formedGroup gi g).bridgeMove.confirm = was := by
    rw [bridgeMove_confirm, ← hb, hf]
  have hconfirmed : Confirmed (formedGroup gi g).bridgeMove ↔ confirmed := by
    obtain ⟨hlost, hfar⟩ := bridgeMove_far (formedGroup gi g)
    unfold Confirmed
    rw [hlost, hfar, hsame.farBridgedTaken, hsame.far.2.2, show (formedGroup gi g).bridgeMove.bridged = b from
      (bridgeMove_bridged _).trans hb.symm]
  refine ⟨fun hk => ?_, fun hk => ?_⟩
  · have hmove : (formedGroup gi g).moveSelector = (formedGroup gi g).select11 := by
      unfold Group.moveSelector
      rw [hsame.kind]
      cases hkind : g.kind with
      | oneToN => exact absurd hkind hk
      | uni => rfl
      | bi => rfl
    exact congrArg Group.confirm hmove
  · have hmove : (formedGroup gi g).moveSelector = (formedGroup gi g).bridgeMove.selectN := by
      unfold Group.moveSelector
      rw [hsame.kind, hk]
    have hbridged : (formedGroup gi g).bridgeMove.bridged = b := (bridgeMove_bridged _).trans hb.symm
    refine ⟨(congrArg Group.bridged hmove).trans ((selectN_bridged _).trans hbridged), fun hc => ?_, fun hc => ?_⟩
    · obtain ⟨hsel, hidle⟩ := selectN_confirmed (hconfirmed.2 hc)
      exact ⟨(congrArg Group.selected hmove).trans (hsel.trans hbridged), (congrArg Group.confirm hmove).trans hidle⟩
    · obtain ⟨hsel, hrun⟩ := selectN_waits fun h => hc (hconfirmed.1 h)
      rw [hwas] at hrun
      have hrun := (congrArg Group.confirm hmove).trans hrun
      exact ⟨(congrArg Group.selected hmove).trans hsel, fun h => hrun.trans (if_pos h), fun h => hrun.trans (if_neg h)⟩

/-! ### An event at the groups that it concerns -/

/-- The groups after an event that every group takes that it concerns. -/
def eventGroup (s : State) (concerns : Group → Bool) (change : Group → Group) (j : GroupIx) (g : Group) : Group :=
  if concerns g then endedGroup s j g (change g) else g

/-- One event at one group, taken if it concerns it. -/
theorem prcEach_group (s : State) (concerns : Group → Bool) (change : Group → Group) (w : PrcWork) (gi j : GroupIx) :
    (prcEach s concerns change w gi).prc.groups[j] = if j = gi then
      w.prc.groups[j].map (eventGroup s concerns change j) else w.prc.groups[j] := by
  by_cases hj : j = gi
  · subst hj
    rw [if_pos rfl]
    unfold prcEach
    cases hg : w.prc.groups[j] with
    | none => exact hg
    | some g =>
      simp only [Option.map_some, eventGroup]
      split
      · exact (prcSettle_group s w j g (change g) false j).trans (if_pos rfl)
      · exact hg
  · rw [if_neg hj]
    unfold prcEach
    split
    · rfl
    · split
      · exact (prcSettle_group s w gi _ _ false j).trans (if_neg hj)
      · rfl

theorem prcEach_frozen (s : State) (concerns : Group → Bool) (change : Group → Group) (w : PrcWork) (gi : GroupIx) :
    (prcEach s concerns change w gi).prc.frozen = w.prc.frozen := by
  unfold prcEach
  split
  · rfl
  · split <;> rfl

theorem prcEach_fold (s : State) (concerns : Group → Bool) (change : Group → Group) (is : List GroupIx) (hnd : is.Nodup)
    (w : PrcWork) (j : GroupIx) : (is.foldl (prcEach s concerns change) w).prc.groups[j] =
    if j ∈ is then w.prc.groups[j].map (eventGroup s concerns change j) else w.prc.groups[j] := by
  induction is generalizing w with
  | nil => rfl
  | cons i is ih =>
    obtain ⟨hi, hnd⟩ := List.nodup_cons.1 hnd
    rw [List.foldl_cons, ih hnd, prcEach_group]
    by_cases hj : j = i
    · subst hj
      rw [if_neg hi, if_pos rfl, if_pos (List.mem_cons_self ..)]
    · rw [if_neg hj]
      simp only [List.mem_cons, hj, false_or]

/-- An event at the groups that it concerns, every group taking it once. -/
theorem prcEvent_said (s : State) (concerns : Group → Bool) (change : Group → Group) :
    (∀ j : GroupIx, (prcEnd (allGroups.foldl (prcEach s concerns change) (prcBegin s))).1.groups[j] =
      s.prc.groups[j].map (eventGroup s concerns change j)) ∧
    (prcEnd (allGroups.foldl (prcEach s concerns change) (prcBegin s))).1.frozen = s.prc.frozen := by
  have hall (j : GroupIx) : j ∈ allGroups := by
    unfold allGroups
    exact List.mem_finRange j
  have hnd : allGroups.Nodup := by
    unfold allGroups
    exact List.nodup_finRange 16
  refine ⟨fun j => ?_, ?_⟩
  · have h := prcEach_fold s concerns change allGroups hnd (prcBegin s) j
    rw [if_pos (hall j), show (prcBegin s).prc = s.prc from rfl] at h
    rw [← h]
    generalize allGroups.foldl (prcEach s concerns change) (prcBegin s) = w
    rfl
  · have h : (allGroups.foldl (prcEach s concerns change) (prcBegin s)).prc.frozen = s.prc.frozen :=
      foldl_keeps (P := fun w : PrcWork => w.prc.frozen = s.prc.frozen)
        (fun w gi hw => (prcEach_frozen s concerns change w gi).trans hw) allGroups (a := prcBegin s) rfl
    rw [← h]
    generalize allGroups.foldl (prcEach s concerns change) (prcBegin s) = w
    rfl

end Sys2Proof.Proofs
end

