-- ==== Sys2Proof/Proofs/MemberChanges.lean ====
section
/-! The hold-off, WTR and bridge confirmation timers of a group: what starts, stops and ends them (R66 to R69, R75, R76, R88). -/

namespace Sys2Proof.Proofs

open Sys2Proof.Machine Sys2Proof.Safety Sys2Proof.Laws

/-! ### The port of a member (R61) -/

section
variable {g : Group} {m : Nat} {p : Port}

theorem memberOf_at (hnd : (g.prot :: g.work).Nodup) (h : (g.prot :: g.work)[m]? = some p) : g.memberOf p = some m := by
  cases m with
  | zero => exact memberOf_prot (Option.some.inj h)
  | succ k => exact memberOf_work hnd h

theorem memberOf_absent (h : p ∉ g.prot :: g.work) : g.memberOf p = none := by
  rw [List.mem_cons, not_or] at h
  obtain ⟨hprot, hwork⟩ := h
  rcases memberOf_notWork hwork with hnone | hzero
  · exact hnone
  · unfold Group.memberOf at hzero ⊢
    rw [if_neg (Ne.symm hprot)] at hzero ⊢
    simp at hzero

theorem portOf_at (h : (g.prot :: g.work)[m]? = some p) : g.portOf m = some p := by
  cases m with
  | zero => exact h
  | succ k => exact h

theorem member_lt (hn : g.n ≤ 6) (h : (g.prot :: g.work)[m]? = some p) : m < 7 := by
  obtain ⟨hlt, _⟩ := List.getElem?_eq_some_iff.1 h
  have hwork : g.work.length ≤ 6 := hn
  rw [List.length_cons] at hlt
  omega

end

/-! ### New port states at one member (R66, R68) -/

section
variable {g : Group} {m : Nat} (old new : PortState)

theorem memberChanges_one {p : Port} (h : g.memberOf p = some m) : g.memberChanges [⟨p, old, new⟩] = [(m, old, new)] := by
  simp [Group.memberChanges, h]

theorem memberChanges_none {p : Port} (h : g.memberOf p = none) : g.memberChanges [⟨p, old, new⟩] = [] := by
  simp [Group.memberChanges, h]

theorem takePorts_unraised (h : (g.mon m).raised = none) : g.takePorts [(m, old, new)] = g.appearOn m old new := by
  simp [Group.takePorts, Group.followRaised, Group.loseAll, h]

theorem takePorts_held (h : (g.mon m).held = true) : g.takePorts [(m, old, new)] = g := by
  cases hr : (g.mon m).raised with
  | none => simp [takePorts_unraised old new hr, Group.appearOn, h]
  | some r => simp [Group.takePorts, Group.followRaised, Group.loseAll, hr, h]

theorem takePorts_raised {r : Raised} (hr : (g.mon m).raised = some r) (h : (g.mon m).held = false) :
    g.takePorts [(m, old, new)] = (g.putMon m { g.mon m with raised := raisedBy g m new }).loseAll
      (if raisedBy g m new = none ∧ m ≠ 0 then [(m, r.ord)] else []) := by
  have hfollow : g.follow m new = raisedBy g m new := rfl
  simp [Group.takePorts, Group.followRaised, hr, h, hfollow]

theorem appearOn_none (h : (g.mon m).held = true ∨ g.applicable m old = true ∨ g.applicable m new = false ∨ (g.mon m).timer ≠ none) :
    g.appearOn m old new = g := by
  unfold Group.appearOn
  rcases h with h | h | h | h
  · simp [h]
  · simp [h]
  · simp [h]
  · rw [appear_none g new (.inr h), ite_self]

theorem appearOn_appears (hheld : (g.mon m).held = false) (hold : g.applicable m old = false) (hnew : g.applicable m new = true) :
    g.appearOn m old new = g.appear m new := by
  simp [Group.appearOn, hheld, hold, hnew]

end

/-! ### What stands at the other members (R75) -/

/-- Nothing but a wait stands at the group, member `m` aside. -/
def CalmBut (g : Group) (m : Nat) : Prop := g.lockout = false ∧ g.force = none ∧ g.manual = none ∧
  ∀ j, j ≠ m → (g.mon j).held = false ∧ (g.mon j).raised = none

/-- A request above every wait stands at the group, member `m` aside. -/
def OverriddenBut (g : Group) (m : Nat) : Prop := g.lockout = true ∨ (g.mon 0).held = true ∨ (g.mon 0).raised = some .fail ∨
  ∃ j, 1 ≤ j ∧ j ≤ 6 ∧ (g.force = some j ∨ g.manual = some j ∨ (j ≠ m ∧ ((g.mon j).held = true ∨ (g.mon j).raised ≠ none)))

section
variable {g h : Group} {m : Nat}

theorem unrequested_of_calm (hmoved : Moved g h) (hcalm : CalmBut g m) (hother : ∀ j, j ≠ m → h.mon j = g.mon j)
    (hheld : (h.mon m).held = false) (hraised : (h.mon m).raised = none) : Unrequested h := by
  obtain ⟨hlock, hforce, hmanual, hmons⟩ := hcalm
  have hstand : h.lockout = g.lockout ∧ h.force = g.force ∧ h.manual = g.manual := by
    obtain ⟨_, _, _, rfl⟩ := hmoved
    exact ⟨rfl, rfl, rfl⟩
  obtain ⟨hl, hf, hm⟩ := hstand
  refine ⟨hl.trans hlock, hf.trans hforce, hm.trans hmanual, fun j => ?_⟩
  by_cases hj : j = m
  · subst hj
    exact ⟨hheld, hraised⟩
  · rw [hother j hj]
    exact hmons j hj

theorem requested_of_overridden (hmoved : Moved g h) (hover : OverriddenBut g m) (hone : 1 ≤ m)
    (hother : ∀ j, j ≠ m → h.mon j = g.mon j) : Requested h := by
  have hstand : h.lockout = g.lockout ∧ h.force = g.force ∧ h.manual = g.manual := by
    obtain ⟨_, _, _, rfl⟩ := hmoved
    exact ⟨rfl, rfl, rfl⟩
  obtain ⟨hl, hf, hm⟩ := hstand
  unfold Requested
  rw [hl, hf, hm, hother 0 (by omega)]
  rcases hover with hover | hover | hover | ⟨j, hj, hsix, hforce | hmanual | ⟨hne, hown⟩⟩
  · exact .inl hover
  · exact .inr (.inl hover)
  · exact .inr (.inr (.inl hover))
  · exact .inr (.inr (.inr ⟨j, hj, hsix, .inl hforce⟩))
  · exact .inr (.inr (.inr ⟨j, hj, hsix, .inr (.inl hmanual)⟩))
  · exact .inr (.inr (.inr ⟨j, hj, hsix, .inr (.inr (by rwa [hother j hne]))⟩))

end

section
variable (s : State) (gi : GroupIx) {g : Group} {m : Nat} (hm : m < 7) (base : Group) (new : PortState)
include hm

theorem appear_other {j : Nat} (hj : j ≠ m) : (g.appear m new).mon j = g.mon j := by
  by_cases h : (g.mon m).raised = none ∧ (g.mon m).timer = none
  · obtain ⟨hr, ht⟩ := h
    rw [appear_mon g new hm hr ht, if_neg hj]
  · rw [appear_none g new (by tauto)]

/-- R76: the wait after an appearance whose hold-off runs. -/
theorem appear_suspends (hr : (g.mon m).raised = none) (ht : (g.mon m).timer = none) (hheld : (g.mon m).held = false)
    (hnew : g.applicable m new = true) (hcalm : CalmBut g m) (hoff : g.holdOff ≠ 0) :
    (endedGroup s gi base (g.appear m new)).wait = suspendedWait m g.wait := by
  have hmon := appear_mon g new hm hr ht m
  rw [if_pos rfl, if_neg hoff] at hmon
  have hfree : Unrequested (g.appear m new) := unrequested_of_calm (appear_moved g new) hcalm
    (fun j hj => appear_other hm new hj) (by rw [hmon, hheld]) (by rw [hmon, hr])
  rw [ended_wait hfree, appear_wait g new hm hr ht hnew, if_neg hoff]

/-- R68: a raised request that follows its port. -/
theorem follows_mon (x : Mon) (c : Prop) [Decidable c] (o j : Nat) :
    ((g.putMon m x).loseAll (if c then [(m, o)] else [])).mon j = if j = m then x else g.mon j := by
  have hone : ((g.putMon m x).loseAll (if c then [(m, o)] else [])).mon j = (g.putMon m x).mon j := by
    split
    · exact lose_mon _ m o j
    · rfl
  rw [hone, putMon_mon g m hm]

/-- R75: the wait once the top local request, of member `m`, has gone with nothing above the wait standing. -/
theorem loss_waits {x : Mon} (hx : x.held = false ∧ x.raised = none) {o : Nat} (hcalm : CalmBut g m) (hw : g.wait = none)
    (htop : g.top = ⟨o, m⟩) : Unrequested ((g.putMon m x).lose m o) ∧ ((g.putMon m x).lose m o).wait = some (g.waitFor m) := by
  obtain ⟨hheld, hraised⟩ := hx
  have hput := putMon_moved g m x
  have hother (j : Nat) (hj : j ≠ m) : (g.putMon m x).mon j = g.mon j := by rw [putMon_mon g m hm, if_neg hj]
  have hown : (g.putMon m x).mon m = x := by rw [putMon_mon g m hm, if_pos rfl]
  have hfree : Unrequested (g.putMon m x) :=
    unrequested_of_calm hput hcalm hother (by rw [hown, hheld]) (by rw [hown, hraised])
  refine ⟨unrequested_of_calm (hput.trans (lose_moved _ m o)) hcalm (fun j hj => (lose_mon _ m o j).trans (hother j hj))
    (by rw [lose_mon, hown, hheld]) (by rw [lose_mon, hown, hraised]), ?_⟩
  obtain ⟨_, _, _, heq⟩ := hput
  have hsame : (g.putMon m x).top = g.top ∧ (g.putMon m x).waitFor m = g.waitFor m := by
    rw [heq]
    exact ⟨rfl, rfl⟩
  obtain ⟨htops, hwaits⟩ := hsame
  rw [lose_wait_top (htops.trans htop) hfree ((putMon_wait g m x).trans hw), hwaits]

/-- R75: a loss below another request raises no wait. -/
theorem loss_raises_none (x : Mon) {o : Nat} (hone : 1 ≤ m) (hw : g.wait = none) (h : g.top ≠ ⟨o, m⟩ ∨ OverriddenBut g m) :
    ((g.putMon m x).lose m o).wait = none := by
  have hput := putMon_moved g m x
  have hother (j : Nat) (hj : j ≠ m) : (g.putMon m x).mon j = g.mon j := by rw [putMon_mon g m hm, if_neg hj]
  have htops : (g.putMon m x).top = g.top := by
    obtain ⟨_, _, _, heq⟩ := hput
    rw [heq]
  rw [lose_wait_other, putMon_wait, hw]
  exact h.imp (htops ▸ ·) (requested_of_overridden hput · hone hother)

end

section
variable (s : State) (gi : GroupIx) {g : Group} {m : Nat} (hm : m < 7) (old new : PortState)
include hm

/-- R66, R68: what a new port state of a member makes of its group. -/
theorem takePorts_said (k h : Group) (hk : k = g.takePorts [(m, old, new)]) (hh : h = endedGroup s gi g k) :
    let x := g.mon m
    (∀ j, j ≠ m → h.mon j = g.mon j) ∧
    (x.held = true → h.mon m = x) ∧
    (x.held = false → x.raised = none → g.applicable m old = true ∨ g.applicable m new = false ∨ x.timer ≠ none →
      h.mon m = x) ∧
    (x.held = false → x.raised = none → g.applicable m old = false → g.applicable m new = true → x.timer = none →
      h.mon m = (if g.holdOff = 0 then { x with raised := raisedBy g m new } else { x with timer := some (g.holdOff * 4) }) ∧
      (1 ≤ m → CalmBut g m → g.holdOff ≠ 0 →
        (∀ n, g.wait = some (.restore m n) → h.wait = some (.restore m none)) ∧
        (g.wait = some (.stay m) → h.wait = some (.stay m)))) ∧
    (x.held = false → ∀ r, x.raised = some r →
      h.mon m = { x with raised := raisedBy g m new } ∧
      (1 ≤ m → raisedBy g m new = none → g.wait = none →
        let top : Prop := g.top = ⟨if r = .fail then ordFail else ordDegrade, m⟩
        (top → CalmBut g m → h.wait = some (g.waitFor m)) ∧ (¬top ∨ OverriddenBut g m → h.wait = none))) := by
  intro x
  have hmon (j : Nat) : h.mon j = k.mon j := by rw [hh, (endedGroup_same s gi g k).mon]
  refine ⟨fun j hj => ?_, fun hheld => ?_, fun hheld hr hno => ?_, fun hheld hr hold hnew ht => ?_, fun hheld r hr => ?_⟩
  · rw [hmon, hk]
    cases hheld : (g.mon m).held with
    | true => rw [takePorts_held old new hheld]
    | false =>
      cases hr : (g.mon m).raised with
      | none =>
        rw [takePorts_unraised old new hr]
        unfold Group.appearOn
        split
        · exact appear_other hm new hj
        · rfl
      | some r => rw [takePorts_raised old new hr hheld, follows_mon hm, if_neg hj]
  · rw [hmon, hk, takePorts_held old new hheld]
  · rw [hmon, hk, takePorts_unraised old new hr, appearOn_none old new (.inr hno)]
  · have happ : k = g.appear m new := by rw [hk, takePorts_unraised old new hr, appearOn_appears old new hheld hold hnew]
    refine ⟨by rw [hmon, happ, appear_mon g new hm hr ht, if_pos rfl], fun _ hcalm hoff => ?_⟩
    have hwait : h.wait = suspendedWait m g.wait := by
      rw [hh, happ, appear_suspends s gi hm g new hr ht hheld hnew hcalm hoff]
    refine ⟨fun n hw => ?_, fun hw => ?_⟩
    · simp [hwait, hw, suspendedWait]
    · simp [hwait, hw, suspendedWait]
  · have hfollow := takePorts_raised old new hr hheld
    refine ⟨by rw [hmon, hk, hfollow, follows_mon hm, if_pos rfl], fun hone hend hw => ?_⟩
    have hord : (if r = .fail then ordFail else ordDegrade) = r.ord := by cases r <;> rfl
    have hlose : k = (g.putMon m { g.mon m with raised := none }).lose m r.ord := by
      rw [hk, hfollow, if_pos ⟨hend, by omega⟩, hend]
      rfl
    intro top
    refine ⟨fun htop hcalm => ?_, fun hno => ?_⟩
    · have htops : g.top = ⟨r.ord, m⟩ := by rw [← hord]; exact htop
      obtain ⟨hfree, hraises⟩ := loss_waits (x := { g.mon m with raised := none }) hm ⟨hheld, rfl⟩ hcalm hw htops
      rw [hh, hlose, ended_wait hfree, hraises]
    · have hnot : g.top ≠ ⟨r.ord, m⟩ ∨ OverriddenBut g m := by rw [← hord]; exact hno
      rw [hh, hlose, ended_noWait (loss_raises_none hm _ hone hw hnot)]

end

/-! ### Holds at one member (R69) -/

@[simp] theorem endWaitOf_order (g : Group) (m : Nat) : (g.endWaitOf m).order = g.order := by
  unfold Group.endWaitOf
  split
  · split <;> rfl
  · rfl

theorem formedGroup_idle_order {g : Group} (gi : GroupIx) (hw : g.wait = none) (hn : g.manual = none) :
    (formedGroup gi g).order = g.order := by
  have hwait : g.normWait = g := by simp [Group.normWait, hw]
  have hlocal : g.normWait.dropManualLocal gi = (g, []) := by simp [hwait, Group.dropManualLocal, hn]
  have hwon : (wonGroup gi g).manual = none ∧ (wonGroup gi g).order = g.order := by
    unfold wonGroup
    rw [hlocal]
    exact ⟨hn, rfl⟩
  obtain ⟨hnone, horder⟩ := hwon
  change ((wonGroup gi g).dropManualFar gi).1.order = g.order
  simp [Group.dropManualFar, hnone, horder]

theorem endedGroup_idle_order {g : Group} (s : State) (gi : GroupIx) (base : Group) (hw : g.wait = none) (hn : g.manual = none) :
    (endedGroup s gi base g).order = g.order := by
  obtain ⟨b, sel, c, heq⟩ := moveSelector_eq (formedGroup gi g)
  rw [endedGroup_eq, settle_fst, heq]
  exact formedGroup_idle_order gi hw hn

section
variable (s : State) (gi : GroupIx) {g : Group} {m : Nat} (hm : m < 7)
include hm

theorem holdOn_mon (j : Nat) : (g.holdOn m).mon j = if j = m then { timer := none, raised := none, held := true } else g.mon j := by
  rw [Group.holdOn, relist_mon, endWaitOf_mon, putMon_mon g m hm]

/-- R69, R76, R77: a hold at a member. -/
theorem holdOn_said (k h : Group) (hk : k = g.takeHolds s [m] true) (hh : h = endedGroup s gi g k) :
    (∀ j, j ≠ m → h.mon j = g.mon j) ∧ h.mon m = { timer := none, raised := none, held := true } ∧
    (1 ≤ m → m ∈ h.order) ∧
    (1 ≤ m → (∃ n, g.wait = some (.restore m n)) ∨ g.wait = some (.stay m) → h.wait = none ∧
      (CalmBut g m → m ∈ g.order → h.order = g.order)) := by
  have hk : k = g.holdOn m := hk
  have hmon (j : Nat) : h.mon j = if j = m then { timer := none, raised := none, held := true } else g.mon j := by
    rw [hh, (endedGroup_same s gi g k).mon, hk, holdOn_mon hm]
  have hstand : Standing k m := .inr (by rw [hk, holdOn_mon hm, if_pos rfl])
  have hreq : ((g.putMon m { timer := none, raised := none, held := true }).endWaitOf m).memberRequests m ≠ [] :=
    memberRequests_standing (.inr (by rw [endWaitOf_mon, putMon_mon g m hm, if_pos rfl]))
  refine ⟨fun j hj => by rw [hmon, if_neg hj], by rw [hmon, if_pos rfl], fun hone => ?_, fun hone hw => ?_⟩
  · rw [hh]
    refine endedGroup_order hstand ?_
    rw [hk]
    exact mem_relist_self (by omega) hreq
  · have hwait : k.wait = none := by
      rw [hk, Group.holdOn, relist_wait, endWaitOf_wait, putMon_wait]
      obtain ⟨n, hw⟩ | hw := hw
      · rw [hw]
        exact endedWait_of_mem rfl
      · rw [hw]
        exact endedWait_of_mem rfl
    refine ⟨by rw [hh, ended_noWait hwait], fun hcalm hmem => ?_⟩
    obtain ⟨_, _, hmanual, _⟩ := hcalm
    obtain ⟨_, _, _, heq⟩ := ((putMon_moved g m { timer := none, raised := none, held := true }).trans
      (endWaitOf_moved _ m)).trans (relist_moved _ m)
    have hnone : k.manual = none := by
      rw [hk, Group.holdOn, heq]
      exact hmanual
    have horder : ((g.putMon m { timer := none, raised := none, held := true }).endWaitOf m).order = g.order := by
      rw [endWaitOf_order, putMon_order]
    rw [hh, endedGroup_idle_order s gi g hwait hnone, hk, Group.holdOn]
    unfold Group.relist
    rw [if_neg (by omega), if_neg (by simpa using hreq), if_pos (by rw [horder]; simpa using hmem), horder]

/-- R69: the group once the hold of a member is released and its loss has acted. -/
def releasedGroup (g : Group) (m : Nat) : Group :=
  if m = 0 then g.putMon m { g.mon m with held := false } else (g.putMon m { g.mon m with held := false }).lose m ordWorkW

theorem takeHolds_release (h : (g.mon m).held = true) :
    g.takeHolds s [m] false = Group.appearAtRelease s (releasedGroup g m) m := by
  by_cases hz : m = 0
  · subst hz
    simp [Group.takeHolds, h, Group.holdOff0, Group.loseAll, releasedGroup]
  · simp [Group.takeHolds, h, hz, Group.holdOff0, Group.loseAll, releasedGroup]

omit hm in
theorem released_moved : Moved g (releasedGroup g m) := by
  unfold releasedGroup
  split
  · exact putMon_moved g m _
  · exact (putMon_moved g m _).trans (lose_moved _ m _)

theorem released_mon (j : Nat) : (releasedGroup g m).mon j = if j = m then { g.mon m with held := false } else g.mon j := by
  unfold releasedGroup
  split
  · rw [putMon_mon g m hm]
  · rw [lose_mon, putMon_mon g m hm]

/-- R69, R66: the release of a hold at a member, whose port is at `st`. -/
theorem holdOff_said {p : Port} {st : PortState} (hport : (g.prot :: g.work)[m]? = some p) (hst : s.pmon.ports[p].handed = st)
    (hx : g.mon m = { timer := none, raised := none, held := true })
    (k h : Group) (hk : k = g.takeHolds s [m] false) (hh : h = endedGroup s gi g k) :
    (∀ j, j ≠ m → h.mon j = g.mon j) ∧
    h.mon m = {
      held := false
      timer := if g.applicable m st = true ∧ g.holdOff ≠ 0 then some (g.holdOff * 4) else none
      raised := if g.holdOff = 0 then raisedBy g m st else none } ∧
    (1 ≤ m → g.wait = none →
      (g.top = ⟨ordWorkW, m⟩ → CalmBut g m →
        (g.applicable m st = false → h.wait = some (g.waitFor m)) ∧
        (g.applicable m st = true → g.holdOff ≠ 0 → h.wait = suspendedWait m (some (g.waitFor m))) ∧
        (g.applicable m st = true → g.holdOff = 0 → h.wait = none)) ∧
      (g.top ≠ ⟨ordWorkW, m⟩ ∨ OverriddenBut g m → h.wait = none)) := by
  have hrel := takeHolds_release s hm (g := g) (by rw [hx])
  have hmoved := released_moved (g := g) (m := m)
  have hrmon := released_mon (g := g) hm
  have hown : (releasedGroup g m).mon m = { timer := none, raised := none, held := false } := by
    rw [hrmon, if_pos rfl, hx]
  have hraised : ((releasedGroup g m).mon m).raised = none := by rw [hown]
  have htimer : ((releasedGroup g m).mon m).timer = none := by rw [hown]
  have hheld : ((releasedGroup g m).mon m).held = false := by rw [hown]
  have hsame : (releasedGroup g m).applicable m st = g.applicable m st ∧ (releasedGroup g m).holdOff = g.holdOff ∧
      raisedBy (releasedGroup g m) m st = raisedBy g m st ∧ (releasedGroup g m).stateOf s m = st := by
    obtain ⟨ms, w, o, heq⟩ := hmoved
    have hstate : g.stateOf s m = st := by
      unfold Group.stateOf
      rw [portOf_at hport]
      exact hst
    rw [heq]
    exact ⟨rfl, rfl, rfl, hstate⟩
  obtain ⟨happ, hoff, hby, hstate⟩ := hsame
  have hk : k = if g.applicable m st then (releasedGroup g m).appear m st else releasedGroup g m := by
    rw [hk, hrel, Group.appearAtRelease, hstate, happ]
  have hmon (j : Nat) : h.mon j = k.mon j := by rw [hh, (endedGroup_same s gi g k).mon]
  have hkother (j : Nat) (hj : j ≠ m) : k.mon j = g.mon j := by
    rw [hk]
    split
    · rw [appear_other hm st hj, hrmon, if_neg hj]
    · rw [hrmon, if_neg hj]
  have hlost (hone : 1 ≤ m) : releasedGroup g m = (g.putMon m { g.mon m with held := false }).lose m ordWorkW :=
    if_neg (by omega)
  refine ⟨fun j hj => (hmon j).trans (hkother j hj), ?_, fun hone hw => ⟨fun htop hcalm => ?_, fun hno => ?_⟩⟩
  · rw [hmon, hk]
    cases ha : g.applicable m st with
    | false =>
      have hnone : raisedBy g m st = none := raisedBy_eq_none.2 ha
      simp [hown, hnone]
    | true =>
      rw [if_pos rfl, appear_mon _ st hm hraised htimer, if_pos rfl, hoff, hby, hown]
      by_cases hz : g.holdOff = 0 <;> simp [hz]
  · have hx' : ({ g.mon m with held := false } : Mon).held = false ∧ ({ g.mon m with held := false } : Mon).raised = none :=
      ⟨rfl, by rw [hx]⟩
    obtain ⟨hfree, hraises⟩ := loss_waits hm hx' hcalm hw htop
    rw [← hlost hone] at hfree hraises
    refine ⟨fun ha => ?_, fun ha hne => ?_, fun ha hz => ?_⟩
    · rw [ha] at hk
      rw [hh, hk, if_neg Bool.false_ne_true, ended_wait hfree, hraises]
    · rw [ha, if_pos rfl] at hk
      have hcalm' : CalmBut (releasedGroup g m) m := by
        obtain ⟨h1, h2, h3, h4⟩ := hfree
        exact ⟨h1, h2, h3, fun j _ => h4 j⟩
      rw [hh, hk, appear_suspends s gi hm g st hraised htimer hheld (happ.trans ha) hcalm' (hoff ▸ hne), hraises]
    · rw [ha, if_pos rfl] at hk
      have hwait : k.wait = none := by
        rw [hk, appear_wait _ st hm hraised htimer (happ.trans ha), if_pos (hoff.trans hz), hraises]
        refine endedWait_of_mem ?_
        rw [waitFor_eq]
        split <;> rfl
      rw [hh, ended_noWait hwait]
  · have hnone : (releasedGroup g m).wait = none := by
      rw [hlost hone]
      exact loss_raises_none hm _ hone hw hno
    have hwait : k.wait = none := by
      rw [hk]
      split
      · next ha =>
        rw [appear_wait _ st hm hraised htimer (happ.trans ha), hnone]
        split <;> rfl
      · exact hnone
    rw [hh, ended_noWait hwait]

end

end Sys2Proof.Proofs
end

