-- ==== Sys2Proof/Proofs/ProtectionTimers.lean ====
section
/-! The expiries of a group's timers (R67, R76, R88), and the statement about them. -/

namespace Sys2Proof.Proofs

open Sys2Proof.Machine Sys2Proof.Safety Sys2Proof.Laws

/-! ### A hold-off that runs out (R67, R76) -/

section
variable {s : State} {gi : GroupIx} {g : Group}

theorem mon_beyond {m : Nat} (h : ¬m < 7) : g.mon m = .idle := dif_neg h

/-- R67, R68, R76: the group once the hold-off of a member has run out, its port at `st`. -/
theorem holdOffOut_said {m : Nat} (hm : m < 7) (st : PortState) (h : Group) (hh : h = endedGroup s gi g (g.holdOffOut m st)) :
    (h.mon m).timer = none ∧
    (h.mon m).raised = (if st.sf then some .fail
      else if m ≠ 0 ∧ g.degSwitch = true ∧ st = .degrade then some .degrade else (g.mon m).raised) ∧
    (∀ j, j ≠ m → h.mon j = g.mon j) ∧ h.lockout = g.lockout ∧ h.force = g.force ∧ (h.mon m).held = (g.mon m).held ∧
    (1 ≤ m → (∃ k, g.wait = some (.restore m k)) ∨ g.wait = some (.stay m) →
      st.sf = true ∨ (g.degSwitch = true ∧ st = .degrade) → h.wait = none) ∧
    (1 ≤ m → g.wait = some (.restore m none) → st.sf = false → g.degSwitch = false ∨ st ≠ .degrade →
      g.lockout = false → g.force = none → g.manual = none →
      (∀ j, (g.mon j).held = false ∧ (g.mon j).raised = none) → h.wait = some (.restore m (some (g.wtr * 4000)))) := by
  have hsame := endedGroup_same s gi g (g.holdOffOut m st)
  rw [← hh] at hsame
  have hmoved := holdOffOut_moved g (m := m) st
  have hstand : (g.holdOffOut m st).lockout = g.lockout ∧ (g.holdOffOut m st).force = g.force := by
    obtain ⟨_, _, _, heq⟩ := hmoved
    rw [heq]
    exact ⟨rfl, rfl⟩
  obtain ⟨hlock, hforce⟩ := hstand
  have hmon (j : Nat) : h.mon j = if j = m then
      { g.mon m with timer := none, raised := (raisedBy g m st).or (g.mon m).raised } else g.mon j := by
    rw [hsame.mon, holdOffOut_mon g hm]
  have hdegrade : g.applicable m st = true ↔ st.sf = true ∨ (m ≠ 0 ∧ g.degSwitch = true ∧ st = .degrade) := by
    simp [Group.applicable, sd_iff, and_assoc]
  have hown := hmon m
  rw [if_pos rfl] at hown
  refine ⟨by rw [hown], ?_, fun j hj => by rw [hmon, if_neg hj], hsame.lockout.trans hlock, hsame.force.trans hforce,
    by rw [hown], fun hone hw hraise => ?_, fun hone hw hsf hdeg hl hf hn hmons => ?_⟩
  · rw [hown]
    unfold raisedBy
    cases hsf : st.sf with
    | true => rfl
    | false =>
      by_cases hd : m ≠ 0 ∧ g.degSwitch = true ∧ st = .degrade
      · simp only [hdegrade.2 (.inr hd), if_true, if_pos hd, Bool.false_eq_true, if_false]
        rfl
      · have hno : ¬g.applicable m st = true := fun ha => (hdegrade.1 ha).elim (by simp [hsf]) hd
        simp only [if_neg hno, if_neg hd, Bool.false_eq_true, if_false]
        rfl
  · have happ : g.applicable m st = true := hdegrade.2 (hraise.imp id fun hd => ⟨by omega, hd⟩)
    have hsome : raisedBy g m st ≠ none := by
      rw [ne_eq, raisedBy_eq_none, happ]
      decide
    have hwait : (g.holdOffOut m st).wait = none := by
      rw [holdOffOut_wait_raised g hm st hsome]
      obtain ⟨n, hw⟩ | hw := hw
      · rw [hw]
        exact endedWait_of_mem rfl
      · rw [hw]
        exact endedWait_of_mem rfl
    rw [hh, ended_noWait hwait]
  · have hnone : raisedBy g m st = none := by
      rw [raisedBy_eq_none, Bool.eq_false_iff]
      intro happ
      rcases hdegrade.1 happ with h | ⟨_, h1, h2⟩
      · rw [hsf] at h
        cases h
      · exact hdeg.elim (by simp [h1]) (· h2)
    have hraised : ((g.holdOffOut m st).mon m).raised = none := by
      rw [holdOffOut_mon g hm, if_pos rfl, hnone]
      exact (hmons m).2
    have hfree : Unrequested (g.holdOffOut m st) := by
      refine unrequested_of_calm hmoved ⟨hl, hf, hn, fun j _ => hmons j⟩ (fun j hj => ?_) ?_ hraised
      · rw [holdOffOut_mon g hm, if_neg hj]
      · rw [holdOffOut_mon g hm, if_pos rfl]
        exact (hmons m).1
    rw [hh, ended_wait hfree, holdOffOut_wait_suspended g st hnone hw]
    rfl

/-! ### A WTR timer that runs out (R76) -/

theorem formedGroup_idle {g : Group} (gi : GroupIx) (hw : g.wait = none) (hn : g.manual = none) :
    formedGroup gi g = { g with top := g.formTop }.formWin := by
  have hwait : g.normWait = g := by simp [Group.normWait, hw]
  have hlocal : g.normWait.dropManualLocal gi = (g, []) := by simp [hwait, Group.dropManualLocal, hn]
  have hmanual : ({ g with top := g.formTop }.formWin).manual = none := hn
  unfold formedGroup
  rw [hlocal]
  simp [Group.dropManualFar, hmanual]

theorem endWait_restore {m : Nat} {n : Option Nat} (hw : g.wait = some (.restore m n)) :
    g.endWait = { g with wait := none }.relist m := by
  unfold Group.endWait
  rw [hw]
  rfl

theorem memberRequests_waiting {w : Wait} (hw : g.wait = some w) :
    g.memberRequests w.mem = ({ g with wait := none } : Group).memberRequests w.mem ++ [⟨w.ord, w.mem⟩] := by
  unfold Group.memberRequests
  simp only [hw, if_true, List.append_nil]
  rfl

/-- R76, R78: the last request of a 1+1 group was its wait. -/
theorem endWait_idle {m : Nat} {n : Option Nat} (hw : g.wait = some (.restore m n)) (hkind : g.kind = .uni) (hone : 1 ≤ m)
    (horder : g.order = [m]) (hn : g.manual = none) (hprot : g.protRequests = [])
    (hreq : g.memberRequests m = [⟨ordRestoreWait, m⟩]) (h : Group) (hh : h = endedGroup s gi g g.endWait) :
    h.selected = 0 ∧ h.top = ⟨ordIdle, 0⟩ ∧ h.order = [] := by
  have hgone : ({ g with wait := none } : Group).memberRequests m = [] := by
    have hsplit := memberRequests_waiting hw
    rw [show (Wait.restore m n).mem = m from rfl, hreq] at hsplit
    simpa [Wait.ord] using hsplit
  have hend : g.endWait = { g with wait := none, order := [] } := by
    rw [endWait_restore hw]
    unfold Group.relist
    rw [if_neg (by omega), hgone]
    simp [horder]
  have htop : ({ g with wait := none, order := [] } : Group).formTop = ⟨ordIdle, 0⟩ := formTop_order hprot
  have hformed : formedGroup gi g.endWait =
      { g with wait := none, order := [], top := ⟨ordIdle, 0⟩, win := ⟨ordIdle, 0⟩, side := .localEnd } := by
    rw [hend, formedGroup_idle (g := { g with wait := none, order := [] }) gi rfl hn, htop]
    simp only [Group.formWin, arbitrate, hkind, if_true]
  have hmove : (formedGroup gi g.endWait).moveSelector = (formedGroup gi g.endWait).select11 := by
    rw [hformed]
    simp only [Group.moveSelector, hkind]
  have hsettled : h.selected = (formedGroup gi g.endWait).select11.selected ∧ h.top = (formedGroup gi g.endWait).select11.top ∧
      h.order = (formedGroup gi g.endWait).select11.order := by
    rw [hh, endedGroup_eq, settle_fst, ← hmove]
    exact ⟨rfl, rfl, rfl⟩
  rw [hformed] at hsettled
  exact hsettled

theorem endWait_same (g : Group) : SameBase g g.endWait := by
  unfold Group.endWait
  split
  · exact SameBase.trans (h := { g with wait := none }) (.refl g) (relist_same _ _)
  · exact .refl g

/-! ### A bridge confirmation timer that runs out (R88) -/

/-- What every event leaves is left again (R73, R76, R78, R83). -/
theorem formedGroup_settled {g : Group} (gi : GroupIx) (hset : Formed g) (hok : groupOk g = true) : formedGroup gi g = g := by
  obtain ⟨htop, hwin, hmanual⟩ := hset
  unfold groupOk at hok
  simp only [Bool.and_eq_true] at hok
  obtain ⟨⟨_, habove⟩, hwaits⟩ := hok
  have hwait : g.normWait = g := by
    unfold Group.normWait
    cases hw : g.wait with
    | none => rfl
    | some w =>
      rw [hw] at hwaits
      simp only [Bool.not_eq_true'] at hwaits
      simp only [hwaits, Bool.false_eq_true, if_false]
  have hlocal : g.normWait.dropManualLocal gi = (g, []) := by
    rw [hwait]
    unfold Group.dropManualLocal
    cases hm : g.manual with
    | none => rfl
    | some m =>
      rw [hm] at habove
      simp only [Option.isNone_some, Bool.false_or, Bool.not_eq_true'] at habove
      simp only [habove, Bool.false_eq_true, if_false]
  have hwon : { g with top := g.formTop }.formWin = g := by
    rw [← htop]
    unfold Group.formWin
    change { g with win := (arbitrate g.kind g.top g.farTaken).1, side := (arbitrate g.kind g.top g.farTaken).2 } = g
    rw [← hwin]
  unfold formedGroup
  rw [hlocal, hwon]
  unfold Group.dropManualFar
  split
  · next m hm => rw [if_neg (hmanual.resolve_left (by rw [hm]; nofun))]
  · rfl

/-- R88: a 1TN group that waits for its far end as the confirmation timer runs out. -/
theorem confirm_said (hkind : g.kind = .oneToN) (hset : groupSettled g = true) (hok : groupOk g = true) (hb : g.bridged ≠ 0)
    (hlost : g.sigLost = false) (hfar : g.farBridgedTaken ≠ g.bridged) (h : Group)
    (hh : h = endedGroup s gi g { g with confirm := .expired }) :
    h.confirm = .expired ∧ h.bridged = g.bridged ∧ h.selected = 0 ∧ h.bridgeMis = true ∧ h.top = g.top ∧ h.win = g.win ∧
      h.force = g.force ∧ h.lockout = g.lockout ∧ h.manual = g.manual ∧ h.wait = g.wait := by
  obtain ⟨⟨htop, hwin, hmanual⟩, hplaced, _⟩ := (groupSettled_iff g).1 hset
  have hformed : formedGroup gi { g with confirm := .expired } = { g with confirm := .expired } :=
    formedGroup_settled gi ⟨htop, hwin, hmanual⟩ hok
  have hasked : (if g.win.ord = 0 then 0 else g.win.mem) = g.bridged := by
    unfold Placed at hplaced
    rw [hkind] at hplaced
    exact hplaced.1.symm
  have hbridge : ({ g with confirm := .expired } : Group).bridgeMove = { g with confirm := .expired } := if_pos hasked
  have hmove : ({ g with confirm := .expired } : Group).moveSelector = { g with confirm := .expired, selected := 0 } := by
    simp only [Group.moveSelector, hkind]
    rw [hkind] at hbridge
    rw [hbridge]
    unfold Group.selectN
    rw [if_neg hb, if_neg (by simp [hlost])]
    exact if_neg hfar
  have hsettled : h = { ({ ({ g with confirm := .expired, selected := 0 } : Group) with
      sent := ({ g with confirm := .expired, selected := 0 } : Group).sentFields }.judge s) with switches := h.switches } := by
    rw [← hmove, hh, endedGroup_eq, settle_fst, hformed]
  rw [hsettled]
  exact ⟨rfl, rfl, rfl, rfl, rfl, rfl, rfl, rfl, rfl, rfl⟩

end

/-! ### The commands -/

section
variable {s : State} {gi : GroupIx} {g : Group} (hready : s.start.ready = true) (hg : s.prc.groups[gi] = some g)
include hready hg

theorem atGroup_some {test : Group → Bool} (h : test g = true) : (s.start.ready && atGroup s gi test) = true := by
  unfold atGroup
  rw [hready, hg]
  exact h

theorem exec_holdOff {m n : Nat} (hm : m ≤ g.n) (ht : (g.mon m).timer = some n) : exec (.holdOffExpiry gi m) s =
    .next (settled (putPrc s (prcOne s gi fun k => k.holdOffOut m (k.stateOf s m)))) := by
  have hrun : (decide (m ≤ g.n) && (g.mon m).timer.isSome) = true := by simp [hm, ht]
  exact whenever_true (atGroup_some (test := fun k => decide (m ≤ k.n) && (k.mon m).timer.isSome) hready hg hrun) _ _

theorem exec_wtr {m n : Nat} (hw : g.wait = some (.restore m (some n))) : exec (.wtrExpiry gi) s =
    .next (settled (putPrc s (prcOne s gi Group.endWait))) :=
  whenever_true (atGroup_some (test := Group.wtrRuns) hready hg (by simp [Group.wtrRuns, hw])) _ _

theorem exec_confirm {n : Nat} (hc : g.confirm = .running n) : exec (.bridgeConfirmationExpiry gi) s =
    .next (settled (putPrc s (prcOne s gi fun k => { k with confirm := .expired }))) :=
  whenever_true (atGroup_some (test := Group.confirmRuns) hready hg (by simp [Group.confirmRuns, hc])) _ _

end

/-! ### The statement -/

/-- What an event that concerns the groups of port `p` leaves of the others. -/
theorem eventOf_said {s : State} {gi : GroupIx} {g : Group} {p : Port} (hg : s.prc.groups[gi] = some g)
    {concerns : Group → Bool} (change : Group → Group) (hthis : concerns g = true)
    (hothers : ∀ k : Group, p ∉ k.prot :: k.work → concerns k = false) {r : Prc × List Msg}
    (hr : r = prcEnd (allGroups.foldl (prcEach s concerns change) (prcBegin s))) :
    r.1.groups[gi] = some (endedGroup s gi g (change g)) ∧
    (∀ (j : GroupIx) k, s.prc.groups[j] = some k → p ∉ k.prot :: k.work → r.1.groups[j] = some k) ∧ r.1.frozen = s.prc.frozen := by
  obtain ⟨hgroups, hfrozen⟩ := prcEvent_said s concerns change
  rw [← hr] at hgroups hfrozen
  refine ⟨?_, fun j k hk hp => ?_, hfrozen⟩
  · rw [hgroups, hg, Option.map_some, eventGroup, if_pos hthis]
  · rw [hgroups, hk, Option.map_some, eventGroup, hothers k hp]
    rfl

/-- Settles O24: an event at a member's port settles the one group, whose wait is what the member's change makes of it
unless a request above it stands. -/
theorem protectionTimersRunOut : Obligations.ProtectionTimersRunOut := by
  refine ⟨settle_bridge, fun s gi g m p hg hn hnd hp => ?_, fun s gi g hready hg => ?_⟩
  · intro x applicable raised calm disturbed wait becomes
    have hm := member_lt hn hp
    have hmem := memberOf_at hnd hp
    have happ (st : PortState) : applicable st = g.applicable m st := by
      have hsd : st.sd = decide (st = .degrade) := by rw [Bool.eq_iff_iff, sd_iff, decide_eq_true_iff]
      simp only [applicable, Group.applicable, hsd]
    have hraised (st : PortState) : raised st = raisedBy g m st := by simp only [raised, raisedBy, happ]
    have hwait : wait (some (g.wtr * 4000)) = some (g.waitFor m) := by simp only [wait, waitFor_eq]
    have hsusp : wait none = suspendedWait m (some (g.waitFor m)) := by
      rw [waitFor_eq]
      cases hrev : g.revertive <;> simp [wait, suspendedWait, hrev]
    simp only [happ, hraised, hwait, hsusp]
    refine ⟨fun old new => ?_, ?_, fun hx => ?_⟩
    · obtain ⟨hgroup, hothers, hfrozen⟩ := eventOf_said hg (p := p) (r := prcPorts s [⟨p, old, new⟩])
        (concerns := fun k => !(k.memberChanges [⟨p, old, new⟩]).isEmpty) (fun k => k.takePorts (k.memberChanges [⟨p, old, new⟩]))
        (by simp [memberChanges_one old new hmem]) (fun k hk => by simp [memberChanges_none old new (memberOf_absent hk)]) rfl
      rw [memberChanges_one old new hmem] at hgroup
      obtain ⟨hmons, hrest⟩ := takePorts_said s gi hm old new _ _ rfl rfl
      exact ⟨_, ⟨hgroup, hmons, hothers, hfrozen⟩, hrest⟩
    · obtain ⟨hgroup, hothers, hfrozen⟩ := eventOf_said hg (p := p) (r := prcHold s [p] true)
        (concerns := fun k => !([p].filterMap k.memberOf).isEmpty) (fun k => k.takeHolds s ([p].filterMap k.memberOf) true)
        (by simp [hmem]) (fun k hk => by simp [memberOf_absent hk]) rfl
      rw [show [p].filterMap g.memberOf = [m] by simp [hmem]] at hgroup
      obtain ⟨hmons, hrest⟩ := holdOn_said s gi hm _ _ rfl rfl
      exact ⟨_, ⟨hgroup, hmons, hothers, hfrozen⟩, hrest⟩
    · obtain ⟨hgroup, hothers, hfrozen⟩ := eventOf_said hg (p := p) (r := prcHold s [p] false)
        (concerns := fun k => !([p].filterMap k.memberOf).isEmpty) (fun k => k.takeHolds s ([p].filterMap k.memberOf) false)
        (by simp [hmem]) (fun k hk => by simp [memberOf_absent hk]) rfl
      rw [show [p].filterMap g.memberOf = [m] by simp [hmem]] at hgroup
      obtain ⟨hmons, hrest⟩ := holdOff_said s gi hm hp rfl hx _ _ rfl rfl
      exact ⟨_, ⟨hgroup, hmons, hothers, hfrozen⟩, hrest⟩
  · intro frame
    refine ⟨fun m n hm ht => ?_, fun m n hw => ?_, fun n hc hkind hset hok hb hlost hfar => ?_⟩
    · have hseven : m < 7 := by
        by_contra hno
        rw [mon_beyond hno] at ht
        cases ht
      obtain ⟨honly, hframe⟩ := settledOne_said hg fun k => k.holdOffOut m (k.stateOf s m)
      obtain ⟨h1, h2, h3, h4, h5, h6, h7, h8⟩ := holdOffOut_said (s := s) (gi := gi) (g := g) hseven (g.stateOf s m) _ rfl
      exact ⟨_, _, exec_holdOff hready hg hm ht, honly, h1, h2, h3, h4, h5, h6, h7, h8, hframe⟩
    · obtain ⟨honly, hframe⟩ := settledOne_said hg Group.endWait
      have hsame := (endWait_same g).trans (endedGroup_same s gi g g.endWait)
      exact ⟨_, _, exec_wtr hready hg hw, honly, ended_noWait (endWait_wait g), hsame.same, hsame.lockout, hsame.force,
        fun hkind hone horder hn hprot hreq => endWait_idle hw hkind hone horder hn hprot hreq _ rfl, hframe⟩
    · obtain ⟨honly, hframe⟩ := settledOne_said hg fun k => { k with confirm := .expired }
      have hsame := endedGroup_same s gi g { g with confirm := .expired }
      obtain ⟨h1, h2, h3, h4, h5, h6, h7, h8, h9, h10⟩ := confirm_said (s := s) (gi := gi) hkind hset hok hb hlost hfar _ rfl
      exact ⟨_, _, exec_confirm hready hg hc, honly, hsame.same, h1, h2, h3, h4, h5, h6, h7, h8, h9, h10, hframe⟩

end Sys2Proof.Proofs
end

