-- ==== Sys2Proof/Proofs/TimingTimers.lean ====
section
/-! TSEL's timers: the end of the warm-up, the steering timer, the holdover limit (R106, R116, R118, R120, R121). -/

namespace Sys2Proof.Proofs

open Sys2Proof.Machine Sys2Proof.Safety Sys2Proof.Laws

/-! ### One event at TSEL -/

/-- An event that TSEL takes and that is settled. -/
theorem tselEvent_said (s : State) {x : Tsel × List Msg} (h : Below 3 x.2) :
    (settled (putTsel s x)).tsel = x.1 ∧ (settled (putTsel s x)).tsp = x.1.steering ∧
    unchangedBut byTsel s (settled (putTsel s x)) := by
  obtain ⟨htsel, hframe⟩ := settledTsel_said s h
  exact ⟨htsel, settledTsel_tsp s x h, hframe⟩

/-! ### The expiries -/

section
variable {s : State} (hready : s.start.ready = true)
include hready

/-- R106: the end of the warm-up hands nothing on. -/
theorem warmUpEnd_said (h : s.tsel.warmUp ≠ none) : ∃ t, exec .warmUpEnd s = .next t ∧
    t.tsel = { s.tsel with warmUp := none } ∧ t.tsp = s.tsel.steering ∧ unchangedBut [.tsel, .tsp, .gens] s t := by
  have hruns : (s.start.ready && s.tsel.warmUp.isSome) = true := by
    rw [hready, Bool.true_and]
    exact Option.isSome_iff_ne_none.2 h
  have hquiet : settled (putTsel s (tselWarm s)) = (putTsel s (tselWarm s)).1 := settled_quiet rfl
  refine ⟨_, whenever_true hruns s _, ?_, ?_, fun q hq => ?_⟩
  · rw [hquiet, putTsel_tsel]
    rfl
  · rw [hquiet, putTsel_tsp]
    rfl
  · rw [hquiet]
    cases q <;> first | exact absurd (by decide) hq | simp [Part.same]

/-- R116, R118: a steering update of a state that steers by itself. -/
theorem steeringTimer_said (target : Int) (hsteer : s.tsel.steer ≠ none)
    (h : (s.tsel.state = .holdover ∧ s.tsel.holdValue = some target) ∨ (s.tsel.state = .freeRun ∧ s.rqu.shelf.trim = target)) :
    tselSteer s = tselEnd s { tselBegin s with tsel := { s.tsel.steerTo s.rqu.shelf.slew target with steer := some per1024 } } ∧
    exec .steeringTimerExpiry s = .next (settled (putTsel s (tselSteer s))) := by
  have hrun : s.tsel.steer.isSome = true := Option.isSome_iff_ne_none.2 hsteer
  have hnone : s.tsel.steer.isNone = false := by rwa [Option.isNone_eq_false_iff]
  have hself : s.tsel.state.selfSteers = true := by
    obtain ⟨hstate, _⟩ | ⟨hstate, _⟩ := h <;> rw [hstate] <;> rfl
  refine ⟨?_, whenever_true (by rw [hready, hrun, hself]; rfl) s _⟩
  unfold tselSteer
  simp only [hnone, Bool.false_eq_true, if_false]
  obtain ⟨hstate, hvalue⟩ | ⟨hstate, rfl⟩ := h
  · simp only [hstate, hvalue, Option.getD_some]
  · simp only [hstate]

/-- R120: the holdover limit reached. -/
theorem holdoverAged_said (hstate : s.tsel.state = .holdover) (haged : s.tsel.aged = false)
    (hage : s.rqu.shelf.holdLimit * 3600 * 4000 ≤ s.tsel.age) :
    tselAged s = tselEnd s (setAged (tselBegin s)) ∧ exec .holdoverAged s = .next (settled (putTsel s (tselAged s))) := by
  have hnow : s.tsel.agedNow s.rqu.shelf.holdLimit = true := by
    have hlimit : holdLimitPeriods s.rqu.shelf.holdLimit ≤ s.tsel.age := hage
    simp [Tsel.agedNow, hstate, haged, hlimit]
  exact ⟨by unfold tselAged; rw [if_pos hnow], whenever_true (by rw [hready, hnow]; rfl) s _⟩

end

/-- Settles O30: each expiry as one event of TSEL. -/
theorem timingTimersRunOut : Obligations.TimingTimersRunOut := by
  intro s hready
  refine ⟨warmUpEnd_said hready, fun target hsteer h => ?_, fun hstate haged hage => ?_⟩
  · obtain ⟨htsel, hexec⟩ := steeringTimer_said hready target hsteer h
    obtain ⟨heq, htsp, hframe⟩ := tselEvent_said s (x := tselSteer s) (by rw [htsel]; exact tselEnd_below _ _)
    have htsp := htsp.trans (congrArg Tsel.steering heq).symm
    have heq := heq.trans (congrArg Prod.fst htsel)
    rw [steerTo_eq] at heq
    intro d limited
    have hlim : (if limited then d.sign * s.rqu.shelf.slew else d) =
        if s.rqu.shelf.slew < d.natAbs then d.sign * s.rqu.shelf.slew else d := if_congr decide_eq_true_iff rfl rfl
    refine ⟨_, hexec, ?_, ?_, ?_, ?_, htsp, ?_, ?_, ?_, ?_, ?_, ?_, ?_, ?_, hframe⟩
    · rw [heq, hlim]
      rfl
    all_goals
      rw [heq]
      rfl
  · obtain ⟨htsel, hexec⟩ := holdoverAged_said hready hstate haged hage
    obtain ⟨heq, _, hframe⟩ := tselEvent_said s (x := tselAged s) (by rw [htsel]; exact tselEnd_below _ _)
    have heq := heq.trans (congrArg Prod.fst htsel)
    have hclass : (tselEnd s (setAged (tselBegin s))).1.outClass = s.rqu.shelf.freeClass := by
      change ({ s.tsel with aged := true } : Tsel).quality s.rqu.shelf = _
      simp only [Tsel.quality, hstate, if_true]
    exact ⟨_, hexec, by rw [heq]; rfl, by rw [heq, hclass], by rw [heq]; exact hstate, by rw [heq]; rfl, by rw [heq]; rfl,
      by rw [heq]; rfl, by rw [heq]; rfl, by rw [heq]; rfl, hframe⟩

end Sys2Proof.Proofs
end

