-- ==== Sys2Proof/Proofs/TimingSelection.lean ====
section
/-! Which reference is selected, what a change of it does, and what the end of an event of TSEL forms (R112, R113, R115, R119,
R121, R122). -/

namespace Sys2Proof.Proofs

open Sys2Proof.Machine Sys2Proof.Safety Sys2Proof.Laws

/-! ### The ranked choice (R112, R113) -/

theorem usableClass_isSome (c : Option Nat) : (c.bind usableClass).isSome = true ↔ ∃ k, c = some k ∧ 1 ≤ k ∧ k ≤ 6 := by
  cases c with
  | none => simp
  | some k =>
    by_cases h : 1 ≤ k ∧ k ≤ 6
    · simp [usableClass, h]
    · simp only [Option.bind_some, usableClass, if_neg h, Option.isSome_none, Option.some.injEq, exists_eq_left']
      exact iff_of_false Bool.false_ne_true h

theorem eligible_iff (t : Tsel) (r : RefIx) : t.eligible r = true ↔
    t.refs[r].state = .qualified ∧ 1 ≤ t.refs[r].entry.priority ∧ t.refs[r].entry.priority ≤ 8 ∧ t.lockout[r] = false ∧
    ∃ c, t.refs[r].cls = some c ∧ 1 ≤ c ∧ c ≤ 6 := by
  unfold Tsel.eligible
  simp only [Bool.and_eq_true, decide_eq_true_eq, Bool.not_eq_true', usableClass_isSome, and_assoc]

/-- R113: the class that ranks a reference, where the quality mode ranks by class. -/
def rankClass (t : Tsel) (quality : Bool) (r : RefIx) : Nat := if quality then t.refs[r].cls.getD 0 else 0

/-- R113: a reference of lower class, then of lower priority number, then of lower index. -/
def RanksAhead (t : Tsel) (quality : Bool) (a b : RefIx) : Prop :=
  rankClass t quality a < rankClass t quality b ∨ (rankClass t quality a = rankClass t quality b ∧
    (t.refs[a].entry.priority < t.refs[b].entry.priority ∨ (t.refs[a].entry.priority = t.refs[b].entry.priority ∧ a < b)))

/-- One step of the ranking, in ascending index. -/
def rankStep (t : Tsel) (quality : Bool) : Option RefIx → RefIx → Option RefIx
  | none, r => some r
  | some b, r => if t.ranksBefore quality b r then some b else some r

section
variable {t : Tsel} {quality : Bool}

theorem ranksBefore_iff {a b : RefIx} (hlt : a < b) : t.ranksBefore quality a b = true ↔ RanksAhead t quality a b := by
  unfold Tsel.ranksBefore RanksAhead rankClass
  simp only [hlt, and_true]
  generalize t.refs[a].cls.getD 0 = ca, t.refs[b].cls.getD 0 = cb, t.refs[a].entry.priority = pa, t.refs[b].entry.priority = pb
  cases quality with
  | false =>
    simp only [Bool.false_and, Bool.false_eq_true, if_false, decide_eq_true_eq, lt_irrefl, true_and, false_or]
    omega
  | true =>
    simp only [Bool.true_and, if_true, bne_iff_ne]
    split <;> simp only [decide_eq_true_eq] <;> omega

theorem ranksAhead_asymm {a b : RefIx} (h : RanksAhead t quality a b) : ¬RanksAhead t quality b a := by
  unfold RanksAhead at *
  rw [Fin.lt_def] at *
  generalize rankClass t quality a = ca, rankClass t quality b = cb, t.refs[a].entry.priority = pa, t.refs[b].entry.priority = pb at *
  omega

theorem ranked_eq : t.ranked quality = (allRefs.filter t.eligible).foldl (rankStep t quality) none := by
  unfold Tsel.ranked
  refine congrArg (fun f => List.foldl f none _) ?_
  funext best r
  cases best <;> rfl

theorem rankStep_some (best : Option RefIx) (r : RefIx) : ∃ c, rankStep t quality best r = some c := by
  cases best with
  | none => exact ⟨r, rfl⟩
  | some b =>
    by_cases h : t.ranksBefore quality b r = true
    · exact ⟨b, if_pos h⟩
    · exact ⟨r, if_neg h⟩

theorem rank_fold_some (rs : List RefIx) (b : RefIx) : ∃ c, rs.foldl (rankStep t quality) (some b) = some c := by
  induction rs generalizing b with
  | nil => exact ⟨b, rfl⟩
  | cons r rs ih =>
    obtain ⟨c, hc⟩ := rankStep_some (t := t) (quality := quality) (some b) r
    rw [List.foldl_cons, hc]
    exact ih c

theorem rank_fold_mem (rs : List RefIx) (best : Option RefIx) {c : RefIx} (h : rs.foldl (rankStep t quality) best = some c) :
    c ∈ rs ∨ best = some c := by
  induction rs generalizing best with
  | nil => exact .inr h
  | cons r rs ih =>
    obtain hin | heq := ih _ h
    · exact .inl (.tail _ hin)
    · cases best with
      | none => exact .inl (by cases heq; exact .head _)
      | some b =>
        by_cases hb : t.ranksBefore quality b r = true
        · exact .inr ((if_pos hb).symm.trans heq)
        · exact .inl (by cases (if_neg hb).symm.trans heq; exact .head _)

theorem rank_fold_keeps (rs : List RefIx) {r : RefIx} (h : ∀ j ∈ rs, t.ranksBefore quality r j = true) :
    rs.foldl (rankStep t quality) (some r) = some r := by
  induction rs with
  | nil => rfl
  | cons j rs ih =>
    have hj : rankStep t quality (some r) j = some r := if_pos (h j (.head _))
    rw [List.foldl_cons, hj]
    exact ih fun k hk => h k (.tail _ hk)

/-- R113: the reference that ranks ahead of every other comes out, the references taken in ascending index. -/
theorem rank_fold_first {rs : List RefIx} (hasc : rs.Pairwise (· < ·)) {r : RefIx} (hr : r ∈ rs)
    (hfirst : ∀ j ∈ rs, j ≠ r → RanksAhead t quality r j) : rs.foldl (rankStep t quality) none = some r := by
  obtain ⟨pre, post, rfl⟩ := List.append_of_mem hr
  obtain ⟨_, hpost, hpre⟩ := List.pairwise_append.1 hasc
  obtain ⟨hlater, _⟩ := List.pairwise_cons.1 hpost
  have hat : rankStep t quality (pre.foldl (rankStep t quality) none) r = some r := by
    cases hb : pre.foldl (rankStep t quality) none with
    | none => rfl
    | some b =>
      have hmem : b ∈ pre := (rank_fold_mem pre none hb).resolve_right nofun
      have hlt : b < r := hpre b hmem r (.head _)
      refine if_neg fun hbefore => ranksAhead_asymm ((ranksBefore_iff hlt).1 hbefore) ?_
      exact hfirst b (List.mem_append_left _ hmem) (Fin.ne_of_lt hlt)
  rw [List.foldl_append, List.foldl_cons, hat]
  refine rank_fold_keeps post fun j hj => (ranksBefore_iff (hlater j hj)).2 ?_
  have hlt := hlater j hj
  exact hfirst j (List.mem_append_right _ (.tail _ hj)) (Fin.ne_of_lt hlt).symm

theorem mem_eligible {r : RefIx} : r ∈ allRefs.filter t.eligible ↔ t.eligible r = true := by
  rw [List.mem_filter]
  exact and_iff_right (mem_allRefs r)

theorem ranked_none (h : ∀ r, t.eligible r = false) : t.ranked quality = none := by
  have hnil : allRefs.filter t.eligible = [] := List.filter_eq_nil_iff.2 fun r _ => by rw [h r]; exact Bool.false_ne_true
  rw [ranked_eq, hnil]
  rfl

theorem ranked_first {r : RefIx} (hr : t.eligible r = true)
    (hfirst : ∀ j, t.eligible j = true → j ≠ r → RanksAhead t quality r j) : t.ranked quality = some r := by
  have hasc : allRefs.Pairwise (· < ·) := (List.sortedLT_finRange 6).pairwise
  rw [ranked_eq]
  exact rank_fold_first (hasc.filter _) (mem_eligible.2 hr) fun j hj hne => hfirst j (mem_eligible.1 hj) hne

theorem ranked_some {r : RefIx} (hr : t.eligible r = true) : t.ranked quality ≠ none := by
  have hmem := mem_eligible.2 hr
  rw [ranked_eq]
  cases hl : allRefs.filter t.eligible with
  | nil =>
    rw [hl] at hmem
    cases hmem
  | cons b rs =>
    obtain ⟨c, hc⟩ := rank_fold_some (t := t) (quality := quality) rs b
    rw [List.foldl_cons, show rankStep t quality none b = some b from rfl, hc]
    nofun

theorem choose_unforced (h : ∀ f, t.force = some f → t.eligible f = false) : t.choose quality = t.ranked quality := by
  unfold Tsel.choose
  split
  · next f hf => exact if_neg (by rw [h f hf]; exact Bool.false_ne_true)
  · rfl

end

/-! ### A change of the selected reference (R115, R119) -/

section
variable (s : State) (w : TselWork)

/-- R119: the holdover value, of four values or more their mean. -/
theorem formHold_mean {t : Tsel} (h : 4 ≤ t.history.length) : let n := t.history.length
    2 * (n * t.formHold - t.history.sum).natAbs ≤ n ∧
      (2 * (n * t.formHold - t.history.sum).natAbs = n → t.history.sum.natAbs ≤ n * t.formHold.natAbs) := by
  have hform : t.formHold = roundNearest t.history.sum t.history.length := if_pos h
  rw [hform]
  exact roundNearest_near _ (by omega)

theorem enter_holdover {t : Tsel} (h : t.state = .acquiring ∨ t.state = .locked) : t.enter none =
    { t with state := .holdover, holdValue := some t.formHold, age := 0, aged := false, steer := some per1024 } := by
  unfold Tsel.enter
  obtain h | h := h <;> simp only [h]

theorem reselect_said :
    let t := w.tsel
    let sel := t.choose s.rqu.shelf.quality
    let r := reselect s w
    let u := r.tsel
    let n := t.history.length
    u.selected = sel ∧ (sel = t.selected → r = w) ∧
    (sel ≠ t.selected →
      u = { t with
        selected := sel, history := [], unlimited := 0, state := u.state, holdValue := u.holdValue, age := u.age
        aged := u.aged, steer := u.steer } ∧
      (sel ≠ none → u.state = .acquiring ∧ u.holdValue = none ∧ u.age = 0 ∧ u.aged = false ∧ u.steer = none) ∧
      (sel = none → t.state = .acquiring ∨ t.state = .locked →
        u.state = .holdover ∧ u.age = 0 ∧ u.aged = false ∧ u.steer = some 4096 ∧
        (n < 4 → u.holdValue = some t.steering) ∧
        (4 ≤ n → ∃ v : Int, u.holdValue = some v ∧ 2 * (n * v - t.history.sum).natAbs ≤ n ∧
          (2 * (n * v - t.history.sum).natAbs = n → t.history.sum.natAbs ≤ n * v.natAbs))) ∧
      r.alm = w.alm ++ [.event .refSwitch 0 (t.selected.map (·.val)) (sel.map (·.val))] ∧
      r.recs = w.recs ++
        [.timing u.state t.selected sel u.steering (if u.state = .holdover then u.holdValue else none) u.aged]) := by
  intro t sel r u n
  refine ⟨reselect_selected s w, reselect_same s w, fun hne => ?_⟩
  have hother : r = { tsel := { t.enter sel with selected := sel, history := [], unlimited := 0 }
                      alm := w.alm ++ [.event .refSwitch 0 (t.selected.map (·.val)) (sel.map (·.val))]
                      recs := w.recs ++ [timingRecord { t.enter sel with selected := sel, history := [], unlimited := 0 } t.selected] } :=
    reselect_other s w hne
  have hu : u = { t.enter sel with selected := sel, history := [], unlimited := 0 } := congrArg TselWork.tsel hother
  refine ⟨?_, fun hsome => ?_, fun hnone hstate => ?_, congrArg TselWork.alm hother, ?_⟩
  · rw [hu]
    obtain ⟨st, hv, ag, ad, sr, he⟩ := enter_eq t sel
    rw [he]
  · obtain ⟨x, hx⟩ := Option.ne_none_iff_exists'.1 hsome
    rw [hu, hx]
    exact ⟨rfl, rfl, rfl, rfl, rfl⟩
  · rw [hu, hnone, enter_holdover hstate]
    exact ⟨rfl, rfl, rfl, rfl, fun hfew => congrArg some (if_neg (by omega)), fun hmany => ⟨_, rfl, formHold_mean hmany⟩⟩
  · rw [hu]
    exact congrArg TselWork.recs hother

/-! ### The end of an event (R121, R122) -/

theorem mem_batch {c : AlmChange} {batch : List AlmChange} (h : c ∈ batch) : .alm batch ∈ toAlm batch :=
  mem_toAlm_iff.2 ⟨List.ne_nil_of_mem h, rfl⟩

theorem avoid_said {t : Tsel} (prc : Prc) {r : RefIx} (hsel : t.selected = some r) :
    let b := t.refs[r].entry
    (b.bindKind = .none → t.avoid prc = []) ∧
    (∀ p : Port, b.bindKind = .port → b.bindNum = p → t.avoid prc = [p]) ∧
    ∀ (gi : GroupIx) g, b.bindKind = .group → b.bindNum = gi → prc.groups[gi] = some g → g.work.length = 1 →
      ∀ p, p ∈ t.avoid prc ↔ p = g.prot ∨ p ∈ g.work := by
  intro b
  have hb : t.refs[r].entry = b := rfl
  unfold Tsel.avoid
  simp only [hsel, hb]
  refine ⟨fun hk => by rw [hk], fun p hk hn => ?_, fun gi g hk hn hg hone p => ?_⟩
  · rw [hk, hn]
    simp only [portOfNat_port, Option.toList_some]
  · have hbound : boundGroup prc b = some g := by
      unfold boundGroup
      rw [if_pos hk, dif_pos (by rw [hn]; exact gi.isLt)]
      exact (congrArg (fun i : GroupIx => prc.groups[i]) (Fin.ext hn)).trans hg
    rw [hk]
    simp only [hbound]
    rw [List.take_of_length_le (by omega), List.mem_cons]

theorem runsFree_iff (t : Tsel) : t.runsFree = true ↔ t.state = .freeRun ∧ ∃ r : RefIx, t.refs[r].entry.enable = true := by
  simp [Tsel.runsFree, allRefs]

/-- R121: the output class, by the timing state. -/
theorem quality_said (t : Tsel) (shelf : ShelfRec) :
    (t.state = .acquiring ∨ t.state = .locked → ∀ r c, t.selected = some r → t.refs[r].cls = some c → t.quality shelf = c) ∧
    (t.state = .holdover → t.quality shelf = if t.aged then shelf.freeClass else shelf.holdClass) ∧
    (t.state = .freeRun → t.quality shelf = shelf.freeClass) := by
  unfold Tsel.quality
  refine ⟨fun hstate r c hsel hcls => ?_, fun hstate => by rw [hstate], fun hstate => by rw [hstate]⟩
  obtain hstate | hstate := hstate
  · simp only [hstate, hsel, hcls, Option.getD_some]
  · simp only [hstate, hsel, hcls, Option.getD_some]

/-- R122, R125: a condition's move stands in the batch that the end of an event hands ALM. -/
theorem tselEnd_hands {c : AlmChange}
    (h : c ∈ flagChange .holdover 0 s.tsel.holdover (tselEnd s w).1.holdover ∨
      c ∈ flagChange .freeRun 0 s.tsel.freeRun (tselEnd s w).1.freeRun) :
    ∃ batch, .alm batch ∈ (tselEnd s w).2 ∧ c ∈ batch := by
  have hmem : c ∈ allRefs.flatMap (refChanges s.tsel (w.tsel.form s)) ++
      flagChange .holdover 0 s.tsel.holdover (tselEnd s w).1.holdover ++
      flagChange .freeRun 0 s.tsel.freeRun (tselEnd s w).1.freeRun ++ w.alm := by
    simp only [List.mem_append]
    tauto
  exact ⟨_, List.mem_append_left _ (mem_batch hmem), hmem⟩

end

/-- Settles O32: the ranking as a fold over the eligible references, the two branches of the selection, and the values that
the end of an event forms. -/
theorem theSelectedReference : Obligations.TheSelectedReference := by
  refine ⟨eligible_iff, fun t quality => ⟨fun f hf hel => choose_forced hf hel quality, fun hno => ?_⟩, reselect_said,
    fun s w => ?_⟩
  · rw [choose_unforced hno]
    exact ⟨ranked_none, fun r hr hfirst => ranked_first hr hfirst, fun r hr => ranked_some hr⟩
  · intro e t batched
    obtain ⟨hclass, hhold, hfree⟩ := quality_said w.tsel s.rqu.shelf
    have hholdover : t.holdover = decide (t.state = .holdover) := rfl
    have hfreeRun : t.freeRun = t.runsFree := rfl
    refine ⟨rfl, hclass, hhold, hfree, fun hnone => ?_, fun r hr => avoid_said s.prc hr, ?_, ?_, fun hoff hon => ?_,
      fun hon hoff => ?_, fun hoff hon => ?_, fun hon hoff => ?_⟩
    · change w.tsel.avoid s.prc = []
      unfold Tsel.avoid
      rw [show w.tsel.selected = none from hnone]
    · rw [hholdover, decide_eq_true_eq]
    · rw [hfreeRun, runsFree_iff]
    · refine tselEnd_hands s w (.inl ?_)
      rw [hoff, show (tselEnd s w).1.holdover = true from hon]
      exact .head _
    · refine tselEnd_hands s w (.inl ?_)
      rw [hon, show (tselEnd s w).1.holdover = false from hoff]
      exact .head _
    · refine tselEnd_hands s w (.inr ?_)
      rw [hoff, show (tselEnd s w).1.freeRun = true from hon]
      exact .head _
    · refine tselEnd_hands s w (.inr ?_)
      rw [hon, show (tselEnd s w).1.freeRun = false from hoff]
      exact .head _

end Sys2Proof.Proofs
end

