-- ==== Sys2Proof/Proofs/ReferenceRules.lean ====
section
/-! The references: their taps and effective classes, their availability, and what an edge makes of one (R100, R102 to R104,
R108). -/

namespace Sys2Proof.Proofs

open Sys2Proof.Machine Sys2Proof.Safety Sys2Proof.Laws

/-! ### Taps (R100) -/

theorem boundGroup_at (c : Prc) {e : RefEntry} {gi : GroupIx} (hk : e.bindKind = .group) (hn : e.bindNum = gi) :
    boundGroup c e = c.groups[gi] := by
  unfold boundGroup
  rw [if_pos hk, dif_pos (by rw [hn]; exact gi.isLt)]
  exact congrArg (fun i : GroupIx => c.groups[i]) (Fin.ext hn)

theorem tapOf_said (c : Prc) (e : RefEntry) :
    (e.bindKind = .none → tapOf c e = none) ∧ (∀ p : Port, e.bindKind = .port → e.bindNum = p → tapOf c e = some p) ∧
    ∀ gi : GroupIx, e.bindKind = .group → e.bindNum = gi →
      (c.groups[gi] = none → tapOf c e = none) ∧
      ∀ g p, c.groups[gi] = some g → g.kind ≠ .oneToN → g.work = [p] →
        tapOf c e = some (if g.selected = 0 then p else g.prot) := by
  refine ⟨fun hk => ?_, fun p hk hn => ?_, fun gi hk hn => ⟨fun hnone => ?_, fun g p hg hkind hwork => ?_⟩⟩
  · simp only [tapOf, hk]
  · simp only [tapOf, hk, hn, portOfNat_port]
  · simp only [tapOf, hk, boundGroup_at c hk hn, hnone, Option.bind_none]
  · simp only [tapOf, hk, boundGroup_at c hk hn, hg, Option.bind_some]
    rw [tapPort_of hkind, hwork]
    split <;> rfl

/-! ### The effective class and the availability (R102, R103, R108) -/

section
variable (s : State) (r : RefIx) (x : RefRec)

theorem effClass_said :
    (x.entry.fromTag = false → effClass s x = some x.entry.fixedCls) ∧
    (x.entry.fromTag = true →
      (∀ p t, x.tap = some p → s.tcd.decs[p].tag = some t →
        effClass s x = if 1 ≤ t.cls.toNat ∧ t.cls.toNat ≤ 6 then some t.cls.toNat else none) ∧
      ((∀ p, x.tap = some p → s.tcd.decs[p].tag = none) → effClass s x = none)) := by
  unfold effClass
  refine ⟨fun hfix => by rw [hfix, if_neg Bool.false_ne_true], fun htag => ?_⟩
  rw [if_pos htag]
  refine ⟨fun p t hp ht => ?_, fun hnone => ?_⟩
  · rw [hp]
    simp only [ht, Option.bind_some, usableClass]
  · cases hp : x.tap with
    | none => rfl
    | some p =>
      simp only [hnone p hp, Option.bind_none]

/-- R102: the reference with its class as it stands. -/
def classed : RefRec := { x with cls := effClass s x }

theorem judgeRef_lost (he : x.entry.enable = true) {c : Cause} (h : causeOf s r (classed s x) = some c) :
    judgeRef s r x = { x with
      cls := effClass s x, state := .unavailable, cause := some c, window := none, run := 0
      refLos := decide (c = .noActivity), refOffset := false } := by
  unfold judgeRef classed at *
  rw [he]
  simp only [Bool.not_true, Bool.false_eq_true, if_false, h]

theorem judgeRef_available (he : x.entry.enable = true) (h : causeOf s r (classed s x) = none) :
    ((x.state = .disabled ∨ x.state = .unavailable) → judgeRef s r x = { x with
      cls := effClass s x, state := .measuring, cause := none, window := none, run := 0, refLos := false }) ∧
    (¬(x.state = .disabled ∨ x.state = .unavailable) → judgeRef s r x = { x with
      cls := effClass s x, cause := none, refLos := false }) := by
  unfold judgeRef classed at *
  rw [he]
  simp only [Bool.not_true, Bool.false_eq_true, if_false, h]
  refine ⟨fun hidle => ?_, fun hidle => ?_⟩
  · obtain hstate | hstate := hidle <;> simp only [hstate]
  · cases hstate : x.state <;> simp_all

theorem judgeRef_enabled (he : x.entry.enable = true) : (judgeRef s r x).cls = effClass s x := by
  cases h : causeOf s r (classed s x) with
  | some c => rw [judgeRef_lost s r x he h]
  | none =>
    obtain ⟨hidle, hother⟩ := judgeRef_available s r x he h
    by_cases hi : x.state = .disabled ∨ x.state = .unavailable
    · rw [hidle hi]
    · rw [hother hi]

/-- R102: judging touches neither the entry, the tap nor the activity. -/
theorem judgeRef_eq : ∃ c st ca w n l o, judgeRef s r x =
    { x with cls := c, state := st, cause := ca, window := w, run := n, refLos := l, refOffset := o } := by
  cases he : x.entry.enable with
  | false => exact ⟨_, _, _, _, _, _, _, judgeRef_disabled s r he⟩
  | true =>
    cases h : causeOf s r (classed s x) with
    | some c => exact ⟨_, _, _, _, _, _, _, judgeRef_lost s r x he h⟩
    | none =>
      obtain ⟨hidle, hother⟩ := judgeRef_available s r x he h
      by_cases hi : x.state = .disabled ∨ x.state = .unavailable
      · exact ⟨_, _, _, _, _, _, _, hidle hi⟩
      · exact ⟨_, _, _, _, _, _, _, hother hi⟩

/-- R102: a line reference's tap can carry it. -/
def TapFine (p : Port) : Prop := s.pmon.ports[p].handed.sf = false ∧ s.cbc.ports[p].hold = none

theorem causeOf_inactive (h : x.active = false) : causeOf s r x = some .noActivity := by
  unfold causeOf
  rw [h]
  rfl

theorem causeOf_tap (h : x.active = true) (hline : 2 ≤ r.val) {c : Cause} (hc : tapCause s x.tap = some c) :
    causeOf s r x = some c := by
  unfold causeOf
  simp only [h, Bool.not_true, Bool.false_eq_true, if_false, isLine, hline, decide_true, if_true, hc]

theorem causeOf_class (h : x.active = true) (hfine : r.val < 2 ∨ ∃ p, x.tap = some p ∧ TapFine s p) :
    causeOf s r x = if x.entry.fromTag && x.cls.isNone then some .noClass else none := by
  have htap : (if isLine r then tapCause s x.tap else none) = none := by
    obtain hbuilding | ⟨p, hp, hsf, hhold⟩ := hfine
    · exact if_neg (by simp only [isLine, decide_eq_true_eq]; omega)
    · split
      · simp only [tapCause, hp, portStateNow, hsf, hhold, Bool.false_eq_true, if_false, Option.isSome_none]
      · rfl
  unfold causeOf
  simp only [h, Bool.not_true, Bool.false_eq_true, if_false, htap]

/-- R102, R103, R108: an enabled reference judged, by the first test that fails. -/
theorem judgeRef_said (he : x.entry.enable = true) :
    let y := judgeRef s r x
    let lost (c : Cause) : Prop := y = { x with
      cls := y.cls, state := .unavailable, cause := some c, window := none, run := 0
      refLos := decide (c = .noActivity), refOffset := false }
    let idle : Prop := x.state = .disabled ∨ x.state = .unavailable
    (x.active = false → lost .noActivity) ∧
    (x.active = true → 2 ≤ r.val → x.tap = none → lost .noTap) ∧
    (∀ p, x.active = true → 2 ≤ r.val → x.tap = some p →
      (s.pmon.ports[p].handed.sf = true → lost .portFail) ∧
      (s.pmon.ports[p].handed.sf = false → s.cbc.ports[p].hold ≠ none → lost .held)) ∧
    (x.active = true →
      (r.val < 2 ∨ ∃ p, x.tap = some p ∧ s.pmon.ports[p].handed.sf = false ∧ s.cbc.ports[p].hold = none) →
      (x.entry.fromTag = true → y.cls = none → lost .noClass) ∧
      (x.entry.fromTag = false ∨ y.cls ≠ none →
        (idle → y = { x with
          cls := y.cls, state := .measuring, cause := none, window := none, run := 0, refLos := false }) ∧
        (¬idle → y = { x with cls := y.cls, cause := none, refLos := false }))) := by
  intro y lost idle
  have hcls : y.cls = effClass s x := judgeRef_enabled s r x he
  have hlost {c : Cause} (h : causeOf s r (classed s x) = some c) : lost c := by
    simp only [lost, hcls]
    exact judgeRef_lost s r x he h
  refine ⟨fun ha => hlost (causeOf_inactive s r (classed s x) ha), fun ha hline htap => hlost (causeOf_tap s r (classed s x) ha hline ?_),
    fun p ha hline htap => ⟨fun hsf => hlost (causeOf_tap s r (classed s x) ha hline ?_), fun hsf hheld => hlost (causeOf_tap s r (classed s x) ha hline ?_)⟩,
    fun ha hfine => ⟨fun htag hnone => hlost ?_, fun hsome => ?_⟩⟩
  · simp only [classed, htap, tapCause]
  · simp only [classed, htap, tapCause, portStateNow, hsf, if_true]
  · simp only [classed, htap, tapCause, portStateNow, hsf, Bool.false_eq_true, if_false, Option.isSome_iff_ne_none.2 hheld, if_true]
  · rw [causeOf_class s r (classed s x) ha hfine]
    simp only [classed, htag, ← hcls, hnone, Option.isNone_none, Bool.and_self, if_true]
  · have hnone : causeOf s r (classed s x) = none := by
      rw [causeOf_class s r (classed s x) ha hfine]
      refine if_neg fun h => ?_
      simp only [classed, ← hcls, Bool.and_eq_true, Option.isNone_iff_eq_none] at h
      obtain ⟨htag, hc⟩ := h
      obtain hf | hf := hsome
      · rw [htag] at hf
        cases hf
      · exact hf hc
    simp only [hcls]
    exact judgeRef_available s r x he hnone

theorem judgeRef_cls {c : Option Nat} (he : x.entry.enable = true) : judgeRef s r { x with cls := c } = judgeRef s r x := by
  unfold judgeRef
  simp only [he]
  rfl

/-- R100: a move of a reference's tap. -/
theorem moveTap_said (tap : Option Port) :
    let z := moveTap s r tap x
    (x.tap = tap → z = x) ∧
    (x.tap ≠ tap → x.entry.enable = true → z = judgeRef s r { x with tap := tap, window := none }) ∧
    (x.tap ≠ tap → x.entry.enable = false → z = { x with tap := tap, cls := effClass s { x with tap := tap } }) := by
  intro z
  refine ⟨fun h => if_pos h, fun h he => (if_neg h).trans ?_,
    fun h he => (if_neg h).trans ((judgeRef_disabled s r (x := { x with
      tap := tap, cls := effClass s { x with tap := tap }, window := if x.entry.enable then none else x.window }) he).trans ?_)⟩
  · simp only [he, if_true]
    exact judgeRef_cls s r { x with tap := tap, window := none } he
  · simp only [he, Bool.false_eq_true, if_false]

end

/-! ### The references that an event reaches (R100, R102) -/

section
variable (s : State) (r : RefIx)

theorem mem_tappedBy (ps : List Port) : r ∈ tappedBy s ps ↔ ∃ p ∈ ps, s.tsel.refs[r].tap = some p := by
  unfold tappedBy
  rw [List.mem_filter, and_iff_right (mem_allRefs r)]
  cases s.tsel.refs[r].tap with
  | none => simp
  | some q => simp

theorem tselPorts_ref (ps : List Port) : (tselPorts s ps).1.refs[r] =
    if ∃ p ∈ ps, s.tsel.refs[r].tap = some p then judgeRef s r s.tsel.refs[r] else s.tsel.refs[r] :=
  (tselEach_ref s (allRefs_nodup.filter _) (judgeRef s) r).trans (if_congr (mem_tappedBy s r ps) rfl rfl)

theorem tselTag_ref (p : Port) : (tselTag s p).1.refs[r] =
    if s.tsel.refs[r].tap = some p then judgeRef s r { s.tsel.refs[r] with cls := effClass s s.tsel.refs[r] } else s.tsel.refs[r] := by
  have hmem : r ∈ tappedBy s [p] ↔ s.tsel.refs[r].tap = some p := by simp only [mem_tappedBy, List.mem_singleton, exists_eq_left]
  exact (tselEach_ref s (allRefs_nodup.filter _) (fun r x => judgeRef s r { x with cls := effClass s x }) r).trans (if_congr hmem rfl rfl)

theorem tselGroup_ref (gi : GroupIx) (tap : Option Port) : (tselGroup s gi tap).1.refs[r] =
    if s.tsel.refs[r].entry.bindKind = .group ∧ s.tsel.refs[r].entry.bindNum = gi.val then moveTap s r tap s.tsel.refs[r]
    else s.tsel.refs[r] := by
  refine (tselEach_ref s (allRefs_nodup.filter _) (fun r x => moveTap s r tap x) r).trans (if_congr ?_ rfl rfl)
  rw [List.mem_filter, and_iff_right (mem_allRefs r)]
  simp only [Bool.and_eq_true, decide_eq_true_eq, beq_iff_eq]

end

end Sys2Proof.Proofs
end

