-- ==== Sys2Proof/Proofs/ReferenceEdges.lean ====
section
/-! Activity lost and regained, and the edges that open and count a window (R102 to R104). -/

namespace Sys2Proof.Proofs

open Sys2Proof.Machine Sys2Proof.Safety Sys2Proof.Laws

/-! ### An edge, step by step -/

section
variable (s : State) (r : RefIx) (gap : Nat)

/-- R102: the reference as an edge finds it, its activity lost before a late one. -/
def edgeFrom : RefRec := if edgeIsLate gap s.tsel.refs[r] then loseActivity s r s.tsel.refs[r] else s.tsel.refs[r]

/-- R104, R106: the offset of the window that an edge completes, none during the warm-up. -/
def edgeOffset : Option Int := if s.tsel.warmUp.isSome then none else (windowEdge gap (edgeFrom s r gap)).2.map offsetOf

/-- R102, R104, R107: the reference after an edge. -/
def edgeRef : RefRec := (edgeOffset s r gap).elim (activityEdge s r gap (windowEdge gap (edgeFrom s r gap)).1)
  fun o => judgeWindow o (activityEdge s r gap (windowEdge gap (edgeFrom s r gap)).1)

/-- R112: the selection that an edge brings, before its offset steers. -/
def edgeWork : TselWork :=
  reselect s { tselBegin s with tsel := { s.tsel with refs := s.tsel.refs.set r (edgeRef s r gap) } }

/-- R117: the selection and the steering that an edge brings. -/
def edgeSteered : TselWork := (edgeOffset s r gap).elim (edgeWork s r gap) fun o => steerBy s r o (edgeWork s r gap)

theorem tselEdge_eq : tselEdge s r gap = tselEnd s (edgeSteered s r gap) := by
  unfold edgeSteered edgeWork edgeRef
  unfold tselEdge edgeOffset edgeFrom
  simp only
  generalize (if s.tsel.warmUp.isSome = true then none else Option.map offsetOf (windowEdge gap
    (if edgeIsLate gap s.tsel.refs[r] then loseActivity s r s.tsel.refs[r] else s.tsel.refs[r])).2) = offset
  cases offset <;> rfl

/-- What an event at reference `r`, which becomes `x`, leaves of TSEL and of the rest. -/
structure RefMoved (s t : State) (r : RefIx) (x : RefRec) : Prop where
  own      : t.tsel.refs[r] = x
  others   : ∀ j, j ≠ r → t.tsel.refs[j] = s.tsel.refs[j]
  force    : t.tsel.force = s.tsel.force
  lockout  : t.tsel.lockout = s.tsel.lockout
  warmUp   : t.tsel.warmUp = s.tsel.warmUp
  eligible : SelectedEligible t.tsel
  tsp      : t.tsp = t.tsel.steering
  frame    : unchangedBut byTsel s t

theorem refMoved_of {s : State} {r : RefIx} {x : RefRec} {y : Tsel × List Msg} (hbelow : Below 3 y.2)
    (hrefs : y.1.refs = s.tsel.refs.set r x) (hforce : y.1.force = s.tsel.force) (hlock : y.1.lockout = s.tsel.lockout)
    (hwarm : y.1.warmUp = s.tsel.warmUp) (hsel : SelectedEligible y.1) : RefMoved s (settled (putTsel s y)) r x := by
  obtain ⟨htsel, htsp, hframe⟩ := tselEvent_said s hbelow
  have hset (j : RefIx) : (settled (putTsel s y)).tsel.refs[j] = if j = r then x else s.tsel.refs[j] := by
    rw [htsel, hrefs]
    exact getElem_set_fin _ _ _ _
  refine ⟨(hset r).trans (if_pos rfl), fun j hj => (hset j).trans (if_neg hj), by rw [htsel, hforce], by rw [htsel, hlock],
    by rw [htsel, hwarm], by rwa [htsel], by rw [htsp, htsel], hframe⟩

theorem steered_eq : (edgeSteered s r gap).tsel.refs = (edgeWork s r gap).tsel.refs ∧
    (edgeSteered s r gap).tsel.force = (edgeWork s r gap).tsel.force ∧
    (edgeSteered s r gap).tsel.lockout = (edgeWork s r gap).tsel.lockout ∧
    (edgeSteered s r gap).tsel.warmUp = (edgeWork s r gap).tsel.warmUp ∧ SelectedEligible (edgeSteered s r gap).tsel := by
  have hsel : SelectedEligible (edgeWork s r gap).tsel := reselect_selectedEligible s _
  unfold edgeSteered
  cases edgeOffset s r gap with
  | none => exact ⟨rfl, rfl, rfl, rfl, hsel⟩
  | some o =>
    have hkeep := steerBy_selectedEligible s r o hsel
    simp only [Option.elim_some]
    obtain ⟨_, he⟩ | ⟨_, he⟩ := steerBy_cases s r o (edgeWork s r gap)
    · rw [he] at hkeep ⊢
      obtain ⟨_, hf⟩ | ⟨_, _, hf⟩ | ⟨_, _, hf⟩ := follow_cases (edgeWork s r gap).tsel s.rqu.shelf.slew o <;>
        rw [hf, steerTo_eq] at hkeep ⊢ <;> exact ⟨rfl, rfl, rfl, rfl, hkeep⟩
    · rw [he]
      exact ⟨rfl, rfl, rfl, rfl, hsel⟩

/-- R102, R104 to R107, R117: what an edge leaves. -/
theorem takeEdge_moved : RefMoved s (takeEdge s r gap) r (edgeRef s r gap) := by
  obtain ⟨hrefs, hforce, hlock, hwarm, hsel⟩ := steered_eq s r gap
  unfold takeEdge
  rw [tselEdge_eq]
  exact refMoved_of (tselEnd_below _ _) (hrefs.trans (reselect_refs _ _)) (hforce.trans (reselect_force _ _))
    (hlock.trans (reselect_lockout _ _)) (hwarm.trans (reselect_warmUp _ _)) hsel

theorem takeEdge_tsel : (takeEdge s r gap).tsel = (tselEnd s (edgeSteered s r gap)).1 := by
  unfold takeEdge
  rw [tselEdge_eq]
  exact settledTsel_tsel s _ (tselEnd_below _ _)

/-- R104, R106: an edge that completes no window outside the warm-up does not steer. -/
theorem takeEdge_noOffset (h : edgeOffset s r gap = none) : (takeEdge s r gap).tsel.steering = s.tsel.steering ∧
    edgeRef s r gap = activityEdge s r gap (windowEdge gap (edgeFrom s r gap)).1 := by
  refine ⟨?_, by rw [edgeRef, h]; rfl⟩
  rw [takeEdge_tsel, tselEnd_steering, edgeSteered, h]
  exact reselect_steering _ _

theorem edgeOffset_none (h : (windowEdge gap (edgeFrom s r gap)).2 = none) : edgeOffset s r gap = none := by
  unfold edgeOffset
  rw [h, Option.map_none, ite_self]

theorem edgeFrom_timely (h : edgeIsLate gap s.tsel.refs[r] = false) : edgeFrom s r gap = s.tsel.refs[r] :=
  if_neg (by rw [h]; exact Bool.false_ne_true)

end

/-! ### A window's edges (R104) -/

theorem windowEdge_idle (gap : Nat) {x : RefRec} (h : x.state = .disabled ∨ x.state = .unavailable) : windowEdge gap x = (x, none) := by
  unfold windowEdge
  obtain h | h := h <;> rw [h]

/-- R104: a reference whose windows are measured. -/
def Measured (x : RefRec) : Prop := x.state = .measuring ∨ x.state = .qualified ∨ x.state = .offsetOut

theorem windowEdge_opens (gap : Nat) {x : RefRec} (h : Measured x) (hw : x.window = none) :
    windowEdge gap x = ({ x with window := some { edges := 0, ticks := 0 } }, none) := by
  unfold windowEdge
  obtain h | h | h := h <;> rw [h] <;> simp only [hw]

theorem windowEdge_counts (gap : Nat) {x : RefRec} {w : Window} (h : Measured x) (hw : x.window = some w) (hn : w.edges + 1 < 8192) :
    windowEdge gap x = ({ x with window := some { edges := w.edges + 1, ticks := w.ticks + gap } }, none) := by
  have hno : ¬windowEdges ≤ w.edges + 1 := by
    unfold windowEdges
    omega
  unfold windowEdge
  obtain h | h | h := h <;> rw [h] <;> simp only [hw, if_neg hno]

theorem windowEdge_completes (gap : Nat) {x : RefRec} {w : Window} (h : Measured x) (hw : x.window = some w) (hn : 8192 ≤ w.edges + 1) :
    windowEdge gap x = ({ x with window := some { edges := 0, ticks := 0 } }, some (w.ticks + gap)) := by
  have hyes : windowEdges ≤ w.edges + 1 := hn
  unfold windowEdge
  obtain h | h | h := h <;> rw [h] <;> simp only [hw, if_pos hyes]

theorem activityEdge_active (s : State) (r : RefIx) (gap : Nat) {x : RefRec} (h : x.active = true) :
    activityEdge s r gap x = { x with silence := some 2 } := if_pos h

theorem activityEdge_regains (s : State) (r : RefIx) {gap : Nat} {x : RefRec} (h : x.active = false) (hgap : gap < 80000)
    (hn : 7 ≤ x.edges) : activityEdge s r gap x = judgeRef s r { x with active := true, silence := some 2, edges := 8 } := by
  unfold activityEdge
  have hg : gap < halfMs := hgap
  simp only [h, Bool.false_eq_true, if_false, hg, if_true, show 8 ≤ x.edges + 1 by omega]
  rfl

theorem activityEdge_counts (s : State) (r : RefIx) {gap : Nat} {x : RefRec} (h : x.active = false)
    (hn : x.edges < 7 ∨ 80000 ≤ gap) : activityEdge s r gap x = { x with edges := if gap < 80000 then x.edges + 1 else 1 } := by
  have hno : ¬8 ≤ (if gap < halfMs then x.edges + 1 else 1) := by
    unfold halfMs
    split <;> omega
  unfold activityEdge
  simp only [h, Bool.false_eq_true, if_false, if_neg hno]
  rfl

/-- Settles O28: the edge as the window takes it, then as the activity monitor does; it completes no window. -/
theorem edgesOfAWindow : Obligations.EdgesOfAWindow := by
  intro r gap s hready hactive hgap x measured leaves
  have htimely : edgeFrom s r gap = x := edgeFrom_timely s r gap (by
    have hlate : ¬halfMs ≤ gap := by
      unfold halfMs
      omega
    simp [edgeIsLate, hlate])
  have hleaves {w : Option Window} (h : windowEdge gap x = ({ x with window := w }, none)) : leaves w := by
    obtain ⟨hsteer, href⟩ := takeEdge_noOffset s r gap (edgeOffset_none s r gap (by rw [htimely, h]))
    have hmoved := takeEdge_moved s r gap
    rw [href, htimely, h] at hmoved
    rw [activityEdge_active s r gap (x := { x with window := w }) hactive] at hmoved
    exact ⟨_, whenever_true hready s _, hmoved.own, hmoved.others, hsteer, hmoved.frame⟩
  refine ⟨fun hm hw => hleaves (windowEdge_opens gap hm hw), fun w hm hw hn => hleaves (windowEdge_counts gap hm hw hn), fun hm => hleaves ?_⟩
  refine windowEdge_idle gap ?_
  cases hstate : x.state with
  | disabled => exact .inl rfl
  | unavailable => exact .inr rfl
  | measuring => exact absurd (.inl hstate) hm
  | qualified => exact absurd (.inr (.inl hstate)) hm
  | offsetOut => exact absurd (.inr (.inr hstate)) hm

/-! ### Activity lost (R102, R103) -/

section
variable (s : State) (r : RefIx)

theorem tselLost_moved (h : s.tsel.refs[r].active = true) :
    RefMoved s (settled (putTsel s (tselLost s r))) r (loseActivity s r s.tsel.refs[r]) ∧
    (settled (putTsel s (tselLost s r))).tsel.steering = s.tsel.steering := by
  have hlost : tselLost s r = standing s { s.tsel with refs := s.tsel.refs.set r (loseActivity s r s.tsel.refs[r]) } := if_pos h
  rw [hlost]
  refine ⟨refMoved_of (tselEnd_below _ _) (reselect_refs _ _) (reselect_force _ _) (reselect_lockout _ _) (reselect_warmUp _ _)
    (reselect_selectedEligible s _), ?_⟩
  unfold standing
  rw [settledTsel_tsel s _ (tselEnd_below _ _), tselEnd_steering]
  exact reselect_steering _ _

theorem loseActivity_said (x : RefRec) :
    let y := loseActivity s r x
    y.active = false ∧ y.edges = 0 ∧ y.silence = none ∧ y.entry = x.entry ∧
    (x.entry.enable = true → y.state = .unavailable ∧ y.cause = some .noActivity ∧ y.window = none ∧ y.run = 0 ∧ y.refLos = true) ∧
    (x.entry.enable = false → y.state = x.state) := by
  intro y
  have hy : y = judgeRef s r { x with active := false, silence := none, edges := 0 } := rfl
  have heq : y.active = false ∧ y.edges = 0 ∧ y.silence = none ∧ y.entry = x.entry := by
    obtain ⟨_, _, _, _, _, _, _, he⟩ := judgeRef_eq s r { x with active := false, silence := none, edges := 0 }
    rw [hy, he]
    exact ⟨rfl, rfl, rfl, rfl⟩
  obtain ⟨h1, h2, h3, h4⟩ := heq
  refine ⟨h1, h2, h3, h4, fun he => ?_, fun he => ?_⟩
  · rw [hy, judgeRef_lost s r { x with active := false, silence := none, edges := 0 } he (causeOf_inactive s r _ rfl)]
    exact ⟨rfl, rfl, rfl, rfl, rfl⟩
  · rw [hy, judgeRef_disabled s r (x := { x with active := false, silence := none, edges := 0 }) he]

theorem notSelected_of_state {t : Tsel} (h : SelectedEligible t) (hstate : t.refs[r].state ≠ .qualified) : t.selected ≠ some r := by
  intro hsel
  obtain ⟨hq, _⟩ := (eligible_iff t r).1 (h r hsel)
  exact hstate hq

/-- R107: judging a window leaves the activity, and a reference that measures none. -/
theorem judgeWindow_activity (o : Int) (x : RefRec) : (judgeWindow o x).active = x.active ∧ (judgeWindow o x).edges = x.edges ∧
    (judgeWindow o x).silence = x.silence := by
  unfold judgeWindow
  simp only
  split <;> (try split) <;> exact ⟨rfl, rfl, rfl⟩

end

/-! ### The statement -/

section
variable {s : State} {r : RefIx} {gap : Nat} (hready : s.start.ready = true)

/-- R102: a late edge. -/
theorem edgeFrom_late (ha : s.tsel.refs[r].active = true) (hgap : 80000 ≤ gap) :
    edgeFrom s r gap = loseActivity s r s.tsel.refs[r] := by
  have hlate (x : RefRec) (h : x.active = true) : edgeIsLate gap x = true := by simp [edgeIsLate, h, show halfMs ≤ gap from hgap]
  exact if_pos (hlate _ ha)

theorem edgeFrom_inactive (ha : s.tsel.refs[r].active = false) : edgeFrom s r gap = s.tsel.refs[r] :=
  edgeFrom_timely s r gap (by unfold edgeIsLate; rw [ha]; rfl)

/-- R102: an edge at a reference that is not active and measures nothing goes to the activity monitor alone. -/
theorem takeEdge_inactive (ha : s.tsel.refs[r].active = false)
    (hidle : s.tsel.refs[r].state = .disabled ∨ s.tsel.refs[r].state = .unavailable) :
    RefMoved s (takeEdge s r gap) r (activityEdge s r gap s.tsel.refs[r]) ∧
    (takeEdge s r gap).tsel.steering = s.tsel.steering := by
  have hedge : windowEdge gap (edgeFrom s r gap) = (s.tsel.refs[r], none) := by
    rw [edgeFrom_inactive ha, windowEdge_idle gap hidle]
  obtain ⟨hsteer, href⟩ := takeEdge_noOffset s r gap (edgeOffset_none s r gap (by rw [hedge]))
  have hmoved := takeEdge_moved s r gap
  rw [href, hedge] at hmoved
  exact ⟨hmoved, hsteer⟩

/-- R102: what a late edge leaves, its reference having lost its activity before it. -/
theorem takeEdge_late (ha : s.tsel.refs[r].active = true) (hgap : 80000 ≤ gap) :
    let x := s.tsel.refs[r]
    ∃ y, RefMoved s (takeEdge s r gap) r y ∧ y.active = false ∧ y.edges = 1 ∧ y.silence = none ∧
      (x.entry.enable = true ∨ (x.state = .disabled ∨ x.state = .unavailable) →
        y = { loseActivity s r x with edges := 1 } ∧ (takeEdge s r gap).tsel.steering = s.tsel.steering) := by
  intro x
  have hfrom := edgeFrom_late ha hgap
  obtain ⟨hactive, hedges, hsilence, _, hlost, hkeeps⟩ := loseActivity_said s r x
  have hcount {z : RefRec} (hz : z.active = false) : activityEdge s r gap z = { z with edges := 1 } := by
    rw [activityEdge_counts s r hz (.inr hgap), if_neg (by omega)]
  have hwin : (windowEdge gap (edgeFrom s r gap)).1.active = false ∧ (windowEdge gap (edgeFrom s r gap)).1.silence = none := by
    rw [windowEdge_eq, hfrom]
    exact ⟨hactive, hsilence⟩
  obtain ⟨hwa, hws⟩ := hwin
  refine ⟨_, takeEdge_moved s r gap, ?_⟩
  have hmonitor : (edgeRef s r gap).active = false ∧ (edgeRef s r gap).edges = 1 ∧ (edgeRef s r gap).silence = none := by
    unfold edgeRef
    rw [hcount hwa]
    cases edgeOffset s r gap with
    | none => exact ⟨hwa, rfl, hws⟩
    | some o =>
      obtain ⟨h1, h2, h3⟩ := judgeWindow_activity o { (windowEdge gap (edgeFrom s r gap)).1 with edges := 1 }
      exact ⟨h1.trans hwa, h2, h3.trans hws⟩
  obtain ⟨h1, h2, h3⟩ := hmonitor
  refine ⟨h1, h2, h3, fun hno => ?_⟩
  have hidle : (loseActivity s r x).state = .disabled ∨ (loseActivity s r x).state = .unavailable := by
    cases he : x.entry.enable with
    | true => exact .inr (hlost he).1
    | false =>
      rw [hkeeps he]
      exact hno.resolve_left (by rw [he]; exact Bool.false_ne_true)
  have hedge : windowEdge gap (edgeFrom s r gap) = (loseActivity s r x, none) := by rw [hfrom, windowEdge_idle gap hidle]
  obtain ⟨hsteer, href⟩ := takeEdge_noOffset s r gap (edgeOffset_none s r gap (by rw [hedge]))
  exact ⟨by rw [href, hedge, hcount hactive], hsteer⟩

end

/-- Settles O27: judging a reference by its first failing test, and an edge or its absence as one event of TSEL. -/
theorem activityIsLostAndRegained : Obligations.ActivityIsLostAndRegained := by
  refine ⟨tapOf_said, fun s r x => ?_, fun s r => ⟨tselPorts_ref s r, tselTag_ref s r, tselGroup_ref s r⟩, fun r gap s hready => ?_⟩
  · intro isClass y lost idle
    have hclass := effClass_said s x
    refine ⟨hclass, judgeRef_disabled s r, fun he => ⟨?_, judgeRef_said s r x he⟩, moveTap_said s r x⟩
    rw [show y.cls = effClass s x from judgeRef_enabled s r x he]
    exact hclass
  · intro x idle kept
    have hkept {t : State} {y : RefRec} (h : RefMoved s t r y) (hsteer : t.tsel.steering = s.tsel.steering) : kept t :=
      ⟨h.others, hsteer, h.tsp.trans hsteer, h.force, h.lockout, h.warmUp, h.frame⟩
    refine ⟨fun ha => ?_, fun ha hgap hn hidle => ?_, fun ha hn hidle => ?_, fun ha hgap => ?_⟩
    · obtain ⟨hmoved, hsteer⟩ := tselLost_moved s r ha
      obtain ⟨hactive, hedges, hsilence, _, hlost, hkeeps⟩ := loseActivity_said s r x
      have hown := hmoved.own
      refine ⟨_, whenever_true (by rw [hready, ha]; rfl) s _, by rw [hown, hactive], by rw [hown, hedges], by rw [hown, hsilence],
        fun he => ?_, fun he => by rw [hown, hkeeps he], hkept hmoved hsteer⟩
      obtain ⟨hstate, hcause, hwindow, hrun, hlos⟩ := hlost he
      exact ⟨by rw [hown, hstate], by rw [hown, hcause], by rw [hown, hwindow], by rw [hown, hrun], by rw [hown, hlos],
        notSelected_of_state r hmoved.eligible (by rw [hown, hstate]; nofun)⟩
    · obtain ⟨hmoved, hsteer⟩ := takeEdge_inactive (gap := gap) ha hidle
      rw [activityEdge_regains s r ha hgap hn] at hmoved
      have hown := hmoved.own
      have hregains : regainsActivity s r gap = true := by
        have hnow (y : RefRec) (hy : y.active = false) (hn : 7 ≤ y.edges) :
            (true && !y.active && decide (gap < halfMs) && decide (8 ≤ y.edges + 1)) = true := by
          simp [hy, hn, show gap < halfMs from hgap]
        unfold regainsActivity
        rw [hready]
        exact hnow x ha hn
      obtain ⟨_, _, _, _, _, _, _, hjudged⟩ := judgeRef_eq s r { x with active := true, silence := some 2, edges := 8 }
      refine ⟨_, whenever_true hregains s _, whenever_true hready s _, by rw [hown, hjudged], by rw [hown, hjudged],
        fun he hbuilding hfix => ?_, fun he => ?_, hkept hmoved hsteer⟩
      · obtain ⟨_, _, _, hfine⟩ := judgeRef_said s r { x with active := true, silence := some 2, edges := 8 } he
        obtain ⟨_, hfound⟩ := hfine rfl (.inl hbuilding)
        obtain ⟨hmeasuring, _⟩ := hfound (.inl hfix)
        rw [hown, hmeasuring hidle]
        exact ⟨rfl, rfl, rfl, rfl, rfl⟩
      · rw [hown, judgeRef_disabled s r (x := { x with active := true, silence := some 2, edges := 8 }) he]
    · obtain ⟨hmoved, hsteer⟩ := takeEdge_inactive (gap := gap) ha hidle
      rw [activityEdge_counts s r ha hn] at hmoved
      exact ⟨_, whenever_true hready s _, hmoved.own, hkept hmoved hsteer⟩
    · obtain ⟨y, hmoved, hactive, hedges, hsilence, hlate⟩ := takeEdge_late ha hgap
      have hown := hmoved.own
      refine ⟨_, whenever_true hready s _, by rw [hown, hactive], by rw [hown, hedges], by rw [hown, hsilence], fun he => ?_,
        fun h => hkept hmoved (hlate h).2⟩
      obtain ⟨_, _, _, _, hlost, _⟩ := loseActivity_said s r x
      obtain ⟨hy, _⟩ := hlate (.inl he)
      obtain ⟨hstate, hcause, hwindow, hrun, hlos⟩ := hlost he
      rw [hy] at hown
      exact ⟨by rw [hown, hstate], by rw [hown, hcause], by rw [hown, hwindow], by rw [hown, hrun], by rw [hown, hlos],
        notSelected_of_state r hmoved.eligible (by rw [hown, hstate]; nofun)⟩

end Sys2Proof.Proofs
end

