-- ==== Sys2Proof/Proofs/WindowCompletes.lean ====
section
/-! A completed window: its offset, its judgement, and the steering update it brings (R104 to R107, R116, R117). -/

namespace Sys2Proof.Proofs

open Sys2Proof.Machine Sys2Proof.Safety Sys2Proof.Laws

/-! ### The offset (R105) -/

theorem offsetOf_said (c : Nat) :
    let q : Int := (163840000 - (c : Int)) * 3125
    let f := offsetOf c
    (-999999 ≤ f ∧ f ≤ 999999) ∧
    (q.natAbs ≤ 999999 * 512 →
      2 * (512 * f - q).natAbs ≤ 512 ∧ (2 * (512 * f - q).natAbs = 512 → q.natAbs ≤ 512 * f.natAbs)) ∧
    (999999 * 512 < q → f = 999999) ∧ (q < -999999 * 512 → f = -999999) := by
  intro q f
  have hf : f = clampInt (-999999) 999999 (roundNearest q 512) := rfl
  obtain ⟨hnear, htie⟩ := roundNearest_near q (b := 512) (by decide)
  have hbound := roundNearest_bound (a := q) (b := 512) (m := 999999) (by decide)
  generalize roundNearest q 512 = n at hf hnear htie hbound
  generalize q = q at *
  unfold clampInt at hf
  push_cast at hnear htie
  refine ⟨by omega, fun h => ?_, fun h => by omega, fun h => by omega⟩
  have hn := hbound h
  rw [show f = n by omega]
  exact ⟨hnear, htie⟩

/-! ### The judgement of a window (R107) -/

section
variable (f : Int) (x : RefRec)

theorem judgeWindow_said :
    let y := judgeWindow f x
    y.last = some f ∧ y.window = x.window ∧
    (x.state = .measuring → f.natAbs ≤ x.entry.accept →
      y.run = x.run + 1 ∧ y.state = if x.entry.stab ≤ x.run + 1 then .qualified else .measuring) ∧
    (x.state = .measuring → x.entry.accept < f.natAbs → y.run = 0 ∧ y.state = .measuring) ∧
    (x.state = .qualified → f.natAbs ≤ x.entry.accept → y.run = x.run ∧ y.state = .qualified) ∧
    (x.state = .qualified → x.entry.accept < f.natAbs → y.run = 0 ∧ y.state = .offsetOut ∧ y.refOffset = true) ∧
    (x.state = .offsetOut → f.natAbs ≤ x.entry.accept - x.entry.hyst →
      y.run = 0 ∧ y.state = .measuring ∧ y.refOffset = false) ∧
    (x.state = .offsetOut → x.entry.accept - x.entry.hyst < f.natAbs → y.state = .offsetOut) := by
  intro y
  have hkeep : y.last = some f ∧ y.window = x.window := by
    simp only [y, judgeWindow]
    split <;> (try split) <;> exact ⟨rfl, rfl⟩
  obtain ⟨hlast, hwindow⟩ := hkeep
  refine ⟨hlast, hwindow, fun hs h => ?_, fun hs h => ?_, fun hs h => ?_, fun hs h => ?_, fun hs h => ?_, fun hs h => ?_⟩
  · simp [y, judgeWindow, hs, h]
  · simp [y, judgeWindow, hs, show ¬f.natAbs ≤ x.entry.accept by omega]
  · simp [y, judgeWindow, hs, h]
  · simp [y, judgeWindow, hs, show ¬f.natAbs ≤ x.entry.accept by omega]
  · simp [y, judgeWindow, hs, h]
  · simp [y, judgeWindow, hs, show ¬f.natAbs ≤ x.entry.accept - x.entry.hyst by omega]

end

/-! ### The steering update (R116, R117) -/

theorem joinHistory_eq (h : List Int) (u : Int) : joinHistory h u = (h ++ [u]).drop (h.length - 15) := by
  unfold joinHistory
  split
  · rw [show h.length - 15 = 0 by omega]
    rfl
  · rw [List.drop_append_of_le_length (by omega)]

section
variable (s : State) (r : RefIx) (f : Int) (w : TselWork)

/-- R117: the steering update of an offset whose reference is selected in ACQUIRING or LOCKED. -/
theorem follow_said (t : Tsel) (hstate : t.state = .acquiring ∨ t.state = .locked) (slew : Nat) :
    let d := f - t.steering
    let u := t.follow slew f
    u.target = some f ∧ u.limited = decide (slew < d.natAbs) ∧
    u.steering = clampInt (-50000) 50000 (t.steering + if slew < d.natAbs then d.sign * slew else d) ∧
    (slew < d.natAbs → u.state = .acquiring ∧ u.unlimited = 0 ∧ u.history = t.history) ∧
    (d.natAbs ≤ slew → t.state = .locked ∨ 1 ≤ t.unlimited →
      u.state = .locked ∧ u.unlimited = 2 ∧ u.history = (t.history ++ [u.steering]).drop (t.history.length - 15)) ∧
    (d.natAbs ≤ slew → t.state ≠ .locked → t.unlimited = 0 →
      u.state = .acquiring ∧ u.unlimited = 1 ∧ u.history = t.history) := by
  intro d u
  have hlim : (t.steerTo slew f).limited = decide (slew < d.natAbs) := by rw [steerTo_eq]
  obtain ⟨hl, hu⟩ | ⟨hl, hrun, hu⟩ | ⟨hl, hrun, hu⟩ := follow_cases t slew f
  · have hlt : slew < d.natAbs := of_decide_eq_true (hlim ▸ hl)
    rw [show u = _ from hu, steerTo_eq]
    exact ⟨rfl, rfl, rfl, fun _ => ⟨rfl, rfl, rfl⟩, fun h => absurd h (by omega), fun h => absurd h (by omega)⟩
  · have hge : ¬slew < d.natAbs := of_decide_eq_false (hlim ▸ hl)
    rw [show u = _ from hu, steerTo_eq]
    exact ⟨rfl, rfl, rfl, fun h => absurd h hge, fun _ _ => ⟨rfl, rfl, joinHistory_eq _ _⟩,
      fun _ hno hzero => absurd hrun (by rintro (h | h); exacts [hno h, by omega])⟩
  · have hge : ¬slew < d.natAbs := of_decide_eq_false (hlim ▸ hl)
    rw [show u = _ from hu, steerTo_eq]
    exact ⟨rfl, rfl, rfl, fun h => absurd h hge, fun _ h => absurd h hrun,
      fun _ _ _ => ⟨hstate.resolve_right fun h => hrun (.inl h), rfl, rfl⟩⟩

/-- R115: a reference that stays selected keeps run, history and state; one newly selected starts from ACQUIRING. -/
theorem reselect_start (hsel : (reselect s w).tsel.selected = some r) :
    let kept : Bool := w.tsel.selected == some r
    (reselect s w).tsel.unlimited = (if kept then w.tsel.unlimited else 0) ∧
    (reselect s w).tsel.history = (if kept then w.tsel.history else []) ∧
    ((reselect s w).tsel.state = .locked ↔ kept = true ∧ w.tsel.state = .locked) := by
  intro kept
  rw [reselect_selected] at hsel
  by_cases hk : w.tsel.selected = some r
  · have hkept : kept = true := by simp [kept, hk]
    rw [reselect_same s w (hsel.trans hk.symm), hkept]
    exact ⟨rfl, rfl, (and_iff_right rfl).symm⟩
  · have hkept : kept = false := by simp [kept, hk]
    have hne : w.tsel.choose s.rqu.shelf.quality ≠ w.tsel.selected := by
      rw [hsel]
      exact fun h => hk h.symm
    rw [reselect_other s w hne, hsel, hkept]
    exact ⟨rfl, rfl, iff_of_false nofun (by simp)⟩

end

/-! ### The statement -/

section
variable {s : State} {r : RefIx} {gap : Nat}

/-- R117: what the offset of a completed window makes of the timing state. -/
theorem takeEdge_steers {f : Int} (hf : edgeOffset s r gap = some f) :
    let t := (takeEdge s r gap).tsel
    let u := s.tsel.steering
    let d := f - u
    (t.selected = some r → t.state = .acquiring ∨ t.state = .locked →
      t.target = some f ∧ t.limited = decide (s.rqu.shelf.slew < d.natAbs) ∧
      t.steering = clampInt (-50000) 50000 (u + if s.rqu.shelf.slew < d.natAbs then d.sign * s.rqu.shelf.slew else d) ∧
      let kept : Bool := s.tsel.selected == some r
      let run := if kept then s.tsel.unlimited else 0
      let history := if kept then s.tsel.history else []
      let locked : Prop := kept = true ∧ s.tsel.state = .locked
      (s.rqu.shelf.slew < d.natAbs → t.state = .acquiring ∧ t.unlimited = 0 ∧ t.history = history) ∧
      (d.natAbs ≤ s.rqu.shelf.slew → locked ∨ 1 ≤ run →
        t.state = .locked ∧ t.unlimited = 2 ∧ t.history = (history ++ [t.steering]).drop (history.length - 15)) ∧
      (d.natAbs ≤ s.rqu.shelf.slew → ¬locked → run = 0 → t.state = .acquiring ∧ t.unlimited = 1 ∧ t.history = history)) ∧
    (t.selected ≠ some r → t.steering = u) := by
  intro t u d
  have ht : t = (tselEnd s (steerBy s r f (edgeWork s r gap))).1 := by
    simp only [t]
    rw [takeEdge_tsel, edgeSteered, hf]
    rfl
  have hsteering : (edgeWork s r gap).tsel.steering = u := reselect_steering _ _
  rw [ht]
  obtain ⟨⟨hsel, hstate⟩, hfired⟩ | ⟨hidle, hsame⟩ := steerBy_cases s r f (edgeWork s r gap)
  · obtain ⟨htarget, hlimited, hsteers, hlim, hlock, hfirst⟩ := follow_said f (edgeWork s r gap).tsel hstate s.rqu.shelf.slew
    obtain ⟨hrun, hhistory, hlocked⟩ := reselect_start s r _ hsel
    have hselected := (follow_refs (edgeWork s r gap).tsel s.rqu.shelf.slew f).2.2.1
    rw [← hfired] at htarget hlimited hsteers hlim hlock hfirst hselected
    rw [hsteering] at hlimited hsteers hlim hlock hfirst
    refine ⟨fun _ _ => ⟨htarget, hlimited, hsteers, fun h => ?_, fun h hon => ?_, fun h hno hzero => ?_⟩, fun hne => ?_⟩
    · obtain ⟨h1, h2, h3⟩ := hlim h
      exact ⟨h1, h2, h3.trans hhistory⟩
    · obtain ⟨h1, h2, h3⟩ := hlock h (hon.imp hlocked.2 fun h => le_of_le_of_eq h hrun.symm)
      rw [show (edgeWork s r gap).tsel.history = _ from hhistory] at h3
      exact ⟨h1, h2, h3⟩
    · obtain ⟨h1, h2, h3⟩ := hfirst h (fun h => hno (hlocked.1 h)) (hrun.trans hzero)
      exact ⟨h1, h2, h3.trans hhistory⟩
    · exact absurd (hselected.trans hsel) hne
  · rw [hsame]
    exact ⟨fun hsel hstate => absurd ⟨hsel, hstate⟩ hidle, fun _ => hsteering⟩

end

/-- Settles O29: the window's edge, its judgement, then the selection and the steering update. -/
theorem aWindowCompletes : Obligations.AWindowCompletes := by
  refine ⟨fun r gap s w hready ha hgap hw hn hstate => ?_, offsetOf_said⟩
  intro x f u d
  have htimely : edgeIsLate gap s.tsel.refs[r] = false := by
    have hno (y : RefRec) : edgeIsLate gap y = false := by
      simp [edgeIsLate, show ¬halfMs ≤ gap by unfold halfMs; omega]
    exact hno _
  have hfrom : edgeFrom s r gap = x := edgeFrom_timely s r gap htimely
  have hedge : windowEdge gap x = ({ x with window := some { edges := 0, ticks := 0 } }, some (w.ticks + gap)) :=
    windowEdge_completes gap hstate hw hn
  have hactive : activityEdge s r gap { x with window := some { edges := 0, ticks := 0 } } =
      { x with window := some { edges := 0, ticks := 0 }, silence := some 2 } := activityEdge_active s r gap ha
  have hcompletes : completesWindow s r gap = true := by
    unfold completesWindow
    simp only
    rw [hready, htimely, show windowEdge gap s.tsel.refs[r] = _ from hedge]
    rfl
  have hoffset : edgeOffset s r gap = if s.tsel.warmUp.isSome then none else some f := by
    rw [edgeOffset, hfrom, hedge]
    rfl
  have hmoved := takeEdge_moved s r gap
  have hown := hmoved.own
  rw [edgeRef, hfrom, hedge, hactive] at hown
  obtain ⟨hlast, hwindow, hjudged⟩ := judgeWindow_said f { x with window := some { edges := 0, ticks := 0 }, silence := some 2 }
  refine ⟨_, whenever_true hcompletes s _, whenever_true hready s _, ?_, hmoved.others, fun hwarm => ?_, fun hcold => ?_,
    hmoved.tsp, hmoved.frame⟩
  · rw [hown]
    cases edgeOffset s r gap with
    | none => rfl
    | some o => exact (judgeWindow_said o _).2.1
  · have hnone : edgeOffset s r gap = none := by rw [hoffset, if_pos (Option.isSome_iff_ne_none.2 hwarm)]
    rw [hown, hnone]
    exact ⟨rfl, rfl, rfl, (takeEdge_noOffset s r gap hnone).1⟩
  · have hsome : edgeOffset s r gap = some f := by rw [hoffset, hcold]; rfl
    obtain ⟨hsteers, hstays⟩ := takeEdge_steers hsome
    rw [hown, hsome]
    obtain ⟨h1, h2, h3, h4, h5, h6⟩ := hjudged
    exact ⟨hlast, h1, h2, h3, h4, h5, h6, hsteers, hstays⟩

end Sys2Proof.Proofs
end

