-- ==== Sys2Proof/Proofs/EntryLoads.lean ====
section
/-! A load of one entry of the first tables: the shelf record, a profile, a port and a cabling expectation (R10, R18, R40,
R111, R153, R166, R167). -/

namespace Sys2Proof.Proofs

open Sys2Proof.Machine Sys2Proof.Safety Sys2Proof.Laws

/-! ### A load of one entry (R165) -/

/-- The entry a load of one finds in the staging area. -/
def entryAt (s : State) (k : SlotIx) (size : Nat) : List Byte := memBytes s.mem (0x300 + param16 s k 0) size

/-- A load asks for one entry of a table, and it lies in the table and in the staging area. -/
def OneEntry (s : State) (k : SlotIx) (r : Request) (entries size : Nat) : Prop :=
  serving s k r = true ∧ param16 s k 0 % 2 = 0 ∧ param8 s k 3 = 1 ∧ (param8 s k 2).toNat < entries ∧
    param16 s k 0 + size ≤ 4096

theorem answered_forRqu {s u t : State} {k : SlotIx} {r : Result} {d : Nat} {base : List Host.Cell}
    (h : Answered u t k r d base) (hu : ForRqu s u) : Answered s t k r d base :=
  answered_over h hu.slots hu.last (by rw [hu.req, hu.mask])

section
variable {table : Table} {take : State → Nat → List Byte → Option (State × Nat)} {k : SlotIx} {s : State} {r : Request}
variable (howner : ownerOf k r = askLoad table take k) (hone : OneEntry s k r table.entries table.size)
include howner hone

theorem ownerOf_one : ownerOf k r s =
    loadEntries take table.size (param16 s k 0) (param8 s k 2).toNat 1 0 0 s := by
  obtain ⟨_, heven, hcount, hfirst, hroom⟩ := hone
  have hnat : (param8 s k 3).toNat = 1 := by rw [hcount]; rfl
  have hfit : (loadRange s k).fits table = true := by
    refine (fits_iff _ _).2 ⟨heven, ?_, ?_, ?_⟩
    · change (param8 s k 3).toNat ≠ 0
      omega
    · change (param8 s k 2).toNat + (param8 s k 3).toNat ≤ _
      omega
    · change param16 s k 0 + (param8 s k 3).toNat * _ ≤ _
      rw [hnat]
      omega
  rw [howner, askLoad_fit hfit, hnat]

omit howner hone in
theorem stagedEntry_one : stagedEntry s (param16 s k 0) table.size 0 = entryAt s k table.size := by
  unfold stagedEntry entryAt
  rw [Nat.zero_mul, Nat.add_zero]
  rfl

/-- R165: a structural fault in the only entry. -/
theorem loadOne_fault (hnone : take s (param8 s k 2).toNat (entryAt s k table.size) = none) :
    ∃ t, exec (r.command k) s = .next t ∧ Answered s t k .partLoad 0 s.mem ∧ sameRqu s t ∧
      unchangedBut [.attn, .rqu, .mem] s t := by
  have hrun := ownerOf_one howner hone
  rw [← stagedEntry_one] at hnone
  exact load_ends hone.1 (hrun.trans (loadEntries_fault (first := (param8 s k 2).toNat) (n := 0) (k := 0) hnone)) (.refl s)

/-- R165: the only entry applied. -/
theorem loadOne_taken (hkeep : LeavesRqu take) {u : State} {n : Nat}
    (htake : take s (param8 s k 2).toNat (entryAt s k table.size) = some (u, n)) :
    ∃ t, exec (r.command k) s = .next t ∧ Answered s t k .ok (min n 65535) s.mem ∧ sameRqu u t ∧
      unchangedBut [.attn, .rqu, .mem] u t := by
  have hrun := ownerOf_one howner hone
  have hu := hkeep _ _ _ _ htake
  rw [← stagedEntry_one] at htake
  have htaken := loadEntries_take (first := (param8 s k 2).toNat) (n := 0) (k := 0) (clamps := 0) htake
  rw [htaken, loadEntries, Nat.zero_add] at hrun
  obtain ⟨t, hexec, hanswered, hrqu, hframe⟩ := load_ends hone.1 hrun hu
  exact ⟨t, hexec, answered_forRqu hanswered hu, hrqu, hframe⟩

end

/-! ### Messages that bring TCD nothing (R33) -/

/-- A message below TCD that is no tag record and no report. -/
def Tagless (m : Msg) : Prop := m.rank < 8 ∧ (∀ p, m ≠ .prcTag p) ∧ ∀ ps, m ≠ .tcdReport ps

theorem tagless_next {m : Msg} (h : Tagless m) (s : State) : ∀ x ∈ (deliver m s).2, Tagless x := by
  intro x hx
  suffices hquiet : NoReport x from ⟨by have := hquiet.1; omega, hquiet.2⟩
  obtain ⟨hrank, htag, hreport⟩ := h
  by_cases hlow : m.rank < 7
  · exact noReport_next ⟨hlow, htag, hreport⟩ s x hx
  · cases m <;> simp only [Msg.rank] at hlow hrank
    all_goals first | omega | exact cbcEnd_noReport _ x hx

theorem tagless_expand {m : Msg} (h : Tagless m) : ∀ x ∈ m.expand, Tagless x := by
  intro x hx
  refine ⟨by rw [expand_rank m x hx]; exact h.1, ?_⟩
  cases m <;> simp only [Msg.expand, List.mem_singleton, List.mem_map] at hx
  case tselGroups => obtain ⟨_, _, rfl⟩ := hx; exact ⟨nofun, nofun⟩
  all_goals exact hx ▸ h.2

theorem tagless_tcd {m : Msg} (h : Tagless m) (s : State) : (deliver m s).1.tcd = s.tcd := by
  obtain ⟨hrank, htag, hreport⟩ := h
  by_cases hlow : m.rank < 7
  · exact deliver_tcd ⟨hlow, htag, hreport⟩ s
  · cases m <;> simp only [Msg.rank] at hlow hrank
    all_goals first | omega | simp only [deliver, putCbc_tcd]

theorem settled_tagless {r : State × List Msg} (h : ∀ m ∈ r.2, Tagless m) : (settled r).tcd = r.1.tcd :=
  settle_rel (Q := Tagless) (P := fun s t => t.tcd = s.tcd) (fun _ => rfl) (fun _ _ _ h k => k.trans h) (fun _ => rfl)
    (fun _ h => tagless_expand h) (fun _ s h => tagless_next h s) (fun _ s h => tagless_tcd h s) 10 r.2 r.1 h

theorem handPorts_tagless (cs : List PortChange) (cond : List AlmChange) : ∀ m ∈ handPorts cs cond, Tagless m := by
  intro m hm
  simp only [handPorts, List.mem_append] at hm
  rcases hm with hm | hm
  · split at hm
    · cases hm
    · simp only [List.mem_cons, List.not_mem_nil, or_false] at hm
      rcases hm with rfl | rfl | rfl <;> exact ⟨by simp [Msg.rank], nofun, nofun⟩
  · obtain ⟨hrank, hrest⟩ := noReport_of_rank (below_toAlm 4 _ (by decide) m hm)
    exact ⟨by omega, hrest⟩

/-! ### A port table entry (R10, R167) -/

section
variable (s : State) (p : Port) (x : PortEntry)

/-- R10, R167: a port's record with an entry's fields, and the outcome it ends a calibration with. -/
def enteredPort : PortRec × Option CalOutcome :=
  takeBase x.base { s.pmon.ports[p] with role := x.role, profile := x.profile }

theorem pmonLoad_fst : (pmonLoad s p x).1 =
    (reformPort (s.pmon.put p (enteredPort s p x).1 (enteredPort s p x).2) p).1 := rfl

theorem pmonLoad_port : (pmonLoad s p x).1.ports[p] = formedRec s.pmon p (enteredPort s p x).1 := by
  rw [pmonLoad_fst, reformPort_port, if_pos rfl, (put_puts _ _ _ _).port_same]
  rfl

theorem pmonLoad_other {q : Port} (h : q ≠ p) : (pmonLoad s p x).1.ports[q] = s.pmon.ports[q] := by
  rw [pmonLoad_fst, reformPort_port, if_neg h, (put_puts _ _ _ _).port_other h]

theorem pmonLoad_cards : (pmonLoad s p x).1.cards = s.pmon.cards := by
  rw [pmonLoad_fst, reformPort_cards]
  rfl

theorem pmonLoad_profiles : (pmonLoad s p x).1.profiles = s.pmon.profiles := by
  rw [pmonLoad_fst, reformPort_profiles]
  rfl

theorem pmonLoad_outcome : (pmonLoad s p x).1.outcomes[p] =
    ((enteredPort s p x).2 <|> s.pmon.outcomes[p]) := by
  rw [pmonLoad_fst, reformPort_outcomes, put_outcome]

theorem pmonLoad_quiet : ∀ m ∈ (pmonLoad s p x).2, Quiet m := by
  intro m hm
  simp only [pmonLoad, List.mem_append] at hm
  rcases hm with hm | hm
  · split at hm
    · cases hm
    · rw [List.mem_singleton.1 hm]
      exact ⟨by simp [Msg.rank], nofun⟩
  · exact handPorts_quiet _ _ m hm

theorem pmonLoad_tagless : ∀ m ∈ (pmonLoad s p x).2, Tagless m := by
  intro m hm
  simp only [pmonLoad, List.mem_append] at hm
  rcases hm with hm | hm
  · split at hm
    · cases hm
    · rw [List.mem_singleton.1 hm]
      exact ⟨by simp [Msg.rank], nofun, nofun⟩
  · exact handPorts_tagless _ _ m hm

/-- R167: an applied port table entry, with everything it sets off. -/
theorem settledPort_said : (settled (putPmon s (pmonLoad s p x))).pmon = (pmonLoad s p x).1 ∧
    unchangedBut [.pmon, .cbc, .prc, .tsel, .tsp, .alm, .jrn, .attn, .gens, .choices] s (settled (putPmon s (pmonLoad s p x))) := by
  have htagless := pmonLoad_tagless s p x
  refine ⟨?_, fun q hq => ?_⟩
  · exact (settle_calm 10 (fun m hm => pmonLoad_quiet s p x m hm) _).pmon
  · by_cases htcd : q = .tcd
    · subst htcd
      exact settled_tagless htagless
    · refine unchangedBut_trans (t := (putPmon s (pmonLoad s p x)).1) (ps := .pmon :: touched 8) (fun q hq => ?_)
        (unchangedBut_mono (settle_unchanged 8 10 _ _ fun m hm => (htagless m hm).1) fun q hq => List.mem_cons_of_mem _ hq) q ?_
      · cases q <;> first | exact absurd (by decide) hq | simp [Part.same]
      · revert hq
        cases q <;> first | exact absurd rfl htcd | decide

end

/-! ### LDPF, LDPT, LDCR -/

theorem ofNat_of_val {n i : Nat} [NeZero n] {p : Fin n} (h : p.val = i) : Fin.ofNat n i = p :=
  Fin.ext ((Nat.mod_eq_of_lt (h ▸ p.isLt)).trans h.symm)

section
variable {s : State} {k : SlotIx}

/-- R18: one profile replaced. -/
def profiled (s : State) (i : Fin 8) (f : Profile) : State :=
  { s with pmon := { s.pmon with profiles := s.pmon.profiles.set i f } }

theorem profiled_profile (s : State) (i j : Fin 8) (f : Profile) :
    (profiled s i f).pmon.profiles[j] = if j = i then f else s.pmon.profiles[j] := getElem_set_fin _ _ _ _

theorem profiled_frame (s : State) (i : Fin 8) (f : Profile) : unchangedBut [.pmon] s (profiled s i f) := by
  intro q hq
  cases q <;> first | exact absurd (by decide) hq | rfl

/-- R18: a profile loaded. -/
theorem ldpf_loads (hone : OneEntry s k .ldpf 8 16) :
    ∃ t, exec (.ldpf k) s = .next t ∧ Answered s t k .ok (min (readProfile (entryAt s k 16)).2 65535) s.mem ∧
      (∀ j : Fin 8, t.pmon.profiles[j] =
        if j.val = (param8 s k 2).toNat then (readProfile (entryAt s k 16)).1 else s.pmon.profiles[j]) ∧
      t.pmon.ports = s.pmon.ports ∧ t.pmon.cards = s.pmon.cards ∧ t.pmon.outcomes = s.pmon.outcomes ∧
      sameRqu s t ∧ unchangedBut [.pmon, .attn, .rqu, .mem] s t := by
  have htake : loadProfile s (param8 s k 2).toNat (entryAt s k 16) =
      some (profiled s (Fin.ofNat 8 (param8 s k 2).toNat) (readProfile (entryAt s k 16)).1, (readProfile (entryAt s k 16)).2) := rfl
  obtain ⟨t, hexec, hanswered, hrqu, hframe⟩ := loadOne_taken (table := .profiles) (r := .ldpf) rfl hone loadProfile_leavesRqu htake
  have hpmon : t.pmon = (profiled s _ _).pmon := hframe .pmon (by decide)
  have hval : (Fin.ofNat 8 (param8 s k 2).toNat).val = (param8 s k 2).toNat := Nat.mod_eq_of_lt hone.2.2.2.1
  refine ⟨t, hexec, hanswered, fun j => ?_, by rw [hpmon]; rfl, by rw [hpmon]; rfl, by rw [hpmon]; rfl, hrqu,
    unchangedBut_trans (unchangedBut_mono (profiled_frame s _ _) (by decide)) (unchangedBut_mono hframe (by decide))⟩
  rw [hpmon, profiled_profile]
  simp only [Fin.ext_iff, hval]

theorem loadPort_at {p : Port} {i : Nat} (hp : p.val = i) (e : List Byte) :
    loadPort s i e = (readPort s p e).map fun x => (settled (putPmon s (pmonLoad s p x.1)), x.2) := by
  unfold loadPort
  rw [ofNat_of_val hp]

theorem loadCabling_at {p : Port} {i : Nat} (hp : p.val = i) (e : List Byte) :
    loadCabling s i e = (readCabling s p e).map fun x => (settled (putCbc s (cbcLoad s p x)), 0) := by
  unfold loadCabling
  rw [ofNat_of_val hp]

/-- R167: a port table entry loaded. -/
theorem ldpt_loads {p : Port} (hp : p.val = (param8 s k 2).toNat) (hone : OneEntry s k .ldpt 64 6) {x : PortEntry} {n : Nat}
    (hx : readPort s p (entryAt s k 6) = some (x, n)) :
    ∃ t, exec (.ldpt k) s = .next t ∧ Answered s t k .ok (min n 65535) s.mem ∧ t.pmon = (pmonLoad s p x).1 ∧ sameRqu s t ∧
      unchangedBut [.pmon, .cbc, .prc, .tsel, .tsp, .alm, .jrn, .attn, .gens, .choices, .rqu, .mem] s t := by
  have htake : loadPort s (param8 s k 2).toNat (entryAt s k 6) = some (settled (putPmon s (pmonLoad s p x)), n) := by
    rw [loadPort_at hp, hx]
    rfl
  obtain ⟨t, hexec, hanswered, hrqu, hframe⟩ := loadOne_taken (table := .ports) (r := .ldpt) rfl hone loadPort_leavesRqu htake
  obtain ⟨hpmon, hsettled⟩ := settledPort_said s p x
  have hsame : (settled (putPmon s (pmonLoad s p x))).rqu = s.rqu := hsettled .rqu (by decide)
  refine ⟨t, hexec, hanswered, (hframe .pmon (by decide)).trans hpmon, ?_,
    unchangedBut_trans (t := settled (putPmon s (pmonLoad s p x))) (unchangedBut_mono hsettled (by decide)) (unchangedBut_mono hframe (by decide))⟩
  rwa [sameRqu, hsame] at hrqu

theorem ldpt_stops {p : Port} (hp : p.val = (param8 s k 2).toNat) (hone : OneEntry s k .ldpt 64 6)
    (hx : readPort s p (entryAt s k 6) = none) : ∃ t, exec (.ldpt k) s = .next t ∧ Answered s t k .partLoad 0 s.mem ∧
      sameRqu s t ∧ unchangedBut [.attn, .rqu, .mem] s t := by
  refine loadOne_fault (table := .ports) (r := .ldpt) (take := loadPort) rfl hone ?_
  exact (loadPort_at hp _).trans (Option.map_eq_none_iff.2 hx)

/-- R40: a cabling expectation loaded. -/
theorem ldcr_loads {p : Port} (hp : p.val = (param8 s k 2).toNat) (hone : OneEntry s k .ldcr 64 4) {x : Expectation}
    (hx : readCabling s p (entryAt s k 4) = some x) :
    ∃ t, exec (.ldcr k) s = .next t ∧ Answered s t k .ok 0 s.mem ∧ t.cbc = (cbcLoad s p x).1 ∧ sameRqu s t ∧
      unchangedBut [.cbc, .prc, .tsel, .tsp, .alm, .jrn, .attn, .gens, .choices, .rqu, .mem] s t := by
  have htake : loadCabling s (param8 s k 2).toNat (entryAt s k 4) = some (settled (putCbc s (cbcLoad s p x)), 0) := by
    rw [loadCabling_at hp, hx]
    rfl
  obtain ⟨t, hexec, hanswered, hrqu, hframe⟩ := loadOne_taken (table := .cabling) (r := .ldcr) rfl hone loadCabling_leavesRqu htake
  have hbelow : Below 6 (cbcLoad s p x).2 := cbcEnd_below_of_released (setExpectation_released s (cbcBegin s) p x)
  have hcbc := settledCbc_cbc s (cbcLoad s p x) (cbcEnd_below _)
  have hsettled : unchangedBut [.cbc, .prc, .tsel, .tsp, .alm, .jrn, .attn, .gens, .choices] s
      (settled (putCbc s (cbcLoad s p x))) := by
    intro q hq
    by_cases htcd : q = .tcd
    · subst htcd
      exact (settledCbc_handsOn s (cbcEnd_noReport _)).2 .tcd (by decide)
    · refine settledCbc_touched s hbelow q ?_
      revert hq
      cases q <;> first | exact absurd rfl htcd | decide
  have hsame : (settled (putCbc s (cbcLoad s p x))).rqu = s.rqu := hsettled .rqu (by decide)
  refine ⟨t, hexec, hanswered, (hframe .cbc (by decide)).trans hcbc, ?_,
    unchangedBut_trans (t := settled (putCbc s (cbcLoad s p x))) (unchangedBut_mono hsettled (by decide)) (unchangedBut_mono hframe (by decide))⟩
  rwa [sameRqu, hsame] at hrqu

theorem ldcr_stops {p : Port} (hp : p.val = (param8 s k 2).toNat) (hone : OneEntry s k .ldcr 64 4)
    (hx : readCabling s p (entryAt s k 4) = none) : ∃ t, exec (.ldcr k) s = .next t ∧ Answered s t k .partLoad 0 s.mem ∧
      sameRqu s t ∧ unchangedBut [.attn, .rqu, .mem] s t := by
  refine loadOne_fault (table := .cabling) (r := .ldcr) (take := loadCabling) rfl hone ?_
  exact (loadCabling_at hp _).trans (Option.map_eq_none_iff.2 hx)

end

end Sys2Proof.Proofs
end

