-- ==== Sys2Proof/Proofs/RecordCounts.lean ====
section
/-! How many records an event can hand JRN, where its conditions suppress nothing (R130, R132, R135, R137). -/

namespace Sys2Proof.Proofs

open Sys2Proof.Machine Sys2Proof.Safety Sys2Proof.Laws

/-! ### The records of the entries and of the candidates -/

theorem freeEntry_records (w : AlmWork) (i : EntryIx) (x : Alarm) (r : OffReason) :
    (freeEntry w i x r).recs.length ≤ w.recs.length + 1 := by
  unfold freeEntry
  rw [List.length_append]
  split <;> simp

theorem takeEntry_records (s : State) (w : AlmWork) (i : EntryIx) (t : CondType) (o : Nat) :
    (takeEntry s w i t o).recs.length ≤ w.recs.length + 1 := by
  simp only [takeEntry]
  split
  · simp [activate]
  · simp [putAlarm]

theorem takeCandidate_records (s : State) (w : AlmWork) (c : CondType × Nat) :
    (takeCandidate s w c).recs.length ≤ w.recs.length + 2 := by
  unfold takeCandidate
  split
  · next i _ =>
    have := takeEntry_records s w i c.1 c.2
    omega
  · split
    · exact Nat.le_add_right _ _
    · next i _ =>
      split
      · exact Nat.le_add_right _ _
      · next x _ =>
        split
        · have h1 := takeEntry_records s (overflowed (freeEntry w i x .cleared)) i c.1 c.2
          have h2 : (overflowed (freeEntry w i x .cleared)).recs.length ≤ w.recs.length + 1 := freeEntry_records w i x .cleared
          omega
        · exact Nat.le_add_right _ _

theorem takeCandidates_records (s : State) (cs : List (CondType × Nat)) (w : AlmWork) :
    (cs.foldl (takeCandidate s) w).recs.length ≤ w.recs.length + 2 * cs.length := by
  induction cs generalizing w with
  | nil => exact Nat.le_add_right _ _
  | cons c cs ih =>
    have h1 := ih (takeCandidate s w c)
    have h2 := takeCandidate_records s w c
    rw [List.foldl_cons, List.length_cons]
    omega

/-- An entry that goes writes no SEVERITY record. -/
theorem entry_records (s : State) (a : Alm) (dropped : List (CondType × Nat)) (i : EntryIx) (x : Option Alarm) :
    ((moveRule a dropped).recs i x).length +
      ((gradeRule s a).recs i (x.bind fun x => (moveOf a dropped x).toOption)).length ≤ 1 := by
  cases x with
  | none => exact Nat.zero_le 1
  | some x =>
    simp only [moveRule, gradeRule, Option.bind_some]
    cases moveOf a dropped x with
    | error reason =>
      simp only [Except.toOption]
      split <;> simp
    | ok y =>
      simp only [Except.toOption]
      split <;> simp

theorem entries_records (s : State) (a : Alm) (dropped : List (CondType × Nat)) :
    (goneRecs a dropped).length + (severityRecs s a dropped).length ≤ 128 := by
  unfold goneRecs severityRecs
  rw [List.length_flatMap, List.length_flatMap, ← List.sum_map_add]
  refine (List.sum_le_card_nsmul _ 1 fun n hn => ?_).trans (by simp)
  obtain ⟨i, _, rfl⟩ := List.mem_map.1 hn
  exact entry_records s a dropped i _

/-! ### The candidates of a batch that lifts no suppression -/

theorem count_one (c d : CondType × Nat) : [c].count d = if d = c then 1 else 0 := by
  by_cases h : d = c
  · rw [h, if_pos rfl, List.count_singleton_self]
  · rw [if_neg h, List.count_eq_zero]
    exact fun hmem => h (List.mem_singleton.1 hmem)

theorem count_insertCond (c d : CondType × Nat) (l : List (CondType × Nat)) :
    (insertCond c l).count d ≤ l.count d + if d = c then 1 else 0 := by
  induction l with
  | nil => exact (count_one c d).le.trans (Nat.le_add_left _ _)
  | cons e l ih =>
    unfold insertCond
    split
    · rw [List.count_cons]
      simp only [beq_iff_eq, eq_comm (a := c)]
      exact le_rfl
    · split
      · exact Nat.le_add_right _ _
      · rw [List.count_cons, List.count_cons]
        omega

/-- A condition offered by a change. -/
def offeredBy : AlmChange → Option (CondType × Nat)
  | .offer t o => some (t, o)
  | _ => none

theorem count_applyChange (a : Alm) (c : AlmChange) (d : CondType × Nat) :
    (applyChange a c).present.count d ≤ a.present.count d + ([c].filterMap offeredBy).count d := by
  cases c with
  | offer t o =>
    refine (count_insertCond (t, o) d a.present).trans (Nat.add_le_add_left ?_ _)
    exact (count_one (t, o) d).ge
  | withdraw t o => exact (List.erase_sublist.count_le d).trans (Nat.le_add_right _ _)
  | drop t o => exact (List.erase_sublist.count_le d).trans (Nat.le_add_right _ _)
  | _ => exact Nat.le_add_right _ _

theorem count_applyChanges (cs : List AlmChange) (a : Alm) (d : CondType × Nat) :
    (cs.foldl applyChange a).present.count d ≤ a.present.count d + (cs.filterMap offeredBy).count d := by
  induction cs generalizing a with
  | nil => exact Nat.le_add_right _ _
  | cons c cs ih =>
    have h1 := ih (applyChange a c)
    have h2 := count_applyChange a c d
    rw [← List.singleton_append, List.filterMap_append, List.count_append]
    exact h1.trans (by omega)

theorem newlyOffered_cons (a : Alm) (c : AlmChange) (cs : List AlmChange) :
    newlyOffered a (c :: cs) = newlyOffered a [c] ++ newlyOffered (applyChange a c) cs := by
  unfold newlyOffered
  rw [← List.filterMap_append]
  refine congrArg _ ?_
  cases c <;> simp only [freshOffers, List.append_nil]

theorem newlyOffered_one {a : Alm} {c : AlmChange} {d : CondType × Nat} (h : d ∈ newlyOffered a [c]) : d ∉ a.present := by
  cases c with
  | offer t o =>
    by_cases hp : a.isPresent t o = true
    · simp [newlyOffered, freshOffers, hp] at h
    · have hd : d = (t, o) := by simpa [newlyOffered, freshOffers, hp] using h
      rw [hd]
      exact fun hmem => hp ((isPresent_iff a t o).2 hmem)
  | _ => simp [newlyOffered, freshOffers] at h

/-- R125: a condition that a batch offers is as often in the present set as the batch offers it. -/
theorem count_newlyOffered (cs : List AlmChange) (a : Alm) {d : CondType × Nat} (h : d ∈ newlyOffered a cs) :
    (cs.foldl applyChange a).present.count d ≤ (cs.filterMap offeredBy).count d := by
  induction cs generalizing a with
  | nil => cases h
  | cons c cs ih =>
    have hsplit : ((c :: cs).filterMap offeredBy).count d = ([c].filterMap offeredBy).count d + (cs.filterMap offeredBy).count d := by
      rw [← List.singleton_append, List.filterMap_append, List.count_append]
    have hlater := count_applyChanges cs (applyChange a c) d
    have hfirst := count_applyChange a c d
    rw [newlyOffered_cons, List.mem_append] at h
    rw [hsplit, List.foldl_cons]
    obtain h | h := h
    · have habsent : a.present.count d = 0 := List.count_eq_zero_of_not_mem (newlyOffered_one h)
      omega
    · have := ih (applyChange a c) h
      omega

theorem freshOffers_length (cs : List AlmChange) (a : Alm) : (freshOffers a cs).length ≤ cs.length := by
  induction cs generalizing a with
  | nil => exact le_rfl
  | cons c cs ih =>
    have hone : (freshOffers a [c]).length ≤ 1 := by
      cases c with
      | offer t o => by_cases hp : a.isPresent t o = true <;> simp [freshOffers, hp]
      | _ => simp [freshOffers]
    have hcons : freshOffers a (c :: cs) = freshOffers a [c] ++ freshOffers (applyChange a c) cs := by
      cases c <;> simp only [freshOffers, List.append_nil]
    have := ih (applyChange a c)
    rw [hcons, List.length_append, List.length_cons]
    omega

/-- Suppression does not depend on a condition of another type than LOS and FAIL. -/
theorem suppressed_congr {a b : Alm} (hheld : b.held = a.held) (hstate : b.portState = a.portState) (htaps : b.taps = a.taps)
    (hlos : ∀ o, b.isPresent .los o = a.isPresent .los o) (hfail : ∀ o, b.isPresent .fail o = a.isPresent .fail o)
    (t : CondType) (o : Nat) : b.suppressed t o = a.suppressed t o := by
  unfold Alm.suppressed
  simp only [hheld, hstate, htaps, hlos, hfail]

/-- A change that suppresses nothing and lifts no suppression. -/
def Unsuppressing : AlmChange → Prop
  | .offer t _ | .withdraw t _ | .drop t _ => t ≠ .los ∧ t ≠ .fail
  | .event .. | .group .. | .role _ => True
  | .portState .. | .hold .. | .tap .. => False

theorem applyChange_suppressed {c : AlmChange} (h : Unsuppressing c) (a : Alm) (t : CondType) (o : Nat) :
    (applyChange a c).suppressed t o = a.suppressed t o := by
  have hinsert {u v : CondType} (hne : u ≠ v) (x y : Nat) :
      decide ((v, y) ∈ insertCond (u, x) a.present) = decide ((v, y) ∈ a.present) := by
    simp only [mem_insertCond, decide_eq_decide]
    exact or_iff_right fun heq => hne (congrArg Prod.fst heq).symm
  have herase {u v : CondType} (hne : u ≠ v) (x y : Nat) :
      decide ((v, y) ∈ a.present.erase (u, x)) = decide ((v, y) ∈ a.present) := by
    rw [decide_eq_decide]
    exact List.mem_erase_of_ne fun heq => hne (congrArg Prod.fst heq).symm
  cases c with
  | offer u x => exact suppressed_congr (a := a) (b := applyChange a (.offer u x)) rfl rfl rfl (hinsert h.1 x) (hinsert h.2 x) t o
  | withdraw u x => exact suppressed_congr (a := a) (b := applyChange a (.withdraw u x)) rfl rfl rfl (herase h.1 x) (herase h.2 x) t o
  | drop u x => exact suppressed_congr (a := a) (b := applyChange a (.drop u x)) rfl rfl rfl (herase h.1 x) (herase h.2 x) t o
  | event => rfl
  | group => rfl
  | role => rfl
  | portState => exact h.elim
  | hold => exact h.elim
  | tap => exact h.elim

theorem applyChanges_suppressed {cs : List AlmChange} (h : ∀ c ∈ cs, Unsuppressing c) (a : Alm) (t : CondType) (o : Nat) :
    (cs.foldl applyChange a).suppressed t o = a.suppressed t o := by
  induction cs generalizing a with
  | nil => rfl
  | cons c cs ih => exact (ih (fun d hd => h d (.tail _ hd)) _).trans (applyChange_suppressed (h c (.head _)) a t o)

section
variable {s : State} {batch : List AlmChange} (h : ∀ c ∈ batch, Unsuppressing c)
include h

theorem batchCandidates_length : (batchCandidates s batch).length ≤ batch.length := by
  have hcontext := batchGraded_context s batch
  have hoffered : ∀ c ∈ batchCandidates s batch, c ∈ newlyOffered s.alm batch := by
    intro c hc
    unfold batchCandidates candidates at hc
    obtain ⟨_, hc⟩ := List.mem_filter.1 hc
    have hsup : (batchGraded s batch).alm.suppressed c.1 c.2 = s.alm.suppressed c.1 c.2 := by
      rw [hcontext.suppressed]
      exact applyChanges_suppressed h s.alm c.1 c.2
    have hprofile : (batchGraded s batch).alm.profileOf c.1 = s.alm.profileOf c.1 := by
      rw [hcontext.profileOf, Alm.profileOf, (batchAlm_kept s batch).2.1, Alm.profileOf]
    rw [hsup, hprofile] at hc
    simp only [Bool.and_eq_true, Bool.or_eq_true, Bool.not_eq_true', List.contains_iff_mem] at hc
    obtain ⟨⟨⟨hno, htab⟩, _⟩, (hin | hbefore) | huntab⟩ := hc
    · exact hin
    · rw [hno] at hbefore
      cases hbefore
    · rw [htab] at huntab
      cases huntab
  have hsub : (batchCandidates s batch).Subperm (batch.filterMap offeredBy) := by
    refine List.subperm_ext_iff.2 fun c hc => ?_
    refine (List.filter_sublist.count_le c).trans ?_
    rw [hcontext.present]
    exact count_newlyOffered batch s.alm (hoffered c hc)
  exact hsub.length_le.trans (List.length_filterMap_le _ _)

omit h in
theorem batchEvents_length : (batchEvents s batch).length ≤ batch.length :=
  (List.length_filterMap_le _ _).trans (freshOffers_length batch s.alm)

/-- R130, R132, R135, R137: at most one record of each entry as it stands, an EVENT record and two more of each change. -/
theorem batchWork_records : (batchWork s batch).recs.length ≤ 128 + 3 * batch.length := by
  have hcands := batchCandidates_length (s := s) h
  have htaken := takeCandidates_records s (batchCandidates s batch) (batchGraded s batch)
  have hgraded : (batchGraded s batch).recs = batchEvents s batch ++ goneRecs (batchAlm s batch) (droppedConds batch) ++
    severityRecs s (batchAlm s batch) (droppedConds batch) := gradedWork_recs
  have hentries := entries_records s (batchAlm s batch) (droppedConds batch)
  have hevents := batchEvents_length (s := s) (batch := batch)
  rw [hgraded, List.length_append, List.length_append] at htaken
  have hwork : (batchWork s batch).recs.length ≤ _ := htaken
  omega

end

/-! ### Records of an event and everything it hands on -/

/-- Time stands and the journal has been handed at most `n` records. -/
def RecordsUpTo (n : Nat) (s t : State) : Prop :=
  t.start = s.start ∧ ∃ events, t.jrn = journalAfter s events ∧ events.flatten.length ≤ n

theorem RecordsUpTo.refl (s : State) : RecordsUpTo 0 s s := ⟨rfl, [], rfl, le_rfl⟩

theorem RecordsUpTo.mono {m n : Nat} {s t : State} (h : RecordsUpTo m s t) (hle : m ≤ n) : RecordsUpTo n s t := by
  obtain ⟨hstart, events, hjrn, hlen⟩ := h
  exact ⟨hstart, events, hjrn, hlen.trans hle⟩

theorem RecordsUpTo.trans {m n : Nat} {s t u : State} (h : RecordsUpTo m s t) (k : RecordsUpTo n t u) :
    RecordsUpTo (m + n) s u := by
  obtain ⟨hst, es, hes, hm⟩ := h
  obtain ⟨htu, fs, hfs, hn⟩ := k
  refine ⟨htu.trans hst, es ++ fs, hfs.trans (journalAfter_then hst hes fs), ?_⟩
  rw [List.flatten_append, List.length_append]
  omega

/-- Records handed at once. -/
theorem recordsUpTo_of {s t : State} {bs : List JBody} (hstart : t.start = s.start) (hjrn : t.jrn = (jrnRecords s bs).1) :
    RecordsUpTo bs.length s t :=
  ⟨hstart, [bs], hjrn, by simp⟩

/-- Two messages of an event are taken one after the other. -/
theorem settle_pair {x y : Msg} (hx : x.expand = [x]) (hy : y.expand = [y]) (n : Nat) (s : State) :
    ∃ t, (t = s ∨ t = { s with choices := s.choices + 1 }) ∧
      (settle (n + 1) [x, y] s = taken n y (taken n x t) ∨ settle (n + 1) [x, y] s = taken n x (taken n y t)) := by
  refine ⟨(freely [x, y] s).2, freely_state [x, y] s, ?_⟩
  have hperm := freely_perm [x, y] s
  change ((freely [x, y] s).1.flatMap Msg.expand).foldl (fun t m => taken n m t) _ = _ ∨
    ((freely [x, y] s).1.flatMap Msg.expand).foldl (fun t m => taken n m t) _ = _
  generalize (freely [x, y] s).1 = l, (freely [x, y] s).2 = t at hperm
  obtain ⟨a, b, rfl⟩ := List.length_eq_two.1 hperm.length_eq
  obtain rfl | hay := List.mem_cons.1 (hperm.mem_iff.1 (.head _))
  · obtain rfl := List.singleton_perm_singleton.1 hperm.cons_inv
    refine .inl ?_
    rw [List.flatMap_cons, List.flatMap_cons, hx, hy]
    rfl
  · obtain rfl := List.mem_singleton.1 hay
    obtain rfl := List.singleton_perm_singleton.1 (hperm.trans (.swap _ _ _)).cons_inv
    refine .inr ?_
    rw [List.flatMap_cons, List.flatMap_cons, hx, hy]
    rfl

theorem taken_alm_records {batch : List AlmChange} (h : ∀ c ∈ batch, Unsuppressing c) (n : Nat) (s : State) :
    RecordsUpTo (128 + 3 * batch.length) s (taken (n + 1) (.alm batch) s) := by
  have hsaid : AlmSaid s (batchWork s batch) (taken (n + 1) (.alm batch) s) := settleAlm_said n s (batchWork s batch)
  exact (recordsUpTo_of (hsaid.frame .start (by decide)) hsaid.jrn).mono (batchWork_records h)

theorem taken_jrn_records (recs : List JBody) (n : Nat) (s : State) :
    RecordsUpTo recs.length s (taken n (.jrn recs) s) := by
  have hbelow := jrnRecords_below s recs
  exact recordsUpTo_of (settle_unchanged 1 n _ _ hbelow .start (by decide)) (settle_unchanged 1 n _ _ hbelow .jrn (by decide))

theorem recordsUpTo_choice {s t : State} (h : t = s ∨ t = { s with choices := s.choices + 1 }) : RecordsUpTo 0 s t := by
  obtain rfl | rfl := h
  · exact .refl _
  · exact ⟨rfl, [], rfl, le_rfl⟩

theorem settle_single {x : Msg} (hx : x.expand = [x]) (n : Nat) (s : State) : settle (n + 1) [x] s = taken n x s := by
  change ([x].flatMap Msg.expand).foldl (fun t m => taken n m t) s = _
  rw [List.flatMap_cons, hx]
  rfl

/-- A batch for ALM and records for JRN, with everything they set off. -/
theorem settle_batch_records {batch : List AlmChange} (h : ∀ c ∈ batch, Unsuppressing c) (recs : List JBody) (n : Nat)
    (s : State) : RecordsUpTo (128 + 3 * batch.length + recs.length) s (settle (n + 2) (toAlm batch ++ toJrn recs) s) := by
  have halm := taken_alm_records h n
  have hjrn := taken_jrn_records recs (n + 1)
  by_cases hb : batch = []
  · by_cases hr : recs = []
    · subst hb hr
      exact (RecordsUpTo.refl s).mono (Nat.zero_le _)
    · have hms : toAlm batch ++ toJrn recs = [.jrn recs] := by simp [toAlm, toJrn, hb, hr]
      rw [hms, settle_single rfl]
      exact (hjrn s).mono (Nat.le_add_left _ _)
  · by_cases hr : recs = []
    · have hms : toAlm batch ++ toJrn recs = [.alm batch] := by simp [toAlm, toJrn, hb, hr]
      rw [hms, settle_single rfl]
      exact (halm s).mono (Nat.le_add_right _ _)
    · have hms : toAlm batch ++ toJrn recs = [.alm batch, .jrn recs] := by simp [toAlm, toJrn, hb, hr]
      obtain ⟨t, ht, heq | heq⟩ := settle_pair (x := .alm batch) (y := .jrn recs) rfl rfl (n + 1) s
      · rw [hms, heq]
        exact (((recordsUpTo_choice ht).trans (halm t)).trans (hjrn _)).mono (by omega)
      · rw [hms, heq]
        exact (((recordsUpTo_choice ht).trans (hjrn t)).trans (halm _)).mono (by omega)

/-! ### A journal just started (R153) -/

/-- Records that do not go round the ring leave its first place. -/
theorem jrnWriteAll_first (now : Nat) (bs : List JBody) (j : Jrn) (hpos : 1 ≤ j.pos) (hroom : j.pos + bs.length ≤ 256) :
    (jrnWriteAll now j bs).1.ring[0] = j.ring[0] := by
  induction bs generalizing j with
  | nil => rfl
  | cons b bs ih =>
    rw [List.length_cons] at hroom
    have hwrite : (jrnWrite now j b).1.ring[0] = j.ring[0] ∧
        ((jrnWrite now j b).1.pos = j.pos ∨ (jrnWrite now j b).1.pos = nextPosition j.pos) := by
      have hring (r : JRecord) : (j.ring.set (j.pos % 256) r (Nat.mod_lt _ (by decide)))[0] = j.ring[0] :=
        Vector.getElem_set_ne _ _ (by omega)
      unfold jrnWrite
      split
      · exact ⟨rfl, .inl rfl⟩
      · split
        · split
          · exact ⟨hring _, .inr rfl⟩
          · exact ⟨hring _, .inr rfl⟩
        · exact ⟨hring _, .inr rfl⟩
    obtain ⟨hkept, hpos'⟩ := hwrite
    cases bs with
    | nil => exact hkept
    | cons c cs =>
      rw [List.length_cons] at hroom
      have hnext : nextPosition j.pos = j.pos + 1 := if_pos (by omega)
      rw [hnext] at hpos'
      refine (ih (jrnWrite now j b).1 (by omega) ?_).trans hkept
      rw [List.length_cons]
      omega

theorem RecordsUpTo.first {n : Nat} {s t : State} (h : RecordsUpTo n s t) (hpos : 1 ≤ s.jrn.pos) (hroom : s.jrn.pos + n ≤ 256) :
    t.jrn.ring[0] = s.jrn.ring[0] := by
  obtain ⟨_, events, hjrn, hlen⟩ := h
  obtain ⟨g, hg⟩ := journalAfter_flatten s events
  rw [hjrn, hg]
  exact jrnWriteAll_first s.now events.flatten s.jrn hpos (by omega)

theorem jrnWrite_keepsStop (now : Nat) (j : Jrn) (b : JBody) : (jrnWrite now j b).1.stop = j.stop := by
  unfold jrnWrite
  split
  · rfl
  · split
    · split <;> rfl
    · rfl

theorem jrnWriteAll_keepsStop (now : Nat) (j : Jrn) (bs : List JBody) : (jrnWriteAll now j bs).1.stop = j.stop := by
  induction bs generalizing j with
  | nil => rfl
  | cons b bs ih => exact (ih _).trans (jrnWrite_keepsStop now j b)

theorem Records.stop {s t : State} (h : Records s t) : t.jrn.stop = s.jrn.stop := by
  obtain ⟨_, events, hjrn⟩ := h
  obtain ⟨g, hg⟩ := journalAfter_flatten s events
  rw [hjrn, hg]
  exact jrnWriteAll_keepsStop s.now s.jrn events.flatten

end Sys2Proof.Proofs
end

