-- ==== Sys2Proof/Proofs/ShelfLoads.lean ====
section
/-! A shelf record loaded: TSEL and JRN take it in either order (R106, R111, R120, R153, R166). -/

namespace Sys2Proof.Proofs

open Sys2Proof.Machine Sys2Proof.Safety Sys2Proof.Laws

/-! ### The shelf record at TSEL (R106, R111, R120) -/

section
variable (s : State) (old : ShelfRec)

/-- R106, R111: the selection formed again under a new record. -/
def rewarmedWork : TselWork := reselect s { tselBegin s with tsel := { s.tsel with warmUp := rewarm old s } }

/-- R120: and the holdover limit judged by it. -/
def shelfWork : TselWork :=
  if (rewarmedWork s old).tsel.agedNow s.rqu.shelf.holdLimit then setAged (rewarmedWork s old) else rewarmedWork s old

theorem tselShelf_eq : tselShelf s old = tselEnd s (shelfWork s old) := rfl

theorem shelfWork_tsel : ∃ aged, (shelfWork s old).tsel = { (rewarmedWork s old).tsel with aged := aged } := by
  unfold shelfWork
  split
  · exact ⟨true, rfl⟩
  · exact ⟨_, rfl⟩

theorem tselShelf_stays : (tselShelf s old).1.refs = s.tsel.refs ∧ (tselShelf s old).1.steering = s.tsel.steering ∧
    (tselShelf s old).1.force = s.tsel.force ∧ (tselShelf s old).1.lockout = s.tsel.lockout ∧
    (tselShelf s old).1.warmUp = rewarm old s := by
  obtain ⟨aged, haged⟩ := shelfWork_tsel s old
  simp only [tselShelf_eq, tselEnd_refs, tselEnd_steering, tselEnd_force, tselEnd_lockout, tselEnd_warmUp, haged, rewarmedWork,
    reselect_refs, reselect_steering, reselect_force, reselect_lockout, reselect_warmUp]
  exact ⟨trivial, trivial, trivial, trivial, trivial⟩

theorem choose_congr {t u : Tsel} (hforce : u.force = t.force) (hrefs : u.refs = t.refs) (hlock : u.lockout = t.lockout)
    (quality : Bool) : u.choose quality = t.choose quality := by
  cases t
  cases u
  cases hforce
  cases hrefs
  cases hlock
  rfl

theorem tselShelf_selected : (tselShelf s old).1.selected = (tselShelf s old).1.choose s.rqu.shelf.quality := by
  obtain ⟨hrefs, _, hforce, hlock, _⟩ := tselShelf_stays s old
  obtain ⟨aged, haged⟩ := shelfWork_tsel s old
  rw [choose_congr (t := s.tsel) hforce hrefs hlock, tselShelf_eq, tselEnd_selected, haged]
  exact (reselect_selected s _).trans (choose_congr rfl rfl rfl _)

theorem agedNow_iff (t : Tsel) (limit : Nat) :
    t.agedNow limit = true ↔ t.state = .holdover ∧ t.aged = false ∧ limit * 14400000 ≤ t.age := by
  have hlimit : holdLimitPeriods limit = limit * 14400000 := by
    simp only [holdLimitPeriods, perSecond]
    omega
  simp [Tsel.agedNow, hlimit, and_assoc]

/-- R115, R119: how the age and its flag stand after a selection. -/
theorem reselect_aged (w : TselWork) :
    (w.tsel.state = .holdover → (reselect s w).tsel.state = .holdover →
      (reselect s w).tsel.aged = w.tsel.aged ∧ (reselect s w).tsel.age = w.tsel.age) ∧
    (w.tsel.aged = false → (reselect s w).tsel.aged = false) := by
  by_cases hsame : w.tsel.choose s.rqu.shelf.quality = w.tsel.selected
  · rw [reselect_same s w hsame]
    exact ⟨fun _ _ => ⟨rfl, rfl⟩, id⟩
  · rw [reselect_other s w hsame]
    unfold Tsel.enter
    cases hsel : w.tsel.choose s.rqu.shelf.quality with
    | some r => exact ⟨fun _ h => (nomatch h), fun _ => rfl⟩
    | none =>
      cases hst : w.tsel.state with
      | acquiring => exact ⟨fun h => (nomatch h), fun _ => rfl⟩
      | locked => exact ⟨fun h => (nomatch h), fun _ => rfl⟩
      | holdover => exact ⟨fun _ _ => ⟨rfl, rfl⟩, id⟩
      | freeRun => exact ⟨fun h => (nomatch h), id⟩

theorem tselShelf_aged : (s.tsel.state = .holdover → (tselShelf s old).1.state = .holdover →
      (tselShelf s old).1.aged = (s.tsel.aged || decide (s.rqu.shelf.holdLimit * 14400000 ≤ s.tsel.age))) ∧
    ((tselShelf s old).1.state ≠ .holdover → s.tsel.aged = false → (tselShelf s old).1.aged = false) := by
  have hend : (tselShelf s old).1.aged = (shelfWork s old).tsel.aged := rfl
  have hstate : (tselShelf s old).1.state = (rewarmedWork s old).tsel.state := by
    obtain ⟨aged, haged⟩ := shelfWork_tsel s old
    rw [tselShelf_eq, tselEnd_state, haged]
  obtain ⟨hkept, hoff⟩ := reselect_aged s { tselBegin s with tsel := { s.tsel with warmUp := rewarm old s } }
  have hnow := agedNow_iff (rewarmedWork s old).tsel s.rqu.shelf.holdLimit
  have hwork : (shelfWork s old).tsel.aged =
      ((rewarmedWork s old).tsel.agedNow s.rqu.shelf.holdLimit || (rewarmedWork s old).tsel.aged) := by
    unfold shelfWork
    split
    · next h => rw [h]; rfl
    · next h => rw [Bool.eq_false_iff.2 h]; rfl
  refine ⟨fun hs hu => ?_, fun hu haged => ?_⟩
  · obtain ⟨haged, hage⟩ := hkept hs (hstate ▸ hu)
    have haged : (rewarmedWork s old).tsel.aged = s.tsel.aged := haged
    have hage : (rewarmedWork s old).tsel.age = s.tsel.age := hage
    rw [hend, hwork, Bool.eq_iff_iff, Bool.or_eq_true, Bool.or_eq_true, hnow, haged, hage, decide_eq_true_eq, ← hstate]
    cases s.tsel.aged <;> simp [hu]
  · have hoff : (rewarmedWork s old).tsel.aged = false := hoff haged
    rw [hend, hwork, hoff, Bool.or_false, Bool.eq_false_iff]
    exact fun h => hu (hstate.trans (hnow.1 h).1)

/-- R115, R120: what the record's event hands on. -/
theorem shelfWork_hands : (∀ c ∈ (shelfWork s old).alm, Unsuppressing c) ∧ (shelfWork s old).alm.length ≤ 1 ∧
    (shelfWork s old).recs.length ≤ 2 := by
  have hrewarmed : (∀ c ∈ (rewarmedWork s old).alm, Unsuppressing c) ∧ (rewarmedWork s old).alm.length ≤ 1 ∧
      (rewarmedWork s old).recs.length ≤ 1 := by
    unfold rewarmedWork reselect
    simp only
    split
    · exact ⟨fun _ hc => absurd hc List.not_mem_nil, Nat.zero_le _, Nat.zero_le _⟩
    · refine ⟨fun c hc => ?_, le_rfl, le_rfl⟩
      rw [List.mem_singleton.1 hc]
      exact trivial
  obtain ⟨halm, hone, hrecs⟩ := hrewarmed
  unfold shelfWork
  split
  · refine ⟨halm, hone, ?_⟩
    simp only [setAged, List.length_append, List.length_singleton]
    omega
  · exact ⟨halm, hone, by omega⟩

theorem flagChange_few {t : CondType} (ht : t ≠ .los ∧ t ≠ .fail) (o : Nat) (a b : Bool) :
    (∀ c ∈ flagChange t o a b, Unsuppressing c) ∧ (flagChange t o a b).length ≤ 1 := by
  cases a <;> cases b <;> simp [flagChange, Unsuppressing, ht]

theorem tselShelf_msgs : ∃ batch recs, (tselShelf s old).2 = toAlm batch ++ toJrn recs ∧ (∀ c ∈ batch, Unsuppressing c) ∧
    batch.length ≤ 3 ∧ recs.length ≤ 2 := by
  obtain ⟨halm, hone, hrecs⟩ := shelfWork_hands s old
  obtain ⟨hrefs, _⟩ := tselShelf_stays s old
  have hnone : allRefs.flatMap (refChanges s.tsel (tselShelf s old).1) = [] :=
    List.flatMap_eq_nil_iff.2 fun r _ => refChanges_same hrefs r
  obtain ⟨hhold, hhold1⟩ := flagChange_few (t := .holdover) (by decide) 0 s.tsel.holdover (tselShelf s old).1.holdover
  obtain ⟨hfree, hfree1⟩ := flagChange_few (t := .freeRun) (by decide) 0 s.tsel.freeRun (tselShelf s old).1.freeRun
  refine ⟨flagChange .holdover 0 s.tsel.holdover (tselShelf s old).1.holdover ++
    flagChange .freeRun 0 s.tsel.freeRun (tselShelf s old).1.freeRun ++ (shelfWork s old).alm, (shelfWork s old).recs,
    ?_, fun c hc => ?_, ?_, hrecs⟩
  · have hmsgs : (tselShelf s old).2 = toAlm (allRefs.flatMap (refChanges s.tsel (tselShelf s old).1) ++
        flagChange .holdover 0 s.tsel.holdover (tselShelf s old).1.holdover ++
        flagChange .freeRun 0 s.tsel.freeRun (tselShelf s old).1.freeRun ++ (shelfWork s old).alm) ++
        toJrn (shelfWork s old).recs := rfl
    rw [hmsgs, hnone, List.nil_append]
  · rw [List.mem_append, List.mem_append] at hc
    obtain (hc | hc) | hc := hc
    exacts [hhold c hc, hfree c hc, halm c hc]
  · rw [List.length_append, List.length_append]
    omega

end

theorem tselShelf_congr {s u : State} (htsel : u.tsel = s.tsel) (hrqu : u.rqu = s.rqu) (hstart : u.start = s.start)
    (hprc : u.prc = s.prc) (old : ShelfRec) : tselShelf u old = tselShelf s old := by
  cases s
  cases u
  cases htsel
  cases hrqu
  cases hstart
  cases hprc
  rfl

/-! ### The two readers of a shelf record, each with everything it sets off -/

section
variable (u : State)

theorem taken_shelf (old : ShelfRec) :
    (taken 9 (.tselShelf old) u).tsel = (tselShelf u old).1 ∧ RecordsUpTo 139 u (taken 9 (.tselShelf old) u) ∧
    (taken 9 (.tselShelf old) u).jrn.stop = u.jrn.stop := by
  obtain ⟨batch, recs, hmsgs, hunsup, hbatch, hrecs⟩ := tselShelf_msgs u old
  have hsplit : taken 9 (.tselShelf old) u = settle 9 (toAlm batch ++ toJrn recs) (deliver (.tselShelf old) u).1 := by
    rw [← hmsgs]
    rfl
  refine ⟨?_, ?_, (taken_records 9 (noMode_of_rank (by simp [Msg.rank])) u).stop⟩
  · have hbelow : Below 3 (deliver (.tselShelf old) u).2 := tselEnd_below u (shelfWork u old)
    refine (settle_unchanged 3 9 _ (deliver (.tselShelf old) u).1 hbelow .tsel (by decide)).trans ?_
    simp only [deliver, putTselFrom_tsel]
  · have hfirst : RecordsUpTo 0 u (deliver (.tselShelf old) u).1 := by
      refine ⟨?_, [], ?_, le_rfl⟩
      · simp only [deliver, putTselFrom_start]
      · simp only [deliver, putTselFrom_jrn]
        rfl
    rw [hsplit]
    exact (hfirst.trans (settle_batch_records hunsup recs 7 _)).mono (by omega)

theorem taken_mode (stop : Bool) (n : Nat) : (taken n (.jrnMode stop) u).jrn = (jrnMode u stop).1 ∧
    unchangedBut [.jrn, .attn, .choices] u (taken n (.jrnMode stop) u) := by
  have hframe := settle_unchanged 1 n (deliver (.jrnMode stop) u).2 (deliver (.jrnMode stop) u).1 (jrnMode_below u stop)
  refine ⟨hframe .jrn (by decide), unchangedBut_trans (t := (deliver (.jrnMode stop) u).1) (fun q hq => ?_)
    (unchangedBut_mono hframe (by decide))⟩
  cases q <;> first | exact absurd (by decide) hq | rfl

/-- R153: a journal started afresh in the other mode. -/
theorem jrnMode_said (stop : Bool) : (jrnMode u stop).1.stop = stop ∧
    (stop ≠ u.jrn.stop → (jrnMode u stop).1.pos = 1 ∧ (jrnMode u stop).1.ring[0].seq = 1 ∧
      (jrnMode u stop).1.ring[0].body = some (.restart .mode)) := by
  unfold jrnMode
  by_cases h : u.jrn.stop = stop
  · rw [if_pos h]
    exact ⟨h, fun hne => absurd h.symm hne⟩
  · obtain ⟨g, hg⟩ := jrnStamp_eq u.jrn (jrnWrite u.now (jrnDiscard u.jrn stop) (.restart .mode)).1
    rw [if_neg h]
    simp only [hg]
    cases stop
    · exact ⟨rfl, fun _ => ⟨rfl, rfl, rfl⟩⟩
    · exact ⟨rfl, fun _ => ⟨rfl, rfl, rfl⟩⟩

end

/-- R166: the state with the record in use, before its readers take it. -/
def shelfRecorded (s : State) (c : ShelfRec) : State := { s with rqu := { s.rqu with shelf := c, loaded := true } }

/-- R106, R111, R153, R166: what an applied shelf record leaves. -/
structure ShelfSaid (s : State) (c : ShelfRec) (t : State) : Prop where
  tsel  : t.tsel = (tselShelf (shelfRecorded s c) s.rqu.shelf).1
  stop  : t.jrn.stop = c.stop
  fresh : c.stop ≠ s.jrn.stop → t.jrn.ring[0].seq = 1 ∧ t.jrn.ring[0].body = some (.restart .mode)
  frame : unchangedBut [.tsel, .tsp, .alm, .jrn, .attn, .gens, .choices] (shelfRecorded s c) t

theorem applyShelf_frame (s : State) (c : ShelfRec) :
    unchangedBut [.tsel, .tsp, .alm, .jrn, .attn, .gens, .choices] (shelfRecorded s c) (applyShelf s c) :=
  unchangedBut_mono (settle_unchanged 4 10 _ (shelfRecorded s c) (by simp [Msg.rank])) (by decide)

theorem applyShelf_said (s : State) (c : ShelfRec) : ShelfSaid s c (applyShelf s c) := by
  have hframe := applyShelf_frame s c
  obtain ⟨t, ht, heq⟩ := settle_pair (x := .tselShelf s.rqu.shelf) (y := .jrnMode c.stop) rfl rfl 9 (shelfRecorded s c)
  have hchoice : unchangedBut [.choices] (shelfRecorded s c) t := by
    obtain rfl | rfl := ht
    · exact unchangedBut_refl _ _
    · intro q hq
      cases q <;> first | exact absurd (by decide) hq | rfl
  have htjrn : t.jrn = s.jrn := hchoice .jrn (by decide)
  have hcongr {u : State} (hu : unchangedBut [.jrn, .attn, .choices] (shelfRecorded s c) u) :
      tselShelf u s.rqu.shelf = tselShelf (shelfRecorded s c) s.rqu.shelf :=
    tselShelf_congr (hu .tsel (by decide)) (hu .rqu (by decide)) (hu .start (by decide)) (hu .prc (by decide)) _
  obtain heq | heq := heq
  · have heq : applyShelf s c = _ := heq
    obtain ⟨htsel, _, hstop⟩ := taken_shelf t s.rqu.shelf
    obtain ⟨hjrn, hrest⟩ := taken_mode (taken 9 (.tselShelf s.rqu.shelf) t) c.stop 9
    obtain ⟨hmode, hfresh⟩ := jrnMode_said (taken 9 (.tselShelf s.rqu.shelf) t) c.stop
    rw [← hjrn] at hmode hfresh
    rw [hstop, htjrn] at hfresh
    refine ⟨?_, by rw [heq]; exact hmode, fun hne => by rw [heq]; exact (hfresh hne).2, hframe⟩
    rw [heq]
    refine (hrest .tsel (by decide)).trans (htsel.trans ?_)
    rw [hcongr (unchangedBut_mono hchoice (by decide))]
  · have heq : applyShelf s c = _ := heq
    obtain ⟨hjrn, hrest⟩ := taken_mode t c.stop 9
    obtain ⟨htsel, hrecords, hstop⟩ := taken_shelf (taken 9 (.jrnMode c.stop) t) s.rqu.shelf
    obtain ⟨hmode, hfresh⟩ := jrnMode_said t c.stop
    rw [← hjrn] at hmode hfresh
    rw [htjrn] at hfresh
    refine ⟨?_, by rw [heq]; exact hstop.trans hmode, fun hne => ?_, hframe⟩
    · rw [heq]
      refine htsel.trans ?_
      rw [hcongr (unchangedBut_trans (unchangedBut_mono hchoice (by decide)) hrest)]
    · obtain ⟨hpos, hseq, hbody⟩ := hfresh hne
      have hfirst := hrecords.first hpos.ge (by rw [hpos]; decide)
      rw [heq, hfirst]
      exact ⟨hseq, hbody⟩

end Sys2Proof.Proofs
end

