-- ==== Sys2Proof/Proofs/FirstTables.lean ====
section
/-! What an entry of the first tables leaves: LDSH, LDPF, LDPT, LDCR (R10, R40, R44, R166, R167). -/

namespace Sys2Proof.Proofs

open Sys2Proof.Machine Sys2Proof.Safety Sys2Proof.Laws

/-! ### LDSH (R106, R120, R153, R166) -/

section
variable {s : State} {k : SlotIx} (hone : OneEntry s k .ldsh 1 16)
include hone

theorem ldsh_stops (hx : readShelf (entryAt s k 16) = none) : ∃ t, exec (.ldsh k) s = .next t ∧
    Answered s t k .partLoad 0 s.mem ∧ sameRqu s t ∧ unchangedBut [.attn, .rqu, .mem] s t :=
  loadOne_fault (table := .shelf) (r := .ldsh) (take := loadShelf) rfl hone (Option.map_eq_none_iff.2 hx)

theorem ldsh_loads {x : ShelfRec} {n : Nat} (hx : readShelf (entryAt s k 16) = some (x, n)) :
    ∃ t, exec (.ldsh k) s = .next t ∧ Answered s t k .ok (min n 65535) s.mem ∧ t.rqu.shelf = x ∧
      t.rqu.loaded = true ∧ t.rqu.jobs = s.rqu.jobs ∧ t.jrn.stop = x.stop ∧
      (x.stop ≠ s.jrn.stop → t.jrn.ring[0].seq = 1 ∧ t.jrn.ring[0].body = some (.restart .mode)) ∧
      t.tsel = (tselShelf (shelfRecorded s x) s.rqu.shelf).1 ∧
      unchangedBut [.tsel, .tsp, .alm, .jrn, .attn, .gens, .choices, .rqu, .mem] s t := by
  have htake : loadShelf s (param8 s k 2).toNat (entryAt s k 16) = some (applyShelf s x, n) := by
    unfold loadShelf
    rw [hx]
    rfl
  obtain ⟨t, hexec, hanswered, ⟨hshelf, hloaded, hjobs⟩, hframe⟩ :=
    loadOne_taken (table := .shelf) (r := .ldsh) rfl hone loadShelf_leavesRqu htake
  have hsaid := applyShelf_said s x
  have hrqu : (applyShelf s x).rqu = (shelfRecorded s x).rqu := hsaid.frame .rqu (by decide)
  have hjrn : t.jrn = (applyShelf s x).jrn := hframe .jrn (by decide)
  rw [hrqu] at hshelf hloaded hjobs
  have hrecorded : unchangedBut [.rqu] s (shelfRecorded s x) := fun q hq => by
    cases q <;> first | exact absurd (by decide) hq | rfl
  exact ⟨t, hexec, hanswered, hshelf, hloaded, hjobs, hjrn ▸ hsaid.stop, hjrn ▸ hsaid.fresh,
    (hframe .tsel (by decide)).trans hsaid.tsel,
    unchangedBut_trans (unchangedBut_mono hrecorded (by decide))
      (unchangedBut_trans (unchangedBut_mono hsaid.frame (by decide)) (unchangedBut_mono hframe (by decide)))⟩

end

/-- R106: the warm-up under a new count. -/
theorem rewarm_said (s : State) (x : ShelfRec) : rewarm s.rqu.shelf (shelfRecorded s x) =
    if s.tsel.warmUp = none ∨ x.warmUp = s.rqu.shelf.warmUp then s.tsel.warmUp
    else if x.warmUp * 4096 ≤ s.start.periods then none else some (x.warmUp * 4096 - s.start.periods) := by
  unfold rewarm
  refine if_congr (or_congr Option.isNone_iff_eq_none eq_comm) rfl rfl

/-! ### LDPT (R10, R167) -/

/-- R10: what the baseline field makes of a port's record. -/
theorem takeBase_said (b : BaseField) (r : PortRec) :
    let x := takeBase b r
    x.1.role = r.role ∧ x.1.profile = r.profile ∧
    (∀ v, b = .value v → x.1.baseline = some v ∧ x.1.track = 0 ∧ x.1.failCnt = 0 ∧ x.1.degCnt = 0) ∧
    (b = .absent → x.1.baseline = none ∧ x.1.fail = false ∧ x.1.degrade = false) ∧
    (b = .keep → x.1.baseline = r.baseline ∧ x.1.cal = r.cal) ∧
    (b ≠ .keep → x.1.cal = none ∧ (r.cal ≠ none → x.2 = some .overridden)) := by
  have hend (o : CalOutcome) (y : PortRec) : (endCal o y).1 = { y with cal := none } ∧ (y.cal ≠ none → (endCal o y).2 = some o) := by
    unfold endCal
    cases hcal : y.cal with
    | none =>
      cases y
      cases hcal
      exact ⟨rfl, fun h => absurd rfl h⟩
    | some c => exact ⟨rfl, fun _ => rfl⟩
  intro x
  cases b with
  | keep => exact ⟨rfl, rfl, nofun, nofun, fun _ => ⟨rfl, rfl⟩, fun h => absurd rfl h⟩
  | value v =>
    obtain ⟨hrec, hout⟩ := hend .overridden { r with baseline := some v, failCnt := 0, degCnt := 0, track := 0 }
    have hrec : x.1 = _ := hrec
    rw [hrec]
    refine ⟨rfl, rfl, fun w hw => ?_, nofun, nofun, fun _ => ⟨rfl, hout⟩⟩
    cases hw
    exact ⟨rfl, rfl, rfl, rfl⟩
  | absent =>
    obtain ⟨hrec, hout⟩ := hend .overridden
      { r with baseline := none, fail := false, failCnt := 0, degrade := false, degCnt := 0 }
    have hrec : x.1 = _ := hrec
    rw [hrec]
    exact ⟨rfl, rfl, nofun, fun _ => ⟨rfl, rfl, rfl⟩, nofun, fun _ => ⟨rfl, hout⟩⟩

/-- R10, R167: a port as PMON holds it once its entry is applied. -/
theorem pmonLoad_said (s : State) (p : Port) (x : PortEntry) :
    let old := s.pmon.ports[p]
    let m := (pmonLoad s p x).1
    m.ports[p].role = x.role ∧ m.ports[p].profile = x.profile ∧
    m.ports[p].handed = portStateOf s.pmon.cards[cardOf p].accepted m.ports[p] ∧
    (∀ b, x.base = .value b → m.ports[p].baseline = some b ∧ m.ports[p].track = 0 ∧
      m.ports[p].failCnt = 0 ∧ m.ports[p].degCnt = 0) ∧
    (x.base = .absent → m.ports[p].baseline = none ∧ m.ports[p].fail = false ∧ m.ports[p].degrade = false) ∧
    (x.base = .keep → m.ports[p].baseline = old.baseline ∧ m.ports[p].cal = old.cal) ∧
    (x.base ≠ .keep → m.ports[p].cal = none ∧ (old.cal ≠ none → m.outcomes[p] = some .overridden)) := by
  intro old m
  have hport : m.ports[p] = formedRec s.pmon p (enteredPort s p x).1 := pmonLoad_port s p x
  have hout : m.outcomes[p] = ((enteredPort s p x).2 <|> s.pmon.outcomes[p]) := pmonLoad_outcome s p x
  obtain ⟨hrole, hprofile, hvalue, habsent, hkeep, hcal⟩ :=
    takeBase_said x.base { s.pmon.ports[p] with role := x.role, profile := x.profile }
  rw [hport]
  refine ⟨hrole, hprofile, rfl, hvalue, habsent, hkeep, fun hne => ?_⟩
  obtain ⟨hnone, hended⟩ := hcal hne
  refine ⟨hnone, fun hold => ?_⟩
  have hended : (enteredPort s p x).2 = some .overridden := hended hold
  rw [hout, hended]
  rfl

/-! ### LDCR (R40, R44) -/

theorem readCabling_free {s : State} {p : Port} {e : List Byte} {x : Expectation} (h : readCabling s p e = some x) :
    s.cbc.ports[p].hold = none := by
  unfold readCabling at h
  split at h
  · split at h
    · cases h
    · next hfree => exact Option.not_isSome_iff_eq_none.1 hfree
  · cases h

theorem expectation_differs {a b : Expectation}
    (h : b.kind ≠ a.kind ∨ (b.kind = .tag ∧ (b.port ≠ a.port ∨ b.shelf ≠ a.shelf))) : a.same b = false := by
  refine Bool.eq_false_iff.2 fun hsame => ?_
  simp only [Expectation.same, Bool.and_eq_true, Bool.or_eq_true, beq_iff_eq, bne_iff_ne] at hsame
  obtain ⟨hkind, hrest⟩ := hsame
  obtain hne | ⟨htag, hne⟩ := h
  · exact hne hkind.symm
  · obtain ⟨hport, hshelf⟩ := hrest.resolve_left fun hn => hn (hkind.trans htag)
    exact hne.elim (fun hp => hp hport.symm) fun hs => hs hshelf.symm

theorem cbcLoad_port (s : State) (p q : Port) (x : Expectation) : (cbcLoad s p x).1.ports[q] =
    if q = p then expectedRec s p x s.cbc.ports[p] else s.cbc.ports[q] := setExpectation_port s (cbcBegin s) p q x

theorem cbcLoad_orders (s : State) (p : Port) (x : Expectation) : (cbcLoad s p x).1.orders = s.cbc.orders :=
  setExpectation_orders s (cbcBegin s) p x

/-- Settles O44: the four loads, each by the event its entry is. -/
theorem anEntryOfTheFirstTables : Obligations.AnEntryOfTheFirstTables := by
  unfold Obligations.AnEntryOfTheFirstTables
  intro k s i one e stops
  refine ⟨fun hone => ⟨ldsh_stops hone, fun x n hx => ?_⟩, ldpf_loads, fun p hp hone => ⟨ldpt_stops hp hone, fun x n hx => ?_⟩,
    fun p hp hone => ⟨ldcr_stops hp hone, fun x hx => ?_⟩⟩
  · obtain ⟨t, hexec, hanswered, hshelf, hloaded, hjobs, hstop, hfresh, htsel, hframe⟩ := ldsh_loads hone hx
    obtain ⟨hrefs, hsteer, hforce, hlock, hwarm⟩ := tselShelf_stays (shelfRecorded s x) s.rqu.shelf
    obtain ⟨hage, hoff⟩ := tselShelf_aged (shelfRecorded s x) s.rqu.shelf
    have hsel := tselShelf_selected (shelfRecorded s x) s.rqu.shelf
    rw [← htsel] at hrefs hsteer hforce hlock hwarm hage hoff hsel
    exact ⟨t, hexec, hanswered, hshelf, hloaded, hjobs, hstop, hfresh, hsel, hrefs, hsteer, hforce, hlock,
      hwarm.trans (rewarm_said s x), hage, hoff, hframe⟩
  · obtain ⟨t, hexec, hanswered, hpmon, hrqu, hframe⟩ := ldpt_loads hp hone hx
    obtain ⟨hrole, hprofile, hhanded, hvalue, habsent, hkeep, hcal⟩ := pmonLoad_said s p x
    rw [← hpmon] at hrole hprofile hhanded hvalue habsent hkeep hcal
    exact ⟨t, hexec, hanswered, hrole, hprofile, hhanded, hvalue, habsent, hkeep, hcal,
      fun q hq => by rw [hpmon]; exact pmonLoad_other s p x hq, by rw [hpmon]; exact pmonLoad_cards s p x,
      by rw [hpmon]; exact pmonLoad_profiles s p x, hrqu, hframe⟩
  · obtain ⟨t, hexec, hanswered, hcbc, hrqu, hframe⟩ := ldcr_loads hp hone hx
    have hport (q : Port) := (congrArg (fun c : Cbc => c.ports[q]) hcbc).trans (cbcLoad_port s p q x)
    have hself : t.cbc.ports[p] = expectedRec s p x s.cbc.ports[p] := (hport p).trans (if_pos rfl)
    refine ⟨t, hexec, hanswered, ?_, ?_, ?_, fun hdiff => ?_, fun q hq => (hport q).trans (if_neg hq),
      hcbc ▸ cbcLoad_orders s p x, hrqu, hframe⟩
    · rw [hself, expectedRec_expect]
    · rw [hself, expectedRec_hold, readCabling_free hx]
    · rw [hself, expectedRec_tagWait]
      rfl
    · have hjudged : expectedRec s p x s.cbc.ports[p] = judgedRec s p (takenRec s x s.cbc.ports[p]) :=
        if_neg (Bool.eq_false_iff.1 (expectation_differs hdiff))
      rw [hself, hjudged, judgedRec_state]

end Sys2Proof.Proofs
end

