-- ==== Sys2Proof/Proofs/GroupStarts.lean ====
section
/-! The set-up of a protection group: its members' ports taken as they stand (R63, R77). -/

namespace Sys2Proof.Proofs

open Sys2Proof.Machine Sys2Proof.Safety Sys2Proof.Laws

/-! ### One member's port (R63) -/

/-- R63: the monitor record a member starts with. -/
def memberMon (s : State) (g : Group) (m : Nat) : Mon :=
  match g.portOf m with
  | none => .idle
  | some p =>
    if s.cbc.ports[p].hold.isSome then { timer := none, raised := none, held := true }
    else if g.applicable m s.pmon.ports[p].handed then
      if g.holdOff = 0 then { timer := none, raised := raisedBy g m s.pmon.ports[p].handed, held := false }
      else { timer := some (g.holdOff * 4), raised := none, held := false }
    else .idle

/-- R77: whether a member starts with a request. -/
def asks (x : Mon) : Bool := x.held || x.raised.isSome

theorem memberMon_moved {g h : Group} (hgh : Moved g h) (s : State) (m : Nat) : memberMon s h m = memberMon s g m := by
  obtain ⟨_, _, _, rfl⟩ := hgh
  rfl

theorem relist_joins {g : Group} {m : Nat} (hm : m ≠ 0) (hreq : g.memberRequests m ≠ []) (hnot : m ∉ g.order) :
    (g.relist m).order = g.order ++ [m] := by
  unfold Group.relist
  rw [if_neg hm, if_neg (by simpa using hreq), if_neg (by simpa using hnot)]

theorem relist_zero (g : Group) : g.relist 0 = g := if_pos rfl

theorem memberRequests_asked {g : Group} {m : Nat} (h : (g.mon m).held = true ∨ (g.mon m).raised ≠ none) :
    g.memberRequests m ≠ [] := by
  unfold Group.memberRequests
  rcases h with hheld | hr
  · simp [hheld]
  · cases hk : (g.mon m).raised with
    | none => exact absurd hk hr
    | some r => cases r <;> simp

@[simp] theorem suspend_order (g : Group) (m : Nat) : (g.suspend m).order = g.order := by
  unfold Group.suspend
  split
  · split <;> rfl
  · rfl

section
variable (s : State) (g : Group) {m : Nat}

theorem holdOn_moved : Moved g (g.holdOn m) :=
  ((putMon_moved g m _).trans (endWaitOf_moved _ m)).trans (relist_moved _ m)

theorem takeMember_moved : Moved g (g.takeMember s m) := by
  unfold Group.takeMember
  split
  · exact .refl g
  · split
    · exact holdOn_moved g
    · split
      · exact appear_moved g _
      · exact .refl g

variable (hm : m < 7) (hidle : g.mon m = .idle)
include hm hidle

theorem takeMember_mon (j : Nat) : (g.takeMember s m).mon j = if j = m then memberMon s g m else g.mon j := by
  have hself : g.mon j = if j = m then .idle else g.mon j := by
    split
    · next h => rw [h, hidle]
    · rfl
  have hraised : (g.mon m).raised = none := by rw [hidle]; rfl
  have htimer : (g.mon m).timer = none := by rw [hidle]; rfl
  unfold Group.takeMember memberMon
  cases hp : g.portOf m with
  | none => exact hself
  | some p =>
    simp only
    by_cases hheld : s.cbc.ports[p].hold.isSome = true
    · rw [if_pos hheld, if_pos hheld, holdOn_mon hm]
    · rw [if_neg hheld, if_neg hheld]
      unfold portStateNow
      by_cases happ : g.applicable m s.pmon.ports[p].handed = true
      · rw [if_pos happ, if_pos happ, appear_mon g _ hm hraised htimer, hidle]
        rfl
      · rw [if_neg happ, if_neg happ]
        exact hself

theorem takeMember_wait (hw : g.wait = none) : (g.takeMember s m).wait = none := by
  have hraised : (g.mon m).raised = none := by rw [hidle]; rfl
  have htimer : (g.mon m).timer = none := by rw [hidle]; rfl
  unfold Group.takeMember
  split
  · exact hw
  · split
    · rw [Group.holdOn, relist_wait, endWaitOf_wait, putMon_wait, hw]
      rfl
    · split
      · next happ =>
        rw [appear_wait g _ hm hraised htimer happ, hw]
        split <;> rfl
      · exact hw

/-- R77: a member that starts with a request joins the list. -/
theorem takeMember_order (hnot : m ∉ g.order) :
    (g.takeMember s m).order = if (m != 0 && asks (memberMon s g m)) = true then g.order ++ [m] else g.order := by
  have hraised : (g.mon m).raised = none := by rw [hidle]; rfl
  have htimer : (g.mon m).timer = none := by rw [hidle]; rfl
  have hjoin (k : Group) (horder : k.order = g.order) (hreq : (k.mon m).held = true ∨ (k.mon m).raised ≠ none) :
      (k.relist m).order = if (m != 0 && true) = true then g.order ++ [m] else g.order := by
    simp only [Bool.and_true, bne_iff_ne]
    by_cases hzero : m = 0
    · rw [hzero, relist_zero, horder, if_neg (by simp)]
    · rw [if_pos hzero, relist_joins hzero (memberRequests_asked hreq) (by rwa [horder]), horder]
  unfold Group.takeMember memberMon
  cases hp : g.portOf m with
  | none => simp [asks, Mon.idle]
  | some p =>
    simp only
    by_cases hheld : s.cbc.ports[p].hold.isSome = true
    · simp only [if_pos hheld]
      refine hjoin ((g.putMon m _).endWaitOf m) ?_ (.inl ?_)
      · rw [endWaitOf_order, putMon_order]
      · rw [endWaitOf_mon, putMon_mon g m hm, if_pos rfl]
    · simp only [if_neg hheld]
      unfold portStateNow
      by_cases happ : g.applicable m s.pmon.ports[p].handed = true
      · simp only [if_pos happ]
        by_cases hoff : g.holdOff = 0
        · obtain ⟨r, hr⟩ : ∃ r, raisedBy g m s.pmon.ports[p].handed = some r :=
            Option.ne_none_iff_exists'.1 fun h => by
              rw [raisedBy_eq_none, happ] at h
              cases h
          have hstarted := raisedBy_moved ((putMon_moved g m { g.mon m with timer := some (g.holdOff * 4) }).trans
            (suspend_moved _ m)) m s.pmon.ports[p].handed
          simp only [if_pos hoff, appear_at_once g _ hraised htimer hoff, holdOffOut_raises _ hm _ (hstarted.trans hr), hr]
          refine hjoin _ ?_ (.inr ?_)
          · rw [endWaitOf_order, putMon_order, putMon_order, suspend_order, putMon_order]
          · rw [endWaitOf_mon, putMon_mon _ _ hm, if_pos rfl]
            nofun
        · simp only [if_neg hoff, appear_starts g _ hraised htimer hoff, suspend_order, putMon_order]
          simp [asks]
      · simp only [if_neg happ]
        simp [asks, Mon.idle]

end

/-! ### The members taken in ascending number (R63, R77) -/

/-- The members below `k` taken as they stand. -/
def takenMembers (s : State) (g : Group) (k : Nat) : Group := (List.range k).foldl (Group.takeMember s) g

section
variable (s : State) (g : Group)

theorem takenMembers_succ (k : Nat) : takenMembers s g (k + 1) = (takenMembers s g k).takeMember s k := by
  unfold takenMembers
  rw [List.range_succ, List.foldl_append]
  rfl

theorem takenMembers_moved (k : Nat) : Moved g (takenMembers s g k) := by
  induction k with
  | zero => exact .refl g
  | succ k ih =>
    rw [takenMembers_succ]
    exact ih.trans (takeMember_moved s _)

variable (hidle : ∀ m, g.mon m = .idle)
include hidle

theorem takenMembers_mon {k : Nat} (hk : k ≤ 7) (j : Nat) :
    (takenMembers s g k).mon j = if j < k then memberMon s g j else .idle := by
  induction k generalizing j with
  | zero => exact hidle j
  | succ k ih =>
    have hone := ih (by omega) k
    rw [if_neg (lt_irrefl k)] at hone
    rw [takenMembers_succ, takeMember_mon s _ (by omega) hone, ih (by omega), memberMon_moved (takenMembers_moved s g k)]
    by_cases hj : j = k
    · rw [if_pos hj, if_pos (by omega), hj]
    · rw [if_neg hj]
      simp only [Nat.lt_succ_iff_lt_or_eq, hj, or_false]

theorem takenMembers_idle {k : Nat} (hk : k ≤ 7) : (takenMembers s g k).mon k = .idle := by
  rw [takenMembers_mon s g hidle hk, if_neg (lt_irrefl k)]

theorem takenMembers_wait (hw : g.wait = none) {k : Nat} (hk : k ≤ 7) : (takenMembers s g k).wait = none := by
  induction k with
  | zero => exact hw
  | succ k ih =>
    rw [takenMembers_succ]
    exact takeMember_wait s _ (by omega) (takenMembers_idle s g hidle (by omega)) (ih (by omega))

theorem takenMembers_order (horder : g.order = []) {k : Nat} (hk : k ≤ 7) :
    (takenMembers s g k).order = (List.range k).filter fun m => m != 0 && asks (memberMon s g m) := by
  induction k with
  | zero => exact horder
  | succ k ih =>
    have hlist := ih (by omega)
    have hnot : k ∉ (takenMembers s g k).order := by
      rw [hlist]
      intro hmem
      have := List.mem_range.1 (List.mem_of_mem_filter hmem)
      omega
    rw [takenMembers_succ, takeMember_order s _ (by omega) (takenMembers_idle s g hidle (by omega)) hnot, hlist,
      memberMon_moved (takenMembers_moved s g k), List.range_succ, List.filter_append]
    by_cases hask : (k != 0 && asks (memberMon s g k)) = true
    · rw [if_pos hask, List.filter_singleton, hask, cond_true]
    · rw [if_neg hask, List.filter_singleton, Bool.eq_false_iff.2 hask]
      exact (List.append_nil _).symm

end

/-! ### The group that a set-up leaves (R63, R97) -/

section
variable (s : State) (gi : GroupIx) (d : GroupDef)

/-- R63: a group with its members' ports and its far request taken, before the end of the event. -/
def startedGroup : Group := (takenMembers s (d.adopt s.prc.frozen) (d.work.length + 1)).readFar s

/-- R63, R97: the group that a set-up leaves. -/
def setUpGroup : Group := endedGroup s gi (d.adopt s.prc.frozen) (startedGroup s d)

theorem adopt_eq (frozen : Vector (Option ProtOut) 64) : ∃ b sel w o,
    d.adopt frozen = { d.fresh with bridged := b, selected := sel, wait := w, order := o } := by
  unfold GroupDef.adopt
  split
  · exact ⟨_, _, _, _, rfl⟩
  · exact ⟨_, _, _, _, rfl⟩

theorem readFar_eq (g : Group) : ∃ r b l, g.readFar s = { g with farReq := r, farBridged := b, sigLost := l } := by
  unfold Group.readFar
  split
  · exact ⟨_, _, _, rfl⟩
  · split
    · split <;> exact ⟨_, _, _, rfl⟩
    · exact ⟨_, _, _, rfl⟩

theorem started_eq : ∃ b sel ms w o fr fb sl, startedGroup s d = { d.fresh with
    bridged := b, selected := sel, mons := ms, wait := w, order := o, farReq := fr, farBridged := fb, sigLost := sl } := by
  obtain ⟨b, sel, w0, o0, hadopt⟩ := adopt_eq d s.prc.frozen
  obtain ⟨ms, w, o, htaken⟩ := takenMembers_moved s (d.adopt s.prc.frozen) (d.work.length + 1)
  obtain ⟨fr, fb, sl, hfar⟩ := readFar_eq s (takenMembers s (d.adopt s.prc.frozen) (d.work.length + 1))
  refine ⟨b, sel, ms, w, o, fr, fb, sl, ?_⟩
  rw [startedGroup, hfar, htaken, hadopt]

theorem prcSetUp_group (w : PrcWork) (hw : w.prc.frozen = s.prc.frozen) (j : GroupIx) :
    (prcSetUp s w gi d).prc.groups[j] = if j = gi then some (setUpGroup s gi d) else w.prc.groups[j] := by
  have hmembers : (d.adopt s.prc.frozen).members = List.range (d.work.length + 1) := by
    obtain ⟨b, sel, w0, o0, hadopt⟩ := adopt_eq d s.prc.frozen
    rw [hadopt]
    rfl
  unfold prcSetUp setUpGroup startedGroup takenMembers
  simp only [hw, hmembers]
  exact prcSettle_group s _ gi _ _ true j

theorem thaw_port (frozen : Vector (Option ProtOut) 64) (ps : List Port) (p : Port) :
    (thaw frozen ps)[p] = if p ∈ ps then none else frozen[p] := by
  unfold thaw
  induction ps generalizing frozen with
  | nil => rfl
  | cons q ps ih =>
    rw [List.foldl_cons, ih]
    have hset : (frozen.set q none)[p] = if p = q then none else frozen[p] := getElem_set_fin _ _ _ _
    by_cases hp : p ∈ ps
    · rw [if_pos hp, if_pos (List.mem_cons_of_mem _ hp)]
    · rw [if_neg hp, hset]
      simp only [List.mem_cons, hp, or_false]

/-- R63 to R65: an entry that sets a group up, over no group or over one that it does not keep. -/
theorem prcLoad_setUp (hnew : ∀ g, s.prc.groups[gi] = some g → d.keeps g = false) :
    (prcLoad s gi (some d)).1.groups[gi] = some (setUpGroup s gi d) ∧
    (∀ j, j ≠ gi → (prcLoad s gi (some d)).1.groups[j] = s.prc.groups[j]) ∧
    ∀ p : Port, (prcLoad s gi (some d)).1.frozen[p] = if p ∈ d.prot :: d.work then none else s.prc.frozen[p] := by
  obtain ⟨w, hload, hfrozen, hothers⟩ : ∃ w : PrcWork, prcLoad s gi (some d) = prcEnd (prcSetUp s w gi d) ∧
      w.prc.frozen = s.prc.frozen ∧ ∀ j, j ≠ gi → w.prc.groups[j] = s.prc.groups[j] := by
    unfold prcLoad
    cases hg : s.prc.groups[gi] with
    | none => exact ⟨prcBegin s, rfl, rfl, fun _ _ => rfl⟩
    | some g =>
      refine ⟨prcTearDown (prcBegin s) gi g, ?_, rfl, fun j hj => ?_⟩
      · simp only [hnew g hg, Bool.false_eq_true, if_false]
      · exact (getElem_set_fin _ _ _ _).trans (if_neg hj)
  rw [hload]
  refine ⟨?_, fun j hj => ?_, fun p => ?_⟩
  · exact (prcSetUp_group s gi d w hfrozen gi).trans (if_pos rfl)
  · exact (prcSetUp_group s gi d w hfrozen j).trans ((if_neg hj).trans (hothers j hj))
  · have hthaw : (prcEnd (prcSetUp s w gi d)).1.frozen = thaw w.prc.frozen d.ports := rfl
    rw [hthaw, hfrozen]
    exact thaw_port _ _ p

end

end Sys2Proof.Proofs
end

