-- ==== Sys2Proof/Proofs/GroupSetUps.lean ====
section
/-! What a set-up leaves: the definition, the members' records, the list, and a group that starts over frozen outputs
(R63, R77, R97). -/

namespace Sys2Proof.Proofs

open Sys2Proof.Machine Sys2Proof.Safety Sys2Proof.Laws

/-! ### The end of an event at a group without a manual (R73, R76) -/

theorem formedGroup_calm {g : Group} (gi : GroupIx) (hw : ∀ w, g.wait = some w → g.above w.ord = false) (hn : g.manual = none) :
    formedGroup gi g = { g with top := g.formTop }.formWin := by
  have hwait : g.normWait = g := by
    unfold Group.normWait
    split
    · next w hsome => rw [if_neg (by rw [hw w hsome]; exact Bool.false_ne_true)]
    · rfl
  have hlocal : g.normWait.dropManualLocal gi = (g, []) := by simp [hwait, Group.dropManualLocal, hn]
  have hmanual : ({ g with top := g.formTop }.formWin).manual = none := hn
  unfold formedGroup
  rw [hlocal]
  simp [Group.dropManualFar, hmanual]

theorem endedGroup_noManual {s : State} {gi : GroupIx} {base g : Group} (hn : g.manual = none) :
    (endedGroup s gi base g).manual = none := by
  have hnorm : g.normWait.manual = none := (normWait_manual g).trans hn
  have hwon : (wonGroup gi g).manual = none := by
    have hlocal : g.normWait.dropManualLocal gi = (g.normWait, []) := by simp [Group.dropManualLocal, hnorm]
    unfold wonGroup
    rw [hlocal]
    exact hnorm
  rw [endedGroup_manual, formedGroup_manual, hwon, ite_self]

/-! ### The definition and the far request (R63, R81) -/

/-- The fields of a group that an entry gives. -/
def Defines (d : GroupDef) (h : Group) : Prop := h.kind = d.kind ∧ h.prot = d.prot ∧ h.work = d.work ∧
  h.revertive = d.revertive ∧ h.degSwitch = d.degSwitch ∧ h.holdOff = d.holdOff ∧ h.wtr = d.wtr

theorem SameBase.defines {g h : Group} (hs : SameBase g h) {d : GroupDef} (hd : Defines d g) : Defines d h := by
  obtain ⟨hkind, hprot, hwork, hrev, hdeg, hoff, hwtr, _⟩ := hs.same
  obtain ⟨kkind, kprot, kwork, krev, kdeg, koff, kwtr⟩ := hd
  exact ⟨hkind.trans kkind, hprot.trans kprot, hwork.trans kwork, hrev.trans krev, hdeg.trans kdeg, hoff.trans koff,
    hwtr.trans kwtr⟩

theorem readFar_congr (s : State) {g h : Group} (hkind : h.kind = g.kind) (hprot : h.prot = g.prot) :
    (h.readFar s).farReq = (g.readFar s).farReq ∧ (h.readFar s).farBridged = (g.readFar s).farBridged ∧
    (h.readFar s).sigLost = (g.readFar s).sigLost := by
  by_cases hk : g.kind = .uni
  · rw [readFar_uni hk, readFar_uni (hkind.trans hk)]
    exact ⟨rfl, rfl, rfl⟩
  · have hk' : h.kind ≠ .uni := hkind ▸ hk
    have htag : s.tcd.decs[h.prot].tag = s.tcd.decs[g.prot].tag := congrArg (fun p : Port => s.tcd.decs[p].tag) hprot
    by_cases htrust : ∃ t, s.tcd.decs[g.prot].tag = some t ∧ Trusts s g.prot t
    · obtain ⟨t, ht, htrust⟩ := htrust
      rw [readFar_trusted hk ht htrust, readFar_trusted hk' (htag.trans ht) (hprot ▸ htrust)]
      exact ⟨rfl, rfl, rfl⟩
    · have hlost : ∀ t, s.tcd.decs[g.prot].tag = some t → ¬Trusts s g.prot t := fun t ht htr => htrust ⟨t, ht, htr⟩
      rw [readFar_lost hk hlost, readFar_lost hk' fun t ht htr => hlost t (htag.symm.trans ht) (hprot ▸ htr)]
      exact ⟨rfl, rfl, rfl⟩

section
variable (s : State) (gi : GroupIx) (d : GroupDef)

theorem setUp_same : SameBase (startedGroup s d) (setUpGroup s gi d) := endedGroup_same s gi _ _

theorem setUp_defines : Defines d (setUpGroup s gi d) := by
  obtain ⟨b, sel, ms, w, o, fr, fb, sl, heq⟩ := started_eq s d
  refine (setUp_same s gi d).defines ?_
  rw [heq]
  exact ⟨rfl, rfl, rfl, rfl, rfl, rfl, rfl⟩

theorem setUp_commands : (setUpGroup s gi d).lockout = false ∧ (setUpGroup s gi d).force = none ∧
    (setUpGroup s gi d).manual = none := by
  obtain ⟨b, sel, ms, w, o, fr, fb, sl, heq⟩ := started_eq s d
  refine ⟨(setUp_same s gi d).lockout.trans ?_, (setUp_same s gi d).force.trans ?_, endedGroup_noManual ?_⟩ <;> rw [heq] <;> rfl

theorem setUp_far : ((setUpGroup s gi d).readFar s).farReq = (setUpGroup s gi d).farReq ∧
    ((setUpGroup s gi d).readFar s).farBridged = (setUpGroup s gi d).farBridged ∧
    ((setUpGroup s gi d).readFar s).sigLost = (setUpGroup s gi d).sigLost := by
  obtain ⟨hreq, hbridged, hlost⟩ := (setUp_same s gi d).far
  obtain ⟨hkind, hprot, _⟩ := setUp_defines s gi d
  obtain ⟨ms, w, o, htaken⟩ := takenMembers_moved s (d.adopt s.prc.frozen) (d.work.length + 1)
  obtain ⟨b, sel, w0, o0, hadopt⟩ := adopt_eq d s.prc.frozen
  have hbefore : (takenMembers s (d.adopt s.prc.frozen) (d.work.length + 1)).kind = d.kind ∧
      (takenMembers s (d.adopt s.prc.frozen) (d.work.length + 1)).prot = d.prot := by
    rw [htaken, hadopt]
    exact ⟨rfl, rfl⟩
  rw [hreq, hbridged, hlost]
  exact readFar_congr s (hkind.trans hbefore.1.symm) (hprot.trans hbefore.2.symm)

/-! ### The members' records (R63) -/

theorem fresh_idle (m : Nat) : d.fresh.mon m = .idle := by
  unfold Group.mon
  split
  · exact Vector.getElem_replicate _
  · rfl

theorem adopt_idle (frozen : Vector (Option ProtOut) 64) (m : Nat) : (d.adopt frozen).mon m = .idle := by
  obtain ⟨b, sel, w, o, heq⟩ := adopt_eq d frozen
  rw [heq]
  exact fresh_idle d m

theorem readFar_mon (g : Group) (m : Nat) : (g.readFar s).mon m = g.mon m := by
  obtain ⟨r, b, l, heq⟩ := readFar_eq s g
  rw [heq]
  rfl

theorem memberMon_adopt (frozen : Vector (Option ProtOut) 64) (m : Nat) :
    memberMon s (d.adopt frozen) m = memberMon s d.fresh m := by
  obtain ⟨b, sel, w, o, heq⟩ := adopt_eq d frozen
  rw [heq]
  rfl

variable {d} (hn : d.work.length ≤ 6)
include hn

theorem started_mon (m : Nat) : (startedGroup s d).mon m = if m ≤ d.work.length then memberMon s d.fresh m else .idle := by
  rw [startedGroup, readFar_mon, takenMembers_mon s _ (adopt_idle d s.prc.frozen) (by omega), memberMon_adopt]
  simp only [Nat.lt_succ_iff]

theorem setUp_mon {m : Nat} (hm : m ≤ d.work.length) : (setUpGroup s gi d).mon m = memberMon s d.fresh m := by
  rw [(setUp_same s gi d).mon, started_mon s hn, if_pos hm]

omit hn in
theorem fresh_portOf {m : Nat} {p : Port} (h : (d.prot :: d.work)[m]? = some p) : d.fresh.portOf m = some p := portOf_at h

omit hn in
/-- R63: each member's port as it stands. -/
theorem memberMon_said {m : Nat} {p : Port} (hp : (d.prot :: d.work)[m]? = some p) :
    let st := s.pmon.ports[p].handed
    let applicable : Bool := st.sf || (decide (m ≠ 0) && d.degSwitch && decide (st = .degrade))
    (s.cbc.ports[p].hold ≠ none → memberMon s d.fresh m = { timer := none, raised := none, held := true }) ∧
    (s.cbc.ports[p].hold = none → memberMon s d.fresh m = {
      held := false
      timer := if applicable = true ∧ d.holdOff ≠ 0 then some (d.holdOff * 4) else none
      raised := if applicable = true ∧ d.holdOff = 0 then some (if st.sf then .fail else .degrade) else none }) := by
  intro st applicable
  have happ : d.fresh.applicable m st = applicable := by
    have hsd : st.sd = decide (st = .degrade) := Bool.eq_iff_iff.2 ((sd_iff st).trans decide_eq_true_iff.symm)
    simp only [Group.applicable, hsd]
    rfl
  unfold memberMon
  simp only [fresh_portOf hp]
  refine ⟨fun hheld => if_pos (Option.isSome_iff_ne_none.2 hheld), fun hfree => ?_⟩
  rw [hfree]
  simp only [Option.isSome_none, Bool.false_eq_true, if_false]
  have hst : s.pmon.ports[p].handed = st := rfl
  rw [hst, happ]
  have hoff : d.fresh.holdOff = d.holdOff := rfl
  rw [hoff]
  cases happlicable : applicable with
  | false => simp [Mon.idle]
  | true =>
    have hraised : raisedBy d.fresh m st = some (if st.sf then .fail else .degrade) := by
      unfold raisedBy
      rw [happ, happlicable]
      cases st.sf <;> rfl
    by_cases hzero : d.holdOff = 0
    · simp [hzero, hraised]
    · simp [hzero]

end

/-! ### The switch count of a set-up (R91) -/

section
variable (s : State) (gi : GroupIx) (d : GroupDef)

theorem setUp_switches : (setUpGroup s gi d).switches =
    if (d.adopt s.prc.frozen).selected = (setUpGroup s gi d).selected then 0 else 1 := by
  obtain ⟨b, sel, ms, w, o, fr, fb, sl, heq⟩ := started_eq s d
  have hzero : (startedGroup s d).switches = 0 := by rw [heq]; rfl
  unfold setUpGroup
  rw [endedGroup_eq, hzero]
  rfl

/-! ### A set-up over outputs that show no member served (R63, R77) -/

/-- R97: the frozen outputs of a working port show it served by the protection port. -/
def FrozenServed (p : Port) : Prop := ∃ o, s.prc.frozen[p] = some o ∧ o.partner = some d.prot ∧
  (if d.kind = .oneToN then o.bridge else o.select) = true

theorem frozenServed_iff (p : Port) : frozenServed s.prc.frozen d p = true ↔ FrozenServed s d p := by
  unfold frozenServed FrozenServed
  cases s.prc.frozen[p] with
  | none => simp
  | some o => simp

variable {d}

theorem adopt_none (h : ∀ p ∈ d.work, ¬FrozenServed s d p) : d.adopt s.prc.frozen = d.fresh := by
  have hnone : adopted s.prc.frozen d = none := by
    unfold adopted
    rw [Option.map_eq_none_iff, List.findIdx?_eq_none_iff]
    exact fun p hp => Bool.eq_false_iff.2 fun hs => h p hp ((frozenServed_iff s d p).1 hs)
  unfold GroupDef.adopt
  rw [hnone]

variable (hn : d.work.length ≤ 6)
include hn

/-- R63, R77: no wait, the selector's first move counted, and the members with a request at once in the list. -/
theorem setUp_unserved (h : ∀ p ∈ d.work, ¬FrozenServed s d p) :
    (setUpGroup s gi d).wait = none ∧
    (setUpGroup s gi d).switches = (if (setUpGroup s gi d).selected = 0 then 0 else 1) ∧
    (setUpGroup s gi d).order = ((List.range d.work.length).map (· + 1)).filter fun m =>
      ((setUpGroup s gi d).mon m).held || ((setUpGroup s gi d).mon m).raised.isSome := by
  have hadopt := adopt_none s h
  obtain ⟨b, sel, ms, w, o, fr, fb, sl, heq⟩ := started_eq s d
  obtain ⟨r, b', l, hfar⟩ := readFar_eq s (takenMembers s d.fresh (d.work.length + 1))
  have hstarted : startedGroup s d = { takenMembers s d.fresh (d.work.length + 1) with
      farReq := r, farBridged := b', sigLost := l } := by rw [startedGroup, hadopt, hfar]
  have hwait : (startedGroup s d).wait = none := by
    rw [hstarted]
    exact takenMembers_wait s _ (fresh_idle d) rfl (by omega)
  have horder : (startedGroup s d).order =
      (List.range (d.work.length + 1)).filter fun m => m != 0 && asks (memberMon s d.fresh m) := by
    rw [hstarted]
    exact takenMembers_order s _ (fresh_idle d) rfl (by omega)
  refine ⟨ended_noWait hwait, ?_, ?_⟩
  · rw [setUp_switches, hadopt]
    simp only [eq_comm (b := (setUpGroup s gi d).selected)]
    rfl
  · have hlist : (setUpGroup s gi d).order = (startedGroup s d).order :=
      endedGroup_idle_order s gi _ hwait (by rw [heq]; rfl)
    rw [hlist, horder, List.range_succ_eq_map, List.filter_cons]
    refine List.filter_congr fun m hm => ?_
    obtain ⟨k, hk, rfl⟩ := List.mem_map.1 hm
    rw [setUp_mon s gi hn (List.mem_range.1 hk)]
    rfl

end

end Sys2Proof.Proofs
end

