-- ==== Sys2Proof/Proofs/AdoptedGroups.lean ====
section
/-! A set-up over frozen outputs that show a member served: its wait is the one request (R97). -/

namespace Sys2Proof.Proofs

open Sys2Proof.Machine Sys2Proof.Safety Sys2Proof.Laws

/-! ### The group that is adopted (R97) -/

/-- R97: the group over outputs that show member `m` served, its selector as the outputs show it. -/
def adoptedGroup (d : GroupDef) (m : Nat) (sel : Bool) : Group :=
  { d.fresh with
    bridged := if d.kind = .oneToN then m else 1
    selected := if d.kind = .oneToN then (if sel then m else 0) else 1
    wait := some (d.fresh.waitFor m)
    order := [m] }

section
variable (s : State) {d : GroupDef} {m : Nat} {p : Port} {o : ProtOut} (hm : d.work[m]? = some p) (ho : s.prc.frozen[p] = some o)
  (hserved : FrozenServed s d p) (hfirst : ∀ q ∈ d.work.take m, ¬FrozenServed s d q)
include hm hserved hfirst

theorem adopted_first : adopted s.prc.frozen d = some (m + 1) := by
  obtain ⟨hlt, hget⟩ := List.getElem?_eq_some_iff.1 hm
  have hindex : d.work.findIdx? (frozenServed s.prc.frozen d) = some m := by
    refine List.findIdx?_eq_some_iff_getElem.2 ⟨hlt, ?_, fun j hj => ?_⟩
    · rw [hget]
      exact (frozenServed_iff s d p).2 hserved
    · rw [frozenServed_iff]
      exact hfirst _ (List.mem_take_iff_getElem.2 ⟨j, by omega, rfl⟩)
  rw [adopted, hindex]
  rfl

include ho

theorem adopt_first : d.adopt s.prc.frozen = adoptedGroup d (m + 1) o.select := by
  have hsel : frozenSelects s.prc.frozen d.work[m]? = o.select := by
    rw [hm]
    simp only [frozenSelects, ho]
  unfold GroupDef.adopt adoptedGroup
  simp only [adopted_first s hm hserved hfirst, Nat.add_sub_cancel, hsel]

end

/-! ### Members that have no request at set-up -/

section
variable (s : State) (d : GroupDef)

/-- R63: no member is held, and none shows an applicable state. -/
def NothingAsked : Prop := ∀ k q, (d.prot :: d.work)[k]? = some q →
  s.cbc.ports[q].hold = none ∧ d.fresh.applicable k s.pmon.ports[q].handed = false

variable {s d} (hcalm : NothingAsked s d)
include hcalm

theorem takeMember_calm {g : Group} (hg : Moved d.fresh g ∨ ∃ m sel, g = adoptedGroup d m sel) (k : Nat) (hk : k ≤ d.work.length) :
    g.takeMember s k = g := by
  have hlt : k < (d.prot :: d.work).length := by
    rw [List.length_cons]
    omega
  have hget : (d.prot :: d.work)[k]? = some (d.prot :: d.work)[k] := List.getElem?_eq_getElem hlt
  obtain ⟨hfree, happ⟩ := hcalm k _ hget
  have hsame : g.portOf k = d.fresh.portOf k ∧ ∀ st, g.applicable k st = d.fresh.applicable k st := by
    obtain ⟨_, _, _, rfl⟩ | ⟨_, _, rfl⟩ := hg <;> exact ⟨rfl, fun _ => rfl⟩
  unfold Group.takeMember portStateNow
  simp only [hsame.1, fresh_portOf hget, hsame.2, hfree, happ, Option.isSome_none, Bool.false_eq_true, if_false]

theorem takenMembers_calm (m : Nat) (sel : Bool) {k : Nat} (hk : k ≤ d.work.length + 1) :
    takenMembers s (adoptedGroup d m sel) k = adoptedGroup d m sel := by
  induction k with
  | zero => rfl
  | succ k ih => rw [takenMembers_succ, ih (by omega), takeMember_calm hcalm (.inr ⟨m, sel, rfl⟩) k (by omega)]

end

/-! ### The end of the set-up (R75, R78, R83 to R89) -/

theorem memberRequests_waitOnly {g : Group} (h : Unrequested g) {w : Wait} (hw : g.wait = some w) :
    g.memberRequests w.mem = [⟨w.ord, w.mem⟩] := by
  obtain ⟨_, hforce, hmanual, hmons⟩ := h
  obtain ⟨hheld, hraised⟩ := hmons w.mem
  unfold Group.memberRequests
  simp [hforce, hmanual, hheld, hraised, hw]

theorem wait_ord_pos (w : Wait) : 0 < w.ord := by cases w <;> simp [Wait.ord, ordRestoreWait, ordStay]

theorem formTop_waitOnly {g : Group} (h : Unrequested g) {w : Wait} (hw : g.wait = some w) (horder : g.order = [w.mem]) :
    g.formTop = ⟨w.ord, w.mem⟩ := by
  have hown : g.ownRequest w.mem = ⟨w.ord, w.mem⟩ := by
    unfold Group.ownRequest
    rw [memberRequests_waitOnly h hw]
    rfl
  have hpos := wait_ord_pos w
  obtain ⟨hlock, _, _, hmons⟩ := h
  obtain ⟨hheld, hraised⟩ := hmons 0
  rw [formTop_order (protRequests_nil hlock hheld (by rw [hraised]; nofun)), horder]
  simp only [List.foldl_cons, List.foldl_nil, better, hown]
  exact if_pos hpos

/-- R83: no far request stands against the top local request. -/
theorem arbitrate_alone (kind : GroupKind) {top : Req} (h : 0 < top.ord) : (arbitrate kind top ⟨0, 0⟩).1 = top := by
  have hne : top ≠ ⟨0, 0⟩ := fun heq => by
    rw [heq] at h
    exact absurd h (by decide)
  unfold arbitrate
  by_cases hk : kind = .uni
  · rw [if_pos hk]
  · rw [if_neg hk, if_neg hne, if_pos h]

/-- R85 to R89: a settled group whose one request is the wait of member `m`, and which no far request reaches. -/
theorem settled_waitOnly {h : Group} (hset : groupSettled h = true) (hun : Unrequested h) {w : Wait} (hw : h.wait = some w)
    (horder : h.order = [w.mem]) (hfar : h.farReq = ⟨0, 0⟩) (hlost : h.kind ≠ .uni → h.sigLost = true)
    (hmem : w.mem ≠ 0) (hone : h.kind ≠ .oneToN → w.mem = 1) :
    h.top = ⟨w.ord, w.mem⟩ ∧ h.win = h.top ∧ h.bridged = w.mem ∧ h.selected = w.mem := by
  obtain ⟨⟨htop, hwin, _⟩, hplaced, _⟩ := (groupSettled_iff h).1 hset
  have htop : h.top = ⟨w.ord, w.mem⟩ := htop.trans (formTop_waitOnly hun hw horder)
  have hpos := wait_ord_pos w
  have htaken : h.farTaken = ⟨0, 0⟩ := (farTaken_said h).2.2 (.inl (by rw [hfar]; decide))
  have hwon : h.win = h.top := by
    have hfst : h.win = (arbitrate h.kind h.top h.farTaken).1 := congrArg Prod.fst hwin
    rw [hfst, htaken, arbitrate_alone]
    rw [htop]
    exact hpos
  have hord : h.win.ord ≠ 0 := by
    rw [hwon, htop]
    exact hpos.ne'
  have hmember : h.win.mem = w.mem := by rw [hwon, htop]
  refine ⟨htop, hwon, ?_⟩
  unfold Placed at hplaced
  cases hk : h.kind with
  | oneToN =>
    simp only [hk] at hplaced
    obtain ⟨hb, hsel⟩ := hplaced
    rw [if_neg hord, hmember] at hb
    rw [if_pos (.inl (hlost (by rw [hk]; nofun))), hb] at hsel
    exact ⟨hb, hsel⟩
  | uni | bi =>
    simp only [hk] at hplaced
    obtain ⟨hb, hsel⟩ := hplaced
    rw [hmember, if_neg (not_or.2 ⟨hmem, hord⟩)] at hsel
    have hone := hone (by rw [hk]; nofun)
    exact ⟨hb.trans hone.symm, hsel.trans hone.symm⟩

section
variable (s : State) (gi : GroupIx) {d : GroupDef} {m : Nat} {p : Port} {o : ProtOut} (hm : d.work[m]? = some p)
  (ho : s.prc.frozen[p] = some o) (hserved : FrozenServed s d p) (hfirst : ∀ q ∈ d.work.take m, ¬FrozenServed s d q)
  (hcalm : NothingAsked s d) (htag : d.kind ≠ .uni → s.tcd.decs[d.prot].tag = none)
include hm ho hserved hfirst hcalm htag

theorem started_adopted : ∃ sl, startedGroup s d =
    { adoptedGroup d (m + 1) o.select with farReq := ⟨0, 0⟩, farBridged := 0, sigLost := sl } ∧ (d.kind ≠ .uni → sl = true) := by
  unfold startedGroup
  rw [adopt_first s hm ho hserved hfirst, takenMembers_calm hcalm (m + 1) o.select (Nat.le_refl _)]
  by_cases hk : d.kind = .uni
  · exact ⟨false, readFar_uni hk, fun h => absurd hk h⟩
  · refine ⟨true, readFar_lost hk fun t ht => ?_, fun _ => rfl⟩
    have hnone : s.tcd.decs[d.prot].tag = some t := ht
    rw [htag hk] at hnone
    cases hnone

/-- R97: over outputs that show a member served, the group starts with that member's wait as its one request. -/
theorem setUp_served (hone : d.kind ≠ .oneToN → d.work.length = 1) :
    let h := setUpGroup s gi d
    h.wait = some (if d.revertive then .restore (m + 1) (some (d.wtr * 4000)) else .stay (m + 1)) ∧
    h.order = [m + 1] ∧ h.top = ⟨if d.revertive then ordRestoreWait else ordStay, m + 1⟩ ∧ h.win = h.top ∧
    h.bridged = m + 1 ∧ h.selected = m + 1 ∧
    h.switches = (if d.kind = .oneToN ∧ o.select = false then 1 else 0) := by
  intro h
  obtain ⟨sl, hstart, hlost⟩ := started_adopted s hm ho hserved hfirst hcalm htag
  have hsame : SameBase (startedGroup s d) h := setUp_same s gi d
  have hset : groupSettled h = true := endedGroup_settled s gi _ _
  obtain ⟨hkind, _⟩ := setUp_defines s gi d
  obtain ⟨hlock, hforce, hmanual⟩ := setUp_commands s gi d
  have hmons (j : Nat) : (startedGroup s d).mon j = .idle := by
    rw [hstart]
    exact fresh_idle d j
  have hcalmStart : Unrequested (startedGroup s d) := by
    refine ⟨?_, ?_, ?_, fun j => ?_⟩
    · rw [hstart]; rfl
    · rw [hstart]; rfl
    · rw [hstart]; rfl
    · rw [hmons j]
      exact ⟨rfl, rfl⟩
  have hcalmEnd : Unrequested h := ⟨hlock, hforce, hmanual, fun j => by
    rw [hsame.mon, hmons j]
    exact ⟨rfl, rfl⟩⟩
  have hwaitStart : (startedGroup s d).wait = some (d.fresh.waitFor (m + 1)) := by rw [hstart]; rfl
  have hwait : h.wait = some (d.fresh.waitFor (m + 1)) := (ended_wait hcalmStart).trans hwaitStart
  have hmem : (d.fresh.waitFor (m + 1)).mem = m + 1 := by
    unfold Group.waitFor
    split <;> rfl
  have horder : h.order = [m + 1] := by
    have hformed := formedGroup_calm gi (g := startedGroup s d)
      (fun w hw => above_unrequested hcalmStart fun v hv => by rw [Option.some.inj (hw.symm.trans hv)]) hcalmStart.2.2.1
    obtain ⟨b, sel, c, hmove⟩ := moveSelector_eq (formedGroup gi (startedGroup s d))
    have hkeep : h.order = (formedGroup gi (startedGroup s d)).order := by
      change (endedGroup s gi _ _).order = _
      rw [endedGroup_eq, settle_fst, hmove]
      rfl
    rw [hkeep, hformed]
    change (startedGroup s d).order = _
    rw [hstart]
    rfl
  obtain ⟨hfarReq, _, hsig⟩ := hsame.far
  have hfirstOnly : d.kind ≠ .oneToN → m = 0 := fun hk => by
    have hlen := hone hk
    obtain ⟨hlt, _⟩ := List.getElem?_eq_some_iff.1 hm
    omega
  obtain ⟨htop, hwin, hb, hsel⟩ := settled_waitOnly hset hcalmEnd hwait (by rw [hmem, horder]) (by rw [hfarReq, hstart])
    (fun hk => by rw [hsig, hstart]; exact hlost (hkind ▸ hk)) (by rw [hmem]; omega)
    (fun hk => by rw [hmem, hfirstOnly (hkind ▸ hk)])
  rw [hmem] at htop hb hsel
  refine ⟨hwait, horder, ?_, hwin, hb, hsel, ?_⟩
  · rw [htop]
    unfold Group.waitFor
    change (⟨(if d.revertive = true then Wait.restore _ _ else Wait.stay _).ord, _⟩ : Req) = _
    split <;> rfl
  · change (setUpGroup s gi d).switches = _
    rw [setUp_switches, adopt_first s hm ho hserved hfirst]
    change (if (if d.kind = .oneToN then (if o.select = true then m + 1 else 0) else 1) = h.selected then 0 else 1) = _
    rw [hsel]
    by_cases hk : d.kind = .oneToN
    · cases o.select <;> simp [hk]
    · simp [hk, hfirstOnly hk]

end

end Sys2Proof.Proofs
end

