-- ==== Sys2Proof/Proofs/GroupReloads.lean ====
section
/-! An entry that keeps its group: what the flags and lengths it changes do (R64). -/

namespace Sys2Proof.Proofs

open Sys2Proof.Machine Sys2Proof.Safety Sys2Proof.Laws

/-! ### Monitor records over a list of members -/

/-- A change of one member's record at a time, over members that are taken once each. -/
theorem foldl_mons {base : Group} {f : Group → Nat → Group} {new : Nat → Mon → Mon}
    (hmoved : ∀ g m, Moved base g → Moved base (f g m))
    (hmon : ∀ g m j, Moved base g → m < 7 → (f g m).mon j = if j = m then new m (g.mon m) else g.mon j)
    {ms : List Nat} (hnd : ms.Nodup) (hlt : ∀ m ∈ ms, m < 7) {g : Group} (hg : Moved base g) (j : Nat) :
    (ms.foldl f g).mon j = if j ∈ ms then new j (g.mon j) else g.mon j := by
  induction ms generalizing g with
  | nil => rfl
  | cons m ms ih =>
    obtain ⟨hnot, hnd⟩ := List.nodup_cons.1 hnd
    have hm := hlt m List.mem_cons_self
    rw [List.foldl_cons, ih hnd (fun k hk => hlt k (List.mem_cons_of_mem _ hk)) (hmoved g m hg), hmon g m j hg hm]
    by_cases hj : j = m
    · rw [if_pos hj, if_neg (hj ▸ hnot), if_pos (List.mem_cons.2 (.inl hj)), hj]
    · simp only [List.mem_cons, hj, false_or, if_false]

theorem workingNumbers_nodup (g : Group) : g.workingNumbers.Nodup := List.Nodup.filter _ (by decide)

theorem workingNumbers_lt {g : Group} {m : Nat} (h : m ∈ g.workingNumbers) : 1 ≤ m ∧ m < 7 := by
  have hmem : m ∈ [1, 2, 3, 4, 5, 6] := List.mem_of_mem_filter h
  simp only [List.mem_cons, List.not_mem_nil, or_false] at hmem
  omega

/-! ### Degrade switching turned on or off (R64) -/

/-- R64: a working member as degrade switching is turned on. -/
def degradeMember (s : State) (g : Group) (m : Nat) : Group :=
  if (g.stateOf s m).sd && !(g.mon m).held then g.appear m (g.stateOf s m) else g

/-- R64: the record of a working member as degrade switching is turned on. -/
def degradedMon (s : State) (g : Group) (m : Nat) (x : Mon) : Mon :=
  if (g.stateOf s m).sd = true ∧ x.held = false ∧ x.timer = none ∧ x.raised = none then
    (if g.holdOff = 0 then { x with raised := raisedBy g m (g.stateOf s m) } else { x with timer := some (g.holdOff * 4) })
  else x

theorem degradeOn_eq (s : State) (g : Group) : g.degradeOn s = g.workingNumbers.foldl (degradeMember s) g := rfl

theorem degradeMember_moved (s : State) (base g : Group) (m : Nat) (hg : Moved base g) : Moved base (degradeMember s g m) := by
  unfold degradeMember
  split
  · exact hg.trans (appear_moved g _)
  · exact hg

theorem degradedMon_moved {g h : Group} (hgh : Moved g h) (s : State) (m : Nat) (x : Mon) :
    degradedMon s h m x = degradedMon s g m x := by
  obtain ⟨_, _, _, rfl⟩ := hgh
  rfl

theorem degradeMember_mon (s : State) (base g : Group) (m j : Nat) (hg : Moved base g) (hm : m < 7) :
    (degradeMember s g m).mon j = if j = m then degradedMon s base m (g.mon m) else g.mon j := by
  have hself (h : degradedMon s g m (g.mon m) = g.mon m) :
      g.mon j = if j = m then degradedMon s g m (g.mon m) else g.mon j := by
    split
    · next hj => rw [hj, h]
    · rfl
  rw [← degradedMon_moved hg]
  unfold degradeMember
  by_cases htest : ((g.stateOf s m).sd && !(g.mon m).held) = true
  · obtain ⟨hsd, hheld⟩ : (g.stateOf s m).sd = true ∧ (g.mon m).held = false := by simpa using htest
    rw [if_pos htest]
    by_cases hfree : (g.mon m).timer = none ∧ (g.mon m).raised = none
    · obtain ⟨ht, hr⟩ := hfree
      have hnew : degradedMon s g m (g.mon m) = _ := if_pos ⟨hsd, hheld, ht, hr⟩
      rw [hnew, appear_mon g _ hm hr ht]
    · rw [appear_none g _ (by tauto)]
      exact hself (if_neg fun ⟨_, _, ht, hr⟩ => hfree ⟨ht, hr⟩)
  · rw [if_neg htest]
    exact hself (if_neg fun ⟨hsd, hheld, _⟩ => htest (by rw [hsd, hheld]; rfl))

theorem degradeOn_moved (s : State) (g : Group) : Moved g (g.degradeOn s) := by
  rw [degradeOn_eq]
  exact foldl_keeps (P := Moved g) (fun k m hk => degradeMember_moved s g k m hk) _ (.refl g)

theorem degradeOn_mon (s : State) (g : Group) (j : Nat) :
    (g.degradeOn s).mon j = if j ∈ g.workingNumbers then degradedMon s g j (g.mon j) else g.mon j := by
  rw [degradeOn_eq]
  exact foldl_mons (degradeMember_moved s g) (degradeMember_mon s g) (workingNumbers_nodup g)
    (fun m hm => (workingNumbers_lt hm).2) (.refl g) j

/-- R64: the raised request of a member taken away. -/
def unraise (g : Group) (m : Nat) : Group := g.putMon m { g.mon m with raised := none }

/-- The working members with a raised DEGRADE. -/
def degradedMembers (g : Group) : List Nat := g.workingNumbers.filter fun m => decide ((g.mon m).raised = some .degrade)

theorem degradeOff_eq (g : Group) :
    g.degradeOff = ((degradedMembers g).foldl unraise g).loseAll ((degradedMembers g).map fun m => (m, ordDegrade)) := rfl

theorem loseAll_moved (g : Group) (ls : List (Nat × Nat)) : Moved g (g.loseAll ls) :=
  foldl_keeps (P := Moved g) (fun k l hk => hk.trans (lose_moved k l.1 l.2)) ls (.refl g)

theorem loseAll_mon (g : Group) (ls : List (Nat × Nat)) (j : Nat) : (g.loseAll ls).mon j = g.mon j :=
  foldl_same (f := fun (k : Group) (l : Nat × Nat) => k.lose l.1 l.2) (v := fun k : Group => k.mon j) (fun k l => lose_mon k l.1 l.2 j) ls g

theorem degradeOff_moved (g : Group) : Moved g g.degradeOff := by
  rw [degradeOff_eq]
  exact (foldl_keeps (P := Moved g) (fun k m hk => hk.trans (putMon_moved k m _)) (degradedMembers g) (.refl g)).trans
    (loseAll_moved _ _)

theorem degradeOff_mon (g : Group) (j : Nat) :
    g.degradeOff.mon j = if j ∈ degradedMembers g then { g.mon j with raised := none } else g.mon j := by
  rw [degradeOff_eq, loseAll_mon]
  exact foldl_mons (base := g) (f := unraise) (new := fun _ x => { x with raised := none })
    (fun k m hk => hk.trans (putMon_moved k m _)) (fun k m i _ hm => putMon_mon k m hm _ i)
    ((workingNumbers_nodup g).filter _) (fun m hm => (workingNumbers_lt (List.mem_of_mem_filter hm)).2) (.refl g) j

/-! ### The reload (R64) -/

/-- R64: the wait as a load of the revertive flag leaves it. -/
def revertedWait (g : Group) (rev : Bool) : Option Wait :=
  if g.revertive = rev then g.wait
  else match g.wait with
    | some (.restore m n) => if rev then some (.restore m n) else some (.stay m)
    | some (.stay m) =>
      if rev then some (.restore m (if (g.mon m).timer = none then some (g.wtr * 4000) else none)) else some (.stay m)
    | none => none

theorem setRevertive_eq (g : Group) (rev : Bool) :
    g.setRevertive rev = { g with revertive := rev, wait := revertedWait g rev } := by
  unfold Group.setRevertive revertedWait
  by_cases h : g.revertive = rev
  · subst h
    simp
  · simp only [if_neg h]
    cases hw : g.wait with
    | none => simp only
    | some w =>
      cases w with
      | restore m n => cases rev <;> simp
      | stay m => cases rev <;> simp [Group.wtrLength, perSecond]

/-- R64: a kept group with the lengths and the flags of the entry. -/
def reflagged (g : Group) (d : GroupDef) : Group :=
  { g with
    holdOff := d.holdOff, wtr := d.wtr, revertive := d.revertive, degSwitch := d.degSwitch
    wait := revertedWait { g with holdOff := d.holdOff, wtr := d.wtr } d.revertive }

section
variable (s : State) (g : Group) (d : GroupDef)

theorem reload_eq : g.reload s d = if (!g.degSwitch && d.degSwitch) = true then (reflagged g d).degradeOn s
    else if (g.degSwitch && !d.degSwitch) = true then (reflagged g d).degradeOff else reflagged g d := by
  unfold Group.reload
  rw [setRevertive_eq]
  rfl

theorem reload_moved : Moved (reflagged g d) (g.reload s d) := by
  rw [reload_eq]
  split
  · exact degradeOn_moved s _
  · split
    · exact degradeOff_moved _
    · exact .refl _

theorem reload_same_deg (h : d.degSwitch = g.degSwitch) : g.reload s d = reflagged g d := by
  rw [reload_eq, h]
  cases g.degSwitch <;> rfl

theorem reload_mon_zero : (g.reload s d).mon 0 = g.mon 0 := by
  have hnot : 0 ∉ (reflagged g d).workingNumbers := fun h => absurd (workingNumbers_lt h).1 (by decide)
  have hsame : (reflagged g d).mon 0 = g.mon 0 := rfl
  rw [reload_eq]
  split
  · rw [degradeOn_mon, if_neg hnot, hsame]
  · split
    · rw [degradeOff_mon, if_neg fun h : 0 ∈ degradedMembers _ => hnot (List.mem_of_mem_filter h), hsame]
    · exact hsame

variable {g d} {m : Nat} {p : Port}

/-- R64: degrade switching turned on at a working member. -/
theorem reload_mon_on (hold : g.degSwitch = false) (hnew : d.degSwitch = true) (hsix : g.work.length ≤ 6)
    (hm : g.work[m]? = some p) : (g.reload s d).mon (m + 1) =
      if s.pmon.ports[p].handed = .degrade ∧ (g.mon (m + 1)).held = false ∧ (g.mon (m + 1)).timer = none ∧
          (g.mon (m + 1)).raised = none then
        (if d.holdOff = 0 then { g.mon (m + 1) with raised := some .degrade }
          else { g.mon (m + 1) with timer := some (d.holdOff * 4) })
      else g.mon (m + 1) := by
  have hlt := (List.getElem?_eq_some_iff.1 hm).1
  have hmem : m + 1 ∈ (reflagged g d).workingNumbers := (mem_workingNumbers (g := reflagged g d) hsix).2 ⟨by omega, hlt⟩
  have hst : (reflagged g d).stateOf s (m + 1) = s.pmon.ports[p].handed := stateOf_working (g := reflagged g d) hm
  rw [reload_eq, hold, hnew, if_pos (show (!false && true) = true from rfl), degradeOn_mon, if_pos hmem]
  unfold degradedMon
  rw [hst]
  simp only [sd_iff]
  by_cases hdeg : s.pmon.ports[p].handed = .degrade
  · have hraise : raisedBy (reflagged g d) (m + 1) .degrade = some .degrade := by
      simp [raisedBy, Group.applicable, PortState.sf, PortState.sd, reflagged, hnew]
    rw [hdeg, hraise]
    rfl
  · rw [if_neg fun h => hdeg h.1, if_neg fun h => hdeg h.1]
    rfl

/-- R64: degrade switching turned off at a working member. -/
theorem reload_mon_off (hold : g.degSwitch = true) (hnew : d.degSwitch = false) (hsix : g.work.length ≤ 6)
    (hm : g.work[m]? = some p) : (g.reload s d).mon (m + 1) =
      if (g.mon (m + 1)).raised = some .degrade then { g.mon (m + 1) with raised := none } else g.mon (m + 1) := by
  have hlt := (List.getElem?_eq_some_iff.1 hm).1
  have hmem : m + 1 ∈ (reflagged g d).workingNumbers := (mem_workingNumbers (g := reflagged g d) hsix).2 ⟨by omega, hlt⟩
  have hraised : m + 1 ∈ degradedMembers (reflagged g d) ↔ (g.mon (m + 1)).raised = some .degrade := by
    rw [degradedMembers, List.mem_filter, decide_eq_true_eq]
    exact and_iff_right hmem
  rw [reload_eq, hold, hnew, if_neg (by decide), if_pos (show (true && !false) = true from rfl), degradeOff_mon]
  simp only [hraised]
  rfl

end

/-! ### The end of the event (R73, R76, R85 to R89) -/

/-- What stands in a settled group's place is decided by its kind, its winning request and its far bridged member. -/
theorem placed_unique {g h : Group} (hg : Placed g) (hh : Placed h) (hkind : h.kind = g.kind) (hwin : h.win = g.win)
    (hlost : h.sigLost = g.sigLost) (hfar : h.farBridgedTaken = g.farBridgedTaken) :
    h.bridged = g.bridged ∧ h.selected = g.selected := by
  unfold Placed at hg hh
  rw [hkind] at hh
  cases hk : g.kind with
  | uni | bi =>
    simp only [hk] at hg hh
    rw [hg.1, hg.2, hh.1, hh.2, hwin]
    exact ⟨rfl, rfl⟩
  | oneToN =>
    simp only [hk] at hg hh
    have hb : h.bridged = g.bridged := by rw [hg.1, hh.1, hwin]
    refine ⟨hb, ?_⟩
    rw [hg.2, hh.2, hlost, hfar, hb]

/-- R76: a wait that nothing stands above. -/
theorem above_unasked {g : Group} (h : ¬Requested g) {n : Nat} (hw : ∀ w, g.wait = some w → w.ord ≤ n) : g.above n = false := by
  obtain ⟨hlock, hheld, hraised, hmembers⟩ : g.lockout = false ∧ (g.mon 0).held = false ∧ (g.mon 0).raised ≠ some .fail ∧
      ∀ j, 1 ≤ j → j ≤ 6 → g.force ≠ some j ∧ g.manual ≠ some j ∧ (g.mon j).held = false ∧ (g.mon j).raised = none := by
    refine ⟨?_, ?_, fun hr => h (.inr (.inr (.inl hr))), fun j hone hsix => ⟨?_, ?_, ?_, ?_⟩⟩
    · exact Bool.eq_false_iff.2 fun hl => h (.inl hl)
    · exact Bool.eq_false_iff.2 fun hh => h (.inr (.inl hh))
    · exact fun hf => h (.inr (.inr (.inr ⟨j, hone, hsix, .inl hf⟩)))
    · exact fun hm => h (.inr (.inr (.inr ⟨j, hone, hsix, .inr (.inl hm)⟩)))
    · exact Bool.eq_false_iff.2 fun hh => h (.inr (.inr (.inr ⟨j, hone, hsix, .inr (.inr (.inl hh))⟩)))
    · exact not_not.1 fun hr => h (.inr (.inr (.inr ⟨j, hone, hsix, .inr (.inr (.inr hr))⟩)))
  have hmember (m : Nat) (hone : 1 ≤ m) (hsix : m ≤ 6) : (g.memberRequests m).any (fun r => decide (n < r.ord)) = false := by
    obtain ⟨hforce, hmanual, hmheld, hmraised⟩ := hmembers m hone hsix
    unfold Group.memberRequests
    rw [if_neg hforce, if_neg hmanual, hmheld, hmraised]
    cases hwait : g.wait with
    | none => rfl
    | some w =>
      by_cases hmem : w.mem = m
      · simpa [hmem] using hw w hwait
      · simp [hmem]
  unfold Group.above Group.localRequests
  rw [protRequests_nil hlock hheld hraised, List.nil_append, List.any_flatMap, List.any_eq_false]
  intro m hm
  have hrange : m ∈ [1, 2, 3, 4, 5, 6] := hm
  simp only [List.mem_cons, List.not_mem_nil, or_false] at hrange
  rw [hmember m (by omega) (by omega)]
  exact Bool.false_ne_true

theorem groupOk_wait {g : Group} (hok : groupOk g = true) {w : Wait} (hw : g.wait = some w) : g.above w.ord = false := by
  unfold groupOk at hok
  simp only [Bool.and_eq_true] at hok
  obtain ⟨_, hwaits⟩ := hok
  rw [hw] at hwaits
  simpa using hwaits

theorem groupOk_six {g : Group} (hok : groupOk g = true) : g.work.length ≤ 6 := by
  unfold groupOk at hok
  simp only [Bool.and_eq_true] at hok
  obtain ⟨⟨⟨hkinds, _⟩, _⟩, _⟩ := hok
  cases hk : g.kind with
  | uni | bi =>
    simp only [hk, Bool.and_eq_true, beq_iff_eq] at hkinds
    have hone : g.work.length = 1 := hkinds.1.1
    omega
  | oneToN =>
    simp only [hk, Bool.and_eq_true, decide_eq_true_eq] at hkinds
    exact hkinds.1.1.2

section
variable {s : State} {gi : GroupIx} {g : Group} {d : GroupDef}

/-- R64: an entry that changes no flag keeps the state of the group. -/
theorem reload_unflagged (hok : groupOk g = true) (hset : groupSettled g = true) (hrev : d.revertive = g.revertive)
    (hdeg : d.degSwitch = g.degSwitch) :
    let h := endedGroup s gi g (g.reload s d)
    h.mons = g.mons ∧ h.wait = g.wait ∧ h.order = g.order ∧ h.manual = g.manual ∧ h.top = g.top ∧ h.win = g.win ∧
    h.bridged = g.bridged ∧ h.selected = g.selected ∧ h.switches = g.switches := by
  intro h
  obtain ⟨⟨htop, hwin, hmanual⟩, hplaced, _⟩ := (groupSettled_iff g).1 hset
  have hreload : g.reload s d = { g with holdOff := d.holdOff, wtr := d.wtr } := by
    rw [reload_same_deg s g d hdeg]
    unfold reflagged revertedWait
    rw [if_pos hrev.symm, hrev, hdeg]
  have hformed : formedGroup gi { g with holdOff := d.holdOff, wtr := d.wtr } = { g with holdOff := d.holdOff, wtr := d.wtr } :=
    formedGroup_settled gi ⟨htop, hwin, hmanual⟩ hok
  obtain ⟨b, sel, c, hmove⟩ := moveSelector_eq { g with holdOff := d.holdOff, wtr := d.wtr }
  obtain ⟨hb, hsel⟩ := placed_unique hplaced (placed_moveSelector { g with holdOff := d.holdOff, wtr := d.wtr })
    (by rw [hmove]) (by rw [hmove]) (by rw [hmove]) (by rw [hmove]; rfl)
  have hended : h = { ({ ({ g with holdOff := d.holdOff, wtr := d.wtr } : Group).moveSelector with
      sent := ({ g with holdOff := d.holdOff, wtr := d.wtr } : Group).moveSelector.sentFields }.judge s) with
      switches := if g.selected = ({ g with holdOff := d.holdOff, wtr := d.wtr } : Group).moveSelector.selected then g.switches
        else if g.switches < 65535 then g.switches + 1 else 65535 } := by
    change endedGroup s gi g (g.reload s d) = _
    rw [hreload, endedGroup_eq, settle_fst, hformed]
    rfl
  rw [hsel, if_pos rfl] at hended
  refine ⟨?_, ?_, ?_, ?_, ?_, ?_, ?_, ?_, ?_⟩
  · rw [hended, hmove]; rfl
  · rw [hended, hmove]; rfl
  · rw [hended, hmove]; rfl
  · rw [hended, hmove]; rfl
  · rw [hended, hmove]; rfl
  · rw [hended, hmove]; rfl
  · rw [hended]; exact hb
  · rw [hended]; exact hsel
  · rw [hended]

/-- R64: a wait changed by the revertive flag stands. -/
theorem reflagged_wait (hok : groupOk g = true) (base : Group) {w w' : Wait} (hw : g.wait = some w)
    (hw' : (reflagged g d).wait = some w') : (endedGroup s gi base (reflagged g d)).wait = some w' := by
  have hnot : ¬Requested (reflagged g d) := fun hreq => by
    have habove := above_requested (g := g) hreq w
    rw [groupOk_wait hok hw] at habove
    cases habove
  rw [endedGroup_wait, if_neg, hw']
  rintro ⟨v, hv, habove⟩
  rw [above_unasked hnot fun u hu => by rw [Option.some.inj (hv.symm.trans hu)]] at habove
  cases habove

theorem reload_reverted (hok : groupOk g = true) (hrev : d.revertive ≠ g.revertive) (hdeg : d.degSwitch = g.degSwitch) :
    let h := endedGroup s gi g (g.reload s d)
    h.mons = g.mons ∧
    (∀ m n, d.revertive = false → g.wait = some (.restore m n) → h.wait = some (.stay m)) ∧
    ∀ m, d.revertive = true → g.wait = some (.stay m) →
      h.wait = some (.restore m (if (g.mon m).timer = none then some (d.wtr * 4000) else none)) := by
  intro h
  have hended : h = endedGroup s gi g (reflagged g d) := by rw [← reload_same_deg s g d hdeg]
  have hmoved : (reflagged g d).wait = match g.wait with
      | some (.restore m n) => if d.revertive then some (.restore m n) else some (.stay m)
      | some (.stay m) =>
        if d.revertive then some (.restore m (if (g.mon m).timer = none then some (d.wtr * 4000) else none))
        else some (.stay m)
      | none => none := if_neg fun heq => hrev heq.symm
  refine ⟨?_, fun m n hoff hw => ?_, fun m hon hw => ?_⟩
  · rw [hended, (endedGroup_same s gi g _).mons]
    rfl
  · rw [hended]
    refine reflagged_wait hok g hw ?_
    rw [hmoved, hw, hoff]
    rfl
  · rw [hended]
    refine reflagged_wait hok g hw ?_
    rw [hmoved, hw, hon]
    rfl

/-- R64: an entry that keeps its group. -/
theorem prcLoad_keeps (hg : s.prc.groups[gi] = some g) (hkeep : d.keeps g = true) :
    (prcLoad s gi (some d)).1.groups[gi] = some (endedGroup s gi g (g.reload s d)) ∧
    (∀ j, j ≠ gi → (prcLoad s gi (some d)).1.groups[j] = s.prc.groups[j]) ∧
    (prcLoad s gi (some d)).1.frozen = s.prc.frozen := by
  have hload : prcLoad s gi (some d) = prcEnd (prcSettle s (prcBegin s) gi g (g.reload s d) false) := by
    unfold prcLoad
    rw [hg]
    simp only [hkeep, if_true]
  rw [hload]
  exact ⟨(prcSettle_group s (prcBegin s) gi g _ false gi).trans (if_pos rfl),
    fun j hj => (prcSettle_group s (prcBegin s) gi g _ false j).trans (if_neg hj), rfl⟩

theorem reload_defines (hkeep : d.keeps g = true) : Defines d (endedGroup s gi g (g.reload s d)) := by
  obtain ⟨hkind, hprot, hwork⟩ := of_decide_eq_true hkeep
  refine (endedGroup_same s gi g (g.reload s d)).defines ?_
  obtain ⟨ms, w, o, heq⟩ := reload_moved s g d
  rw [heq]
  exact ⟨hkind.symm, hprot.symm, hwork.symm, rfl, rfl, rfl, rfl⟩

theorem reload_commands : (endedGroup s gi g (g.reload s d)).lockout = g.lockout ∧
    (endedGroup s gi g (g.reload s d)).force = g.force ∧ (endedGroup s gi g (g.reload s d)).farReq = g.farReq := by
  have hsame := endedGroup_same s gi g (g.reload s d)
  obtain ⟨hfar, _⟩ := hsame.far
  obtain ⟨ms, w, o, heq⟩ := reload_moved s g d
  rw [hsame.lockout, hsame.force, hfar, heq]
  exact ⟨rfl, rfl, rfl⟩

end

end Sys2Proof.Proofs
end

