-- ==== Sys2Proof/Proofs/TeardownsAndReferences.lean ====
section
/-! What a protection group entry does, a teardown, and what an entry makes of its reference (R62 to R65, R99). -/

namespace Sys2Proof.Proofs

open Sys2Proof.Machine Sys2Proof.Safety Sys2Proof.Laws

/-! ### A teardown (R65) -/

theorem prcLoad_undefined {s : State} {gi : GroupIx} (h : s.prc.groups[gi] = none) : prcLoad s gi none = (s.prc, []) := by
  unfold prcLoad
  rw [h]

section
variable (gi : GroupIx) (g : Group)

/-- R65: what a teardown hands ALM. -/
def tearBatch : List AlmChange :=
  (if g.svcLoss then [.withdraw .svcLoss gi] else []) ++ (if g.protUnavail then [.withdraw .protUnavail gi] else []) ++
  (if g.sigFail then [.withdraw .sigFail gi] else []) ++
  (if g.bridgeMis then [.withdraw .bridgeMismatch gi] else []) ++ [.group gi none]

theorem mem_ite_singleton {α : Type} {b : Bool} {a x : α} : x ∈ (if b = true then [a] else []) ↔ b = true ∧ x = a := by
  cases b <;> simp

theorem mem_tearBatch (c : AlmChange) : c ∈ tearBatch gi g ↔
    (g.svcLoss = true ∧ c = .withdraw .svcLoss gi) ∨ (g.protUnavail = true ∧ c = .withdraw .protUnavail gi) ∨
    (g.sigFail = true ∧ c = .withdraw .sigFail gi) ∨ (g.bridgeMis = true ∧ c = .withdraw .bridgeMismatch gi) ∨
    c = .group gi none := by
  simp only [tearBatch, List.mem_append, mem_ite_singleton, List.mem_singleton, or_assoc]

theorem prcLoad_tear {s : State} (h : s.prc.groups[gi] = some g) : prcLoad s gi none =
    ({ s.prc with groups := s.prc.groups.set gi none }, [.tselGroups [(gi, none)], .alm (tearBatch gi g)]) := by
  have hbatch : (tearBatch gi g).isEmpty = false := by simp [tearBatch]
  have halm : toAlm (tearBatch gi g) = [.alm (tearBatch gi g)] := by simp [toAlm, hbatch]
  have hload : prcLoad s gi none = prcEnd (prcTearDown (prcBegin s) gi g) := by
    unfold prcLoad
    rw [h]
  rw [hload]
  change ({ s.prc with groups := s.prc.groups.set gi none }, _) = _
  simp only [Prod.mk.injEq, true_and]
  change [] ++ [Msg.tselGroups [(gi, none)]] ++ toAlm (tearBatch gi g) ++ [] = _
  rw [halm]
  rfl

theorem tearDown_said {s : State} (h : s.prc.groups[gi] = some g) :
    let r := prcLoad s gi none
    r.1.groups[gi] = none ∧ (∀ j, j ≠ gi → r.1.groups[j] = s.prc.groups[j]) ∧ r.1.frozen = s.prc.frozen ∧
    .tselGroups [(gi, none)] ∈ r.2 ∧ (∀ bs, .jrn bs ∉ r.2) ∧
    ∃ batch, .alm batch ∈ r.2 ∧ .group gi none ∈ batch ∧ (.withdraw .svcLoss gi ∈ batch ↔ g.svcLoss = true) ∧
      (.withdraw .protUnavail gi ∈ batch ↔ g.protUnavail = true) ∧ (.withdraw .sigFail gi ∈ batch ↔ g.sigFail = true) ∧
      (.withdraw .bridgeMismatch gi ∈ batch ↔ g.bridgeMis = true) ∧ ∀ t o a b, .event t o a b ∉ batch := by
  intro r
  have hr : r = _ := prcLoad_tear gi g h
  have hgroups (j : GroupIx) : r.1.groups[j] = if j = gi then none else s.prc.groups[j] := by
    rw [hr]
    exact getElem_set_fin _ _ _ _
  refine ⟨(hgroups gi).trans (if_pos rfl), fun j hj => (hgroups j).trans (if_neg hj), by rw [hr], by rw [hr]; simp,
    fun bs => by rw [hr]; simp, tearBatch gi g, by rw [hr]; simp, ?_, ?_, ?_, ?_, ?_, fun t o a b => ?_⟩
  all_goals simp only [mem_tearBatch]
  all_goals simp

end

/-! ### An entry at a reference (R99, R102, R103) -/

section
variable (s : State) (r : RefIx) (e : RefEntry) (x : RefRec)

/-- R99: the binding of a reference changes. -/
def Rebinds : Prop := x.entry.bindKind ≠ e.bindKind ∨ (e.bindKind ≠ .none ∧ x.entry.bindNum ≠ e.bindNum)

/-- R99: the source or the class of a reference changes. -/
def Reclasses : Prop := x.entry.fromTag ≠ e.fromTag ∨ x.entry.fixedCls ≠ e.fixedCls

theorem rebinds_iff : (!sameBinding x.entry e) = true ↔ Rebinds e x := by
  unfold sameBinding Rebinds
  by_cases hk : x.entry.bindKind = e.bindKind
  · simp [hk]
  · simp [hk]

theorem reclasses_iff : (x.entry.fromTag != e.fromTag || x.entry.fixedCls != e.fixedCls) = true ↔ Reclasses e x := by
  simp [Reclasses]

variable {e x}

/-- R99: a reference that the entry does not disable, before it is judged. -/
theorem enteredRef_on (h : x.entry.enable = false ∨ e.enable = true) :
    (Rebinds e x → ∃ c, enteredRef s e x = { x with entry := e, tap := tapOf s.prc e, window := none, cls := c } ∧
      c = effClass s { x with entry := e, tap := tapOf s.prc e, window := none }) ∧
    (¬Rebinds e x → Reclasses e x → enteredRef s e x = { x with entry := e, cls := effClass s { x with entry := e } }) ∧
    (¬Rebinds e x → ¬Reclasses e x → enteredRef s e x = { x with entry := e }) := by
  have hkeep : (x.entry.enable && !e.enable) = false := by
    obtain hold | hnew := h
    · rw [hold]; rfl
    · rw [hnew]; simp
  unfold enteredRef
  rw [← rebinds_iff, ← reclasses_iff, hkeep]
  refine ⟨fun hb => ?_, fun hb hc => ?_, fun hb hc => ?_⟩
  · rw [hb]
    exact ⟨_, rfl, rfl⟩
  · rw [Bool.eq_false_iff.2 hb, hc]
    rfl
  · rw [Bool.eq_false_iff.2 hb, Bool.eq_false_iff.2 hc]
    rfl

/-- R99, R103: a reference that the entry disables. -/
theorem enteredRef_off (hold : x.entry.enable = true) (hnew : e.enable = false) :
    (Rebinds e x → enteredRef s e x = { disableRef { x with entry := e } with
      tap := tapOf s.prc e, window := none
      cls := effClass s { disableRef { x with entry := e } with tap := tapOf s.prc e, window := none } }) ∧
    (¬Rebinds e x → Reclasses e x → enteredRef s e x = { disableRef { x with entry := e } with
      cls := effClass s (disableRef { x with entry := e }) }) ∧
    (¬Rebinds e x → ¬Reclasses e x → enteredRef s e x = disableRef { x with entry := e }) := by
  have hdrop : (x.entry.enable && !e.enable) = true := by rw [hold, hnew]; rfl
  unfold enteredRef
  rw [← rebinds_iff, ← reclasses_iff, hdrop]
  refine ⟨fun hb => ?_, fun hb hc => ?_, fun hb hc => ?_⟩
  · rw [hb]
    rfl
  · rw [Bool.eq_false_iff.2 hb, hc]
    rfl
  · rw [Bool.eq_false_iff.2 hb, Bool.eq_false_iff.2 hc]
    rfl

/-- R99, R103: an entry that disables its reference. -/
theorem loadRef_off (hold : x.entry.enable = true) (hnew : e.enable = false) :
    let y := loadRef s r e x
    y = { x with
      entry := e, state := .disabled, cause := none, window := none, run := 0, last := none, refLos := false
      refOffset := false, tap := y.tap, cls := y.cls } ∧
    (Rebinds e x → y.tap = tapOf s.prc e) ∧ (¬Rebinds e x → y.tap = x.tap) ∧
    (Rebinds e x ∨ Reclasses e x → y.cls = effClass s y) ∧ (¬Rebinds e x → ¬Reclasses e x → y.cls = x.cls) := by
  intro y
  have hy : y = enteredRef s e x := by
    change loadRef s r e x = _
    rw [loadRef_eq, if_pos (by rw [hnew]; rfl)]
  obtain ⟨hbound, hclassed, hplain⟩ := enteredRef_off s hold hnew
  by_cases hb : Rebinds e x
  · rw [hy, hbound hb]
    exact ⟨rfl, fun _ => rfl, fun h => absurd hb h, fun _ => rfl, fun h => absurd hb h⟩
  · by_cases hc : Reclasses e x
    · rw [hy, hclassed hb hc]
      exact ⟨rfl, fun h => absurd h hb, fun _ => rfl, fun _ => rfl, fun _ h => absurd hc h⟩
    · rw [hy, hplain hb hc]
      exact ⟨rfl, fun h => absurd h hb, fun _ => rfl, fun h => absurd h (not_or.2 ⟨hb, hc⟩), fun _ _ => rfl⟩

/-- R99: an entry over a reference that is, and stays, not enabled. -/
theorem loadRef_idle (hold : x.entry.enable = false) (hnew : e.enable = false) :
    let y := loadRef s r e x
    (Rebinds e x → y = { x with entry := e, tap := tapOf s.prc e, window := none, cls := effClass s y }) ∧
    (¬Rebinds e x → Reclasses e x → y = { x with entry := e, cls := effClass s y }) ∧
    (¬Rebinds e x → ¬Reclasses e x → y = { x with entry := e }) := by
  intro y
  have hy : y = enteredRef s e x := by
    change loadRef s r e x = _
    rw [loadRef_eq, if_pos (by rw [hnew]; rfl)]
  obtain ⟨hbound, hclassed, hplain⟩ := enteredRef_on s (.inl hold : x.entry.enable = false ∨ e.enable = true)
  refine ⟨fun hb => ?_, fun hb hc => ?_, fun hb hc => hy.trans (hplain hb hc)⟩
  · obtain ⟨c, heq, hcls⟩ := hbound hb
    rw [hy, heq, hcls]
    rfl
  · rw [hy, hclassed hb hc]
    rfl

/-- R102: a reference that is judged from DISABLED. -/
theorem judgeRef_fresh {x : RefRec} (he : x.entry.enable = true) (hstate : x.state = .disabled) (hoff : x.refOffset = false) :
    let y := judgeRef s r x
    (y.state = .measuring ∨ y.state = .unavailable) ∧ y.last = x.last ∧ y.run = 0 ∧ y.window = none ∧ y.refOffset = false ∧
    y.tap = x.tap := by
  intro y
  cases h : causeOf s r (classed s x) with
  | some c =>
    have hy : y = _ := judgeRef_lost s r x he h
    rw [hy]
    exact ⟨.inr rfl, rfl, rfl, rfl, rfl, rfl⟩
  | none =>
    have hy : y = _ := (judgeRef_available s r x he h).1 (.inl hstate)
    rw [hy]
    exact ⟨.inl rfl, rfl, rfl, rfl, hoff, rfl⟩

/-- R99: an entry that enables its reference or leaves it enabled. -/
theorem loadRef_on (hnew : e.enable = true) :
    let y := loadRef s r e x
    let fresh := { x with
      entry := e, state := .disabled, tap := tapOf s.prc e, window := none, run := 0, last := none, refOffset := false }
    (Rebinds e x → y = judgeRef s r fresh ∧ (y.state = .measuring ∨ y.state = .unavailable) ∧ y.last = none ∧ y.run = 0 ∧
      y.window = none ∧ y.refOffset = false ∧ y.tap = tapOf s.prc e) ∧
    (¬Rebinds e x → x.entry.enable = false ∨ Reclasses e x → y = judgeRef s r { x with entry := e }) ∧
    (¬Rebinds e x → x.entry.enable = true → ¬Reclasses e x → y = { x with entry := e }) := by
  intro y fresh
  obtain ⟨hbound, hclassed, hplain⟩ := enteredRef_on s (.inr hnew : x.entry.enable = false ∨ e.enable = true)
  have hy : y = if (!sameBinding x.entry e) = true then
        judgeRef s r { enteredRef s e x with state := .disabled, run := 0, last := none, refOffset := false }
      else if (!x.entry.enable || (x.entry.fromTag != e.fromTag || x.entry.fixedCls != e.fixedCls)) = true then
        judgeRef s r (enteredRef s e x)
      else enteredRef s e x := by
    change loadRef s r e x = _
    rw [loadRef_eq, if_neg (by rw [hnew]; decide)]
  refine ⟨fun hb => ?_, fun hb hjudge => ?_, fun hb hold hc => ?_⟩
  · have hjudged : y = judgeRef s r fresh := by
      obtain ⟨c, heq, _⟩ := hbound hb
      rw [hy, if_pos ((rebinds_iff e x).2 hb), heq]
      exact judgeRef_cls s r fresh hnew
    refine ⟨hjudged, ?_⟩
    rw [hjudged]
    exact judgeRef_fresh s r (x := fresh) hnew rfl rfl
  · have htest : (!x.entry.enable || (x.entry.fromTag != e.fromTag || x.entry.fixedCls != e.fixedCls)) = true := by
      rw [Bool.or_eq_true, reclasses_iff]
      exact hjudge.imp_left fun h => by rw [h]; rfl
    rw [hy, if_neg fun h => hb ((rebinds_iff e x).1 h), if_pos htest]
    by_cases hc : Reclasses e x
    · rw [hclassed hb hc]
      exact judgeRef_cls s r { x with entry := e } hnew
    · rw [hplain hb hc]
  · have htest : ¬(!x.entry.enable || (x.entry.fromTag != e.fromTag || x.entry.fixedCls != e.fixedCls)) = true := by
      rw [Bool.or_eq_true, reclasses_iff, hold]
      exact fun h => h.elim (by decide) hc
    rw [hy, if_neg fun h => hb ((rebinds_iff e x).1 h), if_neg htest, hplain hb hc]

end

end Sys2Proof.Proofs
end

