-- ==== Sys2Proof/Proofs/OtherLoads.lean ====
section
/-! What an entry of the other tables leaves: LDPG, LDTR, LDAP, LDCI (R62, R99, R127, R128, R145). -/

namespace Sys2Proof.Proofs

open Sys2Proof.Machine Sys2Proof.Safety Sys2Proof.Laws

section
variable {table : Table} {take : State → Nat → List Byte → Option (State × Nat)} {k : SlotIx} {s : State} {r : Request}

/-- R165: the only entry applied, by an event that leaves RQU alone. -/
theorem loadOne_applied (howner : ownerOf k r = askLoad table take k) (hone : OneEntry s k r table.entries table.size)
    (hkeep : LeavesRqu take) {u : State} {n : Nat} (htake : take s (param8 s k 2).toNat (entryAt s k table.size) = some (u, n))
    {ps : List Part} (hu : unchangedBut ps s u) (hrqu : Part.rqu ∉ ps) :
    ∃ t, exec (r.command k) s = .next t ∧ Answered s t k .ok (min n 65535) s.mem ∧ unchangedBut [.attn, .rqu, .mem] u t ∧
      sameRqu s t ∧ unchangedBut (ps ++ [.attn, .rqu, .mem]) s t := by
  obtain ⟨t, hexec, hanswered, hsame, hframe⟩ := loadOne_taken howner hone hkeep htake
  have hu' : u.rqu = s.rqu := hu .rqu hrqu
  rw [sameRqu, hu'] at hsame
  exact ⟨t, hexec, hanswered, hframe, hsame, unchangedBut_trans
    (unchangedBut_mono hu fun q hq => List.mem_append_left _ hq) (unchangedBut_mono hframe fun q hq => List.mem_append_right _ hq)⟩

end

/-! ### LDPG (R62, R63, R65) -/

theorem prcLoad_noReport (s : State) (gi : GroupIx) (d : Option GroupDef) : ∀ m ∈ (prcLoad s gi d).2, NoReport m := by
  unfold prcLoad
  cases s.prc.groups[gi] with
  | none =>
    cases d with
    | none => exact fun m hm => absurd hm List.not_mem_nil
    | some d => exact prcEnd_noReport rfl
  | some g =>
    cases d with
    | none => exact prcEnd_noReport rfl
    | some d =>
      simp only
      split <;> exact prcEnd_noReport rfl

/-- R62 to R65: what an entry defines. -/
theorem prcLoad_groups (s : State) (gi : GroupIx) (d : Option GroupDef) :
    (d = none → (prcLoad s gi d).1.groups[gi] = none) ∧
    (∀ x, d = some x → ∃ h, (prcLoad s gi d).1.groups[gi] = some h ∧ Defines x h) ∧
    ∀ j, j ≠ gi → (prcLoad s gi d).1.groups[j] = s.prc.groups[j] := by
  cases d with
  | none =>
    refine ⟨fun _ => ?_, nofun, fun j hj => ?_⟩
    · cases hg : s.prc.groups[gi] with
      | none => rw [prcLoad_undefined hg, hg]
      | some g => exact (tearDown_said gi g hg).1
    · cases hg : s.prc.groups[gi] with
      | none => rw [prcLoad_undefined hg]
      | some g => exact (tearDown_said gi g hg).2.1 j hj
  | some d =>
    refine ⟨nofun, fun x hx => ?_, ?_⟩
    · cases hx
      by_cases hkeep : ∃ g, s.prc.groups[gi] = some g ∧ d.keeps g = true
      · obtain ⟨g, hg, hkeep⟩ := hkeep
        exact ⟨_, (prcLoad_keeps hg hkeep).1, reload_defines hkeep⟩
      · have hnew : ∀ g, s.prc.groups[gi] = some g → d.keeps g = false := fun g hg =>
          Bool.eq_false_iff.2 fun hk => hkeep ⟨g, hg, hk⟩
        exact ⟨_, (prcLoad_setUp s gi d hnew).1, setUp_defines s gi d⟩
    · by_cases hkeep : ∃ g, s.prc.groups[gi] = some g ∧ d.keeps g = true
      · obtain ⟨g, hg, hkeep⟩ := hkeep
        exact (prcLoad_keeps hg hkeep).2.1
      · have hnew : ∀ g, s.prc.groups[gi] = some g → d.keeps g = false := fun g hg =>
          Bool.eq_false_iff.2 fun hk => hkeep ⟨g, hg, hk⟩
        exact (prcLoad_setUp s gi d hnew).2.1

section
variable {s : State} {k : SlotIx}

theorem ldpg_stops {gi : GroupIx} (hgi : gi.val = (param8 s k 2).toNat) (hone : OneEntry s k .ldpg 16 14)
    (hx : readGroup s gi (entryAt s k 14) = none) : ∃ t, exec (.ldpg k) s = .next t ∧ Answered s t k .partLoad 0 s.mem ∧
      sameRqu s t ∧ unchangedBut [.attn, .rqu, .mem] s t := by
  refine loadOne_fault (table := .groups) (r := .ldpg) (take := loadGroup) rfl hone ?_
  unfold loadGroup
  rw [ofNat_of_val hgi]
  exact Option.map_eq_none_iff.2 hx

theorem ldpg_loads {gi : GroupIx} (hgi : gi.val = (param8 s k 2).toNat) (hone : OneEntry s k .ldpg 16 14)
    {x : Option GroupDef} {n : Nat} (hx : readGroup s gi (entryAt s k 14) = some (x, n)) :
    ∃ t, exec (.ldpg k) s = .next t ∧ Answered s t k .ok (min n 65535) s.mem ∧ t.prc = (prcLoad s gi x).1 ∧ sameRqu s t ∧
      unchangedBut [.prc, .tsel, .tsp, .alm, .jrn, .attn, .gens, .choices, .rqu, .mem] s t := by
  have htake : loadGroup s (param8 s k 2).toNat (entryAt s k 14) = some (settled (putPrc s (prcLoad s gi x)), n) := by
    simp only [loadGroup, ofNat_of_val hgi, hx, Option.map_some]
  obtain ⟨hprc, hsettled⟩ := settledPrc_said s (prcLoad_below s gi x) (prcLoad_noReport s gi x)
  obtain ⟨t, hexec, hanswered, hlast, hrqu, hframe⟩ :=
    loadOne_applied (table := .groups) (r := .ldpg) rfl hone loadGroup_leavesRqu htake hsettled (by decide)
  exact ⟨t, hexec, hanswered, (hlast .prc (by decide)).trans hprc, hrqu, unchangedBut_mono hframe (by decide)⟩

/-! ### LDTR (R99, R103, R113) -/

theorem ldtr_stops {r : RefIx} (hr : r.val = (param8 s k 2).toNat) (hone : OneEntry s k .ldtr 6 12)
    (hx : readRef s r (entryAt s k 12) = none) : ∃ t, exec (.ldtr k) s = .next t ∧ Answered s t k .partLoad 0 s.mem ∧
      sameRqu s t ∧ unchangedBut [.attn, .rqu, .mem] s t := by
  refine loadOne_fault (table := .refs) (r := .ldtr) (take := loadRefEntry) rfl hone ?_
  unfold loadRefEntry
  rw [ofNat_of_val hr]
  exact Option.map_eq_none_iff.2 hx

theorem ldtr_loads {r : RefIx} (hr : r.val = (param8 s k 2).toNat) (hone : OneEntry s k .ldtr 6 12) {x : RefEntry} {n : Nat}
    (hx : readRef s r (entryAt s k 12) = some (x, n)) :
    ∃ t, exec (.ldtr k) s = .next t ∧ Answered s t k .ok (min n 65535) s.mem ∧ t.tsel = (tselLoad s r x).1 ∧ sameRqu s t ∧
      unchangedBut [.tsel, .tsp, .alm, .jrn, .attn, .gens, .choices, .rqu, .mem] s t := by
  have htake : loadRefEntry s (param8 s k 2).toNat (entryAt s k 12) = some (settled (putTsel s (tselLoad s r x)), n) := by
    simp only [loadRefEntry, ofNat_of_val hr, hx, Option.map_some]
  obtain ⟨htsel, hsettled⟩ := settledTsel_said s (x := tselLoad s r x) (tselEnd_below _ _)
  obtain ⟨t, hexec, hanswered, hlast, hrqu, hframe⟩ :=
    loadOne_applied (table := .refs) (r := .ldtr) rfl hone loadRefEntry_leavesRqu htake hsettled (by decide)
  exact ⟨t, hexec, hanswered, (hlast .tsel (by decide)).trans htsel, hrqu, unchangedBut_mono hframe (by decide)⟩

end

section
variable (s : State) (r : RefIx) (e : RefEntry)

theorem tselLoad_ref (j : RefIx) :
    (tselLoad s r e).1.refs[j] = if j = r then loadRef s r e s.tsel.refs[r] else s.tsel.refs[j] := by
  have hone := tselEach_ref s (List.nodup_singleton r) (fun r x => loadRef s r e x) j
  rw [tselLoad, hone]
  simp only [List.mem_singleton]
  by_cases hj : j = r
  · rw [if_pos hj, if_pos hj, hj]
  · rw [if_neg hj, if_neg hj]

theorem tselLoad_stays : (tselLoad s r e).1.steering = s.tsel.steering ∧ (tselLoad s r e).1.force = s.tsel.force ∧
    (tselLoad s r e).1.lockout = s.tsel.lockout := by
  simp only [tselLoad, tselEach, tselEnd_steering, tselEnd_force, tselEnd_lockout, reselect_steering, reselect_force,
    reselect_lockout]
  exact ⟨rfl, rfl, rfl⟩

theorem tselLoad_selected : (tselLoad s r e).1.selected = (tselLoad s r e).1.choose s.rqu.shelf.quality := by
  have hsel : (tselLoad s r e).1.selected =
      ([r].foldl (changeRef fun r x => loadRef s r e x) s.tsel).choose s.rqu.shelf.quality := by
    simp only [tselLoad, tselEach, tselEnd_selected, reselect_selected]
    rfl
  rw [hsel]
  refine (choose_congr ?_ ?_ ?_ _).symm <;>
    simp only [tselLoad, tselEach, tselEnd_force, tselEnd_lockout, tselEnd_refs, reselect_force, reselect_lockout,
      reselect_refs] <;> rfl

/-- R103, R112: a reference that is not enabled is DISABLED, and not selected. -/
theorem tselLoad_disabled (h : e.enable = false) (hok : refOk s.tsel.refs[r] = true) :
    (tselLoad s r e).1.refs[r].state = .disabled ∧ (tselLoad s r e).1.selected ≠ some r := by
  have hstate : (tselLoad s r e).1.refs[r].state = .disabled := by
    have hloaded := loadRef_ok s r e hok
    rw [refOk, loadRef_entry, h, Bool.false_or, decide_eq_true_eq] at hloaded
    rw [tselLoad_ref, if_pos rfl, hloaded]
  refine ⟨hstate, fun hsel => ?_⟩
  rw [tselLoad_selected] at hsel
  have heligible := choose_eligible hsel
  simp only [Tsel.eligible, Bool.and_eq_true, decide_eq_true_eq] at heligible
  have hqualified := heligible.1.1.1
  rw [hstate] at hqualified
  cases hqualified

end

/-! ### LDAP (R127, R128) -/

theorem almProfile_below (s : State) (y : Fin 24) (pf : AlarmProfile) : Below 2 (almProfile s y pf).2 := by
  rw [almProfile_eq]
  have hbelow := almFinish_below s.alm (profileWork s y pf)
  generalize almFinish s.alm (profileWork s y pf) = r at hbelow ⊢
  exact hbelow

theorem settledProfile_said (s : State) (y : Fin 24) (pf : AlarmProfile) :
    (settled (putAlm s (almProfile s y pf))).alm = (almProfile s y pf).1 ∧
    unchangedBut [.alm, .jrn, .attn, .choices] s (settled (putAlm s (almProfile s y pf))) := by
  have hbelow := almProfile_below s y pf
  refine ⟨settledAlm_alm s _ hbelow, ?_⟩
  generalize almProfile s y pf = x at hbelow
  refine unchangedBut_trans (t := (putAlm s x).1) (fun q hq => ?_) (unchangedBut_mono (settle_unchanged 2 10 _ _ hbelow) (by decide))
  cases q <;> first | exact absurd (by decide) hq | rfl

section
variable {s : State} {k : SlotIx}

theorem ldap_stops {y : Fin 24} (hy : y.val = (param8 s k 2).toNat) (hone : OneEntry s k .ldap 24 6)
    (hx : readAlarm y (entryAt s k 6) = none) : ∃ t, exec (.ldap k) s = .next t ∧ Answered s t k .partLoad 0 s.mem ∧
      sameRqu s t ∧ unchangedBut [.attn, .rqu, .mem] s t := by
  refine loadOne_fault (table := .alarms) (r := .ldap) (take := loadAlarm) rfl hone ?_
  unfold loadAlarm
  rw [ofNat_of_val hy]
  exact Option.map_eq_none_iff.2 hx

theorem ldap_loads {y : Fin 24} (hy : y.val = (param8 s k 2).toNat) (hone : OneEntry s k .ldap 24 6) {x : AlarmProfile} {n : Nat}
    (hx : readAlarm y (entryAt s k 6) = some (x, n)) :
    ∃ t, exec (.ldap k) s = .next t ∧ Answered s t k .ok (min n 65535) s.mem ∧ t.alm = (almProfile s y x).1 ∧ sameRqu s t ∧
      unchangedBut [.alm, .jrn, .attn, .choices, .rqu, .mem] s t := by
  have htake : loadAlarm s (param8 s k 2).toNat (entryAt s k 6) = some (settled (putAlm s (almProfile s y x)), n) := by
    simp only [loadAlarm, ofNat_of_val hy, hx, Option.map_some]
  obtain ⟨halm, hsettled⟩ := settledProfile_said s y x
  obtain ⟨t, hexec, hanswered, hlast, hrqu, hframe⟩ :=
    loadOne_applied (table := .alarms) (r := .ldap) rfl hone loadAlarm_leavesRqu htake hsettled (by decide)
  exact ⟨t, hexec, hanswered, (hlast .alm (by decide)).trans halm, hrqu, unchangedBut_mono hframe (by decide)⟩

/-! ### LDCI (R145) -/

/-- R145: an input with an entry's fields, its levels and its timer kept. -/
def enteredInput (s : State) (i : InputIx) (x : ContactEntry) : ContactIn :=
  { s.ciu[i] with role := x.role, frameSection := x.frameSection, activeHigh := x.activeHigh, debounce := x.debounce }

/-- R145: the inputs with an entry loaded, before CONTACT is handed on. -/
def enteredInputs (s : State) (i : InputIx) (x : ContactEntry) : State := { s with ciu := s.ciu.set i (enteredInput s i x) }

/-- R145: CONTACT as the entry has it. -/
def contactChange (i : InputIx) (on : Bool) : AlmChange := if on then .offer .contact i else .withdraw .contact i

theorem condition_iff (c : ContactIn) : c.condition = true ↔ c.role = .generic ∧ c.stable = some c.activeHigh := by
  unfold ContactIn.condition
  cases c.role with
  | generic =>
    cases c.stable with
    | none => simp
    | some l => simp [ContactIn.isActive]
  | none | aco | frame => simp

theorem contactChange_present {a : Alm} (h : presentOk a.present = true) (i : InputIx) (on : Bool) :
    ((applyChange a (contactChange i on)).isPresent .contact i = true ↔ on = true) ∧
    ∀ y o, (y, o) ≠ (.contact, i.val) → (applyChange a (contactChange i on)).isPresent y o = a.isPresent y o := by
  cases on with
  | true =>
    refine ⟨iff_of_true ((isPresent_after_offer a _ _ _ _).2 (.inr rfl)) rfl, fun y o hne => Bool.eq_iff_iff.2 ?_⟩
    exact (isPresent_after_offer a _ _ _ _).trans (or_iff_left hne)
  | false =>
    refine ⟨iff_of_false (fun hp => ((isPresent_after_withdraw h _ _ _ _).1 hp).2 rfl) (by decide),
      fun y o hne => Bool.eq_iff_iff.2 ?_⟩
    exact (isPresent_after_withdraw h _ _ _ _).trans (and_iff_left hne)

theorem settledInput_eq (i : InputIx) (x : ContactEntry) :
    settled (putCiu s (ciuLoad s i x.role x.frameSection x.activeHigh x.debounce)) =
      taken 9 (.alm [contactChange i (enteredInput s i x).condition]) (enteredInputs s i x) :=
  settled_one (m := .alm [contactChange i (enteredInput s i x).condition]) rfl (enteredInputs s i x)

theorem enteredInputs_ciu (i j : InputIx) (x : ContactEntry) :
    (enteredInputs s i x).ciu[j] = if j = i then enteredInput s i x else s.ciu[j] := getElem_set_fin _ _ _ _

theorem settledInput_frame (i : InputIx) (x : ContactEntry) : unchangedBut [.ciu, .alm, .jrn, .attn, .choices] s
    (settled (putCiu s (ciuLoad s i x.role x.frameSection x.activeHigh x.debounce))) := by
  rw [settledInput_eq]
  refine unchangedBut_trans (t := enteredInputs s i x) (fun q hq => ?_)
    (unchangedBut_mono (taken_batchFrame _ _) (by decide))
  cases q <;> first | exact absurd (by decide) hq | rfl

theorem settledInput_alm (i : InputIx) (x : ContactEntry) (y : CondType) (o : Nat) :
    (settled (putCiu s (ciuLoad s i x.role x.frameSection x.activeHigh x.debounce))).alm.isPresent y o =
      (applyChange s.alm (contactChange i (enteredInput s i x).condition)).isPresent y o := by
  rw [settledInput_eq, taken_batch, (almBatch_context _ _).isPresent]
  rfl

theorem ldci_stops (hone : OneEntry s k .ldci 8 4) (hx : readContact (entryAt s k 4) = none) :
    ∃ t, exec (.ldci k) s = .next t ∧ Answered s t k .partLoad 0 s.mem ∧ sameRqu s t ∧ unchangedBut [.attn, .rqu, .mem] s t :=
  loadOne_fault (table := .contacts) (r := .ldci) (take := loadContact) rfl hone (Option.map_eq_none_iff.2 hx)

theorem ldci_loads {i : InputIx} (hi : i.val = (param8 s k 2).toNat) (hone : OneEntry s k .ldci 8 4) {x : ContactEntry} {m : Nat}
    (hx : readContact (entryAt s k 4) = some (x, m)) :
    ∃ t, exec (.ldci k) s = .next t ∧ Answered s t k .ok (min m 65535) s.mem ∧
      (∀ j, t.ciu[j] = if j = i then enteredInput s i x else s.ciu[j]) ∧
      (∀ y o, t.alm.isPresent y o = (applyChange s.alm (contactChange i (enteredInput s i x).condition)).isPresent y o) ∧
      sameRqu s t ∧ unchangedBut [.ciu, .alm, .jrn, .attn, .choices, .rqu, .mem] s t := by
  have htake : loadContact s (param8 s k 2).toNat (entryAt s k 4) =
      some (settled (putCiu s (ciuLoad s i x.role x.frameSection x.activeHigh x.debounce)), m) := by
    simp only [loadContact, ofNat_of_val hi, hx, Option.map_some]
  obtain ⟨t, hexec, hanswered, hlast, hrqu, hframe⟩ :=
    loadOne_applied (table := .contacts) (r := .ldci) rfl hone loadContact_leavesRqu htake (settledInput_frame i x) (by decide)
  have hciu : t.ciu = (enteredInputs s i x).ciu := by
    have hsettled : t.ciu = (settled (putCiu s (ciuLoad s i x.role x.frameSection x.activeHigh x.debounce))).ciu :=
      hlast .ciu (by decide)
    rw [hsettled, settledInput_eq]
    exact taken_batchFrame _ _ .ciu (by decide)
  have halm : t.alm = (settled (putCiu s (ciuLoad s i x.role x.frameSection x.activeHigh x.debounce))).alm :=
    hlast .alm (by decide)
  refine ⟨t, hexec, hanswered, fun j => ?_, fun y o => ?_, hrqu, unchangedBut_mono hframe (by decide)⟩
  · rw [hciu]
    exact enteredInputs_ciu i j x
  · rw [halm, settledInput_alm]

end

end Sys2Proof.Proofs
end

