-- ==== Sys2Proof/Proofs/OtherTables.lean ====
section
/-! What an entry of the other tables does to its group, its reference, its alarm type and its input (R62 to R65, R97, R99,
R127, R128, R145). -/

namespace Sys2Proof.Proofs

open Sys2Proof.Machine Sys2Proof.Safety Sys2Proof.Laws

section
variable (s : State) (gi : GroupIx) (d : GroupDef)

/-- R63: a state that a member's entry takes into account. -/
def applicableTo (m : Nat) (st : PortState) : Bool := st.sf || (decide (m ≠ 0) && d.degSwitch && decide (st = .degrade))

theorem applicableTo_eq (m : Nat) (st : PortState) : d.fresh.applicable m st = applicableTo d m st := by
  have hsd : st.sd = decide (st = .degrade) := Bool.eq_iff_iff.2 ((sd_iff st).trans decide_eq_true_iff.symm)
  simp only [Group.applicable, applicableTo, hsd]
  rfl

variable {d}

/-- R63, R97: an entry that sets its group up. -/
theorem setUp_said (hone : d.kind ≠ .oneToN → d.work.length = 1) (hsix : d.work.length ≤ 6)
    (hnew : ∀ g, s.prc.groups[gi] = some g → d.keeps g = false) :
    let r := prcLoad s gi (some d)
    ∃ h, r.1.groups[gi] = some h ∧ Defines d h ∧ groupSettled h = true ∧ h.lockout = false ∧ h.force = none ∧
      h.manual = none ∧ (h.readFar s).farReq = h.farReq ∧ (h.readFar s).farBridged = h.farBridged ∧
      (h.readFar s).sigLost = h.sigLost ∧
      (∀ j, j ≠ gi → r.1.groups[j] = s.prc.groups[j]) ∧
      (∀ p : Port, r.1.frozen[p] = if p ∈ d.prot :: d.work then none else s.prc.frozen[p]) ∧
      (∀ m p, (d.prot :: d.work)[m]? = some p →
        let st := s.pmon.ports[p].handed
        (s.cbc.ports[p].hold ≠ none → h.mon m = { timer := none, raised := none, held := true }) ∧
        (s.cbc.ports[p].hold = none → h.mon m = {
          held := false
          timer := if applicableTo d m st = true ∧ d.holdOff ≠ 0 then some (d.holdOff * 4) else none
          raised := if applicableTo d m st = true ∧ d.holdOff = 0 then some (if st.sf then .fail else .degrade) else none })) ∧
      ((∀ p ∈ d.work, ¬FrozenServed s d p) →
        h.wait = none ∧ h.switches = (if h.selected = 0 then 0 else 1) ∧
        h.order = ((List.range d.work.length).map (· + 1)).filter fun m => (h.mon m).held || (h.mon m).raised.isSome) ∧
      ∀ m p o, d.work[m]? = some p → s.prc.frozen[p] = some o → FrozenServed s d p →
        (∀ q ∈ d.work.take m, ¬FrozenServed s d q) →
        (∀ k q, (d.prot :: d.work)[k]? = some q →
          s.cbc.ports[q].hold = none ∧ applicableTo d k s.pmon.ports[q].handed = false) →
        (d.kind ≠ .uni → s.tcd.decs[d.prot].tag = none) →
        h.wait = some (if d.revertive then .restore (m + 1) (some (d.wtr * 4000)) else .stay (m + 1)) ∧
        h.order = [m + 1] ∧ h.top = ⟨if d.revertive then ordRestoreWait else ordStay, m + 1⟩ ∧ h.win = h.top ∧
        h.bridged = m + 1 ∧ h.selected = m + 1 ∧
        h.switches = (if d.kind = .oneToN ∧ o.select = false then 1 else 0) := by
  obtain ⟨hgroup, hothers, hfrozen⟩ := prcLoad_setUp s gi d hnew
  obtain ⟨hlock, hforce, hmanual⟩ := setUp_commands s gi d
  obtain ⟨hfarReq, hfarBridged, hlost⟩ := setUp_far s gi d
  refine ⟨_, hgroup, setUp_defines s gi d, endedGroup_settled s gi _ _, hlock, hforce, hmanual, hfarReq, hfarBridged, hlost,
    hothers, hfrozen, fun m p hp => ?_, setUp_unserved s gi hsix, fun m p o hm ho hserved hfirst hcalm htag => ?_⟩
  · have hlt := (List.getElem?_eq_some_iff.1 hp).1
    rw [List.length_cons] at hlt
    rw [setUp_mon s gi hsix (by omega)]
    exact memberMon_said s hp
  · refine setUp_served s gi hm ho hserved hfirst (fun k q hq => ?_) htag hone
    rw [applicableTo_eq]
    exact hcalm k q hq

/-- R64: an entry that keeps its group. -/
theorem reload_said {g : Group} (hg : s.prc.groups[gi] = some g) (hkeep : d.keeps g = true) (hok : groupOk g = true)
    (hset : groupSettled g = true) :
    let r := prcLoad s gi (some d)
    ∃ h, r.1.groups[gi] = some h ∧ Defines d h ∧ h.lockout = g.lockout ∧ h.force = g.force ∧ h.farReq = g.farReq ∧
      h.mon 0 = g.mon 0 ∧ (∀ j, j ≠ gi → r.1.groups[j] = s.prc.groups[j]) ∧ r.1.frozen = s.prc.frozen ∧
      (d.revertive = g.revertive → d.degSwitch = g.degSwitch →
        h.mons = g.mons ∧ h.wait = g.wait ∧ h.order = g.order ∧ h.manual = g.manual ∧ h.top = g.top ∧ h.win = g.win ∧
        h.bridged = g.bridged ∧ h.selected = g.selected ∧ h.switches = g.switches) ∧
      (d.revertive ≠ g.revertive → d.degSwitch = g.degSwitch → h.mons = g.mons ∧
        (∀ m n, d.revertive = false → g.wait = some (.restore m n) → h.wait = some (.stay m)) ∧
        ∀ m, d.revertive = true → g.wait = some (.stay m) →
          h.wait = some (.restore m (if (g.mon m).timer = none then some (d.wtr * 4000) else none))) ∧
      (d.degSwitch ≠ g.degSwitch → ∀ m p, g.work[m]? = some p →
        let x := g.mon (m + 1)
        (d.degSwitch = true → h.mon (m + 1) =
          if s.pmon.ports[p].handed = .degrade ∧ x.held = false ∧ x.timer = none ∧ x.raised = none then
            (if d.holdOff = 0 then { x with raised := some .degrade } else { x with timer := some (d.holdOff * 4) })
          else x) ∧
        (d.degSwitch = false → h.mon (m + 1) = if x.raised = some .degrade then { x with raised := none } else x)) := by
  obtain ⟨hgroup, hothers, hfrozen⟩ := prcLoad_keeps hg hkeep
  obtain ⟨hlock, hforce, hfar⟩ := reload_commands (s := s) (gi := gi) (g := g) (d := d)
  have hmon (m : Nat) : (endedGroup s gi g (g.reload s d)).mon m = (g.reload s d).mon m := (endedGroup_same s gi g _).mon m
  have hsix := groupOk_six hok
  refine ⟨_, hgroup, reload_defines hkeep, hlock, hforce, hfar, (hmon 0).trans (reload_mon_zero s g d), hothers, hfrozen,
    reload_unflagged hok hset, reload_reverted hok, fun hne m p hm => ⟨fun hon => ?_, fun hoff => ?_⟩⟩
  · rw [hmon]
    exact reload_mon_on s (Bool.eq_false_iff.2 fun h => hne (hon.trans h.symm)) hon hsix hm
  · rw [hmon]
    exact reload_mon_off s (Bool.eq_true_of_not_eq_false fun h => hne (hoff.trans h.symm)) hoff hsix hm

end

/-- Settles O45: a group entry sets up, keeps or tears down; the other entries by the event each of them is. -/
theorem anEntryOfTheOtherTables : Obligations.AnEntryOfTheOtherTables := by
  unfold Obligations.AnEntryOfTheOtherTables
  refine ⟨fun s gi d hone _ hsix _ => ⟨fun hnew => ?_, fun g hg hkeep hok hset => ?_⟩,
    fun s gi => ⟨prcLoad_undefined, fun g hg => tearDown_said gi g hg⟩,
    fun s r e x => ⟨loadRef_entry s r e x, loadRef_off s r, loadRef_idle s r, loadRef_on s r⟩,
    ?_⟩
  · exact setUp_said s gi hone hsix fun g hg => decide_eq_false (hnew g hg)
  · exact reload_said s gi hg (decide_eq_true hkeep) hok hset
  intro k s i one e stops
  refine ⟨fun gi hgi hone => ⟨ldpg_stops hgi hone, fun x n hx => ?_⟩,
    fun r hr hone => ⟨ldtr_stops hr hone, fun x n hx => ?_⟩,
    fun y hy hone => ⟨ldap_stops hy hone, fun x n hx => ?_⟩,
    fun i hi hone => ⟨ldci_stops hone, fun x m hx => ?_⟩⟩
  · obtain ⟨t, hexec, hanswered, hprc, hrqu, hframe⟩ := ldpg_loads hgi hone hx
    obtain ⟨hnone, hsome, hothers⟩ := prcLoad_groups s gi x
    rw [← hprc] at hnone hsome hothers
    exact ⟨t, hexec, hanswered, hprc, hnone, hsome, hothers, hrqu, hframe⟩
  · obtain ⟨t, hexec, hanswered, htsel, hrqu, hframe⟩ := ldtr_loads hr hone hx
    have href (j : RefIx) : t.tsel.refs[j] = if j = r then loadRef s r x s.tsel.refs[r] else s.tsel.refs[j] := by
      rw [htsel]
      exact tselLoad_ref s r x j
    have hself := (href r).trans (if_pos rfl)
    obtain ⟨hsteer, hforce, hlock⟩ := tselLoad_stays s r x
    have hsel := tselLoad_selected s r x
    have hoff := tselLoad_disabled s r x
    rw [← htsel] at hsteer hforce hlock hsel hoff
    exact ⟨t, hexec, hanswered, by rw [hself, loadRef_entry], hself, hsel, hoff, fun j hj => (href j).trans (if_neg hj),
      hsteer, hforce, hlock, hrqu, hframe⟩
  · obtain ⟨t, hexec, hanswered, halm, hrqu, hframe⟩ := ldap_loads hy hone hx
    refine ⟨t, hexec, hanswered, fun z => ?_, ?_, fun hoff j z hz hzy => ?_, hrqu, hframe⟩
    · rw [halm]
      exact almProfile_profile s y x z
    · rw [halm]
      exact (almProfile_reads s y x).1
    · rw [halm, almProfile_alarm] at hz
      refine profile_leaves hz hzy ?_
      obtain hevent | hoff := hoff
      · rw [hevent]
        rfl
      · rw [hoff]
        rfl
  · obtain ⟨t, hexec, hanswered, hciu, hpresent, hrqu, hframe⟩ := ldci_loads hi hone hx
    refine ⟨t, hexec, hanswered, (hciu _).trans (if_pos rfl), fun j hj => (hciu j).trans (if_neg hj), fun hok => ?_, hrqu, hframe⟩
    obtain ⟨hself, hother⟩ := contactChange_present hok i (enteredInput s i x).condition
    exact ⟨by rw [hpresent, hself, condition_iff]; rfl, fun y o hne => (hpresent y o).trans (hother y o hne)⟩

end Sys2Proof.Proofs
end

