-- ==== Sys2Proof/Proofs/EntryFields.lean ====
section
/-! The fields of a table entry: bytes, words, signed words, ranges and clamp counts (section 11.1, R165). -/

namespace Sys2Proof.Proofs

open Sys2Proof.Machine Sys2Proof.Safety Sys2Proof.Laws

/-! ### Bytes and words as fields -/

theorem at8_eq (e : List Byte) (k : Nat) : at8 e k = fieldByte e k := rfl

theorem at16_eq (e : List Byte) (k : Nat) : at16 e k = fieldWord e k := rfl

theorem fieldByte_lt (e : List Byte) (k : Nat) : fieldByte e k < 256 := (e.getD k 0).isLt

theorem fieldWord_lt (e : List Byte) (k : Nat) : fieldWord e k < 65536 := by
  have := fieldByte_lt e k
  have := fieldByte_lt e (k + 1)
  unfold fieldWord
  omega

theorem wordOf_field (e : List Byte) (k : Nat) : (wordOf (e.getD k 0) (e.getD (k + 1) 0)).toNat = fieldWord e k := wordOf_toNat _ _

theorem atInt_eq (e : List Byte) (k : Nat) : atInt e k = fieldInt e k := by
  unfold atInt int16 fieldInt
  rw [BitVec.toInt_eq_toNat_cond, wordOf_field]
  have := fieldWord_lt e k
  by_cases h : fieldWord e k < 32768
  · rw [if_pos h, if_pos (by omega)]
  · rw [if_neg h, if_neg (by omega)]
    rfl

section
variable (b : Byte) (e : List Byte) (k : Nat)

@[simp] theorem fieldByte_zero : fieldByte (b :: e) 0 = b.toNat := rfl
@[simp] theorem fieldByte_succ : fieldByte (b :: e) (k + 1) = fieldByte e k := rfl
@[simp] theorem fieldWord_succ : fieldWord (b :: e) (k + 1) = fieldWord e k := rfl

/-- Section 10.5: the field of a word, high byte first. -/
@[simp] theorem fieldWord_bytes16 (n : Nat) : fieldWord (byte8 (n / 256) :: byte8 n :: e) 0 = n % 65536 := by
  change (BitVec.ofNat 8 (n / 256)).toNat * 256 + (BitVec.ofNat 8 n).toNat = _
  rw [BitVec.toNat_ofNat, BitVec.toNat_ofNat]
  omega

@[simp] theorem fieldWord_word (w : Word) : fieldWord (hiByte w :: loByte w :: e) 0 = w.toNat := by
  have := w.isLt
  change (hiByte w).toNat * 256 + (loByte w).toNat = _
  rw [hiByte, loByte, BitVec.extractLsb'_toNat, BitVec.extractLsb'_toNat, Nat.shiftRight_eq_div_pow, Nat.shiftRight_eq_div_pow]
  omega

end

@[simp] theorem byte8_toNat (n : Nat) : (byte8 n).toNat = n % 256 := BitVec.toNat_ofNat n 8

theorem twos16_lt (x : Int) : twos 16 x < 65536 := by
  unfold twos
  omega

/-- A signed field of a value that 16 bits hold. -/
theorem fieldInt_of_word {e : List Byte} {k : Nat} {x : Int} (h : fieldWord e k = twos 16 x % 65536) (hlo : -32768 ≤ x)
    (hhi : x < 32768) : fieldInt e k = x := by
  have hx : (twos 16 x : Int) = x % 65536 := by
    unfold twos
    omega
  unfold fieldInt
  rw [h]
  split <;> omega

/-! ### Ranges and clamps (R165) -/

theorem clampInt_nearest {lo hi : Int} (h : lo ≤ hi) (x : Int) : clampInt lo hi x = nearest lo hi x := by
  unfold clampInt nearest
  split
  · omega
  · split <;> omega

theorem clampNat_nearest {lo hi : Nat} (h : lo ≤ hi) (x : Nat) : (clampNat lo hi x : Int) = nearest lo hi x := by
  unfold clampNat nearest
  split
  · omega
  · split <;> omega

theorem nearest_self {lo hi x : Int} (hlo : lo ≤ x) (hhi : x ≤ hi) : nearest lo hi x = x := by
  unfold nearest
  omega

theorem nearest_range {lo hi : Int} (h : lo ≤ hi) (x : Int) : lo ≤ nearest lo hi x ∧ nearest lo hi x ≤ hi := by
  unfold nearest
  omega

theorem changed_int (a b : Nat) : changed a b = changed (a : Int) (b : Int) := by
  unfold changed
  simp only [Int.natCast_inj]

theorem clamped_nil : clamped [] = 0 := rfl

theorem clamped_cons (a b : Int) (fields : List (Int × Int)) : clamped ((a, b) :: fields) = changed a b + clamped fields := by
  unfold clamped changed
  rw [List.countP_cons, Nat.add_comm]
  congr 1
  by_cases h : a = b <;> simp [h]

theorem clamped_same {fields : List (Int × Int)} (h : ∀ x ∈ fields, x.1 = x.2) : clamped fields = 0 :=
  List.countP_eq_zero.2 fun x hx => by simp [h x hx]

theorem hundreds_said (top x : Nat) : hundreds top x = min x top / 100 * 100 := rfl

theorem hundreds_range {top x : Nat} (h : top % 100 = 0) : hundreds top x ≤ top ∧ hundreds top x % 100 = 0 := by
  unfold hundreds
  omega

theorem hundreds_self {top x : Nat} (hx : x ≤ top) (hmod : x % 100 = 0) : hundreds top x = x := by
  unfold hundreds
  omega

theorem toNat_beq_one (n : Nat) (h : n ≤ 1) (b : Bool) : (n == 1) = b ↔ n = b.toNat := by
  cases b
  · simp only [beq_eq_false_iff_ne, Bool.toNat_false]
    omega
  · simp only [beq_iff_eq, Bool.toNat_true]

theorem beq_one_decide (n : Nat) : (n == 1) = decide (n = 1) := rfl

end Sys2Proof.Proofs
end

