-- ==== Sys2Proof/Proofs/ShelfAndProfiles.lean ====
section
/-! The shelf record and the port profiles in the load format (R18, R165, R166, section 11.1). -/

namespace Sys2Proof.Proofs

open Sys2Proof.Machine Sys2Proof.Safety Sys2Proof.Laws

/-! ### The shelf record (R166) -/

theorem shelfOk_iff (c : ShelfRec) : shelfOk c = true ↔
    (100 ≤ c.tagWait ∧ c.tagWait ≤ 5000) ∧ (1 ≤ c.verify ∧ c.verify ≤ 60) ∧ (1 ≤ c.warmUp ∧ c.warmUp ≤ 64) ∧
    (1 ≤ c.slew ∧ c.slew ≤ 5000) ∧ (-5000 ≤ c.trim ∧ c.trim ≤ 5000) ∧ (1 ≤ c.holdLimit ∧ c.holdLimit ≤ 72) ∧
    (1 ≤ c.holdClass ∧ c.holdClass ≤ 6) ∧ (1 ≤ c.freeClass ∧ c.freeClass ≤ 6) := by
  simp only [shelfOk, Bool.and_eq_true, decide_eq_true_eq, and_assoc]

theorem shelfBytes_eq (c : ShelfRec) : shelfBytes c =
    hiByte c.identity :: loByte c.identity :: byte8 c.stop.toNat :: byte8 c.quality.toNat :: byte8 (c.tagWait / 256) ::
      byte8 c.tagWait :: byte8 c.verify :: byte8 c.warmUp :: byte8 (c.slew / 256) :: byte8 c.slew ::
      byte8 (twos 16 c.trim / 256) :: byte8 (twos 16 c.trim) :: [byte8 c.holdLimit, byte8 c.holdClass, byte8 c.freeClass, 0] := rfl

/-- The fields of a shelf record read back. -/
theorem shelfBytes_fields {c : ShelfRec} (h : shelfOk c = true) :
    let b := fieldByte (shelfBytes c)
    let w := fieldWord (shelfBytes c)
    w 0 = c.identity.toNat ∧ b 2 = c.stop.toNat ∧ b 3 = c.quality.toNat ∧ w 4 = c.tagWait ∧ b 6 = c.verify ∧ b 7 = c.warmUp ∧
    w 8 = c.slew ∧ fieldInt (shelfBytes c) 10 = c.trim ∧ b 12 = c.holdLimit ∧ b 13 = c.holdClass ∧ b 14 = c.freeClass ∧
    b 15 = 0 := by
  obtain ⟨htag, hverify, hwarm, hslew, htrim, hhold, hclass, hfree⟩ := (shelfOk_iff c).1 h
  have hstop := Bool.toNat_le c.stop
  have hquality := Bool.toNat_le c.quality
  intro b w
  have htrimField : fieldInt (shelfBytes c) 10 = c.trim :=
    fieldInt_of_word (by rw [shelfBytes_eq]; simp) (by omega) (by omega)
  refine ⟨fieldWord_word _ _, ?_, ?_, ?_, ?_, ?_, ?_, htrimField, ?_, ?_, ?_, rfl⟩
  all_goals
    simp only [b, w, shelfBytes_eq, fieldByte_succ, fieldByte_zero, fieldWord_succ, fieldWord_bytes16,
      byte8_toNat]
    omega

section
variable (e : List Byte)

theorem readShelf_fault (h : 1 < fieldByte e 2 ∨ 1 < fieldByte e 3) : readShelf e = none := if_pos h

/-- R165, R166: the fields that a load takes. -/
theorem readShelf_said (hstop : fieldByte e 2 ≤ 1) (hquality : fieldByte e 3 ≤ 1) :
    ∃ c n, readShelf e = some (c, n) ∧ c.identity.toNat = fieldWord e 0 ∧ c.stop = decide (fieldByte e 2 = 1) ∧
      c.quality = decide (fieldByte e 3 = 1) ∧ c.tagWait = nearest 100 5000 (fieldWord e 4) ∧
      c.verify = nearest 1 60 (fieldByte e 6) ∧ c.warmUp = nearest 1 64 (fieldByte e 7) ∧
      c.slew = nearest 1 5000 (fieldWord e 8) ∧ c.trim = nearest (-5000) 5000 (fieldInt e 10) ∧
      c.holdLimit = nearest 1 72 (fieldByte e 12) ∧ c.holdClass = nearest 1 6 (fieldByte e 13) ∧
      c.freeClass = nearest 1 6 (fieldByte e 14) ∧
      n = clamped [(fieldWord e 4, c.tagWait), (fieldByte e 6, c.verify), (fieldByte e 7, c.warmUp), (fieldWord e 8, c.slew),
        (fieldInt e 10, c.trim), (fieldByte e 12, c.holdLimit), (fieldByte e 13, c.holdClass), (fieldByte e 14, c.freeClass)] := by
  have hnot : ¬(1 < at8 e 2 ∨ 1 < at8 e 3) := by
    simp only [at8_eq]
    omega
  refine ⟨_, _, if_neg hnot, wordOf_field e 0, rfl, rfl, clampNat_nearest (by decide) _, clampNat_nearest (by decide) _,
    clampNat_nearest (by decide) _, clampNat_nearest (by decide) _, ?_, clampNat_nearest (by decide) _,
    clampNat_nearest (by decide) _, clampNat_nearest (by decide) _, ?_⟩
  · rw [← atInt_eq]
    exact clampInt_nearest (by decide) _
  · simp only [clamped_cons, clamped_nil, changed_int, at8_eq, at16_eq, atInt_eq, Nat.add_zero, Nat.add_assoc]

variable {e}

theorem readShelf_some {c : ShelfRec} {n : Nat} (h : readShelf e = some (c, n)) : fieldByte e 2 ≤ 1 ∧ fieldByte e 3 ≤ 1 := by
  by_contra hno
  rw [readShelf_fault e (by omega)] at h
  cases h

theorem readShelf_ok {c : ShelfRec} {n : Nat} (h : readShelf e = some (c, n)) : shelfOk c = true := by
  obtain ⟨hstop, hquality⟩ := readShelf_some h
  obtain ⟨c', n', h', _, _, _, htag, hverify, hwarm, hslew, htrim, hhold, hclass, hfree, _⟩ := readShelf_said e hstop hquality
  cases h.symm.trans h'
  have htagRange := nearest_range (lo := 100) (hi := 5000) (by decide) (fieldWord e 4)
  have hverifyRange := nearest_range (lo := 1) (hi := 60) (by decide) (fieldByte e 6)
  have hwarmRange := nearest_range (lo := 1) (hi := 64) (by decide) (fieldByte e 7)
  have hslewRange := nearest_range (lo := 1) (hi := 5000) (by decide) (fieldWord e 8)
  have htrimRange := nearest_range (lo := -5000) (hi := 5000) (by decide) (fieldInt e 10)
  have hholdRange := nearest_range (lo := 1) (hi := 72) (by decide) (fieldByte e 12)
  have hclassRange := nearest_range (lo := 1) (hi := 6) (by decide) (fieldByte e 13)
  have hfreeRange := nearest_range (lo := 1) (hi := 6) (by decide) (fieldByte e 14)
  rw [shelfOk_iff]
  omega

/-- The bytes of a shelf record in range are read as that record. -/
theorem readShelf_shelfBytes {c : ShelfRec} (h : shelfOk c = true) : readShelf (shelfBytes c) = some (c, 0) := by
  obtain ⟨hid, hstop, hquality, htag, hverify, hwarm, hslew, htrim, hhold, hclass, hfree, _⟩ := shelfBytes_fields h
  have hstopLe := Bool.toNat_le c.stop
  have hqualityLe := Bool.toNat_le c.quality
  obtain ⟨c', n, hread, hid', hstop', hquality', htag', hverify', hwarm', hslew', htrim', hhold', hclass', hfree', hn⟩ :=
    readShelf_said (shelfBytes c) (by omega) (by omega)
  rw [hid] at hid'
  rw [hstop] at hstop'
  rw [hquality] at hquality'
  rw [htag] at htag' hn
  rw [hverify] at hverify' hn
  rw [hwarm] at hwarm' hn
  rw [hslew] at hslew' hn
  rw [htrim] at htrim' hn
  rw [hhold] at hhold' hn
  rw [hclass] at hclass' hn
  rw [hfree] at hfree' hn
  obtain ⟨rtag, rverify, rwarm, rslew, rtrim, rhold, rclass, rfree⟩ := (shelfOk_iff c).1 h
  rw [nearest_self (by omega) (by omega)] at htag' hverify' hwarm' hslew' htrim' hhold' hclass' hfree'
  have hsame : c' = c := by
    cases c
    cases c'
    simp only [ShelfRec.mk.injEq]
    refine ⟨BitVec.eq_of_toNat_eq hid', hstop'.trans ?_, hquality'.trans ?_, Int.natCast_inj.1 htag', Int.natCast_inj.1 hverify',
      Int.natCast_inj.1 hwarm', Int.natCast_inj.1 hslew', htrim', Int.natCast_inj.1 hhold', Int.natCast_inj.1 hclass',
      Int.natCast_inj.1 hfree'⟩
    · simp
    · simp
  rw [hread, hn, hsame, clamped_same]
  simp

end

/-! ### A port profile (R18) -/

theorem profileBytes_eq (f : Profile) : profileBytes f =
    byte8 f.alpha.toNat :: byte8 f.beta.toNat :: byte8 f.k :: byte8 (twos 16 f.limit / 256) :: byte8 (twos 16 f.limit) ::
      byte8 (twos 16 f.losThr / 256) :: byte8 (twos 16 f.losThr) :: byte8 f.losN :: byte8 (twos 16 f.degThr / 256) ::
      byte8 (twos 16 f.degThr) :: byte8 (twos 16 f.failThr / 256) :: byte8 (twos 16 f.failThr) ::
      byte8 (twos 16 f.hyst / 256) :: byte8 (twos 16 f.hyst) :: [byte8 f.defN, 0] := rfl

/-- The fields of a profile read back. -/
theorem profileBytes_fields {f : Profile} (h : profileOk f = true) :
    let b := fieldByte (profileBytes f)
    let z := fieldInt (profileBytes f)
    b 0 = f.alpha ∧ b 1 = f.beta ∧ b 2 = f.k ∧ z 3 = f.limit ∧ z 5 = f.losThr ∧ b 7 = f.losN ∧ z 8 = f.degThr ∧
    z 10 = f.failThr ∧ z 12 = f.hyst ∧ b 14 = f.defN ∧ b 15 = 0 := by
  obtain ⟨halpha, hbeta, hk, hlimit, hlosThr, hlosN, hdeg, hfail, hhyst, hgap, hdefN⟩ := (profileOk_iff f).1 h
  intro b z
  refine ⟨?_, ?_, ?_, ?_, ?_, ?_, ?_, ?_, ?_, ?_, rfl⟩
  case refine_4 | refine_5 | refine_7 | refine_8 | refine_9 =>
    exact fieldInt_of_word (by rw [profileBytes_eq]; simp) (by omega) (by omega)
  all_goals
    simp only [b, profileBytes_eq, fieldByte_succ, fieldByte_zero, byte8_toNat]
    omega

section
variable (e : List Byte)

theorem readProfile_eq : readProfile e = ((readProfile e).1, (readProfile e).2) := rfl

/-- R18: the fields that a load takes. -/
theorem readProfile_fields :
    let f := (readProfile e).1
    f.alpha = nearest 1 16 (fieldByte e 0) ∧ f.beta = nearest 0 15 (fieldByte e 1) ∧ f.k = nearest 4 12 (fieldByte e 2) ∧
    f.limit = (if fieldInt e 3 ≤ 0 then 0 else nearest 50 3000 (fieldInt e 3)) ∧
    f.losThr = nearest (-5000) 0 (fieldInt e 5) ∧ f.losN = nearest 1 8 (fieldByte e 7) ∧
    f.degThr = nearest 50 2000 (fieldInt e 8) ∧ f.failThr = max (nearest 100 3000 (fieldInt e 10)) (f.degThr + 50) ∧
    f.hyst = nearest 10 (min 500 (f.degThr - 10)) (fieldInt e 12) ∧ f.defN = nearest 1 255 (fieldByte e 14) := by
  intro f
  have hdeg : f.degThr = nearest 50 2000 (fieldInt e 8) := by
    rw [← atInt_eq]
    exact clampInt_nearest (by decide) _
  have hrange := nearest_range (lo := 50) (hi := 2000) (by decide) (fieldInt e 8)
  refine ⟨clampInt_nearest (lo := 1) (hi := 16) (by decide) _, clampInt_nearest (lo := 0) (hi := 15) (by decide) (fieldByte e 1),
    clampNat_nearest (by decide) _, ?_, ?_, clampNat_nearest (by decide) _, hdeg, ?_, ?_, clampNat_nearest (by decide) _⟩
  · change (if atInt e 3 ≤ 0 then 0 else clampInt 50 3000 (atInt e 3)) = _
    rw [atInt_eq, clampInt_nearest (by decide)]
  · rw [← atInt_eq]
    exact clampInt_nearest (by decide) _
  · change max (clampInt 100 3000 (atInt e 10)) (f.degThr + 50) = _
    rw [atInt_eq, clampInt_nearest (by decide)]
  · change clampInt 10 (min 500 (f.degThr - 10)) (clampInt 10 500 (atInt e 12)) = _
    rw [atInt_eq, clampInt_nearest (lo := 10) (hi := 500) (by decide), clampInt_nearest (by omega)]
    unfold nearest
    omega

theorem readProfile_clamps :
    let f := (readProfile e).1
    (readProfile e).2 = clamped [(fieldByte e 0, f.alpha), (fieldByte e 1, f.beta), (fieldByte e 2, f.k), (fieldInt e 3, f.limit),
      (fieldInt e 5, f.losThr), (fieldByte e 7, f.losN), (fieldInt e 8, f.degThr), (fieldInt e 10, f.failThr),
      (fieldInt e 12, f.hyst), (fieldByte e 14, f.defN)] := by
  intro f
  have hsum : (readProfile e).2 = changed (at8 e 0 : Int) f.alpha + changed (at8 e 1 : Int) f.beta + changed (at8 e 2) f.k +
    changed (atInt e 3) f.limit + changed (atInt e 5) f.losThr + changed (at8 e 7) f.losN +
    changed (atInt e 8) f.degThr + changed (atInt e 10) f.failThr + changed (atInt e 12) f.hyst +
    changed (at8 e 14) f.defN := rfl
  rw [hsum]
  simp only [clamped_cons, clamped_nil, changed_int, at8_eq, atInt_eq, Nat.add_zero, Nat.add_assoc]

theorem readProfile_ok : profileOk (readProfile e).1 = true := by
  obtain ⟨halpha, hbeta, hk, hlimit, hlosThr, hlosN, hdeg, hfail, hhyst, hdefN⟩ := readProfile_fields e
  generalize (readProfile e).1 = f at *
  have ralpha := nearest_range (lo := 1) (hi := 16) (by decide) (fieldByte e 0)
  have rbeta := nearest_range (lo := 0) (hi := 15) (by decide) (fieldByte e 1)
  have rk := nearest_range (lo := 4) (hi := 12) (by decide) (fieldByte e 2)
  have rlimit := nearest_range (lo := 50) (hi := 3000) (by decide) (fieldInt e 3)
  have rlosThr := nearest_range (lo := -5000) (hi := 0) (by decide) (fieldInt e 5)
  have rlosN := nearest_range (lo := 1) (hi := 8) (by decide) (fieldByte e 7)
  have rdeg := nearest_range (lo := 50) (hi := 2000) (by decide) (fieldInt e 8)
  have rfail := nearest_range (lo := 100) (hi := 3000) (by decide) (fieldInt e 10)
  have rhyst := nearest_range (lo := 10) (hi := min 500 (f.degThr - 10)) (by omega) (fieldInt e 12)
  have rdefN := nearest_range (lo := 1) (hi := 255) (by decide) (fieldByte e 14)
  have hlimitOk : f.limit = 0 ∨ (50 ≤ f.limit ∧ f.limit ≤ 3000) := by
    rw [hlimit]
    split
    · exact .inl rfl
    · exact .inr rlimit
  rw [profileOk_iff]
  omega

/-- The bytes of a profile in range are read as that profile. -/
theorem readProfile_profileBytes {f : Profile} (h : profileOk f = true) : readProfile (profileBytes f) = (f, 0) := by
  obtain ⟨halpha, hbeta, hk, hlimit, hlosThr, hlosN, hdeg, hfail, hhyst, hdefN, _⟩ := profileBytes_fields h
  obtain ⟨ralpha, rbeta, rk, rlimit, rlosThr, rlosN, rdeg, rfail, rhyst, rgap, rdefN⟩ := (profileOk_iff f).1 h
  obtain ⟨halpha', hbeta', hk', hlimit', hlosThr', hlosN', hdeg', hfail', hhyst', hdefN'⟩ := readProfile_fields (profileBytes f)
  have hn := readProfile_clamps (profileBytes f)
  rw [readProfile_eq]
  generalize (readProfile (profileBytes f)).2 = n at *
  generalize (readProfile (profileBytes f)).1 = f' at *
  simp only at hn
  rw [halpha] at halpha' hn
  rw [hbeta] at hbeta' hn
  rw [hk] at hk' hn
  rw [hlimit] at hlimit' hn
  rw [hlosThr] at hlosThr' hn
  rw [hlosN] at hlosN' hn
  rw [hdeg] at hdeg' hn
  rw [hfail] at hfail' hn
  rw [hhyst] at hhyst' hn
  rw [hdefN] at hdefN' hn
  rw [nearest_self (by omega) (by omega)] at halpha' hbeta' hk' hlosThr' hlosN' hdeg' hdefN'
  rw [hdeg'] at hfail' hhyst'
  rw [nearest_self (by omega) (by omega), max_eq_left (by omega)] at hfail'
  rw [nearest_self (by omega) (by omega)] at hhyst'
  have hlimit'' : f'.limit = f.limit := by
    rw [hlimit']
    split
    · omega
    · exact nearest_self (by omega) (by omega)
  have hsame : f' = f := by
    cases f
    cases f'
    simp only [Profile.mk.injEq]
    exact ⟨halpha', hbeta', Int.natCast_inj.1 hk', hlimit'', hlosThr', Int.natCast_inj.1 hlosN', hdeg', hfail', hhyst',
      Int.natCast_inj.1 hdefN'⟩
  rw [hn, hsame, clamped_same]
  simp

end

end Sys2Proof.Proofs
end

