-- ==== Sys2Proof/Proofs/PortsAndCabling.lean ====
section
/-! Alarm profiles, contact inputs, ports and cabling expectations in the load format (R10, R40, R127, R145, R167, section
11.1). -/

namespace Sys2Proof.Proofs

open Sys2Proof.Machine Sys2Proof.Safety Sys2Proof.Laws

/-! ### The codes of section 11.1 -/

theorem severityOf_iff (n : Nat) (x : Severity) : severityOf n = some x ↔ n = x.code := by
  constructor
  · unfold severityOf
    split <;> intro h <;> cases h <;> rfl
  · rintro rfl
    cases x <;> rfl

theorem severity_code (x : Severity) : x.code = [Severity.crit, .maj, .min, .event, .off].idxOf x + 1 := by cases x <;> rfl

theorem severity_listed {n : Nat} {x : Severity} (h : [Severity.crit, .maj, .min, .event, .off][n - 1]? = some x) (hn : n ≠ 0) :
    n = x.code := by
  have hlt : n - 1 < 5 := (List.getElem?_eq_some_iff.1 h).1
  obtain rfl | rfl | rfl | rfl | rfl : n = 1 ∨ n = 2 ∨ n = 3 ∨ n = 4 ∨ n = 5 := by omega
  all_goals
    cases h
    rfl

theorem contactRoleOf_iff (n : Nat) (x : ContactRole) : contactRoleOf n = some x ↔ n = x.code := by
  constructor
  · unfold contactRoleOf
    split <;> intro h <;> cases h <;> rfl
  · rintro rfl
    cases x <;> rfl

theorem contactRole_code (x : ContactRole) : x.code = [ContactRole.none, .aco, .frame, .generic].idxOf x := by cases x <;> rfl

theorem contactRole_code_le (x : ContactRole) : x.code ≤ 3 := by cases x <;> decide

theorem contactRole_listed {n : Nat} {x : ContactRole} (h : [ContactRole.none, .aco, .frame, .generic][n]? = some x) :
    n = x.code := by
  have hlt : n < 4 := (List.getElem?_eq_some_iff.1 h).1
  obtain rfl | rfl | rfl | rfl : n = 0 ∨ n = 1 ∨ n = 2 ∨ n = 3 := by omega
  all_goals
    cases h
    rfl

theorem roleOf_iff (n : Nat) (x : Role) : roleOf n = some x ↔ n = x.code := by
  constructor
  · unfold roleOf
    split <;> intro h <;> cases h <;> rfl
  · rintro rfl
    cases x <;> rfl

theorem role_code (x : Role) : x.code = [Role.spare, .line, .trib].idxOf x := by cases x <;> rfl

theorem role_code_le (x : Role) : x.code ≤ 2 := by cases x <;> decide

theorem expKindOf_iff (b : Byte) (x : ExpKind) : expKindOf b = some x ↔ b.toNat = x.code := by
  unfold expKindOf
  simp only [← BitVec.toNat_inj]
  change (if b.toNat = 0 then some ExpKind.any else if b.toNat = 1 then some .tag else if b.toNat = 2 then some .dark else none) =
    some x ↔ _
  generalize b.toNat = n
  constructor
  · intro h
    split at h
    · next h0 => cases h; exact h0
    · split at h
      · next h1 => cases h; exact h1
      · split at h
        · next h2 => cases h; exact h2
        · cases h
  · rintro rfl
    cases x <;> rfl

theorem expKind_code (x : ExpKind) : x.code = [ExpKind.any, .tag, .dark].idxOf x := by cases x <;> rfl

theorem expKind_code_le (x : ExpKind) : x.code ≤ 2 := by cases x <;> decide

/-! ### An alarm profile entry (R127) -/

theorem alarmProfileOk_iff (y : Fin 24) (f : AlarmProfile) : alarmProfileOk y f = true ↔
    (f.raise ≤ 10000 ∧ f.raise % 100 = 0) ∧ (f.clear ≤ 30000 ∧ f.clear % 100 = 0) ∧
    ¬(f.severity.tabled = true ∧ (y = CondType.switch.index ∨ y = CondType.refSwitch.index)) := by
  simp only [alarmProfileOk, Bool.and_eq_true, decide_eq_true_eq, Bool.not_eq_true', Bool.and_eq_false_iff,
    decide_eq_false_iff_not, not_and_or, Bool.not_eq_true, and_assoc]

theorem alarmProfileBytes_eq (f : AlarmProfile) : alarmProfileBytes f = byte8 f.severity.code :: 0 :: byte8 (f.raise / 256) ::
    byte8 f.raise :: [byte8 (f.clear / 256), byte8 f.clear] := rfl

theorem alarmProfileBytes_fields {y : Fin 24} {f : AlarmProfile} (h : alarmProfileOk y f = true) :
    fieldByte (alarmProfileBytes f) 0 = f.severity.code ∧ fieldByte (alarmProfileBytes f) 1 = 0 ∧
    fieldWord (alarmProfileBytes f) 2 = f.raise ∧ fieldWord (alarmProfileBytes f) 4 = f.clear := by
  obtain ⟨⟨hraise, _⟩, ⟨hclear, _⟩, _⟩ := (alarmProfileOk_iff y f).1 h
  have hcode : f.severity.code ≤ 5 := by cases f.severity <;> decide
  refine ⟨?_, rfl, ?_, ?_⟩
  all_goals
    simp only [alarmProfileBytes_eq, fieldByte_zero, fieldWord_succ, fieldWord_bytes16, byte8_toNat]
    omega

section
variable {y : Fin 24} {e : List Byte}

/-- R127: the fields that a load takes. -/
theorem readAlarm_said {sv : Severity} (hsv : fieldByte e 0 = sv.code)
    (hok : ¬(sv.tabled = true ∧ (y = CondType.switch.index ∨ y = CondType.refSwitch.index))) :
    readAlarm y e = some ({ severity := sv, raise := hundreds 10000 (fieldWord e 2), clear := hundreds 30000 (fieldWord e 4) },
      clamped [(fieldWord e 2, hundreds 10000 (fieldWord e 2)), (fieldWord e 4, hundreds 30000 (fieldWord e 4))]) := by
  have hread : severityOf (at8 e 0) = some sv := (severityOf_iff _ _).2 hsv
  unfold readAlarm
  rw [hread]
  simp only [if_neg hok, clamped_cons, clamped_nil, changed_int, at16_eq, Nat.add_zero]

theorem readAlarm_some {f : AlarmProfile} {n : Nat} (h : readAlarm y e = some (f, n)) : fieldByte e 0 = f.severity.code ∧
    ¬(f.severity.tabled = true ∧ (y = CondType.switch.index ∨ y = CondType.refSwitch.index)) := by
  unfold readAlarm at h
  cases hread : severityOf (at8 e 0) with
  | none =>
    rw [hread] at h
    cases h
  | some sv =>
    rw [hread] at h
    simp only at h
    split at h
    · cases h
    · next hok =>
      cases h
      exact ⟨(severityOf_iff _ _).1 hread, hok⟩

theorem readAlarm_ok {f : AlarmProfile} {n : Nat} (h : readAlarm y e = some (f, n)) : alarmProfileOk y f = true := by
  obtain ⟨hsv, hok⟩ := readAlarm_some h
  have hf := congrArg Prod.fst (Option.some.inj ((readAlarm_said hsv hok).symm.trans h))
  have hraise : hundreds 10000 (fieldWord e 2) = f.raise := congrArg AlarmProfile.raise hf
  have hclear : hundreds 30000 (fieldWord e 4) = f.clear := congrArg AlarmProfile.clear hf
  refine (alarmProfileOk_iff _ _).2 ⟨?_, ?_, hok⟩
  · rw [← hraise]
    exact hundreds_range (by decide)
  · rw [← hclear]
    exact hundreds_range (by decide)

theorem readAlarm_alarmProfileBytes {f : AlarmProfile} (h : alarmProfileOk y f = true) :
    readAlarm y (alarmProfileBytes f) = some (f, 0) := by
  obtain ⟨hsv, _, hraise, hclear⟩ := alarmProfileBytes_fields h
  obtain ⟨⟨hr, hr'⟩, ⟨hc, hc'⟩, hok⟩ := (alarmProfileOk_iff y f).1 h
  rw [readAlarm_said hsv hok, hraise, hclear, hundreds_self hr hr', hundreds_self hc hc', clamped_same]
  simp

end

/-! ### A contact input entry (R145) -/

theorem contactBytes_fields {c : ContactIn} (h : contactOk c.frameSection c.debounce = true) :
    fieldByte (contactBytes c) 0 = c.role.code ∧ fieldByte (contactBytes c) 1 = c.frameSection ∧
    fieldByte (contactBytes c) 2 = c.activeHigh.toNat ∧ fieldByte (contactBytes c) 3 = c.debounce := by
  simp only [contactOk, Bool.and_eq_true, decide_eq_true_eq] at h
  have hrole := contactRole_code_le c.role
  have hhigh := Bool.toNat_le c.activeHigh
  simp only [contactBytes, fieldByte_succ, fieldByte_zero, byte8_toNat]
  refine ⟨?_, ?_, ?_, ?_⟩ <;> omega

section
variable {e : List Byte}

/-- R145: the fields that a load takes. -/
theorem readContact_said {role : ContactRole} (hrole : fieldByte e 0 = role.code) (hsection : fieldByte e 1 ≤ 7)
    (hhigh : fieldByte e 2 ≤ 1) : ∃ d : Nat, d = nearest 1 255 (fieldByte e 3) ∧
      readContact e = some
        ({ role := role, frameSection := fieldByte e 1, activeHigh := decide (fieldByte e 2 = 1), debounce := d },
          clamped [(fieldByte e 3, d)]) := by
  have hread : contactRoleOf (at8 e 0) = some role := (contactRoleOf_iff _ _).2 hrole
  have hnot : ¬(7 < fieldByte e 1 ∨ 1 < fieldByte e 2) := by omega
  refine ⟨_, clampNat_nearest (by decide) _, ?_⟩
  unfold readContact
  rw [hread]
  simp only [at8_eq, if_neg hnot, clamped_cons, clamped_nil, changed_int, Nat.add_zero]
  rfl

theorem readContact_some {c : ContactEntry} {n : Nat} (h : readContact e = some (c, n)) :
    fieldByte e 0 = c.role.code ∧ fieldByte e 1 ≤ 7 ∧ fieldByte e 2 ≤ 1 := by
  unfold readContact at h
  cases hread : contactRoleOf (at8 e 0) with
  | none =>
    rw [hread] at h
    cases h
  | some role =>
    rw [hread] at h
    simp only at h
    split at h
    · cases h
    · next hnot =>
      cases h
      simp only [at8_eq] at hnot
      exact ⟨(contactRoleOf_iff _ _).1 hread, by omega, by omega⟩

theorem readContact_ok {c : ContactEntry} {n : Nat} (h : readContact e = some (c, n)) :
    contactOk c.frameSection c.debounce = true := by
  obtain ⟨hrole, hsection, hhigh⟩ := readContact_some h
  obtain ⟨d, hd, hread⟩ := readContact_said hrole hsection hhigh
  have hc := congrArg Prod.fst (Option.some.inj (hread.symm.trans h))
  have hsame : fieldByte e 1 = c.frameSection ∧ d = c.debounce :=
    ⟨congrArg ContactEntry.frameSection hc, congrArg ContactEntry.debounce hc⟩
  have hrange := nearest_range (lo := 1) (hi := 255) (by decide) (fieldByte e 3)
  simp only [contactOk, Bool.and_eq_true, decide_eq_true_eq]
  omega

theorem readContact_contactBytes {c : ContactIn} (h : contactOk c.frameSection c.debounce = true) : readContact (contactBytes c) =
    some ({ role := c.role, frameSection := c.frameSection, activeHigh := c.activeHigh, debounce := c.debounce }, 0) := by
  obtain ⟨hrole, hsection, hhigh, hdebounce⟩ := contactBytes_fields h
  simp only [contactOk, Bool.and_eq_true, decide_eq_true_eq] at h
  have hbool := Bool.toNat_le c.activeHigh
  obtain ⟨d, hd, hread⟩ := readContact_said hrole (by omega) (by omega)
  rw [hdebounce, nearest_self (by omega) (by omega)] at hd
  rw [hread, hsection, hhigh, hdebounce, Int.natCast_inj.1 hd, clamped_same]
  · simp
  · simp

end

/-! ### A port table entry (R10, R167) -/

/-- R62, R99: a port is a member of a group. -/
def IsMember (p : Port) (g : Group) : Prop := p = g.prot ∨ p ∈ g.work

/-- R62, R99: a reference's binding. -/
def IsBound (s : State) (kind : BindKind) (n : Nat) : Prop :=
  ∃ r : RefIx, s.tsel.refs[r].entry.bindKind = kind ∧ s.tsel.refs[r].entry.bindNum = n

theorem has_iff (g : Group) (p : Port) : g.has p = true ↔ IsMember p g := by
  unfold Group.has Group.memberOf IsMember
  by_cases h : g.prot = p
  · rw [if_pos h]
    exact iff_of_true rfl (.inl h.symm)
  · rw [if_neg h, Option.isSome_map, List.findIdx?_isSome, List.any_eq_true]
    simp only [beq_iff_eq, exists_eq_right]
    exact (or_iff_right fun heq => h heq.symm).symm

section
variable (s : State)

theorem boundPort_iff (p : Port) : boundPort s p = true ↔ IsBound s .port p := by
  unfold boundPort IsBound
  rw [List.any_eq_true]
  simp only [Bool.and_eq_true, decide_eq_true_eq, beq_iff_eq]
  exact ⟨fun ⟨r, _, h⟩ => ⟨r, h⟩, fun ⟨r, h⟩ => ⟨r, mem_allRefs r, h⟩⟩

theorem boundGroupIx_iff (gi : GroupIx) : boundGroupIx s gi = true ↔ IsBound s .group gi := by
  unfold boundGroupIx IsBound
  rw [List.any_eq_true]
  simp only [Bool.and_eq_true, decide_eq_true_eq, beq_iff_eq]
  exact ⟨fun ⟨r, _, h⟩ => ⟨r, h⟩, fun ⟨r, h⟩ => ⟨r, mem_allRefs r, h⟩⟩

/-- R62: no other group has the port. -/
theorem otherMember_eq_false (but : Option GroupIx) (p : Port) : otherMember s but p = false ↔
    ∀ (j : GroupIx) g, some j ≠ but → s.prc.groups[j] = some g → ¬IsMember p g := by
  unfold otherMember
  rw [List.any_eq_false]
  refine ⟨fun h j g hj hg hmem => h j (List.mem_finRange j) ?_, fun h j _ htrue => ?_⟩
  · rw [hg, Bool.and_eq_true, decide_eq_true_eq]
    exact ⟨hj, (has_iff g p).2 hmem⟩
  · rw [Bool.and_eq_true, decide_eq_true_eq] at htrue
    obtain ⟨hj, hhas⟩ := htrue
    cases hg : s.prc.groups[j] with
    | none =>
      rw [hg] at hhas
      cases hhas
    | some g =>
      rw [hg] at hhas
      exact h j g hj hg ((has_iff g p).1 hhas)

/-- R167: a change of role that no group and no reference stands against. -/
def RoleFree (p : Port) : Prop := ¬IsBound s .port p ∧ ∀ (gi : GroupIx) g, s.prc.groups[gi] = some g → ¬IsMember p g

theorem roleFree_iff (p : Port) : RoleFree s p ↔ ¬(otherMember s none p = true ∨ boundPort s p = true) := by
  rw [not_or, Bool.not_eq_true, otherMember_eq_false, boundPort_iff, RoleFree, and_comm]
  exact and_congr_left' ⟨fun h j g _ => h j g, fun h j g => h j g nofun⟩

/-- R10: what the baseline fields of an entry say. -/
def BaseSays (e : List Byte) (base : BaseField) : Prop :=
  (fieldByte e 2 = 0 ∧ base = .value (nearest (-5000) 1000 (fieldInt e 4))) ∨ (fieldByte e 2 = 1 ∧ base = .absent) ∨
  (fieldByte e 2 = 2 ∧ base = .keep)

theorem baseOf_iff (e : List Byte) (x : BaseField × Nat) : baseOf (at8 e 2) (atInt e 4) = some x ↔
    BaseSays e x.1 ∧
      x.2 = if fieldByte e 2 = 0 then clamped [(fieldInt e 4, nearest (-5000) 1000 (fieldInt e 4))] else 0 := by
  rw [at8_eq, atInt_eq]
  unfold BaseSays
  obtain ⟨base, n⟩ := x
  have hclamp : clampInt (-5000) 1000 (fieldInt e 4) = nearest (-5000) 1000 (fieldInt e 4) := clampInt_nearest (by decide) _
  generalize fieldByte e 2 = mode
  unfold baseOf
  split
  · rw [hclamp]
    simp [clamped_cons, clamped_nil, eq_comm]
  · simp [eq_comm]
  · simp [eq_comm]
  · next h0 h1 h2 =>
    have h0 : mode ≠ 0 := h0
    have h1 : mode ≠ 1 := h1
    have h2 : mode ≠ 2 := h2
    simp [h0, h1, h2]

variable {s} {p : Port} {e : List Byte}

/-- R167: the fields that a load takes. -/
theorem readPort_said {role : Role} {base : BaseField} (hprofile : fieldByte e 1 < 8) (hpop : s.populated p = true)
    (hrole : fieldByte e 0 = role.code) (hfree : role ≠ s.pmon.ports[p].role → RoleFree s p) (hbase : BaseSays e base) :
    readPort s p e = some ({ role := role, profile := ⟨fieldByte e 1, hprofile⟩, base := base },
      if fieldByte e 2 = 0 then clamped [(fieldInt e 4, nearest (-5000) 1000 (fieldInt e 4))] else 0) := by
  have hr : roleOf (at8 e 0) = some role := (roleOf_iff _ _).2 hrole
  have hb := (baseOf_iff e (base, _)).2 ⟨hbase, rfl⟩
  have hnot : ¬(role ≠ s.pmon.ports[p].role ∧ (otherMember s none p = true ∨ boundPort s p = true)) :=
    fun ⟨hne, hno⟩ => (roleFree_iff s p).1 (hfree hne) hno
  have hlt : at8 e 1 < 8 := hprofile
  unfold readPort
  simp only [hr, hb, dif_pos hlt, hpop, Bool.not_true, Bool.false_eq_true, if_false, if_neg hnot]
  rfl

theorem readPort_some {x : PortEntry} {n : Nat} (h : readPort s p e = some (x, n)) : fieldByte e 0 = x.role.code ∧
    fieldByte e 1 = x.profile ∧ BaseSays e x.base ∧ s.populated p = true ∧
    (x.role ≠ s.pmon.ports[p].role → RoleFree s p) := by
  unfold readPort at h
  cases hr : roleOf (at8 e 0) with
  | none =>
    simp only [hr] at h
    cases h
  | some role =>
    cases hb : baseOf (at8 e 2) (atInt e 4) with
    | none =>
      simp only [hr, hb] at h
      cases h
    | some b =>
      simp only [hr, hb] at h
      split at h
      · split at h
        · cases h
        · next hpop =>
          split at h
          · cases h
          · next hnot =>
            cases h
            refine ⟨(roleOf_iff _ _).1 hr, rfl, ((baseOf_iff e b).1 hb).1, by simpa using hpop, fun hne => ?_⟩
            exact (roleFree_iff s p).2 fun hno => hnot ⟨hne, hno⟩
      · cases h

theorem baseSays_range {base : BaseField} (h : BaseSays e base) : ∀ b, base = .value b → inPower b = true := by
  rintro b rfl
  obtain ⟨_, heq⟩ | ⟨_, heq⟩ | ⟨_, heq⟩ := h
  · cases heq
    have := nearest_range (lo := -5000) (hi := 1000) (by decide) (fieldInt e 4)
    simpa [inPower] using this
  · cases heq
  · cases heq

end

section
variable (s : State) (p : Port)

theorem portBytes_unpopulated (h : s.populated p = false) : portBytes s p = [0, 0, 1, 0, 0, 0] := by
  unfold portBytes
  simp only [h, Bool.false_eq_true, if_false]

theorem portBytes_value (h : s.populated p = true) {b : Int} (hb : s.pmon.ports[p].baseline = some b) : portBytes s p =
    byte8 s.pmon.ports[p].role.code :: byte8 s.pmon.ports[p].profile.val :: 0 :: 0 :: byte8 (twos 16 b / 256) ::
      [byte8 (twos 16 b)] := by
  unfold portBytes
  simp only [h, if_true, hb]
  rfl

theorem portBytes_absent (h : s.populated p = true) (hb : s.pmon.ports[p].baseline = none) : portBytes s p =
    [byte8 s.pmon.ports[p].role.code, byte8 s.pmon.ports[p].profile.val, 1, 0, 0, 0] := by
  unfold portBytes
  simp only [h, if_true, hb]
  rfl

/-- The fields of a populated port read back. -/
theorem portBytes_fields (h : s.populated p = true) :
    let b := fieldByte (portBytes s p)
    b 0 = s.pmon.ports[p].role.code ∧ b 1 = s.pmon.ports[p].profile ∧ b 3 = 0 ∧
    (∀ v, s.pmon.ports[p].baseline = some v → inPower v = true → b 2 = 0 ∧ fieldInt (portBytes s p) 4 = v) ∧
    (s.pmon.ports[p].baseline = none → b 2 = 1 ∧ fieldWord (portBytes s p) 4 = 0) := by
  intro b
  have hrole := role_code_le s.pmon.ports[p].role
  have hprofile := s.pmon.ports[p].profile.isLt
  have hfirst (rest : List Byte) (hbytes : portBytes s p =
      byte8 s.pmon.ports[p].role.code :: byte8 s.pmon.ports[p].profile.val :: rest) :
      b 0 = s.pmon.ports[p].role.code ∧ b 1 = s.pmon.ports[p].profile := by
    simp only [b, hbytes, fieldByte_succ, fieldByte_zero, byte8_toNat]
    omega
  cases hb : s.pmon.ports[p].baseline with
  | none =>
    have hbytes := portBytes_absent s p h hb
    obtain ⟨h0, h1⟩ := hfirst _ hbytes
    refine ⟨h0, h1, by simp only [b, hbytes]; rfl, nofun, fun _ => ⟨by simp only [b, hbytes]; rfl, by rw [hbytes]; exact fieldWord_bytes16 [] 0⟩⟩
  | some v =>
    have hbytes := portBytes_value s p h hb
    obtain ⟨h0, h1⟩ := hfirst _ hbytes
    refine ⟨h0, h1, by simp only [b, hbytes]; rfl, fun w hw hrange => ?_, nofun⟩
    cases hw
    obtain ⟨hlo, hhi⟩ := (inPower_iff v).1 hrange
    exact ⟨by simp only [b, hbytes]; rfl, fieldInt_of_word (by rw [hbytes]; exact fieldWord_bytes16 [] (twos 16 v))
      (by omega) (by omega)⟩

/-- The bytes of a populated port are read as its entry. -/
theorem readPort_portBytes (h : s.populated p = true) (hrange : s.pmon.ports[p].baseline.all inPower = true) :
    readPort s p (portBytes s p) = some ({ role := s.pmon.ports[p].role, profile := s.pmon.ports[p].profile
                                           base := match s.pmon.ports[p].baseline with
                                             | some b => .value b
                                             | none => .absent }, 0) := by
  obtain ⟨hrole, hprofile, _, hvalue, habsent⟩ := portBytes_fields s p h
  have hlt : fieldByte (portBytes s p) 1 < 8 := by
    rw [hprofile]
    exact s.pmon.ports[p].profile.isLt
  have hsame : (⟨fieldByte (portBytes s p) 1, hlt⟩ : Fin 8) = s.pmon.ports[p].profile := Fin.ext hprofile
  cases hb : s.pmon.ports[p].baseline with
  | none =>
    obtain ⟨hmode, _⟩ := habsent hb
    rw [readPort_said hlt h hrole (fun hne => absurd rfl hne) (.inr (.inl ⟨hmode, rfl⟩)), if_neg (by rw [hmode]; decide), hsame]
  | some v =>
    rw [hb] at hrange
    have hv : inPower v = true := hrange
    obtain ⟨hmode, hint⟩ := hvalue v hb hv
    obtain ⟨hlo, hhi⟩ := (inPower_iff v).1 hv
    have hnear := nearest_self hlo hhi
    rw [readPort_said hlt h hrole (fun hne => absurd rfl hne) (.inl ⟨hmode, rfl⟩), if_pos hmode, hsame, hint, hnear, clamped_same]
    simp

end

/-! ### A cabling expectation (R40) -/

section
variable {s : State} {p : Port} {e : List Byte} {x : Expectation}

theorem expectationOf_iff (kind port : Byte) (shelf : Word) (x : Expectation) : expectationOf kind port shelf = some x ↔
    kind.toNat = x.kind.code ∧ port = x.port ∧ shelf = x.shelf ∧ (x.kind = .tag → x.port.toNat ≤ 63) := by
  unfold expectationOf
  cases hk : expKindOf kind with
  | none =>
    refine iff_of_false nofun fun ⟨hkind, _⟩ => ?_
    rw [(expKindOf_iff kind x.kind).2 hkind] at hk
    cases hk
  | some k =>
    have hcode := (expKindOf_iff kind k).1 hk
    have hsame : kind.toNat = x.kind.code ↔ k = x.kind := by
      rw [← expKindOf_iff, hk, Option.some.injEq]
    rw [hsame]
    simp only
    split
    · next hbad =>
      obtain ⟨htag, hport⟩ := hbad
      refine iff_of_false nofun fun ⟨hkind, hp, _, hle⟩ => ?_
      have := hle (hkind ▸ htag)
      rw [← hp] at this
      omega
    · next hgood =>
      rw [Option.some.injEq]
      constructor
      · rintro rfl
        exact ⟨rfl, rfl, rfl, fun htag => Nat.not_lt.1 fun hlt => hgood ⟨htag, hlt⟩⟩
      · rintro ⟨rfl, rfl, rfl, _⟩
        rfl

theorem readCabling_iff : readCabling s p e = some x ↔
    (fieldByte e 0 = x.kind.code ∧ fieldByte e 1 = x.port.toNat ∧ fieldWord e 2 = x.shelf.toNat) ∧
    s.cbc.ports[p].hold = none ∧ (x.kind = .tag → x.port.toNat ≤ 63) := by
  have hport : e.getD 1 0 = x.port ↔ fieldByte e 1 = x.port.toNat := BitVec.toNat_inj.symm
  have hshelf : wordOf (e.getD 2 0) (e.getD 3 0) = x.shelf ↔ fieldWord e 2 = x.shelf.toNat := by
    rw [← BitVec.toNat_inj, wordOf_field]
  have hread := expectationOf_iff (e.getD 0 0) (e.getD 1 0) (wordOf (e.getD 2 0) (e.getD 3 0)) x
  rw [hport, hshelf] at hread
  unfold readCabling
  cases hx : expectationOf (e.getD 0 0) (e.getD 1 0) (wordOf (e.getD 2 0) (e.getD 3 0)) with
  | none =>
    rw [hx] at hread
    refine iff_of_false nofun fun ⟨⟨hk, hp, hs⟩, _, hle⟩ => ?_
    cases hread.2 ⟨hk, hp, hs, hle⟩
  | some x' =>
    rw [hx, Option.some.injEq] at hread
    simp only
    split
    · next hheld =>
      refine iff_of_false nofun fun ⟨_, hfree, _⟩ => ?_
      rw [hfree] at hheld
      cases hheld
    · next hfree =>
      rw [Option.some.injEq, hread]
      have hnone := Option.not_isSome_iff_eq_none.1 hfree
      exact ⟨fun ⟨hk, hp, hs, hle⟩ => ⟨⟨hk, hp, hs⟩, hnone, hle⟩, fun ⟨⟨hk, hp, hs⟩, _, hle⟩ => ⟨hk, hp, hs, hle⟩⟩

theorem cablingBytes_fields (x : Expectation) : fieldByte (cablingBytes x) 0 = x.kind.code ∧
    fieldByte (cablingBytes x) 1 = x.port.toNat ∧ fieldWord (cablingBytes x) 2 = x.shelf.toNat := by
  have hkind := expKind_code_le x.kind
  refine ⟨?_, rfl, fieldWord_word [] x.shelf⟩
  change (byte8 x.kind.code).toNat = _
  rw [byte8_toNat]
  omega

end

end Sys2Proof.Proofs
end

