-- ==== Sys2Proof/Proofs/GroupEntries.lean ====
section
/-! Protection groups in the load format (R61, R62, section 11.1). -/

namespace Sys2Proof.Proofs

open Sys2Proof.Machine Sys2Proof.Safety Sys2Proof.Laws

/-! ### A list of ports in an entry -/

theorem mapM_eq_some_iff {α β : Type} {g : α → Option β} {xs : List α} {ys : List β} :
    xs.mapM g = some ys ↔ xs.map g = ys.map some := by
  induction xs generalizing ys with
  | nil => cases ys <;> simp
  | cons x xs ih =>
    simp only [List.mapM_cons, Option.bind_eq_bind, Option.bind_eq_some_iff, Option.pure_def, Option.some.injEq, List.map_cons]
    constructor
    · rintro ⟨y, hy, zs, hzs, rfl⟩
      rw [hy, ih.1 hzs]
      rfl
    · intro h
      cases ys with
      | nil => cases h
      | cons y ys =>
        obtain ⟨hy, hys⟩ := List.cons.inj h
        exact ⟨y, hy, ys, ih.2 hys, rfl⟩

theorem mapM_range_iff {β : Type} {g : Nat → Option β} {n : Nat} {ys : List β} :
    (List.range n).mapM g = some ys ↔ ys.length = n ∧ ∀ k y, ys[k]? = some y → g k = some y := by
  rw [mapM_eq_some_iff]
  constructor
  · intro h
    have hlen : ys.length = n := by
      have := congrArg List.length h
      simpa using this.symm
    refine ⟨hlen, fun k y hy => ?_⟩
    have hlt := (List.getElem?_eq_some_iff.1 hy).1
    have hk := congrArg (fun l : List (Option β) => l[k]?) h
    simp only [List.getElem?_map, hy, Option.map_some, List.getElem?_range (hlen ▸ hlt)] at hk
    exact Option.some.inj hk
  · rintro ⟨rfl, hall⟩
    refine List.ext_getElem (by simp) fun k h1 h2 => ?_
    have hlt : k < ys.length := by simpa using h2
    simp only [List.getElem_map, List.getElem_range]
    exact hall k _ (List.getElem?_eq_getElem hlt)

theorem portOfNat_iff (n : Nat) (p : Port) : portOfNat n = some p ↔ n = p.val := by
  unfold portOfNat
  split
  · rw [Option.some.injEq, Fin.ext_iff]
  · refine iff_of_false nofun fun h => ?_
    omega

/-! ### The kinds -/

theorem groupKindOf_iff (n : Nat) (x : GroupKind) : groupKindOf n = some x ↔ n = x.code := by
  constructor
  · unfold groupKindOf
    split <;> intro h <;> cases h <;> rfl
  · rintro rfl
    cases x <;> rfl

theorem groupKind_code (x : GroupKind) : x.code = [GroupKind.uni, .bi, .oneToN].idxOf x + 1 := by cases x <;> rfl

theorem groupKind_code_range (x : GroupKind) : 1 ≤ x.code ∧ x.code ≤ 3 := by cases x <;> decide

theorem lengthFits_iff (kind : GroupKind) (n : Nat) : lengthFits kind n = true ↔ (kind ≠ .oneToN → n = 1) ∧ 1 ≤ n ∧ n ≤ 6 := by
  cases kind with
  | uni | bi =>
    simp only [lengthFits, beq_iff_eq, ne_eq, reduceCtorEq, not_false_eq_true, forall_const]
    omega
  | oneToN => simp [lengthFits]

/-! ### A group that the state lets stand (R62) -/

section
variable (s : State) (gi : GroupIx)

/-- R62: a port that may be a member of the group. -/
def MayJoin (kind : GroupKind) (p : Port) : Prop := s.populated p = true ∧ s.pmon.ports[p].role = .line ∧
  (∀ (j : GroupIx) g, j ≠ gi → s.prc.groups[j] = some g → ¬IsMember p g) ∧ (kind = .oneToN → ¬IsBound s .port p)

/-- R62: a definition free of structural faults. -/
def GroupStands (kind : GroupKind) (prot : Port) (work : List Port) : Prop :=
  (kind ≠ .oneToN → work.length = 1) ∧ 1 ≤ work.length ∧ work.length ≤ 6 ∧ (prot :: work).Nodup ∧
  (∀ p ∈ prot :: work, MayJoin s gi kind p) ∧ (kind = .oneToN → ¬IsBound s .group gi)

theorem joinable_iff (kind : GroupKind) (p : Port) : joinable s gi kind p = true ↔ MayJoin s gi kind p := by
  have hothers : otherMember s (some gi) p = false ↔
      ∀ (j : GroupIx) g, j ≠ gi → s.prc.groups[j] = some g → ¬IsMember p g := by
    rw [otherMember_eq_false]
    simp only [ne_eq, Option.some.injEq]
  unfold joinable MayJoin
  simp only [Bool.and_eq_true, decide_eq_true_eq, Bool.not_eq_true', hothers, Bool.or_eq_true, and_assoc, ← boundPort_iff,
    Bool.not_eq_true, ne_eq]
  rw [← imp_iff_not_or]

theorem groupStands_iff (kind : GroupKind) (prot : Port) (work : List Port) :
    (!lengthFits kind work.length || !(prot :: work).all (joinable s gi kind) || !decide (prot :: work).Nodup ||
      (decide (kind = .oneToN) && boundGroupIx s gi)) = false ↔ GroupStands s gi kind prot work := by
  have hjoin : (prot :: work).all (joinable s gi kind) = true ↔ ∀ p ∈ prot :: work, MayJoin s gi kind p := by
    rw [List.all_eq_true]
    exact forall₂_congr fun p _ => joinable_iff s gi kind p
  have hbound : (decide (kind = .oneToN) && boundGroupIx s gi) = false ↔ (kind = .oneToN → ¬IsBound s .group gi) := by
    rw [← boundGroupIx_iff, Bool.and_eq_false_iff, decide_eq_false_iff_not, ← imp_iff_not_or, Bool.not_eq_true]
  rw [Bool.or_eq_false_iff, Bool.or_eq_false_iff, Bool.or_eq_false_iff, hbound, Bool.not_eq_false', Bool.not_eq_false',
    Bool.not_eq_false', lengthFits_iff, hjoin, decide_eq_true_eq, GroupStands]
  tauto

end

/-! ### An entry (R62) -/

section
variable (e : List Byte)

/-- Section 11.1: the kind and the members that an entry holds. -/
def GroupHolds (kind : GroupKind) (prot : Port) (work : List Port) : Prop :=
  fieldByte e 0 = kind.code ∧ fieldByte e 1 = prot ∧ fieldByte e 2 = work.length ∧
  ∀ k p, work[k]? = some p → fieldByte e (3 + k) = p.val

/-- R62: the clamped hold-off and WTR of an entry. -/
def groupTimes : Nat × Nat := (hundreds 10000 (fieldWord e 10), clampNat 30 1800 (fieldWord e 12))

/-- R165: the clamp count of a group entry. -/
def groupClamps : Nat := clamped [(fieldWord e 10, (groupTimes e).1), (fieldWord e 12, (groupTimes e).2)]

/-- R62: the definition that an entry gives. -/
def groupDefOf (kind : GroupKind) (prot : Port) (work : List Port) : GroupDef :=
  { kind := kind, prot := prot, work := work, revertive := decide (fieldByte e 9 % 2 = 1)
    degSwitch := decide (fieldByte e 9 / 2 % 2 = 1), holdOff := (groupTimes e).1, wtr := (groupTimes e).2 }

theorem groupClamps_eq : changed (at16 e 10) (hundreds 10000 (at16 e 10)) + changed (at16 e 12) (clampNat 30 1800 (at16 e 12)) =
    groupClamps e := by
  simp only [groupClamps, groupTimes, clamped_cons, clamped_nil, changed_int, at16_eq, Nat.add_zero]

theorem groupTimes_wtr : ((groupTimes e).2 : Int) = nearest 30 1800 (fieldWord e 12) := clampNat_nearest (by decide) _

theorem groupTimes_ok : timesOk (groupTimes e).1 (groupTimes e).2 = true := by
  have hoff := hundreds_range (top := 10000) (by decide) (x := fieldWord e 10)
  have hwtr := nearest_range (lo := 30) (hi := 1800) (by decide) (fieldWord e 12)
  rw [← groupTimes_wtr] at hwtr
  simp only [timesOk, Bool.and_eq_true, decide_eq_true_eq]
  exact ⟨hoff, by omega⟩

theorem bit_zero (n : Nat) : n.testBit 0 = decide (n % 2 = 1) := Nat.testBit_zero n

theorem bit_one (n : Nat) : n.testBit 1 = decide (n / 2 % 2 = 1) := by
  rw [Nat.testBit_succ, Nat.testBit_zero]

theorem entryPorts_iff {n : Nat} {work : List Port} :
    ((List.range n).mapM fun k => portOfNat (at8 e (3 + k))) = some work ↔
      work.length = n ∧ ∀ k p, work[k]? = some p → fieldByte e (3 + k) = p.val := by
  rw [mapM_range_iff]
  simp only [portOfNat_iff, at8_eq]

variable (s : State) (gi : GroupIx)

theorem readGroup_none (h : fieldByte e 0 = 0) : readGroup s gi e = some (none, groupClamps e) := by
  rw [← groupClamps_eq]
  exact if_pos h

variable {e s gi}

/-- R62: the fields that a load takes. -/
theorem readGroup_said {kind : GroupKind} {prot : Port} {work : List Port} (hholds : GroupHolds e kind prot work)
    (hstands : GroupStands s gi kind prot work) :
    readGroup s gi e = some (some (groupDefOf e kind prot work), groupClamps e) := by
  obtain ⟨hkind, hprot, hlen, hwork⟩ := hholds
  have hok := (groupStands_iff s gi kind prot work).2 hstands
  obtain ⟨_, _, hsix, _⟩ := hstands
  have hcode := groupKind_code_range kind
  have hk : groupKindOf (at8 e 0) = some kind := (groupKindOf_iff _ _).2 hkind
  have hp : portOfNat (at8 e 1) = some prot := (portOfNat_iff _ _).2 hprot
  have hcount : at8 e 2 = work.length := hlen
  have hw : ((List.range (min (at8 e 2) 6)).mapM fun k => portOfNat (at8 e (3 + k))) = some work :=
    (entryPorts_iff e).2 ⟨by omega, hwork⟩
  have hne : at8 e 0 ≠ 0 := by
    rw [at8_eq]
    omega
  rw [hcount] at hw
  unfold readGroup
  simp only [if_neg hne, hk, hp, hcount, hw, hok, Bool.false_eq_true, if_false, groupClamps_eq, bit_zero, bit_one]
  rfl

theorem readGroup_some {d : GroupDef} {n : Nat} (h : readGroup s gi e = some (some d, n)) :
    GroupHolds e d.kind d.prot d.work ∧ GroupStands s gi d.kind d.prot d.work ∧ timesOk d.holdOff d.wtr = true := by
  unfold readGroup at h
  simp only at h
  split at h
  · cases h
  · cases hk : groupKindOf (at8 e 0) with
    | none =>
      simp only [hk] at h
      cases h
    | some kind =>
      cases hp : portOfNat (at8 e 1) with
      | none =>
        simp only [hk, hp] at h
        cases h
      | some prot =>
        cases hw : ((List.range (min (at8 e 2) 6)).mapM fun k => portOfNat (at8 e (3 + k))) with
        | none =>
          simp only [hk, hp, hw] at h
          cases h
        | some work =>
          simp only [hk, hp, hw] at h
          split at h
          · cases h
          · next hok =>
            cases h
            obtain ⟨hlen, hwork⟩ := (entryPorts_iff e).1 hw
            have hok := Bool.eq_false_iff.2 hok
            have hfit : lengthFits kind (at8 e 2) = true := by
              rw [Bool.or_eq_false_iff, Bool.or_eq_false_iff, Bool.or_eq_false_iff] at hok
              simpa using hok.1.1.1
            obtain ⟨_, _, hsix⟩ := (lengthFits_iff _ _).1 hfit
            have hcount : at8 e 2 = work.length := by omega
            rw [hcount] at hok
            exact ⟨⟨(groupKindOf_iff _ _).1 hk, (portOfNat_iff _ _).1 hp, hcount, hwork⟩, (groupStands_iff _ _ _ _ _).1 hok,
              groupTimes_ok e⟩

theorem readGroup_undefined {n : Nat} (h : readGroup s gi e = some (none, n)) : fieldByte e 0 = 0 := by
  unfold readGroup at h
  simp only at h
  split at h
  · next h0 => exact h0
  · exfalso
    cases hk : groupKindOf (at8 e 0) with
    | none =>
      simp only [hk] at h
      cases h
    | some kind =>
      cases hp : portOfNat (at8 e 1) with
      | none =>
        simp only [hk, hp] at h
        cases h
      | some prot =>
        cases hw : ((List.range (min (at8 e 2) 6)).mapM fun k => portOfNat (at8 e (3 + k))) with
        | none =>
          simp only [hk, hp, hw] at h
          cases h
        | some work =>
          simp only [hk, hp, hw] at h
          split at h <;> cases h

end

/-! ### The bytes of a group (R168) -/

/-- The place of a working port in an entry. -/
def workByte (work : List Port) (k : Nat) : Byte := orElse (work[k]?.map (·.val)) 0xFF

theorem groupBytes_eq (g : Group) : groupBytes (some g) = byte8 g.kind.code :: byte8 g.prot.val :: byte8 g.n ::
    workByte g.work 0 :: workByte g.work 1 :: workByte g.work 2 :: workByte g.work 3 :: workByte g.work 4 ::
    workByte g.work 5 :: byte8 (flagAt 0 g.revertive + flagAt 1 g.degSwitch) :: byte8 (g.holdOff / 256) ::
    byte8 g.holdOff :: [byte8 (g.wtr / 256), byte8 g.wtr] := rfl

theorem groupBytes_none : groupBytes none = [0, 0, 0, 0xFF, 0xFF, 0xFF, 0xFF, 0xFF, 0xFF, 0, 0, 0, 0, 0] := rfl

theorem workByte_toNat (work : List Port) (k : Nat) : (workByte work k).toNat = match work[k]? with
    | some p => p.val
    | none => 0xFF := by
  unfold workByte orElse
  rw [byte8_toNat]
  cases work[k]? with
  | none => rfl
  | some p =>
    have := p.isLt
    simp only [Option.map_some, Option.getD_some]
    omega

theorem timesOk_iff (holdOff wtr : Nat) :
    timesOk holdOff wtr = true ↔ (holdOff ≤ 10000 ∧ holdOff % 100 = 0) ∧ 30 ≤ wtr ∧ wtr ≤ 1800 := by
  simp only [timesOk, Bool.and_eq_true, decide_eq_true_eq]

/-- The fields of a group read back. -/
theorem groupBytes_fields {g : Group} (hn : g.n ≤ 6) (htimes : timesOk g.holdOff g.wtr = true) :
    let b := fieldByte (groupBytes (some g))
    let w := fieldWord (groupBytes (some g))
    b 0 = g.kind.code ∧ b 1 = g.prot ∧ b 2 = g.work.length ∧
    (∀ k, k < 6 → b (3 + k) = match g.work[k]? with | some p => p.val | none => 0xFF) ∧
    b 9 = g.revertive.toNat + 2 * g.degSwitch.toNat ∧ w 10 = g.holdOff ∧ w 12 = g.wtr := by
  obtain ⟨⟨hoff, _⟩, _, hwtr⟩ := (timesOk_iff _ _).1 htimes
  have hcode := groupKind_code_range g.kind
  have hprot := g.prot.isLt
  have hlen : g.work.length = g.n := rfl
  intro b w
  refine ⟨?_, ?_, ?_, fun k hk => ?_, ?_, ?_, ?_⟩
  case refine_4 =>
    rw [← workByte_toNat]
    obtain rfl | rfl | rfl | rfl | rfl | rfl : k = 0 ∨ k = 1 ∨ k = 2 ∨ k = 3 ∨ k = 4 ∨ k = 5 := by omega
    all_goals rfl
  case refine_5 =>
    simp only [b, groupBytes_eq, fieldByte_succ, fieldByte_zero, byte8_toNat]
    cases g.revertive <;> cases g.degSwitch <;> rfl
  all_goals
    simp only [b, w, groupBytes_eq, fieldByte_succ, fieldByte_zero, fieldWord_succ, fieldWord_bytes16, byte8_toNat]
    omega

/-- The bytes of a group that the state lets stand are read as its definition. -/
theorem readGroup_groupBytes {s : State} {gi : GroupIx} {g : Group} (hstands : GroupStands s gi g.kind g.prot g.work)
    (htimes : timesOk g.holdOff g.wtr = true) : readGroup s gi (groupBytes (some g)) =
      some (some { kind := g.kind, prot := g.prot, work := g.work, revertive := g.revertive, degSwitch := g.degSwitch,
                   holdOff := g.holdOff, wtr := g.wtr }, 0) := by
  have hsix : g.n ≤ 6 := hstands.2.2.1
  obtain ⟨hkind, hprot, hlen, hwork, hflags, hoff, hwtr⟩ := groupBytes_fields hsix htimes
  obtain ⟨⟨hoff1, hoff2⟩, hwtr1, hwtr2⟩ := (timesOk_iff _ _).1 htimes
  have hholds : GroupHolds (groupBytes (some g)) g.kind g.prot g.work := by
    refine ⟨hkind, hprot, hlen, fun k p hp => ?_⟩
    have hlt : k < g.n := (List.getElem?_eq_some_iff.1 hp).1
    rw [hwork k (by omega), hp]
  have hrev := Bool.toNat_le g.revertive
  have hdeg := Bool.toNat_le g.degSwitch
  have hrevertive : decide (fieldByte (groupBytes (some g)) 9 % 2 = 1) = g.revertive := by
    rw [hflags]
    cases g.revertive <;> cases g.degSwitch <;> rfl
  have hdegrade : decide (fieldByte (groupBytes (some g)) 9 / 2 % 2 = 1) = g.degSwitch := by
    rw [hflags]
    cases g.revertive <;> cases g.degSwitch <;> rfl
  have hoffSelf : (groupTimes (groupBytes (some g))).1 = g.holdOff := by
    change hundreds 10000 (fieldWord (groupBytes (some g)) 10) = _
    rw [hoff, hundreds_self hoff1 hoff2]
  have hwtrSelf : (groupTimes (groupBytes (some g))).2 = g.wtr := by
    have hint := groupTimes_wtr (groupBytes (some g))
    rw [hwtr, nearest_self (by omega) (by omega)] at hint
    exact Int.natCast_inj.1 hint
  rw [readGroup_said hholds hstands, groupDefOf, groupClamps, hrevertive, hdegrade, hoffSelf, hwtrSelf, hoff, hwtr, clamped_same]
  simp

end Sys2Proof.Proofs
end

