-- ==== Sys2Proof/Proofs/ReferenceEntries.lean ====
section
/-! Timing references in the load format (R98, R99, section 11.1). -/

namespace Sys2Proof.Proofs

open Sys2Proof.Machine Sys2Proof.Safety Sys2Proof.Laws

theorem bindKindOf_iff (n : Nat) (x : BindKind) : bindKindOf n = some x ↔ n = x.code := by
  constructor
  · unfold bindKindOf
    split <;> intro h <;> cases h <;> rfl
  · rintro rfl
    cases x <;> rfl

theorem bindKind_code (x : BindKind) : x.code = [BindKind.none, .port, .group].idxOf x := by cases x <;> rfl

theorem bindKind_code_le (x : BindKind) : x.code ≤ 2 := by cases x <;> decide

/-! ### Bindings that the state lets stand (R99) -/

section
variable (s : State)

/-- R99: a port that may be bound. -/
def PortBindable (n : Nat) : Prop := ∃ p : Port, n = p.val ∧ s.populated p = true ∧ s.pmon.ports[p].role = .line ∧
  ∀ (gi : GroupIx) g, s.prc.groups[gi] = some g → g.kind = .oneToN → ¬IsMember p g

/-- R99: a group that may be bound. -/
def GroupBindable (n : Nat) : Prop := ∃ (gi : GroupIx) (g : Group), n = gi.val ∧ s.prc.groups[gi] = some g ∧ g.kind ≠ .oneToN

theorem bindablePort_iff (n : Nat) : bindablePort s n = true ↔ PortBindable s n := by
  unfold bindablePort PortBindable
  cases hp : portOfNat n with
  | none =>
    refine iff_of_false nofun fun ⟨p, hn, _⟩ => ?_
    rw [(portOfNat_iff n p).2 hn] at hp
    cases hp
  | some p =>
    have hn := (portOfNat_iff n p).1 hp
    simp only [Bool.and_eq_true, decide_eq_true_eq, and_assoc, List.all_eq_true]
    constructor
    · rintro ⟨hpop, hrole, hall⟩
      refine ⟨p, hn, hpop, hrole, fun gi g hg hkind hmem => ?_⟩
      have hgi := hall gi (List.mem_finRange gi)
      simp only [hg, hkind, (has_iff g p).2 hmem] at hgi
      cases hgi
    · rintro ⟨q, hq, hpop, hrole, hmem⟩
      obtain rfl : p = q := Fin.ext (hn.symm.trans hq)
      refine ⟨hpop, hrole, fun gi _ => ?_⟩
      cases hg : s.prc.groups[gi] with
      | none => rfl
      | some g =>
        simp only [Bool.or_eq_true, decide_eq_true_eq, Bool.not_eq_true', ← Bool.not_eq_true, has_iff]
        exact or_iff_not_imp_left.2 fun hk => hmem gi g hg (not_not.1 hk)

theorem bindableGroup_iff (n : Nat) : bindableGroup s n = true ↔ GroupBindable s n := by
  unfold bindableGroup GroupBindable
  constructor
  · intro h
    split at h
    · next hlt =>
      cases hg : s.prc.groups[(⟨n, hlt⟩ : GroupIx)] with
      | none =>
        rw [hg] at h
        cases h
      | some g =>
        rw [hg] at h
        exact ⟨⟨n, hlt⟩, g, rfl, hg, of_decide_eq_true h⟩
    · cases h
  · rintro ⟨gi, g, rfl, hg, hkind⟩
    rw [dif_pos gi.isLt, hg]
    exact decide_eq_true hkind

/-- R99: a reference entry within its ranges, with a binding that the state lets stand. -/
def RefStands (r : RefIx) (x : RefEntry) : Prop := refEntryOk r x = true ∧
  (x.bindKind = .port → PortBindable s x.bindNum) ∧ (x.bindKind = .group → GroupBindable s x.bindNum)

theorem bindable_iff (kind : BindKind) (n : Nat) : bindable s kind n = true ↔
    (kind = .port → PortBindable s n) ∧ (kind = .group → GroupBindable s n) := by
  cases kind with
  | none => exact iff_of_true rfl ⟨nofun, nofun⟩
  | port => exact (bindablePort_iff s n).trans ⟨fun h => ⟨fun _ => h, nofun⟩, fun h => h.1 rfl⟩
  | group => exact (bindableGroup_iff s n).trans ⟨fun h => ⟨nofun, fun _ => h⟩, fun h => h.2 rfl⟩

end

theorem refEntryOk_iff (r : RefIx) (x : RefEntry) : refEntryOk r x = true ↔
    x.priority ≤ 8 ∧ (x.fromTag = true ∨ (1 ≤ x.fixedCls ∧ x.fixedCls ≤ 6)) ∧ x.fixedCls ≤ 255 ∧
    (1000 ≤ x.accept ∧ x.accept ≤ 50000) ∧ (x.hyst ≤ 5000 ∧ x.hyst + 500 ≤ x.accept) ∧ (1 ≤ x.stab ∧ x.stab ≤ 16) ∧
    x.bindNum ≤ 255 ∧ (2 ≤ r.val ∨ (x.fromTag = false ∧ x.bindKind = .none)) := by
  simp only [refEntryOk, Bool.and_eq_true, decide_eq_true_eq, and_assoc]

/-! ### An entry (R98, R99) -/

section
variable (e : List Byte)

/-- Section 11.1: the fields that an entry holds, each tuning field clamped. -/
def RefHolds (x : RefEntry) : Prop := fieldByte e 0 = x.enable.toNat ∧ fieldByte e 1 = x.priority ∧
  fieldByte e 2 = x.fromTag.toNat ∧ fieldByte e 3 = x.fixedCls ∧ x.accept = nearest 1000 50000 (fieldWord e 4) ∧
  x.hyst = nearest 0 (min 5000 (x.accept - 500)) (fieldWord e 6) ∧ x.stab = nearest 1 16 (fieldByte e 8) ∧
  fieldByte e 9 = x.bindKind.code ∧ fieldByte e 10 = x.bindNum

/-- R165: the clamp count of a reference entry. -/
def refClamps (x : RefEntry) : Nat := clamped [(fieldWord e 4, x.accept), (fieldWord e 6, x.hyst), (fieldByte e 8, x.stab)]

/-- R98: the entry that the bytes give, if they hold no structural fault. -/
def refEntryOf (kind : BindKind) : RefEntry :=
  { enable := fieldByte e 0 == 1, priority := fieldByte e 1, fromTag := fieldByte e 2 == 1, fixedCls := fieldByte e 3
    accept := clampNat 1000 50000 (fieldWord e 4)
    hyst := min (clampNat 0 5000 (fieldWord e 6)) (clampNat 1000 50000 (fieldWord e 4) - 500)
    stab := clampNat 1 16 (fieldByte e 8), bindKind := kind, bindNum := fieldByte e 10 }

/-- R99: the structural faults of a reference entry. -/
def RefFaulty (s : State) (r : RefIx) (kind : BindKind) : Prop :=
  1 < fieldByte e 0 ∨ 8 < fieldByte e 1 ∨ 1 < fieldByte e 2 ∨
  (fieldByte e 2 = 0 ∧ (fieldByte e 3 < 1 ∨ 6 < fieldByte e 3)) ∨
  (r.val < 2 ∧ (fieldByte e 2 = 1 ∨ kind ≠ .none)) ∨ bindable s kind (fieldByte e 10) = false

variable {e} {s : State} {r : RefIx} {kind : BindKind}

theorem readRef_of_kind (hk : fieldByte e 9 = kind.code) : (RefFaulty e s r kind → readRef s r e = none) ∧
    (¬RefFaulty e s r kind → readRef s r e = some (refEntryOf e kind, refClamps e (refEntryOf e kind))) := by
  have hread : bindKindOf (at8 e 9) = some kind := (bindKindOf_iff _ _).2 hk
  have hclamps : refClamps e (refEntryOf e kind) = changed (at16 e 4) (refEntryOf e kind).accept +
      changed (at16 e 6) (refEntryOf e kind).hyst + changed (at8 e 8) (refEntryOf e kind).stab := by
    simp only [refClamps, clamped_cons, clamped_nil, changed_int, at8_eq, at16_eq, Nat.add_zero, Nat.add_assoc]
  unfold readRef
  rw [hread, hclamps]
  exact ⟨fun h => if_pos h, fun h => if_neg h⟩

theorem readRef_no_kind (h : ∀ kind : BindKind, fieldByte e 9 ≠ kind.code) : readRef s r e = none := by
  unfold readRef
  cases hk : bindKindOf (at8 e 9) with
  | none => rfl
  | some kind => exact absurd ((bindKindOf_iff _ _).1 hk) (h kind)

/-- The entry formed holds what the bytes hold. -/
theorem refEntryOf_holds (hk : fieldByte e 9 = kind.code) (henable : fieldByte e 0 ≤ 1) (htag : fieldByte e 2 ≤ 1) :
    RefHolds e (refEntryOf e kind) := by
  have haccept : ((refEntryOf e kind).accept : Int) = nearest 1000 50000 (fieldWord e 4) := clampNat_nearest (by decide) _
  have hrange := nearest_range (lo := 1000) (hi := 50000) (by decide) (fieldWord e 4)
  refine ⟨(toNat_beq_one _ henable _).1 rfl, rfl, (toNat_beq_one _ htag _).1 rfl, rfl, haccept, ?_,
    clampNat_nearest (by decide) _, hk, rfl⟩
  have hhyst : ((refEntryOf e kind).hyst : Int) =
      min (clampNat 0 5000 (fieldWord e 6) : Int) ((refEntryOf e kind).accept - 500) := by
    change ((min (clampNat 0 5000 (fieldWord e 6)) ((refEntryOf e kind).accept - 500) : Nat) : Int) = _
    omega
  rw [hhyst, clampNat_nearest (by decide)]
  unfold nearest
  omega

theorem bool_of_toNat {a b : Bool} (h : a.toNat = b.toNat) : a = b := by
  revert h
  cases a <;> cases b <;> decide

/-- What the bytes hold decides the entry. -/
theorem refHolds_unique {x y : RefEntry} (hx : RefHolds e x) (hy : RefHolds e y) : x = y := by
  obtain ⟨xenable, xprio, xtag, xcls, xaccept, xhyst, xstab, xkind, xnum⟩ := hx
  obtain ⟨yenable, yprio, ytag, ycls, yaccept, yhyst, ystab, ykind, ynum⟩ := hy
  have haccept : x.accept = y.accept := by omega
  have hkind : x.bindKind = y.bindKind :=
    Option.some.inj (((bindKindOf_iff _ _).2 xkind).symm.trans ((bindKindOf_iff _ _).2 ykind))
  have hhyst : x.hyst = y.hyst := by
    rw [haccept, ← yhyst] at xhyst
    exact Int.natCast_inj.1 xhyst
  cases x
  cases y
  simp only [RefEntry.mk.injEq]
  exact ⟨bool_of_toNat (xenable.symm.trans yenable), xprio.symm.trans yprio, bool_of_toNat (xtag.symm.trans ytag),
    xcls.symm.trans ycls, haccept, hhyst, Int.natCast_inj.1 (xstab.trans ystab.symm), hkind, xnum.symm.trans ynum⟩

/-- R99: no structural fault is in the bytes just where their entry stands. -/
theorem refFaulty_iff {x : RefEntry} (hx : RefHolds e x) : ¬RefFaulty e s r x.bindKind ↔ RefStands s r x := by
  obtain ⟨henable, hprio, htag, hcls, haccept, hhyst, hstab, hkind, hnum⟩ := hx
  have raccept := nearest_range (lo := 1000) (hi := 50000) (by decide) (fieldWord e 4)
  have rhyst := nearest_range (lo := 0) (hi := min 5000 ((x.accept : Int) - 500)) (by omega) (fieldWord e 6)
  have rstab := nearest_range (lo := 1) (hi := 16) (by decide) (fieldByte e 8)
  have rcls := fieldByte_lt e 3
  have rnum := fieldByte_lt e 10
  have hbool := Bool.toNat_le x.enable
  have hbool' := Bool.toNat_le x.fromTag
  have hbind : bindable s x.bindKind (fieldByte e 10) = false ↔
      ¬((x.bindKind = .port → PortBindable s x.bindNum) ∧ (x.bindKind = .group → GroupBindable s x.bindNum)) := by
    rw [hnum, ← bindable_iff, Bool.not_eq_true]
  unfold RefFaulty RefStands
  rw [hbind, refEntryOk_iff, henable, hprio, htag, hcls]
  have hfrom : x.fromTag.toNat = 0 ↔ x.fromTag = false := by cases x.fromTag <;> simp
  have hfrom' : x.fromTag.toNat = 1 ↔ x.fromTag = true := by cases x.fromTag <;> simp
  have hfalse : x.fromTag = false ↔ ¬x.fromTag = true := by simp
  rw [hfrom, hfrom', hfalse]
  generalize ((x.bindKind = .port → PortBindable s x.bindNum) ∧ (x.bindKind = .group → GroupBindable s x.bindNum)) = stands
  generalize (x.fromTag = true) = tag at *
  constructor
  · intro h
    simp only [not_or, not_and, not_not] at h
    obtain ⟨_, h1, _, h3, h4, h5⟩ := h
    refine ⟨⟨by omega, ?_, by omega, by omega, by omega, by omega, by omega, ?_⟩, h5⟩
    · by_cases ht : tag
      · exact .inl ht
      · have := h3 ht
        exact .inr (by omega)
    · by_cases hr : 2 ≤ r.val
      · exact .inl hr
      · exact .inr (h4 (by omega))
  · rintro ⟨⟨h1, h2, _, _, _, _, _, h7⟩, h8⟩
    simp only [not_or, not_and, not_not]
    refine ⟨by omega, by omega, by omega, fun ht => ?_, fun hr => ?_, h8⟩
    · have := h2.resolve_left ht
      omega
    · exact h7.resolve_left (by omega)

/-- R98, R99: the fields that a load takes. -/
theorem readRef_said {x : RefEntry} (hx : RefHolds e x) (hstands : RefStands s r x) :
    readRef s r e = some (x, refClamps e x) := by
  have hformed : refEntryOf e x.bindKind = x := by
    have henable := Bool.toNat_le x.enable
    have htag := Bool.toNat_le x.fromTag
    obtain ⟨h0, _, h2, _, _, _, _, h9, _⟩ := id hx
    exact refHolds_unique (refEntryOf_holds h9 (by omega) (by omega)) hx
  obtain ⟨_, _, _, _, _, _, _, h9, _⟩ := id hx
  rw [(readRef_of_kind h9).2 ((refFaulty_iff hx).2 hstands), hformed]

theorem readRef_some {x : RefEntry} {n : Nat} (h : readRef s r e = some (x, n)) : RefHolds e x ∧ RefStands s r x := by
  by_cases hk : ∃ kind : BindKind, fieldByte e 9 = kind.code
  · obtain ⟨kind, hk⟩ := hk
    obtain ⟨hfault, hread⟩ := readRef_of_kind (s := s) (r := r) hk
    have hnot : ¬RefFaulty e s r kind := fun hf => by
      rw [hfault hf] at h
      cases h
    have hsame := congrArg Prod.fst (Option.some.inj ((hread hnot).symm.trans h))
    have hx : refEntryOf e kind = x := hsame
    have henable : fieldByte e 0 ≤ 1 := by
      by_contra hbig
      exact hnot (.inl (by omega))
    have htag : fieldByte e 2 ≤ 1 := by
      by_contra hbig
      exact hnot (.inr (.inr (.inl (by omega))))
    have hholds := refEntryOf_holds hk henable htag
    rw [← hx]
    exact ⟨hholds, (refFaulty_iff hholds).1 hnot⟩
  · rw [readRef_no_kind fun kind heq => hk ⟨kind, heq⟩] at h
    cases h

end

/-! ### The bytes of a reference (R168) -/

theorem refBytes_eq (x : RefEntry) : refBytes x = byte8 x.enable.toNat :: byte8 x.priority :: byte8 x.fromTag.toNat ::
    byte8 x.fixedCls :: byte8 (x.accept / 256) :: byte8 x.accept :: byte8 (x.hyst / 256) :: byte8 x.hyst :: byte8 x.stab ::
    [byte8 x.bindKind.code, byte8 x.bindNum, 0] := rfl

/-- The fields of a reference read back. -/
theorem refBytes_fields {r : RefIx} {x : RefEntry} (h : refEntryOk r x = true) :
    let b := fieldByte (refBytes x)
    let w := fieldWord (refBytes x)
    b 0 = x.enable.toNat ∧ b 1 = x.priority ∧ b 2 = x.fromTag.toNat ∧ b 3 = x.fixedCls ∧ w 4 = x.accept ∧ w 6 = x.hyst ∧
    b 8 = x.stab ∧ b 9 = x.bindKind.code ∧ b 10 = x.bindNum ∧ b 11 = 0 := by
  obtain ⟨hprio, _, hcls, haccept, hhyst, hstab, hnum, _⟩ := (refEntryOk_iff r x).1 h
  have hbool := Bool.toNat_le x.enable
  have hbool' := Bool.toNat_le x.fromTag
  have hkind := bindKind_code_le x.bindKind
  intro b w
  refine ⟨?_, ?_, ?_, ?_, ?_, ?_, ?_, ?_, ?_, rfl⟩
  all_goals
    simp only [b, w, refBytes_eq, fieldByte_succ, fieldByte_zero, fieldWord_succ, fieldWord_bytes16, byte8_toNat]
    omega

/-- The bytes of an entry that stands are read as that entry. -/
theorem readRef_refBytes {s : State} {r : RefIx} {x : RefEntry} (h : RefStands s r x) : readRef s r (refBytes x) = some (x, 0) := by
  obtain ⟨henable, hprio, htag, hcls, haccept, hhyst, hstab, hkind, hnum, _⟩ := refBytes_fields h.1
  obtain ⟨_, _, _, raccept, rhyst, rstab, _, _⟩ := (refEntryOk_iff r x).1 h.1
  have hholds : RefHolds (refBytes x) x := by
    refine ⟨henable, hprio, htag, hcls, ?_, ?_, ?_, hkind, hnum⟩
    · rw [haccept, nearest_self (by omega) (by omega)]
    · rw [hhyst, nearest_self (by omega) (by omega)]
    · rw [hstab, nearest_self (by omega) (by omega)]
  rw [readRef_said hholds h, refClamps, haccept, hhyst, hstab, clamped_same]
  simp

end Sys2Proof.Proofs
end

