-- ==== Sys2Proof/Proofs/ReadBack.lean ====
section
/-! RDTB and the load format (R165, R168). -/

namespace Sys2Proof.Proofs

open Sys2Proof.Machine Sys2Proof.Safety Sys2Proof.Laws

/-! ### The entries read back (R168) -/

theorem vector_mod {α : Type} {n : Nat} (v : Vector α n) (i : Fin n) (h : i.val % n < n) : v[i.val % n]'h = v[i] := by
  simp only [Nat.mod_eq_of_lt i.isLt]
  rfl

section
variable (s : State)

theorem entryBytes_shelf (i : Nat) : entryBytes s .shelf i = shelfBytes s.rqu.shelf := rfl

theorem entryBytes_profiles (i : Fin 8) : entryBytes s .profiles i = profileBytes s.pmon.profiles[i] :=
  congrArg profileBytes (vector_mod _ i _)

theorem entryBytes_ports (p : Port) : entryBytes s .ports p = portBytes s p := congrArg (portBytes s) (ofNat_of_val rfl)

theorem entryBytes_cabling (p : Port) : entryBytes s .cabling p = cablingBytes s.cbc.ports[p].expect :=
  congrArg (fun x : CabRec => cablingBytes x.expect) (vector_mod _ p _)

theorem entryBytes_groups (gi : GroupIx) : entryBytes s .groups gi = groupBytes s.prc.groups[gi] :=
  congrArg groupBytes (vector_mod _ gi _)

theorem entryBytes_refs (r : RefIx) : entryBytes s .refs r = refBytes s.tsel.refs[r].entry :=
  congrArg (fun x : RefRec => refBytes x.entry) (vector_mod _ r _)

theorem entryBytes_alarms (y : Fin 24) : entryBytes s .alarms y = alarmProfileBytes s.alm.profile[y] :=
  congrArg alarmProfileBytes (vector_mod _ y _)

theorem entryBytes_contacts (n : InputIx) : entryBytes s .contacts n = contactBytes s.ciu[n] :=
  congrArg contactBytes (vector_mod _ n _)

theorem portBytes_length (p : Port) : (portBytes s p).length = 6 := by
  cases hpop : s.populated p with
  | false =>
    rw [portBytes_unpopulated s p hpop]
    rfl
  | true =>
    cases hb : s.pmon.ports[p].baseline with
    | none =>
      rw [portBytes_absent s p hpop hb]
      rfl
    | some b =>
      rw [portBytes_value s p hpop hb]
      rfl

theorem groupBytes_length (g : Option Group) : (groupBytes g).length = 14 := by
  cases g with
  | none => rfl
  | some g =>
    rw [groupBytes_eq]
    rfl

/-- R168: every entry has the size of its table's entries. -/
theorem entryBytes_length (t : Table) (i : Nat) : (entryBytes s t i).length = t.size := by
  cases t with
  | ports => exact portBytes_length s _
  | groups => exact groupBytes_length _
  | shelf | profiles | cabling | refs | alarms | contacts => rfl

end

/-! ### Entries one after the other -/

section
variable {α : Type} {f : Nat → List α} {size : Nat} (hlen : ∀ i, (f i).length = size)
include hlen

theorem flatMap_range_length (count : Nat) : ((List.range count).flatMap f).length = count * size := by
  induction count with
  | zero => simp
  | succ n ih => rw [List.range_succ, List.flatMap_append, List.length_append, ih, List.flatMap_singleton, hlen, Nat.succ_mul]

theorem flatMap_range_getElem? {count i n : Nat} (hi : i < count) (hn : n < size) :
    ((List.range count).flatMap f)[i * size + n]? = (f i)[n]? := by
  induction count with
  | zero => omega
  | succ c ih =>
    have hbefore := flatMap_range_length hlen c
    rw [List.range_succ, List.flatMap_append, List.flatMap_singleton]
    by_cases hlast : i = c
    · subst hlast
      rw [List.getElem?_append_right (by omega), hbefore, Nat.add_sub_cancel_left]
    · have hlt : i < c := by omega
      have hroom : i * size + n < c * size := by
        have := Nat.mul_le_mul_right size (show i + 1 ≤ c from hlt)
        rw [Nat.succ_mul] at this
        omega
      rw [List.getElem?_append_left (by omega), ih hlt]

end

/-! ### RDTB (R168) -/

section
variable {s : State} {k : SlotIx}

theorem rdtb_refused (hs : serving s k .rdtb = true) (h : ownerOf k .rdtb s = refuse s .badArg 0) :
    ∃ t, exec (.rdtb k) s = .next t ∧ Answered s t k .badArg 0 s.mem ∧ sameRqu s t ∧ unchangedBut [.attn, .rqu, .mem] s t :=
  load_ends hs h (.refl s)

theorem rdtb_unknown (h : 7 < (param8 s k 4).toNat) : ownerOf k .rdtb s = refuse s .badArg 0 := by
  have hnone : tableOf (param8 s k 4).toNat = none := List.getElem?_eq_none h
  change askRdtb k s = _
  unfold askRdtb
  rw [hnone]

theorem rdtb_unfit {t : Table} (ht : tableOf (param8 s k 4).toNat = some t) (h : (loadRange s k).fits t = false) :
    ownerOf k .rdtb s = refuse s .badArg 0 := by
  change askRdtb k s = _
  unfold askRdtb
  rw [ht]
  exact if_neg (Bool.eq_false_iff.1 h)

/-- The memory once the entries stand in the staging area. -/
def readBackMem (s : State) (k : SlotIx) (t : Table) : List Host.Cell :=
  memWriteAll s.mem (0x300 + param16 s k 0) (readBack s t (loadRange s k))

theorem rdtb_fit {t : Table} (ht : tableOf (param8 s k 4).toNat = some t) (h : (loadRange s k).fits t = true) :
    ownerOf k .rdtb s = done { s with mem := readBackMem s k t } (param8 s k 3).toNat := by
  change askRdtb k s = _
  unfold askRdtb
  rw [ht]
  exact if_pos h

theorem readBack_length (t : Table) : (readBack s t (loadRange s k)).length = (param8 s k 3).toNat * t.size :=
  flatMap_range_length (fun _ => entryBytes_length s t _) _

theorem readBackMem_inside (hwf : memWf s.mem = true) (t : Table) {i n : Nat} (hi : i < (param8 s k 3).toNat) (hn : n < t.size) :
    memRead (readBackMem s k t) (0x300 + param16 s k 0 + i * t.size + n) =
      (entryBytes s t ((param8 s k 2).toNat + i)).getD n 0 := by
  have hlen := readBack_length (s := s) (k := k) t
  have hroom : i * t.size + n < (readBack s t (loadRange s k)).length := by
    have := Nat.mul_le_mul_right t.size (show i + 1 ≤ (param8 s k 3).toNat from hi)
    rw [Nat.succ_mul] at this
    omega
  have hget : (readBack s t (loadRange s k))[i * t.size + n]? = (entryBytes s t ((param8 s k 2).toNat + i))[n]? :=
    flatMap_range_getElem? (fun _ => entryBytes_length s t _) hi hn
  rw [Nat.add_assoc, readBackMem, memRead_writeAll _ _ _ _ hwf hroom, List.getD_eq_getElem?_getD, ← hget,
    List.getElem?_eq_getElem hroom, Option.getD_some]

theorem readBackMem_outside (t : Table) {a : Nat}
    (h : a < 0x300 + param16 s k 0 ∨ 0x300 + param16 s k 0 + (param8 s k 3).toNat * t.size ≤ a) :
    memRead (readBackMem s k t) a = memRead s.mem a :=
  memRead_writeAll_outside _ _ _ _ (by rw [readBack_length]; exact h)

/-- R168: the entries copied into the staging area. -/
theorem rdtb_said (hs : serving s k .rdtb = true) {t : Table} (ht : tableOf (param8 s k 4).toNat = some t)
    (h : (loadRange s k).fits t = true) : ∃ u, exec (.rdtb k) s = .next u ∧
      Answered s u k .ok (param8 s k 3).toNat (readBackMem s k t) ∧ memWf (readBackMem s k t) = true ∧ sameRqu s u ∧
      unchangedBut [.attn, .rqu, .mem] s u := by
  obtain ⟨hexec, hbusy, hwf⟩ := serving_iff.1 hs
  have hwf' : memWf (readBackMem s k t) = true := memWriteAll_wf _ _ _ hwf
  have hserved := finish_served (owned_self (s := { s with mem := readBackMem s k t }) (k := k) hbusy hwf') .ok
    (param8 s k 3).toNat
  refine ⟨finish { s with mem := readBackMem s k t } k .ok (param8 s k 3).toNat, ?_, ?_, hwf', hserved.rqu, ?_⟩
  · change exec (Request.rdtb.command k) s = _
    rw [exec_request, runRequest, if_pos hexec, rdtb_fit ht h]
    rfl
  · exact answered_over hserved.answered rfl rfl rfl
  · refine unchangedBut_trans (t := { s with mem := readBackMem s k t }) (fun q hq => ?_) hserved.unchanged
    cases q <;> first | exact absurd (by decide) hq | rfl

end

end Sys2Proof.Proofs
end

