-- ==== Sys2Proof/Proofs/TablesReadBack.lean ====
section
/-! A table is read back, and a load reads what is read back (R18, R40, R62, R99, R127, R145, R165 to R168). -/

namespace Sys2Proof.Proofs

open Sys2Proof.Machine Sys2Proof.Safety Sys2Proof.Laws

/-- Section 11.1: the fields of every table's entries as they are read back. -/
theorem entries_fields (s : State) :
    let b (t : Table) (i k : Nat) : Nat := fieldByte (entryBytes s t i) k
    let w (t : Table) (i k : Nat) : Nat := fieldWord (entryBytes s t i) k
    let z (t : Table) (i k : Nat) : Int := fieldInt (entryBytes s t i) k
    (∀ i : Fin 8, let f := s.pmon.profiles[i]
      profileOk f = true →
      b .profiles i 0 = f.alpha ∧ b .profiles i 1 = f.beta ∧ b .profiles i 2 = f.k ∧ z .profiles i 3 = f.limit ∧
      z .profiles i 5 = f.losThr ∧ b .profiles i 7 = f.losN ∧ z .profiles i 8 = f.degThr ∧ z .profiles i 10 = f.failThr ∧
      z .profiles i 12 = f.hyst ∧ b .profiles i 14 = f.defN ∧ b .profiles i 15 = 0) ∧
    (∀ p : Port, let x := s.pmon.ports[p]
      (s.populated p = false → entryBytes s .ports p = [0, 0, 1, 0, 0, 0]) ∧
      (s.populated p = true →
        b .ports p 0 = [Role.spare, .line, .trib].idxOf x.role ∧ b .ports p 1 = x.profile ∧ b .ports p 3 = 0 ∧
        (∀ v, x.baseline = some v → inPower v = true → b .ports p 2 = 0 ∧ z .ports p 4 = v) ∧
        (x.baseline = none → b .ports p 2 = 1 ∧ w .ports p 4 = 0))) ∧
    (∀ p : Port, let x := s.cbc.ports[p].expect
      b .cabling p 0 = [ExpKind.any, .tag, .dark].idxOf x.kind ∧ b .cabling p 1 = x.port.toNat ∧
      w .cabling p 2 = x.shelf.toNat) ∧
    (∀ gi : GroupIx,
      (s.prc.groups[gi] = none →
        entryBytes s .groups gi = [0, 0, 0, 0xFF, 0xFF, 0xFF, 0xFF, 0xFF, 0xFF, 0, 0, 0, 0, 0]) ∧
      ∀ g, s.prc.groups[gi] = some g → g.n ≤ 6 → timesOk g.holdOff g.wtr = true →
        b .groups gi 0 = [GroupKind.uni, .bi, .oneToN].idxOf g.kind + 1 ∧ b .groups gi 1 = g.prot ∧
        b .groups gi 2 = g.work.length ∧
        (∀ k, k < 6 → b .groups gi (3 + k) = match g.work[k]? with | some p => p.val | none => 0xFF) ∧
        b .groups gi 9 = g.revertive.toNat + 2 * g.degSwitch.toNat ∧ w .groups gi 10 = g.holdOff ∧
        w .groups gi 12 = g.wtr) ∧
    (∀ r : RefIx, let x := s.tsel.refs[r].entry
      refEntryOk r x = true →
      b .refs r 0 = x.enable.toNat ∧ b .refs r 1 = x.priority ∧ b .refs r 2 = x.fromTag.toNat ∧ b .refs r 3 = x.fixedCls ∧
      w .refs r 4 = x.accept ∧ w .refs r 6 = x.hyst ∧ b .refs r 8 = x.stab ∧
      b .refs r 9 = [BindKind.none, .port, .group].idxOf x.bindKind ∧ b .refs r 10 = x.bindNum ∧ b .refs r 11 = 0) ∧
    (∀ y : Fin 24, let f := s.alm.profile[y]
      alarmProfileOk y f = true →
      b .alarms y 0 = [Severity.crit, .maj, .min, .event, .off].idxOf f.severity + 1 ∧ b .alarms y 1 = 0 ∧
      w .alarms y 2 = f.raise ∧ w .alarms y 4 = f.clear) ∧
    ∀ n : InputIx, let c := s.ciu[n]
      contactOk c.frameSection c.debounce = true →
      b .contacts n 0 = [ContactRole.none, .aco, .frame, .generic].idxOf c.role ∧ b .contacts n 1 = c.frameSection ∧
      b .contacts n 2 = c.activeHigh.toNat ∧ b .contacts n 3 = c.debounce := by
  simp only [entryBytes_profiles, entryBytes_ports, entryBytes_cabling, entryBytes_groups, entryBytes_refs,
    entryBytes_alarms, entryBytes_contacts, ← role_code, ← expKind_code, ← groupKind_code, ← bindKind_code, ← severity_code,
    ← contactRole_code]
  refine ⟨fun i hok => profileBytes_fields hok, fun p => ⟨portBytes_unpopulated s p, portBytes_fields s p⟩,
    fun p => cablingBytes_fields _, fun gi => ⟨fun hg => ?_, fun g hg hn htimes => ?_⟩, fun r hok => refBytes_fields hok,
    fun y hok => alarmProfileBytes_fields hok, fun n hok => contactBytes_fields hok⟩
  · rw [hg, groupBytes_none]
  · rw [hg]
    exact groupBytes_fields hn htimes

section
variable (s : State)

/-- R10, R167: ports as a load takes them and as they are read back. -/
theorem ports_load :
    (∀ p : Port, s.populated p = true → s.pmon.ports[p].baseline.all inPower = true →
      readPort s p (portBytes s p) = some ({ role := s.pmon.ports[p].role, profile := s.pmon.ports[p].profile
                                             base := match s.pmon.ports[p].baseline with
                                               | some b => .value b
                                               | none => .absent }, 0)) ∧
    (∀ (p : Port) e x n, readPort s p e = some (x, n) → s.populated p = true ∧ (∀ b, x.base = .value b → inPower b = true) ∧
      (x.role ≠ s.pmon.ports[p].role → RoleFree s p)) ∧
    ∀ (p : Port) (e : List Byte) role base,
      (∀ h : fieldByte e 1 < 8, s.populated p = true → fieldByte e 0 = [Role.spare, .line, .trib].idxOf role →
        (role ≠ s.pmon.ports[p].role → RoleFree s p) → BaseSays e base →
        readPort s p e = some ({ role := role, profile := ⟨fieldByte e 1, h⟩, base := base },
          if fieldByte e 2 = 0 then clamped [(fieldInt e 4, nearest (-5000) 1000 (fieldInt e 4))] else 0)) ∧
      ∀ x n, readPort s p e = some (x, n) → fieldByte e 0 = [Role.spare, .line, .trib].idxOf x.role ∧
        fieldByte e 1 = x.profile ∧ BaseSays e x.base := by
  refine ⟨readPort_portBytes s, fun p e x n h => ?_, fun p e role base => ⟨fun hprofile hpop hrole hfree hbase => ?_, fun x n h => ?_⟩⟩
  · obtain ⟨_, _, hbase, hpop, hfree⟩ := readPort_some h
    exact ⟨hpop, baseSays_range hbase, hfree⟩
  · rw [← role_code] at hrole
    exact readPort_said hprofile hpop hrole hfree hbase
  · obtain ⟨hrole, hprofile, hbase, _⟩ := readPort_some h
    exact ⟨hrole.trans (role_code _), hprofile, hbase⟩

/-- R40: cabling expectations as a load takes them and as they are read back. -/
theorem cabling_load :
    (∀ (p : Port) (e : List Byte) (x : Expectation),
      fieldByte e 0 = [ExpKind.any, .tag, .dark].idxOf x.kind → fieldByte e 1 = x.port.toNat →
      fieldWord e 2 = x.shelf.toNat → s.cbc.ports[p].hold = none → (x.kind = .tag → x.port.toNat ≤ 63) →
      readCabling s p e = some x) ∧
    (∀ (p : Port) (e : List Byte) x, readCabling s p e = some x →
      fieldByte e 0 = [ExpKind.any, .tag, .dark].idxOf x.kind ∧ fieldByte e 1 = x.port.toNat ∧
      fieldWord e 2 = x.shelf.toNat) ∧
    (∀ (p : Port) (x : Expectation), s.cbc.ports[p].hold = none → (x.kind = .tag → x.port.toNat ≤ 63) →
      readCabling s p (cablingBytes x) = some x) ∧
    ∀ (p : Port) e x, readCabling s p e = some x → s.cbc.ports[p].hold = none ∧ (x.kind = .tag → x.port.toNat ≤ 63) := by
  simp only [← expKind_code]
  exact ⟨fun p e x hkind hport hshelf hfree htag => readCabling_iff.2 ⟨⟨hkind, hport, hshelf⟩, hfree, htag⟩,
    fun p e x h => (readCabling_iff.1 h).1, fun p x hfree htag => readCabling_iff.2 ⟨cablingBytes_fields x, hfree, htag⟩,
    fun p e x h => (readCabling_iff.1 h).2⟩

/-- R62: groups as a load takes them and as they are read back. -/
theorem groups_load (gi : GroupIx) :
    readGroup s gi (groupBytes none) = some (none, 1) ∧
    (∀ g : Group, GroupStands s gi g.kind g.prot g.work → timesOk g.holdOff g.wtr = true →
      readGroup s gi (groupBytes (some g)) =
        some (some { kind := g.kind, prot := g.prot, work := g.work, revertive := g.revertive
                     degSwitch := g.degSwitch, holdOff := g.holdOff, wtr := g.wtr }, 0)) ∧
    (∀ e d n, readGroup s gi e = some (some d, n) → GroupStands s gi d.kind d.prot d.work ∧ timesOk d.holdOff d.wtr = true) ∧
    ∀ (e : List Byte),
      let b := fieldByte e
      let w := fieldWord e
      let holdOff := min (w 10) 10000 / 100 * 100
      let wtr := nearest 30 1800 (w 12)
      let clamps := clamped [(w 10, holdOff), (w 12, wtr)]
      let holds (kind : GroupKind) (prot : Port) (work : List Port) : Prop :=
        b 0 = [GroupKind.uni, .bi, .oneToN].idxOf kind + 1 ∧ b 1 = prot ∧ b 2 = work.length ∧
        ∀ k p, work[k]? = some p → b (3 + k) = p.val
      (b 0 = 0 → readGroup s gi e = some (none, clamps)) ∧ (∀ n, readGroup s gi e = some (none, n) → b 0 = 0) ∧
      (∀ kind prot work, holds kind prot work → GroupStands s gi kind prot work →
        ∃ d, readGroup s gi e = some (some d, clamps) ∧ d = {
          kind := kind, prot := prot, work := work, revertive := decide (b 9 % 2 = 1)
          degSwitch := decide (b 9 / 2 % 2 = 1), holdOff := holdOff, wtr := d.wtr } ∧ d.wtr = wtr) ∧
      ∀ d n, readGroup s gi e = some (some d, n) → holds d.kind d.prot d.work := by
  simp only [← groupKind_code]
  refine ⟨rfl, fun g => readGroup_groupBytes, fun e d n h => (readGroup_some h).2, fun e => ?_⟩
  rw [← groupTimes_wtr]
  exact ⟨fun h => readGroup_none e s gi h, fun n => readGroup_undefined,
    fun kind prot work hholds hstands => ⟨_, readGroup_said hholds hstands, rfl, rfl⟩, fun d n h => (readGroup_some h).1⟩

/-- R98, R99: references as a load takes them and as they are read back. -/
theorem refs_load (r : RefIx) :
    (∀ x, RefStands s r x → readRef s r (refBytes x) = some (x, 0)) ∧
    (∀ e x n, readRef s r e = some (x, n) → RefStands s r x) ∧
    ∀ (e : List Byte),
      let b := fieldByte e
      let w := fieldWord e
      let holds (x : RefEntry) : Prop := b 0 = x.enable.toNat ∧ b 1 = x.priority ∧ b 2 = x.fromTag.toNat ∧
        b 3 = x.fixedCls ∧ x.accept = nearest 1000 50000 (w 4) ∧
        x.hyst = nearest 0 (min 5000 (x.accept - 500)) (w 6) ∧ x.stab = nearest 1 16 (b 8) ∧
        b 9 = [BindKind.none, .port, .group].idxOf x.bindKind ∧ b 10 = x.bindNum
      let clamps (x : RefEntry) : Nat := clamped [(w 4, x.accept), (w 6, x.hyst), (b 8, x.stab)]
      (∀ x, holds x → RefStands s r x → readRef s r e = some (x, clamps x)) ∧
      ∀ x n, readRef s r e = some (x, n) → holds x := by
  simp only [← bindKind_code]
  exact ⟨fun x => readRef_refBytes, fun e x n h => (readRef_some h).2,
    fun e => ⟨fun x => readRef_said, fun x n h => (readRef_some h).1⟩⟩

end

/-- R168: RDTB, refused and done. -/
theorem rdtb_load {k : SlotIx} {s : State} (hs : serving s k .rdtb = true) :
    let offset := param16 s k 0
    let first := (param8 s k 2).toNat
    let count := (param8 s k 3).toNat
    let number := (param8 s k 4).toNat
    let fits (table : Table) : Prop :=
      offset % 2 = 0 ∧ count ≠ 0 ∧ first + count ≤ table.entries ∧ offset + count * table.size ≤ 4096
    let refused : Prop := ∃ t, exec (.rdtb k) s = .next t ∧ Answered s t k .badArg 0 s.mem ∧ sameRqu s t ∧
      unchangedBut [.attn, .rqu, .mem] s t
    (7 < number → refused) ∧
    ∀ table, tableOf number = some table →
      (¬fits table → refused) ∧
      (fits table → ∃ t base, exec (.rdtb k) s = .next t ∧ Answered s t k .ok count base ∧ memWf base = true ∧
        (∀ i n, i < count → n < table.size →
          memRead base (0x300 + offset + i * table.size + n) = (entryBytes s table (first + i)).getD n 0) ∧
        (∀ a, a < 0x300 + offset ∨ 0x300 + offset + count * table.size ≤ a → memRead base a = memRead s.mem a) ∧
        sameRqu s t ∧ unchangedBut [.attn, .rqu, .mem] s t) := by
  obtain ⟨_, _, hwf⟩ := serving_iff.1 hs
  intro offset first count number fits refused
  have hfits (table : Table) : (loadRange s k).fits table = true ↔ fits table := fits_iff (loadRange s k) table
  refine ⟨fun h => rdtb_refused hs (rdtb_unknown h), fun table ht => ⟨fun hno => ?_, fun hfit => ?_⟩⟩
  · exact rdtb_refused hs (rdtb_unfit ht (Bool.eq_false_iff.2 fun h => hno ((hfits table).1 h)))
  · obtain ⟨t, hexec, hanswered, hbase, hrqu, hframe⟩ := rdtb_said hs ht ((hfits table).2 hfit)
    exact ⟨t, _, hexec, hanswered, hbase, fun i n hi hn => readBackMem_inside hwf table hi hn,
      fun a ha => readBackMem_outside table ha, hrqu, hframe⟩

/-- Settles O46: the fields of each table's entries, read and read back, and RDTB. -/
theorem aTableIsReadBack : Obligations.ATableIsReadBack := by
  unfold Obligations.ATableIsReadBack
  refine ⟨fun s => ⟨entryBytes_length s, shelfBytes_fields, entries_fields s⟩, fun e => ⟨readShelf_fault e, readShelf_said e,
      ?_, fun y => ⟨fun sv hsv hne hok => ?_, fun f n h => ?_⟩, fun role hrole hsection hhigh => ?_, fun c n h => ?_⟩,
    fun c => readShelf_shelfBytes, fun e c n => readShelf_ok, fun f => readProfile_profileBytes, readProfile_ok,
    fun y f => readAlarm_alarmProfileBytes, fun y e f n => readAlarm_ok, fun c => readContact_contactBytes,
    fun e c n => readContact_ok, fun s => ?_, fun k s hs => rdtb_load hs⟩
  · obtain ⟨h0, h1, h2, h3, h4, h5, h6, h7, h8, h9⟩ := readProfile_fields e
    exact ⟨h0, h1, h2, h3, h4, h5, h6, h7, h8, h9, readProfile_clamps e⟩
  · refine readAlarm_said (severity_listed hsv hne) fun ⟨htabled, hy⟩ => ?_
    obtain rfl | rfl | ⟨hswitch, href⟩ := hok
    · cases htabled
    · cases htabled
    · exact hy.elim hswitch href
  · exact (readAlarm_some h).1.trans (severity_code _)
  · exact readContact_said (contactRole_listed hrole) hsection hhigh
  · obtain ⟨hrole, _, hhigh⟩ := readContact_some h
    exact ⟨hrole ▸ contactRole_code_le _, hhigh⟩
  · obtain ⟨h1, h2, h3⟩ := ports_load s
    obtain ⟨h4, h5, h6, h7⟩ := cabling_load s
    exact ⟨h1, h2, h3, h4, h5, h6, h7, groups_load s, refs_load s⟩

end Sys2Proof.Proofs
end

