-- ==== Sys2Proof/Proofs/HostReads.lean ====
section
/-! Bytes that the host reads (R155, R158, R170): the snapshot, the registers, and what reads 0. -/

namespace Sys2Proof.Proofs

open Sys2Proof.Machine Sys2Proof.Safety Sys2Proof.Laws

/-! ### The snapshot (R155) -/

/-- The part of a word that a byte address names. -/
theorem byteAt_eq (a : Addr) (w : Word) :
    byteAt a w = if a = evenOf a then w.extractLsb' 8 8 else w.extractLsb' 0 8 := by
  unfold byteAt
  by_cases h : a = evenOf a
  · rw [if_pos h, if_neg fun hl => (isLow_iff a).1 hl h]
    rfl
  · rw [if_neg h, if_pos ((isLow_iff a).2 h)]
    rfl

theorem hostByteRead_new {s : State} {a : Addr} (h : ∀ t w, s.hpi.snap = some (t, w) → evenOf t ≠ evenOf a) :
    hostByteRead s a = newSnapshot s a := by
  unfold hostByteRead
  cases hsnap : s.hpi.snap with
  | none => rfl
  | some x => exact if_pos (h x.1 x.2 hsnap)

section
variable {s : State} {a t : Addr} {w : Word} (hsnap : s.hpi.snap = some (t, w))
include hsnap

theorem hostByteRead_other (hword : evenOf t = evenOf a) (hne : t ≠ a) :
    hostByteRead s a = { s with hpi := { s.hpi with snap := none, dataOut := byteAt a w } } := by
  unfold hostByteRead
  simp only [hsnap]
  rw [if_neg fun h => h hword, if_pos hne]

theorem hostByteRead_again (hsame : t = a) : hostByteRead s a = newSnapshot s a ∨
    hostByteRead s a = { s with hpi := { s.hpi with dataOut := byteAt a w } } := by
  unfold hostByteRead
  simp only [hsnap]
  subst hsame
  rw [if_neg fun h => h rfl, if_neg fun h => h rfl]
  split
  · exact .inl rfl
  · exact .inr rfl

end

theorem exec_hostByteRead {s : State} {x : HostAddr} {a : Addr} (h : handedAddr s false x = some a) :
    exec (.hostByteRead x) s = .next (hostByteRead (pastByte s false x a) a) := by
  change execHostByteRead x s = _
  rw [execHostByteRead, byteAccess_eq, h]
  simp only [advanceRun_eq]

/-- R155: what a byte read leaves, by the snapshot it finds. -/
theorem hostByteRead_said (s : State) (a : Addr) : ∃ snap out,
    hostByteRead s a = { s with hpi := { s.hpi with snap := snap, dataOut := out } } ∧
    ((∀ h w, s.hpi.snap = some (h, w) → evenOf h ≠ evenOf a) →
      snap = some (a, spmWord s (evenOf a).toNat) ∧ out = byteAt a (spmWord s (evenOf a).toNat)) ∧
    ∀ h w, s.hpi.snap = some (h, w) → evenOf h = evenOf a →
      (h ≠ a → snap = none ∧ out = byteAt a w) ∧
      (h = a → (snap = some (a, w) ∧ out = byteAt a w) ∨
        (snap = some (a, spmWord s (evenOf a).toNat) ∧ out = byteAt a (spmWord s (evenOf a).toNat))) := by
  by_cases hnew : ∀ h w, s.hpi.snap = some (h, w) → evenOf h ≠ evenOf a
  · exact ⟨_, _, hostByteRead_new hnew, fun _ => ⟨rfl, rfl⟩, fun h w hsnap hword => absurd hword (hnew h w hsnap)⟩
  · push Not at hnew
    obtain ⟨h, w, hsnap, hword⟩ := hnew
    have hfound : ∀ h' w', s.hpi.snap = some (h', w') → h' = h ∧ w' = w := fun h' w' heq => by
      rw [hsnap] at heq
      cases heq
      exact ⟨rfl, rfl⟩
    have hnot : ¬∀ h w, s.hpi.snap = some (h, w) → evenOf h ≠ evenOf a := fun hno => hno h w hsnap hword
    by_cases hsame : h = a
    · obtain heq | heq := hostByteRead_again hsnap hsame
      · refine ⟨_, _, heq, fun hno => absurd hno hnot, fun h' w' heq' _ => ?_⟩
        exact ⟨fun hne => absurd ((hfound h' w' heq').1.trans hsame) hne, fun _ => .inr ⟨rfl, rfl⟩⟩
      · refine ⟨s.hpi.snap, _, heq, fun hno => absurd hno hnot, fun h' w' heq' _ => ?_⟩
        obtain ⟨rfl, rfl⟩ := hfound h' w' heq'
        exact ⟨fun hne => absurd hsame hne, fun _ => .inl ⟨by rw [hsnap, hsame], rfl⟩⟩
    · refine ⟨_, _, hostByteRead_other hsnap hword hsame, fun hno => absurd hno hnot, fun h' w' heq' _ => ?_⟩
      obtain ⟨rfl, rfl⟩ := hfound h' w' heq'
      exact ⟨fun _ => ⟨rfl, rfl⟩, fun heq => absurd heq hsame⟩

/-! ### Registers and words that read 0 (R158, R170) -/

theorem spmWord_init {s : State} {a : Nat} (hready : s.start.ready = false) (h : a < 0x7FF0) : spmWord s a = 0 := by
  rw [spmWord, if_neg (by omega), hready]
  rfl

theorem spmWord_register (s : State) (off : Nat) : spmWord s (0x7FF0 + off) = registerWord s off := by
  rw [spmWord, if_pos (Nat.le_add_right _ _), Nat.add_sub_cancel_left]

theorem spmWord_region {s : State} {a : Nat} (hready : s.start.ready = true) (h : a < 0x7FF0) :
    spmWord s a = wordOf (regionByte s a) (regionByte s (a + 1)) := by
  rw [spmWord, if_neg (by omega), if_pos hready]

theorem regionByte_unassigned (s : State) {a : Nat} (h : 0x3A02 ≤ a) (h' : a < 0x7FF0) : regionByte s a = 0 := by
  have hr : regionOf a = .unassigned := by
    unfold regionOf
    iterate 10 rw [if_neg (by omega)]
    rw [if_pos h']
  simp only [regionByte, hr]

theorem spmWord_unassigned {s : State} {n : Nat} (hready : s.start.ready = true) (h : n < 0x7FF0 - 0x3A02)
    (heven : n % 2 = 0) : spmWord s (0x3A02 + n) = 0 := by
  rw [spmWord_region hready (by omega), regionByte_unassigned s (by omega) (by omega),
    regionByte_unassigned s (by omega) (by omega)]
  rfl

theorem registers_read (s : State) :
    (spmWord s 0x7FF0).extractLsb' 8 8 = 0xA3 ∧ spmWord s 0x7FF2 = (if s.start.ready then 1 else 0) ∧
    spmWord s 0x7FF4 = s.hpi.attn.setWidth 16 ∧ spmWord s 0x7FF8 = s.hpi.mask.setWidth 16 ∧ spmWord s 0x7FF6 = 0 ∧
    spmWord s 0x7FFA = 0 ∧ spmWord s 0x7FFC = 0 ∧ spmWord s 0x7FFE = 0 :=
  ⟨(congrArg hiByte (spmWord_register s 0)).trans (hiByte_wordOf _ _), spmWord_register s 2, spmWord_register s 4,
    spmWord_register s 8, spmWord_register s 6, spmWord_register s 10, spmWord_register s 12, spmWord_register s 14⟩

end Sys2Proof.Proofs
end

