-- ==== Sys2Proof/Proofs/MirrorWords.lean ====
section
/-! The words of the regions that are views of the blocks' state (R154): from an entry's bytes to the words the host reads. -/

namespace Sys2Proof.Proofs

open Sys2Proof.Machine Sys2Proof.Safety Sys2Proof.Laws

/-! ### Words of bytes -/

/-- The words that bytes make, high byte first. -/
def wordsOf : List Byte → List Word
  | hi :: lo :: l => wordOf hi lo :: wordsOf l
  | _ => []

/-- The two words of a 32-bit value, high word first. -/
def words32 (x : BitVec 32) : List Word := [x.extractLsb' 16 16, x.extractLsb' 0 16]

/-- The word of two numbers of a byte each. -/
def twoBytes (a b : Nat) : Word := BitVec.ofNat 8 a ++ BitVec.ofNat 8 b

@[simp] theorem wordsOf_nil : wordsOf [] = [] := rfl

@[simp] theorem wordsOf_byte8 (a b : Nat) (l : List Byte) : wordsOf (byte8 a :: byte8 b :: l) = twoBytes a b :: wordsOf l := rfl

theorem wordOf_byte8 (n : Nat) : wordOf (byte8 (n / 256)) (byte8 n) = BitVec.ofNat 16 n := by
  apply BitVec.eq_of_toNat_eq
  rw [wordOf_toNat, nat16, byte8, byte8, BitVec.toNat_ofNat, BitVec.toNat_ofNat, BitVec.toNat_ofNat]
  omega

@[simp] theorem wordsOf_bytes16 (n : Nat) (l : List Byte) : wordsOf (bytes16 n ++ l) = BitVec.ofNat 16 n :: wordsOf l :=
  congrArg (· :: wordsOf l) (wordOf_byte8 n)

@[simp] theorem wordsOf_word (n : Nat) : wordsOf (bytes16 n) = [BitVec.ofNat 16 n] := wordsOf_bytes16 n []

theorem words32_ofNat (n : Nat) : words32 (BitVec.ofNat 32 n) = [BitVec.ofNat 16 (n / 65536), BitVec.ofNat 16 n] := by
  have hhi : (BitVec.ofNat 32 n).extractLsb' 16 16 = BitVec.ofNat 16 (n / 65536) := by
    apply BitVec.eq_of_toNat_eq
    rw [BitVec.extractLsb'_toNat, BitVec.toNat_ofNat, BitVec.toNat_ofNat, Nat.shiftRight_eq_div_pow]
    omega
  have hlo : (BitVec.ofNat 32 n).extractLsb' 0 16 = BitVec.ofNat 16 n := by
    apply BitVec.eq_of_toNat_eq
    rw [BitVec.extractLsb'_toNat, BitVec.toNat_ofNat, BitVec.toNat_ofNat, Nat.shiftRight_zero]
    omega
  rw [words32, hhi, hlo]

@[simp] theorem wordsOf_bytes32 (n : Nat) (l : List Byte) :
    wordsOf (bytes32 n ++ l) = words32 (BitVec.ofNat 32 n) ++ wordsOf l := by
  rw [bytes32, List.append_assoc, wordsOf_bytes16, wordsOf_bytes16, words32_ofNat]
  rfl

theorem ofNat_twos (w : Nat) (v : Int) : BitVec.ofNat w (twos w v) = BitVec.ofInt w v := by
  apply BitVec.eq_of_toNat_eq
  rw [BitVec.toNat_ofNat, BitVec.toNat_ofInt, twos]
  have hpos : (0 : Int) < (2 ^ w : Nat) := by exact_mod_cast Nat.two_pow_pos w
  have := Int.emod_lt_of_pos v hpos
  have := Int.emod_nonneg v hpos.ne'
  exact Nat.mod_eq_of_lt (by omega)

/-- The word that shows a signed value, 0x8000 where it is absent. -/
def shownPower (x : Option Int) : Word := match x with | some v => BitVec.ofInt 16 v | none => 0x8000

/-- The words that show a signed 32-bit value, 0x80000000 where it is absent. -/
def shownValue (x : Option Int) : List Word := words32 (match x with | some v => BitVec.ofInt 32 v | none => 0x80000000)

@[simp] theorem power16_length (x : Option Int) : (power16 x).length = 2 := by cases x <;> rfl

@[simp] theorem value32_length (x : Option Int) : (value32 x).length = 4 := by cases x <;> rfl

@[simp] theorem bytes16_length (n : Nat) : (bytes16 n).length = 2 := rfl

@[simp] theorem bytes32_length (n : Nat) : (bytes32 n).length = 4 := rfl

@[simp] theorem wordsOf_power16 (x : Option Int) (l : List Byte) : wordsOf (power16 x ++ l) = shownPower x :: wordsOf l := by
  cases x with
  | none => rfl
  | some v => rw [power16, wordsOf_bytes16, ofNat_twos]; rfl

@[simp] theorem wordsOf_value32 (x : Option Int) (l : List Byte) : wordsOf (value32 x ++ l) = shownValue x ++ wordsOf l := by
  cases x with
  | none => rfl
  | some v => rw [value32, wordsOf_bytes32, ofNat_twos]; rfl

theorem wordsOf_zeros (n : Nat) : wordsOf (List.replicate (2 * n) 0) = List.replicate n 0 := by
  induction n with
  | zero => rfl
  | succ n ih => exact congrArg ((0 : Word) :: ·) ih

theorem wordsOf_getElem? {l : List Byte} {k : Nat} {w : Word} (h : (wordsOf l)[k]? = some w) :
    ∃ hi lo, l[2 * k]? = some hi ∧ l[2 * k + 1]? = some lo ∧ wordOf hi lo = w := by
  induction l using wordsOf.induct generalizing k with
  | case1 hi lo l ih =>
    cases k with
    | zero => exact ⟨hi, lo, rfl, rfl, Option.some.inj h⟩
    | succ k => exact ih h
  | case2 l hl =>
    have hnil : wordsOf l = [] := by
      unfold wordsOf
      split
      · next hi lo l => exact absurd rfl (hl hi lo l)
      · rfl
    rw [hnil] at h
    cases h

/-! ### What is shown from an address on -/

/-- The bytes of the regions from an address on. -/
def BytesShown (s : State) (base : Nat) (l : List Byte) : Prop := ∀ i b, l[i]? = some b → regionByte s (base + i) = b

/-- The words that the host reads from an address on. -/
def WordsShown (s : State) (base : Nat) (ws : List Word) : Prop := ∀ k w, ws[k]? = some w → spmWord s (base + 2 * k) = w

section
variable {s : State} {base : Nat}

theorem BytesShown.append {l m : List Byte} (h : BytesShown s base (l ++ m)) :
    BytesShown s base l ∧ BytesShown s (base + l.length) m := by
  refine ⟨fun i b hb => h i b ?_, fun i b hb => ?_⟩
  · rw [List.getElem?_append_left (List.getElem?_eq_some_iff.1 hb).1, hb]
  · rw [Nat.add_assoc]
    exact h _ b (by rw [List.getElem?_append_right (Nat.le_add_right _ _), Nat.add_sub_cancel_left, hb])

theorem BytesShown.flatMap {α : Type} {f : α → List Byte} {n : Nat} (hn : ∀ x, (f x).length = n) {l : List α}
    (h : BytesShown s base (l.flatMap f)) {i : Nat} {x : α} (hx : l[i]? = some x) : BytesShown s (base + n * i) (f x) := by
  induction l generalizing base i with
  | nil => cases hx
  | cons y l ih =>
    rw [List.flatMap_cons] at h
    obtain ⟨hfirst, hrest⟩ := h.append
    cases i with
    | zero => cases hx; exact hfirst
    | succ i =>
      have := ih hrest hx
      rwa [hn, Nat.add_assoc, Nat.add_comm n, ← Nat.mul_succ] at this

theorem BytesShown.words {l : List Byte} (hready : s.start.ready = true) (hlow : base + l.length ≤ 0x7FF0)
    (h : BytesShown s base l) : WordsShown s base (wordsOf l) := by
  intro k w hw
  obtain ⟨hi, lo, hhi, hlo, hword⟩ := wordsOf_getElem? hw
  have := (List.getElem?_eq_some_iff.1 hlo).1
  rw [spmWord_region hready (by omega), h _ _ hhi, Nat.add_assoc, h _ _ hlo, hword]

theorem wordsShown_append {l m : List Word} :
    WordsShown s base (l ++ m) ↔ WordsShown s base l ∧ WordsShown s (base + 2 * l.length) m := by
  constructor
  · refine fun h => ⟨fun k w hw => h k w ?_, fun k w hw => ?_⟩
    · rw [List.getElem?_append_left (List.getElem?_eq_some_iff.1 hw).1, hw]
    · rw [Nat.add_assoc, ← Nat.mul_add]
      exact h _ w (by rw [List.getElem?_append_right (Nat.le_add_right _ _), Nat.add_sub_cancel_left, hw])
  · rintro ⟨hl, hm⟩ k w hw
    by_cases hk : k < l.length
    · exact hl k w (by rwa [List.getElem?_append_left hk] at hw)
    · obtain ⟨j, rfl⟩ := Nat.exists_eq_add_of_le (Nat.le_of_not_lt hk)
      rw [List.getElem?_append_right (Nat.le_add_right _ _), Nat.add_sub_cancel_left] at hw
      rw [Nat.mul_add, ← Nat.add_assoc]
      exact hm j w hw

theorem wordsShown_cons {w : Word} {l : List Word} :
    WordsShown s base (w :: l) ↔ spmWord s base = w ∧ WordsShown s (base + 2) l := by
  refine (wordsShown_append (l := [w])).trans (and_congr_left fun _ => ⟨fun h => h 0 w rfl, fun h k v hv => ?_⟩)
  cases k with
  | zero => cases hv; exact h
  | succ k => cases hv

/-- The byte the host reads at an address. -/
def shownByte (s : State) (a : Nat) : Byte := (spmWord s (a / 2 * 2)).extractLsb' (if a % 2 = 0 then 8 else 0) 8

theorem shownByte_eq (hready : s.start.ready = true) {a : Nat} (h : a < 0x7FF0) : shownByte s a = regionByte s a := by
  unfold shownByte
  rw [spmWord_region hready (by omega)]
  by_cases heven : a % 2 = 0
  · rw [if_pos heven, show a / 2 * 2 = a by omega]
    exact hiByte_wordOf _ _
  · rw [if_neg heven, show a / 2 * 2 + 1 = a by omega]
    exact loByte_wordOf _ _

theorem BytesShown.byte {l : List Byte} (hready : s.start.ready = true) (h : BytesShown s base l) {i : Nat} {b : Byte}
    (hb : l[i]? = some b) (hlow : base + i < 0x7FF0) : shownByte s (base + i) = b :=
  (shownByte_eq hready hlow).trans (h i b hb)

end

/-! ### The regions (R154) -/

theorem getD_of_getElem? {l : List Byte} {i : Nat} {b : Byte} (h : l[i]? = some b) : l.getD i 0 = b := by
  rw [List.getD_eq_getElem?_getD, h]
  rfl

section
variable (s : State)

theorem header_shown (h : (headerBytes s).length ≤ 0x100) : BytesShown s 0 (headerBytes s) := by
  intro i b hb
  have hi := (List.getElem?_eq_some_iff.1 hb).1
  have hr : regionOf i = .header := if_pos (by omega)
  rw [Nat.zero_add]
  simp only [regionByte, hr]
  exact getD_of_getElem? hb

theorem memory_shown {a : Nat} (h : (0x100 ≤ a ∧ a < 0x1300) ∨ a = 0x3A00 ∨ a = 0x3A01) : regionByte s a = memRead s.mem a := by
  unfold regionByte regionOf
  rcases h with ⟨h1, h2⟩ | h | h
  · rw [if_neg (by omega)]
    by_cases h3 : a < 0x300
    · rw [if_pos h3]
    · rw [if_neg h3, if_pos h2]
  · subst h; rfl
  · subst h; rfl

theorem port_shown (p : Port) (h : (portEntry s p).length ≤ 32) : BytesShown s (0x1300 + 32 * p.val) (portEntry s p) := by
  intro i b hb
  have hi := (List.getElem?_eq_some_iff.1 hb).1
  have hr : regionOf (0x1300 + 32 * p.val + i) = .port p := by
    unfold regionOf
    iterate 3 rw [if_neg (by omega)]
    rw [if_pos (by omega)]
    exact congrArg _ (Fin.ext (by rw [Fin.val_ofNat]; omega))
  simp only [regionByte, hr]
  rw [show (0x1300 + 32 * p.val + i - 0x1300) % 32 = i by omega]
  exact getD_of_getElem? hb

theorem group_shown (g : GroupIx) (h : (groupPart s.prc g).length = 30) :
    BytesShown s (0x1B00 + 32 * g.val) (bytes16 s.gens.groups[g].toNat ++ groupPart s.prc g) := by
  intro i b hb
  have hi := (List.getElem?_eq_some_iff.1 hb).1
  rw [List.length_append, h] at hi
  change i < 2 + 30 at hi
  have hr : regionOf (0x1B00 + 32 * g.val + i) = .group g := by
    unfold regionOf
    iterate 4 rw [if_neg (by omega)]
    rw [if_pos (by omega)]
    exact congrArg _ (Fin.ext (by rw [Fin.val_ofNat]; omega))
  simp only [regionByte, hr]
  rw [show (0x1B00 + 32 * g.val + i - 0x1B00) % 32 = i by omega]
  exact getD_of_getElem? hb

theorem timing_shown (h : (timingBytes s).length ≤ 256) : BytesShown s 0x1D00 (timingBytes s) := by
  intro i b hb
  have hi := (List.getElem?_eq_some_iff.1 hb).1
  have hr : regionOf (0x1D00 + i) = .timing := by
    unfold regionOf
    iterate 5 rw [if_neg (by omega)]
    rw [if_pos (by omega)]
  simp only [regionByte, hr, Nat.add_sub_cancel_left]
  exact getD_of_getElem? hb

theorem order_shown (j : OrderIx) (h : (orderPart s.cbc.orders[j]).length = 62) :
    BytesShown s (0x1E00 + 64 * j.val) (bytes16 s.gens.orders[j].toNat ++ orderPart s.cbc.orders[j]) := by
  intro i b hb
  have hi := (List.getElem?_eq_some_iff.1 hb).1
  rw [List.length_append, h] at hi
  change i < 2 + 62 at hi
  have hr : regionOf (0x1E00 + 64 * j.val + i) = .order j := by
    unfold regionOf
    iterate 6 rw [if_neg (by omega)]
    rw [if_pos (by omega)]
    exact congrArg _ (Fin.ext (by rw [Fin.val_ofNat]; omega))
  simp only [regionByte, hr]
  rw [show (0x1E00 + 64 * j.val + i - 0x1E00) % 64 = i by omega]
  exact getD_of_getElem? hb

theorem alarm_shown (j : EntryIx) (h : (alarmBytes s.alm.entries[j]).length ≤ 16) :
    BytesShown s (0x2200 + 16 * j.val) (alarmBytes s.alm.entries[j]) := by
  intro i b hb
  have hi := (List.getElem?_eq_some_iff.1 hb).1
  have hr : regionOf (0x2200 + 16 * j.val + i) = .alarm j := by
    unfold regionOf
    iterate 7 rw [if_neg (by omega)]
    rw [if_pos (by omega)]
    exact congrArg _ (Fin.ext (by rw [Fin.val_ofNat]; omega))
  simp only [regionByte, hr]
  rw [show (0x2200 + 16 * j.val + i - 0x2200) % 16 = i by omega]
  exact getD_of_getElem? hb

theorem record_shown (n : Fin 256) (h : (recordBytes s.jrn.ring[n]).length ≤ 16) :
    BytesShown s (0x2A00 + 16 * n.val) (recordBytes s.jrn.ring[n]) := by
  intro i b hb
  have hi := (List.getElem?_eq_some_iff.1 hb).1
  have hr : regionOf (0x2A00 + 16 * n.val + i) = .journal n.val := by
    unfold regionOf
    iterate 8 rw [if_neg (by omega)]
    rw [if_pos (by omega)]
    exact congrArg _ (by omega)
  simp only [regionByte, hr]
  rw [show (0x2A00 + 16 * n.val + i - 0x2A00) % 16 = i by omega]
  have hring : s.jrn.ring[n.val % 256]'(Nat.mod_lt _ (by decide)) = s.jrn.ring[n] :=
    getElem_congr_idx (Nat.mod_eq_of_lt n.isLt)
  rw [hring]
  exact getD_of_getElem? hb

end

end Sys2Proof.Proofs
end

