-- ==== Sys2Proof/Proofs/PortWords.lean ====
section
/-! The words of a port (sections 10.5, R22, R33, R45, R92, R101). -/

namespace Sys2Proof.Proofs

open Sys2Proof.Machine Sys2Proof.Safety Sys2Proof.Laws

/-! ### Codes of the formats -/

/-- The number a list of flags spells, least significant first. -/
def shownBits (l : List Bool) : Nat := (l.zipIdx.map fun x => x.1.toNat * 2 ^ x.2).sum

/-- The number that shows a place, 0xFF where it is absent. -/
def shownPlace {n : Nat} (x : Option (Fin n)) : Nat := match x with | some v => v.val | none => 0xFF

/-- A field of the received tag, 0 where the tag is absent. -/
def tagField (t : Option Tag) (f : Tag → Nat) : Nat := match t with | some t => f t | none => 0

theorem tagField_bit (x : Option Tag) (g : Tag → Bool) :
    (tagField x (fun t => (g t).toNat) == 1).toNat = tagField x fun t => (g t).toNat := by
  cases x with
  | none => rfl
  | some t =>
    change ((g t).toNat == 1).toNat = (g t).toNat
    cases g t <;> rfl

/-- The decoder state's code. -/
def decoderCode (st : DecState) : Nat := match st with | .hunt => 0 | .candidate _ => 1 | .locked _ _ => 2

theorem decoderCode_eq (st : DecState) : st.code = decoderCode st := by cases st <;> rfl

theorem roleCode_eq (x : Role) : x.code = [Role.spare, .line, .trib].idxOf x := by cases x <;> rfl

theorem portStateCode_eq (x : PortState) :
    x.code = [PortState.clear, .degrade, .fail, .dark, .monLost, .equipOut].idxOf x := by cases x <;> rfl

theorem cardStateCode_eq (x : CardState) : x.code = [CardState.unknown, .inService, .out, .faulty].idxOf x := by cases x <;> rfl

theorem cabStateCode_eq (x : CabState) :
    x.code = [CabState.unchecked, .noLight, .awaiting, .matched, .mismatch, .untagged, .litUnexpected, .held].idxOf x := by
  cases x <;> rfl

theorem expKindCode_eq (x : ExpKind) : x.code = [ExpKind.any, .tag, .dark].idxOf x := by cases x <;> rfl

theorem shownBits_eq (l : List Bool) : shownBits l = bitsNat l := by
  have hfrom : ∀ (l : List Bool) (k : Nat), ((l.zipIdx k).map fun x => x.1.toNat * 2 ^ x.2).sum = bitsNat l * 2 ^ k := by
    intro l
    induction l with
    | nil => exact fun k => (Nat.zero_mul _).symm
    | cons b l ih =>
      intro k
      rw [List.zipIdx_cons, List.map_cons, List.sum_cons, ih, bitsNat, pow_succ]
      ring
  exact (hfrom l 0).trans (Nat.mul_one _)

theorem bitsNat_append (l m : List Bool) : bitsNat (l ++ m) = bitsNat l + 2 ^ l.length * bitsNat m := by
  induction l with
  | nil => simp [bitsNat]
  | cons b l ih =>
    rw [List.cons_append, bitsNat, bitsNat, ih, List.length_cons, pow_succ]
    ring

/-- Flags from bit 9 on join nine others. -/
theorem bitsNat_nine {l : List Bool} (m : List Bool) (h : l.length = 9) : bitsNat l + 512 * bitsNat m = bitsNat (l ++ m) := by
  rw [bitsNat_append, h]
  rfl

/-! ### A port's entry -/

section
variable (s : State) (p : Port)

/-- The words of PMON's part of a port, but for its flags. -/
def pmonWords : List Word :=
  let r := s.pmon.ports[p]
  if s.populated p then
    [BitVec.ofInt 16 r.power, shownPower r.smoothed, shownPower r.baseline, BitVec.ofNat 16 r.spikes, BitVec.ofNat 16 r.missed]
  else [0, 0x8000, 0x8000, 0, 0]

theorem wordsOf_pmonPart (l : List Byte) : wordsOf ((pmonPart s p).2 ++ l) = pmonWords s p ++ wordsOf l := by
  unfold pmonPart pmonWords
  split
  · simp only [List.append_assoc, wordsOf_bytes16, wordsOf_power16, ofNat_twos]
    rfl
  · rfl

/-- The words of a port from its expected shelf on. -/
def linkWords : List Word :=
  let c := s.cbc.ports[p]
  let d := s.tcd.decs[p]
  let f := tagField d.tag
  [c.expect.shelf, twoBytes (decoderCode d.st * 64 + c.expect.port.toNat % 64) (f (·.signalling.toNat) * 64 + f (·.port.toNat)),
    BitVec.ofNat 16 (f (·.shelf.toNat)),
    twoBytes (f (·.cls.toNat) * 16 + f (·.request.toNat)) (f (·.bridged.toNat) * 8 + f (·.member.toNat)),
    twoBytes (match (protOut s.prc p).partner with | some q => 64 + q.val | none => 0)
      (shownBits ([2, 3, 4, 5].map fun (l : RefIx) => decide (s.tsel.refs[l].tap = some p)) * 16 +
        (match c.hold with | some i => i.val | none => 0)),
    BitVec.ofNat 16 d.glitch, BitVec.ofNat 16 d.change, BitVec.ofNat 16 d.badSig]

/-- The numbers of a port's flags word and of the word after it. -/
def flagWords : List Word :=
  let a := (pmonPart s p).1
  let c := s.cbc.ports[p]
  let f := tagField s.tcd.decs[p].tag
  let o := protOut s.prc p
  let n (k : Nat) : Nat := a.getD k 0
  [BitVec.ofNat 16 (n 0 + 512 * bitsNat [c.hold.isSome, c.tagWait.isNone, s.prc.frozen[p].isSome, o.select, o.bridge,
      f (·.feLos.toNat) == 1, f (·.test.toNat) == 1]),
    twoBytes (n 1 * 64 + n 2 * 8 + n 3) (n 4 * 64 + c.state.code * 8 + c.expect.kind.code)]

theorem tapsOf_toNat : (tapsOf s.tsel p).toNat =
    shownBits ([2, 3, 4, 5].map fun (l : RefIx) => decide (s.tsel.refs[l].tap = some p)) := by
  rw [tapsOf, shownBits_eq, BitVec.toNat_ofNat]
  refine Nat.mod_eq_of_lt ?_
  have hbit : ∀ b : Bool, b.toNat ≤ 1 := Bool.toNat_le
  have h2 := hbit (decide (s.tsel.refs[(2 : RefIx)].tap = some p))
  have h3 := hbit (decide (s.tsel.refs[(3 : RefIx)].tap = some p))
  have h4 := hbit (decide (s.tsel.refs[(4 : RefIx)].tap = some p))
  have h5 := hbit (decide (s.tsel.refs[(5 : RefIx)].tap = some p))
  simp only [List.map_cons, List.map_nil, bitsNat]
  omega

theorem tcdPart_eq : tcdPart s p =
    let d := s.tcd.decs[p]
    let f := tagField d.tag
    ([f (·.feLos.toNat), f (·.test.toNat), decoderCode d.st, f (·.signalling.toNat), f (·.port.toNat), f (·.cls.toNat),
      f (·.request.toNat), f (·.bridged.toNat), f (·.member.toNat)],
      bytes16 (f (·.shelf.toNat)) ++ (bytes16 d.glitch ++ bytes16 d.change ++ bytes16 d.badSig)) := by
  simp only [tcdPart, decoderCode_eq]
  cases s.tcd.decs[p].tag <;> rfl

theorem partnerByte_eq (x : Option Port) :
    x.isSome.toNat * 64 + (x.map (·.val)).getD 0 = match x with | some q => 64 + q.val | none => 0 := by
  cases x <;> rfl

theorem holderByte_eq (x : Option OrderIx) : (x.map (·.val)).getD 0 = match x with | some i => i.val | none => 0 := by
  cases x <;> rfl

theorem wordsOf_portEntry : wordsOf (portEntry s p) =
    s.gens.ports[p] :: (flagWords s p ++ pmonWords s p ++ linkWords s p) := by
  have hword : ∀ w : Word, BitVec.ofNat 16 w.toNat = w := fun w => BitVec.ofNat_toNat _ _
  have htake : ∀ n (l : List Byte), (bytes16 n ++ l).take 2 = bytes16 n := fun _ _ => rfl
  have hdrop : ∀ n (l : List Byte), (bytes16 n ++ l).drop 2 = l := fun _ _ => rfl
  have hflags : ∀ n a b c d e f g : Nat, n + a * 512 + b * 1024 + c * 2048 + d * 4096 + e * 8192 + f * 16384 + g * 32768 =
      n + 512 * (a + 2 * (b + 2 * (c + 2 * (d + 2 * (e + 2 * (f + 2 * (g + 2 * 0))))))) := fun _ _ _ _ _ _ _ _ => by ring
  simp only [portEntry, tcdPart_eq, cbcPart, prcPart, tselPart, htake, hdrop, List.append_assoc, wordsOf_bytes16, wordsOf_word,
    hword, List.cons_append, List.nil_append, wordsOf_byte8, wordsOf_pmonPart, flagWords, linkWords, tapsOf_toNat,
    List.getD_cons_zero, List.getD_cons_succ, partnerByte_eq, holderByte_eq, bitsNat, tagField_bit, hflags]

theorem portEntry_length : (portEntry s p).length ≤ 32 := by
  have hpmon : (pmonPart s p).2.length = 10 := by
    unfold pmonPart
    split
    · simp only [List.length_append, power16_length]
      rfl
    · rfl
  simp only [portEntry, tcdPart_eq, List.length_append, hpmon]
  exact Nat.le_refl 32

theorem pmonWords_length : (pmonWords s p).length = 5 := by
  unfold pmonWords
  split <;> rfl

variable {s} (hready : s.start.ready = true)
include hready

theorem portWords_shown : WordsShown s (0x1300 + 32 * p.val)
    (s.gens.ports[p] :: (flagWords s p ++ pmonWords s p ++ linkWords s p)) := by
  rw [← wordsOf_portEntry]
  have hlow := portEntry_length s p
  have := p.isLt
  exact (port_shown s p hlow).words hready (by omega)

/-- R22, R33, R45, R92, R101: what the host reads of a port. -/
theorem portFields_shown :
    let base := 0x1300 + 32 * p.val
    let r := s.pmon.ports[p]
    let c := s.cbc.ports[p]
    let f := tagField s.tcd.decs[p].tag
    let o := protOut s.prc p
    spmWord s base = s.gens.ports[p] ∧
    (s.populated p = true → WordsShown s (base + 2) [
      BitVec.ofNat 16 (shownBits [true, r.overRange, r.smoothed.isNone, r.cal.isSome, r.los, r.fail, r.degrade, r.overload,
        r.monLost, c.hold.isSome, c.tagWait.isNone, s.prc.frozen[p].isSome, o.select, o.bridge, f (·.feLos.toNat) == 1,
        f (·.test.toNat) == 1]),
      twoBytes ([Role.spare, .line, .trib].idxOf r.role * 64 + r.profile.val * 8 +
          [PortState.clear, .degrade, .fail, .dark, .monLost, .equipOut].idxOf r.handed)
        ([CardState.unknown, .inService, .out, .faulty].idxOf s.pmon.cards[cardOf p].accepted * 64 +
          [CabState.unchecked, .noLight, .awaiting, .matched, .mismatch, .untagged, .litUnexpected, .held].idxOf c.state
            * 8 + [ExpKind.any, .tag, .dark].idxOf c.expect.kind),
      BitVec.ofInt 16 r.power, shownPower r.smoothed, shownPower r.baseline, BitVec.ofNat 16 r.spikes,
      BitVec.ofNat 16 r.missed]) ∧
    (s.populated p = false →
      (spmWord s (base + 2)).extractLsb' 0 9 = 0 ∧ WordsShown s (base + 6) [0, 0x8000, 0x8000, 0, 0]) ∧
    WordsShown s (base + 16) (linkWords s p) := by
  intro base r c f o
  obtain ⟨hgen, hwords⟩ := wordsShown_cons.1 (portWords_shown p hready)
  obtain ⟨hwords, hlink⟩ := wordsShown_append.1 hwords
  rw [List.length_append, pmonWords_length] at hlink
  refine ⟨hgen, fun hpop => ?_, fun hpop => ⟨?_, ?_⟩, hlink⟩
  · have hflags : (pmonPart s p).1 = [bitsNat [true, r.overRange, r.smoothed.isNone, r.cal.isSome, r.los, r.fail, r.degrade,
        r.overload, r.monLost], r.role.code, r.profile.val, r.handed.code, s.pmon.cards[cardOf p].accepted.code] := by
      simp only [pmonPart, pmonFlags, hpop, if_true, r]
    have hpmon : pmonWords s p = [BitVec.ofInt 16 r.power, shownPower r.smoothed, shownPower r.baseline,
        BitVec.ofNat 16 r.spikes, BitVec.ofNat 16 r.missed] := by
      simp only [pmonWords, hpop, if_true, r]
    simp only [flagWords, hflags, hpmon, List.getD_cons_zero, List.getD_cons_succ, roleCode_eq, portStateCode_eq,
      cardStateCode_eq, cabStateCode_eq, expKindCode_eq] at hwords
    rw [shownBits_eq]
    rw [bitsNat_nine _ rfl] at hwords
    exact hwords
  · have hflags : (pmonPart s p).1 = [0, 0, 0, 0, 0] := by simp only [pmonPart, hpop, Bool.false_eq_true, if_false]
    refine (congrArg (BitVec.extractLsb' 0 9) (wordsShown_cons.1 hwords).1).trans ?_
    simp only [hflags, List.getD_cons_zero, Nat.zero_add]
    generalize bitsNat _ = n
    apply BitVec.eq_of_toNat_eq
    rw [BitVec.extractLsb'_toNat, BitVec.toNat_ofNat, Nat.shiftRight_zero]
    change 512 * n % 2 ^ 16 % 2 ^ 9 = 0
    omega
  · have hpmon : pmonWords s p = [0, 0x8000, 0x8000, 0, 0] := by simp only [pmonWords, hpop, Bool.false_eq_true, if_false]
    rw [hpmon] at hwords
    exact (wordsShown_append.1 hwords).2

end

end Sys2Proof.Proofs
end

