-- ==== Sys2Proof/Proofs/GroupWords.lean ====
section
/-! The words of a protection group (sections 10.5, R95). -/

namespace Sys2Proof.Proofs

open Sys2Proof.Machine Sys2Proof.Safety Sys2Proof.Laws

/-! ### Codes of the formats -/

/-- The number of an absent place or member, 0. -/
def shownMember (x : Option Nat) : Nat := match x with | some j => j | none => 0

theorem shownMember_eq (x : Option Nat) : x.getD 0 = shownMember x := by cases x <;> rfl

theorem orElse_place {n : Nat} (x : Option (Fin n)) : orElse (x.map (·.val)) 0xFF = byte8 (shownPlace x) := by cases x <;> rfl

theorem flagAt_eq (k : Nat) (b : Bool) : flagAt k b = b.toNat * 2 ^ k := by
  cases b with
  | false => exact (Nat.zero_mul _).symm
  | true => exact (Nat.one_mul _).symm

theorem groupKindCode_eq (x : GroupKind) : x.code = [GroupKind.uni, .bi, .oneToN].idxOf x + 1 := by cases x <;> rfl

theorem sideCode_eq (x : Side) : x.code = [Side.localEnd, .farEnd, .both].idxOf x := by cases x <;> rfl

/-- The bridge confirmation's code. -/
def confirmCode (x : Confirm) : Nat := match x with | .idle => 0 | .running _ => 1 | .expired => 2

theorem confirmCode_eq (x : Confirm) : x.code = confirmCode x := by cases x <;> rfl

/-- R95: the WTR remaining. -/
def wtrShown (x : Option Wait) : Nat := match x with | some (.restore _ (some n)) => (n + 3999) / 4000 | _ => 0xFFFF

theorem wtrLeft_eq (g : Group) : g.wtrLeft.getD 0xFFFF = wtrShown g.wait := by
  rw [Group.wtrLeft]
  cases g.wait with
  | none => rfl
  | some x =>
    cases x with
    | restore m left => cases left <;> rfl
    | stay m => rfl

/-- R95: the state summary. -/
def groupSummary (g : Group) : Nat :=
  if g.top.ord = 11 then 3 else if g.top.ord = 10 then 4 else if g.win.ord = 3 ∨ g.win.ord = 2 then 2
  else if g.selected ≠ 0 ∨ (g.kind = .oneToN ∧ g.bridged ≠ 0) then 1 else 0

/-! ### A group's entry -/

/-- The words of a defined group but for its generation word and the last one. -/
def groupWords (g : Group) : List Word :=
  let w (k : Nat) : Nat := shownPlace g.work[k]?
  let m (k : Nat) : Nat := shownMember g.order[k]?
  [twoBytes (confirmCode g.confirm * 64 + shownBits [g.revertive, g.degSwitch, g.lockout, g.sigLost] * 4 +
      [GroupKind.uni, .bi, .oneToN].idxOf g.kind + 1) g.prot.val,
    twoBytes (w 0) (w 1), twoBytes (w 2) (w 3), twoBytes (w 4) (w 5), BitVec.ofNat 16 g.holdOff, BitVec.ofNat 16 g.wtr,
    twoBytes ([Side.localEnd, .farEnd, .both].idxOf g.side * 8 + groupSummary g) (g.top.mem * 16 + g.top.ord),
    twoBytes (g.win.mem * 16 + g.win.ord) (if g.kind = .uni then 0x80 else g.farReq.mem * 16 + g.farReq.ord),
    twoBytes (g.bridged * 8 + g.farBridged) (shownMember g.force * 8 + g.selected),
    twoBytes (g.order.length * 16 + shownMember g.manual) (m 0 * 16 + m 1), twoBytes (m 2 * 16 + m 3) (m 4 * 16 + m 5),
    BitVec.ofNat 16 (wtrShown g.wait), BitVec.ofNat 16 (shownBits [g.svcLoss, g.protUnavail, g.sigFail, g.bridgeMis]),
    BitVec.ofNat 16 g.switches]

theorem workBytes_eq (work : List Port) : workBytes work = [byte8 (shownPlace work[0]?), byte8 (shownPlace work[1]?),
    byte8 (shownPlace work[2]?), byte8 (shownPlace work[3]?), byte8 (shownPlace work[4]?), byte8 (shownPlace work[5]?)] := by
  simp only [workBytes, orElse_place]
  rfl

theorem farByte_eq (g : Group) : (if g.kind = .uni then (0x80 : Byte) else byte8 (g.farReq.mem * 16 + g.farReq.ord)) =
    byte8 (if g.kind = .uni then 0x80 else g.farReq.mem * 16 + g.farReq.ord) := by
  split <;> rfl

section
variable {prc : Prc} {gi : GroupIx}

theorem groupPart_defined {g : Group} (h : prc.groups[gi] = some g) : ∃ l, groupPart prc gi = l ++ [0, 0] ∧ l.length = 28 ∧
    wordsOf (l ++ [0, 0]) = groupWords g ++ [0] := by
  simp only [groupPart, h, List.getD_eq_getElem?_getD]
  refine ⟨_, rfl, ?_, ?_⟩
  · simp only [workBytes_eq]
    rfl
  · have hflags : ∀ k a b c d n : Nat, k * 64 + a * 2 ^ 5 + b * 2 ^ 4 + c * 2 ^ 3 + d * 2 ^ 2 + (n + 1) =
        k * 64 + (d + 2 * (c + 2 * (b + 2 * (a + 2 * 0)))) * 4 + n + 1 := fun _ _ _ _ _ _ => by ring
    have hconds : ∀ a b c d : Nat, a * 2 ^ 0 + b * 2 ^ 1 + c * 2 ^ 2 + d * 2 ^ 3 = a + 2 * (b + 2 * (c + 2 * (d + 2 * 0))) :=
      fun _ _ _ _ => by ring
    simp only [groupWords, workBytes_eq, farByte_eq, flagAt_eq, confirmCode_eq, groupKindCode_eq, sideCode_eq, shownMember_eq,
      wtrLeft_eq, shownBits_eq, bitsNat, hflags, hconds, List.append_assoc, List.cons_append, List.nil_append, wordsOf_byte8,
      wordsOf_bytes16]
    rfl

theorem groupPart_undefined (h : prc.groups[gi] = none) : groupPart prc gi =
    [0, 0, 0xFF, 0xFF, 0xFF, 0xFF, 0xFF, 0xFF, 0, 0, 0, 0, 0, 0, 0, 0x80, 0, 0, 0, 0, 0, 0, 0xFF, 0xFF, 0, 0, 0, 0, 0, 0] := by
  simp only [groupPart, h, workBytes_eq]
  rfl

end

theorem groupPart_length (prc : Prc) (gi : GroupIx) : (groupPart prc gi).length = 30 := by
  cases h : prc.groups[gi] with
  | none => rw [groupPart_undefined h]; rfl
  | some g =>
    obtain ⟨l, hl, hlen, -⟩ := groupPart_defined h
    rw [hl, List.length_append, hlen]
    rfl

section
variable {s : State} (gi : GroupIx) (hready : s.start.ready = true)
include hready

theorem groupPart_shown : spmWord s (0x1B00 + 32 * gi.val) = s.gens.groups[gi] ∧
    WordsShown s (0x1B00 + 32 * gi.val + 2) (wordsOf (groupPart s.prc gi)) := by
  have hlen := groupPart_length s.prc gi
  have hgi := gi.isLt
  have hshown := (group_shown s gi hlen).words hready (by
    rw [List.length_append, hlen, bytes16_length]
    omega)
  rw [wordsOf_bytes16] at hshown
  obtain ⟨hgen, hrest⟩ := wordsShown_cons.1 hshown
  exact ⟨hgen.trans (BitVec.ofNat_toNat _ _), hrest⟩

/-- R95: what the host reads of a group. -/
theorem groupFields_shown :
    let base := 0x1B00 + 32 * gi.val
    spmWord s base = s.gens.groups[gi] ∧
    (s.prc.groups[gi] = none →
      (shownByte s (base + 2)).extractLsb' 0 2 = 0 ∧ WordsShown s (base + 4) [0xFFFF, 0xFFFF, 0xFFFF] ∧
      spmWord s (base + 24) = 0xFFFF ∧ spmWord s (base + 26) = 0) ∧
    ∀ g, s.prc.groups[gi] = some g → WordsShown s (base + 2) (groupWords g) := by
  intro base
  have hlow := gi.isLt
  obtain ⟨hgen, hwords⟩ := groupPart_shown gi hready
  refine ⟨hgen, fun hnone => ?_, fun g hg => ?_⟩
  · have hbytes := (group_shown s gi (groupPart_length s.prc gi)).append.2
    rw [groupPart_undefined hnone] at hwords hbytes
    have hfirst : shownByte s (base + 2) = 0 := hbytes.byte hready (i := 0) rfl (by rw [bytes16_length]; omega)
    refine ⟨by rw [hfirst]; rfl, fun k w hk => ?_, hwords 11 _ rfl, hwords 12 _ rfl⟩
    match k, hk with
    | 0, hk => exact hwords 1 w hk
    | 1, hk => exact hwords 2 w hk
    | 2, hk => exact hwords 3 w hk
  · obtain ⟨l, hl, -, heq⟩ := groupPart_defined hg
    rw [hl, heq] at hwords
    exact (wordsShown_append.1 hwords).1

end

end Sys2Proof.Proofs
end

