-- ==== Sys2Proof/Proofs/TimingWords.lean ====
section
/-! The words of the timing mirror (sections 10.5, R109, R123). -/

namespace Sys2Proof.Proofs

open Sys2Proof.Machine Sys2Proof.Safety Sys2Proof.Laws

/-! ### The shelf part -/

theorem timingStateCode_eq (x : TimingState) : x.code = [TimingState.freeRun, .acquiring, .locked, .holdover].idxOf x := by
  cases x <;> rfl

/-- The words of the shelf part of the timing mirror, but for its generation word and the history. -/
def timingWords (t : Tsel) (c : ShelfRec) : List Word :=
  [twoBytes (t.warmUp.isSome.toNat * 128 + t.unlimited * 32 + shownBits [c.quality, t.aged, t.limited] * 4 +
      [TimingState.freeRun, .acquiring, .locked, .holdover].idxOf t.state) (shownPlace t.selected),
    twoBytes (shownPlace t.force) (shownBits ((List.finRange 6).map (fun r : RefIx => t.lockout[r]) ++ [t.holdover, t.freeRun])),
    BitVec.ofNat 16 c.slew, BitVec.ofInt 16 c.trim, twoBytes c.holdLimit (c.freeClass * 16 + c.holdClass)] ++
  shownValue (some t.steering) ++ shownValue t.target ++ shownValue (if t.state = .holdover then t.holdValue else none) ++
  words32 (BitVec.ofNat 32 (if t.state = .holdover then min (t.age / 4000) 259200 else 0)) ++
  [twoBytes t.outClass t.history.length, twoBytes (shownPlace t.doNotUse[0]?) (shownPlace t.doNotUse[1]?)]

/-- The bytes of the shelf part before the history. -/
def timingHead (t : Tsel) (c : ShelfRec) : List Byte :=
  [byte8 (flagAt 7 t.warmUp.isSome + t.unlimited * 32 + flagAt 4 t.limited + flagAt 3 t.aged + flagAt 2 c.quality +
    t.state.code), orElse (t.selected.map (·.val)) 0xFF, orElse (t.force.map (·.val)) 0xFF,
    byte8 (flagAt 7 t.freeRun + flagAt 6 t.holdover + bitsNat (allRefs.map fun r => t.lockout[r]))] ++
  bytes16 c.slew ++ bytes16 (twos 16 c.trim) ++ [byte8 c.holdLimit, byte8 (c.freeClass * 16 + c.holdClass)] ++
  bytes32 (twos 32 t.steering) ++ value32 t.target ++
  value32 (if t.state = .holdover then t.holdValue else none) ++ bytes32 t.ageSeconds ++
  [byte8 t.outClass, byte8 t.history.length, orElse (t.doNotUse[0]?.map (·.val)) 0xFF,
    orElse (t.doNotUse[1]?.map (·.val)) 0xFF]

/-- The bytes of the history. -/
def historyBytes (t : Tsel) : List Byte := (List.range 16).flatMap fun k => bytes32 (twos 32 (t.history.getD k 0))

theorem timingPart_eq (t : Tsel) (c : ShelfRec) : timingPart t c = timingHead t c ++ historyBytes t := rfl

theorem timingHead_length (t : Tsel) (c : ShelfRec) : (timingHead t c).length = 30 := by
  simp only [timingHead, List.length_append, value32_length]
  rfl

theorem flatMap_length_const {α : Type} {f : α → List Byte} {n : Nat} (hn : ∀ x, (f x).length = n) (l : List α) :
    (l.flatMap f).length = n * l.length := by
  rw [List.length_flatMap, List.map_congr_left (g := fun _ => n) fun x _ => hn x, List.map_const', List.sum_replicate,
    smul_eq_mul, Nat.mul_comm]

theorem historyBytes_length (t : Tsel) : (historyBytes t).length = 64 :=
  (flatMap_length_const (n := 4) (fun _ => rfl) _).trans rfl

theorem wordsOf_timingHead (t : Tsel) (c : ShelfRec) : wordsOf (timingHead t c) = timingWords t c := by
  have hflags : ∀ w u l a q n : Nat, w * 2 ^ 7 + u * 32 + l * 2 ^ 4 + a * 2 ^ 3 + q * 2 ^ 2 + n =
      w * 128 + u * 32 + (q + 2 * (a + 2 * (l + 2 * 0))) * 4 + n := fun _ _ _ _ _ _ => by ring
  have hconds : flagAt 7 t.freeRun + flagAt 6 t.holdover + bitsNat (allRefs.map fun r => t.lockout[r]) =
      bitsNat ((List.finRange 6).map (fun r : RefIx => t.lockout[r]) ++ [t.holdover, t.freeRun]) := by
    rw [bitsNat_append, List.length_map, List.length_finRange, flagAt_eq, flagAt_eq]
    simp only [bitsNat, allRefs]
    ring
  rw [timingWords, shownBits_eq ((List.finRange 6).map _ ++ _), ← hconds]
  simp only [timingHead, orElse_place, flagAt_eq, timingStateCode_eq, shownBits_eq, bitsNat, hflags, List.append_assoc,
    List.cons_append, List.nil_append, wordsOf_byte8, wordsOf_bytes16, wordsOf_bytes32, wordsOf_value32, ofNat_twos, wordsOf_nil]
  rfl

/-! ### The references -/

theorem refStateCode_eq (x : RefState) :
    x.code = [RefState.disabled, .unavailable, .measuring, .qualified, .offsetOut].idxOf x := by cases x <;> rfl

theorem bindKindCode_eq (x : BindKind) : x.code = [BindKind.none, .port, .group].idxOf x := by cases x <;> rfl

/-- The number of a cause, 0 where it is absent. -/
def shownCause (x : Option Cause) : Nat := match x with
  | none => 0 | some .noActivity => 1 | some .noTap => 2 | some .portFail => 3 | some .held => 4 | some .noClass => 5

theorem causeCode_eq (x : Option Cause) : causeCode x = shownCause x := by
  cases x with
  | none => rfl
  | some c => cases c <;> rfl

/-- The words of a reference part, but for its generation word and the last three. -/
def refWords (x : RefRec) : List Word :=
  [twoBytes ([RefState.disabled, .unavailable, .measuring, .qualified, .offsetOut].idxOf x.state * 32 +
      shownBits [x.entry.enable, x.entry.fromTag, x.active, x.refLos, x.refOffset]) (x.entry.fixedCls * 16 + x.entry.priority),
    twoBytes (shownMember x.cls * 16 + shownCause x.cause) x.run,
    twoBytes ([BindKind.none, .port, .group].idxOf x.entry.bindKind) x.entry.bindNum, twoBytes (shownPlace x.tap) x.entry.stab,
    BitVec.ofNat 16 x.entry.accept, BitVec.ofNat 16 x.entry.hyst] ++ shownValue x.last

theorem refPart_length (x : RefRec) : (refPart x).length = 22 := by
  simp only [refPart, List.length_append, value32_length]
  rfl

theorem wordsOf_refPart (x : RefRec) : wordsOf (refPart x) = refWords x ++ [0, 0, 0] := by
  have hflags : ∀ n o l a f e : Nat, n * 32 + o * 2 ^ 4 + l * 2 ^ 3 + a * 2 ^ 2 + f * 2 ^ 1 + e * 2 ^ 0 =
      n * 32 + (e + 2 * (f + 2 * (a + 2 * (l + 2 * (o + 2 * 0))))) := fun _ _ _ _ _ _ => by ring
  simp only [refPart, refWords, orElse_place, flagAt_eq, refStateCode_eq, bindKindCode_eq, shownMember_eq, causeCode_eq,
    shownBits_eq, bitsNat, hflags, List.append_assoc, List.cons_append, List.nil_append, wordsOf_byte8, wordsOf_bytes16,
    wordsOf_value32]
  rfl

/-! ### The mirror -/

theorem refBytes_length (s : State) (r : RefIx) : (bytes16 s.gens.refs[r].toNat ++ refPart s.tsel.refs[r]).length = 24 := by
  rw [List.length_append, refPart_length]
  rfl

theorem timingBytes_length (s : State) : (timingBytes s).length = 240 := by
  rw [timingBytes, List.length_append, List.length_append, timingPart_eq, List.length_append, timingHead_length,
    historyBytes_length, flatMap_length_const (refBytes_length s)]
  rfl

section
variable {s : State} (hready : s.start.ready = true)
include hready

/-- R123: what the host reads of the timing state. -/
theorem timingFields_shown :
    WordsShown s 0x1D00 (s.gens.timing :: timingWords s.tsel s.rqu.shelf) ∧
    (∀ k v, k < 16 → s.tsel.history[k]? = some v → WordsShown s (0x1D20 + 4 * k) (shownValue (some v))) ∧
    WordsShown s 0x1DF0 (List.replicate 8 0) := by
  have hall := timing_shown s (by rw [timingBytes_length]; omega)
  have hlen := timingBytes_length s
  rw [timingBytes, timingPart_eq] at hall
  obtain ⟨hshelf, -⟩ := hall.append
  rw [← List.append_assoc] at hshelf
  obtain ⟨hhead, hhist⟩ := hshelf.append
  rw [List.length_append, timingHead_length] at hhist
  refine ⟨?_, fun k v hk hv => ?_, fun k w hk => ?_⟩
  · have hwords := hhead.words hready (by rw [List.length_append, timingHead_length, bytes16_length]; omega)
    rw [wordsOf_bytes16, wordsOf_timingHead, BitVec.ofNat_toNat] at hwords
    exact hwords
  · have hat : (List.range 16)[k]? = some k := List.getElem?_range hk
    have hbytes := BytesShown.flatMap (n := 4) (fun _ => rfl) hhist hat
    have hwords := hbytes.words hready (by rw [bytes32_length, bytes16_length]; omega)
    rw [← List.append_nil (bytes32 _), wordsOf_bytes32, ofNat_twos, List.getD_eq_getElem?_getD, hv] at hwords
    exact hwords
  · rw [List.getElem?_replicate] at hk
    obtain ⟨hk, hw⟩ := Option.ite_none_right_eq_some.1 hk
    cases hw
    have hzero : ∀ i, i < 16 → regionByte s (0x1DF0 + i) = 0 := fun i hi => by
      have hr : regionOf (0x1DF0 + i) = .timing := by
        unfold regionOf
        iterate 5 rw [if_neg (by omega)]
        rw [if_pos (by omega)]
      simp only [regionByte, hr]
      exact List.getD_eq_default _ _ (by omega)
    rw [spmWord_region hready (by omega), hzero _ (by omega), Nat.add_assoc, hzero _ (by omega)]
    rfl

/-- R109: what the host reads of a reference. -/
theorem refFields_shown (r : RefIx) :
    WordsShown s (0x1D60 + 24 * r.val) (s.gens.refs[r] :: (refWords s.tsel.refs[r] ++ [0, 0, 0])) := by
  have hr := r.isLt
  have hall := timing_shown s (by rw [timingBytes_length]; omega)
  rw [timingBytes] at hall
  obtain ⟨-, hrefs⟩ := hall.append
  have hat : allRefs[r.val]? = some r := by
    rw [allRefs, List.getElem?_eq_getElem (by rw [List.length_finRange]; exact hr), List.getElem_finRange]
    rfl
  have hbytes := BytesShown.flatMap (refBytes_length s) hrefs hat
  have hwords := hbytes.words hready (by
    rw [refBytes_length, List.length_append, timingPart_eq, List.length_append, timingHead_length, historyBytes_length,
      bytes16_length]
    omega)
  rw [wordsOf_bytes16, wordsOf_refPart, BitVec.ofNat_toNat, List.length_append, timingPart_eq, List.length_append,
    timingHead_length, historyBytes_length] at hwords
  exact hwords

end

end Sys2Proof.Proofs
end

