-- ==== Sys2Proof/Proofs/OrderWords.lean ====
section
/-! The words of the work orders and of the shelf header (sections 10.5, R59). -/

namespace Sys2Proof.Proofs

open Sys2Proof.Machine Sys2Proof.Safety Sys2Proof.Laws

/-! ### Work orders -/

/-- The number of a reason. -/
def shownReason (r : Option Reason) : Nat := match r with | some .frame => 1 | some .expired => 2 | _ => 0

theorem reasonCode_eq (r : Option Reason) : reasonCode r = shownReason r := by
  cases r with
  | none => rfl
  | some x => cases x <;> rfl

/-- The state and reason code of a work order. -/
def shownOrderCode (st : OrderState) (r : Option Reason) : Nat := match st with
  | .opened => 1 | .verifying => 2 + shownReason r | .closedGood => 5 + shownReason r | .closedFault => 8 + shownReason r
  | .cancelled => 11 + shownReason r

theorem orderCode_eq (st : OrderState) (r : Option Reason) : orderCode (some st) r = shownOrderCode st r := by
  cases st <;> simp only [orderCode, shownOrderCode, reasonCode_eq]

/-- The frame section's number, 15 where it is absent. -/
def shownSection (x : Option (Fin 8)) : Nat := match x with | some f => f.val | none => 15

theorem section_eq (x : Option (Fin 8)) : (x.map (·.val)).getD 15 = shownSection x := by cases x <;> rfl

/-- The seconds left on an order's timer, 0x7FFF where none runs. -/
def shownLeft (x : Option Nat) : Nat := match x with | some n => (n + 3999) / 4000 | none => 0x7FFF

theorem left_eq (x : Option Nat) : (x.map secondsUp).getD 0x7FFF = shownLeft x := by cases x <;> rfl

theorem outcomeCode_eq (x : ItemOutcome) : x.code = [ItemOutcome.pending, .ok, .failed].idxOf x := by cases x <;> rfl

/-- The byte of an expectation's port and kind. -/
def expectCode (e : Expectation) : Nat := e.port.toNat % 64 * 4 + [ExpKind.any, .tag, .dark].idxOf e.kind

/-- The bytes of a place of an order's item list. -/
def placeBytes (items : List Item) (k : Nat) : List Byte :=
  match items[k]? with | some x => itemBytes x | none => [0xC0, 0, 0, 0, 3, 0, 0]

theorem placeBytes_length (items : List Item) (k : Nat) : (placeBytes items k).length = 7 := by
  unfold placeBytes
  split <;> rfl

/-- The words of an order's entry before its items. -/
def orderWords (o : Order) : List Word :=
  let left := o.window * 32768 + shownLeft o.timer
  [BitVec.ofNat 16 o.number, twoBytes (shownSection o.frameSection * 16 + shownOrderCode o.state o.reason) (left / 65536),
    BitVec.ofNat 16 left]

theorem orderPart_some (o : Order) : ∃ head, orderPart (some o) = head ++ (List.range 8).flatMap (placeBytes o.items) ∧
    head.length = 6 ∧ wordsOf head = orderWords o := by
  refine ⟨_, rfl, rfl, ?_⟩
  simp only [orderLeft, orderWords, Option.map_some, Option.getD_some, Option.bind_some, section_eq, left_eq, orderCode_eq,
    List.append_assoc, List.cons_append, List.nil_append, wordsOf_byte8, wordsOf_bytes16, wordsOf_word]

theorem orderPart_none : orderPart none = [0, 0, 0xF0, 0, 0x7F, 0xFF] ++ (List.range 8).flatMap (placeBytes []) := rfl

theorem orderPart_length (o : Option Order) : (orderPart o).length = 62 := by
  have hitems : ∀ items, ((List.range 8).flatMap (placeBytes items)).length = 56 := fun items =>
    (flatMap_length_const (placeBytes_length items) _).trans rfl
  cases o with
  | none => rfl
  | some o =>
    obtain ⟨head, heq, hlen, -⟩ := orderPart_some o
    rw [heq, List.length_append, hlen, hitems]

section
variable {s : State} (hready : s.start.ready = true)
include hready

theorem orderBytes_shown (i : OrderIx) : spmWord s (0x1E00 + 64 * i.val) = s.gens.orders[i] ∧
    BytesShown s (0x1E00 + 64 * i.val + 2) (orderPart s.cbc.orders[i]) := by
  have hi := i.isLt
  have hbytes := order_shown s i (orderPart_length _)
  have hwords := hbytes.words hready (by rw [List.length_append, orderPart_length, bytes16_length]; omega)
  rw [wordsOf_bytes16, BitVec.ofNat_toNat] at hwords
  exact ⟨hwords 0 _ rfl, hbytes.append.2⟩

/-- R59: what the host reads of a work order, but for its items. -/
theorem orderFields_shown (i : OrderIx) :
    let base := 0x1E00 + 64 * i.val
    (s.cbc.orders[i] = none → spmWord s (base + 2) = 0 ∧ (shownByte s (base + 4)).extractLsb' 0 4 = 0) ∧
    ∀ o, s.cbc.orders[i] = some o → WordsShown s (base + 2) (orderWords o) := by
  have hi := i.isLt
  obtain ⟨-, hbytes⟩ := orderBytes_shown hready i
  refine ⟨fun hnone => ?_, fun o ho => ?_⟩
  · rw [hnone, orderPart_none] at hbytes
    have hhead := hbytes.append.1
    have hwords := hhead.words hready (by
      change _ + 6 ≤ _
      omega)
    have hbyte := hhead.byte hready (i := 2) rfl (by omega)
    exact ⟨hwords 0 0 rfl, by rw [Nat.add_assoc] at hbyte; rw [hbyte]; rfl⟩
  · obtain ⟨head, heq, hlen, hwords⟩ := orderPart_some o
    rw [ho, heq] at hbytes
    rw [← hwords]
    exact hbytes.append.1.words hready (by rw [hlen]; omega)

/-- R59: what the host reads of an order's item. -/
theorem itemFields_shown (i : OrderIx) {o : Order} (ho : s.cbc.orders[i] = some o) {k : Nat} (hk : k < 8) :
    let place := 0x1E00 + 64 * i.val + 8 + 7 * k
    (o.items[k]? = none → (shownByte s place).extractLsb' 6 2 = 3) ∧
    ∀ x, o.items[k]? = some x →
      shownByte s place = BitVec.ofNat 8 ([ItemOutcome.pending, .ok, .failed].idxOf x.outcome * 64 + x.port.val) ∧
      shownByte s (place + 1) = BitVec.ofNat 8 (expectCode x.expect) ∧
      shownByte s (place + 2) ++ shownByte s (place + 3) = x.expect.shelf ∧
      (x.prev = none → (shownByte s (place + 4)).extractLsb' 0 2 = 3) ∧
      ∀ e, x.prev = some e →
        shownByte s (place + 4) = BitVec.ofNat 8 (expectCode e) ∧
        shownByte s (place + 5) ++ shownByte s (place + 6) = e.shelf := by
  have hi := i.isLt
  obtain ⟨-, hbytes⟩ := orderBytes_shown hready i
  obtain ⟨head, heq, hlen, -⟩ := orderPart_some o
  rw [ho, heq] at hbytes
  have hitem := hbytes.append.2.flatMap (placeBytes_length o.items) (List.getElem?_range hk)
  rw [hlen] at hitem
  have hbyte : ∀ {j : Nat} {b : Byte}, (placeBytes o.items k)[j]? = some b →
      shownByte s (0x1E00 + 64 * i.val + 8 + 7 * k + j) = b := by
    intro j b hj
    have hj' := (List.getElem?_eq_some_iff.1 hj).1
    rw [placeBytes_length] at hj'
    exact hitem.byte hready hj (by omega)
  have hshelf : ∀ w : Word, byte8 (w.toNat / 256) ++ byte8 w.toNat = w := fun w =>
    (wordOf_byte8 w.toNat).trans (BitVec.ofNat_toNat _ _)
  refine ⟨fun hnone => ?_, fun x hx => ?_⟩
  · simp only [placeBytes, hnone] at hbyte
    exact congrArg (BitVec.extractLsb' 6 2) (hbyte (j := 0) rfl)
  · simp only [placeBytes, hx] at hbyte
    refine ⟨?_, ?_, ?_, fun hprev => ?_, fun e hprev => ⟨?_, ?_⟩⟩
    · rw [← outcomeCode_eq]
      exact hbyte (j := 0) rfl
    · rw [expectCode, ← expKindCode_eq]
      exact hbyte (j := 1) rfl
    · rw [hbyte (j := 2) rfl, hbyte (j := 3) rfl]
      exact hshelf _
    · rw [hbyte (j := 4) rfl, hprev]
      rfl
    · rw [hbyte (j := 4) rfl, hprev, expectCode, ← expKindCode_eq]
      rfl
    · rw [hbyte (j := 5) rfl, hbyte (j := 6) rfl, hprev]
      exact hshelf _

end

/-! ### The shelf header -/

theorem levelCode_eq (x : Option Bool) : levelCode x = [none, some false, some true].idxOf x := by
  cases x with
  | none => rfl
  | some b => cases b <;> rfl

/-- The words of the shelf header's fields. -/
def headerWords (s : State) : List Word :=
  [twoBytes 0xA3 Config.revision.toNat, twoBytes s.straps.shid.toNat (shownBits [s.straps.pop64, s.straps.parallel]), 1,
    s.rqu.shelf.identity, BitVec.ofNat 16 (s.rqu.loaded.toNat * 0x8000), BitVec.ofNat 16 s.hpi.foreign,
    BitVec.ofNat 16 s.alm.overflows,
    BitVec.ofNat 16 (shownBits [s.alm.outputs.crit, s.alm.outputs.maj, s.alm.outputs.min, s.alm.outputs.audible,
      s.alm.overflow]),
    s.jrn.gen, BitVec.ofNat 16 s.jrn.newestPos, BitVec.ofNat 16 s.jrn.newestSeq, BitVec.ofNat 16 s.jrn.unrel,
    BitVec.ofNat 16 s.jrn.lost, BitVec.ofNat 16 s.jrn.badRel, BitVec.ofNat 16 (shownBits [s.jrn.stop, s.jrn.full]),
    BitVec.ofNat 16 ((List.finRange 8).map fun i : InputIx =>
      [none, some false, some true].idxOf s.ciu[i].stable * 4 ^ i.val).sum]

/-- The opened-at times of the header. -/
def openedBytes (s : State) : List Byte :=
  allOrders.flatMap fun i => bytes32 (((s.cbc.orders[i]).map (·.openedAt)).getD 0)

theorem openedBytes_length (s : State) : (openedBytes s).length = 64 :=
  (flatMap_length_const (n := 4) (fun _ => rfl) _).trans rfl

theorem identWord_eq : identWord = twoBytes 0xA3 Config.revision.toNat :=
  congrArg (wordOf 0xA3) (BitVec.ofNat_toNat 8 Config.revision).symm

/-- The bytes of the shelf header's fields. -/
def headerFields (s : State) : List Byte :=
  bytes16 identWord.toNat ++ [byte8 s.straps.shid.toNat, byte8 (flagAt 1 s.straps.parallel + flagAt 0 s.straps.pop64)] ++
  bytes16 s.start.ready.toNat ++ bytes16 s.rqu.shelf.identity.toNat ++ [byte8 (flagAt 7 s.rqu.loaded), 0] ++
  bytes16 s.hpi.foreign ++ bytes16 s.alm.overflows ++
  bytes16 (flagAt 0 s.alm.outputs.crit + flagAt 1 s.alm.outputs.maj + flagAt 2 s.alm.outputs.min +
    flagAt 3 s.alm.outputs.audible + flagAt 4 s.alm.overflow) ++
  bytes16 s.jrn.gen.toNat ++ bytes16 s.jrn.newestPos ++ bytes16 s.jrn.newestSeq ++ bytes16 s.jrn.unrel ++
  bytes16 s.jrn.lost ++ bytes16 s.jrn.badRel ++ bytes16 (flagAt 0 s.jrn.stop + flagAt 1 s.jrn.full) ++
  bytes16 (levelsWord s.ciu)

theorem headerBytes_eq (s : State) :
    headerBytes s = headerFields s ++ List.replicate (2 * 16) 0 ++ openedBytes s ++ List.replicate (2 * 64) 0 := rfl

theorem headerFields_length (s : State) : (headerFields s).length = 32 := by
  simp only [headerFields, List.length_append, bytes16_length, List.length_cons, List.length_nil]

theorem wordsOf_headerFields {s : State} (hready : s.start.ready = true) : wordsOf (headerFields s) = headerWords s := by
  have hloaded : ∀ (b : Bool) l, wordsOf (byte8 (flagAt 7 b) :: 0 :: l) = BitVec.ofNat 16 (b.toNat * 0x8000) :: wordsOf l :=
    fun b l => by cases b <;> rfl
  have hword : ∀ w : Word, BitVec.ofNat 16 w.toNat = w := fun w => BitVec.ofNat_toNat _ _
  have hstraps : ∀ a b : Bool, flagAt 1 b + flagAt 0 a = shownBits [a, b] := by decide
  have hlamps : ∀ a b c d e : Bool, shownBits [a, b] + flagAt 2 c + flagAt 3 d + flagAt 4 e =
      shownBits [a, b, c, d, e] := by decide
  have hmode : ∀ a b : Bool, flagAt 0 a + flagAt 1 b = shownBits [a, b] := by decide
  simp only [headerFields, headerWords, levelsWord, hready, levelCode_eq, List.append_assoc, List.cons_append,
    List.nil_append, hloaded, wordsOf_byte8, wordsOf_bytes16, wordsOf_word, hword, identWord_eq, hstraps, hlamps, hmode]
  rfl

section
variable {s : State} (hready : s.start.ready = true)
include hready

/-- Section 10.5: what the host reads of the shelf header. -/
theorem headerFields_shown : WordsShown s 0 (headerWords s) ∧ WordsShown s 0x20 (List.replicate 16 0) ∧
    (∀ i : OrderIx,
      WordsShown s (0x40 + 4 * i.val) (words32 (BitVec.ofNat 32 ((s.cbc.orders[i].map (·.openedAt)).getD 0)))) ∧
    WordsShown s 0x80 (List.replicate 64 0) := by
  have hlen := headerFields_length s
  have hall := header_shown s (by
    rw [headerBytes_eq, List.length_append, List.length_append, List.length_append, hlen, openedBytes_length,
      List.length_replicate, List.length_replicate])
  rw [headerBytes_eq] at hall
  obtain ⟨hall, hlast⟩ := hall.append
  obtain ⟨hall, hopened⟩ := hall.append
  obtain ⟨hhead, hzeros⟩ := hall.append
  rw [List.length_append, List.length_append, hlen, openedBytes_length, List.length_replicate] at hlast
  rw [List.length_append, hlen, List.length_replicate] at hopened
  rw [hlen] at hzeros
  refine ⟨?_, ?_, fun i => ?_, ?_⟩
  · rw [← wordsOf_headerFields hready]
    exact hhead.words hready (by rw [hlen]; omega)
  · rw [← wordsOf_zeros]
    exact hzeros.words hready (by rw [List.length_replicate]; omega)
  · have hi := i.isLt
    have hat : allOrders[i.val]? = some i := by
      rw [allOrders, List.getElem?_eq_getElem (by rw [List.length_finRange]; exact hi), List.getElem_finRange]
      rfl
    have hbytes := BytesShown.flatMap (n := 4) (fun _ => rfl) hopened hat
    have hwords := hbytes.words hready (by rw [bytes32_length]; omega)
    rw [← List.append_nil (bytes32 _), wordsOf_bytes32] at hwords
    exact hwords
  · rw [← wordsOf_zeros]
    exact hlast.words hready (by rw [List.length_replicate]; omega)

end

end Sys2Proof.Proofs
end

