-- ==== Sys2Proof/Proofs/AlarmAndJournalWords.lean ====
section
/-! The words of the alarm table and of the journal (sections 10.5, R131, R148). -/

namespace Sys2Proof.Proofs

open Sys2Proof.Machine Sys2Proof.Safety Sys2Proof.Laws

/-! ### The alarm table -/

/-- Section 10.5: the kind of the object that a condition type is about. -/
def shownKind (t : CondType) : Nat := let n := t.index.val
  if n < 9 then 0 else if n < 11 then 1 else if n < 16 then 2 else if n < 18 then 3 else if n < 21 then 4
  else if n < 23 then 5 else 6

theorem objectKind_eq (t : CondType) : t.objectKind = shownKind t := by cases t <;> rfl

/-- The number of a severity. -/
def shownSeverity (x : Severity) : Nat := [Severity.crit, .maj, .min, .event, .off].idxOf x + 1

theorem severityCode_eq (x : Severity) : x.code = shownSeverity x := by cases x <;> rfl

/-- The number of an alarm state. -/
def alarmStateCode (x : AlarmState) : Nat := match x with | .pending _ => 1 | .active => 2 | .clearing _ => 3

/-- The words of an alarm entry in use, but for its generation word and the last one. -/
def alarmWords (x : Alarm) : List Word :=
  [twoBytes (x.activeTime.isSome.toNat * 128 + alarmStateCode x.state * 16 + shownKind x.type) x.obj,
    twoBytes x.type.index.val (shownSeverity x.severity + shownBits [x.ack, x.nsa, x.audible] * 4)] ++
  words32 (BitVec.ofNat 32 x.raiseTime) ++ words32 (BitVec.ofNat 32 (shownMember x.activeTime))

/-- The bytes of an alarm entry after its generation word. -/
def alarmRest (x : Option Alarm) : List Byte :=
  match x with
  | none => List.replicate 14 0
  | some x =>
    let st := match x.state with | .pending _ => 1 | .active => 2 | .clearing _ => 3
    [byte8 (flagAt 7 x.activeTime.isSome + st * 16 + x.type.objectKind), byte8 x.obj, byte8 x.type.index.val,
      byte8 (flagAt 4 x.audible + flagAt 3 x.nsa + flagAt 2 x.ack + x.severity.code)] ++ bytes32 x.raiseTime ++
    bytes32 (x.activeTime.getD 0) ++ [0, 0]

theorem alarmBytes_eq (e : Entry) : alarmBytes e = bytes16 e.gen.toNat ++ alarmRest e.alarm := rfl

theorem alarmRest_length (x : Option Alarm) : (alarmRest x).length = 14 := by cases x <;> rfl

theorem wordsOf_alarmRest (x : Alarm) : wordsOf (alarmRest (some x)) = alarmWords x ++ [0] := by
  have hflags : ∀ u n a v : Nat, u * 2 ^ 4 + n * 2 ^ 3 + a * 2 ^ 2 + v = v + (a + 2 * (n + 2 * (u + 2 * 0))) * 4 :=
    fun _ _ _ _ => by ring
  have hfirst : ∀ t a k : Nat, t * 2 ^ 7 + a * 16 + k = t * 128 + a * 16 + k := fun _ _ _ => by ring
  simp only [alarmRest, alarmWords, flagAt_eq, objectKind_eq, severityCode_eq, shownMember_eq, shownBits_eq, bitsNat,
    hflags, hfirst, List.append_assoc, List.cons_append, List.nil_append, wordsOf_byte8, wordsOf_bytes32]
  rfl

section
variable {s : State} (hready : s.start.ready = true)
include hready

theorem alarmRest_shown (i : EntryIx) : spmWord s (0x2200 + 16 * i.val) = s.alm.entries[i].gen ∧
    WordsShown s (0x2200 + 16 * i.val + 2) (wordsOf (alarmRest s.alm.entries[i].alarm)) := by
  have hi := i.isLt
  have hlen : (alarmBytes s.alm.entries[i]).length = 16 := by
    rw [alarmBytes_eq, List.length_append, alarmRest_length]
    rfl
  have hwords := (alarm_shown s i hlen.le).words hready (by omega)
  rw [alarmBytes_eq, wordsOf_bytes16, BitVec.ofNat_toNat] at hwords
  exact wordsShown_cons.1 hwords

/-- R131: what the host reads of an alarm entry. -/
theorem alarmFields_shown (i : EntryIx) :
    let base := 0x2200 + 16 * i.val
    spmWord s base = s.alm.entries[i].gen ∧
    (s.alm.entries[i].alarm = none → WordsShown s (base + 2) (List.replicate 7 0)) ∧
    ∀ x, s.alm.entries[i].alarm = some x → WordsShown s (base + 2) (alarmWords x) := by
  obtain ⟨hgen, hwords⟩ := alarmRest_shown hready i
  refine ⟨hgen, fun hnone => ?_, fun x hx => ?_⟩
  · rw [hnone] at hwords
    exact hwords
  · rw [hx, wordsOf_alarmRest] at hwords
    exact (wordsShown_append.1 hwords).1

end

/-! ### The journal -/

/-- A number, 0xFF where it is absent. -/
def numberOrFF (x : Option Nat) : Nat := match x with | some v => v | none => 0xFF

/-- A reference's number, 7 where it is absent. -/
def refOrSeven (x : Option RefIx) : Nat := match x with | some v => v.val | none => 7

/-- A signed number as three bytes. -/
def threeBytes (x : Int) : List Nat :=
  let v := (BitVec.ofInt 24 x).toNat
  [v / 65536, v / 256, v]

/-- A body's object kind, object index, record type and code numbers. -/
def bodyCodes : JBody → Nat × Nat × Nat × List Nat
  | .alarmOn e t o sv nsa => (shownKind t, o, 1, [e, t.index.val, shownSeverity sv, nsa.toNat])
  | .alarmOff e t o sv why => (shownKind t, o, 2, [e, t.index.val, shownSeverity sv,
      [OffReason.cleared, .suppressed, .profile, .dropped].idxOf why])
  | .severity e t o a z nsa => (shownKind t, o, 3, [e, t.index.val, shownSeverity a, shownSeverity z, nsa.toNat])
  | .event t o none => (shownKind t, o, 4, [t.index.val])
  | .event t o (some (a, z)) => (shownKind t, o, 4, [t.index.val, numberOrFF a, numberOrFF z])
  | .switch g a z a' z' w sd =>
    (2, g.val, 5, [a, z, a', z', w.ord, w.mem, [Side.localEnd, .farEnd, .both].idxOf sd])
  | .timing st a z u h aged =>
    (4, 0, 6, [[TimingState.freeRun, .acquiring, .locked, .holdover].idxOf st * 64 + refOrSeven z * 8 + refOrSeven a,
      aged.toNat] ++ threeBytes u ++ threeBytes (match h with | some v => v | none => 0))
  | .work i k st why f =>
    (5, i.val, 7, [k / 256, k, match st with | some x => shownOrderCode x why | none => 0, f])
  | .contact i act role f => (6, i.val, 8, [act.toNat, [ContactRole.none, .aco, .frame, .generic].idxOf role, f])
  | .restart c => (4, 0, 9, [[RestartCode.cold, .warm, .mode].idxOf c])
  | .lost k => (4, 0, 10, [k / 256, k])
  | .manualDropped g m w => (2, g.val, 11, [m, w.ord, w.mem])

theorem numberOrFF_eq (x : Option Nat) : orElse x 0xFF = byte8 (numberOrFF x) := by cases x <;> rfl

theorem refOrSeven_eq (x : Option RefIx) : (x.map (·.val)).getD 7 = refOrSeven x := by cases x <;> rfl

theorem threeBytes_eq (x : Int) : threeBytes x = [twos 24 x / 65536, twos 24 x / 256, twos 24 x] := by
  have hnum : (BitVec.ofInt 24 x).toNat = twos 24 x := by
    rw [BitVec.toNat_ofInt, twos]
  rw [threeBytes, hnum]

theorem contactRoleCode_eq (x : ContactRole) : x.code = [ContactRole.none, .aco, .frame, .generic].idxOf x := by
  cases x <;> rfl

theorem bodyBytes_eq (b : JBody) : bodyBytes b =
    ((bodyCodes b).1, (bodyCodes b).2.1, (bodyCodes b).2.2.1, (bodyCodes b).2.2.2.map byte8) := by
  cases b with
  | alarmOn e t o sv nsa => simp only [bodyBytes, bodyCodes, objectKind_eq, severityCode_eq, List.map_cons, List.map_nil]
  | alarmOff e t o sv why =>
    simp only [bodyBytes, bodyCodes, objectKind_eq, severityCode_eq, List.map_cons, List.map_nil]
    cases why <;> rfl
  | severity e t o a z nsa => simp only [bodyBytes, bodyCodes, objectKind_eq, severityCode_eq, List.map_cons, List.map_nil]
  | event t o data =>
    cases data with
    | none => simp only [bodyBytes, bodyCodes, objectKind_eq, List.map_cons, List.map_nil]
    | some d => simp only [bodyBytes, bodyCodes, objectKind_eq, numberOrFF_eq, List.map_cons, List.map_nil]
  | switch g a z a' z' w sd => simp only [bodyBytes, bodyCodes, sideCode_eq, List.map_cons, List.map_nil]
  | timing st a z u h aged =>
    simp only [bodyBytes, bodyCodes, timingStateCode_eq, refOrSeven_eq, threeBytes_eq, List.map_cons, List.map_nil,
      List.map_append]
    cases h <;> rfl
  | work i k st why f =>
    cases st with
    | none => rfl
    | some x => simp only [bodyBytes, bodyCodes, orderCode_eq]; rfl
  | contact i act role f => simp only [bodyBytes, bodyCodes, contactRoleCode_eq, List.map_cons, List.map_nil]
  | restart c => cases c <;> rfl
  | lost k => rfl
  | manualDropped g m w => rfl

/-- What the host reads of a record of the given kind, object, type and codes. -/
def RecordShown (s : State) (n : Fin 256) (kind obj type : Nat) (codes : List Nat) : Prop :=
  let base := 0x2A00 + 16 * n.val
  let r := s.jrn.ring[n]
  WordsShown s base [BitVec.ofNat 16 r.seq, twoBytes (kind * 32 + type) obj] ∧
  WordsShown s (base + 12) (words32 (BitVec.ofNat 32 r.time)) ∧
  ∀ k, k < 8 → shownByte s (base + 4 + k) = BitVec.ofNat 8 (shownMember codes[k]?)

/-- The code bytes of a record. -/
def codeBytes (codes : List Nat) : List Byte := (codes.map byte8 ++ List.replicate 8 0).take 8

theorem codeBytes_length (codes : List Nat) : (codeBytes codes).length = 8 := by
  rw [codeBytes, List.length_take, List.length_append, List.length_replicate]
  omega

theorem codeBytes_getElem? {codes : List Nat} {k : Nat} (hk : k < 8) :
    (codeBytes codes)[k]? = some (BitVec.ofNat 8 (shownMember codes[k]?)) := by
  rw [codeBytes, List.getElem?_take, if_pos hk]
  by_cases hin : k < codes.length
  · rw [List.getElem?_append_left (by rwa [List.length_map]), List.getElem?_map, List.getElem?_eq_getElem hin]
    rfl
  · rw [List.getElem?_append_right (by rw [List.length_map]; omega), List.getElem?_replicate,
      if_pos (by rw [List.length_map]; omega),
      List.getElem?_eq_none (by omega)]
    rfl

section
variable {s : State} (hready : s.start.ready = true)
include hready

/-- R148: what the host reads of a journal record. -/
theorem recordFields_shown (n : Fin 256) : (s.jrn.ring[n].body = none → spmWord s (0x2A00 + 16 * n.val) = 0) ∧
    ∀ b, s.jrn.ring[n].body = some b →
      RecordShown s n (bodyCodes b).1 (bodyCodes b).2.1 (bodyCodes b).2.2.1 (bodyCodes b).2.2.2 := by
  have hn := n.isLt
  refine ⟨fun hnone => ?_, fun b hb => ?_⟩
  · have heq : recordBytes s.jrn.ring[n] = List.replicate (2 * 8) 0 := by
      rw [recordBytes, hnone]
    have hbytes := record_shown s n (by rw [heq, List.length_replicate])
    rw [heq] at hbytes
    have hwords := hbytes.words hready (by rw [List.length_replicate]; omega)
    exact hwords 0 0 rfl
  · have heq : recordBytes s.jrn.ring[n] = (bytes16 s.jrn.ring[n].seq ++
        [byte8 ((bodyCodes b).1 * 32 + (bodyCodes b).2.2.1), byte8 (bodyCodes b).2.1]) ++
        (codeBytes (bodyCodes b).2.2.2 ++ bytes32 s.jrn.ring[n].time) := by
      rw [recordBytes, hb]
      simp only [bodyBytes_eq, codeBytes, List.append_assoc]
    have hbytes := record_shown s n (by
      rw [heq, List.length_append, List.length_append, List.length_append, codeBytes_length]
      rfl)
    rw [heq] at hbytes
    obtain ⟨hhead, hrest⟩ := hbytes.append
    obtain ⟨hcodes, htime⟩ := hrest.append
    rw [codeBytes_length] at htime
    refine ⟨?_, ?_, fun k hk => ?_⟩
    · have hwords := hhead.words hready (by
        change _ + 4 ≤ _
        omega)
      rwa [wordsOf_bytes16, wordsOf_byte8] at hwords
    · have hwords := htime.words hready (by
        change _ + 4 + 8 + 4 ≤ _
        omega)
      rwa [← List.append_nil (bytes32 _), wordsOf_bytes32, wordsOf_nil, List.append_nil] at hwords
    · exact hcodes.byte hready (codeBytes_getElem? hk) (by
        change _ + 4 + k < _
        omega)

end

/-! ### Memory (R154) -/

theorem spmWord_memory {s : State} (hready : s.start.ready = true) {a : Nat} (heven : a % 2 = 0)
    (h : (0x100 ≤ a ∧ a < 0x1300) ∨ a = 0x3A00) : spmWord s a = memRead s.mem a ++ memRead s.mem (a + 1) := by
  rw [spmWord_region hready (by omega), memory_shown s (by omega), memory_shown s (by omega)]
  rfl

end Sys2Proof.Proofs
end

