-- ==== Sys2Proof/Proofs/GenerationWords.lean ====
section
/-! The generation words (R157): what an event of a block leaves of them, and that they move where their part changes. -/

namespace Sys2Proof.Proofs

open Sys2Proof.Machine Sys2Proof.Safety Sys2Proof.Laws

/-! ### What an event leaves of the generation words -/

/-- A generation word that moved by two, or stayed with its part unchanged. -/
def Stamp (before after : Word) (same : Prop) : Prop := after = before + 2 ∨ (after = before ∧ same)

theorem Stamp.mono {before after : Word} {p q : Prop} (h : Stamp before after p) (hpq : p → q) : Stamp before after q :=
  h.imp_right (And.imp_right hpq)

theorem stamp_ite {p : Prop} [Decidable p] (g : Word) : Stamp g (if p then g else genNext g) p := by
  by_cases h : p
  · rw [if_pos h]
    exact .inr ⟨rfl, h⟩
  · rw [if_neg h]
    exact .inl rfl

/-- The blocks' parts of a port's entry agree. -/
structure PortSame (s t : State) (p : Port) : Prop where
  pmon : pmonPart s p = pmonPart t p
  tcd  : tcdPart s p = tcdPart t p
  cbc  : cbcPart s p = cbcPart t p
  prc  : prcPart s p = prcPart t p
  tsel : tselPart s p = tselPart t p

/-- What an event leaves of the generation words. -/
structure Stamped (s t : State) : Prop where
  ready  : t.start.ready = s.start.ready
  ports  : ∀ p : Port, Stamp s.gens.ports[p] t.gens.ports[p] (PortSame s t p)
  groups : ∀ g : GroupIx, Stamp s.gens.groups[g] t.gens.groups[g] (groupPart s.prc g = groupPart t.prc g)
  orders : ∀ i : OrderIx, Stamp s.gens.orders[i] t.gens.orders[i]
    (orderPart s.cbc.orders[i] = orderPart t.cbc.orders[i] ∧
      s.cbc.orders[i].map (·.openedAt) = t.cbc.orders[i].map (·.openedAt))
  timing : Stamp s.gens.timing t.gens.timing (timingPart s.tsel s.rqu.shelf = timingPart t.tsel t.rqu.shelf)
  refs   : ∀ r : RefIx, Stamp s.gens.refs[r] t.gens.refs[r] (refPart s.tsel.refs[r] = refPart t.tsel.refs[r])
  jrn    : Stamp s.jrn.gen t.jrn.gen (s.jrn.headerPart = t.jrn.headerPart)
  alarms : ∀ i : EntryIx, t.alm.entries[i].gen = s.alm.entries[i].gen + 4 ∨
    Stamp s.alm.entries[i].gen t.alm.entries[i].gen (s.alm.entries[i].alarm = t.alm.entries[i].alarm)

section
variable {s t : State}

theorem pmonPart_congr (hstraps : t.straps = s.straps) (hpmon : t.pmon = s.pmon) (p : Port) : pmonPart s p = pmonPart t p := by
  have hpopulated : t.populated p = s.populated p := by rw [State.populated, State.populated, hstraps]
  simp only [pmonPart, pmonFlags, hpopulated, hpmon]

theorem tcdPart_congr (htcd : t.tcd = s.tcd) (p : Port) : tcdPart s p = tcdPart t p := by simp only [tcdPart, htcd]

theorem cbcPart_congr (hcbc : t.cbc = s.cbc) (p : Port) : cbcPart s p = cbcPart t p := by simp only [cbcPart, hcbc]

theorem prcPart_congr (hprc : t.prc = s.prc) (p : Port) : prcPart s p = prcPart t p := by simp only [prcPart, hprc]

theorem tselPart_congr (htsel : t.tsel = s.tsel) (p : Port) : tselPart s p = tselPart t p := by simp only [tselPart, htsel]

theorem portsKept (hgens : t.gens.ports = s.gens.ports) (hstraps : t.straps = s.straps) (hpmon : t.pmon = s.pmon)
    (htcd : t.tcd = s.tcd) (hcbc : t.cbc = s.cbc) (hprc : t.prc = s.prc) (htsel : t.tsel = s.tsel) (p : Port) :
    Stamp s.gens.ports[p] t.gens.ports[p] (PortSame s t p) :=
  .inr ⟨by rw [hgens], pmonPart_congr hstraps hpmon p, tcdPart_congr htcd p, cbcPart_congr hcbc p, prcPart_congr hprc p,
    tselPart_congr htsel p⟩

theorem groupsKept (hgens : t.gens.groups = s.gens.groups) (hprc : t.prc = s.prc) (g : GroupIx) :
    Stamp s.gens.groups[g] t.gens.groups[g] (groupPart s.prc g = groupPart t.prc g) :=
  .inr ⟨by rw [hgens], by rw [hprc]⟩

theorem ordersKept (hgens : t.gens.orders = s.gens.orders) (hcbc : t.cbc = s.cbc) (i : OrderIx) :
    Stamp s.gens.orders[i] t.gens.orders[i] (orderPart s.cbc.orders[i] = orderPart t.cbc.orders[i] ∧
      s.cbc.orders[i].map (·.openedAt) = t.cbc.orders[i].map (·.openedAt)) :=
  .inr ⟨by rw [hgens], by rw [hcbc], by rw [hcbc]⟩

theorem timingKept (hgens : t.gens.timing = s.gens.timing) (htsel : t.tsel = s.tsel) (hrqu : t.rqu = s.rqu) :
    Stamp s.gens.timing t.gens.timing (timingPart s.tsel s.rqu.shelf = timingPart t.tsel t.rqu.shelf) :=
  .inr ⟨hgens, by rw [htsel, hrqu]⟩

theorem refsKept (hgens : t.gens.refs = s.gens.refs) (htsel : t.tsel = s.tsel) (r : RefIx) :
    Stamp s.gens.refs[r] t.gens.refs[r] (refPart s.tsel.refs[r] = refPart t.tsel.refs[r]) :=
  .inr ⟨by rw [hgens], by rw [htsel]⟩

theorem jrnKept (hjrn : t.jrn = s.jrn) : Stamp s.jrn.gen t.jrn.gen (s.jrn.headerPart = t.jrn.headerPart) :=
  .inr ⟨by rw [hjrn], by rw [hjrn]⟩

theorem alarmsKept (halm : t.alm = s.alm) (i : EntryIx) : t.alm.entries[i].gen = s.alm.entries[i].gen + 4 ∨
    Stamp s.alm.entries[i].gen t.alm.entries[i].gen (s.alm.entries[i].alarm = t.alm.entries[i].alarm) :=
  .inr (.inr ⟨by rw [halm], by rw [halm]⟩)

end

/-- The other parts, at an event of a block with a part in a port's entry. -/
theorem stamped_of {s t : State} (hframe : unchangedBut [.pmon, .tcd, .cbc, .prc, .tsel, .tsp, .gens] s t)
    (hports : ∀ p : Port, Stamp s.gens.ports[p] t.gens.ports[p] (PortSame s t p))
    (hgroups : ∀ g : GroupIx, Stamp s.gens.groups[g] t.gens.groups[g] (groupPart s.prc g = groupPart t.prc g))
    (horders : ∀ i : OrderIx, Stamp s.gens.orders[i] t.gens.orders[i]
      (orderPart s.cbc.orders[i] = orderPart t.cbc.orders[i] ∧
        s.cbc.orders[i].map (·.openedAt) = t.cbc.orders[i].map (·.openedAt)))
    (htiming : Stamp s.gens.timing t.gens.timing (timingPart s.tsel s.rqu.shelf = timingPart t.tsel t.rqu.shelf))
    (hrefs : ∀ r : RefIx, Stamp s.gens.refs[r] t.gens.refs[r] (refPart s.tsel.refs[r] = refPart t.tsel.refs[r])) :
    Stamped s t := by
  have hstart : t.start = s.start := hframe .start (by decide)
  exact ⟨by rw [hstart], hports, hgroups, horders, htiming, hrefs, jrnKept (hframe .jrn (by decide)),
    alarmsKept (hframe .alm (by decide))⟩

/-- An event that leaves every part in the memory map but the host port's. -/
theorem stamped_hpi (s : State) (hpi : Hpi) : Stamped s { s with hpi := hpi } where
  ready := rfl
  ports := portsKept rfl rfl rfl rfl rfl rfl rfl
  groups := groupsKept rfl rfl
  orders := ordersKept rfl rfl
  timing := timingKept rfl rfl rfl
  refs := refsKept rfl rfl
  jrn := jrnKept rfl
  alarms := alarmsKept rfl

/-! ### Ports, groups, orders and timing -/

section
variable (s : State)

theorem stampPorts_ports (part : State → Port → List Nat × List Byte) (t : State) (p : Port) :
    (stampPorts part s t).gens.ports[p] = if part s p = part t p then t.gens.ports[p] else genNext t.gens.ports[p] :=
  Vector.getElem_ofFn _

variable {s} in
/-- The port words after an event that may have changed one block's part. -/
theorem portsStamped {part : State → Port → List Nat × List Byte} {t u : State} (hkept : t.gens.ports = s.gens.ports)
    (hgens : u.gens.ports = (stampPorts part s t).gens.ports) {p : Port} (hsame : part s p = part t p → PortSame s u p) :
    Stamp s.gens.ports[p] u.gens.ports[p] (PortSame s u p) := by
  rw [hgens, stampPorts_ports, hkept]
  exact (stamp_ite _).mono hsame

theorem stampGroups_groups (t : State) (g : GroupIx) : (stampGroups s t).gens.groups[g] =
    if groupPart s.prc g = groupPart t.prc g then t.gens.groups[g] else genNext t.gens.groups[g] := Vector.getElem_ofFn _

theorem stampOrders_orders (t : State) (i : OrderIx) : (stampOrders s t).gens.orders[i] =
    if orderPart s.cbc.orders[i] = orderPart t.cbc.orders[i] ∧
        (s.cbc.orders[i]).map (·.openedAt) = (t.cbc.orders[i]).map (·.openedAt) then t.gens.orders[i]
    else genNext t.gens.orders[i] := Vector.getElem_ofFn _

theorem stampTiming_refs (old : ShelfRec) (t : State) (r : RefIx) : (stampTiming old s t).gens.refs[r] =
    if refPart s.tsel.refs[r] = refPart t.tsel.refs[r] then t.gens.refs[r] else genNext t.gens.refs[r] := Vector.getElem_ofFn _

theorem stampPorts_gens (part : State → Port → List Nat × List Byte) (t : State) :
    (stampPorts part s t).gens = { t.gens with ports := (stampPorts part s t).gens.ports } := rfl

theorem stampPorts_groups (part : State → Port → List Nat × List Byte) (t : State) :
    (stampPorts part s t).gens.groups = t.gens.groups := by rw [stampPorts_gens]

theorem stampPorts_orders (part : State → Port → List Nat × List Byte) (t : State) :
    (stampPorts part s t).gens.orders = t.gens.orders := by rw [stampPorts_gens]

theorem stampPorts_timing (part : State → Port → List Nat × List Byte) (t : State) :
    (stampPorts part s t).gens.timing = t.gens.timing := by rw [stampPorts_gens]

theorem stampPorts_refs (part : State → Port → List Nat × List Byte) (t : State) :
    (stampPorts part s t).gens.refs = t.gens.refs := by rw [stampPorts_gens]

theorem stampGroups_gens (t : State) : (stampGroups s t).gens = { t.gens with groups := (stampGroups s t).gens.groups } := rfl

theorem stampGroups_ports (t : State) : (stampGroups s t).gens.ports = t.gens.ports := by rw [stampGroups_gens]

theorem stampGroups_orders (t : State) : (stampGroups s t).gens.orders = t.gens.orders := by rw [stampGroups_gens]

theorem stampGroups_timing (t : State) : (stampGroups s t).gens.timing = t.gens.timing := by rw [stampGroups_gens]

theorem stampGroups_refs (t : State) : (stampGroups s t).gens.refs = t.gens.refs := by rw [stampGroups_gens]

theorem stampOrders_gens (t : State) : (stampOrders s t).gens = { t.gens with orders := (stampOrders s t).gens.orders } := rfl

theorem stampOrders_ports (t : State) : (stampOrders s t).gens.ports = t.gens.ports := by rw [stampOrders_gens]

theorem stampOrders_groups (t : State) : (stampOrders s t).gens.groups = t.gens.groups := by rw [stampOrders_gens]

theorem stampOrders_timing (t : State) : (stampOrders s t).gens.timing = t.gens.timing := by rw [stampOrders_gens]

theorem stampOrders_refs (t : State) : (stampOrders s t).gens.refs = t.gens.refs := by rw [stampOrders_gens]

theorem stampTiming_gens (old : ShelfRec) (t : State) : (stampTiming old s t).gens =
    { t.gens with timing := (stampTiming old s t).gens.timing, refs := (stampTiming old s t).gens.refs } := rfl

theorem stampTiming_ports (old : ShelfRec) (t : State) : (stampTiming old s t).gens.ports = t.gens.ports := by
  rw [stampTiming_gens]

theorem stampTiming_groups (old : ShelfRec) (t : State) : (stampTiming old s t).gens.groups = t.gens.groups := by
  rw [stampTiming_gens]

theorem stampTiming_orders (old : ShelfRec) (t : State) : (stampTiming old s t).gens.orders = t.gens.orders := by
  rw [stampTiming_gens]

section
variable {s} {t u : State}

theorem groupsStamped (hkept : t.gens.groups = s.gens.groups) (hgens : u.gens.groups = (stampGroups s t).gens.groups)
    (hprc : u.prc = t.prc) (g : GroupIx) :
    Stamp s.gens.groups[g] u.gens.groups[g] (groupPart s.prc g = groupPart u.prc g) := by
  rw [hgens, stampGroups_groups, hkept, hprc]
  exact stamp_ite _

theorem ordersStamped (hkept : t.gens.orders = s.gens.orders) (hgens : u.gens.orders = (stampOrders s t).gens.orders)
    (hcbc : u.cbc = t.cbc) (i : OrderIx) : Stamp s.gens.orders[i] u.gens.orders[i]
      (orderPart s.cbc.orders[i] = orderPart u.cbc.orders[i] ∧
        s.cbc.orders[i].map (·.openedAt) = u.cbc.orders[i].map (·.openedAt)) := by
  rw [hgens, stampOrders_orders, hkept, hcbc]
  exact stamp_ite _

theorem refsStamped {old : ShelfRec} (hkept : t.gens.refs = s.gens.refs)
    (hgens : u.gens.refs = (stampTiming old s t).gens.refs) (htsel : u.tsel = t.tsel) (r : RefIx) :
    Stamp s.gens.refs[r] u.gens.refs[r] (refPart s.tsel.refs[r] = refPart u.tsel.refs[r]) := by
  rw [hgens, stampTiming_refs, hkept, htsel]
  exact stamp_ite _

theorem stampTiming_timing (old : ShelfRec) (t : State) : (stampTiming old s t).gens.timing =
    if timingPart s.tsel old = timingPart t.tsel t.rqu.shelf then t.gens.timing else genNext t.gens.timing := rfl

theorem timingStamped (hkept : t.gens.timing = s.gens.timing)
    (hgens : u.gens.timing = (stampTiming s.rqu.shelf s t).gens.timing) (htsel : u.tsel = t.tsel) (hrqu : u.rqu = t.rqu) :
    Stamp s.gens.timing u.gens.timing (timingPart s.tsel s.rqu.shelf = timingPart u.tsel u.rqu.shelf) := by
  rw [hgens, stampTiming_timing, hkept, htsel, hrqu]
  exact stamp_ite _

end

/-- The generation words of the ports alone move. -/
theorem putPmon_gens (r : Pmon × List Msg) :
    (putPmon s r).1.gens.ports = (stampPorts pmonPart s { s with pmon := r.1 }).gens.ports ∧
    (putPmon s r).1.gens.groups = s.gens.groups ∧ (putPmon s r).1.gens.orders = s.gens.orders ∧
    (putPmon s r).1.gens.timing = s.gens.timing ∧ (putPmon s r).1.gens.refs = s.gens.refs := by
  simp only [putPmon, stampPorts_groups, stampPorts_orders, stampPorts_timing, stampPorts_refs, and_self]

theorem putTcd_gens (r : Tcd × List Msg) :
    (putTcd s r).1.gens.ports = (stampPorts tcdPart s { s with tcd := r.1 }).gens.ports ∧
    (putTcd s r).1.gens.groups = s.gens.groups ∧ (putTcd s r).1.gens.orders = s.gens.orders ∧
    (putTcd s r).1.gens.timing = s.gens.timing ∧ (putTcd s r).1.gens.refs = s.gens.refs := by
  simp only [putTcd, stampPorts_groups, stampPorts_orders, stampPorts_timing, stampPorts_refs, and_self]

theorem putCbc_gens (r : Cbc × List Msg) :
    (putCbc s r).1.gens.ports = (stampPorts cbcPart s { s with cbc := r.1 }).gens.ports ∧
    (putCbc s r).1.gens.groups = s.gens.groups ∧
    (putCbc s r).1.gens.orders = (stampOrders s (stampPorts cbcPart s { s with cbc := r.1 })).gens.orders ∧
    (putCbc s r).1.gens.timing = s.gens.timing ∧ (putCbc s r).1.gens.refs = s.gens.refs := by
  simp only [putCbc, stampOrders_ports, stampOrders_groups, stampOrders_timing, stampOrders_refs, stampPorts_groups,
    stampPorts_timing, stampPorts_refs, and_self]

theorem putPrc_gens (r : Prc × List Msg) :
    (putPrc s r).1.gens.ports = (stampPorts prcPart s { s with prc := r.1 }).gens.ports ∧
    (putPrc s r).1.gens.groups = (stampGroups s (stampPorts prcPart s { s with prc := r.1 })).gens.groups ∧
    (putPrc s r).1.gens.orders = s.gens.orders ∧
    (putPrc s r).1.gens.timing = s.gens.timing ∧ (putPrc s r).1.gens.refs = s.gens.refs := by
  simp only [putPrc, stampGroups_ports, stampGroups_orders, stampGroups_timing, stampGroups_refs, stampPorts_orders,
    stampPorts_timing, stampPorts_refs, and_self]

theorem putTsel_gens (r : Tsel × List Msg) :
    let u := stampPorts tselPart s { s with tsel := r.1, tsp := r.1.steering }
    (putTsel s r).1.gens.ports = u.gens.ports ∧ (putTsel s r).1.gens.groups = s.gens.groups ∧
    (putTsel s r).1.gens.orders = s.gens.orders ∧
    (putTsel s r).1.gens.timing = (stampTiming s.rqu.shelf s u).gens.timing ∧
    (putTsel s r).1.gens.refs = (stampTiming s.rqu.shelf s u).gens.refs := by
  simp only [putTsel, putTselFrom, stampTiming_ports, stampTiming_groups, stampTiming_orders, stampPorts_groups,
    stampPorts_orders, and_self]

theorem putPmon_stamped (r : Pmon × List Msg) : Stamped s (putPmon s r).1 := by
  have hframe : unchangedBut [.pmon, .gens] s (putPmon s r).1 := by
    intro q hq
    cases q <;> first | exact absurd (by decide) hq | simp [Part.same]
  have hput : (putPmon s r).1.pmon = r.1 := putPmon_pmon s r
  obtain ⟨hports, hgroups, horders, htiming, hrefs⟩ := putPmon_gens s r
  generalize (putPmon s r).1 = t at *
  have hsame (p : Port) (h : pmonPart s p = pmonPart { s with pmon := r.1 } p) : PortSame s t p :=
    { pmon := h.trans (pmonPart_congr (s := { s with pmon := r.1 }) (hframe .straps (by decide)) hput p)
      tcd := tcdPart_congr (hframe .tcd (by decide)) p
      cbc := cbcPart_congr (hframe .cbc (by decide)) p
      prc := prcPart_congr (hframe .prc (by decide)) p
      tsel := tselPart_congr (hframe .tsel (by decide)) p }
  have hkept : ({ s with pmon := r.1 } : State).gens.ports = s.gens.ports := rfl
  exact stamped_of (unchangedBut_mono hframe (by decide)) (fun p => portsStamped hkept hports (hsame p))
    (groupsKept hgroups (hframe .prc (by decide)))
    (ordersKept horders (hframe .cbc (by decide)))
    (timingKept htiming (hframe .tsel (by decide)) (hframe .rqu (by decide)))
    (refsKept hrefs (hframe .tsel (by decide)))

theorem putTcd_stamped (r : Tcd × List Msg) : Stamped s (putTcd s r).1 := by
  have hframe : unchangedBut [.tcd, .gens] s (putTcd s r).1 := by
    intro q hq
    cases q <;> first | exact absurd (by decide) hq | simp [Part.same]
  have hput : (putTcd s r).1.tcd = r.1 := putTcd_tcd s r
  obtain ⟨hports, hgroups, horders, htiming, hrefs⟩ := putTcd_gens s r
  generalize (putTcd s r).1 = t at *
  have hsame (p : Port) (h : tcdPart s p = tcdPart { s with tcd := r.1 } p) : PortSame s t p :=
    { pmon := pmonPart_congr (hframe .straps (by decide)) (hframe .pmon (by decide)) p
      tcd := h.trans (tcdPart_congr (s := { s with tcd := r.1 }) hput p)
      cbc := cbcPart_congr (hframe .cbc (by decide)) p
      prc := prcPart_congr (hframe .prc (by decide)) p
      tsel := tselPart_congr (hframe .tsel (by decide)) p }
  have hkept : ({ s with tcd := r.1 } : State).gens.ports = s.gens.ports := rfl
  exact stamped_of (unchangedBut_mono hframe (by decide)) (fun p => portsStamped hkept hports (hsame p))
    (groupsKept hgroups (hframe .prc (by decide)))
    (ordersKept horders (hframe .cbc (by decide)))
    (timingKept htiming (hframe .tsel (by decide)) (hframe .rqu (by decide)))
    (refsKept hrefs (hframe .tsel (by decide)))

theorem putCbc_stamped (r : Cbc × List Msg) : Stamped s (putCbc s r).1 := by
  have hframe : unchangedBut [.cbc, .gens] s (putCbc s r).1 := by
    intro q hq
    cases q <;> first | exact absurd (by decide) hq | simp [Part.same]
  have hput : (putCbc s r).1.cbc = r.1 := putCbc_cbc s r
  obtain ⟨hports, hgroups, horders, htiming, hrefs⟩ := putCbc_gens s r
  generalize (putCbc s r).1 = t at *
  have hsame (p : Port) (h : cbcPart s p = cbcPart { s with cbc := r.1 } p) : PortSame s t p :=
    { pmon := pmonPart_congr (hframe .straps (by decide)) (hframe .pmon (by decide)) p
      tcd := tcdPart_congr (hframe .tcd (by decide)) p
      cbc := h.trans (cbcPart_congr (s := { s with cbc := r.1 }) hput p)
      prc := prcPart_congr (hframe .prc (by decide)) p
      tsel := tselPart_congr (hframe .tsel (by decide)) p }
  have hkept : ({ s with cbc := r.1 } : State).gens.ports = s.gens.ports := rfl
  refine stamped_of (unchangedBut_mono hframe (by decide)) (fun p => portsStamped hkept hports (hsame p))
    (groupsKept hgroups (hframe .prc (by decide)))
    (ordersStamped (stampPorts_orders s cbcPart { s with cbc := r.1 }) horders ?_)
    (timingKept htiming (hframe .tsel (by decide)) (hframe .rqu (by decide)))
    (refsKept hrefs (hframe .tsel (by decide)))
  rw [stampPorts_cbc, hput]

theorem putPrc_stamped (r : Prc × List Msg) : Stamped s (putPrc s r).1 := by
  have hframe : unchangedBut [.prc, .gens] s (putPrc s r).1 := by
    intro q hq
    cases q <;> first | exact absurd (by decide) hq | simp [Part.same]
  have hput : (putPrc s r).1.prc = r.1 := putPrc_prc s r
  obtain ⟨hports, hgroups, horders, htiming, hrefs⟩ := putPrc_gens s r
  generalize (putPrc s r).1 = t at *
  have hsame (p : Port) (h : prcPart s p = prcPart { s with prc := r.1 } p) : PortSame s t p :=
    { pmon := pmonPart_congr (hframe .straps (by decide)) (hframe .pmon (by decide)) p
      tcd := tcdPart_congr (hframe .tcd (by decide)) p
      cbc := cbcPart_congr (hframe .cbc (by decide)) p
      prc := h.trans (prcPart_congr (s := { s with prc := r.1 }) hput p)
      tsel := tselPart_congr (hframe .tsel (by decide)) p }
  have hkept : ({ s with prc := r.1 } : State).gens.ports = s.gens.ports := rfl
  refine stamped_of (unchangedBut_mono hframe (by decide)) (fun p => portsStamped hkept hports (hsame p))
    (groupsStamped (stampPorts_groups s prcPart { s with prc := r.1 }) hgroups ?_)
    (ordersKept horders (hframe .cbc (by decide)))
    (timingKept htiming (hframe .tsel (by decide)) (hframe .rqu (by decide)))
    (refsKept hrefs (hframe .tsel (by decide)))
  rw [stampPorts_prc, hput]

theorem putTsel_stamped (r : Tsel × List Msg) : Stamped s (putTsel s r).1 := by
  have hframe : unchangedBut [.tsel, .tsp, .gens] s (putTsel s r).1 := by
    intro q hq
    cases q <;> first | exact absurd (by decide) hq | simp [Part.same, putTsel]
  have hput : (putTsel s r).1.tsel = r.1 := putTselFrom_tsel s.rqu.shelf s r
  obtain ⟨hports, hgroups, horders, htiming, hrefs⟩ := putTsel_gens s r
  generalize (putTsel s r).1 = t at *
  have hsame (p : Port) (h : tselPart s p = tselPart { s with tsel := r.1, tsp := r.1.steering } p) : PortSame s t p :=
    { pmon := pmonPart_congr (hframe .straps (by decide)) (hframe .pmon (by decide)) p
      tcd := tcdPart_congr (hframe .tcd (by decide)) p
      cbc := cbcPart_congr (hframe .cbc (by decide)) p
      prc := prcPart_congr (hframe .prc (by decide)) p
      tsel := h.trans (tselPart_congr (s := { s with tsel := r.1, tsp := r.1.steering }) hput p) }
  have hkept : ({ s with tsel := r.1, tsp := r.1.steering } : State).gens.ports = s.gens.ports := rfl
  refine stamped_of (unchangedBut_mono hframe (by decide)) (fun p => portsStamped hkept hports (hsame p))
    (groupsKept hgroups (hframe .prc (by decide)))
    (ordersKept horders (hframe .cbc (by decide)))
    (timingStamped (stampPorts_timing s tselPart { s with tsel := r.1, tsp := r.1.steering }) htiming ?_ ?_)
    (refsStamped (stampPorts_refs s tselPart { s with tsel := r.1, tsp := r.1.steering }) hrefs ?_)
  · rw [stampPorts_tsel, hput]
  · rw [stampPorts_rqu]
    exact hframe .rqu (by decide)
  · rw [stampPorts_tsel, hput]

/-- R22: a sample moves its port's word always, and no other port's part changes. -/
theorem putSample_stamped {p : Port} {r : Pmon × List Msg} (hcards : r.1.cards = s.pmon.cards)
    (hother : ∀ q : Port, q ≠ p → r.1.ports[q] = s.pmon.ports[q]) : Stamped s (putSample s p r).1 where
  ready := rfl
  groups := groupsKept rfl rfl
  orders := ordersKept rfl rfl
  timing := timingKept rfl rfl rfl
  refs := refsKept rfl rfl
  jrn := jrnKept rfl
  alarms := alarmsKept rfl
  ports q := by
    change Stamp _ (s.gens.ports.set p (genNext s.gens.ports[p]))[q] _
    rw [getElem_set_fin]
    by_cases hq : q = p
    · subst hq
      rw [if_pos rfl]
      exact .inl rfl
    · rw [if_neg hq]
      refine .inr ⟨rfl, ?_, tcdPart_congr rfl q, cbcPart_congr rfl q, prcPart_congr rfl q, tselPart_congr rfl q⟩
      have hpopulated : (putSample s p r).1.populated q = s.populated q := rfl
      have hport : (putSample s p r).1.pmon.ports[q] = s.pmon.ports[q] := hother q hq
      have hcard : (putSample s p r).1.pmon.cards = s.pmon.cards := hcards
      simp only [pmonPart, pmonFlags, hpopulated, hport, hcard]

theorem putSample_gen (p : Port) (r : Pmon × List Msg) : (putSample s p r).1.gens.ports[p] = s.gens.ports[p] + 2 :=
  Vector.getElem_set_self _

end

/-! ### The journal -/

theorem jrnWrite_keepsGen (now : Nat) (j : Jrn) (b : JBody) : (jrnWrite now j b).1.gen = j.gen := by
  unfold jrnWrite
  split
  · rfl
  · simp only
    split
    · split <;> rfl
    · rfl

theorem jrnWriteAll_keepsGen (now : Nat) (bs : List JBody) (j : Jrn) : (jrnWriteAll now j bs).1.gen = j.gen := by
  induction bs generalizing j with
  | nil => rfl
  | cons b bs ih => exact (ih _).trans (jrnWrite_keepsGen now j b)

theorem jrnStamp_stamp {old new : Jrn} (h : new.gen = old.gen) :
    Stamp old.gen (jrnStamp old new).gen (old.headerPart = (jrnStamp old new).headerPart) := by
  unfold jrnStamp
  split
  · next heq => exact .inr ⟨h, heq⟩
  · exact .inl rfl

theorem jrnRecords_stamp (s : State) (bs : List JBody) :
    Stamp s.jrn.gen (jrnRecords s bs).1.gen (s.jrn.headerPart = (jrnRecords s bs).1.headerPart) :=
  jrnStamp_stamp (jrnWriteAll_keepsGen s.now bs s.jrn)

theorem jrnMode_stamp (s : State) (stop : Bool) :
    Stamp s.jrn.gen (jrnMode s stop).1.gen (s.jrn.headerPart = (jrnMode s stop).1.headerPart) := by
  unfold jrnMode
  split
  · exact .inr ⟨rfl, rfl⟩
  · exact jrnStamp_stamp (jrnWrite_keepsGen _ _ _)

theorem jrnRelease_stamp (s : State) (v : Nat) :
    Stamp s.jrn.gen (jrnRelease s v).1.gen (s.jrn.headerPart = (jrnRelease s v).1.headerPart) := by
  unfold jrnRelease
  simp only
  split
  · exact .inr ⟨rfl, rfl⟩
  · split
    · exact jrnStamp_stamp rfl
    · split
      · exact jrnStamp_stamp (jrnWrite_keepsGen _ _ _)
      · exact jrnStamp_stamp rfl

theorem putJrn_stamped {s : State} {r : Jrn × List Msg} (h : Stamp s.jrn.gen r.1.gen (s.jrn.headerPart = r.1.headerPart)) :
    Stamped s (putJrn s r).1 where
  ready := rfl
  ports := portsKept rfl rfl rfl rfl rfl rfl rfl
  groups := groupsKept rfl rfl
  orders := ordersKept rfl rfl
  timing := timingKept rfl rfl rfl
  refs := refsKept rfl rfl
  jrn := h
  alarms := alarmsKept rfl

/-! ### The alarm table -/

/-- Work that leaves the generation words to the event's end. -/
def GensKept (a b : Alm) : Prop := ∀ j : EntryIx, b.entries[j].gen = a.entries[j].gen

theorem takes_gensKept {s : State} {w w' : AlmWork} {c : CondType × Nat} (h : Takes s w c w') : GensKept w.alm w'.alm := by
  have hput (i j : EntryIx) (x : Alarm) : (w.alm.entries.set i { w.alm.entries[i] with alarm := some x })[j].gen =
      w.alm.entries[j].gen := by
    rw [getElem_set_fin]
    by_cases hj : j = i
    · rw [if_pos hj, hj]
    · rw [if_neg hj]
  cases h with
  | free i _ => exact fun j => hput i j _
  | displaces _ i _ _ _ _ _ => exact fun j => hput i j _
  | counted _ _ => exact fun _ => rfl

theorem takeCandidates_gensKept (s : State) (cs : List (CondType × Nat)) (w : AlmWork) :
    GensKept w.alm (cs.foldl (takeCandidate s) w).alm :=
  foldl_keeps (P := fun v => GensKept w.alm v.alm)
    (fun v c h j => (takes_gensKept (takeCandidate_takes s v c) j).trans (h j)) cs fun _ => rfl

theorem gradedWork_gensKept (s : State) (a : Alm) (events : List JBody) (dropped : List (CondType × Nat)) :
    GensKept a (gradedWork s a events dropped).alm := by
  intro j
  rw [(gradedWork_passed s a events dropped).gen j, (movedWork_passed a events dropped).gen j]

theorem batchWork_gensKept (s : State) (batch : List AlmChange) : GensKept s.alm (batchWork s batch).alm := by
  intro j
  have htaken : GensKept (batchGraded s batch).alm (batchWork s batch).alm :=
    takeCandidates_gensKept s (batchCandidates s batch) (batchGraded s batch)
  have hgraded : GensKept (batchAlm s batch) (batchGraded s batch).alm :=
    gradedWork_gensKept s (batchAlm s batch) (batchEvents s batch) (droppedConds batch)
  rw [htaken j, hgraded j, (batchAlm_kept s batch).1]

theorem stampedEntry_stamp {o n : Entry} (freed : Bool) (h : n.gen = o.gen) : (stampedEntry o n freed).gen = o.gen + 4 ∨
    Stamp o.gen (stampedEntry o n freed).gen (o.alarm = (stampedEntry o n freed).alarm) := by
  unfold stampedEntry
  split
  · exact .inl (by rw [genNext, genNext, add_assoc]; rfl)
  · split
    · next heq => exact .inr (.inr ⟨h, heq⟩)
    · exact .inr (.inl rfl)

theorem putAlm_stamped {s : State} {w : AlmWork} (h : GensKept s.alm w.alm) : Stamped s (putAlm s (almFinish s.alm w)).1 where
  ready := rfl
  ports := portsKept rfl rfl rfl rfl rfl rfl rfl
  groups := groupsKept rfl rfl
  orders := ordersKept rfl rfl
  timing := timingKept rfl rfl rfl
  refs := refsKept rfl rfl
  jrn := jrnKept rfl
  alarms i := by
    change (almFinish s.alm w).1.entries[i].gen = _ ∨ Stamp _ (almFinish s.alm w).1.entries[i].gen
      (_ = (almFinish s.alm w).1.entries[i].alarm)
    rw [almFinish_entry]
    exact stampedEntry_stamp _ (h i)

theorem almCutOff_stamped (s : State) : Stamped s (putAlm s (almCutOff s)).1 := by
  have hpassed : Passed (alarmRule silencedAlarm) (List.finRange 128) (noWork s)
      ((List.finRange 128).foldl silenceEntry (noWork s)) :=
    table_passed (a := s.alm) (fun w i _ => silenceEntry_eq w i) (.refl _)
  exact putAlm_stamped (w := (List.finRange 128).foldl silenceEntry (noWork s)) hpassed.gen

/-! ### Every event (R157) -/

theorem deliver_stamped {m : Msg} (s : State) (hm : ∀ old, m ≠ .tselShelf old) : Stamped s (deliver m s).1 := by
  cases m with
  | pmonPower p code valid =>
    exact putSample_stamped s (pmonPower_cards s p code valid) fun q hq => pmonPower_other s p code valid hq
  | pmonCard p present fault => exact putPmon_stamped s _
  | pmonHold ports held => exact putPmon_stamped s _
  | tcdBit p bit valid => exact putTcd_stamped s _
  | tcdLos p declared => exact putTcd_stamped s _
  | tcdReport ports => exact putTcd_stamped s _
  | cbcPorts cs => exact putCbc_stamped s _
  | cbcTag p => exact putCbc_stamped s _
  | cbcRole p old => exact putCbc_stamped s _
  | cbcFrame f => exact putCbc_stamped s _
  | prcPorts cs => exact putPrc_stamped s _
  | prcTag p => exact putPrc_stamped s _
  | prcHold ports held => exact putPrc_stamped s _
  | prcExpect ports => exact putPrc_stamped s _
  | tselPorts ports => exact putTsel_stamped s _
  | tselTag p => exact putTsel_stamped s _
  | tselHold ports => exact putTsel_stamped s _
  | tselGroups taps => exact stamped_hpi s _
  | tselGroup g tap => exact putTsel_stamped s _
  | tselShelf old => exact absurd rfl (hm old)
  | alm batch => exact putAlm_stamped (batchWork_gensKept s batch)
  | almCutOff => exact almCutOff_stamped s
  | jrn records => exact putJrn_stamped (jrnRecords_stamp s records)
  | jrnMode stop => exact putJrn_stamped (jrnMode_stamp s stop)
  | attn src => exact stamped_hpi s _

end Sys2Proof.Proofs
end

