-- ==== Sys2Proof/Proofs/GuardedWords.lean ====
section
/-! A generation word guards the words of its part (R157). -/

namespace Sys2Proof.Proofs

open Sys2Proof.Machine Sys2Proof.Safety Sys2Proof.Laws

/-- A generation word that was `before` and is `after` stays or moves by two, and it moves where one of the words after it, up
to word `n` from `base`, changes. -/
def Guards (s t : State) (before after : Word) (base n : Nat) : Prop := (after = before ∨ after = before + 2) ∧
  ∀ k, 1 ≤ k → k < n → spmWord t (base + 2 * k) ≠ spmWord s (base + 2 * k) → after = before + 2

theorem guards_of {s t : State} {before after : Word} {same : Prop} {base n : Nat} (h : Stamp before after same)
    (hsame : same → ∀ k, 1 ≤ k → k < n → spmWord t (base + 2 * k) = spmWord s (base + 2 * k)) :
    Guards s t before after base n := by
  rcases h with h | ⟨h, hs⟩
  · exact ⟨.inr h, fun _ _ _ _ => h⟩
  · exact ⟨.inl h, fun k hk hn hne => absurd (hsame hs k hk hn) hne⟩

/-- Words that both states show are the same. -/
theorem words_agree {s t : State} {base k : Nat} {ws : List Word} (hs : WordsShown s (base + 2) ws)
    (ht : WordsShown t (base + 2) ws) (hk : 1 ≤ k) (hlen : k < ws.length + 1) :
    spmWord t (base + 2 * k) = spmWord s (base + 2 * k) := by
  obtain ⟨j, rfl⟩ := Nat.exists_eq_add_of_le hk
  have hj : j < ws.length := by omega
  rw [Nat.mul_add, ← Nat.add_assoc]
  exact (ht j _ (List.getElem?_eq_getElem hj)).trans (hs j _ (List.getElem?_eq_getElem hj)).symm

theorem wordsOf_length (l : List Byte) : (wordsOf l).length = l.length / 2 := by
  induction l using wordsOf.induct with
  | case1 hi lo l ih =>
    change (wordsOf l).length + 1 = (l.length + 2) / 2
    omega
  | case2 l hl =>
    match l, hl with
    | [], _ => rfl
    | [b], _ => simp [wordsOf]
    | hi :: lo :: l, hl => exact absurd rfl (hl hi lo l)

/-! ### A port's entry by its blocks' parts -/

/-- A port's entry after its generation word, from the parts of PMON, TCD, CBC, PRC and TSEL. -/
def portRest (a b c d e : List Nat × List Byte) : List Byte :=
  let n (l : List Nat) (k : Nat) : Nat := l.getD k 0
  let flags := n a.1 0 + n c.1 0 * 512 + n c.1 1 * 1024 + n d.1 0 * 2048 + n d.1 1 * 4096 + n d.1 2 * 8192 +
    n b.1 0 * 16384 + n b.1 1 * 32768
  bytes16 flags ++
  [byte8 (n a.1 1 * 64 + n a.1 2 * 8 + n a.1 3), byte8 (n a.1 4 * 64 + n c.1 2 * 8 + n c.1 3)] ++ a.2 ++ c.2 ++
  [byte8 (n b.1 2 * 64 + n c.1 4), byte8 (n b.1 3 * 64 + n b.1 4)] ++ b.2.take 2 ++
  [byte8 (n b.1 5 * 16 + n b.1 6), byte8 (n b.1 7 * 8 + n b.1 8), byte8 (n d.1 3 * 64 + n d.1 4),
    byte8 (n e.1 0 * 16 + n c.1 5)] ++ b.2.drop 2

theorem portEntry_eq (s : State) (p : Port) : portEntry s p = bytes16 s.gens.ports[p].toNat ++
    portRest (pmonPart s p) (tcdPart s p) (cbcPart s p) (prcPart s p) (tselPart s p) := by
  simp only [portEntry, portRest, List.append_assoc]

/-- The words of a port after its generation word. -/
theorem portRest_words (s : State) (p : Port) :
    wordsOf (portRest (pmonPart s p) (tcdPart s p) (cbcPart s p) (prcPart s p) (tselPart s p)) =
      flagWords s p ++ pmonWords s p ++ linkWords s p := by
  have h := wordsOf_portEntry s p
  rw [portEntry_eq, wordsOf_bytes16] at h
  exact (List.cons.inj h).2

/-! ### The journal part of the shelf header -/

/-- The words of the journal part after its generation word. -/
def jrnWords (j : Jrn) : List Word :=
  [BitVec.ofNat 16 j.newestPos, BitVec.ofNat 16 j.newestSeq, BitVec.ofNat 16 j.unrel, BitVec.ofNat 16 j.lost,
    BitVec.ofNat 16 j.badRel, BitVec.ofNat 16 (shownBits [j.stop, j.full])]

theorem headerWords_jrn (s : State) : ∃ head last, head.length = 9 ∧ headerWords s = head ++ jrnWords s.jrn ++ last := by
  refine ⟨(headerWords s).take 9, (headerWords s).drop 15, rfl, ?_⟩
  rfl

theorem jrnWords_congr {j k : Jrn} (h : j.headerPart = k.headerPart) : jrnWords j = jrnWords k := by
  have hbit : ∀ a b : Bool, a.toNat = b.toNat → a = b := by decide
  simp only [Jrn.headerPart, List.cons.injEq, and_true] at h
  obtain ⟨hpos, hseq, hunrel, hlost, hbad, hstop, hfull⟩ := h
  rw [jrnWords, jrnWords, hpos, hseq, hunrel, hlost, hbad, hbit _ _ hstop, hbit _ _ hfull]

/-! ### The words that each generation word guards -/

section
variable {s t : State} (hs : s.start.ready = true) (ht : t.start.ready = true)
include hs ht

theorem portWords_agree {p : Port} (h : PortSame s t p) {k : Nat} (hk : 1 ≤ k) (hn : k < 16) :
    spmWord t (0x1300 + 32 * p.val + 2 * k) = spmWord s (0x1300 + 32 * p.val + 2 * k) := by
  have hwords : flagWords s p ++ pmonWords s p ++ linkWords s p = flagWords t p ++ pmonWords t p ++ linkWords t p := by
    rw [← portRest_words, ← portRest_words, h.pmon, h.tcd, h.cbc, h.prc, h.tsel]
  have hshown := (wordsShown_cons.1 (portWords_shown p ht)).2
  rw [← hwords] at hshown
  refine words_agree (wordsShown_cons.1 (portWords_shown p hs)).2 hshown hk ?_
  rw [List.length_append, List.length_append, pmonWords_length]
  exact hn

theorem groupWords_agree {g : GroupIx} (h : groupPart s.prc g = groupPart t.prc g) {k : Nat} (hk : 1 ≤ k) (hn : k < 16) :
    spmWord t (0x1B00 + 32 * g.val + 2 * k) = spmWord s (0x1B00 + 32 * g.val + 2 * k) := by
  refine words_agree (groupPart_shown g hs).2 (h ▸ (groupPart_shown g ht).2) hk ?_
  rw [wordsOf_length, groupPart_length]
  exact hn

theorem orderWords_agree {i : OrderIx} (h : orderPart s.cbc.orders[i] = orderPart t.cbc.orders[i]) {k : Nat} (hk : 1 ≤ k)
    (hn : k < 32) : spmWord t (0x1E00 + 64 * i.val + 2 * k) = spmWord s (0x1E00 + 64 * i.val + 2 * k) := by
  have hlow : 0x1E00 + 64 * i.val + 2 + 62 ≤ 0x7FF0 := by omega
  have hwords {u : State} (hu : u.start.ready = true) :
      WordsShown u (0x1E00 + 64 * i.val + 2) (wordsOf (orderPart u.cbc.orders[i])) :=
    (orderBytes_shown hu i).2.words hu (by rw [orderPart_length]; exact hlow)
  refine words_agree (hwords hs) (h ▸ hwords ht) hk ?_
  rw [wordsOf_length, orderPart_length]
  exact hn

theorem openedWords_agree {i : OrderIx} (h : s.cbc.orders[i].map (·.openedAt) = t.cbc.orders[i].map (·.openedAt)) :
    spmWord t (0x40 + 4 * i.val) = spmWord s (0x40 + 4 * i.val) ∧
    spmWord t (0x42 + 4 * i.val) = spmWord s (0x42 + 4 * i.val) := by
  obtain ⟨-, -, hs, -⟩ := headerFields_shown hs
  obtain ⟨-, -, ht, -⟩ := headerFields_shown ht
  have hs := hs i
  have ht := ht i
  rw [h] at hs
  have hat : 0x42 + 4 * i.val = 0x40 + 4 * i.val + 2 := by omega
  rw [hat]
  exact ⟨(ht 0 _ rfl).trans (hs 0 _ rfl).symm, (ht 1 _ rfl).trans (hs 1 _ rfl).symm⟩

theorem timingWords_agree (h : timingPart s.tsel s.rqu.shelf = timingPart t.tsel t.rqu.shelf) {k : Nat} (hk : 1 ≤ k)
    (hn : k < 48) : spmWord t (0x1D00 + 2 * k) = spmWord s (0x1D00 + 2 * k) := by
  have hlen : ∀ u : State, (timingPart u.tsel u.rqu.shelf).length = 94 := fun u => by
    rw [timingPart_eq, List.length_append, timingHead_length, historyBytes_length]
  have hwords {u : State} (hu : u.start.ready = true) :
      WordsShown u (0x1D00 + 2) (wordsOf (timingPart u.tsel u.rqu.shelf)) := by
    have hall := timing_shown u (by rw [timingBytes_length]; omega)
    rw [timingBytes] at hall
    exact hall.append.1.append.2.words hu (by rw [hlen]; decide)
  refine words_agree (hwords hs) (h ▸ hwords ht) hk ?_
  rw [wordsOf_length, hlen]
  exact hn

theorem refWords_agree {r : RefIx} (h : refPart s.tsel.refs[r] = refPart t.tsel.refs[r]) {k : Nat} (hk : 1 ≤ k) (hn : k < 12) :
    spmWord t (0x1D60 + 24 * r.val + 2 * k) = spmWord s (0x1D60 + 24 * r.val + 2 * k) := by
  have hwords {u : State} (hu : u.start.ready = true) :
      WordsShown u (0x1D60 + 24 * r.val + 2) (wordsOf (refPart u.tsel.refs[r])) := by
    rw [wordsOf_refPart]
    exact (wordsShown_cons.1 (refFields_shown hu r)).2
  refine words_agree (hwords hs) (h ▸ hwords ht) hk ?_
  rw [wordsOf_length, refPart_length]
  exact hn

theorem jrnWords_agree (h : s.jrn.headerPart = t.jrn.headerPart) {k : Nat} (hk : 1 ≤ k) (hn : k < 7) :
    spmWord t (0x10 + 2 * k) = spmWord s (0x10 + 2 * k) := by
  have hwords {u : State} (hu : u.start.ready = true) : WordsShown u (0x10 + 2) (jrnWords u.jrn) := by
    obtain ⟨hall, -⟩ := headerFields_shown hu
    obtain ⟨head, last, hlen, heq⟩ := headerWords_jrn u
    rw [heq] at hall
    have hrest := (wordsShown_append.1 (wordsShown_append.1 hall).1).2
    rwa [hlen] at hrest
  have ht := hwords ht
  rw [← jrnWords_congr h] at ht
  exact words_agree (hwords hs) ht hk hn

theorem alarmWords_agree {i : EntryIx} (h : s.alm.entries[i].alarm = t.alm.entries[i].alarm) {k : Nat} (hk : 1 ≤ k)
    (hn : k < 8) : spmWord t (0x2200 + 16 * i.val + 2 * k) = spmWord s (0x2200 + 16 * i.val + 2 * k) := by
  refine words_agree (alarmRest_shown hs i).2 (h ▸ (alarmRest_shown ht i).2) hk ?_
  rw [wordsOf_length, alarmRest_length]
  exact hn

end

/-! ### What the host reads across an event -/

section
variable {s t : State} (h : Stamped s t) (hs : s.start.ready = true)
include h hs

theorem stamped_orders (i : OrderIx) :
    Guards s t s.gens.orders[i] t.gens.orders[i] (0x1E00 + 64 * i.val) 32 ∧
    ((spmWord t (0x40 + 4 * i.val) ≠ spmWord s (0x40 + 4 * i.val) ∨
      spmWord t (0x42 + 4 * i.val) ≠ spmWord s (0x42 + 4 * i.val)) → t.gens.orders[i] = s.gens.orders[i] + 2) := by
  have ht := h.ready.trans hs
  refine ⟨guards_of (h.orders i) fun hsame _ => orderWords_agree hs ht hsame.1, fun hmoved => ?_⟩
  rcases h.orders i with hstamp | ⟨-, -, hsame⟩
  · exact hstamp
  · obtain ⟨hhi, hlo⟩ := openedWords_agree hs ht hsame
    exact hmoved.elim (absurd hhi) (absurd hlo)

theorem stamped_alarms (i : EntryIx) :
    let base := 0x2200 + 16 * i.val
    (spmWord t base = spmWord s base ∨ spmWord t base = spmWord s base + 2 ∨ spmWord t base = spmWord s base + 4) ∧
    ∀ k, 1 ≤ k → k < 8 → spmWord t (base + 2 * k) ≠ spmWord s (base + 2 * k) → spmWord t base ≠ spmWord s base := by
  have ht := h.ready.trans hs
  have htwo : ∀ w : Word, w + 2 ≠ w := fun w => by bv_omega
  have hfour : ∀ w : Word, w + 4 ≠ w := fun w => by bv_omega
  intro base
  rw [(alarmRest_shown ht i).1, (alarmRest_shown hs i).1]
  rcases h.alarms i with hgen | hgen | ⟨hgen, hsame⟩
  · exact ⟨.inr (.inr hgen), fun _ _ _ _ heq => hfour _ (hgen.symm.trans heq)⟩
  · exact ⟨.inr (.inl hgen), fun _ _ _ _ heq => htwo _ (hgen.symm.trans heq)⟩
  · exact ⟨.inl hgen, fun k hk hn hne => absurd (alarmWords_agree hs ht hsame hk hn) hne⟩

/-- R157: each generation word guards its part. -/
theorem stamped_guards :
    (∀ p : Port, Guards s t s.gens.ports[p] t.gens.ports[p] (0x1300 + 32 * p.val) 16) ∧
    (∀ g : GroupIx, Guards s t s.gens.groups[g] t.gens.groups[g] (0x1B00 + 32 * g.val) 16) ∧
    Guards s t s.gens.timing t.gens.timing 0x1D00 48 ∧
    (∀ r : RefIx, Guards s t s.gens.refs[r] t.gens.refs[r] (0x1D60 + 24 * r.val) 12) ∧
    Guards s t s.jrn.gen t.jrn.gen 0x10 7 := by
  have ht := h.ready.trans hs
  exact ⟨fun p => guards_of (h.ports p) fun hsame _ => portWords_agree hs ht hsame,
    fun g => guards_of (h.groups g) fun hsame _ => groupWords_agree hs ht hsame,
    guards_of h.timing fun hsame _ => timingWords_agree hs ht hsame,
    fun r => guards_of (h.refs r) fun hsame _ => refWords_agree hs ht hsame,
    guards_of h.jrn fun hsame _ => jrnWords_agree hs ht hsame⟩

end

end Sys2Proof.Proofs
end

