-- ==== Sys2Proof/Proofs/BytesRead.lean ====
section
/-! The bytes the host reads (section 10.5, R154 to R158): the statement over all regions. -/

namespace Sys2Proof.Proofs

open Sys2Proof.Machine Sys2Proof.Safety Sys2Proof.Laws

theorem hostByteRead_unheard {s : State} {x : HostAddr} (h : handedAddr s false x = none) :
    exec (.hostByteRead x) s = .next s := by
  obtain ⟨-, hunheard⟩ := hostByte_unheard s x 0
  exact hunheard (by rw [byteAccess_eq, h])

/-- Settles O40: the snapshot by the cases of `hostByteRead`; the words of each region from the bytes of its part; the
generation words by what each block's event stamps. -/
theorem bytesReadTheirWord : Obligations.BytesReadTheirWord := by
  unfold Obligations.BytesReadTheirWord
  refine ⟨fun x s => ⟨hostByteRead_unheard, fun a ha => ?_⟩, fun s hready => ?_, fun s m hready hm => ?_, fun s v hready => ?_,
    fun s => ⟨fun hinit a ha => spmWord_init hinit ha, ?_⟩⟩
  · intro now part
    have hpart : part = byteAt a := funext fun w => (byteAt_eq a w).symm
    rw [hpart]
    have hexec := exec_hostByteRead ha
    obtain ⟨run, hu⟩ := pastByte_eq s false x a
    generalize pastByte s false x a = u at hexec hu ⊢
    subst hu
    obtain ⟨snap, out, hread, hnew, hold⟩ := hostByteRead_said (running s run) a
    rw [hread] at hexec
    exact ⟨_, hexec, rfl, port_unchanged s rfl, hnew, hold⟩
  · obtain ⟨hheader, hzeros, hopened, hlast⟩ := headerFields_shown hready
    refine ⟨fun a heven h => spmWord_memory hready heven h, fun p => portFields_shown p hready,
      fun gi => groupFields_shown gi hready, timingFields_shown hready, fun r => (wordsShown_append.1 (refFields_shown hready r)).1, fun i => ?_, fun i => ?_,
      fun n => ?_, hheader, hzeros, hlast⟩
    · obtain ⟨hnone, hsome⟩ := orderFields_shown hready i
      refine ⟨(orderBytes_shown hready i).1, hnone, fun o ho => ⟨hsome o ho, ?_, fun k hk => itemFields_shown hready i ho hk⟩⟩
      have hopened := hopened i
      rw [ho] at hopened
      exact hopened
    · exact alarmFields_shown hready i
    · obtain ⟨hnone, hsome⟩ := recordFields_shown hready n
      refine ⟨hnone, fun b hb => ?_⟩
      have hrecord := hsome b hb
      cases b with
      | event t o data => cases data <;> exact hrecord
      | _ => exact hrecord
  · have hstamped := deliver_stamped s hm
    obtain ⟨hports, hgroups, htiming, hrefs, hjrn⟩ := stamped_guards hstamped hready
    refine ⟨fun p => ⟨hports p, fun code valid hpower => ?_⟩, hgroups, stamped_orders hstamped hready, htiming, hrefs, hjrn,
      stamped_alarms hstamped hready⟩
    subst hpower
    exact putSample_gen s p _
  · have hstamped := putJrn_stamped (jrnRelease_stamp s v)
    obtain ⟨-, -, -, -, hjrn⟩ := stamped_guards hstamped hready
    exact hjrn
  · obtain ⟨h0, h2, h4, h8, h6, h10, h12, h14⟩ := registers_read s
    exact ⟨h0, h2, h4, h8, h6, h10, h12, h14, fun hready n hn heven => spmWord_unassigned hready hn heven⟩

end Sys2Proof.Proofs
end
